-- ==== Sys2Proof/Word.lean ====
section
/-! DEFINITION. The word types of the Brixzia X4: 64-bit registers and instruction words, bytes, lane masks. -/

namespace Sys2Proof

/-- A register, a memory word, an instruction word (01 R9, 02 R32). -/
abbrev W64 := BitVec 64
/-- One byte of memory. -/
abbrev Byte := BitVec 8
/-- A set of the 32 lanes of a group (01 R16). -/
abbrev Mask := BitVec 32
/-- A general register number v0 to v63 (02 R34). -/
abbrev Reg := BitVec 6

end Sys2Proof
end

