-- ==== Sys2Proof/Config.lean ====
section
/-! DEFINITION. What the spec leaves open: constants without a body. Nothing can be proved of their values, so a
statement about the machine holds whatever they are. -/

namespace Sys2Proof

/-- Which of the events that can happen next does happen (00 R5, 06 R169, 07 R192, 11 R297; log 2). -/
opaque Config.pick : Nat → Nat

/-- A general register that REGROUP leaves undefined in a moved lane (01 R31; log 4). -/
opaque Config.movedReg : Nat → W64

/-- The taint of such a register (01 R31; log 4). -/
opaque Config.movedTaint : Nat → Bool

/-- The first byte of an allocation in the SRAM of its core (01 R27; log 5). -/
opaque Config.scbOffset : Nat → BitVec 21

/-- A completion object that a program stored to while a copy names it: word 0 and word 1 (07 R188; log 6). -/
opaque Config.objectWord : Nat → W64

/-- The old value that an access ending FABRIC_UNREACHABLE returns (19 R402; log 8). -/
opaque Config.unreachableOld : Nat → W64

/-- The status of such an access, and whether it was performed (19 R402; log 8). -/
opaque Config.unreachableBit : Nat → Bool

/-- A word of a push-down list outside the pairs that a UNIFY in progress still has to do (10 R276; log 9). -/
opaque Config.pdlWord : Nat → W64

/-- Whether a slice of the chip holds a CONTREG's entry before the CONTREG completes: the act, and the slice (19 R386). -/
opaque Config.sliceEarly : Nat → Nat → Bool

/-- The die on which the L2 home slice of a line lies (16 R347). -/
opaque Config.dieOf : Nat → Nat

/-- Whether a stream is routed through a port: the act, the port and the stream (21 R419). -/
opaque Config.routed : Nat → Nat → Nat → Bool

/-- Whether the route table has no route left to a chip: the act, and the chip (21 R419). -/
opaque Config.noRoute : Nat → Nat → Bool

/-- The other chips of the fabric domain that a bring-up joins (21 R426; log 14). -/
opaque Config.domain : Nat → List Nat

/-- The digest of the fuse state, the split default and the bins at a bring-up (21 R424). -/
opaque Config.bringUp : Nat → BitVec 256

/-- Whether an ECDSA P-256 signature verifies: key slot, signed bytes, r and s (21 R423; log 10). -/
opaque Config.sigOk : Nat → List Byte → List Byte → List Byte → Bool

/-- The ECDSA P-256 signature of a message with the device identity key, 64 bytes (21 R425; log 10). -/
opaque Config.sign : List Byte → List Byte

/-- Which entry a full cache or TLB replaces (09 R268, 17 R359: no policy is given; log 91). -/
opaque Config.victim : Nat → Nat

/-- The set of a cluster TLB in which a translation lies (17 R359: no function is given; log 91). -/
opaque Config.tlbSet : Nat → Nat

/-- The address of the save area of a queue, which F2 sets when the queue is made: the act (15 R323; log 99). -/
opaque Config.saveArea : Nat → W64

/-- In which order the words of the header of a save image stand: a number for each order (17 R370; log 99). -/
opaque Config.headerLayout : Nat

/-- A word of FSTATE: the act that wrote it, and which of the ten (15 R323; log 102). -/
opaque Config.fstateWord : Nat → Nat → W64

/-- Where in a fault ring the records lie, the count of dropped records and the host's count of records read, as offsets (17 R365;
log 103). -/
opaque Config.ringRecord : Nat → Nat
/-- The word that counts the dropped records. -/
opaque Config.ringDropped : Nat
/-- The word in which the host counts the records that it has read. -/
opaque Config.ringRead : Nat

/-- Which of the acts of a core that may leave it leaves next (06 R147, 11 R289: no order is given; log 2). -/
opaque Config.leaves : Nat → Nat

/-- Which sector a core reads ahead of the loads of a group, and how: past the cluster cache if odd (11 R289; log 113). -/
opaque Config.ahead : Nat → Nat

/-- Whether a load takes the bytes that its core has read ahead (11 R289; log 113). -/
opaque Config.useAhead : Nat → Bool

/-- Whether an issue of a launch sets its watchdog count to 0, as 21 R420 says, or is only not counted, as 19 R401 says and as 09 R271, 14
R314 and 19 R402 need of a launch that spins (log 98). -/
opaque Config.issueResets : Bool

/-- Which core a margin alarm or a corrected error strikes, and which of the two it is (21 R409, R421): 1,024 times the kind plus the core. -/
opaque Config.wear : Nat → Nat

/-- The bin that the self-test of a bring-up gives a core: the act, and the core (21 R426). -/
opaque Config.testBin : Nat → Nat → Nat

/-- The port at which a flit arrives: the act (21 R418). -/
opaque Config.flitPort : Nat → Nat

/-- The bytes of the retry buffers that a message takes, by the bytes that it carries (19 R394: no size is given; log 95). -/
opaque Config.retryBytes : Nat → Nat

end Sys2Proof
end

