-- ==== Sys2Proof/Syntax.lean ====
section
/-! DEFINITION. The instruction syntax of the Brixzia X4: operands, the operand records of each
class layout (02 R49 to R61), and the one inductive of instructions, a constructor for each row of the
operation table: the words of programs, the slot operations of dual words, and the events of the part. -/

namespace Sys2Proof

/-! ## Operands -/

/-- What a 7-bit source code names (02 R37). `imm k` is the inline constant `k - 16`. -/
inductive Src where
  | reg (r : Reg)
  | latch (n : BitVec 2)
  | zero
  | lane
  | ones
  | imm (k : Fin 48)
  deriving DecidableEq, Repr

/-- The 2-bit operand modifier (02 R39). -/
inductive Md where
  | whole
  | lo
  | hi
  | sw
  deriving DecidableEq, Repr

/-- A source with its modifier. -/
structure Opnd where
  src : Src
  md : Md
  deriving DecidableEq, Repr

/-- A predicate operand in a source field (02 R57). -/
structure PredOp where
  p : BitVec 3
  neg : Bool
  deriving DecidableEq, Repr

/-- TYPE read by the integer classes (02 R40). -/
inductive IType where
  | i64
  | i32x2
  | i16x4
  | i8x8
  | i4x16
  deriving DecidableEq, Repr

/-- TYPE read by the float classes (02 R40). -/
inductive FType where
  | f64
  | f32x2
  | bf16x4
  | f16x4
  | f8e4x8
  | f8e5x8
  deriving DecidableEq, Repr

/-- TYPE read as an access size (02 R40). -/
inductive Size where
  | b1
  | b2
  | b4
  | b8
  | b16
  | b32
  deriving DecidableEq, Repr

/-- Condition codes 0 to 7 of CMP and UCMP (02 R58). -/
inductive Cond where
  | eq
  | ne
  | lt
  | le
  | gt
  | ge
  | any
  | none
  deriving DecidableEq, Repr

/-- Condition codes of FCMP (02 R58). -/
inductive FCond where
  | eq
  | ne
  | lt
  | le
  | gt
  | ge
  | un
  | ord
  deriving DecidableEq, Repr

/-- Condition codes 0 to 11 of WAITC and WAITSIG (02 R58). -/
inductive WCond where
  | eq
  | ne
  | lt
  | le
  | gt
  | ge
  | any
  | none
  | ltu
  | leu
  | gtu
  | geu
  deriving DecidableEq, Repr

/-- ORDER (02 R59). -/
inductive Order where
  | rlx
  | acq
  | rel
  | ar
  deriving DecidableEq, Repr

/-- ASCOPE, the agent scope (02 R59). -/
inductive AScope where
  | grp
  | blk
  | clu
  | dev
  | fab
  | sys
  deriving DecidableEq, Repr

/-- SSCOPE, the storage scope (02 R59). -/
inductive SScope where
  | s
  | g
  | sg
  deriving DecidableEq, Repr

/-- CH, the cache hint (02 R52). -/
inductive Hint where
  | normal
  | stream
  | retain
  | noalloc
  deriving DecidableEq, Repr

/-- The two-bit rounding field (03 R69). -/
inductive RMode where
  | rne
  | rz
  | ru
  | rd
  deriving DecidableEq, Repr

/-- The formats of CVT (05 R127). -/
inductive CFmt where
  | f64
  | f32
  | bf16
  | f16
  | e4m3
  | e5m2
  | s64
  | s32
  | s16
  | s8
  | u64
  | u32
  | u16
  | u8
  deriving DecidableEq, Repr

/-- Integer operations of REDL and SCANL (05 R135). -/
inductive ROp where
  | add
  | min
  | max
  | umin
  | umax
  | and
  | or
  | xor
  deriving DecidableEq, Repr

/-- Float operations of REDL and SCANL (05 R135). -/
inductive RFOp where
  | fadd
  | fmin
  | fmax
  deriving DecidableEq, Repr

/-- The operation and TYPE of REDL and SCANL: the operation decides how TYPE reads (05 R102, R135). -/
inductive LaneOp where
  | int (o : ROp) (t : IType)
  | flt (o : RFOp) (t : FType)
  deriving DecidableEq, Repr

/-- A special register that RDSR reads (01 R29). -/
inductive SReg where
  | lane
  | gid
  | wid0
  | wid1
  | wid2
  | wid3
  | wid4
  | wid5
  | qpkt
  | asid
  | clid
  | core
  | scb
  | tt
  | ht
  | mt
  | upd
  | acb
  | acl
  | bcnt
  | dsp
  | flg
  | fex
  | tix0
  | tix1
  | tix2
  | tix3
  | tix4
  deriving DecidableEq, Repr

/-- A counter that PERF reads (08 R253). -/
inductive Counter where
  | words
  | slips
  | icMisses
  | assists
  | rewinds
  | mmas
  | copies
  | pairs
  | fails
  | adopts
  deriving DecidableEq, Repr

/-- The slice MOVHI writes (05 R108). -/
inductive Slice where
  | j1
  | j2
  | j3
  deriving DecidableEq, Repr

/-- The half and extension of UNPK (05 R113). -/
inductive UnpkSel where
  | lz
  | hz
  | ls
  | hs
  deriving DecidableEq, Repr

/-- The status predicate pair of ATOMC (02 R55). -/
inductive PPair where
  | p0
  | p2
  | p4
  deriving DecidableEq, Repr

/-- The target of PREF (06 R153). -/
inductive PrefTarget where
  | l2
  | cc
  | icache
  deriving DecidableEq, Repr

/-- The A format of a float MMA (07 R199). -/
inductive AFmt where
  | e4m3
  | e5m2
  | bf16
  | fp16
  deriving DecidableEq, Repr

/-- The tile format of MLOAD and MSTORE (07 R205). -/
inductive TileFmt where
  | f32
  | bf16
  | f16
  | e4m3
  | e5m2
  deriving DecidableEq, Repr

/-- TSWEEP operations (07 R213). -/
inductive SweepOp where
  | mov
  | add
  | sub
  | mul
  | min
  | max
  | relu
  | exp2
  | tanh
  | rcp
  | rsq
  deriving DecidableEq, Repr

/-- TSRED operations (07 R213). -/
inductive RedOp where
  | add
  | max
  | min
  | addsq
  deriving DecidableEq, Repr

/-! ## The records of the class layouts -/

/-- What every full word carries: two guards (02 R35), STALL and YLD (02 R42, R44). -/
structure Ctl where
  ga : BitVec 3
  na : Bool
  gb : BitVec 3
  nb : Bool
  stall : BitVec 5
  yld : Bool
  deriving DecidableEq, Repr

/-- A destination register with its NWB mark (02 R41). -/
structure Dst where
  r : Reg
  nwb : Bool
  deriving DecidableEq, Repr

/-- One source and a TYPE. -/
structure R1 (τ : Type) where
  d : Dst
  a : Opnd
  t : τ
  deriving DecidableEq, Repr

/-- Two sources and a TYPE. -/
structure R2 (τ : Type) where
  d : Dst
  a : Opnd
  b : Opnd
  t : τ
  deriving DecidableEq, Repr

/-- Three sources and a TYPE. -/
structure R3 (τ : Type) where
  d : Dst
  a : Opnd
  b : Opnd
  c : Opnd
  t : τ
  deriving DecidableEq, Repr

/-- LEA: two sources and a raw shift (05 R106). -/
structure RLea where
  d : Dst
  a : Opnd
  b : Opnd
  k : BitVec 3
  deriving DecidableEq, Repr

/-- SEL: two values and a predicate operand (05 R107). -/
structure RSel where
  d : Dst
  a : Opnd
  b : Opnd
  p : PredOp
  t : IType
  deriving DecidableEq, Repr

/-- MOVI (05 R106). -/
structure RMovi where
  d : Dst
  imm : BitVec 18
  deriving DecidableEq, Repr

/-- MOVHI (05 R108). -/
structure RMovhi where
  d : Dst
  j : Slice
  imm : BitVec 18
  deriving DecidableEq, Repr

/-- UNPK (05 R113). -/
structure RUnpk where
  d : Dst
  a : Opnd
  x : UnpkSel
  t : IType
  deriving DecidableEq, Repr

/-- A source and a raw number: QUNPK's group, PLANE's and UNPLANE's bit (05 R131, R132). -/
structure RRaw (τ : Type) where
  d : Dst
  a : Opnd
  k : BitVec 7
  t : τ
  deriving DecidableEq, Repr

/-- FROUND (05 R122). -/
structure RFround where
  d : Dst
  a : Opnd
  m : RMode
  t : FType
  deriving DecidableEq, Repr

/-- CVT (05 R127). -/
structure RCvt where
  d : Dst
  a : Opnd
  dst : CFmt
  src : CFmt
  m : RMode
  deriving DecidableEq, Repr

/-- A destination and one source, TYPE 0. -/
structure RD1 where
  d : Dst
  a : Opnd
  deriving DecidableEq, Repr

/-- A destination and two sources, TYPE 0. -/
structure RD2 where
  d : Dst
  a : Opnd
  b : Opnd
  deriving DecidableEq, Repr

/-- REDL and SCANL (05 R135); `excl` only for SCANL. -/
structure RLane where
  d : Dst
  a : Opnd
  op : LaneOp
  excl : Bool
  deriving DecidableEq, Repr

/-- A comparison into a predicate (05 R114, R115). -/
structure PCmp (τ κ : Type) where
  p : BitVec 3
  a : Opnd
  b : Opnd
  cc : κ
  t : τ
  deriving DecidableEq, Repr

/-- PAND, POR, PXOR (05 R116). -/
structure PLog2 where
  p : BitVec 3
  q : PredOp
  s : PredOp
  deriving DecidableEq, Repr

/-- PNOT, PMOV (05 R116). -/
structure PLog1 where
  p : BitVec 3
  q : PredOp
  deriving DecidableEq, Repr

/-- A predicate destination with one source. -/
structure P1 where
  p : BitVec 3
  a : Opnd
  deriving DecidableEq, Repr

/-- A predicate destination with two sources. -/
structure P2 where
  p : BitVec 3
  a : Opnd
  b : Opnd
  deriving DecidableEq, Repr

/-- UNIFY: MODA carries `.f`, so the first source has no modifier (02 R61, 08 R236). -/
structure PUnify where
  p : BitVec 3
  a : Src
  f : Bool
  b : Opnd
  deriving DecidableEq, Repr

/-- A plain load (02 R51, 06 R149). -/
structure MLd where
  d : Dst
  a : Src
  off : BitVec 18
  sz : Size
  ch : Hint
  deriving DecidableEq, Repr

/-- A plain store; `d` is the data register (06 R154). -/
structure MSt where
  d : Reg
  a : Src
  off : BitVec 18
  sz : Size
  ch : Hint
  deriving DecidableEq, Repr

/-- ZERO (06 R154). -/
structure MZero where
  a : Src
  off : BitVec 18
  sz : Size
  ch : Hint
  deriving DecidableEq, Repr

/-- PREF (06 R153). -/
structure MPref where
  tg : PrefTarget
  a : Src
  off : BitVec 18
  ch : Hint
  deriving DecidableEq, Repr

/-- INV and WB (06 R177). -/
structure MSec where
  a : Src
  off : BitVec 18
  deriving DecidableEq, Repr

/-- LDA (02 R53). -/
structure OLd where
  d : Dst
  a : Src
  ofs : BitVec 13
  asc : AScope
  ssc : SScope
  sz : Size
  deriving DecidableEq, Repr

/-- STL (02 R53); `d` is the data register. -/
structure OSt where
  d : Reg
  a : Src
  ofs : BitVec 13
  asc : AScope
  ssc : SScope
  sz : Size
  deriving DecidableEq, Repr

/-- FENCE (06 R158). -/
structure OFence where
  ord : Order
  asc : AScope
  ssc : SScope
  deriving DecidableEq, Repr

/-- ATOM, all functions but CAS (06 R159). -/
structure AAtom where
  d : Dst
  a : Src
  b : Src
  ord : Order
  asc : AScope
  ssc : SScope
  sz : Size
  deriving DecidableEq, Repr

/-- ATOM.cas (06 R159). -/
structure ACas where
  d : Dst
  a : Src
  b : Src
  c : Src
  ord : Order
  asc : AScope
  ssc : SScope
  sz : Size
  deriving DecidableEq, Repr

/-- RED (06 R159). -/
structure ARed where
  a : Src
  b : Src
  ord : Order
  asc : AScope
  ssc : SScope
  sz : Size
  deriving DecidableEq, Repr

/-- CASC; `c` is the base of new value and task word (06 R165). -/
structure ACasc where
  d : Dst
  a : Src
  b : Src
  c : Reg
  pp : PPair
  asc : AScope
  ssc : SScope
  deriving DecidableEq, Repr

/-- DECC (06 R165). -/
structure ADecc where
  d : Dst
  a : Src
  b : Src
  c : Src
  pp : PPair
  asc : AScope
  ssc : SScope
  deriving DecidableEq, Repr

/-- WAITC (06 R168); `acq` is ORDER 01. -/
structure AWaitc where
  d : Dst
  a : Src
  b : Src
  cc : WCond
  acq : Bool
  asc : AScope
  ssc : SScope
  sz : Size
  deriving DecidableEq, Repr

/-- COPY, COPYM, COPYS: object register, scratch side, record, coordinate base (07 R189). -/
structure CBox where
  o : Reg
  a : Opnd
  b : Opnd
  c : Reg
  ch : Hint
  deriving DecidableEq, Repr

/-- COPYG (07 R189). -/
structure CGlob where
  o : Reg
  a : Opnd
  b : Opnd
  n : Opnd
  ch : Hint
  deriving DecidableEq, Repr

/-- A float-B MMA (07 R199). -/
structure XMmaF where
  tile : BitVec 4
  a : Src
  b : Src
  af : AFmt
  pair : Bool
  deriving DecidableEq, Repr

/-- An integer-B MMA, A is INT8 (07 R199). -/
structure XMmaI where
  tile : BitVec 4
  a : Src
  b : Src
  pair : Bool
  deriving DecidableEq, Repr

/-- A QC4 MMA with its scale base (07 R199). -/
structure XMmaQ where
  tile : BitVec 4
  a : Src
  b : Src
  sc : Reg
  af : AFmt
  bs : Bool
  pair : Bool
  deriving DecidableEq, Repr

/-- MLOAD and MSTORE (07 R205). -/
structure XTile where
  tile : BitVec 4
  a : Opnd
  fmt : TileFmt
  deriving DecidableEq, Repr

/-- ACWIN (07 R209). -/
structure XAcwin where
  a : Opnd
  b : Opnd
  c : Opnd
  deriving DecidableEq, Repr

/-- TSWEEP (07 R213); a one-source operation has no second record. -/
structure XSweep where
  op : SweepOp
  a : Opnd
  b : Opnd
  c : Opnd
  deriving DecidableEq, Repr

/-- TSRED (07 R213). -/
structure XRed where
  op : RedOp
  a : Opnd
  b : Opnd
  m : Opnd
  deriving DecidableEq, Repr

/-- TRY: register base and word offset (08 R244). -/
structure STry where
  k : Reg
  off : BitVec 18
  deriving DecidableEq, Repr

/-- The fields of one slot of a dual word (02 R45). -/
structure SlotF (τ : Type) where
  d : Dst
  src : Src
  md : Md
  g : BitVec 3
  n : Bool
  t : τ
  deriving DecidableEq, Repr

/-- Integer slot operations (02 R47). -/
inductive SIOp where
  | mov
  | add
  | sub
  | and
  | or
  | xor
  | shl
  | shr
  | sar
  | min
  | max
  | neg
  | not
  deriving DecidableEq, Repr

/-- Float slot operations (02 R47). -/
inductive SFOp where
  | fadd
  | fmul
  | fmin
  | fmax
  | fneg
  deriving DecidableEq, Repr

/-- A slot of a dual word (02 R46). -/
inductive Slot where
  | nop
  | int (o : SIOp) (f : SlotF IType)
  | flt (o : SFOp) (f : SlotF FType)
  deriving DecidableEq, Repr

/-! ## What events carry -/

/-- A field of a save image that the host may write while a block is stopped by a trap (17 R367). -/
inductive Edit where
  | reg (grp lane r : Nat) (v : W64)
  | taint (grp lane : Nat) (v : W64)
  | pred (grp lane : Nat) (v : BitVec 7)
  | scratch (off : Nat) (v : Byte)
  | acc (row col : Nat) (v : BitVec 32)
  | other
  deriving DecidableEq, Repr

/-- What a host access over CXL does at the home of a device address (15 R325, 20 R403). -/
inductive CxlOp where
  | read (n : Nat)
  | write (bytes : List Byte)
  | cas (old new : W64)
  | or (v : W64)
  | add (v : W64)
  deriving DecidableEq, Repr

/-- What a message of the fabric asks of its destination (19 R393). -/
inductive RemoteOp where
  | load (pa : Nat) (n : Nat)
  | store (pa : Nat) (bytes : List Byte)
  | atom (fn : Nat) (pa : Nat) (wide : Bool) (b c : W64)
  | red (fn : Nat) (pa : Nat) (wide : Bool) (b : W64)
  | casc (pa : Nat) (b new task ea : W64)
  | decc (pa : Nat) (b task ea : W64)
  | waitc (pa : Nat) (wide : Bool)
  | replica (queue : Nat) (words : List W64)
  | join (queue gen : Nat)
  | start (queue gen : Nat)
  /-- The coordinator of the generation is named, since two chips may launch on one domain queue (19 R399). -/
  | abort (queue gen coordinator : Nat)
  /-- A flush probe of a stream: its channel, and the number of the next message on it (19 R396). -/
  | probe (vc : Nat) (upTo : BitVec 32)
  | engineRead (pa : Nat) (n : Nat)
  | engineWrite (pa : Nat) (bytes : List Byte) (bad : Bool)
  deriving DecidableEq, Repr

/-- What a response or an acknowledgement carries back (19 R394, R395). -/
inductive RemoteReply where
  | ack
  | data (bytes : List Byte)
  | old (v : W64) (status : Nat)
  | poison
  | refused
  deriving DecidableEq, Repr

/-- A message of a stream: source and destination chips, channel, sequence number, phase tag (19 R393, R396). -/
structure Msg where
  src : Nat
  dst : Nat
  vc : Nat
  seq : BitVec 32
  tag : Bool
  asid : Nat
  op : RemoteOp
  /-- How many messages of the same word to the same location follow it in the stream: the home performs them directly one after
  another (06 R145). -/
  burst : Nat
  deriving DecidableEq, Repr

/-- Where an uncorrectable error strikes (21 R412). -/
inductive ErrPlace where
  | home (sector : Nat)
  | cache (cl sector : Nat)
  | scratch (blk sector : Nat)
  deriving DecidableEq, Repr

/-- A firmware image: its 128-byte header as sixteen words, and its body (21 R423). -/
structure Image where
  header : List W64
  body : List Byte
  deriving DecidableEq, Repr

/-- The numbers of an answer: that of the message which it answers, and its own on the response stream; and its phase tag (19 R393, R394,
R396). -/
structure AckNum where
  of : BitVec 32
  own : BitVec 32
  tag : Bool
  deriving DecidableEq, Repr

/-- The side of the host in a new context: the function that owns it, and the address of its fault ring (17 R354, R365). -/
structure CtxHost where
  fn : Nat
  ring : Nat
  deriving DecidableEq, Repr

/-- What F0 is told when it creates a queue control block (15 R323). -/
structure QcbNew where
  asid : Nat
  handle : W64
  base : W64
  gang : Nat
  classmask : BitVec 16
  bpri : Nat
  log2n : Nat
  deriving DecidableEq, Repr

/-! ## The instructions -/

/-- One constructor for each row of the operation table. Words of programs carry their guards and
scheduling fields (`Ctl`); a dual word is named by slot X's operation and carries slot Y; the
remaining constructors are the events of the part, which no word encodes. -/
inductive Instr where
  /-- System no-operation word; does nothing whatever its guard (R250). -/
  | nop (c : Ctl)
  /-- Raises TRAP_INSTR with an immediate code once for the group; the group resumes at the next word if the trap is resolved (R251). -/
  | trap (c : Ctl) (code : BitVec 18)
  /-- Raises BKPT with an immediate code once for the group (R251). -/
  | bkpt (c : Ctl) (code : BitVec 18)
  /-- Serves only the assist routine on the cluster control core; in a kernel it faults ILLEGAL_INSTR (R63). -/
  | halt (c : Ctl)
  /-- Return from the assist routine on the cluster control core; in a kernel it faults ILLEGAL_INSTR (R63). -/
  | eret (c : Ctl)
  /-- Reads the special register numbered in IMM18[7:0] into the destination with taint 0, waiting for earlier term words when it reads TT, HT, MT or UPD (R29). -/
  | rdsr (c : Ctl) (d : Dst) (n : SReg)
  /-- Moves the group's divergence stack, with its entries, to the region that the written FLOOR and TOP name (R19). -/
  | wrsrDsp (c : Ctl) (a : Opnd)
  /-- Waits for earlier floating-point words of the group, then writes the sticky flags FLG (R24). -/
  | wrsrFlg (c : Ctl) (a : Opnd)
  /-- Writes the group's fail-exit offset FEX (R25). -/
  | wrsrFex (c : Ctl) (a : Opnd)
  /-- Writes the issuing cluster's 64-bit local cycle count into every executing lane (R252). -/
  | lcyc (c : Ctl) (d : Dst)
  /-- Reads a numbered performance counter into the destination (R253). -/
  | perf (c : Ctl) (d : Dst) (n : Counter)
  /-- Marks the group not ready for the next issue slot if another group of the core is ready (R254). -/
  | yieldW (c : Ctl)
  /-- Sends lanes whose guard is true to the word offset target and the others to the next word, splitting the entry if needed (R222). -/
  | bra (c : Ctl) (off : BitVec 18)
  /-- Holds an entry until no other entry of the group has a smaller PC, then passes it to the offset target (R219). -/
  | join (c : Ctl) (off : BitVec 18)
  /-- Writes the return PC into the destination and branches by the word offset in the taking lanes (R221). -/
  | call (c : Ctl) (d : Dst) (off : BitVec 18)
  /-- Jumps each executing lane to the target in its register after checking every target (R223). -/
  | ret (c : Ctl) (a : Opnd)
  /-- Indirect jump to each lane's register target, splitting lanes with distinct targets (R223). -/
  | jmpi (c : Ctl) (a : Opnd)
  /-- Retires the executing lanes; retiring the last lane of a group retires the group (R224). -/
  | exitW (c : Ctl)
  /-- Sets a predicate true in the lowest-numbered executing lane and false in the others (R221). -/
  | elect (c : Ctl) (p : BitVec 3)
  /-- Makes the group wait at the word until every group of the block on the core has reached it or retired (R226). -/
  | regroup (c : Ctl) (a : Opnd)
  /-- For each executing lane, releases at DEV, reserves a ring slot, writes the packet body and header, and kicks the queue, returning OK or FULL (R230). -/
  | enq (c : Ctl) (o : P2)
  /-- Writes a field of the lane's work identifier, zero-extended, with taint 0 (R221). -/
  | widW (c : Ctl) (d : Dst) (f : BitVec 3)
  /-- Adds sub-elements with wrap (R106). -/
  | add (c : Ctl) (o : R2 IType)
  /-- Subtracts sub-elements with wrap (R106). -/
  | sub (c : Ctl) (o : R2 IType)
  /-- Adds sub-elements with signed saturation (R106). -/
  | adds (c : Ctl) (o : R2 IType)
  /-- Subtracts sub-elements with signed saturation (R106). -/
  | subs (c : Ctl) (o : R2 IType)
  /-- Negates sub-elements with wrap (R106). -/
  | neg (c : Ctl) (o : R1 IType)
  /-- Absolute value of sub-elements with wrap (R106). -/
  | abs (c : Ctl) (o : R1 IType)
  /-- Signed minimum of sub-elements (R106). -/
  | min (c : Ctl) (o : R2 IType)
  /-- Signed maximum of sub-elements (R106). -/
  | max (c : Ctl) (o : R2 IType)
  /-- Unsigned minimum of sub-elements (R106). -/
  | umin (c : Ctl) (o : R2 IType)
  /-- Unsigned maximum of sub-elements (R106). -/
  | umax (c : Ctl) (o : R2 IType)
  /-- Signed rounding-up average of sub-elements computed in w+1 bits (R106). -/
  | avg (c : Ctl) (o : R2 IType)
  /-- Computes a + b shifted left by a raw k, modulo 2^64 (R106). -/
  | lea (c : Ctl) (o : RLea)
  /-- Chooses the whole first or second operand by a predicate operand (R107). -/
  | sel (c : Ctl) (o : RSel)
  /-- Copies the source operand to the destination (R106). -/
  | mov (c : Ctl) (o : R1 IType)
  /-- Writes the sign-extended 18-bit immediate with taint 0 (R106). -/
  | movi (c : Ctl) (o : RMovi)
  /-- Overwrites one 18-bit (or top 10-bit) slice of the destination with the unsigned immediate (R108). -/
  | movhi (c : Ctl) (o : RMovhi)
  /-- Low w bits of the product of sub-elements (R109). -/
  | mul (c : Ctl) (o : R2 IType)
  /-- High w bits of the signed product (R109). -/
  | mulh (c : Ctl) (o : R2 IType)
  /-- High w bits of the unsigned product (R109). -/
  | umulh (c : Ctl) (o : R2 IType)
  /-- Low w bits of a times b plus c (R109). -/
  | mad (c : Ctl) (o : R3 IType)
  /-- Signed quotient truncated toward zero, never faulting (R110). -/
  | div (c : Ctl) (o : R2 IType)
  /-- Unsigned quotient, never faulting (R110). -/
  | udiv (c : Ctl) (o : R2 IType)
  /-- Signed remainder taking the sign of a (R110). -/
  | rem (c : Ctl) (o : R2 IType)
  /-- Unsigned remainder (R110). -/
  | urem (c : Ctl) (o : R2 IType)
  /-- Counts the one bits of each sub-element (R109). -/
  | popc (c : Ctl) (o : R1 IType)
  /-- Counts leading zero bits of each sub-element (R109). -/
  | clz (c : Ctl) (o : R1 IType)
  /-- Counts trailing zero bits of each sub-element (R109). -/
  | ctz (c : Ctl) (o : R1 IType)
  /-- Reverses the bits of each sub-element (R109). -/
  | brev (c : Ctl) (o : R1 IType)
  /-- Bitwise AND (R111). -/
  | and (c : Ctl) (o : R2 IType)
  /-- Bitwise OR (R111). -/
  | or (c : Ctl) (o : R2 IType)
  /-- Bitwise XOR (R111). -/
  | xor (c : Ctl) (o : R2 IType)
  /-- a AND NOT b (R111). -/
  | andn (c : Ctl) (o : R2 IType)
  /-- a OR NOT b (R111). -/
  | orn (c : Ctl) (o : R2 IType)
  /-- Bitwise NOT (R111). -/
  | not (c : Ctl) (o : R1 IType)
  /-- Shifts sub-elements left, giving 0 for counts of w or more (R111). -/
  | shl (c : Ctl) (o : R2 IType)
  /-- Shifts sub-elements right with zero fill (R111). -/
  | shr (c : Ctl) (o : R2 IType)
  /-- Shifts sub-elements right with sign fill (R111). -/
  | sar (c : Ctl) (o : R2 IType)
  /-- Rotates sub-elements left by the count modulo w (R111). -/
  | rot (c : Ctl) (o : R2 IType)
  /-- Extracts a sign-extended bit field (R112). -/
  | bfx (c : Ctl) (o : R3 IType)
  /-- Extracts a zero-extended bit field (R112). -/
  | ubfx (c : Ctl) (o : R3 IType)
  /-- Inserts a bit field of a into the destination (R112). -/
  | bfi (c : Ctl) (o : R3 IType)
  /-- Narrows the sub-elements of two registers into one by truncation (R113). -/
  | pack (c : Ctl) (o : R2 IType)
  /-- Widens the elements of one half by zero or sign extension (R113). -/
  | unpk (c : Ctl) (o : RUnpk)
  /-- Writes a predicate from a signed comparison over all sub-elements (R114). -/
  | cmp (c : Ctl) (o : PCmp IType Cond)
  /-- Writes a predicate from an unsigned comparison over all sub-elements (R114). -/
  | ucmp (c : Ctl) (o : PCmp IType Cond)
  /-- Writes a predicate from an IEEE comparison over all sub-elements (R115). -/
  | fcmp (c : Ctl) (o : PCmp FType FCond)
  /-- Writes the AND of two predicate operands (R116). -/
  | pand (c : Ctl) (o : PLog2)
  /-- Writes the OR of two predicate operands (R116). -/
  | por (c : Ctl) (o : PLog2)
  /-- Writes the XOR of two predicate operands (R116). -/
  | pxor (c : Ctl) (o : PLog2)
  /-- Writes the negation of a predicate operand (R116). -/
  | pnot (c : Ctl) (o : PLog1)
  /-- Copies a predicate operand (R116). -/
  | pmov (c : Ctl) (o : PLog1)
  /-- Sets a predicate true when the 64-bit operand is nonzero (R117). -/
  | pset (c : Ctl) (o : P1)
  /-- Writes p0 to p7 into the low byte of a register (R117). -/
  | pget (c : Ctl) (d : Dst)
  /-- Floating-point addition, rounded once (R118). -/
  | fadd (c : Ctl) (o : R2 FType)
  /-- Floating-point subtraction (R118). -/
  | fsub (c : Ctl) (o : R2 FType)
  /-- Floating-point multiplication (R118). -/
  | fmul (c : Ctl) (o : R2 FType)
  /-- Fused multiply-add with one rounding (R118). -/
  | fma (c : Ctl) (o : R3 FType)
  /-- Floating-point minimum with -0 below +0 and NaN rules (R119). -/
  | fmin (c : Ctl) (o : R2 FType)
  /-- Floating-point maximum (R119). -/
  | fmax (c : Ctl) (o : R2 FType)
  /-- Inverts the sign, NaNs becoming canonical (R120). -/
  | fneg (c : Ctl) (o : R1 FType)
  /-- Clears the sign, NaNs becoming canonical (R120). -/
  | fabs (c : Ctl) (o : R1 FType)
  /-- Writes the class code of each sub-element's encoding (R121). -/
  | fclass (c : Ctl) (o : R1 FType)
  /-- Rounds each sub-element to an integral value by the named mode (R122). -/
  | fround (c : Ctl) (o : RFround)
  /-- Multiplies a by two to the integer power b (R123). -/
  | fscale (c : Ctl) (o : R2 FType)
  /-- Correctly rounded reciprocal (R124). -/
  | frcp (c : Ctl) (o : R1 FType)
  /-- Correctly rounded reciprocal square root (R124). -/
  | frsq (c : Ctl) (o : R1 FType)
  /-- Correctly rounded square root (R124). -/
  | fsqrt (c : Ctl) (o : R1 FType)
  /-- Correctly rounded division (R124). -/
  | fdiv (c : Ctl) (o : R2 FType)
  /-- Correctly rounded two to the power a (R124). -/
  | fexp2 (c : Ctl) (o : R1 FType)
  /-- Correctly rounded base-2 logarithm (R124). -/
  | flog2 (c : Ctl) (o : R1 FType)
  /-- Correctly rounded sine (R124). -/
  | fsin (c : Ctl) (o : R1 FType)
  /-- Correctly rounded cosine (R124). -/
  | fcos (c : Ctl) (o : R1 FType)
  /-- Correctly rounded hyperbolic tangent (R124). -/
  | ftanh (c : Ctl) (o : R1 FType)
  /-- Converts elements between the coded float and integer formats with the named rounding (R127). -/
  | cvt (c : Ctl) (o : RCvt)
  /-- Quantises elements to nearest QC4 codebook indices and shifts them into the destination (R130). -/
  | qpack (c : Ctl) (o : R2 FType)
  /-- Expands a group of QC4 nibbles to their exact codebook values (R131). -/
  | qunpk (c : Ctl) (o : RRaw FType)
  /-- Gathers bit p of each sub-element into a packed row of bits (R132). -/
  | plane (c : Ctl) (o : RRaw IType)
  /-- Scatters a packed row of bits into bit p of each sub-element (R132). -/
  | unplane (c : Ctl) (o : RRaw IType)
  /-- Reads a from the lane named by b (R134). -/
  | shfl (c : Ctl) (o : R2 IType)
  /-- Reads a from the lane L XOR b (R134). -/
  | shflx (c : Ctl) (o : R2 IType)
  /-- Broadcasts a from the lane chosen by the lowest executing lane (R134). -/
  | bcast (c : Ctl) (o : R2 IType)
  /-- Writes the mask of executing lanes whose source is nonzero (R134). -/
  | vote (c : Ctl) (o : RD1)
  /-- Reduces sub-elements over the executing lanes in a fixed tree order (R135). -/
  | redl (c : Ctl) (o : RLane)
  /-- Writes the inclusive or exclusive prefix over executing lanes (R135). -/
  | scanl (c : Ctl) (o : RLane)
  /-- Writes the mask of executing lanes whose 64-bit value equals this lane's (R134). -/
  | matchL (c : Ctl) (o : RD1)
  /-- Compare-and-exchange with a partner lane for a bitonic sort stage (R136). -/
  | cxch (c : Ctl) (o : R2 IType)
  /-- Plain load, served from the cluster cache on an ordinary page (R149). -/
  | ld (c : Ctl) (o : MLd)
  /-- Consume load performed as an LDB that taints every register it writes (R152). -/
  | ldc (c : Ctl) (o : MLd)
  /-- Load from the home, writing back a dirty sector first and invalidating the cluster copy (R150). -/
  | ldb (c : Ctl) (o : MLd)
  /-- Acquiring load performed as an LDB followed by the acquire action (R149). -/
  | lda (c : Ctl) (o : OLd)
  /-- Prefetch hint into the L2, cluster cache or instruction cache; never faults after decode (R153). -/
  | pref (c : Ctl) (o : MPref)
  /-- Plain store, leaving the sector dirty in the cluster cache (R154). -/
  | st (c : Ctl) (o : MSt)
  /-- Release action then store, written through to the L2 at DEV or wider (R154). -/
  | stl (c : Ctl) (o : OSt)
  /-- Store written through to the home, leaving no dirty copy (R154). -/
  | stnt (c : Ctl) (o : MSt)
  /-- Store of zero bytes over the access size (R154). -/
  | zeroSt (c : Ctl) (o : MZero)
  /-- Atomic add at the home, returning the old value (R160). -/
  | atomAdd (c : Ctl) (o : AAtom)
  /-- Atomic floating-point add at the home, returning the old value (R161). -/
  | atomFadd (c : Ctl) (o : AAtom)
  /-- Atomic AND at the home (R160). -/
  | atomAnd (c : Ctl) (o : AAtom)
  /-- Atomic OR at the home (R160). -/
  | atomOr (c : Ctl) (o : AAtom)
  /-- Atomic XOR at the home (R160). -/
  | atomXor (c : Ctl) (o : AAtom)
  /-- Atomic signed minimum at the home (R160). -/
  | atomMin (c : Ctl) (o : AAtom)
  /-- Atomic signed maximum at the home (R160). -/
  | atomMax (c : Ctl) (o : AAtom)
  /-- Atomic unsigned minimum at the home (R160). -/
  | atomUmin (c : Ctl) (o : AAtom)
  /-- Atomic unsigned maximum at the home (R160). -/
  | atomUmax (c : Ctl) (o : AAtom)
  /-- Atomic exchange at the home (R160). -/
  | atomExch (c : Ctl) (o : AAtom)
  /-- Atomic compare-and-swap at the home (R160). -/
  | atomCas (c : Ctl) (o : ACas)
  /-- Atomic wrapping increment bounded by b (R160). -/
  | atomIncw (c : Ctl) (o : AAtom)
  /-- Reduction add with no result (R159). -/
  | redAdd (c : Ctl) (o : ARed)
  /-- Reduction floating-point add (R161). -/
  | redFadd (c : Ctl) (o : ARed)
  /-- Reduction AND (R159). -/
  | redAnd (c : Ctl) (o : ARed)
  /-- Reduction OR (R159). -/
  | redOr (c : Ctl) (o : ARed)
  /-- Reduction XOR (R159). -/
  | redXor (c : Ctl) (o : ARed)
  /-- Reduction signed minimum (R159). -/
  | redMin (c : Ctl) (o : ARed)
  /-- Reduction signed maximum (R159). -/
  | redMax (c : Ctl) (o : ARed)
  /-- Reduction unsigned minimum (R159). -/
  | redUmin (c : Ctl) (o : ARed)
  /-- Reduction unsigned maximum (R159). -/
  | redUmax (c : Ctl) (o : ARed)
  /-- Continuation compare-and-swap at the memory slice that queues a task on success and returns OK, RETRY or BADTASK (R166). -/
  | casc (c : Ctl) (o : ACasc)
  /-- Continuation decrement at the memory slice that queues a task when the count reaches zero (R166). -/
  | decc (c : Ctl) (o : ADecc)
  /-- Takes the acquire, release or acquire-release action at its scopes (R158). -/
  | fence (c : Ctl) (o : OFence)
  /-- Makes guarded lanes wait at a block barrier slot and counts the group's arrival (R171). -/
  | bar (c : Ctl) (slot : BitVec 3)
  /-- Loads until a condition holds in every lane, sleeping on sector monitors between checks (R169). -/
  | waitc (c : Ctl) (o : AWaitc)
  /-- Waits for the object's copies in flight, then initialises a completion object (R174). -/
  | coinit (c : Ctl) (a b : Opnd)
  /-- Releases at BLK, returns the phase token and counts one arrival (R175). -/
  | arrive (c : Ctl) (o : RD1)
  /-- Adds a byte count to the object's pending bytes (R175). -/
  | expect (c : Ctl) (a b : Opnd)
  /-- Waits for a phase to complete, or returns STALE, or faults PHASE_FUTURE (R176). -/
  | waitph (c : Ctl) (o : P2)
  /-- Writes back a dirty sector and invalidates the cluster copy (R177). -/
  | inv (c : Ctl) (o : MSec)
  /-- Writes back a dirty sector and keeps a clean copy (R177). -/
  | wb (c : Ctl) (o : MSec)
  /-- Issues a tensor-box copy from memory into own scratch, posting its bytes to the object (R191). -/
  | copy (c : Ctl) (o : CBox)
  /-- Issues a box copy into the scratch of every core named by the mask (R195). -/
  | copym (c : Ctl) (o : CBox)
  /-- Issues a copy from own scratch into a tensor box in memory (R191). -/
  | copys (c : Ctl) (o : CBox)
  /-- Issues a global-to-global byte copy (R196). -/
  | copyg (c : Ctl) (o : CGlob)
  /-- Matrix multiply-accumulate with E4M3 B planes into a tile of the open batch (R201). -/
  | mmaF8e4 (c : Ctl) (o : XMmaF)
  /-- Matrix multiply-accumulate with E5M2 B planes (R201). -/
  | mmaF8e5 (c : Ctl) (o : XMmaF)
  /-- Matrix multiply-accumulate with BF16 B planes (R201). -/
  | mmaBf16 (c : Ctl) (o : XMmaF)
  /-- Matrix multiply-accumulate with FP16 B planes (R201). -/
  | mmaF16 (c : Ctl) (o : XMmaF)
  /-- Integer matrix multiply-accumulate with INT8 B (R201). -/
  | mmaI8 (c : Ctl) (o : XMmaI)
  /-- Integer matrix multiply-accumulate with INT4 B (R201). -/
  | mmaI4 (c : Ctl) (o : XMmaI)
  /-- Integer matrix multiply-accumulate with INT2 B (R201). -/
  | mmaI2 (c : Ctl) (o : XMmaI)
  /-- Integer matrix multiply-accumulate with binary B (R201). -/
  | mmaB1 (c : Ctl) (o : XMmaI)
  /-- Matrix multiply-accumulate with QC4 codebook B and register scales (R201). -/
  | mmaQc4 (c : Ctl) (o : XMmaQ)
  /-- Zeroes every cell of a tile in the open batch (R205). -/
  | mzero (c : Ctl) (tile : BitVec 4)
  /-- Loads a tile from scratch or global memory, widening to FP32 (R206). -/
  | mload (c : Ctl) (o : XTile)
  /-- Stores a tile to scratch or global memory when its batch retires (R207). -/
  | mstore (c : Ctl) (o : XTile)
  /-- Returns BCNT and closes the open batch (R205). -/
  | mfence (c : Ctl) (d : Reg)
  /-- Waits until a named issued batch has retired (R208). -/
  | mwait (c : Ctl) (a : Opnd)
  /-- Waits for the target group's batches, then sets its accumulator window (R209). -/
  | acwin (c : Ctl) (o : XAcwin)
  /-- Applies an element-wise operation over whole tensor records, resumable by TIX (R215). -/
  | tsweep (c : Ctl) (o : XSweep)
  /-- Reduces a tensor over the masked dimensions into a destination record (R215). -/
  | tsred (c : Ctl) (o : XRed)
  /-- Extracts the tag of a term word (R236). -/
  | tag (c : Ctl) (o : RD1)
  /-- Builds a term word from a tag and payload (R236). -/
  | mkt (c : Ctl) (o : RD2)
  /-- Follows bindings through cells and the lane's overlay to an unbound variable or non-variable (R233). -/
  | deref (c : Ctl) (o : RD1)
  /-- Unifies two terms through the push-down list, up to 64 pairs per issue, reissuing itself until done (R237). -/
  | unify (c : Ctl) (o : PUnify)
  /-- Binds an unbound variable to a value by the direction rules and trails it (R239). -/
  | bindT (c : Ctl) (a b : Opnd)
  /-- Allocates cells on the private heap, returning the old heap top (R239). -/
  | halloc (c : Ctl) (o : RD1)
  /-- Returns an argument of a structure or list cell (R239). -/
  | getarg (c : Ctl) (o : RD2)
  /-- Publishes a value into an SVAR cell by compare-and-swap at its home (R240). -/
  | commit (c : Ctl) (o : P2)
  /-- Pushes a marker saving five registers and an alternative (R244). -/
  | tryM (c : Ctl) (o : STry)
  /-- Pops the top marker without jumping, withdrawing an offer (R246). -/
  | trust (c : Ctl)
  /-- Backtracks to the newest untaken marker, undoing the trail, or exits through FEX (R245). -/
  | failW (c : Ctl)
  /-- Pops markers down to a given level (R246). -/
  | cut (c : Ctl) (a : Opnd)
  /-- Posts the lane's oldest untaken markers on the block's offer board (R247). -/
  | offer (c : Ctl) (a : Opnd)
  /-- Takes an offered alternative from the board, copying the donor's shared bindings and saved registers (R248). -/
  | adopt (c : Ctl) (p : BitVec 3)
  /-- Loads a lane's swatch descriptor, clears the overlay and resets trail, heap and marker tops (R242). -/
  | ovlcfg (c : Ctl) (a : Opnd)
  /-- Empty dual-word slot that does nothing (R46), in slot X. -/
  | slotNop (stall : BitVec 3) (y : Slot)
  /-- Dual-word slot move (R138), in slot X. -/
  | slotMov (stall : BitVec 3) (x : SlotF IType) (y : Slot)
  /-- Dual-word slot DST := DST + SRC (R138), in slot X. -/
  | slotAdd (stall : BitVec 3) (x : SlotF IType) (y : Slot)
  /-- Dual-word slot subtraction (R138), in slot X. -/
  | slotSub (stall : BitVec 3) (x : SlotF IType) (y : Slot)
  /-- Dual-word slot AND (R138), in slot X. -/
  | slotAnd (stall : BitVec 3) (x : SlotF IType) (y : Slot)
  /-- Dual-word slot OR (R138), in slot X. -/
  | slotOr (stall : BitVec 3) (x : SlotF IType) (y : Slot)
  /-- Dual-word slot XOR (R138), in slot X. -/
  | slotXor (stall : BitVec 3) (x : SlotF IType) (y : Slot)
  /-- Dual-word slot left shift (R138), in slot X. -/
  | slotShl (stall : BitVec 3) (x : SlotF IType) (y : Slot)
  /-- Dual-word slot logical right shift (R138), in slot X. -/
  | slotShr (stall : BitVec 3) (x : SlotF IType) (y : Slot)
  /-- Dual-word slot arithmetic right shift (R138), in slot X. -/
  | slotSar (stall : BitVec 3) (x : SlotF IType) (y : Slot)
  /-- Dual-word slot signed minimum (R138), in slot X. -/
  | slotMin (stall : BitVec 3) (x : SlotF IType) (y : Slot)
  /-- Dual-word slot signed maximum (R138), in slot X. -/
  | slotMax (stall : BitVec 3) (x : SlotF IType) (y : Slot)
  /-- Dual-word slot negation (R138), in slot X. -/
  | slotNeg (stall : BitVec 3) (x : SlotF IType) (y : Slot)
  /-- Dual-word slot bitwise NOT (R138), in slot X. -/
  | slotNot (stall : BitVec 3) (x : SlotF IType) (y : Slot)
  /-- Dual-word slot floating-point addition (R138), in slot X. -/
  | slotFadd (stall : BitVec 3) (x : SlotF FType) (y : Slot)
  /-- Dual-word slot floating-point multiplication (R138), in slot X. -/
  | slotFmul (stall : BitVec 3) (x : SlotF FType) (y : Slot)
  /-- Dual-word slot floating-point minimum (R138), in slot X. -/
  | slotFmin (stall : BitVec 3) (x : SlotF FType) (y : Slot)
  /-- Dual-word slot floating-point maximum (R138), in slot X. -/
  | slotFmax (stall : BitVec 3) (x : SlotF FType) (y : Slot)
  /-- Dual-word slot floating-point negation (R138), in slot X. -/
  | slotFneg (stall : BitVec 3) (x : SlotF FType) (y : Slot)
  /-- A held store, atomic or other outgoing act leaves the core 160 local cycles after issue (R147). -/
  | storeLeaveCore (cl co : Nat)
  /-- A write to a watched sector wakes a sleeping WAITC to recheck (R170). -/
  | monitorWake (blk grp : Nat)
  /-- After 1,024 local cycles asleep a WAITC rechecks its condition (R169). -/
  | waitcRecheckTimer (blk grp : Nat)
  /-- After 65,536 local cycles since issue a WAITC returns with the last value (R169). -/
  | waitcTimeout (blk grp : Nat)
  /-- The part may end a WAITC at any time with its last loaded values (R169). -/
  | waitcSpuriousReturn (blk grp : Nat)
  /-- A freed copy slot lets a waiting copy word issue its next lane's copy (R191). -/
  | copySlotGrant (blk grp : Nat)
  /-- An engine delivers bytes of a copy, subtracts them from BYTES and runs complete_if_done (R192). -/
  | copyDelivery (id chunk : Nat)
  /-- The matrix array finishes an MMA after 2·P local cycles and updates the tile (R201). -/
  | mmaComplete (blk grp : Nat)
  /-- A closed batch retires in order once every operation has completed, writing its MSTOREs (R204). -/
  | batchRetire (blk grp : Nat)
  /-- Each local cycle the core chooses one ready group under budget and issues its next word (R266). -/
  | issueCycle (cl : Nat)
  /-- At each multiple of 65,536 local cycles every budget word's USED returns to zero (R267). -/
  | budgetPeriodStart (cl : Nat)
  /-- A missed instruction-cache line arrives and the waiting group becomes ready (R269). -/
  | icacheLineArrive (blk grp : Nat)
  /-- A page-table walk ends and serves the waiting translation or raises a page fault (R359). -/
  | tlbWalkComplete (blk grp : Nat)
  /-- The part evicts a cluster-cache sector at any moment, writing it back if dirty (R297). -/
  | sectorEviction (cl sector : Nat)
  /-- The assist routine finishes a word with gradual underflow and the group becomes ready (R76). -/
  | assistComplete (blk grp : Nat)
  /-- The host driver replies retry, reissuing the faulting word, or fail, delivering it as an error (R363). -/
  | hostFaultReply (asid page : Nat) (retry : Bool)
  /-- The host resumes a trapped block through F0 at the word after the trap (R367). -/
  | debugResume (save : Nat) (edits : List Edit)
  /-- F1 orders a block's pre-emption; no group issues and the drain begins (R368). -/
  | preemptOrder (blk : Nat)
  /-- Once copies, batches, assists and the store queue drain, the image is written and resources zeroed (R369). -/
  | preemptSave (blk : Nat)
  /-- A saved block is placed, its state restored and cross-cluster write-back and invalidation performed before it issues (R373). -/
  | blockResume (save : Nat)
  /-- Zeroing of freed core resources ends and they may take a new block (R376). -/
  | zeroingDone (cl co : Nat)
  /-- A write to a QCB's KICK word wakes the mapped fetcher or marks an unmapped queue READY (R327). -/
  | kick (q : Nat)
  /-- The fetcher reads and checks a LAUNCH packet, consults the predictor, acquires and hands the launch to the dispatcher (R333). -/
  | fetchLaunch (slot : Nat)
  /-- A waiting launch starts once BARRIER is met and its child slots are reserved in the target queue (R326). -/
  | launchAdmit (slot : Nat)
  /-- The fetcher reads a joint-launch packet for replication to the chips of its mask (R397). -/
  | fetchLaunchx (slot : Nat)
  /-- The fetcher parks on a WAITSIG packet until its signal condition holds (R319). -/
  | fetchWaitsig (slot : Nat)
  /-- The parked WAITSIG condition holds and fetch resumes with an acquire (R319). -/
  | waitsigSatisfied (slot : Nat)
  /-- A SIGNAL packet, after earlier packets complete, releases and stores, adds or subtracts at the signal (R319). -/
  | fetchSignal (slot : Nat)
  /-- A NOP packet decrements its signal once every earlier packet has completed (R319). -/
  | fetchNopPacket (slot : Nat)
  /-- A CONTREG packet is checked and writes or clears a continuation-table entry on every slice (R386). -/
  | fetchContreg (slot : Nat)
  /-- Once every slice holds the new entry, the CONTREG decrements its completion signal (R386). -/
  | contregComplete (q pos : Nat)
  /-- The device dispatcher hands the next chunk of blocks to the next cluster in turn (R334). -/
  | dispatchChunk (launch : Nat)
  /-- A cluster dispatcher places a pending block on the fitting core with fewest resident groups (R260). -/
  | blockPlace (cl launch : Nat)
  /-- A COOP launch is admitted and all its blocks placed together when they all fit (R262). -/
  | coopPlace (launch : Nat)
  /-- An idle cluster dispatcher steals half the pending blocks of a launch from the busiest cluster (R335). -/
  | workSteal (cl launch : Nat)
  /-- A block ends when every group and every copy and batch has retired, and its resources are zeroed (R224). -/
  | blockEnd (blk : Nat)
  /-- When every block has retired the device releases at RELSC and decrements the completion signal (R336). -/
  | launchComplete (launch : Nat)
  /-- Every 16 periods of cluster 0 a timeslice triggers a scheduling decision (R330). -/
  | timesliceExpire
  /-- F1 maps eligible gangs by effective priority, begins unmaps of displaced gangs and ages waiting queues (R331). -/
  | schedDecision
  /-- The flush probe returns, and F1 writes the QCB, reroutes kicks and frees the slot (R328). -/
  | unmapFlushProbeReturn (slot : Nat)
  /-- The host driver resets a queue in ERROR through F0, dropping its unread packets (R432). -/
  | queueReset (q : Nat)
  /-- F0 creates a context with its root table, fault ring and DEBUG flag (R354). -/
  | createContext (asid root : Nat) (debug : Bool) (fn : CtxHost)
  /-- F0 creates a queue control block for a context at the host driver's command (R332). -/
  | createQcb (n : QcbNew)
  /-- F0 destroys a queue control block at the host driver's command (R332). -/
  | destroyQcb (q : Nat)
  /-- The host driver creates a fabric queue on every chip of the domain under one queue number (R397). -/
  | createFabricQueue (dq : Nat) (n : QcbNew)
  /-- F0 sets a budget class's reservation and ceiling, taking effect at the next period start (R267). -/
  | setBudgetClass (asid cls res ceil : Nat)
  /-- F0 sets a context's continuation FIFO quota on the slices (R388). -/
  | setQuota (asid n : Nat)
  /-- F2 drops matching TLB and instruction-cache entries and drains translated accesses, then reports completion (R360). -/
  | invalidate (asid va size : Nat)
  /-- F0 clears the continuation table, unmaps queues, terminates blocks and speculations, invalidates and zeroes the context (R378). -/
  | teardownAsid (asid : Nat)
  /-- Firmware changes an empty core's SRAM split after writing back and dropping the L1 share (R259). -/
  | sramSplitChange (cl co split : Nat)
  /-- A slot with an empty ring and a confident prediction starts a speculative launch on idle cores (R342). -/
  | specBegin (slot : Nat)
  /-- A completed speculation unclaimed for 64 periods of cluster 0 is discarded (R348). -/
  | specTimeout (num : Nat)
  /-- A memory slice turns a queued continuation into a LAUNCH packet in the target queue when a ring slot is free (R389). -/
  | sliceWriteTask (slice pos : Nat)
  /-- A destination performs, holds or answers as duplicate an arriving fabric message by its sequence number (R395). -/
  | remoteMessageArrive (m : Msg)
  /-- An end-to-end acknowledgement or response frees the message's retry-buffer place (R394). -/
  | remoteAckArrive (dst vc : Nat) (seq : AckNum) (r : RemoteReply)
  /-- A flush probe returns, proving every earlier message of the stream performed (R396). -/
  | flushProbeReturn (dst vc : Nat)
  /-- A chip reports quiet for a phase tag; the phase drains when all chips have reported (R396). -/
  | fabricPhaseQuiet (chip : Nat)
  /-- The host driver asks F4 to drain the fabric (R396). -/
  | fabricQuiesce
  /-- A chip's join for a generation reaches the coordinator, which sends START when all have joined (R399). -/
  | joinMessage (dq gen chip : Nat)
  /-- On START a chip acquires and dispatches its replica of the joint launch (R399). -/
  | startMessage (dq gen : Nat)
  /-- On ABORT a chip rejects its replica with JOINFAIL (R399). -/
  | abortMessage (dq gen : Nat)
  /-- The coordinator sends ABORT when not every chip joined within the watchdog limit (R399). -/
  | joinTimeout (dq gen : Nat)
  /-- The launch watchdog count reaches its limit and raises HANG against the whole launch (R402). -/
  | hang (launch : Nat)
  /-- A repair that has excused a wait for 2^26 cycles raises a fault against the launch (R402). -/
  | remoteRecoveryTimeout (launch : Nat)
  /-- A strike report rewinds the named cores to the state of T−160 and discards held acts (R411). -/
  | strikeReport (cl t : Nat) (mask : BitVec 8)
  /-- A protected block records a checkpoint at start and at each barrier completion once copies and batches retire (R414). -/
  | checkpoint (blk : Nat)
  /-- A link port retries a flit that failed its CRC from its link buffer (R418). -/
  | flitCrcRetry (port : Nat) (ok : Bool)
  /-- A port that loses a lane retrains to 4 lanes at half bandwidth (R418). -/
  | portLaneLoss (port : Nat) (trained : Bool)
  /-- F4 declares a port failed and reroutes and replays its streams under repair (R419). -/
  | portFail (port : Nat)
  /-- 4,096 cycles with no flit received make a port fail (R418). -/
  | portReceiveTimeout (port : Nat)
  /-- A retrained port returns to routing after 2^20 cycles without error (R419). -/
  | portReturn (port : Nat)
  /-- F5 finds a marginal core, pre-empts its blocks and moves it to the next bin for self-test (R421). -/
  | coreMarginal (cl co : Nat)
  /-- After 2^24 cycles of self-test the core is readmitted in its bin or retired (R421). -/
  | bistEnd (cl co : Nat) (pass : Bool)
  /-- F6 signs an attestation report over the nonce, measurements, versions and serial (R425). -/
  | attestationRequest (nonce : List Byte)
  /-- Power-on or management reset runs the full bring-up (R426). -/
  | coldReset (images : List Image)
  /-- A host driver reset tears down every context and zeroes HBM and caches, keeping firmware and bins (R426). -/
  | deviceReset
  /-- A PCIe function-level reset tears down the contexts created through that function (R426). -/
  | functionReset (fn : Nat)
  /-- The host sets a module power cap through PLDM (R428). -/
  | powerCapSet (watts : Nat)
  /-- F5 lowers or raises cluster clocks by 50 MHz to hold power and temperature limits (R428). -/
  | throttleStep (cl : Nat) (down : Bool)
  /-- A host read, write or CXL atomic reaches device memory, for example a QCB reservation or a slot-word cancel performed at the memory slice (R325). -/
  | hostCxlAccess (pa : Nat) (op : CxlOp)
  /-- An uncorrectable error in HBM, the memory-side cache, the L2, a cluster cache or scratch poisons the affected 64-byte sector (R412). -/
  | uncorrectableError (at_ : ErrPlace)
  /-- A write to the sector of a mapped fetcher's next word 0 wakes the fetcher without a kick (R327). -/
  | fetcherMonitorMatch (slot : Nat)
  /-- An entry of F4's import table is set, naming the physical ranges a (chip, ASID) pair may reach and the local ASID that serves its ATOMCs (R391). -/
  | importTableEntry (chip asid base size local_ : Nat)
  /-- The host driver loads configuration tables, and F6 extends M3 with their digest (R424). -/
  | configTableLoad (table : List Byte)
  /-- In recovery mode a signed firmware image is loaded over the management bus and checked by F6 (R425). -/
  | recoveryImageLoad (image : Image)
  /-- A chip leaves the fabric domain after F4 has drained the fabric (R396). -/
  | chipLeavesDomain (chip : Nat)
  /-- A variable-latency result returns and is written, releasing the scoreboard hold on the words that read it (R43). -/
  | variableLatencyResult (blk grp r : Nat)
  /-- The L2 evicts a directory entry, which spoils any speculation that watched the line (R346). -/
  | directoryEntryEviction (line : Nat)
  deriving DecidableEq, Repr

end Sys2Proof
end

