-- ==== Sys2Proof/Machine/Named.lean ====
section
/-! DEFINITION. The general registers that an instruction names (01 R10, R11), and the pairing rule of
dual words (02 R48): what steps 3 and 4 of the decode order (02 R64) look at. A latch is listed as 128 plus its number: it is served from the
latch store (01 R20). -/

namespace Sys2Proof

/-- The registers, or the latch, that a source names. -/
def Src.regs : Src → List Nat
  | .reg r => [r.toNat]
  | .latch n => [128 + n.toNat]
  | .zero => []
  | .lane => []
  | .ones => []
  | .imm _ => []

/-- The registers an operand names. -/
def Opnd.regs (o : Opnd) : List Nat := o.src.regs

/-- How many registers a value of this size takes (02 R40). -/
def Size.span : Size → Nat
  | .b16 => 2
  | .b32 => 4
  | _ => 1

/-- The access size in bytes (02 R40). -/
def Size.bytes : Size → Nat
  | .b1 => 1
  | .b2 => 2
  | .b4 => 4
  | .b8 => 8
  | .b16 => 16
  | .b32 => 32

/-- `k` consecutive register numbers from `r`. -/
def regSpan (r : Reg) (k : Nat) : List Nat := (List.range k).map (r.toNat + ·)

/-- A pair begins at an even register and a quad at a multiple of 4 (01 R11). -/
def spanAligned (r : Reg) (z : Size) : Bool := r.toNat % z.span == 0

/-- The registers a slot names. -/
def Slot.regs : Slot → List Nat
  | .nop => []
  | .int _ f => f.d.r.toNat :: f.src.regs
  | .flt _ f => f.d.r.toNat :: f.src.regs

/-- The registers a slot reads: a binary operation reads its destination too (02 R48). -/
def Slot.reads : Slot → List Nat
  | .nop => []
  | .int .mov f => f.src.regs
  | .int .neg f => f.src.regs
  | .int .not f => f.src.regs
  | .int _ f => f.d.r.toNat :: f.src.regs
  | .flt .fneg f => f.src.regs
  | .flt _ f => f.d.r.toNat :: f.src.regs

/-- The destination of a slot other than NOP. -/
def Slot.dst? : Slot → Option Reg
  | .nop => none
  | .int _ f => some f.d.r
  | .flt _ f => some f.d.r

/-- Slot X of a dual word, as data. -/
def Instr.slotX? : Instr → Option Slot
  | .slotNop _ _ => some .nop
  | .slotMov _ x _ => some (.int .mov x)
  | .slotAdd _ x _ => some (.int .add x)
  | .slotSub _ x _ => some (.int .sub x)
  | .slotAnd _ x _ => some (.int .and x)
  | .slotOr _ x _ => some (.int .or x)
  | .slotXor _ x _ => some (.int .xor x)
  | .slotShl _ x _ => some (.int .shl x)
  | .slotShr _ x _ => some (.int .shr x)
  | .slotSar _ x _ => some (.int .sar x)
  | .slotMin _ x _ => some (.int .min x)
  | .slotMax _ x _ => some (.int .max x)
  | .slotNeg _ x _ => some (.int .neg x)
  | .slotNot _ x _ => some (.int .not x)
  | .slotFadd _ x _ => some (.flt .fadd x)
  | .slotFmul _ x _ => some (.flt .fmul x)
  | .slotFmin _ x _ => some (.flt .fmin x)
  | .slotFmax _ x _ => some (.flt .fmax x)
  | .slotFneg _ x _ => some (.flt .fneg x)
  | _ => none

/-- Slot Y of a dual word. -/
def Instr.slotY? : Instr → Option Slot
  | .slotNop _ y => some y
  | .slotMov _ _ y => some y
  | .slotAdd _ _ y => some y
  | .slotSub _ _ y => some y
  | .slotAnd _ _ y => some y
  | .slotOr _ _ y => some y
  | .slotXor _ _ y => some y
  | .slotShl _ _ y => some y
  | .slotShr _ _ y => some y
  | .slotSar _ _ y => some y
  | .slotMin _ _ y => some y
  | .slotMax _ _ y => some y
  | .slotNeg _ _ y => some y
  | .slotNot _ _ y => some y
  | .slotFadd _ _ y => some y
  | .slotFmul _ _ y => some y
  | .slotFmin _ _ y => some y
  | .slotFmax _ _ y => some y
  | .slotFneg _ _ y => some y
  | _ => none

/-- The general registers an instruction names, spans included (01 R10, 02 R60). -/
def Instr.regs : Instr → List Nat
  | .nop _ => []
  | .trap _ _ => []
  | .bkpt _ _ => []
  | .halt _ => []
  | .eret _ => []
  | .rdsr _ d _ => [d.r.toNat]
  | .wrsrDsp _ a => a.regs
  | .wrsrFlg _ a => a.regs
  | .wrsrFex _ a => a.regs
  | .lcyc _ d => [d.r.toNat]
  | .perf _ d _ => [d.r.toNat]
  | .yieldW _ => []
  | .bra _ _ => []
  | .join _ _ => []
  | .call _ d _ => [d.r.toNat]
  | .ret _ a => a.regs
  | .jmpi _ a => a.regs
  | .exitW _ => []
  | .elect _ _ => []
  | .regroup _ a => a.regs
  | .enq _ o => o.a.regs ++ o.b.regs
  | .widW _ d _ => [d.r.toNat]
  | .add _ o => o.d.r.toNat :: (o.a.regs ++ o.b.regs)
  | .sub _ o => o.d.r.toNat :: (o.a.regs ++ o.b.regs)
  | .adds _ o => o.d.r.toNat :: (o.a.regs ++ o.b.regs)
  | .subs _ o => o.d.r.toNat :: (o.a.regs ++ o.b.regs)
  | .neg _ o => o.d.r.toNat :: o.a.regs
  | .abs _ o => o.d.r.toNat :: o.a.regs
  | .min _ o => o.d.r.toNat :: (o.a.regs ++ o.b.regs)
  | .max _ o => o.d.r.toNat :: (o.a.regs ++ o.b.regs)
  | .umin _ o => o.d.r.toNat :: (o.a.regs ++ o.b.regs)
  | .umax _ o => o.d.r.toNat :: (o.a.regs ++ o.b.regs)
  | .avg _ o => o.d.r.toNat :: (o.a.regs ++ o.b.regs)
  | .lea _ o => o.d.r.toNat :: (o.a.regs ++ o.b.regs)
  | .sel _ o => o.d.r.toNat :: (o.a.regs ++ o.b.regs)
  | .mov _ o => o.d.r.toNat :: o.a.regs
  | .movi _ o => [o.d.r.toNat]
  | .movhi _ o => [o.d.r.toNat]
  | .mul _ o => o.d.r.toNat :: (o.a.regs ++ o.b.regs)
  | .mulh _ o => o.d.r.toNat :: (o.a.regs ++ o.b.regs)
  | .umulh _ o => o.d.r.toNat :: (o.a.regs ++ o.b.regs)
  | .mad _ o => o.d.r.toNat :: (o.a.regs ++ o.b.regs ++ o.c.regs)
  | .div _ o => o.d.r.toNat :: (o.a.regs ++ o.b.regs)
  | .udiv _ o => o.d.r.toNat :: (o.a.regs ++ o.b.regs)
  | .rem _ o => o.d.r.toNat :: (o.a.regs ++ o.b.regs)
  | .urem _ o => o.d.r.toNat :: (o.a.regs ++ o.b.regs)
  | .popc _ o => o.d.r.toNat :: o.a.regs
  | .clz _ o => o.d.r.toNat :: o.a.regs
  | .ctz _ o => o.d.r.toNat :: o.a.regs
  | .brev _ o => o.d.r.toNat :: o.a.regs
  | .and _ o => o.d.r.toNat :: (o.a.regs ++ o.b.regs)
  | .or _ o => o.d.r.toNat :: (o.a.regs ++ o.b.regs)
  | .xor _ o => o.d.r.toNat :: (o.a.regs ++ o.b.regs)
  | .andn _ o => o.d.r.toNat :: (o.a.regs ++ o.b.regs)
  | .orn _ o => o.d.r.toNat :: (o.a.regs ++ o.b.regs)
  | .not _ o => o.d.r.toNat :: o.a.regs
  | .shl _ o => o.d.r.toNat :: (o.a.regs ++ o.b.regs)
  | .shr _ o => o.d.r.toNat :: (o.a.regs ++ o.b.regs)
  | .sar _ o => o.d.r.toNat :: (o.a.regs ++ o.b.regs)
  | .rot _ o => o.d.r.toNat :: (o.a.regs ++ o.b.regs)
  | .bfx _ o => o.d.r.toNat :: (o.a.regs ++ o.b.regs ++ o.c.regs)
  | .ubfx _ o => o.d.r.toNat :: (o.a.regs ++ o.b.regs ++ o.c.regs)
  | .bfi _ o => o.d.r.toNat :: (o.a.regs ++ o.b.regs ++ o.c.regs)
  | .pack _ o => o.d.r.toNat :: (o.a.regs ++ o.b.regs)
  | .unpk _ o => o.d.r.toNat :: o.a.regs
  | .cmp _ o => o.a.regs ++ o.b.regs
  | .ucmp _ o => o.a.regs ++ o.b.regs
  | .fcmp _ o => o.a.regs ++ o.b.regs
  | .pand _ _ => []
  | .por _ _ => []
  | .pxor _ _ => []
  | .pnot _ _ => []
  | .pmov _ _ => []
  | .pset _ o => o.a.regs
  | .pget _ d => [d.r.toNat]
  | .fadd _ o => o.d.r.toNat :: (o.a.regs ++ o.b.regs)
  | .fsub _ o => o.d.r.toNat :: (o.a.regs ++ o.b.regs)
  | .fmul _ o => o.d.r.toNat :: (o.a.regs ++ o.b.regs)
  | .fma _ o => o.d.r.toNat :: (o.a.regs ++ o.b.regs ++ o.c.regs)
  | .fmin _ o => o.d.r.toNat :: (o.a.regs ++ o.b.regs)
  | .fmax _ o => o.d.r.toNat :: (o.a.regs ++ o.b.regs)
  | .fneg _ o => o.d.r.toNat :: o.a.regs
  | .fabs _ o => o.d.r.toNat :: o.a.regs
  | .fclass _ o => o.d.r.toNat :: o.a.regs
  | .fround _ o => o.d.r.toNat :: o.a.regs
  | .fscale _ o => o.d.r.toNat :: (o.a.regs ++ o.b.regs)
  | .frcp _ o => o.d.r.toNat :: o.a.regs
  | .frsq _ o => o.d.r.toNat :: o.a.regs
  | .fsqrt _ o => o.d.r.toNat :: o.a.regs
  | .fdiv _ o => o.d.r.toNat :: (o.a.regs ++ o.b.regs)
  | .fexp2 _ o => o.d.r.toNat :: o.a.regs
  | .flog2 _ o => o.d.r.toNat :: o.a.regs
  | .fsin _ o => o.d.r.toNat :: o.a.regs
  | .fcos _ o => o.d.r.toNat :: o.a.regs
  | .ftanh _ o => o.d.r.toNat :: o.a.regs
  | .cvt _ o => o.d.r.toNat :: o.a.regs
  | .qpack _ o => o.d.r.toNat :: (o.a.regs ++ o.b.regs)
  | .qunpk _ o => o.d.r.toNat :: o.a.regs
  | .plane _ o => o.d.r.toNat :: o.a.regs
  | .unplane _ o => o.d.r.toNat :: o.a.regs
  | .shfl _ o => o.d.r.toNat :: (o.a.regs ++ o.b.regs)
  | .shflx _ o => o.d.r.toNat :: (o.a.regs ++ o.b.regs)
  | .bcast _ o => o.d.r.toNat :: (o.a.regs ++ o.b.regs)
  | .vote _ o => o.d.r.toNat :: o.a.regs
  | .redl _ o => o.d.r.toNat :: o.a.regs
  | .scanl _ o => o.d.r.toNat :: o.a.regs
  | .matchL _ o => o.d.r.toNat :: o.a.regs
  | .cxch _ o => o.d.r.toNat :: (o.a.regs ++ o.b.regs)
  | .ld _ o => regSpan o.d.r o.sz.span ++ o.a.regs
  | .ldc _ o => regSpan o.d.r o.sz.span ++ o.a.regs
  | .ldb _ o => regSpan o.d.r o.sz.span ++ o.a.regs
  | .lda _ o => o.d.r.toNat :: o.a.regs
  | .pref _ o => o.a.regs
  | .st _ o => regSpan o.d o.sz.span ++ o.a.regs
  | .stl _ o => o.d.toNat :: o.a.regs
  | .stnt _ o => regSpan o.d o.sz.span ++ o.a.regs
  | .zeroSt _ o => o.a.regs
  | .atomAdd _ o => o.d.r.toNat :: (o.a.regs ++ o.b.regs)
  | .atomFadd _ o => o.d.r.toNat :: (o.a.regs ++ o.b.regs)
  | .atomAnd _ o => o.d.r.toNat :: (o.a.regs ++ o.b.regs)
  | .atomOr _ o => o.d.r.toNat :: (o.a.regs ++ o.b.regs)
  | .atomXor _ o => o.d.r.toNat :: (o.a.regs ++ o.b.regs)
  | .atomMin _ o => o.d.r.toNat :: (o.a.regs ++ o.b.regs)
  | .atomMax _ o => o.d.r.toNat :: (o.a.regs ++ o.b.regs)
  | .atomUmin _ o => o.d.r.toNat :: (o.a.regs ++ o.b.regs)
  | .atomUmax _ o => o.d.r.toNat :: (o.a.regs ++ o.b.regs)
  | .atomExch _ o => o.d.r.toNat :: (o.a.regs ++ o.b.regs)
  | .atomCas _ o => o.d.r.toNat :: (o.a.regs ++ o.b.regs ++ o.c.regs)
  | .atomIncw _ o => o.d.r.toNat :: (o.a.regs ++ o.b.regs)
  | .redAdd _ o => o.a.regs ++ o.b.regs
  | .redFadd _ o => o.a.regs ++ o.b.regs
  | .redAnd _ o => o.a.regs ++ o.b.regs
  | .redOr _ o => o.a.regs ++ o.b.regs
  | .redXor _ o => o.a.regs ++ o.b.regs
  | .redMin _ o => o.a.regs ++ o.b.regs
  | .redMax _ o => o.a.regs ++ o.b.regs
  | .redUmin _ o => o.a.regs ++ o.b.regs
  | .redUmax _ o => o.a.regs ++ o.b.regs
  | .casc _ o => o.d.r.toNat :: (o.a.regs ++ o.b.regs ++ regSpan o.c 2)
  | .decc _ o => o.d.r.toNat :: (o.a.regs ++ o.b.regs ++ o.c.regs)
  | .fence _ _ => []
  | .bar _ _ => []
  | .waitc _ o => o.d.r.toNat :: (o.a.regs ++ o.b.regs)
  | .coinit _ a b => a.regs ++ b.regs
  | .arrive _ o => o.d.r.toNat :: o.a.regs
  | .expect _ a b => a.regs ++ b.regs
  | .waitph _ o => o.a.regs ++ o.b.regs
  | .inv _ o => o.a.regs
  | .wb _ o => o.a.regs
  | .copy _ o => o.o.toNat :: (o.a.regs ++ o.b.regs ++ regSpan o.c 3)
  | .copym _ o => o.o.toNat :: (o.a.regs ++ o.b.regs ++ regSpan o.c 4)
  | .copys _ o => o.o.toNat :: (o.a.regs ++ o.b.regs ++ regSpan o.c 3)
  | .copyg _ o => o.o.toNat :: (o.a.regs ++ o.b.regs ++ o.n.regs)
  | .mmaF8e4 _ o => o.a.regs ++ o.b.regs
  | .mmaF8e5 _ o => o.a.regs ++ o.b.regs
  | .mmaBf16 _ o => o.a.regs ++ o.b.regs
  | .mmaF16 _ o => o.a.regs ++ o.b.regs
  | .mmaI8 _ o => o.a.regs ++ o.b.regs
  | .mmaI4 _ o => o.a.regs ++ o.b.regs
  | .mmaI2 _ o => o.a.regs ++ o.b.regs
  | .mmaB1 _ o => o.a.regs ++ o.b.regs
  | .mmaQc4 _ o => o.a.regs ++ o.b.regs ++ regSpan o.sc (if o.pair then 10 else 5)
  | .mzero _ _ => []
  | .mload _ o => o.a.regs
  | .mstore _ o => o.a.regs
  | .mfence _ d => [d.toNat]
  | .mwait _ a => a.regs
  | .acwin _ o => o.a.regs ++ o.b.regs ++ o.c.regs
  | .tsweep _ o => o.a.regs ++ o.b.regs ++ o.c.regs
  | .tsred _ o => o.a.regs ++ o.b.regs ++ o.m.regs
  | .tag _ o => o.d.r.toNat :: o.a.regs
  | .mkt _ o => o.d.r.toNat :: (o.a.regs ++ o.b.regs)
  | .deref _ o => o.d.r.toNat :: o.a.regs
  | .unify _ o => o.a.regs ++ o.b.regs
  | .bindT _ a b => a.regs ++ b.regs
  | .halloc _ o => o.d.r.toNat :: o.a.regs
  | .getarg _ o => o.d.r.toNat :: (o.a.regs ++ o.b.regs)
  | .commit _ o => o.a.regs ++ o.b.regs
  | .tryM _ o => regSpan o.k 5
  | .trust _ => []
  | .failW _ => []
  | .cut _ a => a.regs
  | .offer _ a => a.regs
  | .adopt _ _ => []
  | .ovlcfg _ a => a.regs
  | .slotNop _ y => y.regs
  | .slotMov _ x y => x.d.r.toNat :: (x.src.regs ++ y.regs)
  | .slotAdd _ x y => x.d.r.toNat :: (x.src.regs ++ y.regs)
  | .slotSub _ x y => x.d.r.toNat :: (x.src.regs ++ y.regs)
  | .slotAnd _ x y => x.d.r.toNat :: (x.src.regs ++ y.regs)
  | .slotOr _ x y => x.d.r.toNat :: (x.src.regs ++ y.regs)
  | .slotXor _ x y => x.d.r.toNat :: (x.src.regs ++ y.regs)
  | .slotShl _ x y => x.d.r.toNat :: (x.src.regs ++ y.regs)
  | .slotShr _ x y => x.d.r.toNat :: (x.src.regs ++ y.regs)
  | .slotSar _ x y => x.d.r.toNat :: (x.src.regs ++ y.regs)
  | .slotMin _ x y => x.d.r.toNat :: (x.src.regs ++ y.regs)
  | .slotMax _ x y => x.d.r.toNat :: (x.src.regs ++ y.regs)
  | .slotNeg _ x y => x.d.r.toNat :: (x.src.regs ++ y.regs)
  | .slotNot _ x y => x.d.r.toNat :: (x.src.regs ++ y.regs)
  | .slotFadd _ x y => x.d.r.toNat :: (x.src.regs ++ y.regs)
  | .slotFmul _ x y => x.d.r.toNat :: (x.src.regs ++ y.regs)
  | .slotFmin _ x y => x.d.r.toNat :: (x.src.regs ++ y.regs)
  | .slotFmax _ x y => x.d.r.toNat :: (x.src.regs ++ y.regs)
  | .slotFneg _ x y => x.d.r.toNat :: (x.src.regs ++ y.regs)
  | .storeLeaveCore _ _ => []
  | .monitorWake _ _ => []
  | .waitcRecheckTimer _ _ => []
  | .waitcTimeout _ _ => []
  | .waitcSpuriousReturn _ _ => []
  | .copySlotGrant _ _ => []
  | .copyDelivery _ _ => []
  | .mmaComplete _ _ => []
  | .batchRetire _ _ => []
  | .issueCycle _ => []
  | .budgetPeriodStart _ => []
  | .icacheLineArrive _ _ => []
  | .tlbWalkComplete _ _ => []
  | .sectorEviction _ _ => []
  | .assistComplete _ _ => []
  | .hostFaultReply _ _ _ => []
  | .debugResume _ _ => []
  | .preemptOrder _ => []
  | .preemptSave _ => []
  | .blockResume _ => []
  | .zeroingDone _ _ => []
  | .kick _ => []
  | .fetchLaunch _ => []
  | .launchAdmit _ => []
  | .fetchLaunchx _ => []
  | .fetchWaitsig _ => []
  | .waitsigSatisfied _ => []
  | .fetchSignal _ => []
  | .fetchNopPacket _ => []
  | .fetchContreg _ => []
  | .contregComplete _ _ => []
  | .dispatchChunk _ => []
  | .blockPlace _ _ => []
  | .coopPlace _ => []
  | .workSteal _ _ => []
  | .blockEnd _ => []
  | .launchComplete _ => []
  | .timesliceExpire => []
  | .schedDecision => []
  | .unmapFlushProbeReturn _ => []
  | .queueReset _ => []
  | .createContext _ _ _ _ => []
  | .createQcb _ => []
  | .destroyQcb _ => []
  | .createFabricQueue _ _ => []
  | .setBudgetClass _ _ _ _ => []
  | .setQuota _ _ => []
  | .invalidate _ _ _ => []
  | .teardownAsid _ => []
  | .sramSplitChange _ _ _ => []
  | .specBegin _ => []
  | .specTimeout _ => []
  | .sliceWriteTask _ _ => []
  | .remoteMessageArrive _ => []
  | .remoteAckArrive _ _ _ _ => []
  | .flushProbeReturn _ _ => []
  | .fabricPhaseQuiet _ => []
  | .fabricQuiesce => []
  | .joinMessage _ _ _ => []
  | .startMessage _ _ => []
  | .abortMessage _ _ => []
  | .joinTimeout _ _ => []
  | .hang _ => []
  | .remoteRecoveryTimeout _ => []
  | .strikeReport _ _ _ => []
  | .checkpoint _ => []
  | .flitCrcRetry _ _ => []
  | .portLaneLoss _ _ => []
  | .portFail _ => []
  | .portReceiveTimeout _ => []
  | .portReturn _ => []
  | .coreMarginal _ _ => []
  | .bistEnd _ _ _ => []
  | .attestationRequest _ => []
  | .coldReset _ => []
  | .deviceReset => []
  | .functionReset _ => []
  | .powerCapSet _ => []
  | .throttleStep _ _ => []
  | .hostCxlAccess _ _ => []
  | .uncorrectableError _ => []
  | .fetcherMonitorMatch _ => []
  | .importTableEntry _ _ _ _ _ => []
  | .configTableLoad _ => []
  | .recoveryImageLoad _ => []
  | .chipLeavesDomain _ => []
  | .variableLatencyResult _ _ _ => []
  | .directoryEntryEviction _ => []

/-- Every named register lies below the declared count (01 R10). -/
def Instr.regsBelow (n : Nat) (i : Instr) : Bool := i.regs.all fun r => decide (r < n) || decide (128 ≤ r)

/-- Pairs and quads start at an aligned register (01 R11). -/
def Instr.spansAligned : Instr → Bool
  | .ld _ o => spanAligned o.d.r o.sz
  | .ldc _ o => spanAligned o.d.r o.sz
  | .ldb _ o => spanAligned o.d.r o.sz
  | .st _ o => spanAligned o.d o.sz
  | .stnt _ o => spanAligned o.d o.sz
  | _ => true

/-- How many distinct registers of a list lie in a bank (02 R48). -/
def bankCount (l : List Nat) (b : Nat) : Nat := (l.eraseDups.filter fun r => decide (r < 64) && r % 4 == b).length

/-- The two pairing rules of a dual word (02 R48). -/
def slotsPair (x y : Slot) : Bool :=
  (match x.dst?, y.dst? with
    | some p, some q => p != q
    | _, _ => true) &&
  (List.range 4).all (fun b => bankCount (x.reads ++ y.reads) b ≤ 2)

/-- A full word or an event always pairs; a dual word by `slotsPair`. -/
def Instr.pairOk (i : Instr) : Bool :=
  match i.slotX?, i.slotY? with
  | some x, some y => slotsPair x y
  | _, _ => true

/-- Whether a constructor is an event of the part, which no word encodes. -/
def Instr.isEvent : Instr → Bool
  | .storeLeaveCore .. => true
  | .monitorWake .. => true
  | .waitcRecheckTimer .. => true
  | .waitcTimeout .. => true
  | .waitcSpuriousReturn .. => true
  | .copySlotGrant .. => true
  | .copyDelivery .. => true
  | .mmaComplete .. => true
  | .batchRetire .. => true
  | .issueCycle .. => true
  | .budgetPeriodStart .. => true
  | .icacheLineArrive .. => true
  | .tlbWalkComplete .. => true
  | .sectorEviction .. => true
  | .assistComplete .. => true
  | .hostFaultReply .. => true
  | .debugResume .. => true
  | .preemptOrder .. => true
  | .preemptSave .. => true
  | .blockResume .. => true
  | .zeroingDone .. => true
  | .kick .. => true
  | .fetchLaunch .. => true
  | .launchAdmit .. => true
  | .fetchLaunchx .. => true
  | .fetchWaitsig .. => true
  | .waitsigSatisfied .. => true
  | .fetchSignal .. => true
  | .fetchNopPacket .. => true
  | .fetchContreg .. => true
  | .contregComplete .. => true
  | .dispatchChunk .. => true
  | .blockPlace .. => true
  | .coopPlace .. => true
  | .workSteal .. => true
  | .blockEnd .. => true
  | .launchComplete .. => true
  | .timesliceExpire => true
  | .schedDecision => true
  | .unmapFlushProbeReturn .. => true
  | .queueReset .. => true
  | .createContext .. => true
  | .createQcb .. => true
  | .destroyQcb .. => true
  | .createFabricQueue .. => true
  | .setBudgetClass .. => true
  | .setQuota .. => true
  | .invalidate .. => true
  | .teardownAsid .. => true
  | .sramSplitChange .. => true
  | .specBegin .. => true
  | .specTimeout .. => true
  | .sliceWriteTask .. => true
  | .remoteMessageArrive .. => true
  | .remoteAckArrive .. => true
  | .flushProbeReturn .. => true
  | .fabricPhaseQuiet .. => true
  | .fabricQuiesce => true
  | .joinMessage .. => true
  | .startMessage .. => true
  | .abortMessage .. => true
  | .joinTimeout .. => true
  | .hang .. => true
  | .remoteRecoveryTimeout .. => true
  | .strikeReport .. => true
  | .checkpoint .. => true
  | .flitCrcRetry .. => true
  | .portLaneLoss .. => true
  | .portFail .. => true
  | .portReceiveTimeout .. => true
  | .portReturn .. => true
  | .coreMarginal .. => true
  | .bistEnd .. => true
  | .attestationRequest .. => true
  | .coldReset .. => true
  | .deviceReset => true
  | .functionReset .. => true
  | .powerCapSet .. => true
  | .throttleStep .. => true
  | .hostCxlAccess .. => true
  | .uncorrectableError .. => true
  | .fetcherMonitorMatch .. => true
  | .importTableEntry .. => true
  | .configTableLoad .. => true
  | .recoveryImageLoad .. => true
  | .chipLeavesDomain .. => true
  | .variableLatencyResult .. => true
  | .directoryEntryEviction .. => true
  | _ => false

end Sys2Proof
end

