-- ==== Sys2Proof/WellFormed.lean ====
section
/-! DEFINITION. Which terms of `Instr` stand for a word that every decode check accepts (02 R64) in a kernel
of the largest register count, and which events have parameters in range. -/

namespace Sys2Proof

/-- TYPE codes 0 to 3 of the integer reading (05 R102). -/
def IType.ok3 (t : IType) : Bool := t != .i4x16
/-- TYPE codes 0 and 1 (05 R102). -/
def IType.ok1 (t : IType) : Bool := t == .i64 || t == .i32x2
/-- TYPE codes 0 to 3 of the float reading (05 R102). -/
def FType.ok3 (t : FType) : Bool := t != .f8e4x8 && t != .f8e5x8
/-- TYPE codes 1 to 3 of the float reading (05 R102). -/
def FType.ok13 (t : FType) : Bool := t.ok3 && t != .f64
/-- Sizes 1 to 8 (06 R157). -/
def Size.ok3 (z : Size) : Bool := z != .b16 && z != .b32
/-- Sizes 4 and 8 (06 R159, R168). -/
def Size.okAtom (z : Size) : Bool := z == .b4 || z == .b8

/-- DEV, FAB or SYS (06 R165). -/
def AScope.okAtomc (a : AScope) : Bool := a == .dev || a == .fab || a == .sys

/-- The field values that the syntax admits and a decode check refuses (02 R64, step 2). -/
def Instr.fieldsOk : Instr → Bool
  | .join c _ => c.ga == 7 && !c.na && c.gb == 7 && !c.nb
  | .widW _ _ f => decide (f < 6)
  | .movhi _ o => o.j != .j3 || o.imm.extractLsb' 10 8 == 0
  | .bfx _ o => o.t.ok1
  | .ubfx _ o => o.t.ok1
  | .bfi _ o => o.t.ok1
  | .pack _ o => o.t.ok3
  | .unpk _ o => o.t.ok3
  | .frcp _ o => o.t.ok13
  | .frsq _ o => o.t.ok13
  | .fsqrt _ o => o.t.ok3
  | .fdiv _ o => o.t.ok3
  | .fexp2 _ o => o.t.ok13
  | .flog2 _ o => o.t.ok13
  | .fsin _ o => o.t.ok13
  | .fcos _ o => o.t.ok13
  | .ftanh _ o => o.t.ok13
  | .qpack _ o => o.t.ok13
  | .qunpk _ o => o.t.ok13 && decide (o.k.toNat < (if o.t = .f32x2 then 8 else 4))
  | .plane _ o => decide (o.k.toNat < (match o.t with | .i64 => 64 | .i32x2 => 32 | .i16x4 => 16 | .i8x8 => 8 | .i4x16 => 4))
  | .unplane _ o => decide (o.k.toNat < (match o.t with | .i64 => 64 | .i32x2 => 32 | .i16x4 => 16 | .i8x8 => 8 | .i4x16 => 4))
  | .redl _ o => !o.excl
  | .lda _ o => o.sz.ok3
  | .stl _ o => o.sz.ok3
  | .atomAdd _ o => o.sz.okAtom
  | .atomFadd _ o => o.sz.okAtom
  | .atomAnd _ o => o.sz.okAtom
  | .atomOr _ o => o.sz.okAtom
  | .atomXor _ o => o.sz.okAtom
  | .atomMin _ o => o.sz.okAtom
  | .atomMax _ o => o.sz.okAtom
  | .atomUmin _ o => o.sz.okAtom
  | .atomUmax _ o => o.sz.okAtom
  | .atomExch _ o => o.sz.okAtom
  | .atomCas _ o => o.sz.okAtom
  | .atomIncw _ o => o.sz.okAtom
  | .redAdd _ o => o.sz.okAtom
  | .redFadd _ o => o.sz.okAtom
  | .redAnd _ o => o.sz.okAtom
  | .redOr _ o => o.sz.okAtom
  | .redXor _ o => o.sz.okAtom
  | .redMin _ o => o.sz.okAtom
  | .redMax _ o => o.sz.okAtom
  | .redUmin _ o => o.sz.okAtom
  | .redUmax _ o => o.sz.okAtom
  | .casc _ o => o.asc.okAtomc && o.ssc != .s
  | .decc _ o => o.asc.okAtomc && o.ssc != .s
  | .fence _ o => o.ord != .rlx
  | .waitc _ o => o.sz.okAtom
  | .tsweep _ o =>
    (match o.op with
      | .add => true
      | .sub => true
      | .mul => true
      | .min => true
      | .max => true
      | _ => o.c == ⟨.reg 0, .whole⟩)
  | _ => true

/-- The checks of 02 R64 that look at an instruction, for a register count of `n`. -/
def Instr.wfAt (n : Nat) (i : Instr) : Bool := i.fieldsOk && i.regsBelow n && i.spansAligned && i.pairOk

/-- Well-formed for the largest register count, 64 (01 R10). -/
def Instr.wf (i : Instr) : Bool := i.wfAt 64

end Sys2Proof
end

