-- ==== Sys2Proof/Decode.lean ====
section
/-! DEFINITION. The decoder: total on every 64-bit word, refusing by the name of the fault (02 R32 to R64),
and the encoder, written from the same field tables. -/

namespace Sys2Proof

/-- What the first two checks of the decode order refuse with (02 R64, steps 1 and 2). -/
inductive DecodeFault where
  /-- Unassigned MAJ, MIN or slot opcode, or WRSR of a read-only register. -/
  | illegalInstr
  /-- A reserved or unused field is not zero, or a code is not listed. -/
  | reservedField
  deriving DecidableEq, Repr

/-- The fields of a full word (02 R34). -/
structure FW where
  maj : BitVec 6
  min : BitVec 4
  ga : BitVec 3
  na : BitVec 1
  gb : BitVec 3
  nb : BitVec 1
  dst : BitVec 6
  nwb : BitVec 1
  sa : BitVec 7
  moda : BitVec 2
  sb : BitVec 7
  modb : BitVec 2
  sc : BitVec 7
  modc : BitVec 2
  ch : BitVec 2
  stall : BitVec 5
  yld : BitVec 1
  ty : BitVec 3
  deriving DecidableEq, Repr

/-- Cut a full word into its fields (02 R34). -/
def FW.ofWord (w : W64) : FW where
  maj := w.extractLsb' 57 6
  min := w.extractLsb' 53 4
  ga := w.extractLsb' 50 3
  na := w.extractLsb' 49 1
  gb := w.extractLsb' 46 3
  nb := w.extractLsb' 45 1
  dst := w.extractLsb' 39 6
  nwb := w.extractLsb' 38 1
  sa := w.extractLsb' 31 7
  moda := w.extractLsb' 29 2
  sb := w.extractLsb' 22 7
  modb := w.extractLsb' 20 2
  sc := w.extractLsb' 13 7
  modc := w.extractLsb' 11 2
  ch := w.extractLsb' 9 2
  stall := w.extractLsb' 4 5
  yld := w.extractLsb' 3 1
  ty := w.extractLsb' 0 3

/-- Lay the fields of a full word out, FM = 0 on top (02 R34). -/
def FW.toWord (f : FW) : W64 :=
  (0 : BitVec 1) ++ f.maj ++ f.min ++ f.ga ++ f.na ++ f.gb ++ f.nb ++ f.dst ++ f.nwb ++ f.sa ++ f.moda ++ f.sb ++
    f.modb ++ f.sc ++ f.modc ++ f.ch ++ f.stall ++ f.yld ++ f.ty

/-- IMM18 overlays SB, MODB, SC and MODC (02 R50). -/
def FW.imm (f : FW) : BitVec 18 := f.sb ++ f.modb ++ f.sc ++ f.modc

/-- Put an 18-bit immediate into the fields it overlays (02 R50). -/
def FW.withImm (f : FW) (i : BitVec 18) : FW :=
  { f with sb := i.extractLsb' 11 7, modb := i.extractLsb' 9 2, sc := i.extractLsb' 2 7, modc := i.extractLsb' 0 2 }

/-! ### Codes of the operand fields -/

/-- A bit as a Boolean. -/
def flag (b : BitVec 1) : Bool := b == 1

/-- A Boolean as a bit. -/
def bit (b : Bool) : BitVec 1 := if b then 1 else 0

/-- Source codes (02 R37); 0x47 to 0x4F are reserved. -/
def Src.ofCode (c : BitVec 7) : Option Src :=
  if c < 0x40 then some (.reg (c.setWidth 6))
  else if c < 0x44 then some (.latch (c.setWidth 2))
  else if c = 0x44 then some .zero
  else if c = 0x45 then some .lane
  else if c = 0x46 then some .ones
  else if h : 0x50 ≤ c.toNat then some (.imm ⟨c.toNat - 0x50, by have := c.isLt; omega⟩)
  else none

/-- The code of a source (02 R37). -/
def Src.code : Src → BitVec 7
  | .reg r => r.setWidth 7
  | .latch n => 0x40 + n.setWidth 7
  | .zero => 0x44
  | .lane => 0x45
  | .ones => 0x46
  | .imm k => BitVec.ofNat 7 (k.val + 0x50)

/-- Modifier codes (02 R39). -/
def Md.ofCode (c : BitVec 2) : Md :=
  if c = 0 then .whole else if c = 1 then .lo else if c = 2 then .hi else .sw

/-- The code of a modifier (02 R39). -/
def Md.code : Md → BitVec 2
  | .whole => 0
  | .lo => 1
  | .hi => 2
  | .sw => 3

/-- An operand from its source and modifier fields. -/
def Opnd.ofCodes (s : BitVec 7) (m : BitVec 2) : Option Opnd := (Src.ofCode s).map fun x => ⟨x, Md.ofCode m⟩

/-- A source in a field pair whose modifier must be 00. -/
def srcPlain (s : BitVec 7) (m : BitVec 2) : Option Src := if m = 0 then Src.ofCode s else none

/-- A base field: a register code with modifier 00 (02 R60). -/
def baseReg (s : BitVec 7) (m : BitVec 2) : Option Reg := if m = 0 ∧ s < 0x40 then some (s.setWidth 6) else none

/-- A predicate operand (02 R57). -/
def PredOp.ofCodes (s : BitVec 7) (m : BitVec 2) : Option PredOp :=
  if m = 0 ∧ s < 0x10 then some ⟨s.setWidth 3, s.getLsbD 3⟩ else none

/-- The code of a predicate operand (02 R57). -/
def PredOp.code (p : PredOp) : BitVec 7 := (0 : BitVec 3) ++ bit p.neg ++ p.p

/-- TYPE codes of the integer reading (02 R40). -/
def IType.code : IType → BitVec 3
  | .i64 => 0
  | .i32x2 => 1
  | .i16x4 => 2
  | .i8x8 => 3
  | .i4x16 => 4

/-- TYPE codes 0 to 4 (05 R102). -/
def IType.upTo4 (c : BitVec 3) : Option IType :=
  match c.toNat with
  | 0 => some .i64
  | 1 => some .i32x2
  | 2 => some .i16x4
  | 3 => some .i8x8
  | 4 => some .i4x16
  | _ => none

/-- TYPE codes 0 to 3 (05 R102). -/
def IType.upTo3 (c : BitVec 3) : Option IType := if c < 4 then IType.upTo4 c else none

/-- TYPE codes 0 and 1 (05 R102). -/
def IType.upTo1 (c : BitVec 3) : Option IType := if c < 2 then IType.upTo4 c else none

/-- TYPE codes of the float reading (02 R40). -/
def FType.code : FType → BitVec 3
  | .f64 => 0
  | .f32x2 => 1
  | .bf16x4 => 2
  | .f16x4 => 3
  | .f8e4x8 => 4
  | .f8e5x8 => 5

/-- TYPE codes 0 to 5 (05 R102). -/
def FType.upTo5 (c : BitVec 3) : Option FType :=
  match c.toNat with
  | 0 => some .f64
  | 1 => some .f32x2
  | 2 => some .bf16x4
  | 3 => some .f16x4
  | 4 => some .f8e4x8
  | 5 => some .f8e5x8
  | _ => none

/-- TYPE codes 0 to 3, float reading (05 R102). -/
def FType.upTo3 (c : BitVec 3) : Option FType := if c < 4 then FType.upTo5 c else none

/-- TYPE codes 1 to 3, float reading (05 R102). -/
def FType.oneTo3 (c : BitVec 3) : Option FType := if c = 0 then none else FType.upTo3 c

/-- Access-size codes (02 R40). -/
def Size.code : Size → BitVec 3
  | .b1 => 0
  | .b2 => 1
  | .b4 => 2
  | .b8 => 3
  | .b16 => 4
  | .b32 => 5

/-- Sizes of plain loads and stores: TYPE 0 to 5 (06 R149, R154). -/
def Size.upTo5 (c : BitVec 3) : Option Size :=
  match c.toNat with
  | 0 => some .b1
  | 1 => some .b2
  | 2 => some .b4
  | 3 => some .b8
  | 4 => some .b16
  | 5 => some .b32
  | _ => none

/-- Sizes of LDA and STL: TYPE 0 to 3 (06 R157). -/
def Size.upTo3 (c : BitVec 3) : Option Size := if c < 4 then Size.upTo5 c else none

/-- Sizes of atomics and WAITC: TYPE 2 and 3 (06 R159, R168). -/
def Size.atomic (c : BitVec 3) : Option Size := if c = 2 then some .b4 else if c = 3 then some .b8 else none

/-- Condition codes 0 to 7 in SC (02 R58). -/
def Cond.ofCode (c : BitVec 7) : Option Cond :=
  match c.toNat with
  | 0 => some .eq
  | 1 => some .ne
  | 2 => some .lt
  | 3 => some .le
  | 4 => some .gt
  | 5 => some .ge
  | 6 => some .any
  | 7 => some .none
  | _ => Option.none

/-- The code of a condition (02 R58). -/
def Cond.code : Cond → BitVec 7
  | .eq => 0
  | .ne => 1
  | .lt => 2
  | .le => 3
  | .gt => 4
  | .ge => 5
  | .any => 6
  | .none => 7

/-- Condition codes of FCMP (02 R58). -/
def FCond.ofCode (c : BitVec 7) : Option FCond :=
  match c.toNat with
  | 0 => some .eq
  | 1 => some .ne
  | 2 => some .lt
  | 3 => some .le
  | 4 => some .gt
  | 5 => some .ge
  | 6 => some .un
  | 7 => some .ord
  | _ => Option.none

/-- The code of an FCMP condition (02 R58). -/
def FCond.code : FCond → BitVec 7
  | .eq => 0
  | .ne => 1
  | .lt => 2
  | .le => 3
  | .gt => 4
  | .ge => 5
  | .un => 6
  | .ord => 7

/-- Condition codes 0 to 11 (02 R58). -/
def WCond.ofCode : Nat → Option WCond
  | 0 => some .eq
  | 1 => some .ne
  | 2 => some .lt
  | 3 => some .le
  | 4 => some .gt
  | 5 => some .ge
  | 6 => some .any
  | 7 => some .none
  | 8 => some .ltu
  | 9 => some .leu
  | 10 => some .gtu
  | 11 => some .geu
  | _ => Option.none

/-- The code of a waiting condition (02 R58). -/
def WCond.code : WCond → BitVec 7
  | .eq => 0
  | .ne => 1
  | .lt => 2
  | .le => 3
  | .gt => 4
  | .ge => 5
  | .any => 6
  | .none => 7
  | .ltu => 8
  | .leu => 9
  | .gtu => 10
  | .geu => 11

/-- ORDER codes (02 R59). -/
def Order.ofCode (c : BitVec 2) : Order :=
  if c = 0 then .rlx else if c = 1 then .acq else if c = 2 then .rel else .ar

/-- The code of an ORDER (02 R59). -/
def Order.code : Order → BitVec 2
  | .rlx => 0
  | .acq => 1
  | .rel => 2
  | .ar => 3

/-- ASCOPE codes (02 R59); 6 and 7 are reserved. -/
def AScope.ofCode (c : BitVec 3) : Option AScope :=
  match c.toNat with
  | 0 => some .grp
  | 1 => some .blk
  | 2 => some .clu
  | 3 => some .dev
  | 4 => some .fab
  | 5 => some .sys
  | _ => none

/-- The code of an ASCOPE (02 R59). -/
def AScope.code : AScope → BitVec 3
  | .grp => 0
  | .blk => 1
  | .clu => 2
  | .dev => 3
  | .fab => 4
  | .sys => 5

/-- DEV, FAB or SYS. -/
def AScope.wide : AScope → Bool
  | .dev => true
  | .fab => true
  | .sys => true
  | _ => false

/-- SSCOPE codes (02 R59); 0 is reserved. -/
def SScope.ofCode (c : BitVec 2) : Option SScope :=
  if c = 1 then some .s else if c = 2 then some .g else if c = 3 then some .sg else none

/-- The code of an SSCOPE (02 R59). -/
def SScope.code : SScope → BitVec 2
  | .s => 1
  | .g => 2
  | .sg => 3

/-- Cache hint codes (02 R52). -/
def Hint.ofCode (c : BitVec 2) : Hint :=
  if c = 0 then .normal else if c = 1 then .stream else if c = 2 then .retain else .noalloc

/-- The code of a cache hint (02 R52). -/
def Hint.code : Hint → BitVec 2
  | .normal => 0
  | .stream => 1
  | .retain => 2
  | .noalloc => 3

/-- Rounding codes (03 R69). -/
def RMode.ofCode (c : BitVec 2) : RMode :=
  if c = 0 then .rne else if c = 1 then .rz else if c = 2 then .ru else .rd

/-- The code of a rounding mode (03 R69). -/
def RMode.code : RMode → BitVec 2
  | .rne => 0
  | .rz => 1
  | .ru => 2
  | .rd => 3

/-- CVT format codes (05 R127); 6 and 7 are reserved. -/
def CFmt.ofCode (c : BitVec 7) : Option CFmt :=
  match c.toNat with
  | 0 => some .f64
  | 1 => some .f32
  | 2 => some .bf16
  | 3 => some .f16
  | 4 => some .e4m3
  | 5 => some .e5m2
  | 8 => some .s64
  | 9 => some .s32
  | 10 => some .s16
  | 11 => some .s8
  | 12 => some .u64
  | 13 => some .u32
  | 14 => some .u16
  | 15 => some .u8
  | _ => none

/-- The code of a CVT format (05 R127). -/
def CFmt.code : CFmt → BitVec 7
  | .f64 => 0
  | .f32 => 1
  | .bf16 => 2
  | .f16 => 3
  | .e4m3 => 4
  | .e5m2 => 5
  | .s64 => 8
  | .s32 => 9
  | .s16 => 10
  | .s8 => 11
  | .u64 => 12
  | .u32 => 13
  | .u16 => 14
  | .u8 => 15

/-- The operation and TYPE of REDL and SCANL from SC [3:0] and TYPE (05 R135). -/
def LaneOp.ofCodes (o : BitVec 4) (t : BitVec 3) : Option LaneOp :=
  match o.toNat with
  | 0 => (IType.upTo4 t).map (.int .add)
  | 1 => (IType.upTo4 t).map (.int .min)
  | 2 => (IType.upTo4 t).map (.int .max)
  | 3 => (IType.upTo4 t).map (.int .umin)
  | 4 => (IType.upTo4 t).map (.int .umax)
  | 5 => (IType.upTo4 t).map (.int .and)
  | 6 => (IType.upTo4 t).map (.int .or)
  | 7 => (IType.upTo4 t).map (.int .xor)
  | 8 => (FType.upTo5 t).map (.flt .fadd)
  | 9 => (FType.upTo5 t).map (.flt .fmin)
  | 10 => (FType.upTo5 t).map (.flt .fmax)
  | _ => none

/-- SC [3:0] of a lane operation (05 R135). -/
def LaneOp.code : LaneOp → BitVec 4
  | .int .add _ => 0
  | .int .min _ => 1
  | .int .max _ => 2
  | .int .umin _ => 3
  | .int .umax _ => 4
  | .int .and _ => 5
  | .int .or _ => 6
  | .int .xor _ => 7
  | .flt .fadd _ => 8
  | .flt .fmin _ => 9
  | .flt .fmax _ => 10

/-- TYPE of a lane operation. -/
def LaneOp.ty : LaneOp → BitVec 3
  | .int _ t => t.code
  | .flt _ t => t.code

/-- Special-register numbers (01 R29). -/
def SReg.num : SReg → BitVec 8
  | .lane => 0x00
  | .gid => 0x01
  | .wid0 => 0x02
  | .wid1 => 0x03
  | .wid2 => 0x04
  | .wid3 => 0x05
  | .wid4 => 0x06
  | .wid5 => 0x07
  | .qpkt => 0x08
  | .asid => 0x09
  | .clid => 0x0A
  | .core => 0x0B
  | .scb => 0x0C
  | .tt => 0x10
  | .ht => 0x11
  | .mt => 0x12
  | .upd => 0x13
  | .acb => 0x18
  | .acl => 0x19
  | .bcnt => 0x1A
  | .dsp => 0x1B
  | .flg => 0x1C
  | .fex => 0x1D
  | .tix0 => 0x20
  | .tix1 => 0x21
  | .tix2 => 0x22
  | .tix3 => 0x23
  | .tix4 => 0x24

/-- The special register of a number, if the table of 01 R29 lists it. -/
def SReg.ofNum (n : BitVec 8) : Option SReg :=
  match n.toNat with
  | 0x00 => some .lane
  | 0x01 => some .gid
  | 0x02 => some .wid0
  | 0x03 => some .wid1
  | 0x04 => some .wid2
  | 0x05 => some .wid3
  | 0x06 => some .wid4
  | 0x07 => some .wid5
  | 0x08 => some .qpkt
  | 0x09 => some .asid
  | 0x0A => some .clid
  | 0x0B => some .core
  | 0x0C => some .scb
  | 0x10 => some .tt
  | 0x11 => some .ht
  | 0x12 => some .mt
  | 0x13 => some .upd
  | 0x18 => some .acb
  | 0x19 => some .acl
  | 0x1A => some .bcnt
  | 0x1B => some .dsp
  | 0x1C => some .flg
  | 0x1D => some .fex
  | 0x20 => some .tix0
  | 0x21 => some .tix1
  | 0x22 => some .tix2
  | 0x23 => some .tix3
  | 0x24 => some .tix4
  | _ => none

/-- Counter numbers of PERF (08 R253). -/
def Counter.num : Counter → BitVec 8
  | .words => 0
  | .slips => 1
  | .icMisses => 2
  | .assists => 3
  | .rewinds => 4
  | .mmas => 5
  | .copies => 6
  | .pairs => 7
  | .fails => 8
  | .adopts => 9

/-- The counter of a number (08 R253). -/
def Counter.ofNum (n : BitVec 8) : Option Counter :=
  match n.toNat with
  | 0 => some .words
  | 1 => some .slips
  | 2 => some .icMisses
  | 3 => some .assists
  | 4 => some .rewinds
  | 5 => some .mmas
  | 6 => some .copies
  | 7 => some .pairs
  | 8 => some .fails
  | 9 => some .adopts
  | _ => none

/-- TSWEEP codes in DST (07 R213). -/
def SweepOp.ofCode (c : BitVec 6) : Option SweepOp :=
  match c.toNat with
  | 0 => some .mov
  | 1 => some .add
  | 2 => some .sub
  | 3 => some .mul
  | 4 => some .min
  | 5 => some .max
  | 6 => some .relu
  | 7 => some .exp2
  | 8 => some .tanh
  | 9 => some .rcp
  | 10 => some .rsq
  | _ => none

/-- The code of a TSWEEP operation (07 R213). -/
def SweepOp.code : SweepOp → BitVec 6
  | .mov => 0
  | .add => 1
  | .sub => 2
  | .mul => 3
  | .min => 4
  | .max => 5
  | .relu => 6
  | .exp2 => 7
  | .tanh => 8
  | .rcp => 9
  | .rsq => 10

/-- Whether a TSWEEP operation has two sources (07 R213). -/
def SweepOp.two : SweepOp → Bool
  | .add => true
  | .sub => true
  | .mul => true
  | .min => true
  | .max => true
  | _ => false

/-- TSRED codes in DST (07 R213). -/
def RedOp.ofCode (c : BitVec 6) : Option RedOp :=
  match c.toNat with
  | 0 => some .add
  | 1 => some .max
  | 2 => some .min
  | 3 => some .addsq
  | _ => none

/-- The code of a TSRED operation (07 R213). -/
def RedOp.code : RedOp → BitVec 6
  | .add => 0
  | .max => 1
  | .min => 2
  | .addsq => 3

/-- A-format codes in MODA (07 R199). -/
def AFmt.ofCode (c : BitVec 2) : AFmt :=
  if c = 0 then .e4m3 else if c = 1 then .e5m2 else if c = 2 then .bf16 else .fp16

/-- The code of an A format (07 R199). -/
def AFmt.code : AFmt → BitVec 2
  | .e4m3 => 0
  | .e5m2 => 1
  | .bf16 => 2
  | .fp16 => 3

/-- Tile formats in TYPE (07 R205). -/
def TileFmt.ofCode (c : BitVec 3) : Option TileFmt :=
  match c.toNat with
  | 1 => some .f32
  | 2 => some .bf16
  | 3 => some .f16
  | 4 => some .e4m3
  | 5 => some .e5m2
  | _ => none

/-- The code of a tile format (07 R205). -/
def TileFmt.code : TileFmt → BitVec 3
  | .f32 => 1
  | .bf16 => 2
  | .f16 => 3
  | .e4m3 => 4
  | .e5m2 => 5

/-- ATOMC status pairs (02 R55). -/
def PPair.ofCode (c : BitVec 2) : Option PPair :=
  if c = 0 then some .p0 else if c = 1 then some .p2 else if c = 2 then some .p4 else none

/-- The code of a status pair (02 R55). -/
def PPair.code : PPair → BitVec 2
  | .p0 => 0
  | .p2 => 1
  | .p4 => 2

/-- Slot opcodes of the integer operations (02 R47). -/
def SIOp.code : SIOp → BitVec 7
  | .mov => 0x01
  | .add => 0x02
  | .sub => 0x03
  | .and => 0x04
  | .or => 0x05
  | .xor => 0x06
  | .shl => 0x07
  | .shr => 0x08
  | .sar => 0x09
  | .min => 0x0A
  | .max => 0x0B
  | .neg => 0x0C
  | .not => 0x0D

/-- The integer slot operation of an opcode (02 R47). -/
def SIOp.ofCode (c : BitVec 7) : Option SIOp :=
  match c.toNat with
  | 0x01 => some .mov
  | 0x02 => some .add
  | 0x03 => some .sub
  | 0x04 => some .and
  | 0x05 => some .or
  | 0x06 => some .xor
  | 0x07 => some .shl
  | 0x08 => some .shr
  | 0x09 => some .sar
  | 0x0A => some .min
  | 0x0B => some .max
  | 0x0C => some .neg
  | 0x0D => some .not
  | _ => none

/-- Slot opcodes of the float operations (02 R47). -/
def SFOp.code : SFOp → BitVec 7
  | .fadd => 0x0E
  | .fmul => 0x0F
  | .fmin => 0x10
  | .fmax => 0x11
  | .fneg => 0x12

/-- The float slot operation of an opcode (02 R47). -/
def SFOp.ofCode (c : BitVec 7) : Option SFOp :=
  match c.toNat with
  | 0x0E => some .fadd
  | 0x0F => some .fmul
  | 0x10 => some .fmin
  | 0x11 => some .fmax
  | 0x12 => some .fneg
  | _ => none

/-! ### What every full word shares -/

/-- Guards, STALL and YLD of a full word. -/
def ctl (f : FW) : Ctl := ⟨f.ga, flag f.na, f.gb, flag f.nb, f.stall, flag f.yld⟩

/-- A full word with its class, function and shared fields, every other field zero. -/
def Ctl.fw (c : Ctl) (maj : BitVec 6) (min : BitVec 4) : FW where
  maj := maj
  min := min
  ga := c.ga
  na := bit c.na
  gb := c.gb
  nb := bit c.nb
  dst := 0
  nwb := 0
  sa := 0
  moda := 0
  sb := 0
  modb := 0
  sc := 0
  modc := 0
  ch := 0
  stall := c.stall
  yld := bit c.yld
  ty := 0

/-- Refuse with RESERVED_FIELD where a field check failed (02 R64, step 2). -/
def orReserved (o : Option Instr) : Except DecodeFault Instr :=
  match o with
  | some i => .ok i
  | none => .error .reservedField

/-- The destination of a full word. -/
def FW.d (f : FW) : Dst := ⟨f.dst, flag f.nwb⟩

/-- Put a destination into a full word. -/
def FW.withD (f : FW) (d : Dst) : FW := { f with dst := d.r, nwb := bit d.nwb }

/-- Put an operand into SA and MODA. -/
def FW.withA (f : FW) (o : Opnd) : FW := { f with sa := o.src.code, moda := o.md.code }

/-- Put an operand into SB and MODB. -/
def FW.withB (f : FW) (o : Opnd) : FW := { f with sb := o.src.code, modb := o.md.code }

/-- Put an operand into SC and MODC. -/
def FW.withC (f : FW) (o : Opnd) : FW := { f with sc := o.src.code, modc := o.md.code }

/-- DST and NWB are zero: the word writes no general register (02 R41). -/
def FW.noD (f : FW) : Bool := f.dst == 0 && f.nwb == 0
/-- SA and MODA are zero. -/
def FW.noA (f : FW) : Bool := f.sa == 0 && f.moda == 0
/-- SB and MODB are zero. -/
def FW.noB (f : FW) : Bool := f.sb == 0 && f.modb == 0
/-- SC and MODC are zero. -/
def FW.noC (f : FW) : Bool := f.sc == 0 && f.modc == 0
/-- CH is 00. -/
def FW.noH (f : FW) : Bool := f.ch == 0
/-- TYPE is 0. -/
def FW.noT (f : FW) : Bool := f.ty == 0

/-- Keep a value when a check holds. -/
def keepIf {α : Type} (b : Bool) (x : Option α) : Option α := if b then x else none

/-! ### One decoder and one encoder for each operand record (02 R49 to R61) -/

def decNone (f : FW) : Option Unit := keepIf (f.noD && f.noA && f.noB && f.noC && f.noH && f.noT) (some ())

def decCode (f : FW) : Option (BitVec 18) := keepIf (f.noD && f.noA && f.noH && f.noT) (some f.imm)
def encCode (i : BitVec 18) (f : FW) : FW := f.withImm i

def decJoin (f : FW) : Option (BitVec 18) :=
  keepIf (f.ga == 7 && f.na == 0 && f.gb == 7 && f.nb == 0) (decCode f)

def decRdsr (f : FW) : Option (Dst × SReg) :=
  keepIf (f.noA && f.noH && f.noT && f.imm.extractLsb' 8 10 == 0)
    ((SReg.ofNum (f.imm.extractLsb' 0 8)).map fun n => (f.d, n))
def encRdsr (d : Dst) (n : SReg) (f : FW) : FW := (f.withD d).withImm (n.num.setWidth 18)

def decD (f : FW) : Option Dst := keepIf (f.noA && f.noB && f.noC && f.noH && f.noT) (some f.d)
def encD (d : Dst) (f : FW) : FW := f.withD d

def decPerf (f : FW) : Option (Dst × Counter) :=
  keepIf (f.noA && f.noH && f.noT && f.imm.extractLsb' 8 10 == 0)
    ((Counter.ofNum (f.imm.extractLsb' 0 8)).map fun n => (f.d, n))
def encPerf (d : Dst) (n : Counter) (f : FW) : FW := (f.withD d).withImm (n.num.setWidth 18)

/-- WRSR: a listed read-only register is ILLEGAL_INSTR at step 1, an unlisted number RESERVED_FIELD at
step 2 (01 R29, 02 R64). -/
def decWrsr (f : FW) : Except DecodeFault Instr :=
  let fields := f.noD && f.noH && f.noT && f.imm.extractLsb' 8 10 == 0
  match SReg.ofNum (f.imm.extractLsb' 0 8) with
  | some .dsp => orReserved (keepIf fields ((Opnd.ofCodes f.sa f.moda).map (.wrsrDsp (ctl f))))
  | some .flg => orReserved (keepIf fields ((Opnd.ofCodes f.sa f.moda).map (.wrsrFlg (ctl f))))
  | some .fex => orReserved (keepIf fields ((Opnd.ofCodes f.sa f.moda).map (.wrsrFex (ctl f))))
  | some _ => .error .illegalInstr
  | none => .error .reservedField
def encWrsr (n : BitVec 18) (a : Opnd) (f : FW) : FW := (f.withA a).withImm n

def decCall (f : FW) : Option (Dst × BitVec 18) := keepIf (f.noA && f.noH && f.noT) (some (f.d, f.imm))
def encCall (d : Dst) (off : BitVec 18) (f : FW) : FW := (f.withD d).withImm off

def decA (f : FW) : Option Opnd := keepIf (f.noD && f.noB && f.noC && f.noH && f.noT) (Opnd.ofCodes f.sa f.moda)
def encA (a : Opnd) (f : FW) : FW := f.withA a

def decAB (f : FW) : Option (Opnd × Opnd) :=
  keepIf (f.noD && f.noC && f.noH && f.noT)
    ((Opnd.ofCodes f.sa f.moda).bind fun a => (Opnd.ofCodes f.sb f.modb).map fun b => (a, b))
def encAB (a b : Opnd) (f : FW) : FW := (f.withA a).withB b

/-- DST[41:39] names a predicate, DST[44:42] and NWB are zero (02 R56). -/
def FW.p? (f : FW) : Option (BitVec 3) := keepIf (f.dst < 8 && f.nwb == 0) (some (f.dst.setWidth 3))
def FW.withP (f : FW) (p : BitVec 3) : FW := { f with dst := p.setWidth 6 }

def decP (f : FW) : Option (BitVec 3) := keepIf (f.noA && f.noB && f.noC && f.noH && f.noT) f.p?
def encP (p : BitVec 3) (f : FW) : FW := f.withP p

/-- WID: a field number above 5 or a bit above [2:0] is RESERVED_FIELD (08 R221). -/
def decWid (f : FW) : Option (Dst × BitVec 3) :=
  keepIf (f.noA && f.noH && f.noT && decide (f.imm < 6)) (some (f.d, f.imm.setWidth 3))
def encWid (d : Dst) (n : BitVec 3) (f : FW) : FW := (f.withD d).withImm (n.setWidth 18)

def decBar (f : FW) : Option (BitVec 3) :=
  keepIf (f.noD && f.noA && f.noH && f.noT && decide (f.imm < 8)) (some (f.imm.setWidth 3))

/-- DST[44:43] and NWB are zero, DST[42:39] is the tile (07 R199, R205). -/
def FW.tile? (f : FW) : Option (BitVec 4) := keepIf (f.dst < 16 && f.nwb == 0) (some (f.dst.setWidth 4))
def FW.withTile (f : FW) (t : BitVec 4) : FW := { f with dst := t.setWidth 6 }

def decTile (f : FW) : Option (BitVec 4) := keepIf (f.noA && f.noB && f.noC && f.noH && f.noT) f.tile?
def encTile (t : BitVec 4) (f : FW) : FW := f.withTile t

def decMfence (f : FW) : Option Reg :=
  keepIf (f.nwb == 0 && f.noA && f.noB && f.noC && f.noH && f.noT) (some f.dst)
def encMfence (d : Reg) (f : FW) : FW := { f with dst := d }

def R1.dec {τ : Type} (ty : BitVec 3 → Option τ) (f : FW) : Option (R1 τ) :=
  keepIf (f.noB && f.noC && f.noH)
    ((Opnd.ofCodes f.sa f.moda).bind fun a => (ty f.ty).map fun t => ⟨f.d, a, t⟩)
def R1.enc {τ : Type} (ty : τ → BitVec 3) (o : R1 τ) (f : FW) : FW := { (f.withD o.d).withA o.a with ty := ty o.t }

def R2.dec {τ : Type} (ty : BitVec 3 → Option τ) (f : FW) : Option (R2 τ) :=
  keepIf (f.noC && f.noH)
    ((Opnd.ofCodes f.sa f.moda).bind fun a => (Opnd.ofCodes f.sb f.modb).bind fun b =>
      (ty f.ty).map fun t => ⟨f.d, a, b, t⟩)
def R2.enc {τ : Type} (ty : τ → BitVec 3) (o : R2 τ) (f : FW) : FW :=
  { ((f.withD o.d).withA o.a).withB o.b with ty := ty o.t }

def R3.dec {τ : Type} (ty : BitVec 3 → Option τ) (f : FW) : Option (R3 τ) :=
  keepIf f.noH
    ((Opnd.ofCodes f.sa f.moda).bind fun a => (Opnd.ofCodes f.sb f.modb).bind fun b =>
      (Opnd.ofCodes f.sc f.modc).bind fun c => (ty f.ty).map fun t => ⟨f.d, a, b, c, t⟩)
def R3.enc {τ : Type} (ty : τ → BitVec 3) (o : R3 τ) (f : FW) : FW :=
  { (((f.withD o.d).withA o.a).withB o.b).withC o.c with ty := ty o.t }

def RLea.dec (f : FW) : Option RLea :=
  keepIf (f.sc < 8 && f.modc == 0 && f.noH && f.noT)
    ((Opnd.ofCodes f.sa f.moda).bind fun a => (Opnd.ofCodes f.sb f.modb).map fun b => ⟨f.d, a, b, f.sc.setWidth 3⟩)
def RLea.enc (o : RLea) (f : FW) : FW := { ((f.withD o.d).withA o.a).withB o.b with sc := o.k.setWidth 7 }

def RSel.dec (f : FW) : Option RSel :=
  keepIf f.noH
    ((Opnd.ofCodes f.sa f.moda).bind fun a => (Opnd.ofCodes f.sb f.modb).bind fun b =>
      (PredOp.ofCodes f.sc f.modc).bind fun p => (IType.upTo4 f.ty).map fun t => ⟨f.d, a, b, p, t⟩)
def RSel.enc (o : RSel) (f : FW) : FW :=
  { ((f.withD o.d).withA o.a).withB o.b with sc := o.p.code, ty := o.t.code }

def RMovi.dec (f : FW) : Option RMovi := keepIf (f.noA && f.noH && f.noT) (some ⟨f.d, f.imm⟩)
def RMovi.enc (o : RMovi) (f : FW) : FW := (f.withD o.d).withImm o.imm

/-- The slice number in SA (05 R108); 0 and 4 to 127 are reserved. -/
def Slice.ofCode (c : BitVec 7) : Option Slice :=
  if c = 1 then some .j1 else if c = 2 then some .j2 else if c = 3 then some .j3 else none
def Slice.code : Slice → BitVec 7
  | .j1 => 1
  | .j2 => 2
  | .j3 => 3

def RMovhi.dec (f : FW) : Option RMovhi :=
  keepIf (f.moda == 0 && f.noH && f.noT && (f.sa != 3 || f.imm.extractLsb' 10 8 == 0))
    ((Slice.ofCode f.sa).map fun j => ⟨f.d, j, f.imm⟩)
def RMovhi.enc (o : RMovhi) (f : FW) : FW := { (f.withD o.d).withImm o.imm with sa := o.j.code }

def UnpkSel.ofCode (c : BitVec 7) : Option UnpkSel :=
  match c.toNat with
  | 0 => some .lz
  | 1 => some .hz
  | 2 => some .ls
  | 3 => some .hs
  | _ => none
def UnpkSel.code : UnpkSel → BitVec 7
  | .lz => 0
  | .hz => 1
  | .ls => 2
  | .hs => 3

def RUnpk.dec (f : FW) : Option RUnpk :=
  keepIf (f.noB && f.modc == 0 && f.noH)
    ((Opnd.ofCodes f.sa f.moda).bind fun a => (UnpkSel.ofCode f.sc).bind fun x =>
      (IType.upTo3 f.ty).map fun t => ⟨f.d, a, x, t⟩)
def RUnpk.enc (o : RUnpk) (f : FW) : FW := { (f.withD o.d).withA o.a with sc := o.x.code, ty := o.t.code }

/-- How many groups of QC4 nibbles QUNPK can name: 16 ÷ n (05 R131). -/
def qunpkGroups : FType → Nat
  | .f64 => 16
  | .f32x2 => 8
  | .bf16x4 => 4
  | .f16x4 => 4
  | .f8e4x8 => 2
  | .f8e5x8 => 2

/-- The sub-element width of an integer TYPE (02 R40). -/
def IType.width : IType → Nat
  | .i64 => 64
  | .i32x2 => 32
  | .i16x4 => 16
  | .i8x8 => 8
  | .i4x16 => 4

def RRaw.decQunpk (f : FW) : Option (RRaw FType) :=
  keepIf (f.noB && f.modc == 0 && f.noH)
    ((Opnd.ofCodes f.sa f.moda).bind fun a => (FType.oneTo3 f.ty).bind fun t =>
      keepIf (decide (f.sc.toNat < qunpkGroups t)) (some ⟨f.d, a, f.sc, t⟩))

/-- A plane number of w or more is reserved (05 R132). -/
def RRaw.decPlane (f : FW) : Option (RRaw IType) :=
  keepIf (f.noB && f.modc == 0 && f.noH)
    ((Opnd.ofCodes f.sa f.moda).bind fun a => (IType.upTo4 f.ty).bind fun t =>
      keepIf (decide (f.sc.toNat < t.width)) (some ⟨f.d, a, f.sc, t⟩))
def RRaw.enc {τ : Type} (ty : τ → BitVec 3) (o : RRaw τ) (f : FW) : FW :=
  { (f.withD o.d).withA o.a with sc := o.k, ty := ty o.t }

def RFround.dec (f : FW) : Option RFround :=
  keepIf (f.noB && f.sc == 0 && f.noH)
    ((Opnd.ofCodes f.sa f.moda).bind fun a => (FType.upTo5 f.ty).map fun t => ⟨f.d, a, RMode.ofCode f.modc, t⟩)
def RFround.enc (o : RFround) (f : FW) : FW := { (f.withD o.d).withA o.a with modc := o.m.code, ty := o.t.code }

def RCvt.dec (f : FW) : Option RCvt :=
  keepIf (f.modb == 0 && f.noH && f.noT)
    ((Opnd.ofCodes f.sa f.moda).bind fun a => (CFmt.ofCode f.sb).bind fun x =>
      (CFmt.ofCode f.sc).map fun y => ⟨f.d, a, x, y, RMode.ofCode f.modc⟩)
def RCvt.enc (o : RCvt) (f : FW) : FW :=
  { (f.withD o.d).withA o.a with sb := o.dst.code, sc := o.src.code, modc := o.m.code }

def RD1.dec (f : FW) : Option RD1 :=
  keepIf (f.noB && f.noC && f.noH && f.noT) ((Opnd.ofCodes f.sa f.moda).map fun a => ⟨f.d, a⟩)
def RD1.enc (o : RD1) (f : FW) : FW := (f.withD o.d).withA o.a

def RD2.dec (f : FW) : Option RD2 :=
  keepIf (f.noC && f.noH && f.noT)
    ((Opnd.ofCodes f.sa f.moda).bind fun a => (Opnd.ofCodes f.sb f.modb).map fun b => ⟨f.d, a, b⟩)
def RD2.enc (o : RD2) (f : FW) : FW := ((f.withD o.d).withA o.a).withB o.b

/-- REDL (excl must be 0) and SCANL (05 R135). -/
def RLane.dec (scan : Bool) (f : FW) : Option RLane :=
  keepIf (f.noB && f.modc == 0 && f.noH && f.sc.extractLsb' 5 2 == 0 && (scan || !f.sc.getLsbD 4))
    ((Opnd.ofCodes f.sa f.moda).bind fun a =>
      (LaneOp.ofCodes (f.sc.extractLsb' 0 4) f.ty).map fun o => ⟨f.d, a, o, f.sc.getLsbD 4⟩)
def RLane.enc (o : RLane) (f : FW) : FW :=
  { (f.withD o.d).withA o.a with sc := (0 : BitVec 2) ++ bit o.excl ++ o.op.code, ty := o.op.ty }

def PCmp.dec {τ κ : Type} (ty : BitVec 3 → Option τ) (cc : BitVec 7 → Option κ) (f : FW) : Option (PCmp τ κ) :=
  keepIf (f.modc == 0 && f.noH)
    (f.p?.bind fun p => (Opnd.ofCodes f.sa f.moda).bind fun a => (Opnd.ofCodes f.sb f.modb).bind fun b =>
      (cc f.sc).bind fun k => (ty f.ty).map fun t => ⟨p, a, b, k, t⟩)
def PCmp.enc {τ κ : Type} (ty : τ → BitVec 3) (cc : κ → BitVec 7) (o : PCmp τ κ) (f : FW) : FW :=
  { ((f.withP o.p).withA o.a).withB o.b with sc := cc o.cc, ty := ty o.t }

def PLog2.dec (f : FW) : Option PLog2 :=
  keepIf (f.noC && f.noH && f.noT)
    (f.p?.bind fun p => (PredOp.ofCodes f.sa f.moda).bind fun q => (PredOp.ofCodes f.sb f.modb).map fun s => ⟨p, q, s⟩)
def PLog2.enc (o : PLog2) (f : FW) : FW := { f.withP o.p with sa := o.q.code, sb := o.s.code }

def PLog1.dec (f : FW) : Option PLog1 :=
  keepIf (f.noB && f.noC && f.noH && f.noT) (f.p?.bind fun p => (PredOp.ofCodes f.sa f.moda).map fun q => ⟨p, q⟩)
def PLog1.enc (o : PLog1) (f : FW) : FW := { f.withP o.p with sa := o.q.code }

def P1.dec (f : FW) : Option P1 :=
  keepIf (f.noB && f.noC && f.noH && f.noT) (f.p?.bind fun p => (Opnd.ofCodes f.sa f.moda).map fun a => ⟨p, a⟩)
def P1.enc (o : P1) (f : FW) : FW := (f.withP o.p).withA o.a

def P2.dec (f : FW) : Option P2 :=
  keepIf (f.noC && f.noH && f.noT)
    (f.p?.bind fun p => (Opnd.ofCodes f.sa f.moda).bind fun a => (Opnd.ofCodes f.sb f.modb).map fun b => ⟨p, a, b⟩)
def P2.enc (o : P2) (f : FW) : FW := ((f.withP o.p).withA o.a).withB o.b

def PUnify.dec (f : FW) : Option PUnify :=
  keepIf (f.noC && f.noH && f.noT && f.moda < 2)
    (f.p?.bind fun p => (Src.ofCode f.sa).bind fun a => (Opnd.ofCodes f.sb f.modb).map fun b =>
      ⟨p, a, f.moda == 1, b⟩)
def PUnify.enc (o : PUnify) (f : FW) : FW :=
  { (f.withP o.p).withB o.b with sa := o.a.code, moda := if o.f then 1 else 0 }

def MLd.dec (f : FW) : Option MLd :=
  (srcPlain f.sa f.moda).bind fun a => (Size.upTo5 f.ty).map fun z => ⟨f.d, a, f.imm, z, Hint.ofCode f.ch⟩
def MLd.enc (o : MLd) (f : FW) : FW :=
  { (f.withD o.d).withImm o.off with sa := o.a.code, ch := o.ch.code, ty := o.sz.code }

def MSt.dec (f : FW) : Option MSt :=
  keepIf (f.nwb == 0)
    ((srcPlain f.sa f.moda).bind fun a => (Size.upTo5 f.ty).map fun z => ⟨f.dst, a, f.imm, z, Hint.ofCode f.ch⟩)
def MSt.enc (o : MSt) (f : FW) : FW :=
  { f.withImm o.off with dst := o.d, sa := o.a.code, ch := o.ch.code, ty := o.sz.code }

def MZero.dec (f : FW) : Option MZero :=
  keepIf f.noD
    ((srcPlain f.sa f.moda).bind fun a => (Size.upTo5 f.ty).map fun z => ⟨a, f.imm, z, Hint.ofCode f.ch⟩)
def MZero.enc (o : MZero) (f : FW) : FW := { f.withImm o.off with sa := o.a.code, ch := o.ch.code, ty := o.sz.code }

def PrefTarget.ofCode (c : BitVec 6) : Option PrefTarget :=
  if c = 0 then some .l2 else if c = 1 then some .cc else if c = 2 then some .icache else none
def PrefTarget.code : PrefTarget → BitVec 6
  | .l2 => 0
  | .cc => 1
  | .icache => 2

def MPref.dec (f : FW) : Option MPref :=
  keepIf (f.nwb == 0 && f.noT)
    ((PrefTarget.ofCode f.dst).bind fun t => (srcPlain f.sa f.moda).map fun a => ⟨t, a, f.imm, Hint.ofCode f.ch⟩)
def MPref.enc (o : MPref) (f : FW) : FW := { f.withImm o.off with dst := o.tg.code, sa := o.a.code, ch := o.ch.code }

def MSec.dec (f : FW) : Option MSec :=
  keepIf (f.noD && f.noH && f.noT) ((srcPlain f.sa f.moda).map fun a => ⟨a, f.imm⟩)
def MSec.enc (o : MSec) (f : FW) : FW := { f.withImm o.off with sa := o.a.code }

/-- OFS is IMM18[17:5], ASCOPE IMM18[4:2], SSCOPE IMM18[1:0] (02 R53). -/
def ordImm (ofs : BitVec 13) (a : AScope) (z : SScope) : BitVec 18 := ofs ++ a.code ++ z.code

def OLd.dec (f : FW) : Option OLd :=
  keepIf f.noH
    ((srcPlain f.sa f.moda).bind fun a => (AScope.ofCode (f.imm.extractLsb' 2 3)).bind fun x =>
      (SScope.ofCode (f.imm.extractLsb' 0 2)).bind fun y => (Size.upTo3 f.ty).map fun z =>
        ⟨f.d, a, f.imm.extractLsb' 5 13, x, y, z⟩)
def OLd.enc (o : OLd) (f : FW) : FW :=
  { (f.withD o.d).withImm (ordImm o.ofs o.asc o.ssc) with sa := o.a.code, ty := o.sz.code }

def OSt.dec (f : FW) : Option OSt :=
  keepIf (f.noH && f.nwb == 0)
    ((srcPlain f.sa f.moda).bind fun a => (AScope.ofCode (f.imm.extractLsb' 2 3)).bind fun x =>
      (SScope.ofCode (f.imm.extractLsb' 0 2)).bind fun y => (Size.upTo3 f.ty).map fun z =>
        ⟨f.dst, a, f.imm.extractLsb' 5 13, x, y, z⟩)
def OSt.enc (o : OSt) (f : FW) : FW :=
  { f.withImm (ordImm o.ofs o.asc o.ssc) with dst := o.d, sa := o.a.code, ty := o.sz.code }

def OFence.dec (f : FW) : Option OFence :=
  keepIf (f.noD && f.sa == 0 && f.noH && f.noT && f.imm.extractLsb' 5 13 == 0 && f.moda != 0)
    ((AScope.ofCode (f.imm.extractLsb' 2 3)).bind fun x => (SScope.ofCode (f.imm.extractLsb' 0 2)).map fun y =>
      ⟨Order.ofCode f.moda, x, y⟩)
def OFence.enc (o : OFence) (f : FW) : FW := { f.withImm (ordImm 0 o.asc o.ssc) with moda := o.ord.code }

/-- ASCOPE of an F-A word is [12:10], bit 9 is reserved (02 R54). -/
def FW.faAsc? (f : FW) : Option AScope := keepIf (!f.ch.getLsbD 0) (AScope.ofCode (f.modc ++ f.ch.extractLsb' 1 1))
def FW.withFa (f : FW) (o : BitVec 2) (a : AScope) (z : SScope) : FW :=
  { f with moda := o, modb := z.code, modc := a.code.extractLsb' 1 2, ch := a.code.extractLsb' 0 1 ++ (0 : BitVec 1) }

def AAtom.dec (f : FW) : Option AAtom :=
  keepIf (f.sc == 0)
    ((Src.ofCode f.sa).bind fun a => (Src.ofCode f.sb).bind fun b => f.faAsc?.bind fun x =>
      (SScope.ofCode f.modb).bind fun y => (Size.atomic f.ty).map fun z => ⟨f.d, a, b, Order.ofCode f.moda, x, y, z⟩)
def AAtom.enc (o : AAtom) (f : FW) : FW :=
  { (f.withD o.d).withFa o.ord.code o.asc o.ssc with sa := o.a.code, sb := o.b.code, ty := o.sz.code }

def ACas.dec (f : FW) : Option ACas :=
  (Src.ofCode f.sa).bind fun a => (Src.ofCode f.sb).bind fun b => (Src.ofCode f.sc).bind fun c =>
    f.faAsc?.bind fun x => (SScope.ofCode f.modb).bind fun y => (Size.atomic f.ty).map fun z =>
      ⟨f.d, a, b, c, Order.ofCode f.moda, x, y, z⟩
def ACas.enc (o : ACas) (f : FW) : FW :=
  { (f.withD o.d).withFa o.ord.code o.asc o.ssc with
    sa := o.a.code, sb := o.b.code, sc := o.c.code, ty := o.sz.code }

def ARed.dec (f : FW) : Option ARed :=
  keepIf (f.noD && f.sc == 0)
    ((Src.ofCode f.sa).bind fun a => (Src.ofCode f.sb).bind fun b => f.faAsc?.bind fun x =>
      (SScope.ofCode f.modb).bind fun y => (Size.atomic f.ty).map fun z => ⟨a, b, Order.ofCode f.moda, x, y, z⟩)
def ARed.enc (o : ARed) (f : FW) : FW :=
  { f.withFa o.ord.code o.asc o.ssc with sa := o.a.code, sb := o.b.code, ty := o.sz.code }

/-- ATOMC scopes: DEV or wider, and G or SG (06 R165). -/
def atomcScopes (f : FW) : Option (AScope × SScope) :=
  f.faAsc?.bind fun x => (SScope.ofCode f.modb).bind fun y => keepIf (x.wide && y != .s) (some (x, y))

def ACasc.dec (f : FW) : Option ACasc :=
  keepIf (f.ty == 3)
    ((Src.ofCode f.sa).bind fun a => (Src.ofCode f.sb).bind fun b => (baseReg f.sc 0).bind fun c =>
      (PPair.ofCode f.moda).bind fun p => (atomcScopes f).map fun q => ⟨f.d, a, b, c, p, q.1, q.2⟩)
def ACasc.enc (o : ACasc) (f : FW) : FW :=
  { (f.withD o.d).withFa o.pp.code o.asc o.ssc with
    sa := o.a.code, sb := o.b.code, sc := o.c.setWidth 7, ty := 3 }

def ADecc.dec (f : FW) : Option ADecc :=
  keepIf (f.ty == 3)
    ((Src.ofCode f.sa).bind fun a => (Src.ofCode f.sb).bind fun b => (Src.ofCode f.sc).bind fun c =>
      (PPair.ofCode f.moda).bind fun p => (atomcScopes f).map fun q => ⟨f.d, a, b, c, p, q.1, q.2⟩)
def ADecc.enc (o : ADecc) (f : FW) : FW :=
  { (f.withD o.d).withFa o.pp.code o.asc o.ssc with sa := o.a.code, sb := o.b.code, sc := o.c.code, ty := 3 }

def AWaitc.dec (f : FW) : Option AWaitc :=
  keepIf (f.moda < 2)
    ((Src.ofCode f.sa).bind fun a => (Src.ofCode f.sb).bind fun b => (WCond.ofCode f.sc.toNat).bind fun k =>
      f.faAsc?.bind fun x => (SScope.ofCode f.modb).bind fun y => (Size.atomic f.ty).map fun z =>
        ⟨f.d, a, b, k, f.moda == 1, x, y, z⟩)
def AWaitc.enc (o : AWaitc) (f : FW) : FW :=
  { (f.withD o.d).withFa (if o.acq then 1 else 0) o.asc o.ssc with
    sa := o.a.code, sb := o.b.code, sc := o.cc.code, ty := o.sz.code }

def CBox.dec (f : FW) : Option CBox :=
  keepIf (f.nwb == 0 && f.noT)
    ((Opnd.ofCodes f.sa f.moda).bind fun a => (Opnd.ofCodes f.sb f.modb).bind fun b =>
      (baseReg f.sc f.modc).map fun c => ⟨f.dst, a, b, c, Hint.ofCode f.ch⟩)
def CBox.enc (o : CBox) (f : FW) : FW :=
  { (f.withA o.a).withB o.b with dst := o.o, sc := o.c.setWidth 7, ch := o.ch.code }

def CGlob.dec (f : FW) : Option CGlob :=
  keepIf (f.nwb == 0 && f.noT)
    ((Opnd.ofCodes f.sa f.moda).bind fun a => (Opnd.ofCodes f.sb f.modb).bind fun b =>
      (Opnd.ofCodes f.sc f.modc).map fun c => ⟨f.dst, a, b, c, Hint.ofCode f.ch⟩)
def CGlob.enc (o : CGlob) (f : FW) : FW := { ((f.withA o.a).withB o.b).withC o.n with dst := o.o, ch := o.ch.code }

def XMmaF.dec (f : FW) : Option XMmaF :=
  keepIf (f.noC && f.noH && f.noT && !f.modb.getLsbD 0)
    (f.tile?.bind fun t => (Src.ofCode f.sa).bind fun a => (Src.ofCode f.sb).map fun b =>
      ⟨t, a, b, AFmt.ofCode f.moda, f.modb.getLsbD 1⟩)
def XMmaF.enc (o : XMmaF) (f : FW) : FW :=
  { f.withTile o.tile with sa := o.a.code, sb := o.b.code, moda := o.af.code, modb := bit o.pair ++ (0 : BitVec 1) }

def XMmaI.dec (f : FW) : Option XMmaI :=
  keepIf (f.noC && f.noH && f.noT && f.moda == 0 && !f.modb.getLsbD 0)
    (f.tile?.bind fun t => (Src.ofCode f.sa).bind fun a => (Src.ofCode f.sb).map fun b => ⟨t, a, b, f.modb.getLsbD 1⟩)
def XMmaI.enc (o : XMmaI) (f : FW) : FW :=
  { f.withTile o.tile with sa := o.a.code, sb := o.b.code, modb := bit o.pair ++ (0 : BitVec 1) }

def XMmaQ.dec (f : FW) : Option XMmaQ :=
  keepIf (f.noH && f.noT)
    (f.tile?.bind fun t => (Src.ofCode f.sa).bind fun a => (Src.ofCode f.sb).bind fun b =>
      (baseReg f.sc f.modc).map fun c => ⟨t, a, b, c, AFmt.ofCode f.moda, f.modb.getLsbD 0, f.modb.getLsbD 1⟩)
def XMmaQ.enc (o : XMmaQ) (f : FW) : FW :=
  { f.withTile o.tile with
    sa := o.a.code, sb := o.b.code, sc := o.sc.setWidth 7, moda := o.af.code, modb := bit o.pair ++ bit o.bs }

def XTile.dec (f : FW) : Option XTile :=
  keepIf (f.noB && f.noC && f.noH)
    (f.tile?.bind fun t => (Opnd.ofCodes f.sa f.moda).bind fun a => (TileFmt.ofCode f.ty).map fun z => ⟨t, a, z⟩)
def XTile.enc (o : XTile) (f : FW) : FW := { (f.withTile o.tile).withA o.a with ty := o.fmt.code }

def XAcwin.dec (f : FW) : Option XAcwin :=
  keepIf (f.noD && f.noH && f.noT)
    ((Opnd.ofCodes f.sa f.moda).bind fun a => (Opnd.ofCodes f.sb f.modb).bind fun b =>
      (Opnd.ofCodes f.sc f.modc).map fun c => ⟨a, b, c⟩)
def XAcwin.enc (o : XAcwin) (f : FW) : FW := ((f.withA o.a).withB o.b).withC o.c

/-- A one-source TSWEEP requires SC = 0, which reads as v0 (07 R213). -/
def XSweep.dec (f : FW) : Option XSweep :=
  keepIf (f.nwb == 0 && f.noH && f.noT)
    ((SweepOp.ofCode f.dst).bind fun op => (Opnd.ofCodes f.sa f.moda).bind fun a => (Opnd.ofCodes f.sb f.modb).bind fun b =>
      (Opnd.ofCodes f.sc f.modc).bind fun c => keepIf (op.two || f.noC) (some ⟨op, a, b, c⟩))
def XSweep.enc (o : XSweep) (f : FW) : FW := { ((f.withA o.a).withB o.b).withC o.c with dst := o.op.code }

def XRed.dec (f : FW) : Option XRed :=
  keepIf (f.nwb == 0 && f.noH && f.noT)
    ((RedOp.ofCode f.dst).bind fun op => (Opnd.ofCodes f.sa f.moda).bind fun a => (Opnd.ofCodes f.sb f.modb).bind fun b =>
      (Opnd.ofCodes f.sc f.modc).map fun m => ⟨op, a, b, m⟩)
def XRed.enc (o : XRed) (f : FW) : FW := { ((f.withA o.a).withB o.b).withC o.m with dst := o.op.code }

def STry.dec (f : FW) : Option STry :=
  keepIf (f.noD && f.noH && f.noT) ((baseReg f.sa f.moda).map fun k => ⟨k, f.imm⟩)
def STry.enc (o : STry) (f : FW) : FW := { f.withImm o.off with sa := o.k.setWidth 7 }

/-! ### The opcode map (02 R62) -/

/-- Class MAJ 0x00 (02 R62). -/
def decSys (f : FW) : Except DecodeFault Instr :=
  match f.min.toNat with
  | 0 => orReserved (decNone f |>.map fun _ => .nop (ctl f))
  | 1 => orReserved (decCode f |>.map fun x => .trap (ctl f) x)
  | 2 => orReserved (decCode f |>.map fun x => .bkpt (ctl f) x)
  | 3 => .ok (.halt (ctl f))
  | 4 => .ok (.eret (ctl f))
  | 5 => orReserved (decRdsr f |>.map fun x => .rdsr (ctl f) x.1 x.2)
  | 6 => decWrsr f
  | 7 => orReserved (decD f |>.map fun x => .lcyc (ctl f) x)
  | 8 => orReserved (decPerf f |>.map fun x => .perf (ctl f) x.1 x.2)
  | 9 => orReserved (decNone f |>.map fun _ => .yieldW (ctl f))
  | _ => .error .illegalInstr

/-- Class MAJ 0x01 (02 R62). -/
def decFlow (f : FW) : Except DecodeFault Instr :=
  match f.min.toNat with
  | 0 => orReserved (decCode f |>.map fun x => .bra (ctl f) x)
  | 1 => orReserved (decJoin f |>.map fun x => .join (ctl f) x)
  | 2 => orReserved (decCall f |>.map fun x => .call (ctl f) x.1 x.2)
  | 3 => orReserved (decA f |>.map fun x => .ret (ctl f) x)
  | 4 => orReserved (decA f |>.map fun x => .jmpi (ctl f) x)
  | 5 => orReserved (decNone f |>.map fun _ => .exitW (ctl f))
  | 6 => orReserved (decP f |>.map fun x => .elect (ctl f) x)
  | 7 => orReserved (decA f |>.map fun x => .regroup (ctl f) x)
  | 8 => orReserved (P2.dec f |>.map fun o => .enq (ctl f) o)
  | 9 => orReserved (decWid f |>.map fun x => .widW (ctl f) x.1 x.2)
  | _ => .error .illegalInstr

/-- Class MAJ 0x02 (02 R62). -/
def decIalu (f : FW) : Except DecodeFault Instr :=
  match f.min.toNat with
  | 0 => orReserved (R2.dec IType.upTo4 f |>.map fun o => .add (ctl f) o)
  | 1 => orReserved (R2.dec IType.upTo4 f |>.map fun o => .sub (ctl f) o)
  | 2 => orReserved (R2.dec IType.upTo4 f |>.map fun o => .adds (ctl f) o)
  | 3 => orReserved (R2.dec IType.upTo4 f |>.map fun o => .subs (ctl f) o)
  | 4 => orReserved (R1.dec IType.upTo4 f |>.map fun o => .neg (ctl f) o)
  | 5 => orReserved (R1.dec IType.upTo4 f |>.map fun o => .abs (ctl f) o)
  | 6 => orReserved (R2.dec IType.upTo4 f |>.map fun o => .min (ctl f) o)
  | 7 => orReserved (R2.dec IType.upTo4 f |>.map fun o => .max (ctl f) o)
  | 8 => orReserved (R2.dec IType.upTo4 f |>.map fun o => .umin (ctl f) o)
  | 9 => orReserved (R2.dec IType.upTo4 f |>.map fun o => .umax (ctl f) o)
  | 10 => orReserved (R2.dec IType.upTo4 f |>.map fun o => .avg (ctl f) o)
  | 11 => orReserved (RLea.dec f |>.map fun o => .lea (ctl f) o)
  | 12 => orReserved (RSel.dec f |>.map fun o => .sel (ctl f) o)
  | 13 => orReserved (R1.dec IType.upTo4 f |>.map fun o => .mov (ctl f) o)
  | 14 => orReserved (RMovi.dec f |>.map fun o => .movi (ctl f) o)
  | 15 => orReserved (RMovhi.dec f |>.map fun o => .movhi (ctl f) o)
  | _ => .error .illegalInstr

/-- Class MAJ 0x03 (02 R62). -/
def decImul (f : FW) : Except DecodeFault Instr :=
  match f.min.toNat with
  | 0 => orReserved (R2.dec IType.upTo4 f |>.map fun o => .mul (ctl f) o)
  | 1 => orReserved (R2.dec IType.upTo4 f |>.map fun o => .mulh (ctl f) o)
  | 2 => orReserved (R2.dec IType.upTo4 f |>.map fun o => .umulh (ctl f) o)
  | 3 => orReserved (R3.dec IType.upTo4 f |>.map fun o => .mad (ctl f) o)
  | 4 => orReserved (R2.dec IType.upTo4 f |>.map fun o => .div (ctl f) o)
  | 5 => orReserved (R2.dec IType.upTo4 f |>.map fun o => .udiv (ctl f) o)
  | 6 => orReserved (R2.dec IType.upTo4 f |>.map fun o => .rem (ctl f) o)
  | 7 => orReserved (R2.dec IType.upTo4 f |>.map fun o => .urem (ctl f) o)
  | 8 => orReserved (R1.dec IType.upTo4 f |>.map fun o => .popc (ctl f) o)
  | 9 => orReserved (R1.dec IType.upTo4 f |>.map fun o => .clz (ctl f) o)
  | 10 => orReserved (R1.dec IType.upTo4 f |>.map fun o => .ctz (ctl f) o)
  | 11 => orReserved (R1.dec IType.upTo4 f |>.map fun o => .brev (ctl f) o)
  | _ => .error .illegalInstr

/-- Class MAJ 0x04 (02 R62). -/
def decLogic (f : FW) : Except DecodeFault Instr :=
  match f.min.toNat with
  | 0 => orReserved (R2.dec IType.upTo4 f |>.map fun o => .and (ctl f) o)
  | 1 => orReserved (R2.dec IType.upTo4 f |>.map fun o => .or (ctl f) o)
  | 2 => orReserved (R2.dec IType.upTo4 f |>.map fun o => .xor (ctl f) o)
  | 3 => orReserved (R2.dec IType.upTo4 f |>.map fun o => .andn (ctl f) o)
  | 4 => orReserved (R2.dec IType.upTo4 f |>.map fun o => .orn (ctl f) o)
  | 5 => orReserved (R1.dec IType.upTo4 f |>.map fun o => .not (ctl f) o)
  | 6 => orReserved (R2.dec IType.upTo4 f |>.map fun o => .shl (ctl f) o)
  | 7 => orReserved (R2.dec IType.upTo4 f |>.map fun o => .shr (ctl f) o)
  | 8 => orReserved (R2.dec IType.upTo4 f |>.map fun o => .sar (ctl f) o)
  | 9 => orReserved (R2.dec IType.upTo4 f |>.map fun o => .rot (ctl f) o)
  | 10 => orReserved (R3.dec IType.upTo1 f |>.map fun o => .bfx (ctl f) o)
  | 11 => orReserved (R3.dec IType.upTo1 f |>.map fun o => .ubfx (ctl f) o)
  | 12 => orReserved (R3.dec IType.upTo1 f |>.map fun o => .bfi (ctl f) o)
  | 13 => orReserved (R2.dec IType.upTo3 f |>.map fun o => .pack (ctl f) o)
  | 14 => orReserved (RUnpk.dec f |>.map fun o => .unpk (ctl f) o)
  | _ => .error .illegalInstr

/-- Class MAJ 0x05 (02 R62). -/
def decPred (f : FW) : Except DecodeFault Instr :=
  match f.min.toNat with
  | 0 => orReserved (PCmp.dec IType.upTo4 Cond.ofCode f |>.map fun o => .cmp (ctl f) o)
  | 1 => orReserved (PCmp.dec IType.upTo4 Cond.ofCode f |>.map fun o => .ucmp (ctl f) o)
  | 2 => orReserved (PCmp.dec FType.upTo5 FCond.ofCode f |>.map fun o => .fcmp (ctl f) o)
  | 3 => orReserved (PLog2.dec f |>.map fun o => .pand (ctl f) o)
  | 4 => orReserved (PLog2.dec f |>.map fun o => .por (ctl f) o)
  | 5 => orReserved (PLog2.dec f |>.map fun o => .pxor (ctl f) o)
  | 6 => orReserved (PLog1.dec f |>.map fun o => .pnot (ctl f) o)
  | 7 => orReserved (PLog1.dec f |>.map fun o => .pmov (ctl f) o)
  | 8 => orReserved (P1.dec f |>.map fun o => .pset (ctl f) o)
  | 9 => orReserved (decD f |>.map fun x => .pget (ctl f) x)
  | _ => .error .illegalInstr

/-- Class MAJ 0x06 (02 R62). -/
def decFalu (f : FW) : Except DecodeFault Instr :=
  match f.min.toNat with
  | 0 => orReserved (R2.dec FType.upTo5 f |>.map fun o => .fadd (ctl f) o)
  | 1 => orReserved (R2.dec FType.upTo5 f |>.map fun o => .fsub (ctl f) o)
  | 2 => orReserved (R2.dec FType.upTo5 f |>.map fun o => .fmul (ctl f) o)
  | 3 => orReserved (R3.dec FType.upTo5 f |>.map fun o => .fma (ctl f) o)
  | 4 => orReserved (R2.dec FType.upTo5 f |>.map fun o => .fmin (ctl f) o)
  | 5 => orReserved (R2.dec FType.upTo5 f |>.map fun o => .fmax (ctl f) o)
  | 6 => orReserved (R1.dec FType.upTo5 f |>.map fun o => .fneg (ctl f) o)
  | 7 => orReserved (R1.dec FType.upTo5 f |>.map fun o => .fabs (ctl f) o)
  | 8 => orReserved (R1.dec FType.upTo5 f |>.map fun o => .fclass (ctl f) o)
  | 9 => orReserved (RFround.dec f |>.map fun o => .fround (ctl f) o)
  | 10 => orReserved (R2.dec FType.upTo5 f |>.map fun o => .fscale (ctl f) o)
  | _ => .error .illegalInstr

/-- Class MAJ 0x07 (02 R62). -/
def decFsfu (f : FW) : Except DecodeFault Instr :=
  match f.min.toNat with
  | 0 => orReserved (R1.dec FType.oneTo3 f |>.map fun o => .frcp (ctl f) o)
  | 1 => orReserved (R1.dec FType.oneTo3 f |>.map fun o => .frsq (ctl f) o)
  | 2 => orReserved (R1.dec FType.upTo3 f |>.map fun o => .fsqrt (ctl f) o)
  | 3 => orReserved (R2.dec FType.upTo3 f |>.map fun o => .fdiv (ctl f) o)
  | 4 => orReserved (R1.dec FType.oneTo3 f |>.map fun o => .fexp2 (ctl f) o)
  | 5 => orReserved (R1.dec FType.oneTo3 f |>.map fun o => .flog2 (ctl f) o)
  | 6 => orReserved (R1.dec FType.oneTo3 f |>.map fun o => .fsin (ctl f) o)
  | 7 => orReserved (R1.dec FType.oneTo3 f |>.map fun o => .fcos (ctl f) o)
  | 8 => orReserved (R1.dec FType.oneTo3 f |>.map fun o => .ftanh (ctl f) o)
  | _ => .error .illegalInstr

/-- Class MAJ 0x08 (02 R62). -/
def decConv (f : FW) : Except DecodeFault Instr :=
  match f.min.toNat with
  | 0 => orReserved (RCvt.dec f |>.map fun o => .cvt (ctl f) o)
  | 1 => orReserved (R2.dec FType.oneTo3 f |>.map fun o => .qpack (ctl f) o)
  | 2 => orReserved (RRaw.decQunpk f |>.map fun o => .qunpk (ctl f) o)
  | 3 => orReserved (RRaw.decPlane f |>.map fun o => .plane (ctl f) o)
  | 4 => orReserved (RRaw.decPlane f |>.map fun o => .unplane (ctl f) o)
  | _ => .error .illegalInstr

/-- Class MAJ 0x09 (02 R62). -/
def decXlane (f : FW) : Except DecodeFault Instr :=
  match f.min.toNat with
  | 0 => orReserved (R2.dec IType.upTo4 f |>.map fun o => .shfl (ctl f) o)
  | 1 => orReserved (R2.dec IType.upTo4 f |>.map fun o => .shflx (ctl f) o)
  | 2 => orReserved (R2.dec IType.upTo4 f |>.map fun o => .bcast (ctl f) o)
  | 3 => orReserved (RD1.dec f |>.map fun o => .vote (ctl f) o)
  | 4 => orReserved (RLane.dec false f |>.map fun o => .redl (ctl f) o)
  | 5 => orReserved (RLane.dec true f |>.map fun o => .scanl (ctl f) o)
  | 6 => orReserved (RD1.dec f |>.map fun o => .matchL (ctl f) o)
  | 7 => orReserved (R2.dec IType.upTo4 f |>.map fun o => .cxch (ctl f) o)
  | _ => .error .illegalInstr

/-- Class MAJ 0x0A (02 R62). -/
def decLoad (f : FW) : Except DecodeFault Instr :=
  match f.min.toNat with
  | 0 => orReserved (MLd.dec f |>.map fun o => .ld (ctl f) o)
  | 1 => orReserved (MLd.dec f |>.map fun o => .ldc (ctl f) o)
  | 2 => orReserved (MLd.dec f |>.map fun o => .ldb (ctl f) o)
  | 3 => orReserved (OLd.dec f |>.map fun o => .lda (ctl f) o)
  | 4 => orReserved (MPref.dec f |>.map fun o => .pref (ctl f) o)
  | _ => .error .illegalInstr

/-- Class MAJ 0x0B (02 R62). -/
def decStore (f : FW) : Except DecodeFault Instr :=
  match f.min.toNat with
  | 0 => orReserved (MSt.dec f |>.map fun o => .st (ctl f) o)
  | 1 => orReserved (OSt.dec f |>.map fun o => .stl (ctl f) o)
  | 2 => orReserved (MSt.dec f |>.map fun o => .stnt (ctl f) o)
  | 3 => orReserved (MZero.dec f |>.map fun o => .zeroSt (ctl f) o)
  | _ => .error .illegalInstr

/-- Class MAJ 0x0C (02 R62). -/
def decAtom (f : FW) : Except DecodeFault Instr :=
  match f.min.toNat with
  | 0 => orReserved (AAtom.dec f |>.map fun o => .atomAdd (ctl f) o)
  | 1 => orReserved (AAtom.dec f |>.map fun o => .atomFadd (ctl f) o)
  | 2 => orReserved (AAtom.dec f |>.map fun o => .atomAnd (ctl f) o)
  | 3 => orReserved (AAtom.dec f |>.map fun o => .atomOr (ctl f) o)
  | 4 => orReserved (AAtom.dec f |>.map fun o => .atomXor (ctl f) o)
  | 5 => orReserved (AAtom.dec f |>.map fun o => .atomMin (ctl f) o)
  | 6 => orReserved (AAtom.dec f |>.map fun o => .atomMax (ctl f) o)
  | 7 => orReserved (AAtom.dec f |>.map fun o => .atomUmin (ctl f) o)
  | 8 => orReserved (AAtom.dec f |>.map fun o => .atomUmax (ctl f) o)
  | 9 => orReserved (AAtom.dec f |>.map fun o => .atomExch (ctl f) o)
  | 10 => orReserved (ACas.dec f |>.map fun o => .atomCas (ctl f) o)
  | 11 => orReserved (AAtom.dec f |>.map fun o => .atomIncw (ctl f) o)
  | _ => .error .illegalInstr

/-- Class MAJ 0x0D (02 R62). -/
def decRed (f : FW) : Except DecodeFault Instr :=
  match f.min.toNat with
  | 0 => orReserved (ARed.dec f |>.map fun o => .redAdd (ctl f) o)
  | 1 => orReserved (ARed.dec f |>.map fun o => .redFadd (ctl f) o)
  | 2 => orReserved (ARed.dec f |>.map fun o => .redAnd (ctl f) o)
  | 3 => orReserved (ARed.dec f |>.map fun o => .redOr (ctl f) o)
  | 4 => orReserved (ARed.dec f |>.map fun o => .redXor (ctl f) o)
  | 5 => orReserved (ARed.dec f |>.map fun o => .redMin (ctl f) o)
  | 6 => orReserved (ARed.dec f |>.map fun o => .redMax (ctl f) o)
  | 7 => orReserved (ARed.dec f |>.map fun o => .redUmin (ctl f) o)
  | 8 => orReserved (ARed.dec f |>.map fun o => .redUmax (ctl f) o)
  | _ => .error .illegalInstr

/-- Class MAJ 0x0E (02 R62). -/
def decAtomc (f : FW) : Except DecodeFault Instr :=
  match f.min.toNat with
  | 0 => orReserved (ACasc.dec f |>.map fun o => .casc (ctl f) o)
  | 1 => orReserved (ADecc.dec f |>.map fun o => .decc (ctl f) o)
  | _ => .error .illegalInstr

/-- Class MAJ 0x0F (02 R62). -/
def decSync (f : FW) : Except DecodeFault Instr :=
  match f.min.toNat with
  | 0 => orReserved (OFence.dec f |>.map fun o => .fence (ctl f) o)
  | 1 => orReserved (decBar f |>.map fun x => .bar (ctl f) x)
  | 2 => orReserved (AWaitc.dec f |>.map fun o => .waitc (ctl f) o)
  | 3 => orReserved (decAB f |>.map fun x => .coinit (ctl f) x.1 x.2)
  | 4 => orReserved (RD1.dec f |>.map fun o => .arrive (ctl f) o)
  | 5 => orReserved (decAB f |>.map fun x => .expect (ctl f) x.1 x.2)
  | 6 => orReserved (P2.dec f |>.map fun o => .waitph (ctl f) o)
  | 7 => orReserved (MSec.dec f |>.map fun o => .inv (ctl f) o)
  | 8 => orReserved (MSec.dec f |>.map fun o => .wb (ctl f) o)
  | _ => .error .illegalInstr

/-- Class MAJ 0x10 (02 R62). -/
def decCopy (f : FW) : Except DecodeFault Instr :=
  match f.min.toNat with
  | 0 => orReserved (CBox.dec f |>.map fun o => .copy (ctl f) o)
  | 1 => orReserved (CBox.dec f |>.map fun o => .copym (ctl f) o)
  | 2 => orReserved (CBox.dec f |>.map fun o => .copys (ctl f) o)
  | 3 => orReserved (CGlob.dec f |>.map fun o => .copyg (ctl f) o)
  | _ => .error .illegalInstr

/-- Class MAJ 0x11 (02 R62). -/
def decMma (f : FW) : Except DecodeFault Instr :=
  match f.min.toNat with
  | 0 => orReserved (XMmaF.dec f |>.map fun o => .mmaF8e4 (ctl f) o)
  | 1 => orReserved (XMmaF.dec f |>.map fun o => .mmaF8e5 (ctl f) o)
  | 2 => orReserved (XMmaF.dec f |>.map fun o => .mmaBf16 (ctl f) o)
  | 3 => orReserved (XMmaF.dec f |>.map fun o => .mmaF16 (ctl f) o)
  | 4 => orReserved (XMmaI.dec f |>.map fun o => .mmaI8 (ctl f) o)
  | 5 => orReserved (XMmaI.dec f |>.map fun o => .mmaI4 (ctl f) o)
  | 6 => orReserved (XMmaI.dec f |>.map fun o => .mmaI2 (ctl f) o)
  | 7 => orReserved (XMmaI.dec f |>.map fun o => .mmaB1 (ctl f) o)
  | 8 => orReserved (XMmaQ.dec f |>.map fun o => .mmaQc4 (ctl f) o)
  | _ => .error .illegalInstr

/-- Class MAJ 0x12 (02 R62). -/
def decMacc (f : FW) : Except DecodeFault Instr :=
  match f.min.toNat with
  | 0 => orReserved (decTile f |>.map fun x => .mzero (ctl f) x)
  | 1 => orReserved (XTile.dec f |>.map fun o => .mload (ctl f) o)
  | 2 => orReserved (XTile.dec f |>.map fun o => .mstore (ctl f) o)
  | 3 => orReserved (decMfence f |>.map fun x => .mfence (ctl f) x)
  | 4 => orReserved (decA f |>.map fun x => .mwait (ctl f) x)
  | 5 => orReserved (XAcwin.dec f |>.map fun o => .acwin (ctl f) o)
  | _ => .error .illegalInstr

/-- Class MAJ 0x13 (02 R62). -/
def decTsw (f : FW) : Except DecodeFault Instr :=
  match f.min.toNat with
  | 0 => orReserved (XSweep.dec f |>.map fun o => .tsweep (ctl f) o)
  | 1 => orReserved (XRed.dec f |>.map fun o => .tsred (ctl f) o)
  | _ => .error .illegalInstr

/-- Class MAJ 0x14 (02 R62). -/
def decTerm (f : FW) : Except DecodeFault Instr :=
  match f.min.toNat with
  | 0 => orReserved (RD1.dec f |>.map fun o => .tag (ctl f) o)
  | 1 => orReserved (RD2.dec f |>.map fun o => .mkt (ctl f) o)
  | 2 => orReserved (RD1.dec f |>.map fun o => .deref (ctl f) o)
  | 3 => orReserved (PUnify.dec f |>.map fun o => .unify (ctl f) o)
  | 4 => orReserved (decAB f |>.map fun x => .bindT (ctl f) x.1 x.2)
  | 5 => orReserved (RD1.dec f |>.map fun o => .halloc (ctl f) o)
  | 6 => orReserved (RD2.dec f |>.map fun o => .getarg (ctl f) o)
  | 7 => orReserved (P2.dec f |>.map fun o => .commit (ctl f) o)
  | _ => .error .illegalInstr

/-- Class MAJ 0x15 (02 R62). -/
def decSearch (f : FW) : Except DecodeFault Instr :=
  match f.min.toNat with
  | 0 => orReserved (STry.dec f |>.map fun o => .tryM (ctl f) o)
  | 1 => orReserved (decNone f |>.map fun _ => .trust (ctl f))
  | 2 => orReserved (decNone f |>.map fun _ => .failW (ctl f))
  | 3 => orReserved (decA f |>.map fun x => .cut (ctl f) x)
  | 4 => orReserved (decA f |>.map fun x => .offer (ctl f) x)
  | 5 => orReserved (decP f |>.map fun x => .adopt (ctl f) x)
  | 6 => orReserved (decA f |>.map fun x => .ovlcfg (ctl f) x)
  | _ => .error .illegalInstr

/-- A full word: class by MAJ; an unassigned MAJ or MIN is ILLEGAL_INSTR (02 R63). -/
def decodeFull (f : FW) : Except DecodeFault Instr :=
  match f.maj.toNat with
  | 0 => decSys f
  | 1 => decFlow f
  | 2 => decIalu f
  | 3 => decImul f
  | 4 => decLogic f
  | 5 => decPred f
  | 6 => decFalu f
  | 7 => decFsfu f
  | 8 => decConv f
  | 9 => decXlane f
  | 10 => decLoad f
  | 11 => decStore f
  | 12 => decAtom f
  | 13 => decRed f
  | 14 => decAtomc f
  | 15 => decSync f
  | 16 => decCopy f
  | 17 => decMma f
  | 18 => decMacc f
  | 19 => decTsw f
  | 20 => decTerm f
  | 21 => decSearch f
  | _ => .error .illegalInstr

/-- The constructor of a dual word with slot X as data. -/
def dualInstr (stall : BitVec 3) (x y : Slot) : Instr :=
  match x with
  | .nop => .slotNop stall y
  | .int .mov f => .slotMov stall f y
  | .int .add f => .slotAdd stall f y
  | .int .sub f => .slotSub stall f y
  | .int .and f => .slotAnd stall f y
  | .int .or f => .slotOr stall f y
  | .int .xor f => .slotXor stall f y
  | .int .shl f => .slotShl stall f y
  | .int .shr f => .slotShr stall f y
  | .int .sar f => .slotSar stall f y
  | .int .min f => .slotMin stall f y
  | .int .max f => .slotMax stall f y
  | .int .neg f => .slotNeg stall f y
  | .int .not f => .slotNot stall f y
  | .flt .fadd f => .slotFadd stall f y
  | .flt .fmul f => .slotFmul stall f y
  | .flt .fmin f => .slotFmin stall f y
  | .flt .fmax f => .slotFmax stall f y
  | .flt .fneg f => .slotFneg stall f y

/-- The fields of a slot (02 R45). -/
def SlotF.dec {τ : Type} (ty : BitVec 3 → Option τ) (s : BitVec 30) : Option (SlotF τ) :=
  (Src.ofCode (s.extractLsb' 9 7)).bind fun x => (ty (s.extractLsb' 2 3)).map fun t =>
    ⟨⟨s.extractLsb' 17 6, flag (s.extractLsb' 16 1)⟩, x, Md.ofCode (s.extractLsb' 0 2), s.extractLsb' 6 3,
      flag (s.extractLsb' 5 1), t⟩

/-- Lay the fields of a slot out (02 R45). -/
def SlotF.enc {τ : Type} (ty : τ → BitVec 3) (op : BitVec 7) (f : SlotF τ) : BitVec 30 :=
  op ++ f.d.r ++ bit f.d.nwb ++ f.src.code ++ f.g ++ bit f.n ++ ty f.t ++ f.md.code

/-- Whether a slot opcode is assigned (02 R47). -/
def slotAssigned (s : BitVec 30) : Bool := decide ((s.extractLsb' 23 7) < 0x13)

/-- A slot whose opcode is assigned; a NOP slot has every other field zero (02 R46). -/
def Slot.dec (s : BitVec 30) : Option Slot :=
  let op := s.extractLsb' 23 7
  if op = 0 then keepIf (s == 0) (some .nop)
  else
    match SIOp.ofCode op with
    | some o => (SlotF.dec IType.upTo4 s).map (.int o)
    | none =>
      match SFOp.ofCode op with
      | some o => (SlotF.dec FType.upTo5 s).map (.flt o)
      | none => none

/-- The 30 bits of a slot. -/
def Slot.enc : Slot → BitVec 30
  | .nop => 0
  | .int o f => SlotF.enc IType.code o.code f
  | .flt o f => SlotF.enc FType.code o.code f

/-- A dual word: opcodes of X and then Y first, then the fields (02 R64). -/
def decodeDual (w : W64) : Except DecodeFault Instr :=
  let x := w.extractLsb' 33 30
  let y := w.extractLsb' 3 30
  if slotAssigned x && slotAssigned y then
    orReserved ((Slot.dec x).bind fun sx => (Slot.dec y).map fun sy => dualInstr (w.extractLsb' 0 3) sx sy)
  else .error .illegalInstr

/-- The decoder, total on every word: bit 63 chooses the form (02 R32). -/
def decode (w : W64) : Except DecodeFault Instr :=
  if w.getLsbD 63 then decodeDual w else decodeFull (FW.ofWord w)

/-! ### The encoder -/

/-- A dual word from its parts (02 R45). -/
def dualWordOf (stall : BitVec 3) (x y : Slot) : W64 := (1 : BitVec 1) ++ x.enc ++ y.enc ++ stall

/-- STALL of a dual word. -/
def Instr.dualStall : Instr → BitVec 3
  | .slotNop k _ => k
  | .slotMov k _ _ => k
  | .slotAdd k _ _ => k
  | .slotSub k _ _ => k
  | .slotAnd k _ _ => k
  | .slotOr k _ _ => k
  | .slotXor k _ _ => k
  | .slotShl k _ _ => k
  | .slotShr k _ _ => k
  | .slotSar k _ _ => k
  | .slotMin k _ _ => k
  | .slotMax k _ _ => k
  | .slotNeg k _ _ => k
  | .slotNot k _ _ => k
  | .slotFadd k _ _ => k
  | .slotFmul k _ _ => k
  | .slotFmin k _ _ => k
  | .slotFmax k _ _ => k
  | .slotFneg k _ _ => k
  | _ => 0

/-- The fields of a full word that encodes an instruction (02 R34, R61); none for a dual word or an event. -/
def Instr.fw? : Instr → Option FW
  | .nop c_ => some ((c_.fw 0 0))
  | .trap c_ code => some (encCode code (c_.fw 0 1))
  | .bkpt c_ code => some (encCode code (c_.fw 0 2))
  | .halt c_ => some ((c_.fw 0 3))
  | .eret c_ => some ((c_.fw 0 4))
  | .rdsr c_ d n => some (encRdsr d n (c_.fw 0 5))
  | .wrsrDsp c_ a => some (encWrsr 0x1b a (c_.fw 0 6))
  | .wrsrFlg c_ a => some (encWrsr 0x1c a (c_.fw 0 6))
  | .wrsrFex c_ a => some (encWrsr 0x1d a (c_.fw 0 6))
  | .lcyc c_ d => some (encD d (c_.fw 0 7))
  | .perf c_ d n => some (encPerf d n (c_.fw 0 8))
  | .yieldW c_ => some ((c_.fw 0 9))
  | .bra c_ off => some (encCode off (c_.fw 1 0))
  | .join c_ off => some (encCode off (c_.fw 1 1))
  | .call c_ d off => some (encCall d off (c_.fw 1 2))
  | .ret c_ a => some (encA a (c_.fw 1 3))
  | .jmpi c_ a => some (encA a (c_.fw 1 4))
  | .exitW c_ => some ((c_.fw 1 5))
  | .elect c_ p => some (encP p (c_.fw 1 6))
  | .regroup c_ a => some (encA a (c_.fw 1 7))
  | .enq c_ o => some (P2.enc o (c_.fw 1 8))
  | .widW c_ d f => some (encWid d f (c_.fw 1 9))
  | .add c_ o => some (R2.enc IType.code o (c_.fw 2 0))
  | .sub c_ o => some (R2.enc IType.code o (c_.fw 2 1))
  | .adds c_ o => some (R2.enc IType.code o (c_.fw 2 2))
  | .subs c_ o => some (R2.enc IType.code o (c_.fw 2 3))
  | .neg c_ o => some (R1.enc IType.code o (c_.fw 2 4))
  | .abs c_ o => some (R1.enc IType.code o (c_.fw 2 5))
  | .min c_ o => some (R2.enc IType.code o (c_.fw 2 6))
  | .max c_ o => some (R2.enc IType.code o (c_.fw 2 7))
  | .umin c_ o => some (R2.enc IType.code o (c_.fw 2 8))
  | .umax c_ o => some (R2.enc IType.code o (c_.fw 2 9))
  | .avg c_ o => some (R2.enc IType.code o (c_.fw 2 10))
  | .lea c_ o => some (RLea.enc o (c_.fw 2 11))
  | .sel c_ o => some (RSel.enc o (c_.fw 2 12))
  | .mov c_ o => some (R1.enc IType.code o (c_.fw 2 13))
  | .movi c_ o => some (RMovi.enc o (c_.fw 2 14))
  | .movhi c_ o => some (RMovhi.enc o (c_.fw 2 15))
  | .mul c_ o => some (R2.enc IType.code o (c_.fw 3 0))
  | .mulh c_ o => some (R2.enc IType.code o (c_.fw 3 1))
  | .umulh c_ o => some (R2.enc IType.code o (c_.fw 3 2))
  | .mad c_ o => some (R3.enc IType.code o (c_.fw 3 3))
  | .div c_ o => some (R2.enc IType.code o (c_.fw 3 4))
  | .udiv c_ o => some (R2.enc IType.code o (c_.fw 3 5))
  | .rem c_ o => some (R2.enc IType.code o (c_.fw 3 6))
  | .urem c_ o => some (R2.enc IType.code o (c_.fw 3 7))
  | .popc c_ o => some (R1.enc IType.code o (c_.fw 3 8))
  | .clz c_ o => some (R1.enc IType.code o (c_.fw 3 9))
  | .ctz c_ o => some (R1.enc IType.code o (c_.fw 3 10))
  | .brev c_ o => some (R1.enc IType.code o (c_.fw 3 11))
  | .and c_ o => some (R2.enc IType.code o (c_.fw 4 0))
  | .or c_ o => some (R2.enc IType.code o (c_.fw 4 1))
  | .xor c_ o => some (R2.enc IType.code o (c_.fw 4 2))
  | .andn c_ o => some (R2.enc IType.code o (c_.fw 4 3))
  | .orn c_ o => some (R2.enc IType.code o (c_.fw 4 4))
  | .not c_ o => some (R1.enc IType.code o (c_.fw 4 5))
  | .shl c_ o => some (R2.enc IType.code o (c_.fw 4 6))
  | .shr c_ o => some (R2.enc IType.code o (c_.fw 4 7))
  | .sar c_ o => some (R2.enc IType.code o (c_.fw 4 8))
  | .rot c_ o => some (R2.enc IType.code o (c_.fw 4 9))
  | .bfx c_ o => some (R3.enc IType.code o (c_.fw 4 10))
  | .ubfx c_ o => some (R3.enc IType.code o (c_.fw 4 11))
  | .bfi c_ o => some (R3.enc IType.code o (c_.fw 4 12))
  | .pack c_ o => some (R2.enc IType.code o (c_.fw 4 13))
  | .unpk c_ o => some (RUnpk.enc o (c_.fw 4 14))
  | .cmp c_ o => some (PCmp.enc IType.code Cond.code o (c_.fw 5 0))
  | .ucmp c_ o => some (PCmp.enc IType.code Cond.code o (c_.fw 5 1))
  | .fcmp c_ o => some (PCmp.enc FType.code FCond.code o (c_.fw 5 2))
  | .pand c_ o => some (PLog2.enc o (c_.fw 5 3))
  | .por c_ o => some (PLog2.enc o (c_.fw 5 4))
  | .pxor c_ o => some (PLog2.enc o (c_.fw 5 5))
  | .pnot c_ o => some (PLog1.enc o (c_.fw 5 6))
  | .pmov c_ o => some (PLog1.enc o (c_.fw 5 7))
  | .pset c_ o => some (P1.enc o (c_.fw 5 8))
  | .pget c_ d => some (encD d (c_.fw 5 9))
  | .fadd c_ o => some (R2.enc FType.code o (c_.fw 6 0))
  | .fsub c_ o => some (R2.enc FType.code o (c_.fw 6 1))
  | .fmul c_ o => some (R2.enc FType.code o (c_.fw 6 2))
  | .fma c_ o => some (R3.enc FType.code o (c_.fw 6 3))
  | .fmin c_ o => some (R2.enc FType.code o (c_.fw 6 4))
  | .fmax c_ o => some (R2.enc FType.code o (c_.fw 6 5))
  | .fneg c_ o => some (R1.enc FType.code o (c_.fw 6 6))
  | .fabs c_ o => some (R1.enc FType.code o (c_.fw 6 7))
  | .fclass c_ o => some (R1.enc FType.code o (c_.fw 6 8))
  | .fround c_ o => some (RFround.enc o (c_.fw 6 9))
  | .fscale c_ o => some (R2.enc FType.code o (c_.fw 6 10))
  | .frcp c_ o => some (R1.enc FType.code o (c_.fw 7 0))
  | .frsq c_ o => some (R1.enc FType.code o (c_.fw 7 1))
  | .fsqrt c_ o => some (R1.enc FType.code o (c_.fw 7 2))
  | .fdiv c_ o => some (R2.enc FType.code o (c_.fw 7 3))
  | .fexp2 c_ o => some (R1.enc FType.code o (c_.fw 7 4))
  | .flog2 c_ o => some (R1.enc FType.code o (c_.fw 7 5))
  | .fsin c_ o => some (R1.enc FType.code o (c_.fw 7 6))
  | .fcos c_ o => some (R1.enc FType.code o (c_.fw 7 7))
  | .ftanh c_ o => some (R1.enc FType.code o (c_.fw 7 8))
  | .cvt c_ o => some (RCvt.enc o (c_.fw 8 0))
  | .qpack c_ o => some (R2.enc FType.code o (c_.fw 8 1))
  | .qunpk c_ o => some (RRaw.enc FType.code o (c_.fw 8 2))
  | .plane c_ o => some (RRaw.enc IType.code o (c_.fw 8 3))
  | .unplane c_ o => some (RRaw.enc IType.code o (c_.fw 8 4))
  | .shfl c_ o => some (R2.enc IType.code o (c_.fw 9 0))
  | .shflx c_ o => some (R2.enc IType.code o (c_.fw 9 1))
  | .bcast c_ o => some (R2.enc IType.code o (c_.fw 9 2))
  | .vote c_ o => some (RD1.enc o (c_.fw 9 3))
  | .redl c_ o => some (RLane.enc o (c_.fw 9 4))
  | .scanl c_ o => some (RLane.enc o (c_.fw 9 5))
  | .matchL c_ o => some (RD1.enc o (c_.fw 9 6))
  | .cxch c_ o => some (R2.enc IType.code o (c_.fw 9 7))
  | .ld c_ o => some (MLd.enc o (c_.fw 10 0))
  | .ldc c_ o => some (MLd.enc o (c_.fw 10 1))
  | .ldb c_ o => some (MLd.enc o (c_.fw 10 2))
  | .lda c_ o => some (OLd.enc o (c_.fw 10 3))
  | .pref c_ o => some (MPref.enc o (c_.fw 10 4))
  | .st c_ o => some (MSt.enc o (c_.fw 11 0))
  | .stl c_ o => some (OSt.enc o (c_.fw 11 1))
  | .stnt c_ o => some (MSt.enc o (c_.fw 11 2))
  | .zeroSt c_ o => some (MZero.enc o (c_.fw 11 3))
  | .atomAdd c_ o => some (AAtom.enc o (c_.fw 12 0))
  | .atomFadd c_ o => some (AAtom.enc o (c_.fw 12 1))
  | .atomAnd c_ o => some (AAtom.enc o (c_.fw 12 2))
  | .atomOr c_ o => some (AAtom.enc o (c_.fw 12 3))
  | .atomXor c_ o => some (AAtom.enc o (c_.fw 12 4))
  | .atomMin c_ o => some (AAtom.enc o (c_.fw 12 5))
  | .atomMax c_ o => some (AAtom.enc o (c_.fw 12 6))
  | .atomUmin c_ o => some (AAtom.enc o (c_.fw 12 7))
  | .atomUmax c_ o => some (AAtom.enc o (c_.fw 12 8))
  | .atomExch c_ o => some (AAtom.enc o (c_.fw 12 9))
  | .atomCas c_ o => some (ACas.enc o (c_.fw 12 10))
  | .atomIncw c_ o => some (AAtom.enc o (c_.fw 12 11))
  | .redAdd c_ o => some (ARed.enc o (c_.fw 13 0))
  | .redFadd c_ o => some (ARed.enc o (c_.fw 13 1))
  | .redAnd c_ o => some (ARed.enc o (c_.fw 13 2))
  | .redOr c_ o => some (ARed.enc o (c_.fw 13 3))
  | .redXor c_ o => some (ARed.enc o (c_.fw 13 4))
  | .redMin c_ o => some (ARed.enc o (c_.fw 13 5))
  | .redMax c_ o => some (ARed.enc o (c_.fw 13 6))
  | .redUmin c_ o => some (ARed.enc o (c_.fw 13 7))
  | .redUmax c_ o => some (ARed.enc o (c_.fw 13 8))
  | .casc c_ o => some (ACasc.enc o (c_.fw 14 0))
  | .decc c_ o => some (ADecc.enc o (c_.fw 14 1))
  | .fence c_ o => some (OFence.enc o (c_.fw 15 0))
  | .bar c_ slot => some (encCode (slot.setWidth 18) (c_.fw 15 1))
  | .waitc c_ o => some (AWaitc.enc o (c_.fw 15 2))
  | .coinit c_ a b => some (encAB a b (c_.fw 15 3))
  | .arrive c_ o => some (RD1.enc o (c_.fw 15 4))
  | .expect c_ a b => some (encAB a b (c_.fw 15 5))
  | .waitph c_ o => some (P2.enc o (c_.fw 15 6))
  | .inv c_ o => some (MSec.enc o (c_.fw 15 7))
  | .wb c_ o => some (MSec.enc o (c_.fw 15 8))
  | .copy c_ o => some (CBox.enc o (c_.fw 16 0))
  | .copym c_ o => some (CBox.enc o (c_.fw 16 1))
  | .copys c_ o => some (CBox.enc o (c_.fw 16 2))
  | .copyg c_ o => some (CGlob.enc o (c_.fw 16 3))
  | .mmaF8e4 c_ o => some (XMmaF.enc o (c_.fw 17 0))
  | .mmaF8e5 c_ o => some (XMmaF.enc o (c_.fw 17 1))
  | .mmaBf16 c_ o => some (XMmaF.enc o (c_.fw 17 2))
  | .mmaF16 c_ o => some (XMmaF.enc o (c_.fw 17 3))
  | .mmaI8 c_ o => some (XMmaI.enc o (c_.fw 17 4))
  | .mmaI4 c_ o => some (XMmaI.enc o (c_.fw 17 5))
  | .mmaI2 c_ o => some (XMmaI.enc o (c_.fw 17 6))
  | .mmaB1 c_ o => some (XMmaI.enc o (c_.fw 17 7))
  | .mmaQc4 c_ o => some (XMmaQ.enc o (c_.fw 17 8))
  | .mzero c_ tile => some (encTile tile (c_.fw 18 0))
  | .mload c_ o => some (XTile.enc o (c_.fw 18 1))
  | .mstore c_ o => some (XTile.enc o (c_.fw 18 2))
  | .mfence c_ d => some (encMfence d (c_.fw 18 3))
  | .mwait c_ a => some (encA a (c_.fw 18 4))
  | .acwin c_ o => some (XAcwin.enc o (c_.fw 18 5))
  | .tsweep c_ o => some (XSweep.enc o (c_.fw 19 0))
  | .tsred c_ o => some (XRed.enc o (c_.fw 19 1))
  | .tag c_ o => some (RD1.enc o (c_.fw 20 0))
  | .mkt c_ o => some (RD2.enc o (c_.fw 20 1))
  | .deref c_ o => some (RD1.enc o (c_.fw 20 2))
  | .unify c_ o => some (PUnify.enc o (c_.fw 20 3))
  | .bindT c_ a b => some (encAB a b (c_.fw 20 4))
  | .halloc c_ o => some (RD1.enc o (c_.fw 20 5))
  | .getarg c_ o => some (RD2.enc o (c_.fw 20 6))
  | .commit c_ o => some (P2.enc o (c_.fw 20 7))
  | .tryM c_ o => some (STry.enc o (c_.fw 21 0))
  | .trust c_ => some ((c_.fw 21 1))
  | .failW c_ => some ((c_.fw 21 2))
  | .cut c_ a => some (encA a (c_.fw 21 3))
  | .offer c_ a => some (encA a (c_.fw 21 4))
  | .adopt c_ p => some (encP p (c_.fw 21 5))
  | .ovlcfg c_ a => some (encA a (c_.fw 21 6))
  | _ => none

/-- The word of an instruction (02 R34, R45); an event has none. -/
def encode (i : Instr) : Option W64 :=
  match i.slotX?, i.slotY? with
  | some x, some y => some (dualWordOf i.dualStall x y)
  | _, _ => i.fw?.map FW.toWord

/-- The eight bytes of a word as memory holds them, little-endian (00 R3, 02 R32). -/
def wordBytes (w : W64) : List Byte := (List.range 8).map fun k => w.extractLsb' (8 * k) 8

/-- The word of eight bytes, little-endian (00 R3). -/
def bytesWord (l : List Byte) : W64 :=
  (List.range 8).foldl (fun w k => w ||| (((l.getD k 0).setWidth 64) <<< (8 * k))) 0

/-- Decode the bytes fetched at a word address. -/
def decodeBytes (l : List Byte) : Except DecodeFault Instr := decode (bytesWord l)

/-- What the decoder reads from a word whose bits, numbered from its lowest, are `w`; `nbits` bits are
given and every bit above them is 0. -/
def decodeTableWord (nbits w : Nat) : Option Instr :=
  if 64 < nbits then none
  else
    match decodeBytes (wordBytes (BitVec.ofNat 64 (w % 2 ^ nbits))) with
    | .ok i => some i
    | .error _ => none

end Sys2Proof
end

