-- ==== Sys2Proof/Machine/Floats.lean ====
section
/-! DEFINITION. Floating-point formats and arithmetic (03 R65 to R77, 05 R118 to R131): every result is computed
exactly, or with a bound far below half a unit, and rounded once. -/

namespace Sys2Proof.Machine

/-- The floating-point formats (03 R65). -/
inductive FFmt where
  | f64
  | f32
  | bf16
  | f16
  | e4m3
  | e5m2
  deriving DecidableEq, Repr

/-- Width in bits (03 R65). -/
def FFmt.width : FFmt → Nat
  | .f64 => 64
  | .f32 => 32
  | .bf16 => 16
  | .f16 => 16
  | .e4m3 => 8
  | .e5m2 => 8

/-- Fraction bits (03 R65). -/
def FFmt.fbits : FFmt → Nat
  | .f64 => 52
  | .f32 => 23
  | .bf16 => 7
  | .f16 => 10
  | .e4m3 => 3
  | .e5m2 => 2

/-- Exponent bias (03 R65). -/
def FFmt.bias : FFmt → Nat
  | .f64 => 1023
  | .f32 => 127
  | .bf16 => 127
  | .f16 => 15
  | .e4m3 => 7
  | .e5m2 => 15

/-- The magnitude bits of the largest finite value (03 R65). -/
def FFmt.maxBits : FFmt → Nat
  | .f64 => 0x7FEFFFFFFFFFFFFF
  | .f32 => 0x7F7FFFFF
  | .bf16 => 0x7F7F
  | .f16 => 0x7BFF
  | .e4m3 => 0x7E
  | .e5m2 => 0x7B

/-- The canonical NaN (03 R74). -/
def FFmt.nan : FFmt → Nat
  | .f64 => 0x7FF8000000000000
  | .f32 => 0x7FC00000
  | .bf16 => 0x7FC0
  | .f16 => 0x7E00
  | .e4m3 => 0x7F
  | .e5m2 => 0x7E

/-- The formats that the assist routine and FTZ do not touch (03 R75, R77). -/
def FFmt.fp8 : FFmt → Bool
  | .e4m3 => true
  | .e5m2 => true
  | _ => false

/-- A value of a format: a finite value is `m` times 2 to the `e`, a zero has `m = 0` (03 R66). -/
inductive FVal where
  | nan (sig : Bool)
  | inf (neg : Bool)
  | fin (neg : Bool) (m : Nat) (e : Int)
  deriving DecidableEq, Repr

/-- The flags of FLG: NV, DZ, OF, UF, NX from bit 4 down (01 R24). -/
abbrev Flags := BitVec 5
/-- Invalid operation. -/
def flNV : Flags := 16
/-- Division by zero. -/
def flDZ : Flags := 8
/-- Overflow. -/
def flOF : Flags := 4
/-- Underflow. -/
def flUF : Flags := 2
/-- Inexact. -/
def flNX : Flags := 1

/-- A result: its bits, its flags, and whether the assist routine completes it (03 R75). -/
structure FRes where
  bits : Nat
  fl : Flags
  assist : Bool
  deriving DecidableEq, Repr

/-- A result without flags. -/
def FRes.plain (b : Nat) : FRes := ⟨b, 0, false⟩

/-- Read an encoding (03 R66). -/
def FFmt.decode (f : FFmt) (b : Nat) : FVal :=
  let neg := b.testBit (f.width - 1)
  let mag := b % 2 ^ (f.width - 1)
  let ef := mag / 2 ^ f.fbits
  let fr := mag % 2 ^ f.fbits
  if f = .e4m3 ∧ mag = 0x7F then .nan false
  else if f ≠ .e4m3 ∧ f.maxBits < mag then
    if fr = 0 then .inf neg else .nan (decide (fr < 2 ^ (f.fbits - 1)))
  else if ef = 0 then .fin neg fr (1 - (f.bias : Int) - f.fbits)
  else .fin neg (fr + 2 ^ f.fbits) ((ef : Int) - f.bias - f.fbits)

/-- Read an operand: under FTZ a subnormal of a format wider than 8 bits reads as zero (03 R77). -/
def FFmt.read (f : FFmt) (ftz : Bool) (b : Nat) : FVal :=
  match f.decode b with
  | .fin neg m e => if ftz && !f.fp8 && decide (m < 2 ^ f.fbits) then .fin neg 0 e else .fin neg m e
  | v => v

/-- Round `m` times 2 to the `e` to a multiple of 2 to the `q`; the multiple, and whether bits were lost (03 R69). -/
def roundAt (rm : RMode) (neg : Bool) (m : Nat) (e q : Int) : Nat × Bool :=
  if q ≤ e then (m <<< (e - q).toNat, false)
  else
    let k := (q - e).toNat
    let t := m >>> k
    let r := m - (t <<< k)
    let half := 1 <<< (k - 1)
    let up :=
      match rm with
      | .rne => decide (half < r) || (r == half && t % 2 == 1)
      | .rz => false
      | .ru => r != 0 && !neg
      | .rd => r != 0 && neg
    (if up then t + 1 else t, r != 0)

/-- Put the sign on magnitude bits. -/
def FFmt.signed (f : FFmt) (neg : Bool) (mag : Nat) : Nat := if neg then mag + 2 ^ (f.width - 1) else mag

/-- A zero of a sign. -/
def FFmt.zero (f : FFmt) (neg : Bool) : FRes := .plain (f.signed neg 0)

/-- An exact infinity; E4M3 saturates (03 R71). -/
def FFmt.infinity (f : FFmt) (neg : Bool) (fl : Flags) : FRes :=
  ⟨f.signed neg (if f = .e4m3 then f.maxBits else f.maxBits + 1), fl, false⟩

/-- The canonical NaN (03 R74). -/
def FFmt.nanRes (f : FFmt) (fl : Flags) : FRes := ⟨f.nan, fl, false⟩

/-- Overflow (03 R70, R71). -/
def FFmt.overflow (f : FFmt) (rm : RMode) (neg : Bool) : FRes :=
  let toInf :=
    match rm with
    | .rne => true
    | .rz => false
    | .ru => !neg
    | .rd => neg
  ⟨f.signed neg (if toInf && f ≠ .e4m3 then f.maxBits + 1 else f.maxBits), flOF ||| flNX, false⟩

/-- Round a nonzero exact value to a format (03 R69 to R71, R73, R75, R77). -/
def FFmt.round (f : FFmt) (rm : RMode) (ftz neg : Bool) (m : Nat) (e : Int) : FRes :=
  let p : Int := f.fbits
  let emin : Int := 1 - (f.bias : Int)
  let top : Int := (Nat.log2 m : Int) + e
  let n1 := (roundAt rm neg m e (top - p)).1
  let tiny := decide ((if n1 = 2 ^ (f.fbits + 1) then top + 1 else top) < emin)
  if tiny && ftz && !f.fp8 then ⟨f.signed neg 0, flUF ||| flNX, false⟩
  else
    let q := max (top - p) (emin - p)
    let n := roundAt rm neg m e q
    let bits := n.1 + ((q - (emin - p)).toNat <<< f.fbits)
    if f.maxBits < bits then f.overflow rm neg
    else ⟨f.signed neg bits, (if n.2 then flNX else 0) ||| (if tiny && n.2 then flUF else 0), tiny && !f.fp8⟩

/-- Round a value that lies strictly between `m` and `m + 1` times 2 to the `e`. -/
def FFmt.roundOpen (f : FFmt) (ftz neg : Bool) (m : Nat) (e : Int) : FRes := f.round .rne ftz neg (2 * m + 1) (e - 1)

/-- Deliver a value exactly known, with the sign of a zero. -/
def FFmt.deliver (f : FFmt) (rm : RMode) (ftz neg : Bool) (m : Nat) (e : Int) : FRes :=
  if m = 0 then f.zero neg else f.round rm ftz neg m e

/-- NV if an operand is signalling (03 R73). -/
def FVal.nv : FVal → Flags
  | .nan true => flNV
  | _ => 0

/-- Whether a value is a NaN. -/
def FVal.isNan : FVal → Bool
  | .nan _ => true
  | _ => false

/-- A finite value as an integer multiple of 2 to the `q`, for a `q` not above its exponent. -/
def dyInt (neg : Bool) (m : Nat) (e q : Int) : Int :=
  let n : Int := ((m <<< (e - q).toNat : Nat) : Int)
  if neg then -n else n

/-- Add two values, one rounding (05 R118). -/
def FFmt.add (f : FFmt) (rm : RMode) (ftz : Bool) (x y : FVal) : FRes :=
  match x, y with
  | .nan _, _ => f.nanRes (x.nv ||| y.nv)
  | _, .nan _ => f.nanRes (x.nv ||| y.nv)
  | .inf a, .inf b => if a = b then f.infinity a 0 else f.nanRes flNV
  | .inf a, _ => f.infinity a 0
  | _, .inf b => f.infinity b 0
  | .fin a m e, .fin b n k =>
    if m = 0 ∧ n = 0 then f.zero (a && b)
    else
      let q := min e k
      let s := dyInt a m e q + dyInt b n k q
      if s = 0 then f.zero false else f.round rm ftz (decide (s < 0)) s.natAbs q

/-- The opposite value. -/
def FVal.neg : FVal → FVal
  | .nan s => .nan s
  | .inf a => .inf (!a)
  | .fin a m e => .fin (!a) m e

/-- An exact product, with the flag of an invalid one. -/
def FVal.mul (x y : FVal) : FVal × Flags :=
  match x, y with
  | .nan _, _ => (.nan false, x.nv ||| y.nv)
  | _, .nan _ => (.nan false, x.nv ||| y.nv)
  | .inf a, .inf b => (.inf (a != b), 0)
  | .inf a, .fin b n _ => if n = 0 then (.nan false, flNV) else (.inf (a != b), 0)
  | .fin a m _, .inf b => if m = 0 then (.nan false, flNV) else (.inf (a != b), 0)
  | .fin a m e, .fin b n k => (.fin (a != b) (m * n) (e + k), 0)

/-- Deliver a value in a format. -/
def FFmt.ofVal (f : FFmt) (rm : RMode) (ftz : Bool) : FVal → FRes
  | .nan s => f.nanRes (if s then flNV else 0)
  | .inf a => f.infinity a 0
  | .fin a m e => f.deliver rm ftz a m e

/-- Add flags to a result. -/
def FRes.with (r : FRes) (fl : Flags) : FRes := { r with fl := r.fl ||| fl }

/-- Multiply (05 R118). -/
def FFmt.mul (f : FFmt) (ftz : Bool) (x y : FVal) : FRes :=
  let p := x.mul y
  (f.ofVal .rne ftz p.1).with p.2

/-- Fused multiply-add, one rounding; an invalid product sets NV whatever the addend (05 R118). -/
def FFmt.fma (f : FFmt) (ftz : Bool) (x y z : FVal) : FRes :=
  let p := x.mul y
  (f.add .rne ftz p.1 z).with p.2

/-- Less than, with -0 below +0, for values that are not NaNs (05 R119). -/
def FVal.below (x y : FVal) : Bool :=
  match x, y with
  | .inf a, .inf b => a && !b
  | .inf a, _ => a
  | _, .inf b => !b
  | .fin a m e, .fin b n k =>
    if m = 0 ∧ n = 0 then a && !b
    else
      let q := min e k
      decide (dyInt a m e q < dyInt b n k q)
  | _, _ => false

/-- FMIN, or FMAX for `big` (05 R119). -/
def FFmt.minmax (f : FFmt) (big ftz : Bool) (x y : FVal) : FRes :=
  let fl := x.nv ||| y.nv
  let r :=
    if x.isNan then (if y.isNan then .nan false else y)
    else if y.isNan then x
    else if big then (if x.below y then y else x)
    else (if y.below x then y else x)
  (f.ofVal .rne ftz r).with fl

/-- FNEG (05 R120). -/
def FFmt.negOp (f : FFmt) (ftz : Bool) (x : FVal) : FRes := f.ofVal .rne ftz x.neg

/-- FABS (05 R120). -/
def FFmt.absOp (f : FFmt) (ftz : Bool) : FVal → FRes
  | .nan s => f.ofVal .rne ftz (.nan s)
  | .inf _ => f.ofVal .rne ftz (.inf false)
  | .fin _ m e => f.ofVal .rne ftz (.fin false m e)

/-- FCLASS, from the encoding (05 R121). -/
def FFmt.classify (f : FFmt) (b : Nat) : FRes :=
  match f.decode b with
  | .nan true => ⟨8, flNV, false⟩
  | .nan false => .plain 9
  | .inf neg => .plain (if neg then 0 else 7)
  | .fin neg m _ =>
    if m = 0 then .plain (if neg then 3 else 4)
    else if m < 2 ^ f.fbits then .plain (if neg then 2 else 5)
    else .plain (if neg then 1 else 6)

/-- FROUND (05 R122). -/
def FFmt.integral (f : FFmt) (rm : RMode) (ftz : Bool) (x : FVal) : FRes :=
  match x with
  | .fin neg m e =>
    let r := roundAt rm neg m e 0
    if 0 ≤ e then f.deliver .rne ftz neg m e
    else (f.deliver .rne ftz neg r.1 0).with (if r.2 then flNX else 0)
  | v => f.ofVal .rne ftz v

/-- FSCALE: the exponent moves by `k`, which is cut to a range that no format leaves (05 R123). -/
def FFmt.scale (f : FFmt) (ftz : Bool) (x : FVal) (k : Int) : FRes :=
  match x with
  | .fin neg m e => f.deliver .rne ftz neg m (e + max (-5000) (min 5000 k))
  | v => f.ofVal .rne ftz v

/-! ### Comparisons (05 R115) -/

/-- Equal, less, greater, or unordered. -/
def FVal.cmp (x y : FVal) : Option Ordering :=
  match x, y with
  | .nan _, _ => none
  | _, .nan _ => none
  | .fin _ 0 _, .fin _ 0 _ => some .eq
  | _, _ => if x.below y then some .lt else if y.below x then some .gt else some .eq

/-- A condition of FCMP (02 R58, 05 R115). -/
def fcondHolds (c : FCond) (o : Option Ordering) : Bool :=
  match c, o with
  | .eq, some .eq => true
  | .ne, some .eq => false
  | .ne, _ => true
  | .lt, some .lt => true
  | .le, some .lt => true
  | .le, some .eq => true
  | .gt, some .gt => true
  | .ge, some .gt => true
  | .ge, some .eq => true
  | .un, none => true
  | .ord, some _ => true
  | _, _ => false

/-! ### Division and roots (05 R124, R125) -/

/-- Divide (05 R124, R125). -/
def FFmt.div (f : FFmt) (ftz : Bool) (x y : FVal) : FRes :=
  match x, y with
  | .nan _, _ => f.nanRes (x.nv ||| y.nv)
  | _, .nan _ => f.nanRes (x.nv ||| y.nv)
  | .inf _, .inf _ => f.nanRes flNV
  | .inf a, .fin b _ _ => f.infinity (a != b) 0
  | .fin a _ _, .inf b => f.zero (a != b)
  | .fin a m e, .fin b n k =>
    if n = 0 then (if m = 0 then f.nanRes flNV else f.infinity (a != b) flDZ)
    else if m = 0 then f.zero (a != b)
    else
      let s := Nat.log2 n + 130
      let q := (m <<< s) / n
      if (m <<< s) % n = 0 then f.round .rne ftz (a != b) q (e - k - s)
      else f.roundOpen ftz (a != b) q (e - k - s)

/-- The integer square root, one binary digit at a time from digit `k - 1`. -/
def isqrtFrom (n : Nat) : Nat → Nat → Nat
  | 0, r => r
  | k + 1, r =>
    let t := r + 2 ^ k
    isqrtFrom n k (if t * t ≤ n then t else r)

/-- The integer square root. -/
def isqrt (n : Nat) : Nat := isqrtFrom n (Nat.log2 n / 2 + 1) 0

/-- FSQRT (05 R124, R125). -/
def FFmt.sqrt (f : FFmt) (ftz : Bool) (x : FVal) : FRes :=
  match x with
  | .nan s => f.nanRes (if s then flNV else 0)
  | .inf neg => if neg then f.nanRes flNV else f.infinity false 0
  | .fin neg m e =>
    if m = 0 then f.zero neg
    else if neg then f.nanRes flNV
    else
      let s := if e % 2 = 0 then 130 else 131
      let n := m <<< s
      let r := isqrt n
      let q := (e - s) / 2
      if r * r = n then f.round .rne ftz false r q else f.roundOpen ftz false r q

/-- Whether a number is a power of two. -/
def isPow2 (m : Nat) : Bool := m != 0 && 2 ^ Nat.log2 m == m

/-- FRCP: NX for every input but the rows of R125 and a power of two with a normal result (05 R126). -/
def FFmt.rcp (f : FFmt) (ftz : Bool) (x : FVal) : FRes :=
  match x with
  | .fin neg m _ =>
    if m = 0 then f.infinity neg flDZ
    else
      let r := f.div ftz (.fin false 1 0) x
      if isPow2 m && !r.assist then r else r.with (flNX ||| (if r.assist then flUF else 0))
  | v => f.div ftz (.fin false 1 0) v

/-- FRSQ (05 R124 to R126). -/
def FFmt.rsq (f : FFmt) (ftz : Bool) (x : FVal) : FRes :=
  match x with
  | .nan s => f.nanRes (if s then flNV else 0)
  | .inf neg => if neg then f.nanRes flNV else f.zero false
  | .fin neg m e =>
    if m = 0 then f.infinity neg flDZ
    else if neg then f.nanRes flNV
    else
      let m2 := if e % 2 = 0 then m else 2 * m
      let e2 := if e % 2 = 0 then e else e - 1
      let n := 2 ^ 400 / m2
      let r := isqrt n
      if r * r * m2 = 2 ^ 400 then f.round .rne ftz false r (-(e2 / 2) - 200)
      else f.roundOpen ftz false r (-(e2 / 2) - 200)

/-! ### Transcendental functions in fixed point with 400 fraction bits (05 R124; log 11) -/

/-- Fraction bits of the fixed-point numbers below. -/
def fxBits : Nat := 400
/-- One. -/
def fxOne : Nat := 2 ^ 400
/-- The number pi with 1,000 fraction bits. -/
def piFx : Nat := 0x3243f6a8885a308d313198a2e03707344a4093822299f31d0082efa98ec4e6c89452821e638d01377be5466cf34e90c6cc0ac29b7c97c50dd3f84d5b5b54709179216d5d98979fb1bd1310ba698dfb5ac2ffd72dbd01adfb7b8e1afed6a267e96ba7c9045f12c7f9924a19947b3916cf70801f2e2858efc16636920d871
/-- The natural logarithm of 2 with 1,000 fraction bits. -/
def ln2Fx1000 : Nat := 0xb17217f7d1cf79abc9e3b39803f2f6af40f343267298b62d8a0d175b8baafa2be7b876206debac98559552fb4afa1b10ed2eae35c138214427573b291169b8253e96ca16224ae8c51acbda11317c387eb9ea9bc3b136603b256fa0ec7657f74b72ce87b19d6548caf5dfa6bd38303248655fa1872f20e3a2da2d97c50f
/-- The natural logarithm of 2 with 400 fraction bits. -/
def ln2Fx : Nat := ln2Fx1000 >>> 600

/-- The exponential series of `y`, from a term: `fuel` further terms. -/
def expSeries (y : Nat) : Nat → Nat → Nat → Nat → Nat
  | 0, _, _, acc => acc
  | fuel + 1, k, t, acc =>
    let t2 := ((t * y) >>> fxBits) / k
    expSeries y fuel (k + 1) t2 (acc + t2)

/-- The exponential of a fixed-point number below 1. -/
def fxExp (y : Nat) : Nat := expSeries y 95 1 fxOne fxOne

/-- An alternating series in `y2` whose factors are `k (k + 1)`: sine and cosine. -/
def trigSeries (y2 : Nat) : Nat → Nat → Int → Int → Int
  | 0, _, _, acc => acc
  | fuel + 1, k, t, acc =>
    let t2 : Int := -(((t * y2) / (fxOne : Int)) / ((k * (k + 1) : Nat) : Int))
    trigSeries y2 fuel (k + 2) t2 (acc + t2)

/-- Sine of a fixed-point number below 2. -/
def fxSin (r : Nat) : Nat := (trigSeries ((r * r) >>> fxBits) 55 2 (r : Int) (r : Int)).toNat
/-- Cosine of a fixed-point number below 2. -/
def fxCos (r : Nat) : Nat := (trigSeries ((r * r) >>> fxBits) 55 1 (fxOne : Int) (fxOne : Int)).toNat

/-- The series of the area tangent: terms `z^k / k` for odd `k`. -/
def atanhSeries (z2 : Nat) : Nat → Nat → Nat → Nat → Nat
  | 0, _, _, acc => acc
  | fuel + 1, k, t, acc =>
    let t2 := (t * z2) >>> fxBits
    atanhSeries z2 fuel (k + 2) t2 (acc + t2 / (k + 2))

/-- FEXP2 of a finite nonzero input (05 R124, R126). -/
def FFmt.exp2Fin (f : FFmt) (ftz neg : Bool) (m : Nat) (e : Int) : FRes :=
  if 14 ≤ (Nat.log2 m : Int) + e then f.round .rne ftz false 1 (if neg then -9000 else 9000)
  else
    let x : Int := dyInt neg m e (-(fxBits : Int))
    let n := x / (fxOne : Int)
    let fr := (x % (fxOne : Int)).toNat
    if fr = 0 then
      let r := f.round .rne ftz false 1 n
      if r.assist then r.with (flNX ||| flUF) else r
    else f.roundOpen ftz false (fxExp ((fr * ln2Fx) >>> fxBits)) (n - fxBits)

/-- FEXP2 (05 R125). -/
def FFmt.exp2 (f : FFmt) (ftz : Bool) : FVal → FRes
  | .nan s => f.nanRes (if s then flNV else 0)
  | .inf neg => if neg then f.zero false else f.infinity false 0
  | .fin neg m e => if m = 0 then f.round .rne ftz false 1 0 else f.exp2Fin ftz neg m e

/-- FLOG2 (05 R124 to R126). -/
def FFmt.log2 (f : FFmt) (ftz : Bool) : FVal → FRes
  | .nan s => f.nanRes (if s then flNV else 0)
  | .inf neg => if neg then f.nanRes flNV else f.infinity false 0
  | .fin neg m e =>
    if m = 0 then f.infinity true flDZ
    else if neg then f.nanRes flNV
    else
      let l := Nat.log2 m
      let n : Int := (l : Int) + e
      if isPow2 m then f.deliver .rne ftz (decide (n < 0)) n.natAbs 0
      else
        let z := ((m - 2 ^ l) <<< fxBits) / (m + 2 ^ l)
        let ln := 2 * atanhSeries ((z * z) >>> fxBits) 140 1 z z
        let v : Int := n * (fxOne : Int) + (((ln <<< fxBits) / ln2Fx : Nat) : Int)
        f.roundOpen ftz (decide (v < 0)) v.natAbs (-(fxBits : Int))

/-- Reduce a finite positive argument by a quarter turn: how many quarters, and the rest. -/
def quarter (m : Nat) (e : Int) : Nat × Nat :=
  let x := if -1000 ≤ e then m <<< (e + 1000).toNat else m >>> (-1000 - e).toNat
  let k := 2 * x / piFx
  (k, ((2 * x - k * piFx) / 2) >>> 600)

/-- FSIN, or FCOS for `cos` (05 R124, R125). -/
def FFmt.trig (f : FFmt) (cos ftz : Bool) : FVal → FRes
  | .nan s => f.nanRes (if s then flNV else 0)
  | .inf _ => f.nanRes flNV
  | .fin neg m e =>
    if m = 0 then (if cos then f.round .rne ftz false 1 0 else f.zero neg)
    else
      let k := quarter m e
      let i := (k.1 + (if cos then 1 else 0)) % 4
      let v := if i % 2 = 0 then fxSin k.2 else fxCos k.2
      let minus := decide (2 ≤ i)
      f.roundOpen ftz (if cos then minus else neg != minus) v (-(fxBits : Int))

/-- FTANH (05 R124, R125). -/
def FFmt.tanh (f : FFmt) (ftz : Bool) : FVal → FRes
  | .nan s => f.nanRes (if s then flNV else 0)
  | .inf neg => f.round .rne ftz neg 1 0
  | .fin neg m e =>
    if m = 0 then f.zero neg
    else if 8 ≤ (Nat.log2 m : Int) + e then f.roundOpen ftz neg (fxOne - 1) (-(fxBits : Int))
    else
      let z := 2 * (dyInt false m e (-(fxBits : Int))).toNat
      let n := z / ln2Fx
      let w := ((fxOne * fxOne) / fxExp (z - n * ln2Fx)) >>> n
      f.roundOpen ftz neg (((fxOne - w) <<< fxBits) / (fxOne + w)) (-(fxBits : Int))

end Sys2Proof.Machine
end

