-- ==== Sys2Proof/Machine/Elem.lean ====
section
/-! DEFINITION. Sub-elements of a register (02 R40) and the integer functions on them (05 R106 to R113). -/

namespace Sys2Proof.Machine

/-- Sub-element `i` of width `w` (05 R101). -/
def sub (w i : Nat) (x : W64) : BitVec w := x.extractLsb' (w * i) w

/-- A register from its sub-elements of width `w`, the lowest first (05 R101). -/
def pack (w : Nat) (f : Nat → BitVec w) : W64 :=
  (List.range (64 / w)).foldl (fun acc i => acc ||| ((f i).setWidth 64 <<< (w * i))) 0

/-- One function on the sub-elements of one register. -/
def map1 (w : Nat) (f : BitVec w → BitVec w) (a : W64) : W64 := pack w fun i => f (sub w i a)

/-- One function on the sub-elements of two registers. -/
def map2 (w : Nat) (f : BitVec w → BitVec w → BitVec w) (a b : W64) : W64 := pack w fun i => f (sub w i a) (sub w i b)

/-- One function on the sub-elements of three registers. -/
def map3 (w : Nat) (f : BitVec w → BitVec w → BitVec w → BitVec w) (a b c : W64) : W64 :=
  pack w fun i => f (sub w i a) (sub w i b) (sub w i c)

section
variable {w : Nat}

/-- Clamp to the signed range of `w` bits (05 R106). -/
def satS (w : Nat) (x : Int) : BitVec w :=
  BitVec.ofInt w (max (-(2 ^ (w - 1) : Int)) (min (2 ^ (w - 1) - 1) x))

/-- ADDS (05 R106). -/
def eAdds (a b : BitVec w) : BitVec w := satS w (a.toInt + b.toInt)
/-- SUBS (05 R106). -/
def eSubs (a b : BitVec w) : BitVec w := satS w (a.toInt - b.toInt)
/-- ABS (05 R106). -/
def eAbs (a : BitVec w) : BitVec w := if a.msb then -a else a
/-- Signed minimum (05 R106). -/
def eMin (a b : BitVec w) : BitVec w := if b.slt a then b else a
/-- Signed maximum (05 R106). -/
def eMax (a b : BitVec w) : BitVec w := if a.slt b then b else a
/-- Unsigned minimum (05 R106). -/
def eUmin (a b : BitVec w) : BitVec w := if b.ult a then b else a
/-- Unsigned maximum (05 R106). -/
def eUmax (a b : BitVec w) : BitVec w := if a.ult b then b else a
/-- AVG: the floor of half of the sum plus one (05 R106). -/
def eAvg (a b : BitVec w) : BitVec w := BitVec.ofInt w ((a.toInt + b.toInt + 1) / 2)
/-- MULH (05 R109). -/
def eMulh (a b : BitVec w) : BitVec w := BitVec.ofInt w (a.toInt * b.toInt / 2 ^ w)
/-- UMULH (05 R109). -/
def eUmulh (a b : BitVec w) : BitVec w := BitVec.ofNat w (a.toNat * b.toNat / 2 ^ w)
/-- DIV (05 R110). -/
def eDiv (a b : BitVec w) : BitVec w := if b = 0 then BitVec.allOnes w else a.sdiv b
/-- UDIV (05 R110). -/
def eUdiv (a b : BitVec w) : BitVec w := if b = 0 then BitVec.allOnes w else a / b
/-- REM (05 R110). -/
def eRem (a b : BitVec w) : BitVec w := if b = 0 then a else a.srem b
/-- UREM (05 R110). -/
def eUrem (a b : BitVec w) : BitVec w := if b = 0 then a else a % b
/-- How many of the bits numbered below `n` are 1. -/
def onesBelow (a : BitVec w) : Nat → Nat
  | 0 => 0
  | n + 1 => onesBelow a n + (if a.getLsbD n then 1 else 0)
/-- POPC (05 R109). -/
def ePopc (a : BitVec w) : BitVec w := BitVec.ofNat w (onesBelow a w)
/-- Zero bits from bit `n - 1` down to the first 1. -/
def zerosFrom (a : BitVec w) : Nat → Nat
  | 0 => 0
  | n + 1 => if a.getLsbD n then 0 else zerosFrom a n + 1
/-- CLZ (05 R109). -/
def eClz (a : BitVec w) : BitVec w := BitVec.ofNat w (zerosFrom a w)
/-- Bit `k` becomes bit `w - 1 - k` (05 R109). -/
def eBrev (a : BitVec w) : BitVec w := a.reverse
/-- CTZ (05 R109). -/
def eCtz (a : BitVec w) : BitVec w := eClz (eBrev a)
/-- SHL (05 R111). -/
def eShl (a b : BitVec w) : BitVec w := if w ≤ b.toNat then 0 else a <<< b.toNat
/-- SHR (05 R111). -/
def eShr (a b : BitVec w) : BitVec w := if w ≤ b.toNat then 0 else a >>> b.toNat
/-- SAR (05 R111). -/
def eSar (a b : BitVec w) : BitVec w :=
  if w ≤ b.toNat then (if a.msb then BitVec.allOnes w else 0) else a.sshiftRight b.toNat
/-- ROT (05 R111). -/
def eRot (a b : BitVec w) : BitVec w := a.rotateLeft (b.toNat % w)

/-- The length that a bit field really has (05 R112). -/
def fieldLen (b c : BitVec w) : Nat :=
  let pos := b.toNat % 256
  if w ≤ pos then 0 else min (c.toNat % 256) (w - pos)
/-- UBFX (05 R112). -/
def eUbfx (a b c : BitVec w) : BitVec w :=
  let n := fieldLen b c
  if n = 0 then 0 else (a >>> (b.toNat % 256)) &&& BitVec.ofNat w (2 ^ n - 1)
/-- BFX (05 R112). -/
def eBfx (a b c : BitVec w) : BitVec w :=
  let n := fieldLen b c
  if n = 0 then 0
  else
    let f := eUbfx a b c
    if f.getLsbD (n - 1) then f ||| ~~~ BitVec.ofNat w (2 ^ n - 1) else f
/-- BFI into `d` (05 R112). -/
def eBfi (d a b c : BitVec w) : BitVec w :=
  let n := fieldLen b c
  if n = 0 then d
  else
    let m : BitVec w := BitVec.ofNat w (2 ^ n - 1) <<< (b.toNat % 256)
    (d &&& ~~~ m) ||| ((a <<< (b.toNat % 256)) &&& m)

end

/-- PACK: the low halves of the sub-elements of `a`, then of `b` (05 R113). -/
def packHalves (w : Nat) (a b : W64) : W64 :=
  let n := 64 / w
  pack (w / 2) fun i => if i < n then (sub w i a).setWidth (w / 2) else (sub w (i - n) b).setWidth (w / 2)

/-- UNPK: widen the elements of one half (05 R113). -/
def unpackHalf (w : Nat) (x : UnpkSel) (a : W64) : W64 :=
  let h := match x with
    | .lz => 0
    | .ls => 0
    | .hz => 32
    | .hs => 32
  pack w fun i =>
    let e : BitVec (w / 2) := a.extractLsb' (h + (w / 2) * i) (w / 2)
    match x with
    | .lz => e.setWidth w
    | .hz => e.setWidth w
    | .ls => e.signExtend w
    | .hs => e.signExtend w

/-- PLANE: bit `p` of each sub-element, packed (05 R132). -/
def planeOf (w p : Nat) (a : W64) : W64 :=
  BitVec.ofNat 64 ((List.range (64 / w)).foldl (fun acc i => acc + (if a.getLsbD (w * i + p) then 2 ^ i else 0)) 0)

/-- UNPLANE: bit `i` of `a` goes to bit `p` of sub-element `i` of `d` (05 R132). -/
def unplaneInto (w p : Nat) (d a : W64) : W64 :=
  (List.range (64 / w)).foldl (fun acc i =>
    let m := (1 : W64) <<< (w * i + p)
    if a.getLsbD i then acc ||| m else acc &&& ~~~ m) d

/-- A condition of CMP or UCMP on one sub-element (02 R58, 05 R114). -/
def condHolds {w : Nat} (c : Cond) (signed : Bool) (a b : BitVec w) : Bool :=
  let lt := if signed then a.slt b else a.ult b
  match c with
  | .eq => a == b
  | .ne => a != b
  | .lt => lt
  | .le => lt || a == b
  | .gt => !(lt || a == b)
  | .ge => !lt
  | .any => (a &&& b) != 0
  | .none => (a &&& b) == 0

/-- The AND of a condition over every sub-element (05 R114). -/
def allSub (w : Nat) (p : BitVec w → BitVec w → Bool) (a b : W64) : Bool :=
  (List.range (64 / w)).all fun i => p (sub w i a) (sub w i b)

end Sys2Proof.Machine
end

