-- ==== Sys2Proof/Machine/Store.lean ====
section
/-! DEFINITION. Finite maps with natural-number keys, held as lists in one canonical form, and byte memory
on top of them. -/

namespace Sys2Proof.Machine

/-- A finite map: key and value pairs, keys strictly rising. -/
abbrev KMap (α : Type) := List (Nat × α)

/-- The value at a key. -/
def KMap.get? {α : Type} : KMap α → Nat → Option α
  | [], _ => none
  | (k, v) :: m, x => if k = x then some v else KMap.get? m x

/-- The value at a key, or a default. -/
def KMap.getD {α : Type} (m : KMap α) (k : Nat) (d : α) : α := (m.get? k).getD d

/-- Put a value at a key, in order. -/
def KMap.put {α : Type} : KMap α → Nat → α → KMap α
  | [], k, v => [(k, v)]
  | (j, w) :: m, k, v =>
    if k < j then (k, v) :: (j, w) :: m
    else if k = j then (k, v) :: m
    else (j, w) :: KMap.put m k v

/-- Take a key out. -/
def KMap.del {α : Type} : KMap α → Nat → KMap α
  | [], _ => []
  | (j, w) :: m, k => if j = k then KMap.del m k else (j, w) :: KMap.del m k

/-- Put a value, keeping no entry that equals the default. -/
def KMap.putD {α : Type} [DecidableEq α] (d : α) (m : KMap α) (k : Nat) (v : α) : KMap α :=
  if v = d then m.del k else m.put k v

/-- The least key not below `k` that the map does not use. -/
def KMap.fresh {α : Type} (m : KMap α) : Nat := m.foldl (fun n p => max n (p.1 + 1)) 0

/-- Change every value. -/
def KMap.mapV {α β : Type} (f : Nat → α → β) (m : KMap α) : KMap β := m.map fun p => (p.1, f p.1 p.2)

/-- Strictly rising keys. -/
def KMap.sorted {α : Type} : KMap α → Bool
  | [] => true
  | [_] => true
  | (j, _) :: (k, w) :: m => decide (j < k) && KMap.sorted ((k, w) :: m)

/-- Byte memory: an address not listed reads as zero (21 R426; for host memory, log 3). -/
abbrev Mem := List Host.Cell

/-- One byte. -/
def Mem.byte (m : Mem) (a : Nat) : Byte := KMap.getD m a 0

/-- Store one byte, in canonical form. -/
def Mem.setByte (m : Mem) (a : Nat) (b : Byte) : Mem := KMap.putD 0 m a b

/-- The canonical form: addresses strictly rising, no listed byte zero. -/
def Mem.wf (m : Mem) : Bool := KMap.sorted m && m.all (fun c => c.2 != 0)

/-- `n` bytes from `a`, lowest address first. -/
def Mem.bytes (m : Mem) (a : Nat) : Nat → List Byte
  | 0 => []
  | n + 1 => m.byte a :: Mem.bytes m (a + 1) n

/-- Store bytes from `a` upward. -/
def Mem.setBytes (m : Mem) (a : Nat) : List Byte → Mem
  | [] => m
  | b :: l => Mem.setBytes (m.setByte a b) (a + 1) l

/-- The little-endian number of a list of bytes (00 R3). -/
def leNat : List Byte → Nat
  | [] => 0
  | b :: l => b.toNat + 256 * leNat l

/-- The lowest `n` bytes of a number, little-endian (00 R3). -/
def leBytes : Nat → Nat → List Byte
  | _, 0 => []
  | v, n + 1 => BitVec.ofNat 8 v :: leBytes (v / 256) n

/-- An 8-byte word. -/
def Mem.word (m : Mem) (a : Nat) : W64 := BitVec.ofNat 64 (leNat (m.bytes a 8))

/-- Store an 8-byte word. -/
def Mem.setWord (m : Mem) (a : Nat) (w : W64) : Mem := m.setBytes a (leBytes w.toNat 8)

end Sys2Proof.Machine
end

