-- ==== Sys2Proof/Machine/GroupState.lean ====
section
/-! DEFINITION. The state of lanes, groups and blocks (01 R9 to R27), with what the spec says a group waits
for, its batches, and the checkpoint of a protected block. -/

namespace Sys2Proof.Machine

/-- The fault codes (17 R362). -/
inductive FaultCode where
  | illegalInstr
  | illegalPair
  | reservedField
  | pageFaultRead
  | pageFaultWrite
  | permission
  | misaligned
  | scratchRange
  | accWindow
  | batchFuture
  | phaseFuture
  | termTag
  | overlayFull
  | markerOverflow
  | trailOverflow
  | heapOverflow
  | pdlOverflow
  | adoptPrivate
  | divStack
  | poisonConsumed
  | hang
  | remoteRecoveryTimeout
  | trapInstr
  | bkpt
  | fabricUnreachable
  | blockTerminated
  deriving DecidableEq, Repr

/-- What a fault reports (17 R361, R365): the lowest faulting lane, the address, the trap code, and whether a
code that is usually replayable is delivered as an error at once. -/
structure FaultInfo where
  code : FaultCode
  lane : Nat := 0
  ea : W64 := 0
  arg : BitVec 18 := 0
  atOnce : Bool := false
  deriving DecidableEq, Repr

/-- The hidden swatch descriptor, words w0 to w9 (08 R242). -/
structure Swatch where
  ovl : W64
  w1 : W64
  trailB : W64
  trailL : W64
  markB : W64
  markL : W64
  heapB : W64
  heapL : W64
  pdlB : W64
  pdlL : W64
  deriving DecidableEq, Repr

/-- A descriptor of all zeros (01 R9). -/
def Swatch.zero : Swatch := ⟨0, 0, 0, 0, 0, 0, 0, 0, 0, 0⟩

/-- Lane state (01 R9). Registers not listed hold 0. -/
structure Lane where
  present : Bool
  regs : KMap W64
  taint : BitVec 64
  pred : BitVec 7
  tt : W64
  ht : W64
  mt : W64
  upd : W64
  /-- Where the pairs that the UNIFY in progress has pushed end (10 R276; the model's own). -/
  pdlHi : W64
  sw : Swatch
  wid : W64
  deriving DecidableEq, Repr

/-- A lane position that holds no lane. -/
def Lane.empty : Lane := ⟨false, [], 0, 0, 0, 0, 0, 0, 0, Swatch.zero, 0⟩

/-- An entry: a PC and the lanes it holds (08 R217). -/
structure Entry where
  pc : BitVec 57
  mask : Mask
  deriving DecidableEq, Repr

/-- The kinds of copy (07 R189). -/
inductive CopyKind where
  | load
  | multi
  | store
  | global
  deriving DecidableEq, Repr

/-- A copy in flight (07 R191 to R196). -/
structure CopyOp where
  kind : CopyKind
  blk : Nat
  grp : Nat
  lane : Nat
  cl : Nat
  co : Nat
  launch : Nat
  /-- Blocks whose object counts the copy, with the object's window offset. -/
  objs : List Nat
  objOff : Nat
  /-- Scratch side: window offset. -/
  sofs : Nat
  /-- The eight words of the tensor record. -/
  trec : List W64
  coord : List Int
  /-- COPYG: destination and source virtual addresses. -/
  dva : W64
  sva : W64
  /-- Destination size in bytes. -/
  size : Nat
  clip : Nat
  /-- Translations probed at issue: 256 KiB page number to leaf entry. -/
  pages : KMap W64
  /-- Deliveries still to come: a destination range as offset and length; for COPYS a destination sector of the virtual
  address space, or 2^60 for the elements outside the tensor, and how many bytes it counts. -/
  todo : List (Nat × Nat)
  /-- Deliveries to other chips that are not acknowledged. -/
  sent : List (Nat × Nat)
  /-- Source sectors that the engine has read, keyed by 2^46 times the chip plus the sector, with poison. -/
  fetched : KMap (List Byte × Bool)
  /-- Destinations fed from bad data. -/
  bad : Bool
  handed : Bool
  /-- A program stored to the object while the copy names it (07 R188). -/
  objStored : Bool
  deriving DecidableEq, Repr

/-- A sleeping WAITC (06 R169, 19 R392): issue cycle, when it went to sleep, the values of its last loads by lane, the
answers that remote chips sent in this round, whether monitors watch its sectors. -/
structure WaitcRec where
  issued : Nat
  slept : Nat
  vals : List (Nat × W64)
  got : List (Nat × W64)
  armed : Bool
  deriving DecidableEq, Repr

/-- What a drain waits for: nothing but the reads of the group, acts included (06 R155); every act of the core, whoever made it, and the
remote accesses whose result the group waits for; the acts of the group, those of other groups that may happen before its release,
and those remote accesses; all the remote accesses of the group; or also every remote write of the chip, which a release at FAB or
SYS orders whoever made it (06 R156, R158, 11 R294). -/
inductive Acks where
  | reads
  | acts
  | results
  | group
  | chip
  deriving DecidableEq, Repr

/-- What the entry of a slot waits for inside a word (09 R265). -/
inductive SWait where
  /-- Nothing. -/
  | none
  /-- The wait is over: the word in progress executes again. -/
  | resume
  /-- WAITC asleep (06 R169). -/
  | waitc (w : WaitcRec)
  /-- WAITC about to load and check again. -/
  | waitcCheck (w : WaitcRec)
  /-- WAITC about to leave with the values of its last loads. -/
  | waitcLeave (w : WaitcRec)
  /-- WAITPH (06 R176). -/
  | waitph
  /-- WAITPH about to look at its objects again. -/
  | waitphGo
  /-- A sweep between two elements (07 R216). -/
  | between
  /-- MWAIT, ACWIN, or REGROUP waiting for batches (07 R208, R209). -/
  | batch
  /-- BUSY in FAIL, TRUST, CUT, OVLCFG or a retirement: the address of the marker (08 R245, R246, 10 R286). -/
  | busy (marker : W64)
  /-- COINIT waiting for copies that name the object (06 R174). -/
  | coinit
  /-- A copy word waiting for a slot (07 R191). -/
  | copySlot
  /-- Acts of the core held since a local cycle or before, and remote accesses, must be performed first (06 R156). -/
  | drain (since : Nat) (acks : Acks)
  /-- Those acts are performed. -/
  | drained
  /-- A range that an engine or a batch holds (07 R193, R203). -/
  | held
  /-- Bytes of another chip that the word must read before it can act: what has come so far, by chip and address
  (19 R392). -/
  | far (have_ : List (Nat × Nat × List Byte))
  /-- Those bytes have come, or a copy word's next lanes may issue. -/
  | farGo (have_ : List (Nat × Nat × List Byte))
  /-- A translation for a lane's access that its micro-TLB lacks: the address, the kind of access, and whether the walk is under
  way, or waits for one of the 128 of the die (17 R359). -/
  | walk (lane : Nat) (va : W64) (write going : Bool)
  deriving DecidableEq, Repr

/-- A PC slot (01 R16). `done` names the lanes that the word in progress has finished: those whose copy is issued (07
R191), those whose UNIFY has ended (08 R238); `bad` those that a UNIFY.f will send to FAIL. `began` is the local cycle at which
the word in progress issued (06 R169), `slip` says that the slip of the held word is counted (02 R42), and `pages` are the
translations that the word in progress has obtained: a word goes on with them, whatever the TLBs keep (17 R359). -/
structure PcSlot where
  e : Entry
  wait : SWait
  done : Mask
  bad : Mask
  began : Nat
  slip : Bool
  pages : KMap W64
  /-- The copies of a copy word that its checks have passed and that are not issued yet (07 R190, R191). -/
  plans : List CopyOp
  deriving DecidableEq, Repr

/-- What parks a whole group (09 R265, 17 R361). -/
inductive Park where
  | none
  /-- A fault on its way: the word of the slot has performed nothing. -/
  | fault (slot1 : Bool) (pc : BitVec 57) (f : FaultInfo)
  /-- In the assist routine (03 R76). -/
  | assist
  /-- An instruction-cache line is missing (09 R269). -/
  | icache (pc : BitVec 57)
  deriving DecidableEq, Repr

/-- An operation of a batch (07 R204). Rows are rows of the block's allocation. -/
inductive MOp where
  /-- A float MMA: formats, first row, A and B as window offsets. -/
  | mmaF (bf : AFmt) (af : AFmt) (row a b : Nat) (pair : Bool)
  /-- An integer MMA with B elements of `bits` bits. -/
  | mmaI (bits : Nat) (row a b : Nat) (pair : Bool)
  /-- A QC4 MMA with the scales read at issue: for each column its four block scales and its superblock scale. -/
  | mmaQ (af : AFmt) (row a b : Nat) (pair : Bool) (scales : List (BitVec 32 × BitVec 32))
  | mzero (row : Nat)
  /-- From the address (virtual) to the tile. -/
  | mload (fmt : TileFmt) (row : Nat) (va : W64) (pages : KMap W64)
  | mstore (fmt : TileFmt) (row : Nat) (va : W64) (pages : KMap W64)
  deriving DecidableEq, Repr

/-- What the words and batches of a group have added to the counts of its core, since its block came there: slips, entries of the assist
routine, MMAs retired (08 R253). A rewind takes back what it undoes (21 R411). -/
structure Tally where
  slips : BitVec 64
  assists : BitVec 64
  mmas : BitVec 64
  deriving DecidableEq, Repr

/-- Nothing added. -/
def Tally.zero : Tally := ⟨0, 0, 0⟩

/-- The sum of two. -/
def Tally.add (a b : Tally) : Tally := ⟨a.slips + b.slips, a.assists + b.assists, a.mmas + b.mmas⟩

/-- A batch: its number, whether and when MFENCE closed it, how many MMAs it has, the operations still to run with the
PC and the lane of their words, and the issue cycle, and the MSTORE data still to be written (07 R204, R207). -/
structure Batch where
  num : BitVec 32
  closed : Bool
  closedAt : Nat
  mmas : Nat
  ops : List ((BitVec 57 × Nat) × Nat × MOp)
  /-- Scratch ranges that the range scoreboard holds until the batch retires, as offset and length, and whether loads
  are held too (07 R203, R208). -/
  ranges : List (Nat × Nat × Bool)
  outs : List (W64 × KMap W64 × List Byte)
  deriving DecidableEq, Repr

/-- A sector that a core has read ahead of the loads of a group, past the cluster cache or not (11 R289; log 113). -/
structure Early where
  sector : Nat
  past : Bool
  bytes : List Byte
  deriving DecidableEq, Repr

/-- Group state (01 R16), with what the issue logic keeps for the group. -/
structure Group where
  slot0 : PcSlot
  slot1 : PcSlot
  lastSlot : Bool
  dspFloor : BitVec 32
  dspTop : BitVec 32
  dspCeil : BitVec 32
  l0 : Option Reg
  l1 : Option Reg
  l2 : Option Reg
  l3 : Option Reg
  acb : BitVec 11
  acl : BitVec 11
  bcnt : BitVec 32
  batches : List Batch
  tix0 : BitVec 32
  tix1 : BitVec 32
  tix2 : BitVec 32
  tix3 : BitVec 32
  tix4 : BitVec 32
  /-- A sweep in progress: its slot, and the records that it read at issue, none yet after a resume (07 R182, R215, R216). -/
  sweep : Option (Bool × List (List W64))
  flg : BitVec 5
  fex : BitVec 32
  /-- Lanes waiting at a BAR, for each slot (06 R171). -/
  barWait : List Mask
  /-- Whether the group's arrival at a slot is counted. -/
  barCounted : BitVec 8
  /-- Lanes waiting at a REGROUP (08 R226), and its register mask. -/
  regWait : Mask
  regMask : BitVec 64
  park : Park
  /-- Registers whose variable-latency result is outstanding (02 R43). -/
  sb : BitVec 64
  /-- Predicates whose variable-latency result is outstanding (02 R43). -/
  psb : BitVec 7
  /-- Acquiring accesses whose result is outstanding (06 R155). -/
  acqPend : Nat
  /-- The local cycle of the last act after which the group may know of another party's stores (11 R293; log 33). -/
  acqAt : Nat
  /-- What the core has read ahead for the group (11 R289; log 113). -/
  ahead : List Early
  /-- Results of fixed latency on their way: registers, and predicates as 64 plus p, with the local cycle at which each is
  readable (02 R42, R43). -/
  ready : KMap Nat
  /-- No word before this local cycle (02 R42). -/
  stallUntil : Nat
  /-- Issued with YLD, or a YIELD, in this local cycle plus one (09 R266). -/
  demotedAt : Nat
  yielded : Bool
  /-- Local cycles ready without issuing (09 R266). -/
  readyFor : Nat
  perfIssued : BitVec 64
  perfPairs : BitVec 64
  perfFails : BitVec 64
  tally : Tally
  retired : Bool
  lanes : List Lane
  deriving DecidableEq, Repr

/-- A barrier slot (01 R26). -/
structure BarSlot where
  expected : BitVec 6
  arrived : BitVec 6
  phase : Bool
  deriving DecidableEq, Repr

/-- An entry of the offer board (10 R283). -/
structure BoardEnt where
  grp : BitVec 5
  lane : BitVec 5
  mofs : BitVec 21
  deriving DecidableEq, Repr

/-- What a core of a pair does that reaches the other core: bytes written in the other core's part of the scratchpad, an entry of the
offer board, and the arrivals of a slot (21 R410). -/
inductive PairAct where
  | bytes (off n : Nat)
  | offer (e : BoardEnt)
  | bar (k : Nat)
  deriving DecidableEq, Repr

/-- An act that reaches the other core of a pair, held back from it: the cycle of its issue and the core that made it (21 R410). -/
structure Crossing where
  cycle : Nat
  co : Nat
  act : PairAct
  deriving DecidableEq, Repr

/-- Block state (01 R26). Accumulator cells are keyed by 96 times the row plus the column; cells not listed
hold 0. `accF` is the follower's accumulator memory on a pair (07 R202). -/
structure BlkState where
  groups : List Group
  scratch : Mem
  spoison : List Nat
  acc : KMap (BitVec 32)
  accF : KMap (BitVec 32)
  bars : List BarSlot
  board : List BoardEnt
  adopts : BitVec 64
  /-- On a pair: the acts of less than 160 cycles ago that reach the other core (21 R410). -/
  crossing : List Crossing
  /-- Under protection: scratch sectors and accumulator tiles written since the checkpoint (21 R415). Tiles of
  the follower are numbered from 16. -/
  track : Bool
  sectors : List Nat
  tilesW : List Nat
  deriving DecidableEq, Repr

/-- Why a block is stopping (17 R364, R368). -/
inductive Stopping where
  | none
  /-- Pre-empted; the group that trapped, if a trap under DEBUG did it. -/
  | preempt (trap : Option Nat)
  /-- Terminated by a fault; the record it still has to write. -/
  | terminate (f : Option (Nat × BitVec 57 × FaultInfo))
  deriving DecidableEq, Repr

/-- The protection of a block (21 R414, R415): the checkpoint, whether the interval has rolled back once, and the
barrier slots whose completion waits for a checkpoint. -/
structure Prot where
  on : Bool
  sealed : Bool
  rolledBack : Bool
  pending : List Nat
  ckpt : Option BlkState
  deriving DecidableEq, Repr

/-- No protection. -/
def Prot.off : Prot := ⟨false, false, false, [], none⟩

/-- A resident block: its state, where it runs and what its packet set (01 R26 to R29, 15 R317). -/
structure Block where
  st : BlkState
  launch : Nat
  index : Nat
  asid : Nat
  cl : Nat
  co : Nat
  pair : Bool
  spec : Option Nat
  scratchSize : Nat
  tiles : Nat
  nregs : Nat
  entry : BitVec 57
  nf : Nat
  widths : List Nat
  qpkt : W64
  ftz : Bool
  protect : Bool
  scbOffset : BitVec 21
  prot : Prot
  stopping : Stopping
  order : Nat
  deriving DecidableEq, Repr

end Sys2Proof.Machine
end

