-- ==== Sys2Proof/Machine/MemState.lean ====
section
/-! DEFINITION. The state of cores and clusters (09 R263 to R270, 21 R410, R421), the memory system
(06 R143, 09 R268, 17 R359) and the copies in flight (07 R189 to R198). -/

namespace Sys2Proof.Machine

/-- The twelve functions of ATOM (06 R160), as a held act carries them. -/
inductive AFn where
  | add
  | fadd
  | and
  | or
  | xor
  | min
  | max
  | umin
  | umax
  | exch
  | cas
  | incw
  deriving DecidableEq, Repr

/-- Where a global access is performed (06 R143, R163). -/
inductive Place where
  | cache
  | l2
  | slice
  | remote (chip : Nat)
  deriving DecidableEq, Repr

/-- Which lane receives a result that comes after the word issued, in which register, with which taint, and in
which predicate pair or predicate a status goes. -/
structure Ret where
  lane : Nat
  d : Option Reg
  taint : Bool
  pair : Option PPair
  pred : Option (BitVec 3)
  deriving DecidableEq, Repr

/-- How a store goes to the cluster cache: a miss fills it, it goes through to the L2, or only a hit stays in the cache (06 R143, 02
R52). -/
inductive WriteWay where
  | back
  | through
  | around
  deriving DecidableEq, Repr

/-- An act held in a core until 160 local cycles after its word issued (06 R147, 21 R410). -/
inductive Act where
  /-- A store of bytes at a physical address. -/
  | store (place : Place) (way : WriteWay) (pa : Nat) (bytes : List Byte)
  /-- An ATOM or RED; `wide` is the 8-byte size. -/
  | atom (fn : AFn) (place : Place) (pa : Nat) (wide : Bool) (b c : W64) (ret : Option Ret)
  | casc (place : Place) (pa : Nat) (ea b new : W64) (task : W64) (ret : Ret)
  | decc (place : Place) (pa : Nat) (ea b : W64) (task : W64) (ret : Ret)
  /-- A load of global memory of this chip that is not performed yet (11 R289): whether it reads as an LDB, and whether a miss
  fills the cluster cache (02 R52). -/
  | load (place : Place) (ldb keep : Bool) (pa n : Nat) (ret : Ret)
  /-- A remote load, which is not held back by other acts' homes. -/
  | rload (chip pa n : Nat) (ret : List Ret)
  /-- A read of a WAITC on another chip (19 R392). -/
  | rwait (chip pa : Nat) (wide : Bool)
  /-- The hand-off of a copy to an engine. -/
  | handoff (copy : Nat)
  /-- An enqueue: QCB physical address, the packet body. -/
  | enq (qcb : Nat) (body : List W64) (ret : Ret)
  deriving DecidableEq, Repr

/-- A held act with its issue cycle, the PC, lane and address of its word, and the release and acquire actions that
go with it. -/
structure Held where
  issued : Nat
  blk : Nat
  grp : Nat
  lane : Nat
  pc : BitVec 57
  ea : W64
  rel : Option (AScope × SScope)
  acq : Option (AScope × SScope)
  act : Act
  deriving DecidableEq, Repr

/-- An entry of the journal: the state of a block before the word that issued in a local cycle (21 R410). -/
structure JEntry where
  cycle : Nat
  blk : Nat
  st : BlkState
  prot : Prot
  deriving DecidableEq, Repr

/-- Resources of a core: groups, bytes of the register file, bytes of scratch, tiles, block positions (09 R259). -/
structure Load where
  groups : Nat
  regBytes : Nat
  scratch : Nat
  tiles : Nat
  blocks : Nat
  deriving DecidableEq, Repr

/-- Nothing. -/
def Load.zero : Load := ⟨0, 0, 0, 0, 0⟩

/-- Counters of a core for one context (08 R253). -/
structure CorePerf where
  slips : BitVec 64
  assists : BitVec 64
  rewinds : BitVec 64
  mmas : BitVec 64
  copies : BitVec 64
  deriving DecidableEq, Repr

/-- No event counted. -/
def CorePerf.zero : CorePerf := ⟨0, 0, 0, 0, 0⟩

/-- Counts with what a group adds. -/
def CorePerf.plus (p : CorePerf) (t : Tally) : CorePerf := { p with slips := p.slips + t.slips, assists := p.assists + t.assists, mmas := p.mmas + t.mmas }

/-- Counts without what a group had added, and with what it has added now. -/
def CorePerf.back (p : CorePerf) (old new : Tally) : CorePerf :=
  { p with
    slips := p.slips - (old.slips - new.slips)
    assists := p.assists - (old.assists - new.assists)
    mmas := p.mmas - (old.mmas - new.mmas) }

/-- Whether a core serves (21 R421). -/
inductive Service where
  | serving
  /-- Marginal: its blocks leave. -/
  | leaving
  /-- In its self-test since the cycle named. -/
  | out (since : Nat)
  | retired
  deriving DecidableEq, Repr

/-- A core (09 R259, 21 R410, R421). `perf` is keyed by ASID, and by 1,024 plus the number of a speculation, whose counts are the
context's once it is claimed (16 R353); `zeroing` are the freed resources that are not zeroed yet (17 R376). -/
structure CoreState where
  split : Nat
  bin : Nat
  service : Service
  binTurn : Nat
  perf : KMap CorePerf
  held : List Held
  journal : List JEntry
  zeroing : Load
  nextOrder : Nat
  /-- The local cycle at which the last rewind began, and its target (21 R411). -/
  lastStrike : Option (Nat × Nat)
  /-- The micro-TLB: leaf entries by `trKey` (17 R359). -/
  utlb : KMap W64
  /-- The local cycles of its margin alarms and of its corrected errors in the last 2^40, and how many errors ECC has corrected (21 R409, R421). -/
  alarms : List Nat
  corrected : List Nat
  corrections : Nat
  deriving DecidableEq, Repr

/-- A core at reset: SRAM split 768/256 (log 13). -/
def CoreState.init : CoreState := ⟨768, 0, .serving, 0, [], [], [], Load.zero, 0, none, [], [], [], 0⟩

/-- A budget word (09 R267), with the class whose values it takes at the next period start. -/
structure Budget where
  used : Nat
  ceil : Nat
  res : Nat
  cls : Nat
  deriving DecidableEq, Repr

/-- A cluster: local count, whose issue turn it is, budgets, misses, clock step below nominal (09, 21 R428). -/
structure ClusterState where
  clk : Nat
  turn : Nat
  budgets : KMap Budget
  icMiss : KMap (BitVec 64)
  period : Nat
  steps : Nat
  deriving DecidableEq, Repr

/-- A cluster at reset. -/
def ClusterState.init : ClusterState := ⟨0, 0, [], [], 0, 0⟩

/-- A sector of a cluster cache: 64 bytes, which of them the cluster wrote, poison, and the lanes that made it dirty as
block, group and lane (07 R191, 11 R297, 21 R412). -/
structure Sector where
  data : BitVec 512
  dirty : BitVec 64
  poison : Bool
  writers : List (Nat × Nat × Nat)
  deriving DecidableEq, Repr

/-- A monitor of a sleeping WAITC (06 R170): the group, and a sector of memory or of the block's scratch. -/
structure Monitor where
  blk : Nat
  grp : Nat
  cl : Nat
  co : Nat
  scratch : Bool
  sector : Nat
  deriving DecidableEq, Repr

/-- The cocoon of a speculation (16 R345, R346): its lines of 256 bytes with the bytes that it wrote, its sectors that a delivery of
bad data poisoned (21 R412), the lines it watches, whether another party spoiled it, and the sectors that engines own for its own copies
and batches (07 R193, R207). -/
structure Cocoon where
  lines : KMap (BitVec 2048 × BitVec 256)
  bad : List Nat
  watch : List Nat
  spoiled : Bool
  owned : List Nat
  deriving DecidableEq, Repr

/-- The memory system (06 R143). `mem` is memory at its home: HBM by physical address, and host memory at
physical addresses with bit 51 set. The keys of `cc` are 2^46 times the cluster plus the sector number; of
`icache`, 2^60 times the cluster plus 2^49 times the ASID plus the virtual line number; of `tlb`, the cluster TLBs, 2^53 times the
cluster plus `trKey`; of `wcache`, the walker caches of the dies, `wcKey` (17 R359). `qcbs` are the addresses of the QCBs, `kicked` those whose KICK
word was written (15 R327). -/
structure MemSys where
  mem : Mem
  poison : List Nat
  cc : KMap Sector
  icache : KMap (List W64 × BitVec 4)
  tlb : KMap W64
  wcache : KMap W64
  copies : KMap CopyOp
  /-- Sectors whose ownership an engine holds (07 R191, R207). -/
  owned : List Nat
  monitors : List Monitor
  /-- Groups whose monitor was written. -/
  fired : List (Nat × Nat)
  cocoons : KMap Cocoon
  qcbs : List Nat
  kicked : List Nat
  /-- The sectors that parked WAITSIGs watch, by queue, and the queues whose sector was written (15 R327). -/
  sigWatch : KMap Nat
  sigHit : List Nat
  deriving DecidableEq, Repr

end Sys2Proof.Machine
end

