-- ==== Sys2Proof/Machine/QueueState.lean ====
section
/-! DEFINITION. The state of contexts and faults (17), queues, slots and launches (15), the launch predictor
(16), continuations and the fabric (19), and firmware, links and power (21). -/

namespace Sys2Proof.Machine

/-- A continuation-table entry (19 R385): FIELDS, the three flags, TARGET, RES and DESC. -/
structure ContEnt where
  fields : W64
  ftz : Bool
  pair : Bool
  coop : Bool
  target : W64
  res : W64
  desc : W64
  deriving DecidableEq, Repr

/-- A context (17 R354): root table, the physical address of the fault ring, its records that the host has not read, how many it
has read, dropped records (17 R365), budget classes, quota on each slice (19 R388), continuation tables, keyed by 256 times
the slice plus the index (19 R385), the pages of this chip that a translation has reached, as virtual address, physical address and
size (17 R376), and, in a teardown, whether the fabric has drained (19 R396). -/
structure Ctx where
  root : Nat
  debug : Bool
  fn : Nat
  ringAt : Nat
  ring : List (List W64)
  ringRead : Nat
  dropped : Nat
  classes : KMap (Nat × Nat)
  quota : Nat
  conts : KMap ContEnt
  mapped : List (Nat × Nat × Nat)
  tearing : Bool
  drained : Bool
  deriving DecidableEq, Repr

/-- Who waits for a host reply on a page (17 R363). -/
inductive Waiter where
  | group (blk grp : Nat)
  | fetcher (q : Nat)
  /-- A signal write of a packet. -/
  | signal (id : Nat)
  deriving DecidableEq, Repr

/-- A fault posted to the host driver's fault queue (17 R363). -/
structure Posted where
  asid : Nat
  page : Nat
  code : FaultCode
  who : Waiter
  deriving DecidableEq, Repr

/-- A save image (17 R370): the block, the number that it keeps, and the address of the image in the save area of its queue. -/
structure SaveImg where
  blk : Block
  id : Nat
  addr : Nat
  /-- The group that trapped, when a trap under DEBUG made the image. -/
  trap : Option Nat
  resume : Bool
  deriving DecidableEq, Repr

/-- What the brood posts or reports to the host. -/
inductive HostEvent where
  /-- F3: a packet was rejected (15 R322). -/
  | rejected (q : Nat) (err : Nat) (pos : Nat)
  /-- F3: a fault was delivered (17 R364). -/
  | faulted (q : Nat)
  /-- F2: a fault was posted (17 R363). -/
  | pageFault (asid page : Nat)
  /-- F3: a continuation task was dropped (19 R390). -/
  | contDrop (asid : Nat) (ea : W64) (tag : BitVec 32)
  /-- F0: tasks discarded by a teardown (17 R378). -/
  | tasksDiscarded (asid n : Nat)
  /-- F0: a command was refused (17 R354). -/
  | cmdError
  /-- F0: a command is complete. -/
  | cmdDone
  /-- F5: a throttle step (21 R428). -/
  | throttle (cl : Nat) (down : Bool)
  /-- F0: cores in service and bins of a cluster (21 R422). -/
  | occupancy (cl : Nat) (bins : List Nat)
  /-- F6: an attestation report and its signature (21 R425). -/
  | attestation (report : List Byte)
  /-- F4: the fabric has drained (19 R396). -/
  | quiesced
  /-- The CXL answer to a host access. -/
  | cxl (bytes : List Byte) (poison : Bool)
  deriving DecidableEq, Repr

/-- The states of a queue (15 R323). -/
inductive QState where
  | dead
  | idle
  | ready
  | mapped
  | unmapping
  | error
  deriving DecidableEq, Repr

/-- The packet that a fetcher has read and not yet handed on (15 R323, FSTATE). -/
inductive Fetch where
  | none
  /-- A LAUNCH or a replica whose checks have passed: position, words, descriptor. -/
  | launch (pos : Nat) (w : List W64) (desc : List W64) (joined : Bool)
  /-- A parked WAITSIG: position, address, operand, condition, ACQSC, and the value that another chip sent. -/
  | waitsig (pos : Nat) (va b : W64) (cc : WCond) (acq : AScope) (got : Option W64)
  deriving DecidableEq, Repr

/-- What a packet that is accepted still has to do (15 R319, R336, R431, 19 R386). -/
inductive PendKind where
  | signal
  | nop
  /-- A CONTREG that not every slice holds yet: its index, its entry, none to clear it, and the act that fixes which slices hold it
  early. -/
  | contreg (idx : Nat) (ent : Option ContEnt) (act : Nat)
  /-- The decrement of a completed launch or of a rejected packet, whose translation failed. -/
  | late
  deriving DecidableEq, Repr

/-- A packet that still has a write to make once its turn comes (15 R319, R431): after the launches and the writes that
came before it. -/
structure PendWrite where
  kind : PendKind
  afterL : List Nat
  afterP : List Nat
  q : Nat
  pos : Nat
  /-- Virtual address, operation (0 store, 1 add, 2 subtract) and value. -/
  va : W64
  op : Nat
  v : W64
  rel : Option AScope
  deriving DecidableEq, Repr

/-- A replica of a LAUNCHX in the ring of a fabric queue: its position, coordinator and generation, and whether ABORT has come
for it (19 R398, R399). -/
structure Replica where
  pos : Nat
  src : Nat
  gen : Nat
  aborted : Bool
  deriving DecidableEq, Repr

/-- The kernel descriptor of a packet on a page of another chip: asked for, received, or not to be had (15 R320; log 53). -/
inductive FarDesc where
  | none
  | asked (chip pa : Nat)
  | got (chip pa : Nat) (bytes : List Byte)
  | failed (chip pa : Nat)
  deriving DecidableEq, Repr

/-- A queue and its control block (15 R323). CONS, RESV, HELD and KICK stand in memory at `pa`. -/
structure Queue where
  asid : Nat
  handle : W64
  pa : Nat
  base : W64
  gang : Nat
  classmask : BitVec 16
  bpri : Nat
  log2n : Nat
  st : QState
  pend : Bool
  eph : Bool
  slot : Nat
  err : Nat
  errpos : Nat
  age : Nat
  savea : W64
  /-- FSTATE in the QCB: none before the first unmap, else the act that wrote it, since its layout is not given. -/
  fstate : Option Nat
  /-- A reset that waits for the launches and blocks of the queue (15 R432). -/
  resetDue : Bool
  fetch : Fetch
  /-- Step of the unmap sequence under way, 0 when none (15 R328). -/
  step : Nat
  waiting : Bool
  /-- Fabric queue: domain queue number and the next generation (19 R397, R399). -/
  dq : Option Nat
  gen : Nat
  /-- Replicas that F4 wrote and that have neither started nor been rejected (19 R398, R399). -/
  replicas : List Replica
  /-- The descriptor of the next packet, if it lies on another chip. -/
  desc : FarDesc
  deriving DecidableEq, Repr

/-- A history entry: the 24 fields of a launch (16 R337). -/
abbrev Hist := List W64

/-- A successor entry (16 R338): key, successor, confidence, classes with steps (0 unpredicted, 1 constant, 2
stride), last use. -/
structure Succ where
  prev1 : W64
  prev2 : W64
  next : W64
  conf : Nat
  cls : List (Nat × Int)
  used : Nat
  deriving DecidableEq, Repr

/-- A replica of the queue has joined, and waits for START or ABORT (19 R399). -/
def Fetch.joined : Fetch → Bool
  | .launch _ _ _ true => true
  | _ => false

/-- A hardware slot (15 R328, 16 R337). -/
structure SlotState where
  q : Option Nat
  pending : Bool
  /-- The fetcher has something to read: a wake or a monitor match. -/
  woken : Bool
  hist : List Hist
  succ : List Succ
  key1 : W64
  key2 : W64
  deriving DecidableEq, Repr

/-- A free slot. -/
def SlotState.free : SlotState := ⟨none, false, false, [], [], 0, 0⟩

/-- A launch (15 R333 to R336). -/
structure Launch where
  q : Nat
  asid : Nat
  pos : Nat
  w : List W64
  desc : List W64
  total : Nat
  /-- Blocks handed to clusters, in ascending index. -/
  handed : Nat
  lastCl : Option Nat
  /-- Chunks of each cluster whose blocks are not all placed. -/
  chunks : KMap (List (List Nat))
  ended : Nat
  terminated : Bool
  children : Nat
  coop : Bool
  /-- Watchdog count, the waits that repairs excused, as stream, when the repair began and cycles, and whether in this cycle a copy
  delivered or a batch retired, and whether a word issued (19 R401, R402). -/
  wdog : Nat
  excused : List (Nat × Nat × Nat)
  active : Bool
  issued : Bool
  spec : Option Nat
  deriving DecidableEq, Repr

/-- A speculation (16 R342 to R348). -/
structure Spec where
  slot : Nat
  launch : Nat
  fields : List (Option W64)
  qpkt : W64
  charge : KMap Nat
  completedAt : Option Nat
  deriving DecidableEq, Repr

/-- Why a speculation is discarded (16 R343, R346 to R349). -/
inductive SpecEnd where
  /-- An access, a word or a fault that a speculation may not make. -/
  | abort
  /-- Its cocoon is too large. -/
  | full
  /-- Another party wrote a line that it watches, or its directory entry went. -/
  | spoiled
  /-- 64 periods after it completed. -/
  | timeout
  /-- The packet differs from the prediction. -/
  | mismatch
  /-- Real work needs its core. -/
  | displaced
  /-- Its slot is unmapped. -/
  | unmapped
  /-- Its context is torn down. -/
  | teardown
  deriving DecidableEq, Repr

/-- What F7 counts for a slot: speculations begun, claimed, and discarded with their causes, newest first (16 R353). -/
structure Tele where
  begun : Nat
  claimed : Nat
  discarded : List SpecEnd
  deriving DecidableEq, Repr

/-- An invalidate command under way (17 R360): the acts that must be performed first, as core and local cycle, the messages to
other chips, the copies, the copies of copy words that still wait for a slot, as block, group and lane, and the batches as block, group and
number. -/
structure Inval where
  asid : Nat
  va : Nat
  size : Nat
  acts : List (Nat × Nat)
  msgs : List Msg
  copies : List Nat
  plans : List (Nat × Nat × Nat)
  batches : List (Nat × Nat × BitVec 32)
  deriving DecidableEq, Repr

/-- Queues, slots, launches, speculations (15, 16). -/
structure QueueSys where
  queues : KMap Queue
  slots : KMap SlotState
  launches : KMap Launch
  pendW : KMap PendWrite
  specs : KMap Spec
  keptSucc : KMap (List Succ)
  /-- F7's counts, by slot (16 R353). -/
  tele : KMap Tele
  /-- Timeslices of 16 periods of cluster 0 already served (15 R330). -/
  slices : Nat
  wantDecision : Bool
  hostEvents : List HostEvent
  deriving DecidableEq, Repr

/-- A task in the FIFO of a slice (19 R387 to R389). -/
structure Task where
  asid : Nat
  ent : ContEnt
  old : W64
  ea : W64
  tag : BitVec 32
  chip : Nat
  decc : Bool
  deriving DecidableEq, Repr

/-- What a source keeps for an unacknowledged message (19 R394): the lane and the word that sent it, and where its
answer goes. -/
structure OutMsg where
  m : Msg
  blk : Option Nat
  grp : Nat
  lane : Nat
  pc : BitVec 57
  ea : W64
  rets : List Ret
  acq : Option (AScope × SScope)
  /-- The local cycle at which the word issued. -/
  issued : Nat
  deriving DecidableEq, Repr

/-- A response or an acknowledgement: the chip that asked, the channel and number of the message it answers, its own number on its
response stream, and what it carries (19 R393 to R395). -/
structure Answer where
  dst : Nat
  vc : Nat
  seq : BitVec 32
  rseq : BitVec 32
  r : RemoteReply
  tag : Bool
  deriving DecidableEq, Repr

/-- The receiving end of a stream (19 R395): NEXT, messages held, numbers performed ahead of it, and the answers to the last 1,024
messages performed, for duplicates. -/
structure InStream where
  next : BitVec 32
  held : List Msg
  done : List (BitVec 32)
  results : List Answer
  deriving DecidableEq, Repr

/-- The receiving end of a response stream: NEXT, answers held, numbers taken ahead of it (19 R393). -/
structure AckStream where
  next : BitVec 32
  held : List Answer
  done : List (BitVec 32)
  deriving DecidableEq, Repr

/-- Why F4 drains the fabric (19 R396). -/
inductive DrainWhy where
  | quiesce
  | teardown (asid : Nat)
  | leave (chip : Nat)
  deriving DecidableEq, Repr

/-- An import range (19 R391). -/
structure ImportEnt where
  chip : Nat
  asid : Nat
  base : Nat
  size : Nat
  localAsid : Nat
  deriving DecidableEq, Repr

/-- A joint launch at its coordinator or at a chip that waits (19 R399). -/
structure Join where
  dq : Nat
  gen : Nat
  mask : BitVec 64
  joined : List Nat
  started : Bool
  aborted : Bool
  since : Nat
  limit : Nat
  deriving DecidableEq, Repr

/-- The fabric (19 R391 to R400). Streams to or from chip d on channel v are keyed by 8 times d plus v. `repair` gives,
for a stream under repair, when the repair began; `probes` are the streams with a flush probe under way; `drains` the drains that
F4 was asked for, the first of them under way; `f4` the messages of F4 that wait for room in their streams, by chip. -/
structure Fabric where
  chip : Nat
  chips : List Nat
  outSeq : KMap (BitVec 32)
  retry : List OutMsg
  ins : KMap InStream
  acks : KMap AckStream
  imports : List ImportEnt
  tag : Bool
  quiet : List Nat
  repair : KMap Nat
  unreachable : List Nat
  probes : List Nat
  drains : List DrainWhy
  f4 : List (Nat × Nat × RemoteOp)
  joins : List Join
  /-- Messages and answers on their way out to the domain. -/
  outbox : List Msg
  answers : List Answer
  /-- This chip has turned its tag for a phase that another chip drains, and has not reported quiet yet; and its reports on their way out,
  each with the tag for which it is quiet (19 R396). -/
  joined : Bool
  reports : List Bool
  deriving DecidableEq, Repr

/-- A Clayron Link port (21 R418, R419): lanes, state, failed retries of one flit, last flit, repair done. -/
structure Port where
  lanes : Nat
  up : Bool
  retries : Nat
  lastFlit : Nat
  goodSince : Nat
  deriving DecidableEq, Repr

/-- Firmware trust (21 R423 to R426). -/
structure Firmware where
  m0 : BitVec 256
  m1 : BitVec 256
  m2 : BitVec 256
  m3 : BitVec 256
  versions : List (BitVec 32)
  fuses : List (BitVec 32)
  serial : W64
  /-- Kinds of image accepted since the last cold reset. -/
  loaded : List Nat
  recovery : Bool
  linkReady : Bool
  /-- Images accepted in recovery mode that wait for their turn, since measuring goes in KIND order (21 R424, R425). -/
  waiting : List Image
  /-- A device reset is under way: contexts are being torn down (21 R426). -/
  resetting : Bool
  deriving DecidableEq, Repr

/-- Power (21 R427, R428). -/
structure Power where
  cap : Nat
  deriving DecidableEq, Repr

end Sys2Proof.Machine
end

