-- ==== Sys2Proof/Machine/State.lean ====
section
/-! DEFINITION. The machine state, the reasons a step can stop, and the state after reset. -/

namespace Sys2Proof.Machine

/-- Why the machine stops. -/
inductive Fault where
  /-- Raised by a word of a program when no group issues it: a situation that no step of the part reaches,
  since words run only for the group that the issue logic chose. Safe: the run stops. -/
  | noIssuingGroup
  deriving DecidableEq, Repr

/-- Why the model gives an instruction no meaning. -/
inductive Refusal where
  /-- Raised by the dispatch table alone, for an instruction whose meaning is not written. Safe: the run
  stops. -/
  | notModelled (mnemonic : String)
  deriving DecidableEq, Repr

/-- The word chosen for issue: block, group, slot (09 R266). -/
structure Focus where
  blk : Nat
  grp : Nat
  slot : Bool
  deriving DecidableEq, Repr

/-- The whole part. Clusters are keyed 0 to 95, cores by 8 times the cluster plus the core. `inputs` holds what
the outside world still does, `tick` counts the choices of what happens next, `free` the free values taken. -/
structure State where
  focus : Option Focus
  blocks : KMap Block
  clusters : KMap ClusterState
  cores : KMap CoreState
  ms : MemSys
  ctxs : KMap Ctx
  faultQ : List Posted
  invals : List Inval
  saved : KMap SaveImg
  qs : QueueSys
  fifos : KMap (List Task)
  fab : Fabric
  ports : KMap Port
  fw : Firmware
  power : Power
  inputs : List Instr
  tick : Nat
  free : Nat
  deriving DecidableEq, Repr

/-- What a meaning answers. -/
abbrev Out := Host.Outcome State Fault Refusal

/-- The memory system at reset: every byte zero, every cache empty (21 R426). -/
def MemSys.init : MemSys := ⟨[], [], [], [], [], [], [], [], [], [], [], [], [], [], []⟩

/-- No queue, launch or speculation (15 R323). -/
def QueueSys.init : QueueSys := ⟨[], [], [], [], [], [], [], 0, false, []⟩

/-- The fabric at reset: one chip, number 0, every stream at 0 (19 R393; log 14). -/
def Fabric.init : Fabric := ⟨0, [0], [], [], [], [], [], false, [], [], [], [], [], [], [], [], [], false, []⟩

/-- Firmware state at reset: measurement registers zero (21 R424; log 15). -/
def Firmware.init : Firmware := ⟨0, 0, 0, 0, [], [], 0, [], false, false, [], false⟩

/-- The part right after a cold reset and its bring-up (21 R426). -/
def State.reset : State where
  focus := none
  blocks := []
  clusters := []
  cores := []
  ms := MemSys.init
  ctxs := []
  faultQ := []
  invals := []
  saved := []
  qs := QueueSys.init
  fifos := []
  fab := Fabric.init
  ports := []
  fw := Firmware.init
  power := ⟨3600⟩
  inputs := []
  tick := 0
  free := 0

end Sys2Proof.Machine
end

