-- ==== Sys2Proof/Machine/Operands.lean ====
section
/-! DEFINITION. Reading and writing the registers, predicates and latches of a lane (01 R9 to R20), and every operand
form: source codes, inline constants and modifiers (02 R35 to R41). -/

namespace Sys2Proof.Machine

/-! ### Lanes -/

/-- A general register. -/
def Lane.reg (l : Lane) (r : Reg) : W64 := l.regs.getD r.toNat 0

/-- The taint of a register. -/
def Lane.tnt (l : Lane) (r : Reg) : Bool := l.taint.getLsbD r.toNat

/-- Write a register with its taint (01 R13). -/
def Lane.setReg (l : Lane) (r : Reg) (v : W64) (t : Bool) : Lane :=
  { l with
    regs := KMap.putD 0 l.regs r.toNat v
    taint := if t then l.taint ||| ((1 : W64) <<< r.toNat) else l.taint &&& ~~~ ((1 : W64) <<< r.toNat) }

/-- A predicate; p7 always reads true (01 R12). -/
def Lane.pr (l : Lane) (p : BitVec 3) : Bool := p == 7 || l.pred.getLsbD p.toNat

/-- Write a predicate; a write to p7 is discarded (01 R12). -/
def Lane.setPred (l : Lane) (p : BitVec 3) (b : Bool) : Lane :=
  if p = 7 then l
  else
    { l with pred := if b then l.pred ||| ((1 : BitVec 7) <<< p.toNat) else l.pred &&& ~~~ ((1 : BitVec 7) <<< p.toNat) }

/-- A predicate operand (02 R57). -/
def Lane.predOp (l : Lane) (q : PredOp) : Bool := l.pr q.p != q.neg

/-- The lane at a position; a position past the end holds no lane. -/
def Group.lane (g : Group) (k : Nat) : Lane := (g.lanes[k]?).getD Lane.empty

/-- Change one lane. -/
def Group.setLane (g : Group) (k : Nat) (l : Lane) : Group := { g with lanes := g.lanes.set k l }

/-- Change every lane by its number. -/
def Group.mapLanes (g : Group) (f : Nat → Lane → Lane) : Group := { g with lanes := g.lanes.mapIdx f }

/-! ### Slots -/

/-- The PC slot that issues. -/
def Group.pcSlot (g : Group) (slot : Bool) : PcSlot := if slot then g.slot1 else g.slot0

/-- Replace a PC slot. -/
def Group.setSlot (g : Group) (slot : Bool) (p : PcSlot) : Group :=
  if slot then { g with slot1 := p } else { g with slot0 := p }

/-- An entry in a slot, whose word has not started. -/
def slotAt (e : Entry) : PcSlot := ⟨e, .none, 0, 0, 0, false, [], []⟩

/-- An empty slot. -/
def PcSlot.empty : PcSlot := slotAt ⟨0, 0⟩

/-- The guard of a full word in a lane (02 R35). -/
def Lane.guard (l : Lane) (c : Ctl) : Bool := (l.pr c.ga != c.na) && (l.pr c.gb != c.nb)

/-- The lane is in the issuing entry. -/
def Group.inEntry (g : Group) (slot : Bool) (k : Nat) : Bool :=
  (g.pcSlot slot).e.mask.getLsbD k && (g.lane k).present

/-- The lane executes the word (02 R35). -/
def Group.runs (g : Group) (slot : Bool) (c : Ctl) (k : Nat) : Bool := g.inEntry slot k && (g.lane k).guard c

/-- The executing lanes in ascending order (00 R7). -/
def Group.active (g : Group) (slot : Bool) (c : Ctl) : List Nat := (List.range 32).filter fun k => g.runs slot c k

/-- A mask from a test of lane numbers. -/
def maskOf (p : Nat → Bool) : Mask :=
  (List.range 32).foldl (fun m k => if p k then m ||| ((1 : Mask) <<< k) else m) 0

/-! ### Latches (01 R20) -/

/-- The register that a latch records. -/
def Group.latch (g : Group) (n : BitVec 2) : Option Reg :=
  if n = 0 then g.l0 else if n = 1 then g.l1 else if n = 2 then g.l2 else g.l3

/-- Shift the records down for a word whose result is `r` (01 R20). -/
def Group.shiftLatch (g : Group) (r : Reg) : Group := { g with l3 := g.l2, l2 := g.l1, l1 := g.l0, l0 := some r }

/-! ### How a function reads its operands (02 R38, R39) -/

/-- An integer TYPE with the extension of lo and hi for i64, or a float TYPE. -/
inductive Rd where
  | int (t : IType) (sx : Bool)
  | flt (t : FType)
  deriving DecidableEq, Repr

/-- A class that does not use TYPE, or reads it as a size (02 R38). -/
def Rd.raw : Rd := .int .i64 false

/-- The format of a float TYPE (02 R40). -/
def fmtOf : FType → FFmt
  | .f64 => .f64
  | .f32x2 => .f32
  | .bf16x4 => .bf16
  | .f16x4 => .f16
  | .f8e4x8 => .e4m3
  | .f8e5x8 => .e5m2

/-- The sub-element width of a reading. -/
def Rd.width : Rd → Nat
  | .int t _ => t.width
  | .flt t => (fmtOf t).width

/-- An inline constant in one sub-element (02 R38). -/
def constElem (rd : Rd) (k : Int) : Nat :=
  match rd with
  | .int t _ => (BitVec.ofInt t.width k).toNat
  | .flt t => ((fmtOf t).deliver .rne false (decide (k < 0)) k.natAbs 0).bits

/-- An inline constant fills the operand (02 R38). -/
def fillConst (rd : Rd) (k : Fin 48) : W64 := pack rd.width fun _ => BitVec.ofNat rd.width (constElem rd ((k.val : Int) - 16))

/-- FP32 bits widened exactly to FP64 (02 R39): a NaN keeps its payload and its quiet bit. A subnormal half is widened exactly under FTZ too:
03 R77 flushes an input of the word, which is the FP64 value (DESIGN CHOICE, log 127). -/
def widen32 (x : BitVec 32) : W64 :=
  match FFmt.f32.decode x.toNat with
  | .nan _ => ((x &&& 0x80000000).setWidth 64 <<< 32) ||| 0x7FF0000000000000 ||| ((x &&& 0x7FFFFF).setWidth 64 <<< 29)
  | v => BitVec.ofNat 64 (FFmt.f64.ofVal .rne false v).bits

/-- The low or high 32 bits under a reading (02 R39). -/
def halfOf (rd : Rd) (x : BitVec 32) : W64 :=
  match rd with
  | .int .i64 true => x.signExtend 64
  | .int .i64 false => x.setWidth 64
  | .flt .f64 => widen32 x
  | _ => x ++ x

/-- Adjacent sub-elements swapped in pairs; the 32-bit halves for a 64-bit type (02 R39). -/
def swapPairs (rd : Rd) (x : W64) : W64 :=
  if rd.width = 64 then x.rotateLeft 32
  else pack rd.width fun i => sub rd.width (if i % 2 = 0 then i + 1 else i - 1) x

/-- Apply a modifier (02 R39). -/
def applyMd (rd : Rd) (m : Md) (x : W64) : W64 :=
  match m with
  | .whole => x
  | .lo => halfOf rd (x.extractLsb' 0 32)
  | .hi => halfOf rd (x.extractLsb' 32 32)
  | .sw => swapPairs rd x

/-- The value of a source in a lane (02 R37). -/
def Group.src (g : Group) (rd : Rd) (x : Src) (k : Nat) : W64 :=
  match x with
  | .reg r => (g.lane k).reg r
  | .latch n =>
    match g.latch n with
    | some r => (g.lane k).reg r
    | none => 0
  | .zero => 0
  | .lane => BitVec.ofNat 64 k
  | .ones => BitVec.allOnes 64
  | .imm c => fillConst rd c

/-- The taint of a source in a lane (02 R37). -/
def Group.srcTaint (g : Group) (x : Src) (k : Nat) : Bool :=
  match x with
  | .reg r => (g.lane k).tnt r
  | .latch n =>
    match g.latch n with
    | some r => (g.lane k).tnt r
    | none => false
  | _ => false

/-- The value of an operand in a lane. -/
def Group.opnd (g : Group) (rd : Rd) (o : Opnd) (k : Nat) : W64 := applyMd rd o.md (g.src rd o.src k)

/-- The taint of an operand in a lane. -/
def Group.opndTaint (g : Group) (o : Opnd) (k : Nat) : Bool := g.srcTaint o.src k

/-- The registers a source reads through, latches included: what the scoreboard looks at (02 R43). -/
def Group.srcRegs (g : Group) (x : Src) : List Nat :=
  match x with
  | .reg r => [r.toNat]
  | .latch n =>
    match g.latch n with
    | some r => [r.toNat]
    | none => []
  | _ => []

end Sys2Proof.Machine
end

