-- ==== Sys2Proof/Machine/Flags.lean ====
section
/-! DEFINITION. Float functions on the sub-elements of registers, and the flags and assist calls they make (01 R24, 03
R73 to R77, 05 R105). -/

namespace Sys2Proof.Machine

/-- What a word computes in one lane: the value, its taint, the flags it raises, and whether a result is tiny
(03 R75). -/
structure LaneRes where
  v : W64
  t : Bool
  fl : Flags
  assist : Bool
  deriving DecidableEq, Repr

/-- A result without flags. -/
def LaneRes.int (v : W64) (t : Bool) : LaneRes := ⟨v, t, 0, false⟩

/-- A float function on each sub-element of width `w` (05 R101). -/
def packF (w : Nat) (t : Bool) (g : Nat → FRes) : LaneRes :=
  ⟨pack w fun i => BitVec.ofNat w (g i).bits, t,
    (List.range (64 / w)).foldl (fun a i => a ||| (g i).fl) 0,
    (List.range (64 / w)).any fun i => (g i).assist⟩

/-- Sub-element `i` of a register as a value of a format, under FTZ or not (03 R77). -/
def fsub (f : FFmt) (ftz : Bool) (i : Nat) (x : W64) : FVal := f.read ftz (sub f.width i x).toNat

/-- The flags of a word: the OR over its executing lanes (01 R24). -/
def orFlags (lanes : List Nat) (f : Nat → LaneRes) : Flags := lanes.foldl (fun a k => a ||| (f k).fl) 0

/-- Whether any executing lane has a tiny result (03 R75). -/
def anyAssist (lanes : List Nat) (f : Nat → LaneRes) : Bool := lanes.any fun k => (f k).assist

/-- OR flags into FLG (01 R24). -/
def Group.addFlags (g : Group) (fl : Flags) : Group := { g with flg := g.flg ||| fl }

end Sys2Proof.Machine
end

