-- ==== Sys2Proof/Machine/Groups.lean ====
section
/-! DEFINITION. Clusters, cores and blocks of the state; the scratchpad; entries, the divergence stack and the rules
that move entries (01 R18, R19, 08 R217 to R220). -/

namespace Sys2Proof.Machine

/-! ### Parts of the state -/

/-- The key of a core. -/
def coreKey (cl co : Nat) : Nat := 8 * cl + co

/-- A cluster. -/
def State.cluster (s : State) (cl : Nat) : ClusterState := s.clusters.getD cl ClusterState.init

/-- A core. -/
def State.core (s : State) (cl co : Nat) : CoreState := s.cores.getD (coreKey cl co) CoreState.init

/-- Replace a cluster. -/
def State.setCluster (s : State) (cl : Nat) (c : ClusterState) : State :=
  { s with clusters := KMap.putD ClusterState.init s.clusters cl c }

/-- Replace a core. -/
def State.setCore (s : State) (cl co : Nat) (c : CoreState) : State :=
  { s with cores := KMap.putD CoreState.init s.cores (coreKey cl co) c }

/-- The local count of a cluster (00 R5). -/
def State.clk (s : State) (cl : Nat) : Nat := (s.cluster cl).clk

/-- Replace a block. -/
def State.setBlock (s : State) (id : Nat) (b : Block) : State := { s with blocks := s.blocks.put id b }

/-- A group of a block. -/
def BlkState.group? (st : BlkState) (gi : Nat) : Option Group := st.groups[gi]?

/-- Replace a group. -/
def BlkState.setGroup (st : BlkState) (gi : Nat) (g : Group) : BlkState := { st with groups := st.groups.set gi g }

/-- The core on which a group of a block runs: on a pair, the leader for the first half (09 R261). -/
def Block.coreOf (b : Block) (gi : Nat) : Nat := if b.pair && decide ((b.st.groups.length + 1) / 2 ≤ gi) then b.co + 1 else b.co

/-- What issues: the block, its key, the group, its number and the slot. -/
structure Cur where
  id : Nat
  blk : Block
  gi : Nat
  grp : Group
  slot : Bool
  deriving DecidableEq, Repr

/-- The group that a focus names. -/
def State.curOf (s : State) (f : Focus) : Option Cur :=
  (s.blocks.get? f.blk).bind fun b => (b.st.groups[f.grp]?).map fun g => ⟨f.blk, b, f.grp, g, f.slot⟩

/-- The group whose word was chosen for issue (09 R266). -/
def State.cur? (s : State) : Option Cur := s.focus.bind s.curOf

/-- The core of the issuing group. -/
def Cur.co (q : Cur) : Nat := q.blk.coreOf q.gi

/-- How many bytes of a pair's scratchpad are the leader's (09 R261). -/
def Block.leaderBytes (b : Block) : Nat := 16384 * ((b.scratchSize / 16384 + 1) / 2)

/-- Whether a scratch range of a pair reaches into the part of the core that the issuing group does not run on. -/
def Cur.reaches (q : Cur) (off n : Nat) : Bool :=
  q.blk.pair && (if q.co = q.blk.co then decide (q.blk.leaderBytes < off + n) else decide (off < q.blk.leaderBytes))

/-- Whether an act of the other core of the pair, not yet let go, covers a scratch range (21 R410). -/
def Crossing.covers (x : Crossing) (co off n : Nat) : Bool :=
  x.co != co &&
    match x.act with
    | .bytes o m => decide (off < o + m ∧ o < off + n)
    | _ => false

/-- Whether an entry of the board is an offer of the other core, not yet let go (21 R410). -/
def BlkState.offerHeld (st : BlkState) (co : Nat) (e : BoardEnt) : Bool :=
  st.crossing.any fun x => x.co != co && x.act == .offer e

/-- Store the block of a `Cur` with a new state. -/
def State.putSt (s : State) (q : Cur) (st : BlkState) : State := s.setBlock q.id { q.blk with st := st }

/-- Store the group of a `Cur`. -/
def State.putGrp (s : State) (q : Cur) (g : Group) : State := s.putSt q (q.blk.st.setGroup q.gi g)

/-- The entry's PC, and the word's address. -/
def Cur.pc (q : Cur) : BitVec 57 := (q.grp.pcSlot q.slot).e.pc

/-- The executing lanes of a word (02 R35). -/
def Cur.active (q : Cur) (c : Ctl) : List Nat := q.grp.active q.slot c

/-! ### The scratchpad (01 R26, R27) -/

/-- Write scratch bytes, keeping count of the sectors written since a checkpoint (21 R415), and clearing the poison
of a sector that is replaced whole (21 R412). -/
def BlkState.writeScratch (st : BlkState) (off : Nat) (bytes : List Byte) : BlkState :=
  let first := off / 64
  let last := (off + bytes.length - 1) / 64
  { st with
    scratch := st.scratch.setBytes off bytes
    spoison :=
      if off % 64 = 0 ∧ bytes.length = 64 then st.spoison.filter (· ≠ first) else st.spoison
    sectors :=
      if st.track then
        ((List.range (last + 1 - first)).map (first + ·)).foldl (fun l x => if l.contains x then l else x :: l) st.sectors
      else st.sectors }

/-- A scratch word. -/
def BlkState.sword (st : BlkState) (off : Nat) : W64 := st.scratch.word off

/-! ### The divergence stack (01 R18, R19) -/

/-- The entry at a scratch offset. -/
def BlkState.entryAt (st : BlkState) (off : Nat) : Entry :=
  ⟨((st.sword off).extractLsb' 3 54 ++ (0 : BitVec 3)), (st.sword (off + 8)).setWidth 32⟩

/-- Write an entry; reserved bits are 0. -/
def BlkState.putEntry (st : BlkState) (off : Nat) (e : Entry) : BlkState :=
  st.writeScratch off (leBytes e.pc.toNat 8 ++ leBytes e.mask.toNat 8)

/-- How many entries a group's stack holds. -/
def Group.depth (g : Group) : Nat := (g.dspCeil.toNat - g.dspTop.toNat) / 16

/-- The stack's entries, newest first. -/
def BlkState.stack (st : BlkState) (g : Group) : List Entry :=
  (List.range g.depth).map fun i => st.entryAt (g.dspTop.toNat + 16 * i)

/-- Push an entry: it merges into an equal top; none if it would pass FLOOR (08 R217). -/
def pushEntry (st : BlkState) (g : Group) (e : Entry) : Option (BlkState × Group) :=
  let top := st.entryAt g.dspTop.toNat
  if g.depth ≠ 0 ∧ top.pc = e.pc then some (st.putEntry g.dspTop.toNat { top with mask := top.mask ||| e.mask }, g)
  else if g.dspTop.toNat < g.dspFloor.toNat + 16 then none
  else some (st.putEntry (g.dspTop.toNat - 16) e, { g with dspTop := g.dspTop - 16 })

/-- Push entries in order. -/
def pushAll : BlkState → Group → List Entry → Option (BlkState × Group)
  | st, g, [] => some (st, g)
  | st, g, e :: l => (pushEntry st g e).bind fun p => pushAll p.1 p.2 l

/-- Write a whole stack, newest entry first. -/
def writeStack (st : BlkState) (g : Group) (l : List Entry) : BlkState × Group :=
  let top := g.dspCeil - BitVec.ofNat 32 (16 * l.length)
  (l.zipIdx.foldl (fun x p => x.putEntry (top.toNat + 16 * p.2) p.1) st, { g with dspTop := top })

/-- The bytes of other chips that a word in progress has read. -/
def SWait.fetched : SWait → List (Nat × Nat × List Byte)
  | .far l => l
  | .farGo l => l
  | _ => []

/-- The wait of two entries that become one: the word starts again, and keeps what it has. -/
def SWait.merge (a b : SWait) : SWait :=
  match a, b with
  | .none, .none => .none
  | .waitphGo, .none => .waitphGo
  | .none, .waitphGo => .waitphGo
  | .waitphGo, .waitphGo => .waitphGo
  | _, _ => if (a.fetched ++ b.fetched).isEmpty then .resume else .farGo (a.fetched ++ b.fetched)

/-- One entry of two. -/
def PcSlot.merge (a b : PcSlot) : PcSlot :=
  ⟨{ a.e with mask := a.e.mask ||| b.e.mask }, a.wait.merge b.wait, a.done ||| b.done, a.bad ||| b.bad,
    min a.began b.began, a.slip || b.slip, a.pages, a.plans ++ b.plans⟩

/-- Steps 2 and 3 of the merges and refills, while they apply (08 R218). -/
def refill (st : BlkState) : Nat → Group → Group
  | 0, g => g
  | n + 1, g =>
    if g.depth = 0 then g
    else
      let top := st.entryAt g.dspTop.toNat
      let pop := { g with dspTop := g.dspTop + 16 }
      if g.slot0.e.mask ≠ 0 ∧ g.slot0.e.pc = top.pc then refill st n { pop with slot0 := g.slot0.merge (slotAt top) }
      else if g.slot1.e.mask ≠ 0 ∧ g.slot1.e.pc = top.pc then refill st n { pop with slot1 := g.slot1.merge (slotAt top) }
      else if g.slot0.e.mask = 0 then refill st n { pop with slot0 := (slotAt top) }
      else if g.slot1.e.mask = 0 then refill st n { pop with slot1 := (slotAt top) }
      else g

/-- The merges and refills that follow every word of a group (08 R218). -/
def settle (st : BlkState) (g : Group) : Group :=
  let g1 :=
    if g.slot0.e.mask ≠ 0 ∧ g.slot1.e.mask ≠ 0 ∧ g.slot0.e.pc = g.slot1.e.pc then
      { g with slot0 := g.slot0.merge g.slot1, slot1 := PcSlot.empty, sweep := g.sweep.map fun p => (false, p.2) }
    else g
  refill st g1.depth g1

/-- Put an entry into a list with rising PCs, one entry for each PC. -/
def addTarget (pc : BitVec 57) (k : Nat) : List Entry → List Entry
  | [] => [⟨pc, (1 : Mask) <<< k⟩]
  | e :: l =>
    if pc < e.pc then ⟨pc, (1 : Mask) <<< k⟩ :: e :: l
    else if pc = e.pc then { e with mask := e.mask ||| ((1 : Mask) <<< k) } :: l
    else e :: addTarget pc k l

/-- One entry for each distinct next PC of the lanes of an entry, smallest PC first (08 R217). Lanes without a next
PC have retired. -/
def targets (mask : Mask) (next : Nat → Option (BitVec 57)) : List Entry :=
  (List.range 32).foldl (fun l k =>
    if mask.getLsbD k then
      match next k with
      | some pc => addTarget pc k l
      | none => l
    else l) []

/-- Place the entries of a split (08 R217); none if a push would pass FLOOR. -/
def placeEntries (st : BlkState) (g : Group) (slot : Bool) (l : List Entry) : Option (BlkState × Group) :=
  match l with
  | [] => some (st, g.setSlot slot PcSlot.empty)
  | e :: rest =>
    let g1 := g.setSlot slot (slotAt e)
    match rest with
    | [] => some (st, g1)
    | f :: more =>
      if (g1.pcSlot (!slot)).e.mask = 0 then pushAll st (g1.setSlot (!slot) (slotAt f)) more.reverse
      else pushAll st g1 (f :: more).reverse

/-- The next word of a PC, in the 57-bit space. -/
def pcNext (pc : BitVec 57) : BitVec 57 := pc + 8

/-- The whole entry of a slot goes on to the next word. -/
def Group.advance (g : Group) (slot : Bool) : Group :=
  g.setSlot slot (slotAt { (g.pcSlot slot).e with pc := pcNext (g.pcSlot slot).e.pc })

/-- The end of a word that sends its entry to the next word: advance, then merge and refill (08 R218). -/
def State.finish (s : State) (q : Cur) (st : BlkState) (g : Group) : State :=
  s.putSt q (st.setGroup q.gi (settle st (g.advance q.slot)))

end Sys2Proof.Machine
end

