-- ==== Sys2Proof/Machine/Memory.lean ====
section
/-! DEFINITION. The homes of memory, cluster caches, the cocoon, poison, monitors (06 R143 to R151, 11 R296, R297, 16
R345, R346, 21 R412), page tables and translation (17 R355 to R359). -/

namespace Sys2Proof.Machine

/-! ### Homes -/

/-- The 64-byte sectors that an access touches. -/
def sectorsOf (pa n : Nat) : List Nat :=
  (List.range ((pa + n - 1) / 64 + 1 - pa / 64)).map (pa / 64 + ·)

/-- Monitors that a write wakes go to the list of those that fired (06 R170). -/
def MemSys.fire (ms : MemSys) (p : Monitor → Bool) : MemSys :=
  { ms with
    fired := ((ms.monitors.filter p).map fun m => (m.blk, m.grp)).foldl
      (fun l x => if l.contains x then l else x :: l) ms.fired
    monitors := ms.monitors.filter fun m => !p m }

/-- The lines of 256 bytes that a range touches. -/
def linesOf (pa n : Nat) : List Nat := if n = 0 then [] else (List.range ((pa + n - 1) / 256 + 1 - pa / 256)).map (pa / 256 + ·)

/-- A write at the L2 or beyond spoils every other speculation that watches a line that it touches (16 R346). -/
def MemSys.spoil (ms : MemSys) (pa n : Nat) : MemSys :=
  { ms with
    cocoons := ms.cocoons.map fun p =>
      if (linesOf pa n).any p.2.watch.contains then (p.1, { p.2 with spoiled := true }) else p }

/-- What a write at the home does beside its bytes, of which `hit` names those that it changes among the `n` from `pa`: poison goes
from the sectors that it replaces whole (21 R412), a write to a KICK word is a kick (15 R327), speculations that watch a line are
spoiled (16 R346), monitors wake (06 R170) and the monitors of parked WAITSIGs with them (15 R327). -/
def MemSys.noteWrite (ms : MemSys) (pa n : Nat) (hit : Nat → Bool) : MemSys :=
  let whole := fun (x : Nat) => decide (pa ≤ 64 * x ∧ 64 * x + 64 ≤ pa + n) && (List.range 64).all fun i => hit (64 * x + i - pa)
  let part := fun (x : Nat) => (List.range 64).any fun i => decide (pa ≤ 64 * x + i ∧ 64 * x + i < pa + n) && hit (64 * x + i - pa)
  let kicks := fun (a : Nat) => (List.range 8).any fun i =>
    decide (pa ≤ a + 24 + i ∧ a + 24 + i < pa + n) && hit (a + 24 + i - pa)
  let m := { ms with
    poison := ms.poison.filter fun x => !whole x
    kicked := (ms.qcbs.filter fun a => kicks a && !ms.kicked.contains a) ++ ms.kicked
    sigHit := ((ms.sigWatch.filter fun (x : Nat × Nat) => part x.2 && !ms.sigHit.contains x.1).map fun (x : Nat × Nat) => x.1) ++ ms.sigHit }
  (m.spoil pa n).fire fun x => !x.scratch && part x.sector

/-- A parked WAITSIG is over: its monitor goes (15 R327). -/
def MemSys.unwatch (ms : MemSys) (q : Nat) : MemSys :=
  { ms with sigWatch := ms.sigWatch.del q, sigHit := ms.sigHit.filter fun k => k != q }

/-- Write bytes at their home (06 R143). -/
def MemSys.homeWrite (ms : MemSys) (pa : Nat) (bytes : List Byte) : MemSys :=
  { ms with mem := ms.mem.setBytes pa bytes }.noteWrite pa bytes.length fun _ => true

/-- Store the bytes that are given, and leave the others. -/
def Mem.putBytes (m : Mem) (a : Nat) : List (Option Byte) → Mem
  | [] => m
  | none :: l => Mem.putBytes m (a + 1) l
  | some b :: l => Mem.putBytes (m.setByte a b) (a + 1) l

/-- Write some bytes of a range at their home: the others are not written (11 R297). -/
def MemSys.homePut (ms : MemSys) (pa : Nat) (bytes : List (Option Byte)) : MemSys :=
  { ms with mem := ms.mem.putBytes pa bytes }.noteWrite pa bytes.length fun i => (bytes.getD i none).isSome

/-- Poison a sector at its home (21 R412). -/
def MemSys.setPoison (ms : MemSys) (sector : Nat) : MemSys :=
  { ms with poison := if ms.poison.contains sector then ms.poison else sector :: ms.poison }

/-- Whether a home sector that an access touches is poisoned. -/
def MemSys.poisoned (ms : MemSys) (pa n : Nat) : Bool := (sectorsOf pa n).any fun x => ms.poison.contains x

/-- Zero a range of memory, with the copies of it in the clusters (17 R376); it is a write for those that watch its lines (16 R346). -/
def MemSys.zeroRange (ms : MemSys) (r : Nat × Nat) : MemSys :=
  let hit := fun (x : Nat) => decide (r.1 ≤ 64 * x ∧ 64 * x < r.1 + r.2)
  { ms with
    mem := ms.mem.filter fun c => !decide (r.1 ≤ c.1 ∧ c.1 < r.1 + r.2)
    poison := ms.poison.filter fun x => !hit x
    cc := ms.cc.filter fun p => !hit (p.1 % 2 ^ 46)
    cocoons := ms.cocoons.map fun p =>
      if p.2.watch.any fun ln => decide (r.1 < 256 * ln + 256 ∧ 256 * ln < r.1 + r.2) then (p.1, { p.2 with spoiled := true }) else p }

/-! ### The cocoon (16 R345, R346) -/

/-- A line of 256 bytes as memory holds it. -/
def MemSys.line (ms : MemSys) (ln : Nat) : BitVec 2048 := BitVec.ofNat 2048 (leNat (ms.mem.bytes (256 * ln) 256))

/-- The cocoon of a speculation. -/
def MemSys.cocoon (ms : MemSys) (n : Nat) : Cocoon := ms.cocoons.getD n ⟨[], [], [], false, []⟩

/-- The sectors that engines own, for a speculation or for everyone (07 R191, R207). -/
def MemSys.ownedBy (ms : MemSys) (spec : Option Nat) : List Nat :=
  match spec with
  | some k => (ms.cocoon k).owned
  | none => ms.owned

/-- Change the sectors that engines own. -/
def MemSys.setOwned (ms : MemSys) (spec : Option Nat) (l : List Nat) : MemSys :=
  match spec with
  | some k => { ms with cocoons := ms.cocoons.put k { ms.cocoon k with owned := l } }
  | none => { ms with owned := l }

/-- An engine gives a sector back. -/
def MemSys.giveBack (ms : MemSys) (spec : Option Nat) (sector : Nat) : MemSys := ms.setOwned spec ((ms.ownedBy spec).erase sector)

/-- Set a watch bit. -/
def Cocoon.watching (c : Cocoon) (ln : Nat) : Cocoon :=
  if c.watch.contains ln then c else { c with watch := ln :: c.watch }

/-- A write of a speculation: into a cocoon line, made at the first write. -/
def MemSys.specWrite (ms : MemSys) (n pa : Nat) (bytes : List Byte) : MemSys :=
  let c := (ms.cocoon n).watching (pa / 256)
  let d := (c.lines.get? (pa / 256)).getD (ms.line (pa / 256), 0)
  let m : BitVec 2048 := BitVec.ofNat 2048 (2 ^ (8 * bytes.length) - 1) <<< (8 * (pa % 256))
  let v : BitVec 2048 := BitVec.ofNat 2048 (leNat bytes) <<< (8 * (pa % 256))
  let hit : BitVec 256 := BitVec.ofNat 256 (2 ^ bytes.length - 1) <<< (pa % 256)
  { ms with cocoons := ms.cocoons.put n { c with
      lines := c.lines.put (pa / 256) ((d.1 &&& ~~~ m) ||| v, d.2 ||| hit)
      bad := if pa % 64 = 0 ∧ bytes.length = 64 then c.bad.filter (· ≠ pa / 64) else c.bad } }

/-- A delivery of bad data poisons a sector of a cocoon: no other party sees it (16 R345, 21 R412). -/
def MemSys.specPoison (ms : MemSys) (n sector : Nat) : MemSys :=
  let c := ms.cocoon n
  { ms with cocoons := ms.cocoons.put n { c with bad := if c.bad.contains sector then c.bad else sector :: c.bad } }

/-- Whether the cocoon of a speculation is too large, alone or with the others on one of the four dies (16 R347, 00 R1). -/
def MemSys.cocoonFull (ms : MemSys) (n : Nat) : Bool :=
  let die := fun (ln : Nat) => Config.dieOf ln % 4
  let all := ms.cocoons.flatMap fun p => p.2.lines.map fun q => die q.1
  decide (32768 < (ms.cocoon n).lines.length) ||
    ((ms.cocoon n).lines.any fun p => decide (131072 < all.countP fun d => d == die p.1))

/-- Whether a read of a speculation meets poison at the L2: in its own line, where it did not write the sector whole (21 R412). -/
def MemSys.specPoisoned (ms : MemSys) (n pa k : Nat) : Bool :=
  let c := ms.cocoon n
  (sectorsOf pa k).any fun x => c.bad.contains x || (ms.poison.contains x &&
    (match c.lines.get? (x / 4) with
      | some d => d.2.extractLsb' (64 * (x % 4)) 64 != BitVec.allOnes 64
      | none => true))

/-! ### Cluster caches (11 R296, R297) -/

/-- The key of a sector in a cluster's cache. -/
def ccKey (cl sector : Nat) : Nat := 2 ^ 46 * cl + sector

/-- A fill from the L2 (06 R143). -/
def MemSys.fill (ms : MemSys) (sector : Nat) : Sector :=
  ⟨BitVec.ofNat 512 (leNat (ms.mem.bytes (64 * sector) 64)), 0, ms.poison.contains sector, []⟩

/-- The cluster's copy, filled from the L2 on a miss. -/
def MemSys.ccSector (ms : MemSys) (cl sector : Nat) : Sector := (ms.cc.get? (ccKey cl sector)).getD (ms.fill sector)

/-- Bytes of a sector. -/
def Sector.bytes (x : Sector) (o n : Nat) : List Byte := leBytes ((x.data >>> (8 * o)).toNat) n

/-- Write bytes of a sector and mark them dirty. -/
def Sector.write (x : Sector) (o : Nat) (bytes : List Byte) (who : Nat × Nat × Nat) : Sector :=
  let n := bytes.length
  let m : BitVec 512 := BitVec.ofNat 512 (2 ^ (8 * n) - 1) <<< (8 * o)
  { data := (x.data &&& ~~~ m) ||| (BitVec.ofNat 512 (leNat bytes) <<< (8 * o))
    dirty := x.dirty ||| (BitVec.ofNat 64 (2 ^ n - 1) <<< o)
    poison := x.poison && !(o == 0 && n == 64)
    writers := if x.writers.contains who then x.writers else who :: x.writers }

/-- Keep a copy in a cluster's cache. -/
def MemSys.ccPut (ms : MemSys) (cl sector : Nat) (x : Sector) : MemSys := { ms with cc := ms.cc.put (ccKey cl sector) x }

/-- Drop a copy. -/
def MemSys.ccDrop (ms : MemSys) (cl sector : Nat) : MemSys := { ms with cc := ms.cc.del (ccKey cl sector) }

/-- The bytes of a copy that the cluster wrote. -/
def Sector.dirtyBytes (x : Sector) : List (Option Byte) :=
  (List.range 64).map fun i => if x.dirty.getLsbD i then some (x.data.extractLsb' (8 * i) 8) else none

/-- Merge the dirty bytes of a copy into memory (11 R297); a poisoned copy poisons its home (21 R412). -/
def MemSys.mergeDirty (ms : MemSys) (sector : Nat) (x : Sector) : MemSys :=
  let m := ms.homePut (64 * sector) x.dirtyBytes
  if x.poison then m.setPoison sector else m

/-- Write a dirty copy back and keep it clean (06 R177). -/
def MemSys.writeBack (ms : MemSys) (cl sector : Nat) : MemSys :=
  match ms.cc.get? (ccKey cl sector) with
  | none => ms
  | some x => if x.dirty = 0 then ms else (ms.mergeDirty sector x).ccPut cl sector { x with dirty := 0, writers := [] }

/-- Write a dirty copy back and drop the cluster's copy (06 R150, R177). -/
def MemSys.writeBackDrop (ms : MemSys) (cl sector : Nat) : MemSys := (ms.writeBack cl sector).ccDrop cl sector

/-- A read of a speculation at the L2, as an LDB (16 R345, 06 R150): its own line if it wrote one, else memory, after a dirty copy
of the issuing cluster; the line is watched. -/
def MemSys.specRead (ms : MemSys) (cl n pa k : Nat) : List Byte × MemSys :=
  match (ms.cocoon n).lines.get? (pa / 256) with
  | some d => (leBytes ((d.1 >>> (8 * (pa % 256))).toNat) k, ms)
  | none =>
    let m := (sectorsOf pa k).foldl (fun m x => m.writeBackDrop cl x) ms
    (m.mem.bytes pa k, { m with cocoons := m.cocoons.put n ((m.cocoon n).watching (pa / 256)) })

/-- The sectors that a cluster holds. -/
def MemSys.ccSectors (ms : MemSys) (cl : Nat) : List (Nat × Sector) :=
  (ms.cc.filter fun p => p.1 / 2 ^ 46 == cl).map fun p => (p.1 % 2 ^ 46, p.2)

/-- The write-back of a release at DEV or wider: every dirty sector of the cluster (06 R156). -/
def MemSys.releaseDev (ms : MemSys) (cl : Nat) : MemSys :=
  (ms.ccSectors cl).foldl (fun m p => m.writeBack cl p.1) ms

/-- The bytes of a dirty copy that the cluster did not write are fetched again. -/
def MemSys.refresh (ms : MemSys) (sector : Nat) (x : Sector) : Sector :=
  let y := ms.fill sector
  let m : BitVec 512 := (List.range 64).foldl (fun m i => if x.dirty.getLsbD i then m ||| (0xFF : BitVec 512) <<< (8 * i) else m) 0
  { x with data := (x.data &&& m) ||| (y.data &&& ~~~ m), poison := x.poison || y.poison }

/-- The invalidation of an acquire at DEV or wider in a cluster: every clean sector goes (06 R155). A dirty sector stays, since
only the moments of 11 R297 write it back; the bytes of it that the cluster did not write are clean, and no later load may
find them stale (11 R295, R302 N3). -/
def MemSys.acquireDev (ms : MemSys) (cl : Nat) : MemSys :=
  { ms with cc := (ms.cc.filter fun p => !(p.1 / 2 ^ 46 == cl && p.2.dirty == 0)).map fun p =>
      if p.1 / 2 ^ 46 == cl then (p.1, ms.refresh (p.1 % 2 ^ 46) p.2) else p }

/-- A store into the cluster cache wakes the monitors of its cluster (06 R170). -/
def MemSys.ccWrite (ms : MemSys) (cl pa : Nat) (bytes : List Byte) (who : Nat × Nat × Nat) : MemSys :=
  let sec := pa / 64
  (ms.ccPut cl sec ((ms.ccSector cl sec).write (pa % 64) bytes who)).fire fun x =>
    !x.scratch && x.cl == cl && x.sector == sec

/-! ### Page tables (17 R355 to R358) -/

/-- Entry fields (17 R356). -/
def pteV (e : W64) : Bool := e.getLsbD 63
/-- LEAF. -/
def pteLeaf (e : W64) : Bool := e.getLsbD 62
/-- CHIP. -/
def pteChip (e : W64) : Nat := (e.extractLsb' 56 6).toNat
/-- REM. -/
def pteRem (e : W64) : Bool := e.getLsbD 55
/-- R. -/
def pteR (e : W64) : Bool := e.getLsbD 54
/-- W. -/
def pteW (e : W64) : Bool := e.getLsbD 53
/-- X. -/
def pteX (e : W64) : Bool := e.getLsbD 52
/-- MS. -/
def pteMs (e : W64) : Bool := e.getLsbD 51
/-- TSO. -/
def pteTso (e : W64) : Bool := e.getLsbD 50
/-- POL. -/
def ptePol (e : W64) : BitVec 2 := e.extractLsb' 48 2
/-- ADDR, in units of 64 KiB. -/
def pteAddr (e : W64) : Nat := (e.extractLsb' 0 36).toNat

/-- An entry that the walker treats as valid at a level (17 R356, R357). -/
def pteValid (level : Nat) (e : W64) : Bool :=
  pteV e && e.extractLsb' 36 12 == 0 && ptePol e != 3 && !(pteMs e && pteTso e) &&
  (if pteLeaf e then
    decide (level ≠ 0) && (level != 1 || pteAddr e % 32768 == 0) && (level != 2 || pteAddr e % 4 == 0)
  else decide (level ≠ 2) && e.extractLsb' 48 14 == 0)

/-- Index of a level (17 R355). -/
def vaIndex (level : Nat) (va : W64) : Nat :=
  (va.toNat >>> (if level = 0 then 44 else if level = 1 then 31 else 18)) % 8192

/-- The entry of a 256 KiB page under a leaf, which may be of 2 GiB. -/
def leafOf (va e : W64) (big : Bool) : W64 := if big then e + BitVec.ofNat 64 (4 * vaIndex 2 va) else e

/-- A walk from a table at a level: the leaf entry and whether its page is of 2 GiB, or none. -/
def MemSys.walkFrom (ms : MemSys) (va : W64) : Nat → Nat → Nat → Option (W64 × Bool)
  | 0, _, _ => none
  | fuel + 1, level, table =>
    let e := ms.mem.word (table + 8 * vaIndex level va)
    if !pteValid level e then none
    else if pteLeaf e then some (e, level == 1)
    else ms.walkFrom va fuel (level + 1) (65536 * pteAddr e)

/-- The scratch window is never translated (17 R355). -/
def inWindow (ea : W64) : Bool := decide (0x1FFFFE00000 ≤ ea.toNat ∧ ea.toNat ≤ 0x1FFFFFFFFFF)

/-- The walk of a virtual address from a root page in memory, which no cache serves (17 R355, R363). -/
def MemSys.walkRaw (ms : MemSys) (root : Nat) (va : W64) : Option (W64 × Bool) :=
  if inWindow va then none else ms.walkFrom va 3 0 root

/-- The leaf of such a walk, as an entry of a 256 KiB page. -/
def MemSys.walk (ms : MemSys) (root : Nat) (va : W64) : Option W64 := (ms.walkRaw root va).map fun p => leafOf va p.1 p.2

/-- The physical address under a leaf. -/
def leafPa (leaf va : W64) : Nat := 65536 * pteAddr leaf + va.toNat % 262144

/-- Host memory over CXL (17 R358). -/
def isHost (pa : Nat) : Bool := decide (2 ^ 51 ≤ pa)

/-- An HBM address beyond the installed 512 GiB (17 R358). -/
def beyondHbm (pa : Nat) : Bool := decide (2 ^ 39 ≤ pa ∧ pa < 2 ^ 51)

/-- Where an ordinary access under a leaf is performed (06 R143). -/
def placeOf (chip : Nat) (leaf : W64) (pa : Nat) : Place :=
  if pteRem leaf && pteChip leaf != chip then .remote (pteChip leaf)
  else if pteMs leaf then .slice
  else if pteTso leaf || isHost pa || ptePol leaf == 1 then .l2
  else .cache

/-- The memory slice of a physical address: that of its stack (19 R384). -/
def sliceOf (pa : Nat) : Nat := (pa / 4096) % 8

/-! ### What page tables map (17 R355) -/

/-- The entries of a table that are not zero in memory, with their indices (17 R355). -/
def MemSys.entries (ms : MemSys) (table : Nat) : List (Nat × W64) :=
  let idx := (ms.mem.filter fun c => decide (table ≤ c.1 ∧ c.1 < table + 65536)).map fun c => (c.1 - table) / 8
  (idx.foldl (fun (l : List Nat) i => if l.contains i then l else i :: l) []).map fun i => (i, ms.mem.word (table + 8 * i))

/-- The bytes of addresses that an entry of a level stands for (17 R355). -/
def entrySpan (level : Nat) : Nat := if level = 0 then 2 ^ 44 else if level = 1 then 2 ^ 31 else 2 ^ 18

/-- The pages of this chip's memory that a context maps, as virtual address, physical address and size, from a table at a level that serves
the addresses from `va` on. -/
def MemSys.mapsFrom (ms : MemSys) : Nat → Nat → Nat → Nat → List (Nat × Nat × Nat)
  | 0, _, _, _ => []
  | fuel + 1, level, table, va =>
    (ms.entries table).flatMap fun e =>
      let at_ := va + entrySpan level * e.1
      if !pteValid level e.2 then []
      else if pteLeaf e.2 then
        let pa := 65536 * pteAddr e.2
        if pteRem e.2 || isHost pa then [] else [(at_, pa, entrySpan level)]
      else ms.mapsFrom fuel (level + 1) (65536 * pteAddr e.2) at_

/-- The pages of this chip's memory that a context maps, as address and size. -/
def MemSys.pagesOf (ms : MemSys) (root : Nat) : List (Nat × Nat) := (ms.mapsFrom 3 0 root 0).map fun m => m.2

/-- The tables of a context, from one at a level, as address and size (17 R355). -/
def MemSys.tablesFrom (ms : MemSys) : Nat → Nat → Nat → List (Nat × Nat)
  | 0, _, _ => []
  | fuel + 1, level, table =>
    (table, 65536) :: (ms.entries table).flatMap fun e =>
      if pteValid level e.2 && !pteLeaf e.2 then ms.tablesFrom fuel (level + 1) (65536 * pteAddr e.2) else []

/-- The tables of a context. -/
def MemSys.tablesOf (ms : MemSys) (root : Nat) : List (Nat × Nat) := ms.tablesFrom 3 0 root

/-! ### Translation (17 R359, R360) -/

/-- The number of the 256 KiB page of an address. -/
def pageOf (va : W64) : Nat := (va.toNat % 2 ^ 57) / 262144

/-- The key of a translation: the ASID, and the page, or, for a page of 2 GiB, its first 256 KiB. Both sizes share every stage. -/
def trKey (asid : Nat) (va : W64) (big : Bool) : Nat :=
  2 ^ 40 * asid + (if big then 2 ^ 52 + pageOf va / 8192 * 8192 else pageOf va)

/-- What a table of translations from a key upward gives for an address. -/
def trGet (m : KMap W64) (base asid : Nat) (va : W64) : Option W64 :=
  match m.get? (base + trKey asid va false) with
  | some e => some e
  | none => (m.get? (base + trKey asid va true)).map fun e => leafOf va e true

/-- Whether a key names a page of an ASID that meets a range of addresses; any part of a page of 2 GiB drops it whole. -/
def trMeets (asid va size key : Nat) : Bool :=
  let page := key % 2 ^ 40
  let n := if key / 2 ^ 52 % 2 = 1 then 8192 else 1
  (key / 2 ^ 40) % 4096 == asid && decide (page * 262144 < va + size ∧ va < (page + n) * 262144)

/-- Put an entry into a cache with `cap` places for the keys that `same` names; a full one gives up an entry that the spec leaves
open (log 91). -/
def KMap.putCap {α : Type} (m : KMap α) (same : Nat → Bool) (cap n k : Nat) (v : α) : KMap α :=
  let l := (m.filter fun p => same p.1).map fun p => p.1
  if (m.get? k).isSome || decide (l.length < cap) then m.put k v else (m.del (l.getD (Config.victim n % l.length) 0)).put k v

/-- The key of a translation in a cluster's TLB. -/
def tlbKey (cl asid : Nat) (va : W64) (big : Bool) : Nat := 2 ^ 53 * cl + trKey asid va big

/-- A translation that the cluster's TLB holds (17 R359). -/
def MemSys.tlbGet (ms : MemSys) (cl asid : Nat) (va : W64) : Option W64 := trGet ms.tlb (2 ^ 53 * cl) asid va

/-- Keep a translation in the cluster's TLB: 2,048 entries in 8 ways (17 R359). -/
def MemSys.tlbPut (ms : MemSys) (cl asid n : Nat) (va e : W64) (big : Bool) : MemSys :=
  let set := fun (k : Nat) => Config.tlbSet (k % 2 ^ 53) % 256
  let k := tlbKey cl asid va big
  { ms with tlb := ms.tlb.putCap (fun j => j / 2 ^ 53 == cl && set j == set k) 8 n k e }

/-- The key of an entry of level 0 or 1 in the walker cache of a die. -/
def wcKey (die asid level : Nat) (va : W64) : Nat :=
  2 ^ 54 * die + 2 ^ 53 * level + 2 ^ 40 * asid + (va.toNat % 2 ^ 57) >>> (if level = 0 then 44 else 31)

/-- An entry of level 0 or 1 goes into the walker cache of a die, of 256 entries (17 R359). -/
def MemSys.wcPut (ms : MemSys) (die asid level n : Nat) (va e : W64) : MemSys :=
  { ms with wcache := ms.wcache.putCap (fun j => j / 2 ^ 54 == die) 256 n (wcKey die asid level va) e }

/-- A walk of the walker of a die for a cluster: entries of levels 0 and 1 that its cache holds stand for those in memory, and
the others are read at the L2 as an LDB reads (17 R359, 06 R150). The leaf entry and whether its page is of 2 GiB. -/
def MemSys.walkVia (cl die asid n : Nat) (va : W64) : Nat → Nat → Nat → MemSys → MemSys × Option (W64 × Bool)
  | 0, _, _, ms => (ms, none)
  | fuel + 1, level, table, ms =>
    let at_ := table + 8 * vaIndex level va
    let hit := if level < 2 then ms.wcache.get? (wcKey die asid level va) else none
    let m := match hit with
      | some _ => ms
      | none => ms.writeBackDrop cl (at_ / 64)
    let e := match hit with
      | some e => e
      | none => m.mem.word at_
    if !pteValid level e then (m, none)
    else
      let m1 := if hit.isNone ∧ level < 2 then m.wcPut die asid level (n + level) va e else m
      if pteLeaf e then (m1, some (e, level == 1)) else MemSys.walkVia cl die asid n va fuel (level + 1) (65536 * pteAddr e) m1

/-- Drop the translations of an ASID in a range of addresses, in every cluster and every walker cache (17 R360). -/
def MemSys.tlbDrop (ms : MemSys) (asid va size : Nat) : MemSys :=
  { ms with
    tlb := ms.tlb.filter fun p => !trMeets asid va size p.1
    wcache := ms.wcache.filter fun p =>
      let sh := if p.1 / 2 ^ 53 % 2 = 0 then 44 else 31
      let x := p.1 % 2 ^ 40
      !((p.1 / 2 ^ 40) % 4096 == asid && decide (x <<< sh < va + size ∧ va < (x + 1) <<< sh)) }

/-- The key of an instruction-cache line (09 R268). -/
def icKey (cl asid : Nat) (pc : BitVec 57) : Nat := 2 ^ 60 * cl + 2 ^ 49 * asid + pc.toNat / 256

/-- Drop every instruction-cache line of an ASID (09 R270). -/
def MemSys.icDrop (ms : MemSys) (asid : Nat) : MemSys :=
  { ms with icache := ms.icache.filter fun p => (p.1 / 2 ^ 49) % 2048 != asid }

end Sys2Proof.Machine
end

