-- ==== Sys2Proof/Machine/Matrix.lean ====
section
/-! DEFINITION. What the matrix array computes (03 R78 to R85, 07 R201, R202, R206, R207) on the state of a block. -/

namespace Sys2Proof.Machine

/-- The first address of the scratch window (06 R140). -/
def windowBase : Nat := 0x1FFFFE00000

/-! ### Exact sums (03 R83, R84) -/

/-- Add two values without rounding; a sum of two zeros is -0 only when both are (03 R83). -/
def FVal.addExact (x y : FVal) : FVal :=
  match x, y with
  | .nan _, _ => .nan false
  | _, .nan _ => .nan false
  | .inf a, .inf b => if a = b then .inf a else .nan false
  | .inf a, _ => .inf a
  | _, .inf b => .inf b
  | .fin a m e, .fin b n k =>
    if m = 0 ∧ n = 0 then .fin (a && b) 0 0
    else
      let q := min e k
      let t := dyInt a m e q + dyInt b n k q
      .fin (decide (t < 0)) t.natAbs q

/-- The exact sum of a nonempty list of products. -/
def exactSum : List FVal → FVal
  | [] => .fin false 0 0
  | [x] => x
  | x :: l => x.addExact (exactSum l)

/-- The QC4 codebook in units of 1/256 (03 R68). -/
def codebook : List Int := [-256, -190, -145, -110, -80, -53, -26, 0, 22, 45, 70, 98, 130, 168, 211, 256]

/-- A codebook value scaled by `(s8 + 1) / 256` (03 R78). -/
def qc4Val (idx s8 : Nat) : FVal :=
  let c := codebook.getD idx 0
  .fin (decide (c < 0)) (c.natAbs * (s8 + 1)) (-16)

/-- The format of an A operand (07 R199). -/
def aFmt : AFmt → FFmt
  | .e4m3 => .e4m3
  | .e5m2 => .e5m2
  | .bf16 => .bf16
  | .fp16 => .f16

/-- Bytes of an element of A (03 R81). -/
def aBytes (f : AFmt) : Nat := (aFmt f).width / 8

/-- An element of A (03 R81). -/
def readA (sc : Mem) (f : AFmt) (ftz : Bool) (a m k : Nat) : FVal :=
  (aFmt f).read ftz (leNat (sc.bytes (a + (32 * m + k) * aBytes f) (aBytes f)))

/-- The bits of an element of B from its planes, plane 0 lowest (03 R82). -/
def readB (sc : Mem) (planes b k n : Nat) : Nat :=
  (List.range planes).foldl (fun v p =>
    if (sc.byte (b + 384 * p + 12 * k + n / 8)).getLsbD (n % 8) then v + 2 ^ p else v) 0

/-- One cell of a float MMA (03 R83): the new bits, and whether a rounding was tiny. -/
def cellF (ftz : Bool) (acc : BitVec 32) (prod : Nat → FVal) (scale : Option FVal) : BitVec 32 × Bool :=
  (List.range 2).foldl (fun c g =>
    let s := exactSum ((List.range 16).map fun i => prod (16 * g + i))
    let s1 :=
      match scale with
      | some x => (s.mul x).1
      | none => s
    let r := FFmt.f32.add .rne ftz (FFmt.f32.read ftz c.1.toNat) s1
    (BitVec.ofNat 32 r.bits, c.2 || r.assist)) (acc, false)

/-- Replace the cells of a tile whose first row is given, row by row. -/
def putTile (acc : KMap (BitVec 32)) (row : Nat) (f : Nat → Nat → BitVec 32) : KMap (BitVec 32) :=
  let lo := 96 * row
  let hi := 96 * (row + 64)
  let cells := (List.range (64 * 96)).filterMap fun i =>
    let v := f (i / 96) (i % 96)
    if v = 0 then none else some (lo + i, v)
  acc.filter (fun p => decide (p.1 < lo)) ++ cells ++ acc.filter (fun p => decide (hi ≤ p.1))

/-- A cell of accumulator memory. -/
def cell (acc : KMap (BitVec 32)) (row col : Nat) : BitVec 32 := acc.getD (96 * row + col) 0

/-- The new cells of a float MMA over 96 columns. -/
def mmaFTile (sc : Mem) (ftz : Bool) (bf af : AFmt) (row a b : Nat) (acc : KMap (BitVec 32)) (m n : Nat) :
    BitVec 32 × Bool :=
  let fb := aFmt bf
  cellF ftz (cell acc (row + m) n)
    (fun k => ((readA sc af ftz a m k).mul (fb.read ftz (readB sc fb.width b k n))).1) none

/-- The new cells of a QC4 MMA over 96 columns, with the block scales and the superblock scale of each column. -/
def mmaQTile (sc : Mem) (ftz : Bool) (af : AFmt) (row a b : Nat) (scales : List (BitVec 32 × BitVec 32))
    (acc : KMap (BitVec 32)) (m n : Nat) : BitVec 32 × Bool :=
  let x := scales.getD n (0, 0)
  cellF ftz (cell acc (row + m) n)
    (fun k => ((readA sc af ftz a m k).mul
      (qc4Val (readB sc 4 b k n) (x.1.extractLsb' (8 * (k / 8)) 8).toNat)).1)
    (some (FFmt.f32.read ftz x.2.toNat))

/-- The value of an integer element of B (03 R67). -/
def intB (bits v : Nat) : Int :=
  if bits = 1 then (if v = 1 then 1 else -1) else (BitVec.ofNat bits v).toInt

/-- The new cells of an integer MMA over 96 columns (03 R85). -/
def mmaITile (sc : Mem) (bits row a b : Nat) (acc : KMap (BitVec 32)) (m n : Nat) : BitVec 32 :=
  (List.range 32).foldl (fun c k =>
    c + BitVec.ofInt 32 ((sc.byte (a + 32 * m + k)).toInt * intB bits (readB sc bits b k n))) (cell acc (row + m) n)

/-- A tile format as a float format (07 R205). -/
def tileFmt : TileFmt → FFmt
  | .f32 => .f32
  | .bf16 => .bf16
  | .f16 => .f16
  | .e4m3 => .e4m3
  | .e5m2 => .e5m2

/-- A value of an MLOAD widened to FP32 (07 R206). -/
def tileIn (f : TileFmt) (ftz : Bool) (b : Nat) : BitVec 32 :=
  match f with
  | .f32 => BitVec.ofNat 32 b
  | _ => BitVec.ofNat 32 (FFmt.f32.ofVal .rne false ((tileFmt f).read ftz b)).bits

/-- A value of an MSTORE (07 R207): bits, and whether the assist routine completes it. -/
def tileOut (f : TileFmt) (ftz : Bool) (b : BitVec 32) : Nat × Bool :=
  match f with
  | .f32 => (b.toNat, false)
  | _ =>
    let r := (tileFmt f).ofVal .rne ftz (FFmt.f32.read ftz b.toNat)
    (r.bits, r.assist)

/-- Whether any cell of a tile was tiny. -/
def anyCell (f : Nat → Nat → Bool) : Bool := (List.range 64).any fun m => (List.range 96).any fun n => f m n

/-- Note a matrix write to a tile since a checkpoint (21 R415). -/
def BlkState.touchTile (st : BlkState) (t : Nat) : BlkState :=
  if st.track && !st.tilesW.contains t then { st with tilesW := t :: st.tilesW } else st

/-- The bytes that an MLOAD reads: from scratch, or from the L2 as an LDB reads, by what its core shows it over them (`see`: the
address, the physical address, the bytes there). -/
def tileBytes (st : BlkState) (ms : MemSys) (cl : Nat) (spec : Option Nat) (see : W64 → Nat → List Byte → List Byte) (va : W64)
    (pages : KMap W64) (n : Nat) : List Byte × MemSys :=
  if inWindow va then (st.scratch.bytes (va.toNat - windowBase) n, ms)
  else
    (List.range (n / 64)).foldl (fun acc i =>
      let a : W64 := va + BitVec.ofNat 64 (64 * i)
      let pa := leafPa (pages.getD (a.toNat / 262144) 0) a
      match spec with
      | some k =>
        let r := acc.2.specRead cl k pa 64
        (acc.1 ++ see a pa r.1, r.2)
      | none =>
        let m := acc.2.writeBackDrop cl (pa / 64)
        (acc.1 ++ see a pa (m.mem.bytes pa 64), m)) ([], ms)

/-- Run one operation of a batch (07 R201, R206, R207). The answer: the block's state, memory, the MSTORE data to be
written at retirement, and whether the assist routine was called. -/
def runMOp (st : BlkState) (ms : MemSys) (cl : Nat) (spec : Option Nat) (see : W64 → Nat → List Byte → List Byte)
    (ftz follower : Bool) (op : MOp) : BlkState × MemSys × List (W64 × KMap W64 × List Byte) × Bool :=
  let sc := st.scratch
  let acc := if follower then st.accF else st.acc
  let put := fun (x : BlkState) (row : Nat) (f : Nat → Nat → BitVec 32) =>
    if follower then { x with accF := putTile x.accF row f } else { x with acc := putTile x.acc row f }
  let mark := fun (x : BlkState) (row : Nat) (f : Bool) => x.touchTile (row / 64 + (if f then 16 else 0))
  match op with
  | .mmaF bf af row a b pair =>
    let f := mmaFTile sc ftz bf af row a b acc
    let s1 := mark (put st row fun m n => (f m n).1) row follower
    if pair then
      let g := mmaFTile sc ftz bf af row a (b + 384 * (aFmt bf).width) st.accF
      (mark { s1 with accF := putTile s1.accF row fun m n => (g m n).1 } row true, ms, [],
        anyCell (fun m n => (f m n).2) || anyCell (fun m n => (g m n).2))
    else (s1, ms, [], anyCell fun m n => (f m n).2)
  | .mmaQ af row a b pair scales =>
    let f := mmaQTile sc ftz af row a b scales acc
    let s1 := mark (put st row fun m n => (f m n).1) row follower
    if pair then
      let g := mmaQTile sc ftz af row a (b + 1536) (scales.drop 96) st.accF
      (mark { s1 with accF := putTile s1.accF row fun m n => (g m n).1 } row true, ms, [],
        anyCell (fun m n => (f m n).2) || anyCell (fun m n => (g m n).2))
    else (s1, ms, [], anyCell fun m n => (f m n).2)
  | .mmaI bits row a b pair =>
    let s1 := mark (put st row (mmaITile sc bits row a b acc)) row follower
    if pair then
      (mark { s1 with accF := putTile s1.accF row (mmaITile sc bits row a (b + 384 * bits) st.accF) } row true, ms, [],
        false)
    else (s1, ms, [], false)
  | .mzero row => (mark (put st row fun _ _ => 0) row follower, ms, [], false)
  | .mload fmt row va pages =>
    let w := (tileFmt fmt).width / 8
    let r := tileBytes st ms cl spec see va pages (6144 * w)
    (mark (put st row fun m n => tileIn fmt ftz (leNat ((r.1.drop ((96 * m + n) * w)).take w))) row follower, r.2, [], false)
  | .mstore fmt row va pages =>
    let w := (tileFmt fmt).width / 8
    let v := (List.range 6144).map fun i => tileOut fmt ftz (cell acc (row + i / 96) (i % 96))
    (st, ms, [(va, pages, (v.map fun x => leBytes x.1 w).flatten)], v.any fun x => x.2)

/-! ### Poison (21 R412, R413), and what MSTOREs own -/

/-- Whether a scratch range is poisoned (21 R412). -/
def BlkState.poisoned (st : BlkState) (off n : Nat) : Bool := (sectorsOf off n).any fun x => st.spoison.contains x

/-- Whether a global read consumes poison (21 R413). -/
def MemSys.readPoison (ms : MemSys) (cl : Nat) (spec : Option Nat) (pa n : Nat) (p : Place) (ldb : Bool) : Bool :=
  let past := fun (home : Bool) => home ||
    (match ms.cc.get? (ccKey cl (pa / 64)) with
      | some x => x.poison && x.dirty != 0
      | none => false)
  match spec with
  | some k => if ((ms.cocoon k).lines.get? (pa / 256)).isSome then ms.specPoisoned k pa n else past (ms.poisoned pa n)
  | none =>
    match p with
    | .cache => if ldb then past (ms.poisoned pa n) else (ms.ccSector cl (pa / 64)).poison
    | .remote _ => false
    | .l2 => ms.poisoned pa n
    | .slice => ms.poisoned pa n

/-- Whether an operation reads poison (21 R413). -/
def mopPoison (st : BlkState) (ms : MemSys) (cl : Nat) (spec : Option Nat) : MOp → Bool
  | .mmaF bf af _ a b pair => st.poisoned a (2048 * aBytes af) || st.poisoned b (384 * (aFmt bf).width * (if pair then 2 else 1))
  | .mmaI bits _ a b pair => st.poisoned a 2048 || st.poisoned b (384 * bits * (if pair then 2 else 1))
  | .mmaQ af _ a b pair _ => st.poisoned a (2048 * aBytes af) || st.poisoned b (1536 * (if pair then 2 else 1))
  | .mzero _ => false
  | .mload f _ va pages =>
    let n := 6144 * ((tileFmt f).width / 8)
    if inWindow va then st.poisoned (va.toNat - windowBase) n
    else (List.range (n / 64)).any fun i =>
      let a : W64 := va + BitVec.ofNat 64 (64 * i)
      ms.readPoison cl spec (leafPa (pages.getD (a.toNat / 262144) 0) a) 64 .cache true
  | .mstore _ _ _ _ => false

/-- The sectors of a tile in global memory, by the pages that its word probed (07 R206, R207). -/
def tileSectors (va : W64) (pages : KMap W64) (n : Nat) : List Nat :=
  (List.range (n / 64)).map fun i =>
    let a : W64 := va + BitVec.ofNat 64 (64 * i)
    leafPa (pages.getD (a.toNat / 262144) 0) a / 64

/-- The sectors that an MSTORE owns until its batch retires (07 R207). -/
def MOp.owns : MOp → List Nat
  | .mstore f _ va pages => if inWindow va then [] else tileSectors va pages (6144 * ((tileFmt f).width / 8))
  | _ => []

/-- The sectors that the MSTOREs of a batch own. -/
def Batch.owns (t : Batch) : List Nat :=
  (t.ops.flatMap fun o => o.2.2.owns) ++ t.outs.flatMap fun o => if inWindow o.1 then [] else tileSectors o.1 o.2.1 o.2.2.length

/-- The sectors that the MSTOREs of a block own. -/
def BlkState.owns (st : BlkState) : List Nat := st.groups.flatMap fun g => g.batches.flatMap Batch.owns

end Sys2Proof.Machine
end

