-- ==== Sys2Proof/Machine/Ops.lean ====
section
/-! DEFINITION. The operations that meanings share: waiting, what happens to a block from outside, and taking a fault,
which every faulting word does in the one way of 17 R361 to R367, 16 R347 and 21 R413 to R416. -/

namespace Sys2Proof.Machine

/-! ### Waiting and waking -/

/-- The word of a slot waits: nothing of it is performed yet, or only what `w` says. -/
def State.waitSlot (s : State) (q : Cur) (w : SWait) : State :=
  s.putGrp q (q.grp.setSlot q.slot { q.grp.pcSlot q.slot with wait := w })

/-- Put another wait in a slot. -/
def PcSlot.rewait (p : PcSlot) (f : SWait → SWait) : PcSlot := { p with wait := f p.wait }

/-- Change the waits of every group of every block that a test names. -/
def State.rewait (s : State) (test : Nat → Block → Nat → Bool) (f : SWait → SWait) : State :=
  let one := fun (i : Nat) (b : Block) (gi : Nat) (g : Group) =>
    if test i b gi then { g with slot0 := g.slot0.rewait f, slot1 := g.slot1.rewait f } else g
  { s with blocks := KMap.mapV (fun i b => { b with st := { b.st with groups := b.st.groups.mapIdx (one i b) } }) s.blocks }

/-- A wait is over: the word goes on, a WAITPH by looking at its objects again. -/
def SWait.woken : SWait → SWait
  | .waitph => .waitphGo
  | _ => .resume

/-- A wait of one kind is over. -/
def SWait.over (w : SWait) (isIt : SWait → Bool) : SWait := if isIt w then w.woken else w

/-- Waits of one kind in a block are over. -/
def State.wakeBlk (s : State) (id : Nat) (isIt : SWait → Bool) : State :=
  s.rewait (fun i _ _ => i == id) fun w => w.over isIt

/-- Waits for held acts. -/
def SWait.isDrain : SWait → Bool
  | .drain _ _ => true
  | _ => false
/-- Waits for a held range. -/
def SWait.isHeld : SWait → Bool
  | .held => true
  | _ => false
/-- Waits for batches. -/
def SWait.isBatch : SWait → Bool
  | .batch => true
  | _ => false
/-- Waits for a phase. -/
def SWait.isWaitph : SWait → Bool
  | .waitph => true
  | _ => false
/-- Waits for BUSY. -/
def SWait.isBusy : SWait → Bool
  | .busy _ => true
  | _ => false
/-- COINIT waits. -/
def SWait.isCoinit : SWait → Bool
  | .coinit => true
  | _ => false

/-- Change a block from outside its core: the block itself, and its states in the journal, so that a rewind does not
undo what came from outside (21 R410, R411). -/
def State.updBlk (s : State) (id : Nat) (f : BlkState → BlkState) : State :=
  match s.blocks.get? id with
  | none => s
  | some b =>
    let upd := fun (s : State) (co : Nat) =>
      let c := s.core b.cl co
      s.setCore b.cl co { c with journal := c.journal.map fun e => if e.blk = id then { e with st := f e.st } else e }
    let s1 := upd (s.setBlock id { b with st := f b.st }) b.co
    if b.pair then upd s1 (b.co + 1) else s1

/-- Change one group from outside. -/
def State.updGrp (s : State) (id gi : Nat) (f : Group → Group) : State :=
  s.updBlk id fun st =>
    match st.groups[gi]? with
    | some g => st.setGroup gi (f g)
    | none => st

/-- The key of the counts of a block: its context, or its speculation until that is claimed (16 R353). -/
def Block.perfKey (b : Block) : Nat :=
  match b.spec with
  | some n => 1024 + n
  | none => b.asid

/-- The counts of a speculation, in every core and cluster, go: to its context, or nowhere (16 R353). -/
def State.movePerf (s : State) (n : Nat) (dest : Option Nat) : State :=
  let k := 1024 + n
  let add := fun (m : KMap CorePerf) =>
    match dest, m.get? k with
    | some a, some x =>
      let y := m.getD a CorePerf.zero
      (m.del k).put a ⟨x.slips + y.slips, x.assists + y.assists, x.rewinds + y.rewinds, x.mmas + y.mmas, x.copies + y.copies⟩
    | _, _ => m.del k
  let addMiss := fun (m : KMap (BitVec 64)) =>
    match dest, m.get? k with
    | some a, some x => (m.del k).put a (x + m.getD a 0)
    | _, _ => m.del k
  { s with
    cores := KMap.mapV (fun _ (c : CoreState) => { c with perf := add c.perf }) s.cores
    clusters := KMap.mapV (fun _ (c : ClusterState) => { c with icMiss := addMiss c.icMiss }) s.clusters }

/-- Count for a core and a context (08 R253). -/
def State.countCore (s : State) (cl co asid : Nat) (f : CorePerf → CorePerf) : State :=
  let c := s.core cl co
  s.setCore cl co { c with perf := c.perf.put asid (f (c.perf.getD asid CorePerf.zero)) }

/-- A group adds to the counts of its core (08 R253). -/
def State.tallied (s : State) (id gi : Nat) (t : Tally) : State :=
  match s.blocks.get? id with
  | none => s
  | some b =>
    match b.st.groups[gi]? with
    | none => s
    | some g =>
      (s.setBlock id { b with st := b.st.setGroup gi { g with tally := g.tally.add t } }).countCore b.cl (b.coreOf gi) b.perfKey
        fun p => p.plus t

/-- A copy of a launch delivers or a batch retires: its watchdog starts again (19 R401, 21 R420). -/
def State.launchActive (s : State) (l : Nat) : State :=
  match s.qs.launches.get? l with
  | some x => { s with qs := { s.qs with launches := s.qs.launches.put l { x with active := true } } }
  | none => s

/-! ### Fault numbers and kinds (17 R362) -/

/-- The number of a fault code (17 R362). -/
def FaultCode.num : FaultCode → BitVec 8
  | .illegalInstr => 0x01
  | .illegalPair => 0x02
  | .reservedField => 0x03
  | .pageFaultRead => 0x10
  | .pageFaultWrite => 0x11
  | .permission => 0x12
  | .misaligned => 0x13
  | .scratchRange => 0x14
  | .accWindow => 0x20
  | .batchFuture => 0x21
  | .phaseFuture => 0x22
  | .termTag => 0x30
  | .overlayFull => 0x31
  | .markerOverflow => 0x32
  | .trailOverflow => 0x33
  | .heapOverflow => 0x34
  | .pdlOverflow => 0x35
  | .adoptPrivate => 0x36
  | .divStack => 0x40
  | .poisonConsumed => 0x50
  | .hang => 0x51
  | .remoteRecoveryTimeout => 0x52
  | .trapInstr => 0x60
  | .bkpt => 0x61
  | .fabricUnreachable => 0x70
  | .blockTerminated => 0x80

/-- A fault that goes to the memory core (17 R362): a translation fault that is not delivered as an error at once. -/
def FaultInfo.replayable (f : FaultInfo) : Bool :=
  match f.code with
  | .pageFaultRead => !f.atOnce
  | .pageFaultWrite => !f.atOnce
  | .permission => !f.atOnce
  | _ => false

/-! ### Fault records (17 R365) -/

/-- The eight words of a fault record (17 R365). -/
def faultRecord (code : BitVec 8) (arg : BitVec 18) (lane grp asid cl co : Nat) (pc : BitVec 57) (ea : W64)
    (blk : Nat) (qcb qpkt : W64) (cycle : Nat) : List W64 :=
  [code ++ (0 : BitVec 6) ++ arg ++ BitVec.ofNat 5 lane ++ BitVec.ofNat 5 grp ++ (0 : BitVec 2) ++ BitVec.ofNat 10 asid ++
      BitVec.ofNat 7 cl ++ BitVec.ofNat 3 co,
    pc.setWidth 64, ea, BitVec.ofNat 64 blk, qcb, qpkt, BitVec.ofNat 64 cycle, 0]

/-- F3 writes a record into the context's ring of 64 in memory, which the host reads: a record stays until the host has counted it
as read; a full ring drops the next and counts it in its header (17 R365; log 103). -/
def State.record (s : State) (asid : Nat) (r : List W64) : State :=
  match s.ctxs.get? asid with
  | none => s
  | some c =>
    let read := min c.ring.length (s.ms.mem.word (c.ringAt + Config.ringRead) - BitVec.ofNat 64 c.ringRead).toNat
    let left := c.ring.drop read
    let at_ := c.ringRead + read
    if left.length < 64 then
      let bytes := (r.map fun (w : W64) => leBytes w.toNat 8).flatten
      { s with
        ctxs := s.ctxs.put asid { c with ring := left ++ [r], ringRead := at_ }
        ms := s.ms.homeWrite (c.ringAt + Config.ringRecord ((at_ + left.length) % 64)) bytes }
    else
      { s with
        ctxs := s.ctxs.put asid { c with ring := left, ringRead := at_, dropped := c.dropped + 1 }
        ms := s.ms.homeWrite (c.ringAt + Config.ringDropped) (leBytes (c.dropped + 1) 8) }

/-- The queue of a launch. -/
def State.launchQueue (s : State) (l : Nat) : Option Nat := (s.qs.launches.get? l).map fun x => x.q

/-- The handle of the queue of a launch. -/
def State.launchHandle (s : State) (l : Nat) : W64 :=
  match (s.launchQueue l).bind fun k => s.qs.queues.get? k with
  | some x => x.handle
  | none => 0

/-- The record of a fault of a group. -/
def State.groupRecord (s : State) (b : Block) (gi : Nat) (pc : BitVec 57) (f : FaultInfo) : List W64 :=
  faultRecord f.code.num f.arg f.lane gi b.asid b.cl b.co pc f.ea b.index (s.launchHandle b.launch) b.qpkt (s.clk b.cl)

/-- Post something to the host. -/
def State.post (s : State) (e : HostEvent) : State := { s with qs := { s.qs with hostEvents := s.qs.hostEvents ++ [e] } }

/-! ### Queues (15 R323) -/

/-- The number of a queue state (15 R323). -/
def QState.num : QState → Nat
  | .dead => 0
  | .idle => 1
  | .ready => 2
  | .mapped => 3
  | .unmapping => 4
  | .error => 5

/-- The words of a QCB that the brood owns: all but w2 and w3 (15 R323, R324). -/
def Queue.word (x : Queue) (k : Nat) : W64 :=
  if k = 0 then x.base
  else if k = 1 then
    (0 : BitVec 6) ++ BitVec.ofNat 10 x.asid ++ BitVec.ofNat 16 x.gang ++ x.classmask ++ (0 : BitVec 8) ++
      BitVec.ofNat 3 x.bpri ++ BitVec.ofNat 5 x.log2n
  else if k = 4 then
    (0 : BitVec 24) ++ BitVec.ofNat 8 x.err ++ BitVec.ofNat 16 x.age ++ BitVec.ofNat 8 x.slot ++ (0 : BitVec 3) ++
      bit x.eph ++ bit x.pend ++ BitVec.ofNat 3 x.st.num
  else if k = 5 then BitVec.ofNat 64 x.errpos
  else if k < 16 then
    match x.fstate with
    | some n => Config.fstateWord n (k - 6)
    | none => 0
  else if k = 16 then x.savea
  else 0

/-- Replace a queue; F1 writes the copy in memory whenever a field changes (15 R324). -/
def State.setQueue (s : State) (k : Nat) (x : Queue) : State :=
  { s with
    qs := { s.qs with queues := s.qs.queues.put k x }
    ms := (s.ms.homeWrite x.pa ((List.range 2).flatMap fun i => leBytes (x.word i).toNat 8)).homeWrite (x.pa + 32)
      ((List.range 28).flatMap fun i => leBytes (x.word (i + 4)).toNat 8) }

/-- A queue enters ERROR: the code and position stay if a code is held; a parked WAITSIG is cancelled (15 R322,
R330, 17 R364). A replica that has joined still waits for START or ABORT: it runs on every chip or on none (19 R399). -/
def State.queueError (s : State) (k err pos : Nat) : State :=
  match s.qs.queues.get? k with
  | none => s
  | some x =>
    let y := if x.err = 0 then { x with err := err, errpos := pos } else x
    ({ s with ms := s.ms.unwatch k } : State).setQueue k { y with st := .error, fetch := if y.fetch.joined then y.fetch else .none, waiting := false, desc := .none }

/-! ### Speculations (16 R349) -/

/-- Sum of two. -/
def Load.add (a b : Load) : Load :=
  ⟨a.groups + b.groups, a.regBytes + b.regBytes, a.scratch + b.scratch, a.tiles + b.tiles, a.blocks + b.blocks⟩

/-- What a core of a block takes: of the only core or the leader, or of the follower. Groups that have retired take nothing (09
R259, R261). -/
def Block.load (b : Block) (follower : Bool) : Load :=
  let live := (b.st.groups.zipIdx.filter fun x => !x.1.retired && (b.coreOf x.2 != b.co) == follower).length
  let half := 16384 * ((b.scratchSize / 16384 + 1) / 2)
  ⟨live, 256 * b.nregs * live,
    if !b.pair then b.scratchSize else if follower then b.scratchSize - half else half, b.tiles, 1⟩

/-- Freed resources of a core are zeroed before another owner takes them (17 R376). -/
def State.zeroLater (s : State) (cl co : Nat) (x : Load) : State :=
  let c := s.core cl co
  s.setCore cl co { c with zeroing := c.zeroing.add x }

/-- Registers, scratch and tiles of a block are to be zeroed on its cores (17 R376). -/
def State.freeBlock (s : State) (b : Block) : State :=
  let add := fun (s : State) (co : Nat) => s.zeroLater b.cl co { b.load (co != b.co) with groups := 0, blocks := 0 }
  let s1 := add s b.co
  if b.pair then add s1 (b.co + 1) else s1

/-- Take a block away: its resources are zeroed, its acts held in a core and its monitors go. -/
def State.removeBlock (s : State) (id : Nat) : State :=
  match s.blocks.get? id with
  | none => s
  | some b =>
    let clear := fun (s : State) (co : Nat) =>
      let c := s.core b.cl co
      s.setCore b.cl co
        { c with held := c.held.filter (fun h => h.blk != id), journal := c.journal.filter (fun e => e.blk != id) }
    let s1 := clear (s.freeBlock b) b.co
    let s2 := if b.pair then clear s1 (b.co + 1) else s1
    { s2 with
      blocks := s2.blocks.del id
      faultQ := s2.faultQ.filter fun p => match p.who with
        | .group i _ => i != id
        | _ => true
      ms := { s2.ms with
        monitors := s2.ms.monitors.filter fun m => m.blk != id
        fired := s2.ms.fired.filter fun p => p.1 != id
        copies := s2.ms.copies.filter fun p => p.2.blk != id } }

/-- Change what F7 counts for a slot (16 R353). -/
def State.updTele (s : State) (slot : Nat) (f : Tele → Tele) : State :=
  { s with qs := { s.qs with tele := s.qs.tele.put slot (f (s.qs.tele.getD slot ⟨0, 0, []⟩)) } }

/-- Discard a speculation for a cause (16 R349): its groups are dropped, its cocoon is freed, its number returns; of it F7's count
stays alone (16 R353). -/
def State.discardSpec (s : State) (n : Nat) (cause : SpecEnd) : State :=
  let ids := (s.blocks.filter fun p => p.2.spec == some n).map fun p => p.1
  let s0 := match s.qs.specs.get? n with
    | some x => s.updTele x.slot fun t => { t with discarded := cause :: t.discarded }
    | none => s
  let s1 := (ids.foldl State.removeBlock s0).movePerf n none
  let launches :=
    match s1.qs.specs.get? n with
    | some x => s1.qs.launches.del x.launch
    | none => s1.qs.launches
  { s1 with
    qs := { s1.qs with specs := s1.qs.specs.del n, launches := launches }
    ms := { s1.ms with cocoons := s1.ms.cocoons.del n } }

/-- A speculation whose writes have made its cocoon too large aborts (16 R347). -/
def State.dropFull (s : State) (spec : Option Nat) : State :=
  match spec with
  | some n => if s.ms.cocoonFull n then s.discardSpec n .full else s
  | none => s

/-! ### Delivering an error (17 R364) -/

/-- The size of the image of a block, by the sections of 17 R370. -/
def Block.imageSize (b : Block) : Nat :=
  768 + (512 + 6144 + 256 * b.nregs) * b.st.groups.length + b.scratchSize + 24576 * b.tiles * if b.pair then 2 else 1

/-- Every resident block of a launch stops for termination, and its saved blocks are discarded with their images (17 R364, R376). -/
def State.terminateLaunch (s : State) (l : Nat) : State :=
  { s with
    blocks := KMap.mapV (fun _ b =>
      if b.launch = l then
        match b.stopping with
        | .terminate _ => b
        | _ => { b with stopping := .terminate none }
      else b) s.blocks
    saved := s.saved.filter fun p => p.2.blk.launch != l
    ms := (s.saved.filter fun p => p.2.blk.launch == l).foldl (fun m p => m.zeroRange (p.2.addr, p.2.blk.imageSize)) s.ms
    qs := { s.qs with launches :=
      match s.qs.launches.get? l with
      | some x =>
        let gone := (s.saved.filter fun p => p.2.blk.launch == l).length
        let waiting := (x.chunks.map fun p => (p.2.map List.length).sum).sum
        s.qs.launches.put l { x with
          terminated := true
          ended := x.ended + gone + waiting + (x.total - x.handed)
          handed := x.total
          chunks := [] }
      | none => s.qs.launches } }

/-- The position at which the packet of a launch was read. -/
def State.launchPos (s : State) (l : Nat) : Nat :=
  match s.qs.launches.get? l with
  | some x => x.pos
  | none => 0

/-- Deliver an error of the word at a PC of a group (17 R364): its block stops and will write one record; the launch
dispatches no more; the queue enters ERROR at once. -/
def State.deliverErrorAt (s : State) (q : Cur) (pc : BitVec 57) (f : FaultInfo) : State :=
  let s1 := s.putGrp q { q.grp with park := .fault q.slot pc f }
  let s2 := s1.terminateLaunch q.blk.launch
  let s3 :=
    match s2.blocks.get? q.id with
    | some b => s2.setBlock q.id { b with stopping := .terminate (some (q.gi, pc, f)) }
    | none => s2
  match s3.launchQueue q.blk.launch with
  | some k => (s3.queueError k 12 (s3.launchPos q.blk.launch)).post (.faulted k)
  | none => s3

/-- Deliver an error of the issuing word. -/
def State.deliverError (s : State) (q : Cur) (f : FaultInfo) : State := s.deliverErrorAt q q.pc f

/-! ### What a core shows its own reads (06 R147, 16 R344) -/

/-- The chip whose memory an act or an access names; none for this chip. -/
def Place.chip? : Place → Option Nat
  | .remote c => some c
  | .cache => none
  | .l2 => none
  | .slice => none

/-- The acts of a core that a block may see: the writes of a speculation are for the speculation alone (11 R300, R302 N10). -/
def State.visible (s : State) (cl co : Nat) (spec : Option Nat) : List Held :=
  (s.core cl co).held.filter fun h =>
    match (s.blocks.get? h.blk).bind fun b => b.spec with
    | some n => spec == some n
    | none => true

/-- Put queued bytes over bytes read (06 R147). -/
def overlay (pa : Nat) (bytes : List Byte) (qa : Nat) (queued : List Byte) : List Byte :=
  bytes.mapIdx fun i b => if qa ≤ pa + i ∧ pa + i < qa + queued.length then queued.getD (pa + i - qa) b else b

/-- The bytes that a load of the core reads: the queued ones where a store covers them. -/
def forward (held : List Held) (chip : Option Nat) (pa : Nat) (bytes : List Byte) : List Byte :=
  held.foldl (fun acc h =>
    match h.act with
    | .store p _ qa queued => if p.chip? = chip then overlay pa acc qa queued else acc
    | _ => acc) bytes

/-- The packet words that a speculation predicts, for a read of its ring slot (16 R344): none outside the slot, and
`some none` where a field is unpredicted. -/
def State.predicted (s : State) (b : Block) (ea : W64) (n : Nat) : Option (Option (List Byte)) :=
  match b.spec.bind s.qs.specs.get? with
  | none => none
  | some x =>
    let o := (ea - b.qpkt).toNat
    if o < 128 then
      let ws := ((x.fields.drop (o / 8)).take ((o % 8 + n + 7) / 8))
      if ws.all Option.isSome then
        some (some (((ws.map fun w => leBytes (w.getD 0).toNat 8).flatten.drop (o % 8)).take n))
      else some none
    else none

/-- What the core of a group shows a read past the cluster cache: the packet that a speculation predicts, and the bytes that its
store queue holds (06 R147, 16 R344). -/
def State.sees (s : State) (b : Block) (gi : Nat) (ea : W64) (pa : Nat) (l : List Byte) : List Byte :=
  match s.predicted b ea l.length with
  | some (some p) => p
  | _ => forward (s.visible b.cl (b.coreOf gi) b.spec) none pa l

/-! ### Poison and rollback (21 R413, R416) -/

/-- What a group keeps across a rollback: the counters of words, pairs and alternatives. -/
def Group.keepPerf (old new : Group) : Group :=
  { new with
    perfIssued := old.perfIssued
    perfPairs := old.perfPairs
    perfFails := old.perfFails
    stallUntil := old.stallUntil
    ready := []
    park := .none
    sb := 0
    psb := 0
    acqPend := 0
    acqAt := old.acqAt
    ahead := []
    tally := old.tally }

/-- Write the bytes of an MSTORE at retirement (07 R207): into scratch, or to the home of each sector. -/
def writeOut (st : BlkState) (ms : MemSys) (spec : Option Nat) (o : W64 × KMap W64 × List Byte) : BlkState × MemSys :=
  if inWindow o.1 then
    ((List.range (o.2.2.length / 64)).foldl (fun x i =>
      x.writeScratch (o.1.toNat - windowBase + 64 * i) ((o.2.2.drop (64 * i)).take 64)) st, ms)
  else
    (st, (List.range (o.2.2.length / 64)).foldl (fun m i =>
      let a : W64 := o.1 + BitVec.ofNat 64 (64 * i)
      let pa := leafPa (o.2.1.getD (a.toNat / 262144) 0) a
      let d := (o.2.2.drop (64 * i)).take 64
      match spec with
      | some k => (m.specWrite k pa d).giveBack spec (pa / 64)
      | none => (m.homeWrite pa d).giveBack none (pa / 64)) ms)

/-- What is left of an operation of a batch runs, with what the batch will write and how often the assist routine was called. One that
reads poison writes nothing (21 R413; log 116). -/
def drainOp (b : Block) (gi : Nat) (see : W64 → Nat → List Byte → List Byte)
    (a : BlkState × MemSys × List (W64 × KMap W64 × List Byte) × BitVec 64) (op : MOp) :
    BlkState × MemSys × List (W64 × KMap W64 × List Byte) × BitVec 64 :=
  if mopPoison a.1 a.2.1 b.cl b.spec op then a
  else
    let r := runMOp a.1 a.2.1 b.cl b.spec see b.ftz (b.pair && decide (b.coreOf gi ≠ b.co)) op
    (r.1, r.2.1, a.2.2.1 ++ r.2.2.1, if r.2.2.2 then a.2.2.2 + 1 else a.2.2.2)

/-- Run and retire the closed batches of a group, oldest first: the block, memory, and what they count. -/
def drainGroup (b : Block) (gi : Nat) (see : W64 → Nat → List Byte → List Byte) :
    List Batch → BlkState × MemSys × Tally → BlkState × MemSys × Tally
  | [], x => x
  | t :: l, x =>
    if t.closed then
      let y := t.ops.foldl (fun a o => drainOp b gi see a o.2.2) (x.1, x.2.1, t.outs, 0)
      let z := y.2.2.1.foldl (fun a o => writeOut a.1 a.2 b.spec o) (y.1, y.2.1)
      drainGroup b gi see l (z.1, z.2, x.2.2.add ⟨0, y.2.2.2, BitVec.ofNat 64 t.mmas⟩)
    else x

/-- Engines own what the MSTOREs of a block own after it has gone from one state to another (07 R207). -/
def MemSys.reown (ms : MemSys) (spec : Option Nat) (old new : List Nat) : MemSys :=
  ms.setOwned spec (new ++ old.foldl List.erase (ms.ownedBy spec))

/-- Roll a protected block back to its checkpoint (21 R416). A scratch sector that it has not written since keeps the poison that it has met
since. -/
def State.rollback (s : State) (id : Nat) (b : Block) (ck : BlkState) : State :=
  let d := (List.range b.st.groups.length).foldl (fun (x : BlkState × MemSys × List (Nat × Tally)) gi =>
    match b.st.groups[gi]? with
    | some g =>
      let y := drainGroup b gi (s.sees b gi) g.batches (x.1, x.2.1, Tally.zero)
      (y.1, y.2.1, (gi, y.2.2) :: x.2.2)
    | none => x) (b.st, s.ms, [])
  let open_ := b.st.groups.flatMap fun g => (g.batches.filter fun t => !t.closed).flatMap Batch.owns
  let written := d.1.sectors
  let groups := ck.groups.mapIdx fun i g =>
    match b.st.groups[i]? with
    | some o => o.keepPerf g
    | none => g
  let b1 := { b with
    st := { ck with
      groups := groups
      adopts := b.st.adopts
      spoison := (ck.spoison.filter fun x => written.contains x) ++ d.1.spoison.filter fun x => !written.contains x
      sectors := []
      tilesW := [] }
    prot := { b.prot with rolledBack := true, pending := [] } }
  let clear := fun (s : State) (co : Nat) =>
    let c := s.core b.cl co
    s.setCore b.cl co
      { c with held := c.held.filter (fun h => h.blk != id), journal := c.journal.filter (fun e => e.blk != id) }
  let ms := d.2.1.reown b.spec open_ []
  let s1 := clear ({ s with ms := { ms with
      monitors := ms.monitors.filter (fun m => m.blk != id)
      fired := ms.fired.filter fun p => p.1 != id } }.setBlock id b1) b.co
  let s2 := if b.pair then clear s1 (b.co + 1) else s1
  d.2.2.foldl (fun a p => a.tallied id p.1 p.2) s2

/-- The word at a PC consumes poison (21 R413): a protected block rolls back once in an interval, and writes a record;
otherwise the block is terminated. -/
def State.consumePoison (s : State) (q : Cur) (pc : BitVec 57) (lane : Nat) (ea : W64) : State :=
  let f : FaultInfo := { code := .poisonConsumed, lane := lane, ea := ea }
  match q.blk.prot.ckpt with
  | some ck =>
    if q.blk.prot.on && !q.blk.prot.sealed && !q.blk.prot.rolledBack then
      (s.record q.blk.asid (s.groupRecord q.blk q.gi pc f)).rollback q.id q.blk ck
    else s.deliverErrorAt q pc f
  | none => s.deliverErrorAt q pc f

/-! ### Taking a fault (17 R361) -/

/-- The root of a context's page tables. -/
def State.root (s : State) (asid : Nat) : Nat :=
  match s.ctxs.get? asid with
  | some c => c.root
  | none => 0

/-- The die of a cluster: 24 clusters on each (00 R1; log 92). -/
def dieOfCluster (cl : Nat) : Nat := cl / 24

/-- A walk of the walker for a cluster (17 R359). -/
def State.walkFor (s : State) (cl asid : Nat) (va : W64) : State × Option (W64 × Bool) :=
  if inWindow va then (s, none)
  else
    let r := MemSys.walkVia cl (dieOfCluster cl) asid s.free va 3 0 (s.root asid) s.ms
    ({ s with ms := r.1, free := s.free + 2 }, r.2)

/-- A line of 256 bytes from the L2 goes into the instruction cache of a cluster, which holds 64 KiB (09 R268). -/
def State.icFill (s : State) (cl asid : Nat) (pc : BitVec 57) (pa : Nat) : State :=
  let ws := (List.range 32).map fun i => s.ms.mem.word (pa + 8 * i)
  let bad := (List.range 4).foldl (fun (m : BitVec 4) i =>
    if s.ms.poison.contains (pa / 64 + i) then m ||| ((1 : BitVec 4) <<< i) else m) 0
  { s with
    ms := { s.ms with icache := s.ms.icache.putCap (fun k => k / 2 ^ 60 == cl) 256 s.free (icKey cl asid pc) (ws, bad) }
    free := s.free + 1 }

/-- A page of this chip that a translation reaches is one that the context has mapped (17 R376). -/
def State.reached (s : State) (asid : Nat) (va e : W64) (big : Bool) : State :=
  let pa := 65536 * pteAddr e
  let size := if big then 2 ^ 31 else 2 ^ 18
  let page := (va.toNat / size * size, pa, size)
  match s.ctxs.get? asid with
  | some c =>
    if pteRem e || isHost pa || c.mapped.contains page then s
    else { s with ctxs := s.ctxs.put asid { c with mapped := page :: c.mapped } }
  | none => s

/-- A translation goes into the TLB of a cluster and the micro-TLB of a core (17 R359). -/
def State.keepTr (s : State) (cl co asid : Nat) (va e : W64) (big : Bool) : State :=
  let c := s.core cl co
  let s1 := (s.setCore cl co { c with utlb := c.utlb.putCap (fun _ => true) 64 s.free (trKey asid va big) e }).reached asid va e big
  { s1 with ms := s1.ms.tlbPut cl asid (s.free + 1) va e big, free := s.free + 2 }

/-- A word that waits keeps a translation that it has obtained. -/
def PcSlot.gotTr (p : PcSlot) (asid : Nat) (va e : W64) (big : Bool) : PcSlot :=
  { p with pages := p.pages.put (trKey asid va big) e }

/-- The translation that an access of the issuing word uses: one that the word has obtained, or one of its micro-TLB, through
which every translation of the core passes (17 R359). -/
def State.trOf (s : State) (q : Cur) (va : W64) : Option W64 :=
  match trGet (q.grp.pcSlot q.slot).pages 0 q.blk.asid va with
  | some e => some e
  | none => trGet (s.core q.blk.cl q.co).utlb 0 q.blk.asid va

/-- Whether a walk made now serves the access that a replayable fault stopped (17 R363, step 1): the leaf entry, and whether its
page is of 2 GiB. Nothing is fetched from a remote page, whatever its rights (19 R392). -/
def State.resolves (s : State) (asid : Nat) (f : FaultInfo) (needR needW needX : Bool) : Option (W64 × Bool) :=
  match s.ms.walkRaw (s.root asid) f.ea with
  | some (leaf, big) =>
    if (!needR || pteR leaf) && (!needW || pteW leaf) &&
        (!needX || (pteX leaf && !(pteRem leaf && pteChip leaf != s.fab.chip))) then some (leaf, big) else none
  | none => none

/-- A page fault goes to the host driver's fault queue; faults on one page are merged (17 R363). -/
def State.postFault (s : State) (x : Posted) : State :=
  let s1 : State := { s with faultQ := s.faultQ ++ [x] }
  if s.faultQ.any fun y => y.asid == x.asid && y.page == x.page then s1 else s1.post (.pageFault x.asid x.page)

/-- A block is pre-empted by a trap under DEBUG; the blocks of a COOP launch leave together (17 R367, R368). -/
def State.trapStop (s : State) (q : Cur) : State :=
  let coop := match s.qs.launches.get? q.blk.launch with
    | some x => x.coop
    | none => false
  { s with blocks := KMap.mapV (fun id (b : Block) =>
      if id = q.id then { b with stopping := .preempt (some q.gi) }
      else if coop && b.launch == q.blk.launch && b.stopping == .none then { b with stopping := .preempt none }
      else b) s.blocks }

/-- TRAP and BKPT (17 R367): under DEBUG the record is written and the block is pre-empted after the word; else an error. -/
def State.takeTrap (s : State) (q : Cur) (f : FaultInfo) : State :=
  if (match s.ctxs.get? q.blk.asid with
    | some c => c.debug
    | none => false) then
    ((s.record q.blk.asid (s.groupRecord q.blk q.gi q.pc f)).finish q q.blk.st q.grp).trapStop q
  else s.deliverError q f

/-- Take a fault of the issuing word (17 R361). The word has performed nothing, but for what UPD or TIX records.
In a speculation it aborts it (16 R347). A trap under DEBUG writes its record and pre-empts the block, which
resumes at the next word (17 R367). A replayable fault is walked again and else posted to the host driver (17
R363). Poison rolls back or terminates. Every other fault is delivered as an error (17 R364). -/
def State.takeFault (s : State) (q : Cur) (f : FaultInfo) : State :=
  match q.blk.spec with
  | some n => s.discardSpec n .abort
  | none =>
    match f.code with
    | .poisonConsumed => s.consumePoison q q.pc f.lane f.ea
    | .trapInstr => s.takeTrap q f
    | .bkpt => s.takeTrap q f
    | _ =>
      if f.replayable then
        let write := f.code == .pageFaultWrite || f.arg.getLsbD 1
        match s.resolves q.blk.asid f (f.arg.getLsbD 0) write (f.arg.getLsbD 2) with
        | some (e, big) =>
          let p := q.grp.setSlot q.slot ((q.grp.pcSlot q.slot).gotTr q.blk.asid f.ea e big)
          (s.putGrp q p).keepTr q.blk.cl q.co q.blk.asid f.ea e big
        | none =>
          let p := q.grp.setSlot q.slot { q.grp.pcSlot q.slot with wait := .none, pages := [] }
          (s.putGrp q { p with park := .fault q.slot q.pc { f with arg := 0 } }).postFault
            ⟨q.blk.asid, f.ea.toNat / 262144, f.code, .group q.id q.gi⟩
      else s.deliverError q f

/-! ### Words that only compute in lanes -/

/-- Nothing runs without a group that issues. -/
def withCur (s : State) (k : Cur → Out) : Out :=
  match s.cur? with
  | some q => k q
  | none => .fault .noIssuingGroup

/-- Each executing lane writes a value with its taint to `d`; the latches shift (05 R101). -/
def Group.writeLanes (g : Group) (slot : Bool) (c : Ctl) (d : Reg) (f : Nat → W64 × Bool) : Group :=
  (g.mapLanes fun k l => if g.runs slot c k then l.setReg d (f k).1 (f k).2 else l).shiftLatch d

/-- A lane word without flags (05 R101). -/
def laneWord (s : State) (c : Ctl) (d : Dst) (f : Group → Nat → W64 × Bool) : Out :=
  withCur s fun q => .next (s.finish q q.blk.st (q.grp.writeLanes q.slot c d.r (f q.grp)))

/-- A lane word of variable latency: its result is scoreboarded (02 R43). -/
def laneWordVar (s : State) (c : Ctl) (d : Dst) (f : Group → Nat → W64 × Bool) : Out :=
  withCur s fun q =>
    let g := q.grp.writeLanes q.slot c d.r (f q.grp)
    .next (s.finish q q.blk.st { g with sb := g.sb ||| ((1 : W64) <<< d.r.toNat) })

/-- The group is in the assist routine if a result was tiny; the entry is counted (03 R75, R76). -/
def State.assistIf (s : State) (q : Cur) (b : Bool) : State :=
  if b then
    (s.updGrp q.id q.gi fun g => { g with park := .assist }).tallied q.id q.gi ⟨0, 1, 0⟩
  else s

/-- A float lane word: results, flags, and the assist routine if a result is tiny (05 R105). -/
def floatWord (s : State) (c : Ctl) (d : Dst) (var : Bool) (f : Bool → Group → Nat → LaneRes) : Out :=
  withCur s fun q =>
    let r := f q.blk.ftz q.grp
    let lanes := q.active c
    let g := (q.grp.writeLanes q.slot c d.r fun k => ((r k).v, (r k).t)).addFlags (orFlags lanes r)
    let g1 := if var then { g with sb := g.sb ||| ((1 : W64) <<< d.r.toNat) } else g
    .next ((s.finish q q.blk.st g1).assistIf q (anyAssist lanes r))

/-- Each executing lane writes a predicate (02 R56). -/
def predWord (s : State) (c : Ctl) (p : BitVec 3) (f : Group → Nat → Bool) : Out :=
  withCur s fun q =>
    .next (s.finish q q.blk.st (q.grp.mapLanes fun k l => if q.grp.runs q.slot c k then l.setPred p (f q.grp k) else l))

end Sys2Proof.Machine
end

