-- ==== Sys2Proof/Machine/Alu.lean ====
section
/-! DEFINITION. The meanings of IALU, IMUL and LOGIC (05 R106 to R113). -/

namespace Sys2Proof.Machine

/-- A function of one operand on each sub-element (05 R101). `sx` is the extension that lo and hi take for i64
(02 R39). -/
def int1 (s : State) (c : Ctl) (o : R1 IType) (sx : Bool) (f : (w : Nat) → BitVec w → BitVec w) : Out :=
  laneWord s c o.d fun g k => (map1 o.t.width (f o.t.width) (g.opnd (.int o.t sx) o.a k), g.opndTaint o.a k)

/-- A function of two operands on each sub-element (05 R101). -/
def int2 (s : State) (c : Ctl) (o : R2 IType) (sx : Bool) (f : (w : Nat) → BitVec w → BitVec w → BitVec w) : Out :=
  laneWord s c o.d fun g k =>
    (map2 o.t.width (f o.t.width) (g.opnd (.int o.t sx) o.a k) (g.opnd (.int o.t sx) o.b k),
      g.opndTaint o.a k || g.opndTaint o.b k)

/-- A function of two operands whose latency is variable (02 R43). -/
def int2Var (s : State) (c : Ctl) (o : R2 IType) (sx : Bool) (f : (w : Nat) → BitVec w → BitVec w → BitVec w) : Out :=
  laneWordVar s c o.d fun g k =>
    (map2 o.t.width (f o.t.width) (g.opnd (.int o.t sx) o.a k) (g.opnd (.int o.t sx) o.b k),
      g.opndTaint o.a k || g.opndTaint o.b k)

/-- A function of three operands on each sub-element (05 R101). -/
def int3 (s : State) (c : Ctl) (o : R3 IType) (sx : Bool)
    (f : (w : Nat) → BitVec w → BitVec w → BitVec w → BitVec w) : Out :=
  laneWord s c o.d fun g k =>
    (map3 o.t.width (f o.t.width) (g.opnd (.int o.t sx) o.a k) (g.opnd (.int o.t sx) o.b k) (g.opnd (.int o.t sx) o.c k),
      g.opndTaint o.a k || g.opndTaint o.b k || g.opndTaint o.c k)

/-- Adds sub-elements with wrap (R106). -/
def execAdd (c : Ctl) (o : R2 IType) (s : State) : Out := int2 s c o true (fun _ a b => a + b)

/-- Subtracts sub-elements with wrap (R106). -/
def execSub (c : Ctl) (o : R2 IType) (s : State) : Out := int2 s c o true (fun _ a b => a - b)

/-- Adds sub-elements with signed saturation (R106). -/
def execAdds (c : Ctl) (o : R2 IType) (s : State) : Out := int2 s c o true (fun _ => eAdds)

/-- Subtracts sub-elements with signed saturation (R106). -/
def execSubs (c : Ctl) (o : R2 IType) (s : State) : Out := int2 s c o true (fun _ => eSubs)

/-- Negates sub-elements with wrap (R106). -/
def execNeg (c : Ctl) (o : R1 IType) (s : State) : Out := int1 s c o true (fun _ a => -a)

/-- Absolute value of sub-elements with wrap (R106). -/
def execAbs (c : Ctl) (o : R1 IType) (s : State) : Out := int1 s c o true (fun _ => eAbs)

/-- Signed minimum of sub-elements (R106). -/
def execMin (c : Ctl) (o : R2 IType) (s : State) : Out := int2 s c o true (fun _ => eMin)

/-- Signed maximum of sub-elements (R106). -/
def execMax (c : Ctl) (o : R2 IType) (s : State) : Out := int2 s c o true (fun _ => eMax)

/-- Unsigned minimum of sub-elements (R106). -/
def execUmin (c : Ctl) (o : R2 IType) (s : State) : Out := int2 s c o false (fun _ => eUmin)

/-- Unsigned maximum of sub-elements (R106). -/
def execUmax (c : Ctl) (o : R2 IType) (s : State) : Out := int2 s c o false (fun _ => eUmax)

/-- Signed rounding-up average of sub-elements computed in w+1 bits (R106). -/
def execAvg (c : Ctl) (o : R2 IType) (s : State) : Out := int2 s c o true (fun _ => eAvg)

/-- Computes a + b shifted left by a raw k, modulo 2^64 (R106). -/
def execLea (c : Ctl) (o : RLea) (s : State) : Out :=
  laneWord s c o.d fun g k =>
    (g.opnd (.int .i64 true) o.a k + (g.opnd (.int .i64 true) o.b k <<< o.k.toNat), g.opndTaint o.a k || g.opndTaint o.b k)

/-- Chooses the whole first or second operand by a predicate operand (R107). -/
def execSel (c : Ctl) (o : RSel) (s : State) : Out :=
  laneWord s c o.d fun g k =>
    (if (g.lane k).predOp o.p then g.opnd (.int o.t false) o.a k else g.opnd (.int o.t false) o.b k,
      g.opndTaint o.a k || g.opndTaint o.b k)

/-- Copies the source operand to the destination (R106). -/
def execMov (c : Ctl) (o : R1 IType) (s : State) : Out := int1 s c o false (fun _ a => a)

/-- Writes the sign-extended 18-bit immediate with taint 0 (R106). -/
def execMovi (c : Ctl) (o : RMovi) (s : State) : Out :=
  laneWord s c o.d fun _ _ => (o.imm.signExtend 64, false)

/-- Overwrite one slice of a register (05 R108). -/
def setSlice (j : Slice) (imm : BitVec 18) (d : W64) : W64 :=
  match j with
  | .j1 => (d &&& ~~~ ((0x3FFFF : W64) <<< 18)) ||| (imm.setWidth 64 <<< 18)
  | .j2 => (d &&& ~~~ ((0x3FFFF : W64) <<< 36)) ||| (imm.setWidth 64 <<< 36)
  | .j3 => (d &&& ~~~ ((0x3FF : W64) <<< 54)) ||| ((imm.extractLsb' 0 10).setWidth 64 <<< 54)

/-- Overwrites one 18-bit (or top 10-bit) slice of the destination with the unsigned immediate (R108). -/
def execMovhi (c : Ctl) (o : RMovhi) (s : State) : Out :=
  laneWord s c o.d fun g k => (setSlice o.j o.imm ((g.lane k).reg o.d.r), (g.lane k).tnt o.d.r)

/-- Low w bits of the product of sub-elements (R109). -/
def execMul (c : Ctl) (o : R2 IType) (s : State) : Out := int2 s c o true (fun _ a b => a * b)

/-- High w bits of the signed product (R109). -/
def execMulh (c : Ctl) (o : R2 IType) (s : State) : Out := int2 s c o true (fun _ => eMulh)

/-- High w bits of the unsigned product (R109). -/
def execUmulh (c : Ctl) (o : R2 IType) (s : State) : Out := int2 s c o false (fun _ => eUmulh)

/-- Low w bits of a times b plus c (R109). -/
def execMad (c : Ctl) (o : R3 IType) (s : State) : Out := int3 s c o true (fun _ a b c => a * b + c)

/-- Signed quotient truncated toward zero, never faulting (R110). -/
def execDiv (c : Ctl) (o : R2 IType) (s : State) : Out := int2Var s c o true (fun _ => eDiv)

/-- Unsigned quotient, never faulting (R110). -/
def execUdiv (c : Ctl) (o : R2 IType) (s : State) : Out := int2Var s c o false (fun _ => eUdiv)

/-- Signed remainder taking the sign of a (R110). -/
def execRem (c : Ctl) (o : R2 IType) (s : State) : Out := int2Var s c o true (fun _ => eRem)

/-- Unsigned remainder (R110). -/
def execUrem (c : Ctl) (o : R2 IType) (s : State) : Out := int2Var s c o false (fun _ => eUrem)

/-- Counts the one bits of each sub-element (R109). -/
def execPopc (c : Ctl) (o : R1 IType) (s : State) : Out := int1 s c o false (fun _ => ePopc)

/-- Counts leading zero bits of each sub-element (R109). -/
def execClz (c : Ctl) (o : R1 IType) (s : State) : Out := int1 s c o false (fun _ => eClz)

/-- Counts trailing zero bits of each sub-element (R109). -/
def execCtz (c : Ctl) (o : R1 IType) (s : State) : Out := int1 s c o false (fun _ => eCtz)

/-- Reverses the bits of each sub-element (R109). -/
def execBrev (c : Ctl) (o : R1 IType) (s : State) : Out := int1 s c o false (fun _ => eBrev)

/-- Bitwise AND (R111). -/
def execAnd (c : Ctl) (o : R2 IType) (s : State) : Out := int2 s c o false (fun _ a b => a &&& b)

/-- Bitwise OR (R111). -/
def execOr (c : Ctl) (o : R2 IType) (s : State) : Out := int2 s c o false (fun _ a b => a ||| b)

/-- Bitwise XOR (R111). -/
def execXor (c : Ctl) (o : R2 IType) (s : State) : Out := int2 s c o false (fun _ a b => a ^^^ b)

/-- a AND NOT b (R111). -/
def execAndn (c : Ctl) (o : R2 IType) (s : State) : Out := int2 s c o false (fun _ a b => a &&& ~~~b)

/-- a OR NOT b (R111). -/
def execOrn (c : Ctl) (o : R2 IType) (s : State) : Out := int2 s c o false (fun _ a b => a ||| ~~~b)

/-- Bitwise NOT (R111). -/
def execNot (c : Ctl) (o : R1 IType) (s : State) : Out := int1 s c o false (fun _ a => ~~~a)

/-- Shifts sub-elements left, giving 0 for counts of w or more (R111). -/
def execShl (c : Ctl) (o : R2 IType) (s : State) : Out := int2 s c o false (fun _ => eShl)

/-- Shifts sub-elements right with zero fill (R111). -/
def execShr (c : Ctl) (o : R2 IType) (s : State) : Out := int2 s c o false (fun _ => eShr)

/-- Shifts sub-elements right with sign fill (R111). -/
def execSar (c : Ctl) (o : R2 IType) (s : State) : Out := int2 s c o true (fun _ => eSar)

/-- Rotates sub-elements left by the count modulo w (R111). -/
def execRot (c : Ctl) (o : R2 IType) (s : State) : Out := int2 s c o false (fun _ => eRot)

/-- Extracts a sign-extended bit field (R112). -/
def execBfx (c : Ctl) (o : R3 IType) (s : State) : Out := int3 s c o true (fun _ => eBfx)

/-- Extracts a zero-extended bit field (R112). -/
def execUbfx (c : Ctl) (o : R3 IType) (s : State) : Out := int3 s c o false (fun _ => eUbfx)

/-- Inserts a bit field of a into the destination (R112). -/
def execBfi (c : Ctl) (o : R3 IType) (s : State) : Out :=
  laneWord s c o.d fun g k =>
    (pack o.t.width fun i =>
      eBfi (sub o.t.width i ((g.lane k).reg o.d.r)) (sub o.t.width i (g.opnd (.int o.t false) o.a k))
        (sub o.t.width i (g.opnd (.int o.t false) o.b k)) (sub o.t.width i (g.opnd (.int o.t false) o.c k)),
      (g.lane k).tnt o.d.r || g.opndTaint o.a k || g.opndTaint o.b k || g.opndTaint o.c k)

/-- Narrows the sub-elements of two registers into one by truncation (R113). -/
def execPack (c : Ctl) (o : R2 IType) (s : State) : Out :=
  laneWord s c o.d fun g k =>
    (packHalves o.t.width (g.opnd (.int o.t false) o.a k) (g.opnd (.int o.t false) o.b k),
      g.opndTaint o.a k || g.opndTaint o.b k)

/-- Widens the elements of one half by zero or sign extension (R113). -/
def execUnpk (c : Ctl) (o : RUnpk) (s : State) : Out :=
  laneWord s c o.d fun g k => (unpackHalf o.t.width o.x (g.opnd (.int o.t false) o.a k), g.opndTaint o.a k)

end Sys2Proof.Machine
end

