-- ==== Sys2Proof/Machine/Access.lean ====
section
/-! DEFINITION. What every access shares (06 R140 to R147): the checks, the ranges that engines hold, forwarding from
the store queue, reading, the acts that leave a core later, and the release and acquire actions (06 R155, R156). -/

namespace Sys2Proof.Machine

/-! ### Scopes -/

/-- DEV, FAB or SYS. -/
def atLeastDev : AScope → Bool
  | .grp => false
  | .blk => false
  | .clu => false
  | .dev => true
  | .fab => true
  | .sys => true

/-- FAB or SYS. -/
def atLeastFab : AScope → Bool
  | .grp => false
  | .blk => false
  | .clu => false
  | .dev => false
  | .fab => true
  | .sys => true

/-- Wider than BLK (06 R179). -/
def widerThanBlk : AScope → Bool
  | .grp => false
  | .blk => false
  | .clu => true
  | .dev => true
  | .fab => true
  | .sys => true

/-- A storage scope that covers global memory. -/
def coversG : SScope → Bool
  | .s => false
  | .g => true
  | .sg => true

/-- ORDER asks for a release action. -/
def Order.isRel (o : Order) : Bool := o == .rel || o == .ar

/-- ORDER asks for an acquire action. -/
def Order.isAcq (o : Order) : Bool := o == .acq || o == .ar

/-! ### Addresses and checks (06 R140 to R142) -/

/-- Where a word may go. -/
inductive Side where
  | any
  | scratch
  | global
  deriving DecidableEq, Repr

/-- What a lane asks of memory: address, size, whether a page fault is a write fault, the rights it needs, the side
it takes, and whether it needs an MS page or an ordinary page. -/
structure Req where
  ea : W64
  size : Nat
  write : Bool
  needR : Bool
  needW : Bool
  side : Side := .any
  ms : Bool := false
  ordinary : Bool := false
  deriving DecidableEq, Repr

/-- What the checks of an access find. -/
inductive Chk where
  | scratch (off : Nat)
  | global (leaf : W64) (pa : Nat)
  | walk (va : W64)
  | fault (f : FaultInfo)
  deriving DecidableEq, Repr

/-- The checks passed. -/
def Chk.passed : Chk → Bool
  | .scratch _ => true
  | .global _ _ => true
  | .walk _ => false
  | .fault _ => false

/-- The page fault of a read or a write. -/
def pageFault (write : Bool) : FaultCode := if write then .pageFaultWrite else .pageFaultRead

/-- An ordinary page of this chip (06 R143). -/
def ordinaryPage (chip : Nat) (leaf : W64) (pa : Nat) : Bool :=
  !(pteRem leaf && pteChip leaf != chip) && !pteMs leaf && !pteTso leaf && !isHost pa

/-- Check 4 of 06 R142: translation and rights of a global address. A page of the wrong kind is an error at once, whatever its
rights (06 R165, 07 R206, 17 R362). The rights that lacked stand in the low bits of `arg`, for the memory core's new walk (17
R363). -/
def State.probe (s : State) (q : Cur) (k : Nat) (r : Req) : Chk :=
  match s.trOf q r.ea with
  | none => .walk r.ea
  | some leaf =>
    let pa := leafPa leaf r.ea
    let lack := (r.needR && !pteR leaf) || (r.needW && !pteW leaf)
    if (r.ms && !pteMs leaf) || (r.ordinary && !ordinaryPage s.fab.chip leaf pa) then
      .fault { code := .permission, lane := k, ea := r.ea, atOnce := true }
    else if lack then
      .fault { code := .permission, lane := k, ea := r.ea, arg := (0 : BitVec 16) ++ bit r.needW ++ bit r.needR }
    else if beyondHbm pa then
      .fault { code := pageFault r.write, lane := k, ea := r.ea, atOnce := true }
    else .global leaf pa

/-- Checks 2 to 4 of 06 R142. An address that is neither scratch nor global is invalid also where a word takes only scratch; a word
on a completion object is a read for its fault code (06 R140). -/
def State.checkPlace (s : State) (q : Cur) (k : Nat) (r : Req) : Chk :=
  if inWindow r.ea then
    let off := r.ea.toNat - windowBase
    if r.side = .global ∨ q.blk.scratchSize < off + r.size then .fault { code := .scratchRange, lane := k, ea := r.ea }
    else .scratch off
  else if 2 ^ 57 ≤ r.ea.toNat then
    .fault { code := pageFault (r.write && r.side != .scratch), lane := k, ea := r.ea, atOnce := true }
  else if r.side = .scratch then .fault { code := .scratchRange, lane := k, ea := r.ea }
  else s.probe q k r

/-- The checks of an access in a lane, in order (06 R142). -/
def State.check (s : State) (q : Cur) (k : Nat) (r : Req) : Chk :=
  if r.ea.toNat % r.size ≠ 0 then .fault { code := .misaligned, lane := k, ea := r.ea } else s.checkPlace q k r

/-! ### Ranges that engines hold (07 R193, R203, R207) -/

/-- Two byte ranges meet. -/
def overlaps (a n b m : Nat) : Bool := decide (a < b + m ∧ b < a + n)

/-- Whether a copy in flight holds a scratch access of a block. -/
def CopyOp.holds (c : CopyOp) (id off n : Nat) (write : Bool) : Bool :=
  match c.kind with
  | .load => c.objs.contains id && overlaps off n c.sofs c.size
  | .multi => c.objs.contains id && overlaps off n c.sofs c.size
  | .store => write && c.blk == id && overlaps off n c.sofs c.size
  | .global => false

/-- Whether the range scoreboard holds a scratch access (07 R193, R203), or, on a pair, the other core has written there less than 160
cycles ago (21 R410). -/
def State.rangeHeld (s : State) (q : Cur) (off n : Nat) (write : Bool) : Bool :=
  (s.ms.copies.any fun p => p.2.holds q.id off n write) ||
  (q.blk.st.groups.any fun g => g.batches.any fun t => t.ranges.any fun r => overlaps off n r.1 r.2.1 && (write || r.2.2)) ||
  q.blk.st.crossing.any fun x => x.covers q.co off n

/-- Whether an access reaches the L2 for a sector whose ownership an engine holds (07 R193, R207). A speculation, which works at the L2,
meets also the engines of its own copies and batches (16 R345). -/
def MemSys.recalled (ms : MemSys) (cl : Nat) (spec : Option Nat) (pa : Nat) (p : Place) (ldb : Bool) : Bool :=
  p.chip?.isNone &&
    ((ms.owned.contains (pa / 64) && (p != .cache || ldb || spec.isSome || (ms.cc.get? (ccKey cl (pa / 64))).isNone)) ||
      (spec.isSome && (ms.ownedBy spec).contains (pa / 64)))

/-! ### The store queue (06 R147, 21 R410) -/

/-- The bytes that an act will touch: chip, address and length. -/
def Act.range : Act → Option (Option Nat × Nat × Nat)
  | .store p _ pa bytes => some (p.chip?, pa, bytes.length)
  | .atom _ p pa wide _ _ _ => some (p.chip?, pa, if wide then 8 else 4)
  | .casc p pa _ _ _ _ _ => some (p.chip?, pa, 8)
  | .decc p pa _ _ _ _ => some (p.chip?, pa, 8)
  | .load p _ _ pa n _ => some (p.chip?, pa, n)
  | .rload chip pa n _ => some (some chip, pa, n)
  | .rwait chip pa wide => some (some chip, pa, if wide then 8 else 4)
  | .handoff _ => none
  | .enq _ _ _ => none

/-- An act that only reads. -/
def Act.reads : Act → Bool
  | .load _ _ _ _ _ _ => true
  | .rload _ _ _ _ => true
  | .rwait _ _ _ => true
  | _ => false

/-- Whether an act touches a range. -/
def Act.meets (a : Act) (chip : Option Nat) (pa n : Nat) : Bool :=
  match a.range with
  | some r => r.1 == chip && overlaps pa n r.2.1 r.2.2
  | none => false

/-- Whether an act that changes a range leaves a value that is not known yet. -/
def Act.unknownIn (a : Act) (chip : Option Nat) (pa n : Nat) : Bool :=
  match a with
  | .store _ _ _ _ => false
  | _ => !a.reads && a.meets chip pa n

/-- Two acts of one lane. -/
def Held.sameLane (h : Held) (blk grp lane : Nat) : Bool := h.blk == blk && h.grp == grp && h.lane == lane

/-- The acts of its core that the issuing word may see. -/
def State.queued (s : State) (q : Cur) : List Held := s.visible q.blk.cl q.co q.blk.spec

/-- The bytes of a range that stores of the queue give, where they cover it whole and no act that follows them leaves it unknown
(06 R147). -/
def covered (held : List Held) (chip : Option Nat) (pa n : Nat) : Option (List Byte) :=
  let put := fun (acc : List (Option Byte)) (h : Held) =>
    match h.act with
    | .store p _ qa l =>
      if p.chip? = chip then acc.mapIdx fun i b => if qa ≤ pa + i ∧ pa + i < qa + l.length then some (l.getD (pa + i - qa) 0) else b
      else acc
    | a => if a.unknownIn chip pa n then acc.map fun _ => none else acc
  let r := held.foldl put (List.replicate n none)
  if r.all Option.isSome then some (r.map fun b => b.getD 0) else none

/-- Acts join the store queue of the issuing core. -/
def State.pushHeld (s : State) (q : Cur) (acts : List Held) : State :=
  let c := s.core q.blk.cl q.co
  s.setCore q.blk.cl q.co { c with held := c.held ++ acts }

/-- A held act of the issuing word. -/
def Cur.hold (s : State) (q : Cur) (lane : Nat) (ea : W64) (rel acq : Option (AScope × SScope)) (a : Act) : Held :=
  ⟨s.clk q.blk.cl, q.id, q.gi, lane, q.pc, ea, rel, acq, a⟩

/-- Whether a message is a write of a lane, or of a packet's signal, to another chip. -/
def OutMsg.writes (m : OutMsg) : Bool :=
  match m.m.op with
  | .store _ _ => true
  | .atom _ _ _ _ _ => true
  | .red _ _ _ _ => true
  | .casc _ _ _ _ _ => true
  | .decc _ _ _ _ => true
  | _ => false

/-- The range of the destination's memory that a message names. -/
def remoteRange : RemoteOp → Option (Nat × Nat)
  | .load pa n => some (pa, n)
  | .store pa l => some (pa, l.length)
  | .atom _ pa w _ _ => some (pa, if w then 8 else 4)
  | .red _ pa w _ => some (pa, if w then 8 else 4)
  | .casc pa _ _ _ _ => some (pa, 8)
  | .decc pa _ _ _ => some (pa, 8)
  | .waitc pa w => some (pa, if w then 8 else 4)
  | .replica _ _ => none
  | .join _ _ => none
  | .start _ _ => none
  | .abort _ _ _ => none
  | .probe _ _ => none
  | .engineRead pa n => some (pa, n)
  | .engineWrite pa l _ => some (pa, l.length)

/-- Whether a message is under way to a chip that meets a range. -/
def OutMsg.meets (m : OutMsg) (chip pa n : Nat) : Bool :=
  m.m.dst == chip &&
    (match remoteRange m.m.op with
      | some r => overlaps pa n r.1 r.2
      | none => false)

/-- Whether a write of this chip to bytes of another is not acknowledged yet. It may happen before a read of them, whoever made it, so
the read waits (11 R295, R299; log 114). -/
def State.writeOut (s : State) (chip pa n : Nat) : Bool := s.fab.retry.any fun m => m.writes && m.meets chip pa n

/-- Whether a lane has a result of bytes of another chip on their way, which comes before its later reads of them (06 R146). -/
def State.ownReadOut (s : State) (q : Cur) (k chip pa n : Nat) : Bool :=
  ((s.queued q).any fun h => h.act.reads && h.sameLane q.id q.gi k && h.act.meets (some chip) pa n) ||
  s.fab.retry.any fun m => m.blk == some q.id && m.grp == q.gi && m.lane == k && !m.rets.isEmpty && m.meets chip pa n

/-- An act that reads, or brings a result. -/
def Act.answers : Act → Bool
  | .store _ _ _ _ => false
  | .handoff _ => false
  | .atom _ _ _ _ _ _ r => r.isSome
  | _ => true

/-- Whether an unacknowledged message is among those that a drain of a group asks for. -/
def OutMsg.awaited (m : OutMsg) (id gi : Nat) (acks : Acks) : Bool :=
  (m.blk == some id && m.grp == gi && (acks == .group || acks == .chip || !m.rets.isEmpty)) || (acks == .chip && m.writes)

/-- Remote accesses that are not acknowledged, among those that a drain of a group asks for. -/
def State.remoteOut (s : State) (id gi : Nat) (acks : Acks) : Bool := s.fab.retry.any fun m => m.awaited id gi acks

/-- Whether an act of the core may happen before a release of a group: one of its own, or a write of another group that issued when the
group last came to know of others' stores, or before (06 R156, 11 R293, R294; log 33). -/
def Held.mayPrecede (h : Held) (id gi acqAt : Nat) : Bool :=
  (h.blk == id && h.grp == gi) || (!h.act.reads && decide (h.issued ≤ acqAt))

/-- When a group last came to know of others' stores. -/
def Block.acqAt (b : Block) (gi : Nat) : Nat := (b.st.groups[gi]?).elim 0 fun g => g.acqAt

/-- Whether a drain of a group since a cycle waits for an act of its core. -/
def Held.drains (h : Held) (id gi acqAt since : Nat) (acks : Acks) : Bool :=
  decide (h.issued ≤ since) &&
    (match acks with
      | .reads => h.blk == id && h.grp == gi && h.act.answers
      | .acts => true
      | _ => h.mayPrecede id gi acqAt)

/-- Whether a drain is complete: of the acts of the core held since that cycle none is left for which it waits, and no remote access is
outstanding. -/
def State.drainDone (s : State) (b : Block) (id gi since : Nat) (acks : Acks) : Bool :=
  !((s.core b.cl (b.coreOf gi)).held.any fun h => h.drains id gi (b.acqAt gi) since acks) && !s.remoteOut id gi acks

/-- What a release action asks to be acknowledged: at FAB and SYS every remote access of its lane, and, since it is cumulative,
every remote write of the chip (06 R156, 11 R294). -/
def releaseAcks (a : AScope) : Acks := if atLeastFab a then .chip else .results

/-- Groups whose drain is complete go on. -/
def State.wakeDrains (s : State) : State :=
  let f := fun (id : Nat) (b : Block) (gi : Nat) (w : SWait) =>
    match w with
    | .drain since acks => if s.drainDone b id gi since acks then .drained else w
    | _ => w
  { s with blocks := KMap.mapV (fun id b =>
      { b with st := { b.st with groups := b.st.groups.mapIdx fun gi g =>
        { g with slot0 := g.slot0.rewait (f id b gi), slot1 := g.slot1.rewait (f id b gi) } } }) s.blocks }

/-- Run `k` once everything the group did before is performed (06 R156). -/
def afterDrain (s : State) (q : Cur) (need : Bool) (acks : Acks) (k : Out) : Out :=
  if !need || (q.grp.pcSlot q.slot).wait == .drained || s.drainDone q.blk q.id q.gi (s.clk q.blk.cl) acks then k
  else .next (s.waitSlot q (.drain (s.clk q.blk.cl) acks))

/-! ### Release and acquire actions (06 R155, R156) -/

/-- The write-back of a release action in a cluster. -/
def State.releaseAct (s : State) (cl : Nat) (a : AScope) (t : SScope) : State :=
  if atLeastDev a && coversG t then { s with ms := s.ms.releaseDev cl } else s

/-- The invalidation of an acquire action in a cluster. -/
def State.acquireAct (s : State) (cl : Nat) (a : AScope) (t : SScope) : State :=
  if atLeastDev a && coversG t then { s with ms := s.ms.acquireDev cl } else s

/-! ### Protection (21 R415) -/

/-- A sealing operation ends the protection of a block until its next checkpoint. -/
def State.sealBlk (s : State) (id : Nat) : State :=
  match s.blocks.get? id with
  | some b =>
    if b.prot.on && !b.prot.sealed then
      s.setBlock id { b with prot := { b.prot with sealed := true }, st := { b.st with track := false } }
    else s
  | none => s

/-- The bytes that protection keeps of a block in the L1 share of a core: of the scratch sectors and tiles that lie there (21 R415). -/
def Block.kept (b : Block) (co : Nat) : Nat :=
  let half := 16384 * ((b.scratchSize / 16384 + 1) / 2)
  let sectors := fun (low : Bool) => b.st.sectors.countP fun x => decide (64 * x < half) == low
  let tiles := fun (low : Bool) => b.st.tilesW.countP fun t => decide (t < 16) == low
  if !b.prot.on || b.prot.sealed then 0
  else if !b.pair then (if b.co = co then 64 * b.st.sectors.length + 24576 * b.st.tilesW.length else 0)
  else if b.co = co then 64 * sectors true + 24576 * tiles true
  else if b.co + 1 = co then 64 * sectors false + 24576 * tiles false
  else 0

/-- The copies that protection keeps on a core, of all its blocks, do not exceed its share (21 R415). -/
def State.coreShareOk (s : State) (cl co : Nat) : Bool :=
  let x := (s.core cl co).split
  decide (((s.blocks.filter fun p => p.2.cl == cl).map fun p => p.2.kept co).sum ≤
    1024 * (if x = 512 then 512 else if x = 896 then 128 else 256))

/-- A block whose copies exceed the share of a core of it is protected no more (21 R415). -/
def State.checkShare (s : State) (id : Nat) : State :=
  match s.blocks.get? id with
  | some b =>
    if b.prot.on && !b.prot.sealed && !(s.coreShareOk b.cl b.co && (!b.pair || s.coreShareOk b.cl (b.co + 1))) then s.sealBlk id else s
  | none => s

/-! ### The scratchpad as words write it -/

/-- Whether an object of a copy in flight meets a scratch range of a block. -/
def CopyOp.objectIn (c : CopyOp) (id off n : Nat) : Bool := c.objs.contains id && overlaps off n c.objOff 16

/-- A store of a program to scratch (06 R154): monitors of the block wake (06 R170), waiting
WAITPHs look again, and an object that a copy in
flight names becomes undefined (07 R188; log 6). -/
def State.scratchStore (s : State) (id off : Nat) (bytes : List Byte) : State :=
  match s.blocks.get? id with
  | none => s
  | some b =>
    let hit := fun (c : CopyOp) => c.objectIn id off bytes.length
    let st := b.st.writeScratch off bytes
    let objs := ((s.ms.copies.filter fun p => hit p.2).map fun p => p.2.objOff).eraseDups
    let st1 := objs.foldl (fun (x : BlkState × Nat) o =>
      (x.1.writeScratch o (leBytes (Config.objectWord x.2).toNat 8 ++ leBytes (Config.objectWord (x.2 + 1)).toNat 8),
        x.2 + 2)) (st, s.free)
    let ms := { s.ms with copies := KMap.mapV (fun _ c => if hit c then { c with objStored := true } else c) s.ms.copies }
    let s1 := s.setBlock id { b with st := st1.1 }
    ({ s1 with
      free := st1.2
      ms := ms.fire fun m => m.scratch && m.blk == id && (sectorsOf off bytes.length).contains m.sector } : State).wakeBlk id
        SWait.isWaitph

/-- An act of a word that reaches the other core of the pair is held back from it (21 R410). -/
def State.crosses (s : State) (q : Cur) (a : PairAct) : State :=
  let x : Crossing := ⟨s.clk q.blk.cl, q.co, a⟩
  match s.blocks.get? q.id with
  | some b => s.setBlock q.id { b with st := { b.st with crossing := b.st.crossing ++ [x] } }
  | none => s

/-- A scratch store of the issuing group (06 R154, 21 R410). -/
def State.scratchPut (s : State) (q : Cur) (off : Nat) (bytes : List Byte) : State :=
  let t := s.scratchStore q.id off bytes
  if q.reaches off bytes.length then t.crosses q (.bytes off bytes.length) else t

/-! ### Reading -/

/-- Read global bytes at the place of the access (06 R143, R150); a speculation reads at the L2 (16 R345). `keep` says whether a
miss fills the cluster cache (02 R52). -/
def MemSys.readAt (ms : MemSys) (cl : Nat) (spec : Option Nat) (p : Place) (ldb keep : Bool) (pa n : Nat) :
    List Byte × MemSys :=
  match spec with
  | some k => ms.specRead cl k pa n
  | none =>
    match p with
    | .cache =>
      if ldb then
        let m := ms.writeBackDrop cl (pa / 64)
        (m.mem.bytes pa n, m)
      else
        let x := ms.ccSector cl (pa / 64)
        (x.bytes (pa % 64) n, if keep || (ms.cc.get? (ccKey cl (pa / 64))).isSome then ms.ccPut cl (pa / 64) x else ms)
    | .l2 => (ms.mem.bytes pa n, ms)
    | .slice => (ms.mem.bytes pa n, ms)
    | .remote _ => ([], ms)

/-! ### The word as a whole -/

/-- A speculation ends at an access it may not make (06 R180, 16 R347). -/
def specStops (chip : Nat) (chk : Chk) : Bool :=
  match chk with
  | .global leaf pa => !ordinaryPage chip leaf pa
  | _ => false

/-- Whether a request ends the speculation of its block. A read of the packet is served from the predicted values and never from
memory, so it is no access to the page of the ring (16 R344; log 96). -/
def State.specEnds (s : State) (q : Cur) (r : Req) (chk : Chk) : Bool :=
  q.blk.spec.isSome && specStops s.fab.chip chk && (r.write || (s.predicted q.blk r.ea r.size).isNone)

/-- Whether the read of a lane takes its place in the queue of the core, and is performed later: a load that asks for no order,
of an ordinary or a memory-side page, of host memory, or of another chip. The loads of a speculation and those of TSO pages are
performed at once, in program order (06 R144, 11 R289). -/
def State.defers (_s : State) (q : Cur) (later : Bool) (chk : Chk) : Bool :=
  match chk with
  | .global leaf _ => later && q.blk.spec.isNone && !pteTso leaf
  | _ => false

/-- Whether an access of a lane is held by an engine, or must wait for the value of an act of its core. -/
def State.accessHeld (s : State) (q : Cur) (r : Req) (ldb : Bool) (chk : Chk) : Bool :=
  match chk with
  | .scratch off => s.rangeHeld q off r.size r.write
  | .global leaf pa => s.ms.recalled q.blk.cl q.blk.spec pa (placeOf s.fab.chip leaf pa) ldb
  | _ => false

/-- Whether a read that is performed at once must wait for an act of its core: one whose result is not known yet, or a load of the
lane itself of the same bytes, which comes first (06 R146). -/
def State.readBehind (s : State) (q : Cur) (k : Nat) (chip : Option Nat) (pa n : Nat) : Bool :=
  (s.queued q).any fun h => h.act.unknownIn chip pa n || (h.act.reads && h.sameLane q.id q.gi k && h.act.meets chip pa n)

/-- Whether a read must wait so. -/
def State.readWaits (s : State) (q : Cur) (k : Nat) (r : Req) (chk : Chk) : Bool :=
  match chk with
  | .global leaf pa => !r.write && s.readBehind q k (placeOf s.fab.chip leaf pa).chip? pa r.size
  | _ => false

/-- Whether a read consumes poison in a lane (21 R413). -/
def State.readsPoison (s : State) (q : Cur) (r : Req) (ldb : Bool) (chk : Chk) : Bool :=
  r.needR &&
    (match chk with
      | .scratch off => q.blk.st.poisoned off r.size
      | .global leaf pa => (s.predicted q.blk r.ea r.size).isNone &&
        s.ms.readPoison q.blk.cl q.blk.spec pa r.size (placeOf s.fab.chip leaf pa) ldb
      | _ => false)

/-! ### Reads inside a word that does more than load -/

/-- Why a word cannot go on. -/
inductive Stop where
  | walk (lane : Nat) (va : W64) (write : Bool)
  | fault (f : FaultInfo)
  | held
  | drain
  /-- Bytes of another chip are needed. -/
  | far (lane chip pa n : Nat) (ea : W64)
  /-- The speculation ends. -/
  | abort
  /-- The marker at an address is BUSY (08 R245). -/
  | busy (marker : W64)
  deriving DecidableEq, Repr

/-- A computation that may stop. -/
abbrev Chkd (α : Type) := Except Stop α

/-- The bytes of other chips that the issuing word has fetched. -/
def Cur.farBytes (q : Cur) : List (Nat × Nat × List Byte) := (q.grp.pcSlot q.slot).wait.fetched

/-- The lanes that the word in progress has finished (07 R191, 08 R238). -/
def Cur.done (q : Cur) : Mask := (q.grp.pcSlot q.slot).done


/-- What a word does when it stops. A read of another chip is an access to a remote page, and seals (06 R179). -/
def stopWord (s : State) (q : Cur) (x : Stop) : State :=
  match x with
  | .walk k va w => s.waitSlot q (.walk k va w false)
  | .fault f => s.takeFault q f
  | .held => s.waitSlot q .held
  | .drain => s.waitSlot q (.drain (s.clk q.blk.cl) .acts)
  | .far k chip pa n ea =>
    ((s.waitSlot q (.far q.farBytes)).pushHeld q
      [Cur.hold s q k ea none none (.rload chip pa n [⟨k, none, false, none, none⟩])]).sealBlk q.id
  | .abort => s.takeFault q { code := .permission, lane := 0 }
  | .busy a => s.waitSlot q (.busy a)

/-- Check a request in a lane, as a computation. -/
def State.checked (s : State) (q : Cur) (k : Nat) (r : Req) : Chkd Chk :=
  match s.check q k r with
  | .walk va => .error (.walk k va r.write)
  | .fault f => .error (.fault f)
  | x => if s.specEnds q r x then .error .abort else .ok x

/-- Read bytes as a lane would, at an LD's place or, for `ldb`, at an LDB's, over the acts `more` that the word itself
has made; the memory system is threaded. -/
def State.readVa (s : State) (q : Cur) (more : List Held) (ms : MemSys) (k : Nat) (r : Req) (ldb : Bool) :
    Chkd (List Byte × MemSys) := do
  let x ← s.checked q k r
  let bad : Stop := .fault { code := .poisonConsumed, lane := k, ea := r.ea }
  match x with
  | .scratch off =>
    if s.rangeHeld q off r.size false then .error .held
    else if q.blk.st.poisoned off r.size then .error bad
    else .ok (q.blk.st.scratch.bytes off r.size, ms)
  | .global leaf pa =>
    let p := placeOf s.fab.chip leaf pa
    let held := s.queued q
    match s.predicted q.blk r.ea r.size with
    | some (some l) => .ok (l, ms)
    | some none => .error .abort
    | none =>
      match p with
      | .remote chip =>
        match q.farBytes.find? fun y => y.1 == chip && y.2.1 == pa && y.2.2.length == r.size with
        | some y => .ok (forward more (some chip) pa y.2.2, ms)
        | none => .error (.far k chip pa r.size r.ea)
      | _ =>
        if ms.recalled q.blk.cl q.blk.spec pa p ldb then .error .held
        else if s.readBehind q k none pa r.size then .error .drain
        else if ms.readPoison q.blk.cl q.blk.spec pa r.size p ldb then .error bad
        else
          let y := ms.readAt q.blk.cl q.blk.spec p ldb true pa r.size
          .ok (forward (held ++ more) none pa y.1, y.2)
  | _ => .error .abort

/-- Whether an access names a remote page. -/
def remoteChk (chip : Nat) : Chk → Bool
  | .global leaf _ => pteRem leaf && pteChip leaf != chip
  | _ => false

/-- An access word (06 R142): every executing lane is checked, in ascending order, before any lane performs its
access. `ldb lane` says whether the access reads past the cluster cache, and `later` whether its reads take their place in the
queue of the core, where they meet what holds them (11 R289). `k` performs it, for lanes that passed. -/
def withAccess (s : State) (c : Ctl) (asc : Option AScope) (later : Bool) (ldb : Cur → Nat → Bool) (req : Cur → Nat → Req)
    (k : State → Cur → (Nat → Chk) → Out) : Out :=
  withCur s fun q =>
    let lanes := q.active c
    let chk := fun k => s.check q k (req q k)
    let now := lanes.filter fun k => !s.defers q later (chk k)
    match lanes.find? fun k => !(chk k).passed with
    | some k =>
      match chk k with
      | .walk va => .next (s.waitSlot q (.walk k va (req q k).write false))
      | .fault f => .next (s.takeFault q f)
      | .scratch _ => .next s
      | .global _ _ => .next s
    | none =>
      if q.blk.spec.isSome && !lanes.isEmpty &&
          ((match asc with
            | some a => atLeastFab a
            | none => false) || lanes.any fun k => s.specEnds q (req q k) (chk k)) then
        .next (s.takeFault q { code := .permission, lane := 0 })
      else
        match now.find? fun k => s.readsPoison q (req q k) (ldb q k) (chk k) with
        | some k => .next (s.takeFault q { code := .poisonConsumed, lane := k, ea := (req q k).ea })
        | none =>
          if now.any fun k => s.accessHeld q (req q k) (ldb q k) (chk k) then .next (s.waitSlot q .held)
          else if now.any fun k => s.readWaits q k (req q k) (chk k) then
            .next (s.waitSlot q (.drain (s.clk q.blk.cl) .acts))
          else
            let s1 := if lanes.any fun k => remoteChk s.fab.chip (chk k) then s.sealBlk q.id else s
            withCur s1 fun q1 => k s1 q1 chk

end Sys2Proof.Machine
end

