-- ==== Sys2Proof/Machine/Latency.lean ====
section
/-! DEFINITION. What a word must wait for: the registers and predicates that it reads, and the fixed latencies of the results
that it makes (02 R42, R43). A name below 64 is a register, 64 plus p is predicate p. -/

namespace Sys2Proof.Machine

/-- How many of the registers that a full word names first it writes without reading them. -/
def destOnly (f : FW) : Nat :=
  let m := f.min.toNat
  match f.maj.toNat with
  | 0 => if m = 5 || m = 7 || m = 8 then 1 else 0
  | 1 => if m = 2 || m = 9 then 1 else 0
  | 2 => if m = 15 then 0 else 1
  | 3 => 1
  | 4 => if m = 12 then 0 else 1
  | 5 => if m = 9 then 1 else 0
  | 6 => 1
  | 7 => 1
  | 8 => if m = 1 || m = 4 then 0 else 1
  | 9 => 1
  | 10 => if m = 4 then 0 else if f.ty = 4 then 2 else if f.ty = 5 then 4 else 1
  | 12 => 1
  | 14 => 1
  | 15 => if m = 2 || m = 4 then 1 else 0
  | 18 => if m = 3 then 1 else 0
  | 20 => if m = 3 || m = 4 || m = 7 then 0 else 1
  | _ => 0

/-- The predicate that a 3-bit field names; p7 is constant (01 R12). -/
def predName (p : BitVec 3) : List Nat := if p = 7 then [] else [64 + p.toNat]

/-- The predicates that a full word reads: its guards, and its predicate operands (02 R57). -/
def predReads (f : FW) : List Nat :=
  let m := f.min.toNat
  predName f.ga ++ predName f.gb ++
  (match f.maj.toNat with
    | 2 => if m = 12 then predName (f.sc.extractLsb' 0 3) else []
    | 5 =>
      if m = 3 || m = 4 || m = 5 then predName (f.sa.extractLsb' 0 3) ++ predName (f.sb.extractLsb' 0 3)
      else if m = 6 || m = 7 then predName (f.sa.extractLsb' 0 3)
      else if m = 9 then (List.range 7).map fun k => 64 + k
      else []
    | _ => [])

/-- The guard of a slot, read where the slot does something. -/
def slotGuard (s : BitVec 30) : List Nat := if s.extractLsb' 23 7 = 0 then [] else predName (s.extractLsb' 6 3)

/-- What a word reads. -/
def wordReads (i : Instr) (w : W64) : List Nat :=
  match i.slotX?, i.slotY? with
  | some x, some y => x.reads ++ y.reads ++ slotGuard (w.extractLsb' 33 30) ++ slotGuard (w.extractLsb' 3 30)
  | _, _ => i.regs.drop (destOnly (FW.ofWord w)) ++ predReads (FW.ofWord w)

/-- The result of a slot, with its latency. -/
def slotLatency (s : BitVec 30) : List (Nat × Nat) :=
  let op := s.extractLsb' 23 7
  if op = 0 then [] else [((s.extractLsb' 17 6).toNat, if (SFOp.ofCode op).isSome then 4 else 2)]

/-- The results of a word that have a fixed latency, with the cycles until each is readable (02 R43). -/
def fixedResults (w : W64) : List (Nat × Nat) :=
  if w.getLsbD 63 then slotLatency (w.extractLsb' 33 30) ++ slotLatency (w.extractLsb' 3 30)
  else
    let f := FW.ofWord w
    let m := f.min.toNat
    let d := f.dst.toNat
    let p := (predName (f.dst.extractLsb' 0 3)).map fun k => (k, 2)
    match f.maj.toNat with
    | 1 => if m = 2 || m = 9 then [(d, 2)] else if m = 6 then p else []
    | 2 => [(d, 2)]
    | 3 => if 4 ≤ m && m ≤ 7 then [] else [(d, 4)]
    | 4 => [(d, 2)]
    | 5 => if m = 9 then [(d, 2)] else p
    | 6 => [(d, 4)]
    | 8 => [(d, 4)]
    | 9 => [(d, 6)]
    | _ => []

/-- The predicates of a status pair (02 R55). -/
def pairOf : PPair → BitVec 3 × BitVec 3
  | .p0 => (0, 1)
  | .p2 => (2, 3)
  | .p4 => (4, 5)

/-- The predicates that a word writes with variable latency: those of TERM, SEARCH and ATOMC, and of ENQ, whose release and writes take
as long as they take (02 R43, 08 R230). -/
def varPreds (i : Instr) : List Nat :=
  match i with
  | .unify _ o => predName o.p
  | .commit _ o => predName o.p
  | .adopt _ p => predName p
  | .enq _ o => predName o.p
  | .casc _ o => [64 + (pairOf o.pp).1.toNat, 64 + (pairOf o.pp).2.toNat]
  | .decc _ o => [64 + (pairOf o.pp).1.toNat, 64 + (pairOf o.pp).2.toNat]
  | _ => []

/-- Whether a word makes accesses, which wait for an acquiring read of the group (06 R155; log 109): a word of LOAD and of the classes
after it, and ENQ. -/
def makesAccesses (w : W64) : Bool :=
  !w.getLsbD 63 && (decide (10 ≤ (FW.ofWord w).maj.toNat) || ((FW.ofWord w).maj == 1 && (FW.ofWord w).min == 8))

/-- Whether a group may know of another party's stores once a word of it is over (11 R291 to R293): an acquiring access or fence, and
every other word that makes accesses but a plain load, a store, an atomic, a WAITC and a fence. -/
def acquires (w : W64) : Bool :=
  let f := FW.ofWord w
  makesAccesses w &&
    (match f.maj.toNat with
      | 10 => f.min == 3
      | 11 => false
      | 12 => f.moda.getLsbD 0
      | 13 => false
      | 15 => if f.min = 0 ∨ f.min = 2 then f.moda.getLsbD 0 else true
      | _ => true)

/-- The group may know of others' stores from now on: no load takes what was read ahead before (11 R293; log 33, 113). -/
def Group.knows (g : Group) (clk : Nat) : Group := { g with acqAt := clk, ahead := [] }

/-- Every group of a block may know of others' stores from now on. -/
def BlkState.knows (st : BlkState) (clk : Nat) : BlkState := { st with groups := st.groups.map fun g => g.knows clk }

/-- Whether the variable-latency result of a name is outstanding. -/
def Group.outstanding (g : Group) (n : Nat) : Bool := if n < 64 then g.sb.getLsbD n else g.psb.getLsbD (n - 64)

/-- The results of variable latency of a word in predicates are outstanding (02 R43). -/
def Group.holdPreds (g : Group) (l : List Nat) : Group :=
  { g with psb := l.foldl (fun m n => m ||| ((1 : BitVec 7) <<< (n - 64))) g.psb }

/-- The result of variable latency of a name has returned (02 R43). -/
def Group.returned (g : Group) (n : Nat) : Group :=
  if n < 64 then { g with sb := g.sb &&& ~~~((1 : W64) <<< n) } else { g with psb := g.psb &&& ~~~((1 : BitVec 7) <<< (n - 64)) }

/-- Whether a name is not readable yet at a local cycle. -/
def Group.pending (g : Group) (clk n : Nat) : Bool := decide (clk < g.ready.getD n 0)

/-- The results of a word that issued at a local cycle are on their way. -/
def Group.results (g : Group) (clk : Nat) (w : W64) : Group :=
  let live := g.ready.filter fun p => decide (clk < p.2)
  { g with ready := (fixedResults w).foldl (fun m x => KMap.put m x.1 (clk + x.2)) live }

end Sys2Proof.Machine
end

