-- ==== Sys2Proof/Machine/Barrier.lean ====
section
/-! DEFINITION. The block barriers (06 R171, R172), the retirement of lanes and groups (08 R224), and the completion
objects (06 R173 to R176, 07 R188). -/

namespace Sys2Proof.Machine

/-! ### Barriers -/

/-- Every lane mask of a group's lanes that have not retired. -/
def Group.live (g : Group) : Mask := maskOf fun k => (g.lane k).present

/-- The lanes of a group that wait at a barrier slot. -/
def Group.waiting (g : Group) (k : Nat) : Mask := g.barWait.getD k 0

/-- A barrier slot. -/
def BlkState.bar (st : BlkState) (k : Nat) : BarSlot := st.bars.getD k ⟨0, 0, false⟩

/-- An entry whose lanes all wait at a slot goes on past its BAR. -/
def passBar (w : Mask) (e : Entry) : Entry := if e.mask ≠ 0 ∧ e.mask &&& ~~~w = 0 then { e with pc := pcNext e.pc } else e

/-- A released entry joins the first released entry at its PC, or stands for itself. -/
def joinReleased (e : Entry) : List (Entry × Bool) → List (Entry × Bool)
  | [] => [(e, true)]
  | y :: l => if y.2 ∧ y.1.pc = e.pc then ({ y.1 with mask := y.1.mask ||| e.mask }, true) :: l else y :: joinReleased e l

/-- The entries of a group after a release: those of the slots, then the stack, newest first; released entries at one PC have
become one. -/
def releaseEntries (w : Mask) (s0 s1 : Entry) (stack : List Entry) : List (Entry × Bool) :=
  let pass := fun (e : Entry) => (passBar w e, decide (passBar w e ≠ e))
  stack.foldl (fun acc e => if (pass e).2 then joinReleased (pass e).1 acc else acc ++ [pass e]) [pass s0, pass s1]

/-- The lanes of a group that wait at a slot continue: in its slots and on its stack; entries that waited at one PC merge (06
R171). -/
def releaseGroup (st : BlkState) (gi k : Nat) : BlkState :=
  match st.groups[gi]? with
  | none => st
  | some g =>
    let l := releaseEntries (g.waiting k) g.slot0.e g.slot1.e (st.stack g)
    let rest := (l.drop 2).map fun x => x.1
    let x :=
      if rest.length = g.depth then
        ((l.drop 2).zipIdx.foldl (fun (a : BlkState) p =>
          if p.1.2 then a.putEntry (g.dspTop.toNat + 16 * p.2) p.1.1 else a) st, g)
      else writeStack st g rest
    let go := fun (p : PcSlot) (i : Nat) => match l[i]? with
      | some (e, true) => slotAt e
      | _ => p
    let g1 := { x.2 with
      slot0 := go g.slot0 0
      slot1 := go g.slot1 1
      barWait := g.barWait.set k 0
      barCounted := g.barCounted &&& ~~~((1 : BitVec 8) <<< k) }
    x.1.setGroup gi (settle x.1 g1)

/-- A slot completes: its phase flips, its count returns to 0, the waiting groups continue (06 R171). -/
def completeSlot (st : BlkState) (k : Nat) : BlkState :=
  let b := st.bar k
  let st1 := (List.range st.groups.length).foldl (fun x gi =>
    match x.groups[gi]? with
    | some g => if g.barCounted.getLsbD k then releaseGroup x gi k else x
    | none => x) st
  { st1 with bars := st1.bars.set k { b with arrived := 0, phase := !b.phase } }

/-- A slot whose counts have met completes, or, under PROTECT, waits for its checkpoint (06 R172, 21 R414). -/
def State.meetNow (s : State) (id k : Nat) : State :=
  match s.blocks.get? id with
  | none => s
  | some b =>
    if b.protect then s.setBlock id { b with prot := { b.prot with pending := b.prot.pending ++ [k] } }
    else s.setBlock id { b with st := (completeSlot b.st k).knows (s.clk b.cl) }

/-- A slot whose counts have met completes; on a pair the last arrival or retirement reaches the other core 160 cycles later
(21 R410, log 121). -/
def State.meetSlot (s : State) (id k : Nat) : State :=
  match s.blocks.get? id with
  | some b =>
    if b.pair && decide (1 < b.st.groups.length) then
      s.setBlock id { b with st := { b.st with crossing := b.st.crossing ++ [⟨s.clk b.cl, b.co, .bar k⟩] } }
    else s.meetNow id k
  | none => s

/-- Acts that cross a pair are let go after 160 cycles: the slots that have met complete, and the words that wait for what was held look
again (21 R410). -/
def State.letCross (s : State) (id : Nat) : State :=
  match s.blocks.get? id with
  | none => s
  | some b =>
    let due := b.st.crossing.filter fun x => decide (x.cycle + 160 ≤ s.clk b.cl)
    if due.isEmpty then s
    else
      let s1 := s.setBlock id { b with st := { b.st with crossing := b.st.crossing.filter fun x => !due.contains x } }
      (due.foldl (fun (a : State) x => match x.act with
        | .bar k => a.meetNow id k
        | _ => a) s1).wakeBlk id SWait.isHeld

/-- What crosses the pairs of a cluster is let go. -/
def State.letCrossAll (s : State) (cl : Nat) : State :=
  (s.blocks.filter fun p => p.2.cl == cl && !p.2.st.crossing.isEmpty).foldl (fun a p => a.letCross p.1) s

/-- A group arrives at a slot when all its live lanes wait there (06 R171). -/
def State.arrive (s : State) (id gi k : Nat) : State :=
  match s.blocks.get? id with
  | none => s
  | some b =>
    match b.st.groups[gi]? with
    | none => s
    | some g =>
      if g.live ≠ 0 ∧ g.live &&& ~~~(g.waiting k) = 0 ∧ !g.barCounted.getLsbD k then
        let x := b.st.bar k
        let y := { x with arrived := x.arrived + 1 }
        let st := (b.st.setGroup gi { g with barCounted := g.barCounted ||| ((1 : BitVec 8) <<< k) })
        let s1 := s.setBlock id { b with st := { st with bars := st.bars.set k y } }
        if y.arrived = y.expected then s1.meetSlot id k else s1
      else s

/-- The arrivals that the retirement of lanes may bring about. -/
def State.arriveAny (s : State) (id gi : Nat) : State := (List.range 8).foldl (fun x k => x.arrive id gi k) s

/-- A batch closed by MFENCE or by the retirement of its group (07 R204). -/
def Group.closeOpen (g : Group) (clk : Nat) : Group :=
  let now := fun (t : Batch) => if t.closed then t else { t with closed := true, closedAt := clk }
  { g with batches := g.batches.map now }

/-- The last lane of a group has retired: the group retires, the expected counts drop, and its registers are given up, to be zeroed
before another owner uses them (06 R172, 08 R224, 17 R376). -/
def State.retireGroup (s : State) (id gi : Nat) : State :=
  match s.blocks.get? id with
  | none => s
  | some b =>
    match b.st.groups[gi]? with
    | none => s
    | some g =>
      if g.retired then s
      else
        let g1 := { (g.closeOpen (s.clk b.cl)) with
          retired := true
          slot0 := PcSlot.empty
          slot1 := PcSlot.empty
          park := .none
          lanes := g.lanes.map fun _ => Lane.empty }
        let bars := b.st.bars.map fun x => { x with expected := x.expected - 1 }
        let s1 := (s.setBlock id { b with st := { (b.st.setGroup gi g1) with bars := bars } }).zeroLater b.cl (b.coreOf gi)
          ⟨0, 256 * b.nregs, 0, 0, 0⟩
        (List.range 8).foldl (fun x k =>
          let y := bars.getD k ⟨0, 1, false⟩
          if y.arrived = y.expected then x.meetSlot id k else x) s1

/-- The offers of lanes leave the board (08 R224, R247). -/
def BlkState.dropOffers (st : BlkState) (gi : Nat) (m : Mask) : BlkState :=
  { st with board := st.board.filter fun e => !(e.grp.toNat == gi && m.getLsbD e.lane.toNat) }

/-- Lanes of a group retire: their positions hold no lane any more, their offers leave the board, and the group retires with its
last lane, or may now arrive at a barrier slot (06 R171, R172, 08 R224). -/
def State.retireLanes (s : State) (id gi : Nat) (m : Mask) : State :=
  match s.blocks.get? id with
  | none => s
  | some b =>
    match b.st.groups[gi]? with
    | none => s
    | some g =>
      let g1 := { (g.mapLanes fun k l => if m.getLsbD k then { l with present := false } else l) with
        barWait := g.barWait.map fun w => w &&& ~~~m
        regWait := g.regWait &&& ~~~m }
      let st := (b.st.setGroup gi g1).dropOffers gi m
      let s1 := s.setBlock id { b with st := st }
      if g1.live = 0 then s1.retireGroup id gi else s1.arriveAny id gi

/-- Makes guarded lanes wait at a block barrier slot and counts the group's arrival (R171). -/
def execBar (c : Ctl) (slot : BitVec 3) (s : State) : Out :=
  withCur s fun q =>
    let lanes := q.active c
    if lanes.isEmpty then .next (s.finish q q.blk.st q.grp)
    else
      afterDrain s q true .results <|
        let k := slot.toNat
        let m := maskOf fun i => q.grp.runs q.slot c i
        let g := { q.grp with barWait := q.grp.barWait.set k (q.grp.waiting k ||| m) }
        let pc := q.pc
        let l := targets (q.grp.pcSlot q.slot).e.mask fun i => if m.getLsbD i then some pc else some (pcNext pc)
        match placeEntries q.blk.st g q.slot l with
        | some r => .next ((s.putSt q (r.1.setGroup q.gi (settle r.1 r.2))).arrive q.id q.gi k)
        | none => .next (s.takeFault q { code := .divStack, lane := lanes.headD 0 })

/-! ### Completion objects (07 R188) -/

/-- A completion object. -/
structure Obj where
  phase : BitVec 16
  arrivals : BitVec 16
  bytes : BitVec 32
  reload : BitVec 16
  clipped : BitVec 24
  err : Bool
  deriving DecidableEq, Repr

/-- Read an object from its two words (07 R188). -/
def Obj.ofWords (w0 w1 : W64) : Obj :=
  ⟨w0.extractLsb' 0 16, w0.extractLsb' 16 16, w0.extractLsb' 32 32, w1.extractLsb' 0 16, w1.extractLsb' 16 24, w1.getLsbD 40⟩

/-- Word 0 of an object. -/
def Obj.w0 (o : Obj) : W64 := o.bytes ++ o.arrivals ++ o.phase

/-- Word 1 of an object; reserved bits are 0. -/
def Obj.w1 (o : Obj) : W64 := (0 : BitVec 23) ++ bit o.err ++ o.clipped ++ o.reload

/-- The object at a scratch offset. -/
def BlkState.obj (st : BlkState) (off : Nat) : Obj := Obj.ofWords (st.sword off) (st.sword (off + 8))

/-- Write an object. -/
def BlkState.setObj (st : BlkState) (off : Nat) (o : Obj) : BlkState :=
  st.writeScratch off (leBytes o.w0.toNat 8 ++ leBytes o.w1.toNat 8)

/-- complete_if_done (06 R175). -/
def Obj.complete (o : Obj) : Obj :=
  if o.arrivals = 0 ∧ o.bytes = 0 then { o with phase := o.phase + 1, arrivals := o.reload } else o

/-- One arrival (06 R175). -/
def Obj.arrive (o : Obj) : Obj := (if o.arrivals = 0 then o else { o with arrivals := o.arrivals - 1 }).complete

/-- EXPECT (06 R175). -/
def Obj.expect (o : Obj) (n : BitVec 32) : Obj := ({ o with bytes := o.bytes + n } : Obj).complete

/-- COINIT: 0 arrivals is read as 1 (06 R174). -/
def Obj.init (n : BitVec 16) : Obj :=
  let r := if n = 0 then 1 else n
  ⟨0, r, 0, r, 0, false⟩

/-- A change of an object by a word of its block: waiting WAITPHs look again, monitors of the sector wake; the other core of a pair
meets the change of an object in its part 160 cycles later (21 R410). -/
def State.updObj (s : State) (q : Cur) (off : Nat) (f : Obj → Obj) : State :=
  match s.blocks.get? q.id with
  | none => s
  | some b =>
    let s1 := s.setBlock q.id { b with st := b.st.setObj off (f (b.st.obj off)) }
    let t := ({ s1 with ms := s1.ms.fire fun m => m.scratch && m.blk == q.id && m.sector == off / 64 } : State).wakeBlk q.id
      SWait.isWaitph
    if q.reaches off 16 then t.crosses q (.bytes off 16) else t

/-- A word on objects (06 R173): the checks of every executing lane, then `k` with the object's offset of each. -/
def objWord (s : State) (c : Ctl) (a : Opnd) (k : State → Cur → (Nat → Nat) → Out) : Out :=
  let req := fun (q : Cur) i => (⟨q.grp.opnd Rd.raw a i, 16, true, false, false, .scratch, false, false⟩ : Req)
  withAccess s c none false (fun _ _ => false) req fun s q chk =>
    k s q fun i => match chk i with
      | .scratch off => off
      | _ => 0

/-- Waits for the object's copies in flight, then initialises a completion object (R174). -/
def execCoinit (c : Ctl) (a b : Opnd) (s : State) : Out :=
  objWord s c a fun s q off =>
    let lanes := q.active c
    let busy := lanes.any fun i => s.ms.copies.any fun p => p.2.objs.contains q.id && p.2.objOff == off i
    if busy then .next (s.waitSlot q .coinit)
    else
      let s1 := lanes.foldl (fun x i =>
        x.updObj q (off i) fun _ => Obj.init ((q.grp.opnd Rd.raw b i).setWidth 16)) s
      withCur s1 fun q1 => .next (s1.finish q1 q1.blk.st q1.grp)

/-- Releases at BLK, returns the phase token and counts one arrival (R175). -/
def execArrive (c : Ctl) (o : RD1) (s : State) : Out :=
  objWord s c o.a fun s q off =>
    let lanes := q.active c
    afterDrain s q (!lanes.isEmpty) .results <|
      let r := lanes.foldl (fun (x : State × List (Nat × W64)) i =>
        match x.1.blocks.get? q.id with
        | some b => (x.1.updObj q (off i) Obj.arrive, x.2 ++ [(i, (b.st.obj (off i)).phase.setWidth 64)])
        | none => x) (s, [])
      withCur r.1 fun q1 =>
        let g := (q1.grp.mapLanes fun i l =>
          match r.2.find? fun (p : Nat × W64) => p.1 == i with
          | some (_, v) => l.setReg o.d.r v false
          | none => l).shiftLatch o.d.r
        .next (r.1.finish q1 q1.blk.st { g with sb := g.sb ||| ((1 : W64) <<< o.d.r.toNat) })

/-- Adds a byte count to the object's pending bytes (R175). -/
def execExpect (c : Ctl) (a b : Opnd) (s : State) : Out :=
  objWord s c a fun s q off =>
    let s1 := (q.active c).foldl (fun x i =>
      x.updObj q (off i) fun ob => ob.expect ((q.grp.opnd Rd.raw b i).setWidth 32)) s
    withCur s1 fun q1 => .next (s1.finish q1 q1.blk.st q1.grp)

/-- Waits for a phase to complete, or returns STALE, or faults PHASE_FUTURE (R176). -/
def execWaitph (c : Ctl) (o : P2) (s : State) : Out :=
  objWord s c o.a fun s q off =>
    let lanes := q.active c
    let d := fun i => (q.blk.st.obj (off i)).phase - (q.grp.opnd Rd.raw o.b i).setWidth 16
    match lanes.find? fun i => (d i).msb with
    | some i => .next (s.takeFault q { code := .phaseFuture, lane := i, ea := q.grp.opnd Rd.raw o.a i })
    | none =>
      if lanes.any fun i => d i == 0 then .next (s.waitSlot q .waitph)
      else
        .next (s.finish q q.blk.st (q.grp.mapLanes fun i l =>
          if q.grp.runs q.slot c i then l.setPred o.p (d i != 1) else l))

end Sys2Proof.Machine
end

