-- ==== Sys2Proof/Machine/QueueOps.lean ====
section
/-! DEFINITION. The ring and the QCB of a queue: positions, reserving a slot, kicks (15 R323 to R327), and the places where
the front end and the slices read and write memory for a queue (15 R430). -/

namespace Sys2Proof.Machine

/-! ### Word 2 of a QCB (15 R323, R325) -/

/-- CONS. -/
def qCons (w : W64) : Nat := (w.extractLsb' 0 21).toNat
/-- RESV. -/
def qResv (w : W64) : Nat := (w.extractLsb' 21 21).toNat
/-- HELD. -/
def qHeld (w : W64) : Nat := (w.extractLsb' 42 21).toNat

/-- Word 2 from CONS, RESV and HELD. -/
def qWord2 (cons resv held : Nat) : W64 := (0 : BitVec 1) ++ BitVec.ofNat 21 held ++ BitVec.ofNat 21 resv ++ BitVec.ofNat 21 cons

/-- Word 2 as it stands at its home. -/
def State.q2 (s : State) (x : Queue) : W64 := s.ms.mem.word (x.pa + 16)

/-- Write word 2 at its home (15 R325). -/
def State.setQ2 (s : State) (x : Queue) (w : W64) : State :=
  { s with ms := s.ms.homeWrite (x.pa + 16) (leBytes w.toNat 8) }

/-- Slots in use: (RESV - CONS) modulo 2^21 (15 R325). -/
def qUsed (w : W64) : Nat := (qResv w + 2 ^ 21 - qCons w) % 2 ^ 21

/-- The number of ring entries. -/
def Queue.size (x : Queue) : Nat := 2 ^ x.log2n

/-- The phase of a position: 1 on the first lap, then alternating (15 R316, R325). -/
def phaseOf (x : Queue) (pos : Nat) : Bool := pos / x.size % 2 == 0

/-- The virtual address of the ring slot of a position (15 R315). -/
def ringSlot (x : Queue) (pos : Nat) : W64 := x.base + BitVec.ofNat 64 (128 * (pos % x.size))

/-! ### Memory as the front end, the slices and the brood reach it (15 R430) -/

/-- The physical address of a virtual address, by a walk; the leaf too. -/
def State.translate (s : State) (asid : Nat) (va : W64) : Option (W64 × Nat) :=
  if 2 ^ 57 ≤ va.toNat then none
  else (s.ms.walk (s.root asid) va).map fun leaf => (leaf, leafPa leaf va)

/-- The physical address at which a virtual address is reached at its home: none if it is not mapped, or beyond the installed HBM
(17 R358). -/
def State.homePa (s : State) (asid : Nat) (va : W64) : Option Nat :=
  ((s.translate asid va).filter fun x => !beyondHbm x.2).map fun x => x.2

/-- Write bytes at the home of a virtual address; nothing where there is no memory. -/
def State.homeStore (s : State) (asid : Nat) (va : W64) (bytes : List Byte) : State :=
  match s.homePa asid va with
  | some pa => { s with ms := s.ms.homeWrite pa bytes }
  | none => s

/-- Read a word at the home of a virtual address. -/
def State.homeLoad (s : State) (asid : Nat) (va : W64) : Option W64 := (s.homePa asid va).map fun pa => s.ms.mem.word pa

/-! ### Queues by handle, kicks (15 R327) -/

/-- The live queue of a context whose QCB has a virtual address. -/
def State.queueOf (s : State) (asid : Nat) (handle : W64) : Option (Nat × Queue) :=
  s.qs.queues.find? fun p => p.2.asid == asid && p.2.handle == handle && p.2.st != .dead

/-- The live queue whose QCB stands at a physical address. -/
def State.queueAt (s : State) (pa : Nat) : Option (Nat × Queue) :=
  s.qs.queues.find? fun p => p.2.pa == pa && p.2.st != .dead

/-- Change a hardware slot. -/
def State.updSlot (s : State) (k : Nat) (f : SlotState → SlotState) : State :=
  { s with qs := { s.qs with slots := s.qs.slots.put k (f (s.qs.slots.getD k SlotState.free)) } }

/-- The effect of a kick, or of a match of a parked WAITSIG monitor (15 R327). -/
def State.kickQueue (s : State) (k : Nat) : State :=
  match s.qs.queues.get? k with
  | none => s
  | some x =>
    match x.st with
    | .mapped => s.updSlot x.slot fun t => { t with woken := true }
    | .unmapping => s.updSlot x.slot fun t => { t with pending := true }
    | .idle =>
      let s1 := s.setQueue k { x with pend := true, st := .ready }
      { s1 with qs := { s1.qs with wantDecision := true } }
    | .ready => s.setQueue k { x with pend := true }
    | .error => s
    | .dead => s

/-- Reserve a ring slot: the position, if the test of 15 R325, or that of R326 for a reserved child, holds. -/
def State.reserve (s : State) (x : Queue) (child : Bool) : Option (Nat × State) :=
  let w := s.q2 x
  let room := if child then decide (qUsed w < x.size) else decide (qUsed w + qHeld w < x.size)
  if room then
    some (qResv w, s.setQ2 x (qWord2 (qCons w) ((qResv w + 1) % 2 ^ 21) (if child then qHeld w - 1 else qHeld w)))
  else none

/-- Whether the ring slot that a queue will reserve next lies beyond the installed HBM (17 R358). -/
def State.slotBeyond (s : State) (x : Queue) : Bool :=
  (s.translate x.asid (ringSlot x (qResv (s.q2 x)))).any fun t => beyondHbm t.2

/-- Write a packet into a reserved slot, word 0 last, and kick the queue (08 R230, 19 R389). -/
def State.putPacket (s : State) (k : Nat) (x : Queue) (pos : Nat) (words : List W64) : State :=
  let va := ringSlot x pos
  let w0 : W64 := (words.headD 0 &&& ~~~(1 : W64)) ||| (if phaseOf x pos then 1 else 0)
  let s1 := (List.range 15).foldl (fun s i =>
    s.homeStore x.asid (va + BitVec.ofNat 64 (8 * (i + 1))) (leBytes (words.getD (i + 1) 0).toNat 8)) s
  (s1.homeStore x.asid va (leBytes w0.toNat 8)).kickQueue k

/-- An ENQ at its queue (08 R230, R231): the result, and whether it took a reserved child slot of the launch. -/
def State.enqueue (s : State) (k : Nat) (x : Queue) (launch : Nat) (body : List W64) : Bool × State :=
  let child :=
    match s.qs.launches.get? launch with
    | some l => decide (0 < l.children) && (l.w.getD 7 0 == x.handle)
    | none => false
  match s.reserve x child with
  | none => (false, s)
  | some (pos, s1) =>
    let s2 :=
      if child then
        match s1.qs.launches.get? launch with
        | some l => { s1 with qs := { s1.qs with launches := s1.qs.launches.put launch { l with children := l.children - 1 } } }
        | none => s1
      else s1
    (true, s2.putPacket k x pos body)

end Sys2Proof.Machine
end

