-- ==== Sys2Proof/Machine/CopyEngine.lean ====
section
/-! DEFINITION. Messages to other chips (19 R393, R394), tensor records and boxes (07 R182 to R187), and what the copy
engines do (07 R191 to R197). -/

namespace Sys2Proof.Machine

/-! ### Messages to other chips (19 R393, R394) -/

/-- The channel of a message (19 R393). -/
def vcOf : RemoteOp → Nat
  | .load _ _ => 4
  | .store _ _ => 0
  | .atom _ _ _ _ _ => 0
  | .red _ _ _ _ => 0
  | .casc _ _ _ _ _ => 0
  | .decc _ _ _ _ => 0
  | .waitc _ _ => 0
  | .replica _ _ => 2
  | .join _ _ => 2
  | .start _ _ => 2
  | .abort _ _ _ => 2
  | .probe _ _ => 3
  | .engineRead _ _ => 6
  | .engineWrite _ _ _ => 7

/-- The bytes that a message carries. -/
def carried : RemoteOp → Nat
  | .load _ _ => 0
  | .store _ l => l.length
  | .atom _ _ _ _ _ => 32
  | .red _ _ _ _ => 32
  | .casc _ _ _ _ _ => 32
  | .decc _ _ _ _ => 32
  | .waitc _ _ => 0
  | .replica _ w => 8 * w.length
  | .join _ _ => 0
  | .start _ _ => 0
  | .abort _ _ _ => 0
  | .probe _ _ => 0
  | .engineRead _ _ => 0
  | .engineWrite _ l _ => l.length

/-- The bytes of the retry buffers that a message takes: a free value, but so that the 1,024 of one stream fit (19 R394; log 95). -/
def retryCost (bytes : Nat) : Nat := min (Config.retryBytes bytes) 16384

/-- Whether the stream to a chip has room for `n` more unacknowledged messages of so many bytes, and the retry buffers of 16 MiB
have too (19 R394). -/
def State.streamRoom (s : State) (chip vc n bytes : Nat) : Bool :=
  decide ((s.fab.retry.countP fun m => m.m.dst == chip && m.m.vc == vc) + n ≤ 1024) &&
    decide ((s.fab.retry.map fun m => retryCost (carried m.m.op)).sum + n * retryCost bytes ≤ 16777216)

/-- Send a message: it takes the next number of its stream and stays in the retry buffer (19 R393, R394). -/
def State.send (s : State) (chip asid : Nat) (op : RemoteOp) (info : Msg → OutMsg) : State :=
  let vc := vcOf op
  let key := 8 * chip + vc
  let n := s.fab.outSeq.getD key 0
  let m : Msg := ⟨s.fab.chip, chip, vc, n, s.fab.tag, asid, op, 0⟩
  { s with fab := { s.fab with
      outSeq := s.fab.outSeq.put key (n + 1)
      retry := s.fab.retry ++ [info m]
      outbox := s.fab.outbox ++ [(info m).m] } }

/-! ### Tensor records and boxes (07 R182 to R187) -/

/-- A tensor record read into its fields. Dims at or above the rank have an extent of 1 in every count. -/
structure Box where
  base : W64
  rank : Nat
  fmt : Nat
  bcast : BitVec 5
  zfill : Bool
  planar : Bool
  dims : List Nat
  boxes : List Nat
  strides : List Nat
  deriving DecidableEq, Repr

/-- Bits of an element (07 R183); 0 for an undefined code. -/
def fmtBits (f : Nat) : Nat := [8, 8, 16, 16, 32, 32, 64, 32, 16, 16, 8, 8, 4, 4, 2, 1, 64, 64].getD f 0

/-- A word of a record. -/
def recW (r : List W64) (i : Nat) : W64 := r.getD i 0

/-- A field of a record as a number. -/
def recF (r : List W64) (i lo n : Nat) : Nat := ((recW r i).extractLsb' lo n).toNat

/-- The raw box extents of a record. -/
def recBoxes (r : List W64) : List Nat := [recF r 4 32 16, recF r 4 48 16, recF r 5 0 16, recF r 5 16 16, recF r 5 32 16]

/-- The dim extents of a record. -/
def recDims (r : List W64) : List Nat := [recF r 2 0 32, recF r 2 32 32, recF r 3 0 32, recF r 3 32 32, recF r 4 0 32]

/-- The strides of dims 1 to 4 of a record, after that of dim 0, which no field holds. -/
def recStrides (r : List W64) : List Nat := [0, recF r 6 0 32, recF r 6 32 32, recF r 7 0 32, recF r 7 32 32]

/-- Read a record. -/
def Box.ofWords (r : List W64) : Box :=
  let rank := recF r 1 0 3 + 1
  { base := recW r 0
    rank := rank
    fmt := recF r 1 3 5
    bcast := (recW r 1).extractLsb' 10 5
    zfill := (recW r 1).getLsbD 9
    planar := (recW r 1).getLsbD 8
    dims := recDims r
    boxes := (recBoxes r).mapIdx fun d b => if d < rank then b else 1
    strides := recStrides r }

/-- Bits of an element of a box. -/
def Box.bits (b : Box) : Nat := fmtBits b.fmt

/-- An extent of a box. -/
def Box.ext (b : Box) (d : Nat) : Nat := b.boxes.getD d 1

/-- The number of elements of a box. -/
def Box.count (b : Box) : Nat := b.ext 0 * b.ext 1 * b.ext 2 * b.ext 3 * b.ext 4

/-- The planes of a planar format (03 R82). -/
def Box.planes (b : Box) : Nat := b.bits

/-- The destination size of a box in bytes (07 R185, R186). -/
def Box.size (b : Box) : Nat :=
  if b.planar then 384 * b.planes * (b.ext 1 / 32) else b.count * b.bits / 8

/-- The formats that PLANAR takes (07 R186). -/
def planarFmt (f : Nat) : Bool := [10, 11, 8, 9, 0, 13, 14, 15, 12].contains f

/-- The rules of a record that do not look at a copy (07 R184): reserved bits, format, rank, extents. -/
def recordShape (r : List W64) : Bool :=
  let b := Box.ofWords r
  decide (recF r 1 15 49 = 0) && decide (recF r 5 48 16 = 0) && decide (b.bits ≠ 0) && decide (b.rank ≤ 5) &&
  (List.range 5).all (fun d =>
    if d < b.rank then decide (1 ≤ (recBoxes r).getD d 0)
    else decide ((recDims r).getD d 0 = 0) && decide ((recBoxes r).getD d 0 = 0) && decide ((recStrides r).getD d 0 = 0) &&
      !b.bcast.getLsbD d) &&
  (8 ≤ b.bits || decide (b.ext 0 * b.bits % 8 = 0)) && !(b.zfill && b.fmt == 15)

/-- Whether a record is valid for a copy with its coordinates (07 R184, R186). -/
def recordValid (r : List W64) (c : List Int) (planarOk : Bool) : Bool :=
  let b := Box.ofWords r
  recordShape r && (8 ≤ b.bits || decide (c.getD 0 0 * b.bits % 8 = 0)) &&
  (!b.planar ||
    (planarOk && decide (2 ≤ b.rank) && decide (b.ext 0 = 96) && decide (b.ext 1 % 32 = 0) &&
      (List.range 5).all (fun d => decide (d < 2) || decide (b.ext d = 1)) && planarFmt b.fmt)) &&
  decide (b.size ≤ 262144)

/-- The indices of element `e` of a box, dim 0 fastest (07 R185). -/
def Box.index (b : Box) (e : Nat) : List Nat :=
  [e % b.ext 0, e / b.ext 0 % b.ext 1, e / (b.ext 0 * b.ext 1) % b.ext 2, e / (b.ext 0 * b.ext 1 * b.ext 2) % b.ext 3,
    e / (b.ext 0 * b.ext 1 * b.ext 2 * b.ext 3)]

/-- Whether an element lies in its tensor (07 R185). -/
def Box.inside (b : Box) (c : List Int) (i : List Nat) : Bool :=
  (List.range b.rank).all fun d =>
    let t : Int := c.getD d 0 + (i.getD d 0 : Int)
    decide (0 ≤ t) && decide (t < (b.dims.getD d 0 : Int))

/-- The bit address of an element from BASE (07 R183, R185): a broadcast dim has stride 0. -/
def Box.bitOffset (b : Box) (c : List Int) (i : List Nat) : Int :=
  (List.range b.rank).foldl (fun (a : Int) d =>
    let t : Int := c.getD d 0 + (i.getD d 0 : Int)
    if b.bcast.getLsbD d then a
    else if d = 0 then a + t * b.bits
    else a + t * (8 * b.strides.getD d 0 : Nat)) 0

/-- The address of the byte where an element begins, and the bit within it. -/
def Box.elemVa (b : Box) (c : List Int) (i : List Nat) : W64 × Nat :=
  let o := b.bitOffset c i
  (b.base + BitVec.ofInt 64 (o / 8), (o % 8).toNat)

/-- Bytes that an element touches. -/
def Box.elemBytes (b : Box) : Nat := (b.bits + 7) / 8

/-- The value of an element outside the tensor (07 R187). -/
def Box.fill (b : Box) : Nat := if b.zfill && b.fmt == 12 then 7 else 0

/-- The elements that meet a byte of the dense image of a box, and the first bit that each gives (07 R185). -/
def Box.denseElems (b : Box) (o : Nat) : List Nat :=
  if 8 ≤ b.bits then [o / (b.bits / 8)] else (List.range (8 / b.bits)).map fun t => o * (8 / b.bits) + t

/-- The elements whose bits a byte of the planar image holds: eight columns of one row (03 R82, 07 R186). -/
def Box.planarElems (b : Box) (o : Nat) : List Nat :=
  let p := 384 * b.planes
  let k := 32 * (o / p) + o % 384 / 12
  (List.range 8).map fun t => k * b.ext 0 + 8 * (o % 12) + t

/-- The elements that meet a byte of the scratch image. -/
def Box.elemsAt (b : Box) (o : Nat) : List Nat := if b.planar then b.planarElems o else b.denseElems o

/-- A byte of the scratch image, from the values of its elements. -/
def Box.byteAt (b : Box) (val : Nat → Nat) (o : Nat) : Byte :=
  if b.planar then
    let p := o % (384 * b.planes) / 384
    BitVec.ofNat 8 (((b.planarElems o).mapIdx fun t e => if (val e).testBit p then 2 ^ t else 0).sum)
  else if 8 ≤ b.bits then BitVec.ofNat 8 (val (o / (b.bits / 8)) >>> (8 * (o % (b.bits / 8))))
  else BitVec.ofNat 8 (((b.denseElems o).mapIdx fun t e => (val e % 2 ^ b.bits) * 2 ^ (t * b.bits)).sum)

/-- The number of out-of-tensor elements of a box (07 R187). -/
def Box.clipped (b : Box) (c : List Int) : Nat :=
  b.count - (List.range 5).foldl (fun n d =>
    if d < b.rank then
      let lo := max 0 (c.getD d 0)
      let hi := min (b.dims.getD d 0 : Int) (c.getD d 0 + (b.ext d : Int))
      n * (hi - lo).toNat
    else n) 1

/-- The virtual page numbers of the in-tensor bytes of a box, row by row, without repeats (07 R190). -/
def Box.pages (b : Box) (c : List Int) : List Nat :=
  let rows := b.count / b.ext 0
  ((List.range rows).foldl (fun acc r =>
    let first := r * b.ext 0
    let i := b.index first
    let lo := (max 0 (-(c.getD 0 0))).toNat
    let hi := (min (b.ext 0 : Int) ((b.dims.getD 0 0 : Int) - c.getD 0 0)).toNat
    if lo < hi ∧ b.inside c (i.set 0 lo) then
      let x := (b.elemVa c (i.set 0 lo)).1
      let y := (b.elemVa c (i.set 0 (hi - 1))).1 + BitVec.ofNat 64 (b.elemBytes - 1)
      let p := x.toNat / 262144
      let n := ((y - x).toNat + x.toNat % 262144) / 262144 + 1
      (List.range n).foldl (fun a j => if a.contains ((p + j) % 2 ^ 46) then a else (p + j) % 2 ^ 46 :: a) acc
    else acc) []).reverse

/-! ### The engine's reads and writes (07 R192) -/

/-- Where a virtual address of a copy lies: chip and physical address, by the page that the copy probed. -/
def CopyOp.at_ (c : CopyOp) (chip : Nat) (va : W64) : Nat × Nat :=
  let leaf := c.pages.getD (va.toNat / 262144) 0
  (if pteRem leaf then pteChip leaf else chip, leafPa leaf va)

/-- The key of a source sector: 2^46 times its chip, plus its number. -/
def srcKey (x : Nat × Nat) : Nat := 2 ^ 46 * x.1 + x.2 / 64

/-- The box of a copy. -/
def CopyOp.box (c : CopyOp) : Box := Box.ofWords c.trec

/-- The in-tensor global source addresses that the bytes `off` to `off + n - 1` of the destination need. -/
def CopyOp.sources (c : CopyOp) (off n : Nat) : List W64 :=
  match c.kind with
  | .store => []
  | .global => (List.range n).map fun i => c.sva + BitVec.ofNat 64 (off + i)
  | _ =>
    let b := c.box
    ((List.range n).map fun i => (b.elemsAt (off + i)).flatMap fun e =>
      if b.inside c.coord (b.index e) then
        (List.range b.elemBytes).map fun j => (b.elemVa c.coord (b.index e)).1 + BitVec.ofNat 64 j
      else []).flatten

/-- Whether every source sector on another chip has been fetched. -/
def CopyOp.ready (c : CopyOp) (chip : Nat) (vas : List W64) : Bool :=
  vas.all fun va => (c.at_ chip va).1 == chip || (c.fetched.get? (srcKey (c.at_ chip va))).isSome

/-- The key of a sector of the scratch source. -/
def scratchKey (sector : Nat) : Nat := 2 ^ 62 + sector

/-- The key of a destination sector of another chip that the engine has read, to replace it whole (19 R393). -/
def destKey (x : Nat × Nat) : Nat := 2 ^ 61 + srcKey x

/-- The predicted packet words that a sector of a virtual address holds, for a speculation (16 R344); none outside the packet, and
`some none` where one is unpredicted. -/
def packetSector (fields : List (Option W64)) (qpkt va : W64) : Option (Option (List Byte)) :=
  let o := ((va - (va &&& 63)) - qpkt).toNat
  if o < 128 then
    let ws := (fields.drop (o / 8)).take 8
    if ws.all Option.isSome then some (some ((ws.map fun w => leBytes (w.getD 0).toNat 8).flatten)) else some none
  else none

/-- Read the source sectors of this chip that the copy has not read yet, whole and from one moment, as an LDB of the copy's
cluster (07 R192); a speculation reads its own lines and its predicted packet (16 R344, R345). -/
def fetchSources (chip : Nat) (spec : Option Nat) (packet : W64 → Option (Option (List Byte))) :
    List W64 → CopyOp × MemSys → CopyOp × MemSys
  | [], x => x
  | va :: l, (c, ms) =>
    let p := c.at_ chip va
    if (c.fetched.get? (srcKey p)).isSome then fetchSources chip spec packet l (c, ms)
    else
      let r := match packet va with
        | some (some b) => (b, ms, false)
        | _ =>
          match spec with
          | some k =>
            let bad := ms.specPoisoned k (64 * (p.2 / 64)) 64
            let y := ms.specRead c.cl k (64 * (p.2 / 64)) 64
            (y.1, y.2, bad)
          | none => (ms.mem.bytes (64 * (p.2 / 64)) 64, ms, ms.poison.contains (p.2 / 64))
      fetchSources chip spec packet l ({ c with fetched := c.fetched.put (srcKey p) (r.1, r.2.2) }, r.2.1)

/-- Read the sectors of the scratch source that hold these offsets and that the copy has not read yet, whole (07 R192). -/
def fetchScratch (st : BlkState) : List Nat → CopyOp → CopyOp
  | [], c => c
  | o :: l, c =>
    let k := scratchKey (o / 64)
    if (c.fetched.get? k).isSome then fetchScratch st l c
    else fetchScratch st l { c with fetched := c.fetched.put k (st.scratch.bytes (o / 64 * 64) 64, st.spoison.contains (o / 64)) }

/-- A byte of the scratch source as the engine has read it, and whether it is bad. -/
def CopyOp.scratchByte (c : CopyOp) (o : Nat) : Byte × Bool :=
  match c.fetched.get? (scratchKey (o / 64)) with
  | some x => (x.1.getD (o % 64) 0, x.2)
  | none => (0, false)

/-- A source byte that the engine holds. -/
def CopyOp.srcByte (c : CopyOp) (chip : Nat) (va : W64) : Byte :=
  let p := c.at_ chip va
  match c.fetched.get? (srcKey p) with
  | some x => x.1.getD (p.2 % 64) 0
  | none => 0

/-- Whether a source byte is bad. -/
def CopyOp.srcBad (c : CopyOp) (chip : Nat) (va : W64) : Bool :=
  match c.fetched.get? (srcKey (c.at_ chip va)) with
  | some x => x.2
  | none => false

/-- The value of element `e` of a copy's box. -/
def CopyOp.elem (c : CopyOp) (chip e : Nat) : Nat :=
  let b := c.box
  let i := b.index e
  if b.inside c.coord i then
    let a := b.elemVa c.coord i
    (leNat ((List.range b.elemBytes).map fun j => c.srcByte chip (a.1 + BitVec.ofNat 64 j)) >>> a.2) % 2 ^ b.bits
  else b.fill

/-- The bytes that a copy delivers at `off` of its destination. -/
def CopyOp.deliverBytes (c : CopyOp) (chip off n : Nat) : List Byte :=
  match c.kind with
  | .global => (List.range n).map fun i => c.srcByte chip (c.sva + BitVec.ofNat 64 (off + i))
  | _ => (List.range n).map fun i => c.box.byteAt (c.elem chip) (off + i)

/-! ### Deliveries -/

/-- Cut a destination range of `n` bytes that starts `o` bytes into a sector at the sector boundaries. -/
def cutSectors (o n : Nat) : List (Nat × Nat) :=
  (List.range ((o + n + 63) / 64)).filterMap fun i =>
    let a := max (64 * i) o - o
    let e := min (64 * (i + 1)) (o + n) - o
    if a < e then some (a, e - a) else none

/-- The deliveries of a COPYS: for each destination sector the bytes of the box that go there, and those outside the
tensor together (07 R187, R192). -/
def storeTodo (b : Box) (c : List Int) : List (Nat × Nat) :=
  (List.range b.size).foldl (fun (l : List (Nat × Nat)) o =>
    let es := (b.denseElems o).filter fun e => b.inside c (b.index e)
    let off := if 8 ≤ b.bits then o % (b.bits / 8) else 0
    let key := match es with
      | e :: _ => ((b.elemVa c (b.index e)).1 + BitVec.ofNat 64 off).toNat / 64
      | [] => 2 ^ 60
    if l.any fun p => p.1 == key then l.map fun p => if p.1 = key then (p.1, p.2 + 1) else p else l ++ [(key, 1)]) []

/-- What a COPYS delivery writes in a sector: for each, the scratch offset that gives it, the byte of the sector, the value from a
source byte, and which bits it replaces, in order. -/
def storeWrites (c : CopyOp) (key : Nat) : List (Nat × Nat × (Byte → Byte) × Byte) :=
  let b := c.box
  (List.range b.size).flatMap fun o =>
    (b.denseElems o).filterMap fun e =>
      if b.inside c.coord (b.index e) then
        let a := b.elemVa c.coord (b.index e)
        if 8 ≤ b.bits then
          let va := a.1 + BitVec.ofNat 64 (o % (b.bits / 8))
          if va.toNat / 64 = key then some (c.sofs + o, va.toNat % 64, id, (0xFF : Byte)) else none
        else if a.1.toNat / 64 = key then
          let t := e % (8 / b.bits) * b.bits
          some (c.sofs + o, a.1.toNat % 64, (fun x => ((x >>> t) <<< a.2 : Byte)), (BitVec.ofNat 8 ((2 ^ b.bits - 1) <<< a.2) : Byte))
        else none
      else none

/-- Merge bits into a byte. -/
def mergeBits (old new mask : Byte) : Byte := (old &&& ~~~mask) ||| (new &&& mask)

/-- Count delivered bytes into an object, with CLIPPED and ERR, then complete_if_done (07 R187, R192, R197). -/
def Obj.delivered (o : Obj) (n clip : Nat) (err : Bool) : Obj :=
  ({ o with
    bytes := o.bytes - BitVec.ofNat 32 n
    clipped := BitVec.ofNat 24 (min 0xFFFFFF (o.clipped.toNat + clip))
    err := o.err || err } : Obj).complete

/-- An engine changes an object of a block from outside its core. -/
def State.engineObj (s : State) (id : Nat) (c : CopyOp) (f : Obj → Obj) : State :=
  let s1 :=
    if c.objStored then
      let w := leBytes (Config.objectWord s.free).toNat 8 ++ leBytes (Config.objectWord (s.free + 1)).toNat 8
      { (s.updBlk id fun st => st.writeScratch c.objOff w) with free := s.free + 2 }
    else s.updBlk id fun st => st.setObj c.objOff (f (st.obj c.objOff))
  ({ s1 with ms := s1.ms.fire fun m => m.scratch && m.blk == id && m.sector == c.objOff / 64 } : State).wakeBlk id SWait.isWaitph

/-- Whether a copy has nothing left to deliver. -/
def CopyOp.finished (c : CopyOp) : Bool := c.todo.isEmpty && c.sent.isEmpty

/-- Count a retired copy (08 R253). -/
def countCopy (s : State) (c : CopyOp) (key : Nat) : State :=
  s.countCore c.cl c.co key fun p => { p with copies := p.copies + 1 }

/-- The bytes of a delivery are counted; after its last delivery a copy retires (07 R187, R191, R192). -/
def State.countDelivery (s : State) (id : Nat) (c : CopyOp) (n : Nat) (err : Bool) : State :=
  let last := c.finished
  let s1 := c.objs.foldl (fun x k => x.engineObj k c fun o => o.delivered n (if last then c.clip else 0) err)
    (s.launchActive c.launch)
  let copies := if last then s1.ms.copies.del id else s1.ms.copies.put id c
  let s2 := { s1 with ms := { s1.ms with copies := copies } }
  let key := match s.blocks.get? c.blk with
    | some b => b.perfKey
    | none => 0
  if last then (countCopy s2 c key).rewait (fun _ _ _ => true) fun w => (w.over SWait.isHeld).over SWait.isCoinit
  else s2.rewait (fun _ _ _ => true) fun w => w.over SWait.isHeld

/-- Write delivered bytes into the scratch of a block from outside, with poison if they are bad (07 R197). -/
def State.engineScratch (s : State) (id off : Nat) (bytes : List Byte) (bad : Bool) : State :=
  let sectors := sectorsOf off bytes.length
  let mark := fun (st : BlkState) =>
    if bad then { st with spoison := sectors.foldl (fun l x => if l.contains x then l else x :: l) st.spoison } else st
  let s1 := s.updBlk id fun st => mark (st.writeScratch off bytes)
  { s1 with ms := s1.ms.fire fun m => m.scratch && m.blk == id && sectors.contains m.sector }

/-- Write delivered bytes of one sector at their home on this chip, poison the sector if they are bad, and give it back (07 R192,
R193, R197); a speculation writes and poisons its own line alone (16 R345). -/
def MemSys.engineWrite (ms : MemSys) (spec : Option Nat) (sector : Nat) (bytes : List (Option Byte)) (bad : Bool) : MemSys :=
  match spec with
  | some k =>
    let m :=
      if bytes.all Option.isSome then ms.specWrite k (64 * sector) (bytes.map fun b => b.getD 0)
      else (bytes.zipIdx).foldl (fun m x => match x.1 with
        | some b => m.specWrite k (64 * sector + x.2) [b]
        | none => m) ms
    (if bad then m.specPoison k sector else m).giveBack spec sector
  | none =>
    let m := ms.homePut (64 * sector) bytes
    (if bad then m.setPoison sector else m).giveBack none sector

/-- Whether a batch of a block holds a scratch range that a delivery would write (07 R203). -/
def batchHolds (st : BlkState) (off n : Nat) : Bool :=
  st.groups.any fun g => g.batches.any fun t => t.ranges.any fun r => overlaps off n r.1 r.2.1

/-- The predicted packet as the engine of a block reads it. -/
def State.packetOf (s : State) (b : Block) (va : W64) : Option (Option (List Byte)) :=
  match b.spec.bind s.qs.specs.get? with
  | some x => packetSector x.fields b.qpkt va
  | none => none

/-- Deliver into scratch: one chunk of the destination, in every receiving block. -/
def State.deliverScratch (s : State) (id : Nat) (c : CopyOp) (b : Block) (off n : Nat) : State :=
  let vas := c.sources off n
  let r := fetchSources s.fab.chip b.spec (s.packetOf b) vas (c, s.ms)
  let bad := vas.any fun va => r.1.srcBad s.fab.chip va
  let bytes := r.1.deliverBytes s.fab.chip off n
  let s1 := c.objs.foldl (fun x k => (x.engineScratch k (c.sofs + off) bytes bad).checkShare k) { s with ms := r.2 }
  s1.countDelivery id { r.1 with todo := c.todo.erase (off, n) } n bad

/-- Ask another chip for a sector, as far as the stream has room and behind the writes of this chip to it (11 R295, 19 R392 to R394): a source sector, or a destination sector that
the engine will replace. -/
def State.askFar (s : State) (id asid : Nat) (dest : Bool) (p : Nat × Nat) : State :=
  let lane := if dest then 1 else 0
  if (s.fab.retry.any fun m => m.blk == none && m.grp == id && m.lane == lane && m.m.dst == p.1 && m.m.op == .engineRead (64 * p.2) 64) ||
      s.writeOut p.1 (64 * p.2) 64 || !s.streamRoom p.1 6 1 0 then s
  else s.send p.1 asid (.engineRead (64 * p.2) 64) fun m => ⟨m, none, id, lane, 0, 0, [], none, 0⟩

/-- Whether bytes of a sector cover it whole. -/
def wholeSector (w : List (Option Byte)) : Bool := w.all Option.isSome

/-- Deliver the bytes of one sector to global memory. On another chip, where the sector is replaced whole (19 R393), they count once
acknowledged, and the engine first reads there what the box leaves. -/
def State.deliverSector (s : State) (id : Nat) (c : CopyOp) (va : W64) (w : List (Option Byte)) (chunk : Nat × Nat)
    (spec : Option Nat) (bad : Bool) (asid : Nat) : State :=
  let p := c.at_ s.fab.chip va
  let c1 := { c with todo := c.todo.erase chunk }
  if p.1 = s.fab.chip then
    ({ s with ms := s.ms.engineWrite spec (p.2 / 64) w bad } : State).countDelivery id c1 chunk.2 bad
  else
    match c.fetched.get? (destKey p) with
    | none =>
      if wholeSector w then
        let s1 := { s with ms := { s.ms with copies := s.ms.copies.put id { c1 with sent := c.sent ++ [chunk], bad := c.bad || bad } } }
        s1.send p.1 asid (.engineWrite (p.2 / 64 * 64) (w.map fun b => b.getD 0) bad) fun m =>
          ⟨m, none, id, chunk.1, 0, BitVec.ofNat 64 chunk.2, [], none, 0⟩
      else ({ s with ms := { s.ms with copies := s.ms.copies.put id c } } : State).askFar id asid true (p.1, p.2 / 64)
    | some old =>
      let l := w.mapIdx fun i b => b.getD (old.1.getD i 0)
      let bad1 := bad || (old.2 && !wholeSector w)
      let s1 := { s with ms := { s.ms with copies := s.ms.copies.put id { c1 with sent := c.sent ++ [chunk], bad := c.bad || bad } } }
      s1.send p.1 asid (.engineWrite (p.2 / 64 * 64) l bad1) fun m => ⟨m, none, id, chunk.1, 0, BitVec.ofNat 64 chunk.2, [], none, 0⟩

/-- The bytes of one sector as a COPYS leaves them: the bits of the box over what stands there, nothing where the box has none. -/
def storeBytes (c : CopyOp) (old : Nat → Byte) (w : List (Nat × Nat × (Byte → Byte) × Byte)) : List (Option Byte) :=
  w.foldl (fun (l : List (Option Byte)) x =>
    let was := (l.getD x.2.1 none).getD (old x.2.1)
    l.set x.2.1 (some (mergeBits was (x.2.2.1 (c.scratchByte x.1).1) x.2.2.2))) (List.replicate 64 none)

/-- Deliver a sector of a COPYS (07 R192): the source sectors that feed it are read, bad ones poison it (07 R197). An element of less
than a byte leaves the other bits of its byte, which stand at the home. -/
def State.deliverStore (s : State) (id : Nat) (c : CopyOp) (b : Block) (chunk : Nat × Nat) : State :=
  if chunk.1 = 2 ^ 60 then s.countDelivery id { c with todo := c.todo.erase chunk } chunk.2 false
  else
    let w := storeWrites c chunk.1
    let c1 := fetchScratch b.st (w.map fun x => x.1) c
    let bad := w.any fun x => (c1.scratchByte x.1).2
    let va : W64 := BitVec.ofNat 64 (64 * chunk.1)
    let p := c.at_ s.fab.chip va
    let part := w.any fun x => x.2.2.2 != 0xFF
    if p.1 ≠ s.fab.chip ∧ part = true ∧ (c.fetched.get? (destKey p)).isNone then
      ({ s with ms := { s.ms with copies := s.ms.copies.put id c1 } } : State).askFar id b.asid true (p.1, p.2 / 64)
    else
      let home := fun (i : Nat) =>
        if p.1 = s.fab.chip then
          match b.spec with
          | some k => (s.ms.specRead c.cl k (p.2 / 64 * 64 + i) 1).1.headD 0
          | none => s.ms.mem.byte (p.2 / 64 * 64 + i)
        else ((c.fetched.getD (destKey p) ([], false)).1).getD i 0
      s.deliverSector id c1 va (storeBytes c1 home w) chunk b.spec bad b.asid

/-- The source sectors of other chips that a delivery needs and that are not fetched. -/
def State.missing (s : State) (c : CopyOp) (vas : List W64) : List (Nat × Nat) :=
  (vas.foldl (fun (l : List (Nat × Nat)) va =>
    let p := c.at_ s.fab.chip va
    let x := (p.1, p.2 / 64)
    if p.1 = s.fab.chip ∨ (c.fetched.get? (srcKey p)).isSome ∨ l.contains x then l else x :: l) []).reverse

/-- Ask other chips for source sectors. -/
def State.fetchFar (s : State) (id asid : Nat) (l : List (Nat × Nat)) : State := l.foldl (fun x p => x.askFar id asid false p) s

/-- An engine delivers bytes of a copy, subtracts them from BYTES and runs complete_if_done (R192). -/
def execCopyDelivery (id chunk : Nat) (s : State) : Out :=
  match s.ms.copies.get? id with
  | none => .next s
  | some c =>
    match s.blocks.get? c.blk, c.todo[chunk]? with
    | some b, some t =>
      let far := match c.kind with
        | .store => (c.at_ s.fab.chip (BitVec.ofNat 64 (64 * t.1))).1
        | .global => (c.at_ s.fab.chip (c.dva + BitVec.ofNat 64 t.1)).1
        | _ => s.fab.chip
      if !c.handed || (far != s.fab.chip && !s.streamRoom far 7 1 64) then .next s
      else
        let vas := c.sources t.1 t.2
        if vas.any fun va => s.packetOf b va == some none then
          .next (match b.spec with
            | some n => s.discardSpec n .abort
            | none => s)
        else
        match c.kind with
        | .store => .next ((s.deliverStore id c b t).dropFull b.spec)
        | .global =>
          if chunk ≠ 0 then .next s
          else if !c.ready s.fab.chip vas then .next (s.fetchFar id b.asid (s.missing c vas))
          else
            let r := fetchSources s.fab.chip b.spec (s.packetOf b) vas (c, s.ms)
            let bad := vas.any fun va => r.1.srcBad s.fab.chip va
            let va := c.dva + BitVec.ofNat 64 t.1
            let bytes := (List.replicate (va.toNat % 64) none ++ (r.1.deliverBytes s.fab.chip t.1 t.2).map some ++
              List.replicate 64 none).take 64
            .next ((({ s with ms := r.2 } : State).deliverSector id r.1 va bytes t b.spec bad b.asid).dropFull b.spec)
        | _ =>
          let held := c.objs.any fun k => match s.blocks.get? k with
            | some x => batchHolds x.st (c.sofs + t.1) t.2
            | none => false
          if held then .next s
          else if !c.ready s.fab.chip vas then .next (s.fetchFar id b.asid (s.missing c vas))
          else .next (s.deliverScratch id c b t.1 t.2)
    | _, _ => .next s

/-! ### The hand-off (07 R191) -/

/-- Take ownership of destination sectors: the copies of the cluster are written back, merging only what it wrote, and
dropped (07 R191, step 4); for a speculation only its own accesses are recalled (16 R345). An engine that owns a sector twice stands twice
in the list. -/
def MemSys.own (ms : MemSys) (cl : Nat) (spec : Option Nat) (sectors : List Nat) : MemSys :=
  sectors.foldl (fun m x =>
    let m1 := if spec.isSome then m else m.writeBackDrop cl x
    m1.setOwned spec (x :: m1.ownedBy spec)) ms

/-- The global sectors of this chip that a copy will write, by the pages it probed. -/
def CopyOp.destSectors (c : CopyOp) (chip : Nat) : List Nat :=
  let sec := fun (va : W64) =>
    let leaf := c.pages.getD (va.toNat / 262144) 0
    if pteRem leaf && pteChip leaf != chip then none else some (leafPa leaf va / 64)
  match c.kind with
  | .load => []
  | .multi => []
  | .global => (List.range ((c.dva.toNat % 64 + c.size + 63) / 64)).filterMap fun i =>
      sec (c.dva - BitVec.ofNat 64 (c.dva.toNat % 64) + BitVec.ofNat 64 (64 * i))
  | .store => (c.todo.filterMap fun r => if r.1 = 2 ^ 60 then none else sec (BitVec.ofNat 64 (64 * r.1)))

/-- Hand a copy to an engine (07 R191): the dirty sectors that the lane's stores wrote go to the L2, the engine owns the
destination, and objects of other blocks get their expectation (07 R195). -/
def State.handoff (s : State) (h : Held) (cl id : Nat) : State :=
  match s.ms.copies.get? id, s.blocks.get? h.blk with
  | some c, some b =>
    let mine := ((s.ms.ccSectors cl).filter fun p => p.2.writers.contains (h.blk, h.grp, h.lane)).map fun p => p.1
    let m := mine.foldl (fun m x => m.writeBack cl x) s.ms
    let m1 := m.own cl b.spec (c.destSectors s.fab.chip)
    let s1 := { s with ms := { m1 with copies := m1.copies.put id { c with handed := true } } }
    (c.objs.filter fun k => k != h.blk).foldl (fun x k =>
      x.engineObj k c fun o => { o with bytes := o.bytes + BitVec.ofNat 32 c.size }) s1
  | _, _ => s

end Sys2Proof.Machine
end

