-- ==== Sys2Proof/Machine/StoreQueue.lean ====
section
/-! DEFINITION. The acts that leave a core (06 R147, R160 to R166, 21 R410): atomics at their home, continuation atomics at
their slice (19 R388), messages to other chips (19 R393, R394), and the event of leaving. -/

namespace Sys2Proof.Machine

/-! ### Atomic functions (06 R160, R161) -/

/-- The functions of 06 R160 at width `w`; FADD is apart. -/
def atomFn {w : Nat} (fn : AFn) (fadd : BitVec w → BitVec w → BitVec w) (old b c : BitVec w) : BitVec w :=
  match fn with
  | .add => old + b
  | .fadd => fadd old b
  | .and => old &&& b
  | .or => old ||| b
  | .xor => old ^^^ b
  | .min => eMin old b
  | .max => eMax old b
  | .umin => eUmin old b
  | .umax => eUmax old b
  | .exch => b
  | .cas => if old = b then c else old
  | .incw => if b.ule old then 0 else old + 1

/-- FADD of an atomic: gradual underflow, whatever FTZ says (06 R161). -/
def atomFadd (f : FFmt) (w : Nat) (x y : BitVec w) : BitVec w :=
  BitVec.ofNat w (f.add .rne false (f.decode x.toNat) (f.decode y.toNat)).bits

/-- The new value of an atomic location; of a 4-byte access the low 32 bits count. -/
def atomNew (fn : AFn) (wide : Bool) (old b c : W64) : W64 :=
  if wide then atomFn fn (atomFadd .f64 64) old b c
  else (atomFn fn (atomFadd .f32 32) (old.setWidth 32) (b.setWidth 32) (c.setWidth 32)).setWidth 64

/-- The bytes of an atomic access. -/
def atomBytes (wide : Bool) : Nat := if wide then 8 else 4

/-! ### Results (06 R166, 02 R55) -/

/-- The status of an ATOMC (02 R55). -/
inductive Status where
  | ok
  | retry
  | badtask
  deriving DecidableEq, Repr

/-- Write a result into its lane; a group that has retired takes none. -/
def Group.ret (g : Group) (r : Ret) (v : W64) (st : Status) : Group :=
  if g.retired then g
  else
  let l := g.lane r.lane
  let l1 := match r.d with
    | some d => l.setReg d v r.taint
    | none => l
  let l2 := match r.pair with
    | some p => (l1.setPred (pairOf p).1 (st == .ok)).setPred (pairOf p).2 (st == .badtask)
    | none => l1
  let l3 := match r.pred with
    | some p => l2.setPred p (st == .ok)
    | none => l2
  g.setLane r.lane l3

/-- An access whose group waits for it to be performed is over. -/
def Group.acqDone (g : Group) (clk : Nat) : Group := ({ g with acqPend := g.acqPend - 1 } : Group).knows clk

/-- The number of an atomic function (06 R160). -/
def AFn.num : AFn → Nat
  | .add => 0
  | .fadd => 1
  | .and => 2
  | .or => 3
  | .xor => 4
  | .min => 5
  | .max => 6
  | .umin => 7
  | .umax => 8
  | .exch => 9
  | .cas => 10
  | .incw => 11

/-- The atomic function of a number. -/
def AFn.ofNum (n : Nat) : AFn :=
  ([AFn.add, .fadd, .and, .or, .xor, .min, .max, .umin, .umax, .exch, .cas, .incw])[n]?.getD .add

/-! ### A slice's part in an ATOMC (06 R166, 19 R385 to R388) -/

/-- Whether a context may reserve an entry on a slice (19 R388). -/
def State.fifoRoom (s : State) (slice asid quota : Nat) : Bool :=
  let f := s.fifos.getD slice []
  decide (f.length < 512) && decide (f.countP (fun t => t.asid == asid) < quota)

/-- Perform an ATOMC at its slice, for a context of this chip: memory, tasks, the old value and the status. `next`
gives the new value and whether it succeeds. -/
def State.atomc (s : State) (asid pa : Nat) (task ea : W64) (chip : Nat) (decc : Bool) (next : W64 → Option W64 × Bool) :
    State × W64 × Status :=
  let old := s.ms.mem.word pa
  let slice := sliceOf pa
  match s.ctxs.get? asid with
  | none => (s, old, .badtask)
  | some c =>
    if !s.fifoRoom slice asid c.quota then (s, old, .retry)
    else
      match c.conts.get? (256 * slice + task.toNat % 256) with
      | none => (s, old, .badtask)
      | some e =>
        let n := next old
        let s1 := match n.1 with
          | some v => { s with ms := s.ms.homeWrite pa (leBytes v.toNat 8) }
          | none => s
        let s2 :=
          if n.2 then
            let l := s1.fifos.getD slice [] ++ [⟨asid, e, old, ea, task.extractLsb' 32 32, chip, decc⟩]
            { s1 with fifos := s1.fifos.put slice l }
          else s1
        (s2, old, .ok)

/-- CASC: swap if the old value is the comparand (06 R166). -/
def cascNext (b new old : W64) : Option W64 × Bool := if old = b then (some new, true) else (none, false)

/-- DECC: subtract, and succeed at zero (06 R166). -/
def deccNext (b old : W64) : Option W64 × Bool := (some (old - b), old - b == 0)

/-! ### Performing an act -/

/-- Write through to the home: a clean copy of the cluster is updated, no dirty copy remains (06 R154). -/
def MemSys.writeThrough (ms : MemSys) (cl pa : Nat) (bytes : List Byte) : MemSys :=
  let m := (ms.writeBack cl (pa / 64)).homeWrite pa bytes
  match m.cc.get? (ccKey cl (pa / 64)) with
  | some x => m.ccPut cl (pa / 64) { x.write (pa % 64) bytes (0, 0, 0) with dirty := x.dirty, writers := x.writers }
  | none => m

/-- Write at a local place of a block (06 R143, 16 R345); a store that does not allocate goes to the L2 where it misses (02 R52). -/
def MemSys.writeAt (ms : MemSys) (cl : Nat) (spec : Option Nat) (p : Place) (way : WriteWay) (pa : Nat)
    (bytes : List Byte) (who : Nat × Nat × Nat) : MemSys :=
  match spec with
  | some k => ms.specWrite k pa bytes
  | none =>
    match p with
    | .cache =>
      if way = .through ∨ (way = .around ∧ (ms.cc.get? (ccKey cl (pa / 64))).isNone) then ms.writeThrough cl pa bytes
      else ms.ccWrite cl pa bytes who
    | .l2 => ms.homeWrite pa bytes
    | .slice => ms.homeWrite pa bytes
    | .remote _ => ms

/-- The old value of an atomic at a local home; a dirty copy of the cluster goes to the L2 first (06 R163). -/
def MemSys.atomRead (ms : MemSys) (cl : Nat) (spec : Option Nat) (p : Place) (pa : Nat) (wide : Bool) : W64 × MemSys :=
  let r := match spec with
    | some k => ms.specRead cl k pa (atomBytes wide)
    | none =>
      match p with
      | .cache =>
        let x := ms.ccSector cl (pa / 64)
        (x.bytes (pa % 64) (atomBytes wide), ms.ccPut cl (pa / 64) x)
      | _ =>
        let m := ms.writeBackDrop cl (pa / 64)
        (m.mem.bytes pa (atomBytes wide), m)
  (BitVec.ofNat 64 (leNat r.1), r.2)

/-- Whether the sector of an atomic is poisoned at its home (21 R413); a speculation reads at the L2 (16 R345). -/
def MemSys.atomPoison (ms : MemSys) (cl : Nat) (spec : Option Nat) (pa : Nat) (p : Place) : Bool :=
  match spec, p with
  | none, .cache => (ms.ccSector cl (pa / 64)).poison
  | _, _ => ms.readPoison cl spec pa 4 .cache true

/-- The `Cur` of the word that made a held act. -/
def State.curHeld (s : State) (h : Held) : Option Cur := s.curOf ⟨h.blk, h.grp, false⟩

/-- The word of a held act consumes poison (21 R413). -/
def State.poisonHeld (s : State) (h : Held) : State :=
  match s.curHeld h with
  | some q =>
    match q.blk.spec with
    | some n => s.discardSpec n .abort
    | none => s.consumePoison q h.pc h.lane h.ea
  | none => s

/-- A held act is performed and its acquire action taken: the group no longer waits for it. -/
def State.acquireHeld (s : State) (h : Held) (cl : Nat) : State :=
  match h.acq with
  | some a => (s.acquireAct cl a.1 a.2).updGrp h.blk h.grp fun g => g.acqDone (s.clk cl)
  | none => s

/-- A sector that an engine of a copy has read on another chip (07 R192). -/
def State.gotSource (s : State) (id key : Nat) (bytes : List Byte) (bad : Bool) : State :=
  match s.ms.copies.get? id with
  | some c => { s with ms := { s.ms with copies := s.ms.copies.put id { c with fetched := c.fetched.put key (bytes, bad) } } }
  | none => s

/-- A delivery of a copy to another chip is acknowledged: its bytes count (07 R192). -/
def State.gotAck (s : State) (id : Nat) (chunk : Nat × Nat) (err : Bool) : State :=
  match s.ms.copies.get? id with
  | some c => s.countDelivery id { c with sent := c.sent.erase chunk } chunk.2 (c.bad || err)
  | none => s

/-- The key under which an engine keeps a sector of another chip: as a source, or as a destination to be replaced. -/
def engineKey (m : OutMsg) (pa : Nat) : Nat := if m.lane = 1 then destKey (m.m.dst, pa) else srcKey (m.m.dst, pa)

/-- The virtual address by which a copy reaches an address of another chip. -/
def CopyOp.eaOf (c : CopyOp) (chip pa : Nat) : W64 :=
  match c.pages.find? fun p => pteRem p.2 && pteChip p.2 == chip && leafPa p.2 0 / 262144 == pa / 262144 with
  | some p => BitVec.ofNat 64 (p.1 * 262144 + pa % 262144)
  | none => 0

/-- Whether the word that sent a message waits for it at its PC. -/
def OutMsg.atWord (m : OutMsg) : Bool :=
  match m.m.op with
  | .load _ _ => m.rets.all fun r => r.d.isNone
  | .waitc _ _ => true
  | _ => false

/-- Deliver FABRIC_UNREACHABLE for a word of a group, unless its block is stopped by a fault already (19 R391, R402). The fault is
asynchronous: its record has PC 0 (17 R362, R365). -/
def State.unreachableAt (s : State) (id gi lane : Nat) (ea : W64) : State :=
  match s.curOf ⟨id, gi, false⟩ with
  | none => s
  | some q =>
    match q.blk.stopping with
    | .terminate (some _) => s
    | _ => s.deliverErrorAt q 0 { code := .fabricUnreachable, lane := lane, ea := ea }

/-- The local count of the cluster of a block. -/
def State.clkOf (s : State) (id : Nat) : Nat := (s.blocks.get? id).elim 0 fun b => s.clk b.cl

/-- What a read of a descriptor on another chip brings to the queue that asked for it; a failed read fails its packet (15 R320, R322). -/
def State.descGot (s : State) (k chip pa : Nat) (r : Option (List Byte)) : State :=
  match s.qs.queues.get? k with
  | none => s
  | some x =>
    if x.desc = .asked chip pa then
      s.setQueue k { x with desc := match r with
        | some l => .got chip pa l
        | none => .failed chip pa }
    else s

/-- An access of another chip that cannot be served completes with FABRIC_UNREACHABLE: what it returns is a free value (19
R402; log 8). A copy goes on with bad data. -/
def State.fabricFail (s : State) (m : OutMsg) : State :=
  match m.blk with
  | some id =>
    let v := Config.unreachableOld s.free
    let st : Status := if Config.unreachableBit s.free then .ok else .retry
    let s1 := ({ s with free := s.free + 1 } : State).updGrp id m.grp fun g =>
      let g1 := m.rets.foldl (fun g x => g.ret x v st) g
      if m.acq.isSome then g1.acqDone (s.clkOf id) else g1
    s1.unreachableAt id m.grp m.lane m.ea
  | none =>
    match m.m.op, s.ms.copies.get? m.grp with
    | .load pa _, _ => s.descGot m.grp m.m.dst pa none
    | _, none => s
    | _, some c =>
      match m.m.op with
      | .engineRead pa n =>
        (s.gotSource m.grp (engineKey m pa) (List.replicate n 0) true).unreachableAt c.blk c.grp c.lane (c.eaOf m.m.dst pa)
      | .engineWrite pa _ _ =>
        (s.gotAck m.grp (m.lane, m.ea.toNat) true).unreachableAt c.blk c.grp c.lane (c.eaOf m.m.dst pa)
      | _ => s

/-- An act of the same word on the same location: atomics of one word on one location go one directly after another (06 R145). -/
def Held.follows (h x : Held) : Bool :=
  x.blk == h.blk && x.grp == h.grp && x.pc == h.pc && x.issued == h.issued && x.act.range == h.act.range &&
    (match h.act with
      | .atom _ _ _ _ _ _ _ => true
      | .casc _ _ _ _ _ _ _ => true
      | .decc _ _ _ _ _ _ => true
      | _ => false)

/-- How many acts of the queue of its core follow an act so. -/
def State.followers (s : State) (b : Block) (h : Held) : Nat := (s.core b.cl (b.coreOf h.grp)).held.countP fun x => x != h && h.follows x

/-- Send a held act to another chip; the group goes on waiting for an acquiring one (19 R392 to R394). -/
def State.sendHeld (s : State) (h : Held) (b : Block) (chip : Nat) (op : RemoteOp) (rets : List Ret) : State :=
  let info := fun (m : Msg) => (⟨{ m with burst := s.followers b h }, some h.blk, h.grp, h.lane, h.pc, h.ea, rets, h.acq, h.issued⟩ : OutMsg)
  if s.fab.unreachable.contains chip then s.fabricFail (info ⟨s.fab.chip, chip, vcOf op, 0, s.fab.tag, b.asid, op, 0⟩)
  else s.send chip b.asid op info

/-- The acts of a core whose bytes a load sees when it is performed: those before it in the queue, and later stores of the other
lanes, up to the first write of its own lane that meets it (06 R146, R147). -/
def seenBy (h : Held) (before after : List Held) : List Held :=
  let own := fun (x : Held) => x.sameLane h.blk h.grp h.lane && !x.act.reads &&
    (match h.act.range with
      | some r => x.act.meets r.1 r.2.1 r.2.2
      | none => false)
  before ++ after.takeWhile fun x => !own x

/-- What a group has read ahead of a load, if the load takes it (11 R289; log 113). -/
def State.takesEarly (s : State) (h : Held) (p : Place) (ldb : Bool) (pa : Nat) : Option Early :=
  match (s.curOf ⟨h.blk, h.grp, false⟩).bind fun q => q.grp.ahead.find? fun e => e.sector == pa / 64 && e.past == (ldb || p != .cache) with
  | some e => if Config.useAhead s.tick then some e else none
  | none => none

/-- The result of a load goes to its register, and what was read ahead of its sector is forgotten (06 R146). -/
def Group.loadDone (g : Group) (ret : Ret) (sector : Nat) (v : W64) : Group :=
  let g1 := { g with ahead := g.ahead.filter fun e => e.sector != sector }
  match ret.d with
  | some d => if g.sb.getLsbD d.toNat then g1.ret ret v .ok else g1
  | none => g1

/-- A load of this chip is performed (06 R143, R146, R149): its bytes, with those that the core's queue shows it, go to its register; or
the bytes that its core has read ahead of it do (11 R289). -/
def State.performLoad (s : State) (cl : Nat) (h : Held) (seen : List Held) (p : Place) (ldb keep : Bool) (pa n : Nat) (ret : Ret) : State :=
  match s.takesEarly h p ldb pa with
  | some e => s.updGrp h.blk h.grp fun g => g.loadDone ret (pa / 64) (BitVec.ofNat 64 (leNat ((e.bytes.drop (pa % 64)).take n)))
  | none =>
    if s.ms.readPoison cl none pa n p ldb then s.poisonHeld h
    else
      let x := s.ms.readAt cl none p ldb keep pa n
      ({ s with ms := x.2 } : State).updGrp h.blk h.grp fun g =>
        g.loadDone ret (pa / 64) (BitVec.ofNat 64 (leNat (forward seen none pa x.1)))

/-- A load of this chip. -/
def Act.isLoad : Act → Bool
  | .load _ _ _ _ _ _ => true
  | _ => false

/-- Whether a core may read a sector ahead of the loads of a group: the group is between two words, or in a WAITC, and waits for nothing
that would let it know of others' stores; no act of its core leaves the bytes unknown, and no load of its own of them waits (06
R144, R146, R152, R155, 11 R293; log 113). -/
def State.mayReadAhead (s : State) (q : Cur) (sector : Nat) (past : Bool) : Bool :=
  let calm := fun (w : SWait) => match w with
    | .none => true
    | .waitc _ => true
    | _ => false
  let pa := 64 * sector
  q.blk.spec.isNone && q.blk.stopping == .none && !q.grp.retired && q.grp.park == .none && q.grp.acqPend == 0 &&
    calm q.grp.slot0.wait && calm q.grp.slot1.wait && (q.grp.barWait.all fun m => m == 0) && q.grp.regWait == 0 &&
    !beyondHbm pa && !s.ms.owned.contains sector && !s.ms.readPoison q.blk.cl none pa 64 .cache past &&
    !(s.queued q).any fun h => h.act.unknownIn none pa 64 || (h.act.isLoad && h.blk == q.id && h.grp == q.gi && h.act.meets none pa 64)

/-- A core reads a sector ahead of the loads of a group: a load that issues later may take these bytes, as if it had been performed now (11
R289; log 113). What it reads past the cluster cache, it reads as an LDB does (06 R150). -/
def State.readAhead (s : State) (id gi : Nat) : State :=
  match s.curOf ⟨id, gi, false⟩ with
  | none => s
  | some q =>
    let n := Config.ahead s.tick
    let past := n % 2 == 1
    if !s.mayReadAhead q (n / 2) past then s
    else
      let x := s.ms.readAt q.blk.cl none .cache past false (64 * (n / 2)) 64
      let e : Early := ⟨n / 2, past, forward (s.queued q) none (64 * (n / 2)) x.1⟩
      ({ s with ms := x.2 } : State).updGrp id gi fun g => { g with ahead := e :: g.ahead.filter fun y => y.sector != e.sector || y.past != past }

/-- Perform an act of a core of a cluster (06 R143, R160, R163, R166). A load leaves by its own event (`performLoad`). -/
def State.perform (s : State) (cl : Nat) (h : Held) : State :=
  match s.blocks.get? h.blk with
  | none => s
  | some b =>
    let s0 := match h.rel with
      | some a => s.releaseAct cl a.1 a.2
      | none => s
    let who := (h.blk, h.grp, h.lane)
    match h.act with
    | .store (.remote chip) _ pa bytes => s0.sendHeld h b chip (.store pa bytes) []
    | .store p way pa bytes => { s0 with ms := s0.ms.writeAt cl b.spec p way pa bytes who }
    | .atom fn (.remote chip) pa wide x y ret =>
      match ret with
      | some r => s0.sendHeld h b chip (.atom fn.num pa wide x y) [r]
      | none => s0.sendHeld h b chip (.red fn.num pa wide x) []
    | .atom fn p pa wide x y ret =>
      let told := s0.predicted b h.ea (atomBytes wide)
      if told == some none || (told.isNone && s0.ms.atomPoison cl b.spec pa p) then s0.poisonHeld h
      else
        let o := match told with
          | some (some l) => ((BitVec.ofNat 64 (leNat l) : W64), s0.ms)
          | _ => s0.ms.atomRead cl b.spec p pa wide
        let n := leBytes (atomNew fn wide o.1 x y).toNat (atomBytes wide)
        let s1 := { s0 with ms := o.2.writeAt cl b.spec p .back pa n who }
        let s2 := match ret with
          | some r => s1.updGrp h.blk h.grp fun g => g.ret r o.1 (if o.1 = x then .ok else .retry)
          | none => s1
        s2.acquireHeld h cl
    | .casc (.remote chip) pa ea x new task ret => s0.sendHeld h b chip (.casc pa x new task ea) [ret]
    | .casc p pa ea x new task ret =>
      if s0.ms.atomPoison cl none pa p then s0.poisonHeld h
      else
        let r := s0.atomc b.asid pa task ea s0.fab.chip false (cascNext x new)
        (r.1.updGrp h.blk h.grp fun g => g.ret ret r.2.1 r.2.2).acquireHeld h cl
    | .decc (.remote chip) pa ea x task ret => s0.sendHeld h b chip (.decc pa x task ea) [ret]
    | .decc p pa ea x task ret =>
      if s0.ms.atomPoison cl none pa p then s0.poisonHeld h
      else
        let r := s0.atomc b.asid pa task ea s0.fab.chip true (deccNext x)
        (r.1.updGrp h.blk h.grp fun g => g.ret ret r.2.1 r.2.2).acquireHeld h cl
    | .load _ _ _ _ _ _ => s0
    | .rload chip pa n ret => s0.sendHeld h b chip (.load pa n) ret
    | .rwait chip pa wide => s0.sendHeld h b chip (.waitc pa wide) [⟨h.lane, none, false, none, none⟩]
    | .handoff id => s0.handoff h cl id
    | .enq qcb body ret =>
      match s0.queueAt qcb with
      | some (k, x) =>
        if s0.slotBeyond x then
          match s0.curHeld h with
          | some q => s0.deliverErrorAt q h.pc { code := .pageFaultWrite, lane := h.lane, ea := ringSlot x (qResv (s0.q2 x)) }
          | none => s0
        else
        let r := s0.enqueue k x b.launch body
        (r.2.updGrp h.blk h.grp fun g => (g.ret ret 0 (if r.1 then .ok else .retry)).acqDone (s0.clk cl))
      | none => s0.updGrp h.blk h.grp fun g => (g.ret ret 0 .retry).acqDone (s0.clk cl)

/-! ### Leaving (06 R147, 21 R410) -/

/-- Whether an access of another chip must wait for a message that is under way, as happens-before requires (06 R146, 11 R295, R299): a
load behind every write of this chip to the same bytes, and a lane's read or write behind its own load of them. -/
def OutMsg.before (m : OutMsg) (h : Held) : Bool :=
  match h.act.range with
  | some (some chip, pa, n) => m.meets chip pa n &&
      ((h.act.reads && m.writes) || (vcOf m.m.op == 4 && m.blk == some h.blk && m.grp == h.grp && m.lane == h.lane))
  | _ => false

/-- Whether messages that are under way hold an access of another chip. -/
def State.behindOut (s : State) (h : Held) : Bool := s.fab.retry.any fun m => m.before h

/-- Room for an atomic to another chip and those that follow it. -/
def State.burstRoom (s : State) (chip : Nat) (h : Held) : Bool :=
  match s.blocks.get? h.blk with
  | some b => s.streamRoom chip 0 (1 + s.followers b h) 32
  | none => true

/-- Whether the stream of an access of another chip has room (19 R394). -/
def State.outRoom (s : State) (h : Held) : Bool :=
  match h.act with
  | .store (.remote c) _ _ bytes => s.streamRoom c 0 1 bytes.length
  | .atom _ (.remote c) _ _ _ _ _ => s.burstRoom c h
  | .casc (.remote c) _ _ _ _ _ _ => s.burstRoom c h
  | .decc (.remote c) _ _ _ _ _ => s.burstRoom c h
  | .rload c _ _ _ => s.streamRoom c 4 1 0
  | .rwait c _ _ => s.streamRoom c 0 1 0
  | _ => true

/-- Whether a message comes from the word of an act. -/
def OutMsg.sameWord (m : OutMsg) (h : Held) : Bool := m.blk == some h.blk && m.grp == h.grp && m.pc == h.pc && m.issued == h.issued

/-- Whether a release waits for a message: those that it orders are acknowledged, at FAB or wider, or answered: the accesses before its
word, and not those of the other lanes of its word (06 R145, R156, 11 R294). -/
def OutMsg.bars (m : OutMsg) (h : Held) : Bool :=
  match h.rel with
  | some a => !m.sameWord h && m.awaited h.blk h.grp (releaseAcks a.1)
  | none => false

/-- Whether a release finds what it orders acknowledged or answered. -/
def State.released (s : State) (h : Held) : Bool := !(s.fab.retry.any fun m => m.bars h)

/-- Whether an act can be performed where it goes: a release finds what it orders performed, nothing under way must come first, its
stream has room, and its sector is not owned by an engine (06 R156, 07 R193, 11 R294, 19 R394). -/
def State.canPerform (s : State) (cl : Nat) (h : Held) : Bool :=
  let spec := (s.blocks.get? h.blk).bind fun b => b.spec
  s.released h && !s.behindOut h && s.outRoom h &&
  (match h.act with
    | .store p way pa _ => !s.ms.recalled cl spec pa p (way == .through)
    | .atom _ p pa _ _ _ _ => !s.ms.recalled cl spec pa p false
    | .casc p pa _ _ _ _ _ => !s.ms.recalled cl spec pa p true
    | .decc p pa _ _ _ _ => !s.ms.recalled cl spec pa p true
    | .load p ldb _ pa _ _ => !s.ms.recalled cl spec pa p ldb
    | .rload _ _ _ _ => true
    | .rwait _ _ _ => true
    | .handoff _ => true
    | .enq _ _ _ => true)

/-- Two acts on one sector. -/
def sameSector (a b : Held) : Bool :=
  match a.act.range, b.act.range with
  | some x, some y => x.1 == y.1 && x.2.1 / 64 == y.2.1 / 64
  | _, _ => false

/-- Two acts that stay in the order of their program though they name different sectors: two writes of a lane to one other chip (11
R299), two writes of a lane that the L2 takes in program order, those of TSO pages and of host memory among them (06 R143, R144), and
an enqueue or the hand-off of a copy with every act of its group (07 R191, 08 R230). -/
def inProgramOrder (a b : Held) : Bool :=
  let whole := fun (h : Held) => match h.act with
    | .handoff _ => true
    | .enq _ _ _ => true
    | _ => false
  let atL2 := fun (h : Held) => match h.act with
    | .store .l2 _ _ _ => true
    | .atom _ .l2 _ _ _ _ _ => true
    | _ => false
  let chip := fun (h : Held) => if h.act.reads then none else h.act.range.bind fun r => r.1
  (a.blk == b.blk && a.grp == b.grp && (whole a || whole b)) ||
    (a.sameLane b.blk b.grp b.lane && ((atL2 a && atL2 b) || ((chip a).isSome && chip a == chip b)))

/-- Two acts that may not change places, the first in the queue first: those on one sector, and those that stay in program order. A load
of this chip keeps its place only on its sector: among the reads of its lane, before the later writes of its lane, and behind an
act whose result is not known (06 R146, R147, 11 R289). -/
def actsOrdered (a b : Held) : Bool :=
  if a.act.isLoad || b.act.isLoad then
    sameSector a b &&
      (if a.act.isLoad then b.sameLane a.blk a.grp a.lane
      else if a.act.reads then b.sameLane a.blk a.grp a.lane
      else
        match b.act.range with
        | some r => a.act.unknownIn r.1 r.2.1 r.2.2
        | none => false)
  else sameSector a b || inProgramOrder a b

/-- When the group of an act last came to know of others' stores. -/
def State.acqAtOf (s : State) (h : Held) : Nat := (s.blocks.get? h.blk).elim 0 fun b => b.acqAt h.grp

/-- Whether an act of the store queue may leave now, with those before it in the queue: 160 local cycles old, behind no act that it must
follow; a release follows what may happen before it (06 R147, R156, 11 R294). -/
def State.mayLeave (s : State) (cl clk : Nat) (before : List Held) (h : Held) : Bool :=
  !h.act.isLoad && decide (h.issued + 160 ≤ clk) && s.canPerform cl h &&
    !(before.any fun x => actsOrdered x h || (h.rel.isSome && x.mayPrecede h.blk h.grp (s.acqAtOf h)))

/-- The acts of the store queue that may leave, each with the queue that it leaves behind. -/
def State.leaving (s : State) (cl clk : Nat) : List Held → List Held → List (Held × List Held)
  | _, [] => []
  | before, h :: rest =>
    let more := s.leaving cl clk (h :: before) rest
    if s.mayLeave cl clk before h then (h, before.reverse ++ rest) :: more else more

/-- One of several, where no order is given. -/
def pickOne {α : Type} (n : Nat) : List α → Option α
  | [] => none
  | [x] => some x
  | x :: y :: l => (x :: y :: l)[Config.leaves n % (l.length + 2)]?

/-- What leaves a core next, if anything. -/
def State.leaver (s : State) (cl co : Nat) : Option (Held × List Held) :=
  pickOne s.tick (s.leaving cl (s.clk cl) [] (s.core cl co).held)

/-- An act leaves a core. -/
def State.leaveCore (s : State) (cl co : Nat) (h : Held) (rest : List Held) : State :=
  (s.setCore cl co { s.core cl co with held := rest }).perform cl h

/-- The atomics of a word that follow one on its location leave with it, in the order of their lanes. -/
def State.leaveMore (s : State) (cl co : Nat) (h : Held) : Nat → State
  | 0 => s
  | n + 1 =>
    let l := (s.core cl co).held
    match l.find? h.follows with
    | some x => if s.canPerform cl x then (s.leaveCore cl co x (l.erase x)).leaveMore cl co h n else s
    | none => s

/-- A held store, atomic or other outgoing act leaves the core 160 local cycles after issue (R147). -/
def execStoreLeaveCore (cl co : Nat) (s : State) : Out :=
  match s.leaver cl co with
  | some (h, rest) =>
    let spec := (s.blocks.get? h.blk).bind fun b => b.spec
    .next (((s.leaveCore cl co h rest).leaveMore cl co h 32).dropFull spec).wakeDrains
  | none => .next s

/-- The results that an act brings. -/
def Act.rets : Act → List Ret
  | .atom _ _ _ _ _ _ r => r.toList
  | .casc _ _ _ _ _ _ x => [x]
  | .decc _ _ _ _ _ x => [x]
  | .load _ _ _ _ _ x => [x]
  | .rload _ _ _ l => l
  | .enq _ _ x => [x]
  | .store _ _ _ _ => []
  | .rwait _ _ _ => []
  | .handoff _ => []

/-- A result goes to a register, or, for a name of 64 or more, to a predicate (02 R43). -/
def Ret.names (x : Ret) (r : Nat) : Bool :=
  (match x.d with
    | some d => d.toNat == r
    | none => false) ||
  (match x.pair with
    | some p => 64 + (pairOf p).1.toNat == r || 64 + (pairOf p).2.toNat == r
    | none => false) ||
  (match x.pred with
    | some p => 64 + p.toNat == r
    | none => false)

/-- Whether a variable-latency result of a register or a predicate is still on its way (02 R43). -/
def State.resultPending (s : State) (b : Block) (id gi r : Nat) : Bool :=
  ((s.core b.cl (b.coreOf gi)).held.any fun h => h.blk == id && h.grp == gi && h.act.rets.any fun x => x.names r) ||
  s.fab.retry.any fun m => m.blk == some id && m.grp == gi && m.rets.any fun x => x.names r

/-- The first load of this chip, of a group into a register, that can be performed: with what stands before and after it in the
queue. -/
def State.loadDue (s : State) (cl id gi r : Nat) : List Held → List Held → Option (List Held × Held × List Held)
  | _, [] => none
  | before, h :: rest =>
    if h.act.isLoad && h.blk == id && h.grp == gi && (h.act.rets.any fun x => x.names r) && s.canPerform cl h &&
        !(before.any fun x => actsOrdered x h) then some (before.reverse, h, rest)
    else s.loadDue cl id gi r (h :: before) rest

/-- A variable-latency result returns and is written, releasing the scoreboard hold on the words that read it (R43). A load that waits
is performed now; the hold ends with the last result of the register, or of the predicate that a name of 64 or more stands for. -/
def execVariableLatencyResult (blk grp r : Nat) (s : State) : Out :=
  match s.blocks.get? blk with
  | some b =>
    let co := b.coreOf grp
    let c := s.core b.cl co
    let s1 := match s.loadDue b.cl blk grp r [] c.held with
      | some (before, h, rest) =>
        let s0 := s.setCore b.cl co { c with held := before ++ rest }
        let seen := (seenBy h before rest).filter fun x => (s.visible b.cl co b.spec).contains x
        match h.act with
        | .load p ldb keep pa n ret => s0.performLoad b.cl h seen p ldb keep pa n ret
        | _ => s0
      | none => s
    match s1.blocks.get? blk with
    | some b1 =>
      if s1.resultPending b1 blk grp r then .next s1.wakeDrains
      else .next (s1.updGrp blk grp fun g => g.returned r).wakeDrains
    | none => .next s1.wakeDrains
  | none => .next s

end Sys2Proof.Machine
end

