-- ==== Sys2Proof/Machine/Atomic.lean ====
section
/-! DEFINITION. The meanings of ATOM, RED and ATOMC (06 R159 to R167). -/

namespace Sys2Proof.Machine

/-- An ATOM or RED (06 R160). A scratch location is changed at once; a global one from the store queue, at the home of
its scope (06 R147, R163). -/
def atomWord (s : State) (c : Ctl) (fn : AFn) (d : Option Dst) (addr b : Src) (cc : Src) (ord : Order) (asc : AScope)
    (ssc : SScope) (sz : Size) : Out :=
  let req := fun (q : Cur) k => (⟨q.grp.src Rd.raw addr k, sz.bytes, true, true, true, .any, false, false⟩ : Req)
  let wide := sz == .b8
  withAccess s c (some asc) false (fun _ _ => atLeastDev asc) req fun s q chk =>
    let lanes := q.active c
    let g := q.grp
    let toScratch := lanes.any fun k => match chk k with
      | .scratch _ => true
      | _ => false
    let waits := Order.isRel ord && (coversG ssc || atLeastFab asc)
    afterDrain s q (waits && toScratch) (releaseAcks asc) <|
      let s0 := if Order.isRel ord && toScratch then s.releaseAct q.blk.cl asc ssc else s
      let s1 := if widerThanBlk asc && !lanes.isEmpty then s0.sealBlk q.id else s0
      let taint := fun k => g.srcTaint addr k || g.srcTaint b k || (fn == .cas && g.srcTaint cc k)
      let near := lanes.foldl (fun (x : State × List (Nat × W64)) k =>
        match chk k with
        | .scratch off =>
          match x.1.blocks.get? q.id with
          | some bl =>
            let old : W64 := BitVec.ofNat 64 (leNat (bl.st.scratch.bytes off sz.bytes))
            let new := atomNew fn wide old (g.src Rd.raw b k) (g.src Rd.raw cc k)
            (x.1.scratchPut q off (leBytes new.toNat sz.bytes), x.2 ++ [(k, old)])
          | none => x
        | _ => x) (s1, [])
      let acq := if Order.isAcq ord then some (asc, ssc) else none
      let rel := if waits then some (asc, ssc) else none
      let acts := lanes.filterMap fun k =>
        match chk k with
        | .global leaf pa =>
          let p := placeOf s.fab.chip leaf pa
          let home := if p = .cache ∧ atLeastDev asc then .l2 else p
          some (Cur.hold s q k (g.src Rd.raw addr k) rel acq (.atom fn home pa wide (g.src Rd.raw b k) (g.src Rd.raw cc k)
            (d.map fun x => ⟨k, some x.r, taint k, none, none⟩)))
        | _ => none
      withCur near.1 fun q1 =>
        let g1 := match d with
          | some x =>
            let g0 := (q1.grp.mapLanes fun k l => match near.2.find? fun (p : Nat × W64) => p.1 == k with
              | some (_, old) => l.setReg x.r old (taint k)
              | none => l).shiftLatch x.r
            { g0 with sb := g0.sb ||| ((1 : W64) <<< x.r.toNat) }
          | none => q1.grp
        let g2 := { g1 with acqPend := g1.acqPend + (if acq.isSome then acts.length else 0) }
        let t := (near.1.finish q1 q1.blk.st g2).pushHeld q1 acts
        .next (if Order.isAcq ord && toScratch then t.acquireAct q.blk.cl asc ssc else t)

/-- An ATOM other than CAS. -/
def atom2 (s : State) (c : Ctl) (fn : AFn) (o : AAtom) : Out := atomWord s c fn (some o.d) o.a o.b .zero o.ord o.asc o.ssc o.sz

/-- A RED. -/
def red2 (s : State) (c : Ctl) (fn : AFn) (o : ARed) : Out := atomWord s c fn none o.a o.b .zero o.ord o.asc o.ssc o.sz

/-- Atomic add at the home, returning the old value (R160). -/
def execAtomAdd (c : Ctl) (o : AAtom) (s : State) : Out := atom2 s c .add o

/-- Atomic floating-point add at the home, returning the old value (R161). -/
def execAtomFadd (c : Ctl) (o : AAtom) (s : State) : Out := atom2 s c .fadd o

/-- Atomic AND at the home (R160). -/
def execAtomAnd (c : Ctl) (o : AAtom) (s : State) : Out := atom2 s c .and o

/-- Atomic OR at the home (R160). -/
def execAtomOr (c : Ctl) (o : AAtom) (s : State) : Out := atom2 s c .or o

/-- Atomic XOR at the home (R160). -/
def execAtomXor (c : Ctl) (o : AAtom) (s : State) : Out := atom2 s c .xor o

/-- Atomic signed minimum at the home (R160). -/
def execAtomMin (c : Ctl) (o : AAtom) (s : State) : Out := atom2 s c .min o

/-- Atomic signed maximum at the home (R160). -/
def execAtomMax (c : Ctl) (o : AAtom) (s : State) : Out := atom2 s c .max o

/-- Atomic unsigned minimum at the home (R160). -/
def execAtomUmin (c : Ctl) (o : AAtom) (s : State) : Out := atom2 s c .umin o

/-- Atomic unsigned maximum at the home (R160). -/
def execAtomUmax (c : Ctl) (o : AAtom) (s : State) : Out := atom2 s c .umax o

/-- Atomic exchange at the home (R160). -/
def execAtomExch (c : Ctl) (o : AAtom) (s : State) : Out := atom2 s c .exch o

/-- Atomic compare-and-swap at the home (R160). -/
def execAtomCas (c : Ctl) (o : ACas) (s : State) : Out :=
  atomWord s c .cas (some o.d) o.a o.b o.c o.ord o.asc o.ssc o.sz

/-- Atomic wrapping increment bounded by b (R160). -/
def execAtomIncw (c : Ctl) (o : AAtom) (s : State) : Out := atom2 s c .incw o

/-- Reduction add with no result (R159). -/
def execRedAdd (c : Ctl) (o : ARed) (s : State) : Out := red2 s c .add o

/-- Reduction floating-point add (R161). -/
def execRedFadd (c : Ctl) (o : ARed) (s : State) : Out := red2 s c .fadd o

/-- Reduction AND (R159). -/
def execRedAnd (c : Ctl) (o : ARed) (s : State) : Out := red2 s c .and o

/-- Reduction OR (R159). -/
def execRedOr (c : Ctl) (o : ARed) (s : State) : Out := red2 s c .or o

/-- Reduction XOR (R159). -/
def execRedXor (c : Ctl) (o : ARed) (s : State) : Out := red2 s c .xor o

/-- Reduction signed minimum (R159). -/
def execRedMin (c : Ctl) (o : ARed) (s : State) : Out := red2 s c .min o

/-- Reduction signed maximum (R159). -/
def execRedMax (c : Ctl) (o : ARed) (s : State) : Out := red2 s c .max o

/-- Reduction unsigned minimum (R159). -/
def execRedUmin (c : Ctl) (o : ARed) (s : State) : Out := red2 s c .umin o

/-- Reduction unsigned maximum (R159). -/
def execRedUmax (c : Ctl) (o : ARed) (s : State) : Out := red2 s c .umax o

/-- An ATOMC (06 R165, R166): it seals, it is performed at the slice of its location from the store queue, with a release
action before and an acquire action after. -/
def atomcWord (s : State) (c : Ctl) (d : Dst) (addr : Src) (pp : PPair) (asc : AScope) (ssc : SScope)
    (taint : Group → Nat → Bool) (act : Group → Nat → Place → Nat → W64 → Ret → Act) : Out :=
  let req := fun (q : Cur) k => (⟨q.grp.src Rd.raw addr k, 8, true, true, true, .global, true, false⟩ : Req)
  withAccess s c (some asc) false (fun _ _ => true) req fun s q chk =>
    let lanes := q.active c
    let g := q.grp
    let s1 := if lanes.isEmpty then s else s.sealBlk q.id
    let acts := lanes.filterMap fun k =>
      match chk k with
      | .global leaf pa =>
        let ea := g.src Rd.raw addr k
        some (Cur.hold s q k ea (some (asc, ssc)) (some (asc, ssc)) (act g k (placeOf s.fab.chip leaf pa) pa ea
          ⟨k, some d.r, g.srcTaint addr k || taint g k, some pp, none⟩))
      | _ => none
    let g1 := g.shiftLatch d.r
    let g2 := { g1.holdPreds [64 + (pairOf pp).1.toNat, 64 + (pairOf pp).2.toNat] with
      sb := g1.sb ||| ((1 : W64) <<< d.r.toNat), acqPend := g1.acqPend + acts.length }
    withCur s1 fun q1 => .next ((s1.finish q1 q1.blk.st g2).pushHeld q1 acts)

/-- Continuation compare-and-swap at the memory slice that queues a task on success and returns OK, RETRY or BADTASK (R166). -/
def execCasc (c : Ctl) (o : ACasc) (s : State) : Out :=
  atomcWord s c o.d o.a o.pp o.asc o.ssc
    (fun g k => g.srcTaint o.b k || (g.lane k).tnt o.c || (g.lane k).tnt (o.c + 1))
    fun g k p pa ea r => .casc p pa ea (g.src Rd.raw o.b k) ((g.lane k).reg o.c) ((g.lane k).reg (o.c + 1)) r

/-- Continuation decrement at the memory slice that queues a task when the count reaches zero (R166). -/
def execDecc (c : Ctl) (o : ADecc) (s : State) : Out :=
  atomcWord s c o.d o.a o.pp o.asc o.ssc (fun g k => g.srcTaint o.b k || g.srcTaint o.c k)
    fun g k p pa ea r => .decc p pa ea (g.src Rd.raw o.b k) (g.src Rd.raw o.c k) r

end Sys2Proof.Machine
end

