-- ==== Sys2Proof/Machine/Conv.lean ====
section
/-! DEFINITION. The meanings of CONV (03 R72, 05 R127 to R132). -/

namespace Sys2Proof.Machine

/-- A format of CVT: a float format, or an integer width and whether it is signed. -/
inductive CKind where
  | flt (f : FFmt)
  | int (w : Nat) (signed : Bool)
  deriving DecidableEq, Repr

/-- The kind of a CVT format (05 R127). -/
def cvtKind : CFmt → CKind
  | .f64 => .flt .f64
  | .f32 => .flt .f32
  | .bf16 => .flt .bf16
  | .f16 => .flt .f16
  | .e4m3 => .flt .e4m3
  | .e5m2 => .flt .e5m2
  | .s64 => .int 64 true
  | .s32 => .int 32 true
  | .s16 => .int 16 true
  | .s8 => .int 8 true
  | .u64 => .int 64 false
  | .u32 => .int 32 false
  | .u16 => .int 16 false
  | .u8 => .int 8 false

/-- The width of a CVT format (05 R127). -/
def CKind.width : CKind → Nat
  | .flt f => f.width
  | .int w _ => w

/-- The least value of an integer format. -/
def intLo (w : Nat) (signed : Bool) : Int := if signed then -(2 ^ (w - 1) : Int) else 0
/-- The greatest value of an integer format. -/
def intHi (w : Nat) (signed : Bool) : Int := if signed then (2 ^ (w - 1) : Int) - 1 else (2 ^ w : Int) - 1

/-- An integer as bits of a width. -/
def intBits (w : Nat) (x : Int) : Nat := (BitVec.ofInt w x).toNat

/-- A float value to an integer format (03 R72). -/
def toInteger (w : Nat) (signed : Bool) (rm : RMode) : FVal → FRes
  | .nan _ => ⟨0, flNV, false⟩
  | .inf neg => ⟨intBits w (if neg then intLo w signed else intHi w signed), flNV, false⟩
  | .fin neg m e =>
    let r := roundAt rm neg m e 0
    let x : Int := if neg then -(r.1 : Int) else (r.1 : Int)
    if x < intLo w signed then ⟨intBits w (intLo w signed), flNV, false⟩
    else if intHi w signed < x then ⟨intBits w (intHi w signed), flNV, false⟩
    else ⟨intBits w x, if r.2 then flNX else 0, false⟩

/-- The value of an integer element. -/
def intOf (w : Nat) (signed : Bool) (b : Nat) : Int := if signed then (BitVec.ofNat w b).toInt else (b : Int)

/-- Convert one element (05 R129). -/
def cvtElem (dst src : CKind) (rm : RMode) (ftz : Bool) (b : Nat) : FRes :=
  match src, dst with
  | .flt f, .flt g =>
    match f.read ftz b with
    | .inf neg => g.infinity neg (if g = .e4m3 then flNX else 0)
    | v => g.ofVal rm ftz v
  | .flt f, .int w sg => toInteger w sg rm (f.read ftz b)
  | .int w sg, .flt g => g.deliver rm ftz (decide (intOf w sg b < 0)) (intOf w sg b).natAbs 0
  | .int w sg, .int v tg => .plain (intBits v (max (intLo v tg) (min (intHi v tg) (intOf w sg b))))

/-- Converts elements between the coded float and integer formats with the named rounding (R127). -/
def execCvt (c : Ctl) (o : RCvt) (s : State) : Out :=
  floatWord s c o.d false fun ftz g k =>
    let src := cvtKind o.src
    let dst := cvtKind o.dst
    let a := g.opnd Rd.raw o.a k
    let n := 64 / max src.width dst.width
    let r := fun i => cvtElem dst src o.m ftz (a.extractLsb' (src.width * i) src.width).toNat
    ⟨(List.range n).foldl (fun x i => x ||| ((BitVec.ofNat dst.width (r i).bits).setWidth 64 <<< (dst.width * i))) 0,
      g.opndTaint o.a k,
      (List.range n).foldl (fun x i => x ||| (r i).fl) 0, (List.range n).any fun i => (r i).assist⟩

/-- The codebook index nearest to a value; a tie takes the lower index (05 R130). -/
def nearest (y : FVal) : Nat :=
  match y with
  | .nan _ => 7
  | .inf neg => if neg then 0 else 15
  | _ => (List.range 15).countP fun i =>
      let m := codebook.getD i 0 + codebook.getD (i + 1) 0
      (FVal.fin (decide (m < 0)) m.natAbs (-9)).below y

/-- Quantises elements to nearest QC4 codebook indices and shifts them into the destination (R130). -/
def execQpack (c : Ctl) (o : R2 FType) (s : State) : Out :=
  withCur s fun q =>
    let f := fmtOf o.t
    let n := 64 / f.width
    let v := fun (g : Group) k =>
      let a := g.opnd (.flt o.t) o.a k
      let r := fsub .f32 q.blk.ftz 0 (g.opnd (.flt .f32x2) o.b k)
      (List.range n).foldl (fun x i =>
        x ||| ((BitVec.ofNat 4 (nearest ((fsub f q.blk.ftz i a).mul r).1)).setWidth 64 <<< (4 * i)))
        ((g.lane k).reg o.d.r <<< (4 * n))
    laneWord s c o.d fun g k => (v g k, (g.lane k).tnt o.d.r || g.opndTaint o.a k || g.opndTaint o.b k)

/-- Expands a group of QC4 nibbles to their exact codebook values (R131). An inline constant a fills by TYPE (DESIGN CHOICE, log 125). -/
def execQunpk (c : Ctl) (o : RRaw FType) (s : State) : Out :=
  laneWord s c o.d fun g k =>
    let f := fmtOf o.t
    let a := g.opnd (.flt o.t) o.a k
    (pack f.width fun i =>
      let x := codebook.getD (a.extractLsb' (4 * (64 / f.width * o.k.toNat + i)) 4).toNat 0
      BitVec.ofNat f.width (f.deliver .rne false (decide (x < 0)) x.natAbs (-8)).bits, g.opndTaint o.a k)

/-- Gathers bit p of each sub-element into a packed row of bits (R132). -/
def execPlane (c : Ctl) (o : RRaw IType) (s : State) : Out :=
  laneWord s c o.d fun g k => (planeOf o.t.width o.k.toNat (g.opnd (.int o.t false) o.a k), g.opndTaint o.a k)

/-- Scatters a packed row of bits into bit p of each sub-element (R132). An inline constant a fills by TYPE (DESIGN CHOICE, log 125). -/
def execUnplane (c : Ctl) (o : RRaw IType) (s : State) : Out :=
  laneWord s c o.d fun g k =>
    (unplaneInto o.t.width o.k.toNat ((g.lane k).reg o.d.r) (g.opnd (.int o.t false) o.a k),
      (g.lane k).tnt o.d.r || g.opndTaint o.a k)

end Sys2Proof.Machine
end

