-- ==== Sys2Proof/Machine/Copy.lean ====
section
/-! DEFINITION. The meanings of COPY, COPYM, COPYS and COPYG (07 R189 to R198), and the grant of a copy slot. -/

namespace Sys2Proof.Machine

/-- Eight words of bytes. -/
def wordsOf (l : List Byte) : List W64 :=
  (List.range (l.length / 8)).map fun i => BitVec.ofNat 64 (leNat ((l.drop (8 * i)).take 8))

/-- A test that a fault names. -/
def need (b : Bool) (code : FaultCode) (k : Nat) (ea : W64) : Chkd Unit :=
  if b then .ok () else .error (.fault { code := code, lane := k, ea := ea })

/-- The scratch offset of a range of a block, wholly below SIZE (07 R190). -/
def scratchRange (b : Block) (k : Nat) (ea : W64) (n : Nat) : Chkd Nat :=
  if inWindow ea && decide (ea.toNat - windowBase + n ≤ b.scratchSize) then .ok (ea.toNat - windowBase)
  else .error (.fault { code := .scratchRange, lane := k, ea := ea })

/-- Read a tensor record (07 R182). -/
def State.readRecord (s : State) (q : Cur) (ms : MemSys) (k : Nat) (ea : W64) : Chkd (List W64 × MemSys) := do
  need (decide (ea.toNat % 64 = 0)) .misaligned k ea
  let r ← s.readVa q [] ms k ⟨ea, 64, false, true, false, .any, false, false⟩ false
  .ok (wordsOf r.1, r.2)

/-- Probe the pages of a copy (07 R190, check 5). A fault reports the first address of the faulting page (log 88). -/
def State.probePages (s : State) (q : Cur) (k : Nat) (write : Bool) : List Nat → KMap W64 → Chkd (KMap W64)
  | [], m => .ok m
  | p :: l, m =>
    let va : W64 := BitVec.ofNat 64 (p * 262144)
    if 2 ^ 57 ≤ va.toNat then .error (.fault { code := pageFault write, lane := k, ea := va, atOnce := true })
    else
      match s.probe q k ⟨va, 1, write, !write, write, .any, false, false⟩ with
      | .walk a => .error (.walk k a write)
      | .fault f => .error (.fault f)
      | .global leaf pa =>
        if q.blk.spec.isSome && !ordinaryPage s.fab.chip leaf pa then .error .abort
        else s.probePages q k write l (m.put p leaf)
      | .scratch _ => .error .abort

/-- The coordinates of a copy (07 R185). -/
def coordsOf (l : Lane) (r : Reg) : List Int :=
  let v := fun (i : Nat) => l.reg (r + BitVec.ofNat 6 i)
  [((v 0).extractLsb' 0 32).toInt, ((v 0).extractLsb' 32 32).toInt, ((v 1).extractLsb' 0 32).toInt,
    ((v 1).extractLsb' 32 32).toInt, ((v 2).extractLsb' 0 32).toInt]

/-- The blocks of a launch that run on a core of a cluster. -/
def State.blocksOn (s : State) (cl co launch : Nat) : List Nat :=
  (s.blocks.filter fun p => p.2.cl == cl && p.2.launch == launch && (p.2.co == co || (p.2.pair && p.2.co + 1 == co))).map
    fun p => p.1

/-- The receivers of a COPYM: the one block of the launch on each named core (07 R195). -/
def State.receivers (s : State) (q : Cur) (k : Nat) (mask : BitVec 8) (ea : W64) : List Nat → Chkd (List Nat)
  | [] => .ok []
  | c :: l =>
    if mask.getLsbD c then
      match s.blocksOn q.blk.cl c q.blk.launch with
      | [i] => do
        let r ← s.receivers q k mask ea l
        .ok (if r.contains i then r else i :: r)
      | _ => .error (.fault { code := .scratchRange, lane := k, ea := ea })
    else s.receivers q k mask ea l

/-- The checks of a box copy in a lane, and the copy it would issue (07 R190). -/
def State.planBox (s : State) (q : Cur) (o : CBox) (kind : CopyKind) (ms : MemSys) (k : Nat) : Chkd (CopyOp × MemSys) := do
  let l := q.grp.lane k
  let oe := l.reg o.o
  need (decide (oe.toNat % 16 = 0)) .misaligned k oe
  let oo ← scratchRange q.blk k oe 16
  let re := q.grp.opnd Rd.raw o.b k
  let rc ← s.readRecord q ms k re
  let coord := coordsOf l o.c
  need (recordValid rc.1 coord (kind != .store)) .reservedField k re
  let b := Box.ofWords rc.1
  let se := q.grp.opnd Rd.raw o.a k
  need (decide (se.toNat % 16 = 0)) .misaligned k se
  let so ← scratchRange q.blk k se b.size
  need (!overlaps so b.size oo 16) .scratchRange k se
  let objs ← if kind = .multi then
      s.receivers q k (((l.reg (o.c + 3))).setWidth 8) se (List.range 8)
    else .ok [q.id]
  let pages ← s.probePages q k (kind == .store) (b.pages coord) []
  let todo := if kind = .store then storeTodo b coord else cutSectors (so % 64) b.size
  .ok (⟨kind, q.id, q.gi, k, q.blk.cl, q.co, q.blk.launch, objs, oo, so, rc.1, coord, 0, 0, b.size, b.clipped coord, pages, todo,
    [], [], false, false, false⟩, rc.2)

/-- The checks of a COPYG in a lane, and the copy it would issue (07 R190, R196). -/
def State.planGlobal (s : State) (q : Cur) (o : CGlob) (ms : MemSys) (k : Nat) : Chkd (CopyOp × MemSys) := do
  let oe := (q.grp.lane k).reg o.o
  need (decide (oe.toNat % 16 = 0)) .misaligned k oe
  let oo ← scratchRange q.blk k oe 16
  let d := q.grp.opnd Rd.raw o.a k
  let a := q.grp.opnd Rd.raw o.b k
  let n := (q.grp.opnd Rd.raw o.n k).toNat
  need (decide (d.toNat % 16 = 0)) .misaligned k d
  need (decide (a.toNat % 16 = 0)) .misaligned k a
  need (decide (n % 16 = 0)) .misaligned k d
  need (!inWindow d) .scratchRange k d
  need (!inWindow a) .scratchRange k a
  need (decide (n ≤ 262144)) .reservedField k d
  let pagesOf := fun (x : W64) =>
    if n = 0 then [] else (List.range ((x.toNat % 262144 + n - 1) / 262144 + 1)).map fun i => (x.toNat / 262144 + i) % 2 ^ 46
  let p1 ← s.probePages q k false (pagesOf a) []
  let p2 ← s.probePages q k true (pagesOf d) p1
  let todo := cutSectors (d.toNat % 64) n
  .ok (⟨.global, q.id, q.gi, k, q.blk.cl, q.co, q.blk.launch, [q.id], oo, 0, [], [], d, a, n, 0, p2,
    if d.toNat < a.toNat then todo else todo.reverse, [], [], false, false, false⟩, ms)

/-- The plans of lanes in ascending order; the first lane that fails decides (07 R190). -/
def planAll (plan : MemSys → Nat → Chkd (CopyOp × MemSys)) : List Nat → MemSys → Chkd (List CopyOp × MemSys)
  | [], ms => .ok ([], ms)
  | k :: l, ms => do
    let x ← plan ms k
    let y ← planAll plan l x.2
    .ok (x.1 :: y.1, y.2)

/-- Copy slots of a core in use (07 R191). -/
def MemSys.slotsUsed (ms : MemSys) (cl co : Nat) : Nat := ms.copies.countP fun p => p.2.cl == cl && p.2.co == co

/-- A copy that issues nothing: a COPYM with an empty mask, or a COPYG of no bytes (07 R195, R196). -/
def CopyOp.empty (c : CopyOp) : Bool := c.objs.isEmpty || (c.kind == .global && c.size == 0)

/-- Issue one copy (07 R191): it takes a slot, posts its expectation, and its hand-off waits in the store queue. -/
def State.issueCopy (s : State) (q : Cur) (c : CopyOp) : State :=
  if c.kind = .global ∧ c.size = 0 then countCopy s c q.blk.perfKey
  else if c.objs.isEmpty then s
  else
    let id := s.ms.copies.fresh
    let s1 := { s with ms := { s.ms with copies := s.ms.copies.put id c } }
    let s2 := if c.objs.contains q.id then
        s1.updObj q c.objOff fun o => { o with bytes := o.bytes + BitVec.ofNat 32 c.size }
      else s1
    s2.pushHeld q [Cur.hold s q c.lane 0 none none (.handoff id)]

/-- The copy of a lane has issued: an invalidate that waits for it waits now for the copy, if it is one (17 R360). -/
def State.planIssued (s : State) (q : Cur) (lane copy : Nat) : State :=
  let key := (q.id, q.gi, lane)
  { s with invals := s.invals.map fun x =>
      if x.plans.contains key then
        { x with plans := x.plans.erase key, copies := if (s.ms.copies.get? copy).isSome then copy :: x.copies else x.copies }
      else x }

/-- Issue copies while slots are free: the state, the lanes issued, and whether some still wait. -/
def State.issueCopies (s : State) (q : Cur) (done : Mask) : List CopyOp → State × Mask × Bool
  | [] => (s, done, false)
  | c :: l =>
    if c.empty || decide (s.ms.slotsUsed q.blk.cl q.co < 16) then
      ((s.issueCopy q c).planIssued q c.lane s.ms.copies.fresh).issueCopies q (done ||| ((1 : Mask) <<< c.lane)) l
    else (s, done, true)

/-- A copy word (07 R190, R191, R198): it seals. The checks of every lane come before the first copy issues; what they read stands for
the word until its last lane has issued (07 R182), and lanes whose copies are issued do not issue them again. -/
def copyWord (s : State) (c : Ctl) (plan : Cur → MemSys → Nat → Chkd (CopyOp × MemSys)) : Out :=
  withCur s fun q =>
    let done := q.done
    let plans := (q.grp.pcSlot q.slot).plans
    let lanes := (q.active c).filter fun k => !done.getLsbD k && !(plans.any fun p => p.lane == k)
    match planAll (plan q) lanes s.ms with
    | .error x => .next (stopWord s q x)
    | .ok (cs, ms) =>
      let s0 := { s with ms := ms }
      let s1 := if (q.active c).isEmpty then s0 else s0.sealBlk q.id
      let all := plans ++ cs
      let r := s1.issueCopies q done ((List.range 32).flatMap fun k => all.filter fun p => p.lane == k)
      withCur r.1 fun q1 =>
        if r.2.2 then
          let p := { q1.grp.pcSlot q1.slot with
            wait := .copySlot
            done := r.2.1
            plans := all.filter fun p => !r.2.1.getLsbD p.lane }
          .next (r.1.putGrp q1 (q1.grp.setSlot q1.slot p))
        else .next (r.1.finish q1 q1.blk.st q1.grp)

/-- Issues a tensor-box copy from memory into own scratch, posting its bytes to the object (R191). -/
def execCopy (c : Ctl) (o : CBox) (s : State) : Out := copyWord s c fun q => s.planBox q o .load

/-- Issues a box copy into the scratch of every core named by the mask (R195). -/
def execCopym (c : Ctl) (o : CBox) (s : State) : Out := copyWord s c fun q => s.planBox q o .multi

/-- Issues a copy from own scratch into a tensor box in memory (R191). -/
def execCopys (c : Ctl) (o : CBox) (s : State) : Out := copyWord s c fun q => s.planBox q o .store

/-- Issues a global-to-global byte copy (R196). -/
def execCopyg (c : Ctl) (o : CGlob) (s : State) : Out := copyWord s c fun q => s.planGlobal q o

/-- A freed copy slot lets a waiting copy word issue its next lane's copy (R191). -/
def execCopySlotGrant (blk grp : Nat) (s : State) : Out :=
  match s.blocks.get? blk with
  | none => .next s
  | some b =>
    if s.ms.slotsUsed b.cl (b.coreOf grp) < 16 then
      let go := fun (w : SWait) => match w with
        | .copySlot => .resume
        | _ => w
      .next (s.updGrp blk grp fun g => { g with slot0 := g.slot0.rewait go, slot1 := g.slot1.rewait go })
    else .next s

end Sys2Proof.Machine
end

