-- ==== Sys2Proof/Machine/Flow.lean ====
section
/-! DEFINITION. The FLOW words: branches, calls, retirement, regrouping, device enqueue, the work identifier
(08 R217 to R231, 01 R31, 09 R256). -/

namespace Sys2Proof.Machine

/-! ### Next PCs -/

/-- A PC plus a signed number of words (02 R33). -/
def pcPlus (pc : BitVec 57) (off : BitVec 18) : BitVec 57 := pc + (off.signExtend 57 <<< 3)

/-- The end of a word whose lanes go to PCs of their own: the entry splits, slots merge and refill, and lanes with no
next PC retire (08 R217, R218, R223, R224). A push that would pass FLOOR leaves everything as it was when the word
issued, in `s0`. -/
def State.route (s0 : State) (q0 : Cur) (s : State) (next : Nat → Option (BitVec 57)) : State :=
  match s.cur? with
  | none => s
  | some q =>
    let mask := (q.grp.pcSlot q.slot).e.mask
    match placeEntries q.blk.st q.grp q.slot (targets mask next) with
    | none => s0.takeFault q0 { code := .divStack, lane := ((List.range 32).find? fun k => mask.getLsbD k).getD 0 }
    | some r =>
      let s1 := s.putSt q (r.1.setGroup q.gi (settle r.1 r.2))
      let gone := maskOf fun k => mask.getLsbD k && (next k).isNone
      if gone = 0 then s1 else s1.retireLanes q.id q.gi gone

/-- A word that sends its executing lanes to PCs of their own after a change of the group (08 R221). -/
def flowWord (s : State) (c : Ctl) (f : Cur → Group) (next : Cur → Nat → Option (BitVec 57)) : Out :=
  withCur s fun q =>
    .next (s.route q (s.putGrp q (f q)) fun k => if q.grp.runs q.slot c k then next q k else some (pcNext q.pc))

/-- No other entry of the group has a smaller PC (08 R219). -/
def joinPasses (st : BlkState) (g : Group) (slot : Bool) : Bool :=
  let pc := (g.pcSlot slot).e.pc
  let other := (g.pcSlot (!slot)).e
  (other.mask == 0 || !decide (other.pc < pc)) && (st.stack g).all fun e => !decide (e.pc < pc)

/-- Sends lanes whose guard is true to the word offset target and the others to the next word, splitting the entry if needed (R222). -/
def execBra (c : Ctl) (off : BitVec 18) (s : State) : Out :=
  flowWord s c (fun q => q.grp) fun q _ => some (pcPlus q.pc off)

/-- Holds an entry until no other entry of the group has a smaller PC, then passes it to the offset target (R219). -/
def execJoin (_c : Ctl) (off : BitVec 18) (s : State) : Out :=
  withCur s fun q =>
    if joinPasses q.blk.st q.grp q.slot then
      let g := q.grp.setSlot q.slot (slotAt { (q.grp.pcSlot q.slot).e with pc := pcPlus q.pc off })
      .next (s.putSt q (q.blk.st.setGroup q.gi (settle q.blk.st g)))
    else .next s

/-- Writes the return PC into the destination and branches by the word offset in the taking lanes (R221). -/
def execCall (c : Ctl) (d : Dst) (off : BitVec 18) (s : State) : Out :=
  flowWord s c (fun q => q.grp.writeLanes q.slot c d.r fun _ => ((pcNext q.pc).setWidth 64, false)) fun q _ =>
    some (pcPlus q.pc off)

/-- What is wrong with a target of RET or JMPI (08 R223). -/
def badTarget (k : Nat) (t : W64) : Option FaultInfo :=
  if t.extractLsb' 0 3 ≠ 0 then some { code := .misaligned, lane := k, ea := t }
  else if t.extractLsb' 57 7 ≠ 0 then some { code := .pageFaultRead, lane := k, ea := t, atOnce := true }
  else none

/-- RET and JMPI: every target is checked before any lane moves (08 R223). -/
def jumpWord (s : State) (c : Ctl) (a : Opnd) : Out :=
  withCur s fun q =>
    match (q.active c).findSome? fun k => badTarget k (q.grp.opnd Rd.raw a k) with
    | some f => .next (s.takeFault q f)
    | none => flowWord s c (fun q => q.grp) fun q k => some ((q.grp.opnd Rd.raw a k).setWidth 57)

/-- Jumps each executing lane to the target in its register after checking every target (R223). -/
def execRet (c : Ctl) (a : Opnd) (s : State) : Out := jumpWord s c a

/-- Indirect jump to each lane's register target, splitting lanes with distinct targets (R223). -/
def execJmpi (c : Ctl) (a : Opnd) (s : State) : Out := jumpWord s c a

/-! ### Retirement (08 R224, 10 R286) -/

/-- The addresses of the markers of a lane's stack, from its bottom. -/
def Lane.markers (l : Lane) : List W64 :=
  (List.range ((l.mt.toNat - l.sw.markB.toNat) / 64)).map fun i => l.sw.markB + BitVec.ofNat 64 (64 * i)

/-- Whether a marker lies in the scratchpad of its block. -/
def inScratch (size : Nat) (a : W64) : Bool := inWindow a && decide (a.toNat - windowBase + 8 ≤ size)

/-- The first marker of a lane's stack in scratch that is BUSY (10 R286). -/
def busyMarker (st : BlkState) (size : Nat) (l : Lane) : Option W64 :=
  l.markers.find? fun a => inScratch size a && (st.sword (a.toNat - windowBase)).getLsbD 34

/-- Sets a predicate true in the lowest-numbered executing lane and false in the others (R221). -/
def execElect (c : Ctl) (p : BitVec 3) (s : State) : Out :=
  withCur s fun q => predWord s c p fun _ k => (q.active c).headD 32 == k

/-! ### REGROUP (01 R31, 08 R225 to R228) -/

/-- How many lanes a mask names. -/
def laneCount (m : Mask) : Nat := (List.range 32).countP fun k => m.getLsbD k

/-- Where a group waits at a REGROUP with all its lanes in one entry (08 R226). -/
def Group.atRegroup (g : Group) : Option (Bool × BitVec 57) :=
  let here := fun (p : PcSlot) => p.e.mask != 0 && p.e.mask == g.live && p.e.mask &&& ~~~g.regWait == 0
  if here g.slot0 then some (false, g.slot0.e.pc)
  else if here g.slot1 then some (true, g.slot1.e.pc)
  else none

/-- The pairs of a REGROUP, as receiver and donor, from the groups with their live counts in ascending order (08 R227). -/
def regroupPairs : Nat → List (Nat × Nat) → List (Nat × Nat)
  | 0, _ => []
  | _, [] => []
  | n + 1, r :: rest =>
    match rest.find? fun d => decide (d.2 ≤ 32 - r.2) with
    | some d => (r.1, d.1) :: regroupPairs n (rest.filter fun x => x.1 != d.1)
    | none => regroupPairs n rest

/-- A moved lane: the registers that the donor's mask names, and what R31 lists; every other register is free. -/
def moveLane (nregs : Nat) (mask : BitVec 64) (free : Nat) (l : Lane) : Lane :=
  (List.range nregs).foldl (fun x r =>
    if mask.getLsbD r then x else x.setReg (BitVec.ofNat 6 r) (Config.movedReg (free + r)) (Config.movedTaint (free + r))) l

/-- The moves of the lanes of a donor: old and new lane number, in ascending order (08 R227). -/
def movesOf (r d : Group) : List (Nat × Nat) :=
  ((List.range 32).filter fun k => (d.lane k).present).zip ((List.range 32).filter fun k => !(r.lane k).present)

/-- The new name, as group and lane, of a lane of a block of which pairs of groups regroup. -/
def newName (st : BlkState) (pairs : List (Nat × Nat)) (x : Nat × Nat) : Nat × Nat :=
  match pairs.find? fun p => p.2 == x.1 with
  | none => x
  | some p =>
    match st.groups[p.1]?, st.groups[p.2]? with
    | some r, some d =>
      (match (movesOf r d).find? fun m => m.1 == x.2 with
        | some m => (p.1, m.2)
        | none => x)
    | _, _ => x

/-- The stores that a moved lane made are its own where it now is: those in its core's queue, and the dirty sectors that they wrote
(07 R191, 08 R227). -/
def State.renameLanes (s : State) (id : Nat) (b : Block) (co : Nat) (f : Nat × Nat → Nat × Nat) : State :=
  let c := s.core b.cl co
  let held := c.held.map fun h => if h.blk = id then { h with grp := (f (h.grp, h.lane)).1, lane := (f (h.grp, h.lane)).2 } else h
  let own := fun (w : Nat × Nat × Nat) => if w.1 = id then (id, f w.2) else w
  let cc := s.ms.cc.map fun p => if p.1 / 2 ^ 46 = b.cl then (p.1, { p.2 with writers := p.2.writers.map own }) else p
  { s.setCore b.cl co { c with held := held } with ms := { s.ms with cc := cc } }

/-- Move the lanes of a donor to the lowest free lanes of a receiver (08 R227): the block's state, and the free values
taken. -/
def moveLanes (nregs : Nat) (p : Nat × Nat) (x : BlkState × Nat) : BlkState × Nat :=
  match x.1.groups[p.1]?, x.1.groups[p.2]? with
  | some r, some d =>
    let moves := movesOf r d
    let y := moves.foldl (fun (a : Group × Nat) m =>
      (a.1.setLane m.2 (moveLane nregs d.regMask a.2 (d.lane m.1)), a.2 + 64)) (r, x.2)
    let r1 := { y.1 with l0 := none, l1 := none, l2 := none, l3 := none }
    let d1 := d.mapLanes fun _ l => if l.present then { l with present := false } else l
    let board := x.1.board.map fun e =>
      if e.grp.toNat = p.2 then
        match moves.find? fun m => m.1 == e.lane.toNat with
        | some m => { e with grp := BitVec.ofNat 5 p.1, lane := BitVec.ofNat 5 m.2 }
        | none => e
      else e
    ({ ((x.1.setGroup p.1 r1).setGroup p.2 d1) with board := board }, y.2)
  | _, _ => x

/-- Every group of a list goes on past its REGROUP in one entry (08 R227). -/
def passRegroup (st : BlkState) (l : List Nat) : BlkState :=
  l.foldl (fun x gi =>
    match x.groups[gi]? with
    | some g =>
      let slot := !(g.slot0.e.mask != 0 && g.slot0.e.mask &&& ~~~g.regWait == 0)
      let e : Entry := ⟨pcNext (g.pcSlot slot).e.pc, g.live⟩
      x.setGroup gi { (g.setSlot slot (slotAt e)) with regWait := 0, regMask := 0 }
    | none => x) st

/-- Whether a donor's results have all returned and its issued batches have retired. -/
def State.donorIdle (s : State) (id gi : Nat) : Bool :=
  match (s.blocks.get? id).bind fun b => b.st.groups[gi]? with
  | some g => g.sb == 0 && g.psb == 0 && g.acqPend == 0 && g.batches.all fun t => !t.closed
  | none => true

/-- The REGROUP of the groups of a block on one core acts, if it may (08 R226 to R228); a block that leaves is saved as it waits. -/
def State.regroupNow (s : State) (id co : Nat) : State :=
  match s.blocks.get? id with
  | none => s
  | some b =>
    let gs := (List.range b.st.groups.length).filter fun gi => b.coreOf gi == co &&
      (match b.st.groups[gi]? with
        | some g => !g.retired
        | none => false)
    let at_ := gs.map fun gi => (b.st.groups[gi]?.bind Group.atRegroup).map fun p => p.2
    let pairs := regroupPairs gs.length (gs.map fun gi => (gi, (b.st.groups[gi]?.elim 0 fun g => laneCount g.live)))
    if b.stopping != .none || gs.isEmpty || at_.any (fun x => x.isNone || x != at_.headD none) || pairs.any (fun p => !s.donorIdle id p.2) then s
    else
      let x := pairs.foldl (fun a p => moveLanes b.nregs p a) (b.st, s.free)
      let donors := pairs.map fun p => p.2
      let st := passRegroup x.1 (gs.filter fun gi => !donors.contains gi)
      let s1 := if pairs.isEmpty then s else s.renameLanes id b co (newName b.st pairs)
      donors.foldl (fun a gi => a.retireGroup id gi) { s1.setBlock id { b with st := st.knows (s.clk b.cl) } with free := x.2 }

/-- Makes the group wait at the word until every group of the block on the core has reached it or retired (R226). -/
def execRegroup (c : Ctl) (a : Opnd) (s : State) : Out :=
  withCur s fun q =>
    let m := maskOf fun k => q.grp.runs q.slot c k
    match q.active c with
    | [] => .next (s.finish q q.blk.st q.grp)
    | k :: _ =>
      let first := ((List.range 32).find? fun i => q.grp.regWait.getLsbD i).getD 32
      let mask := if k ≤ first then q.grp.opnd Rd.raw a k else q.grp.regMask
      let s1 := s.putGrp q { q.grp with regWait := q.grp.regWait ||| m, regMask := mask }
      let s2 := s.route q s1 fun i => if m.getLsbD i then some q.pc else some (pcNext q.pc)
      .next (s2.regroupNow q.id q.co)

/-! ### ENQ (08 R229 to R231) -/

/-- The checks of an ENQ in a lane, the QCB's physical address and the packet body (08 R229). -/
def State.planEnq (s : State) (q : Cur) (o : P2) (ms : MemSys) (k : Nat) : Chkd ((Nat × Nat × List W64) × MemSys) := do
  let h := q.grp.opnd Rd.raw o.a k
  let b := q.grp.opnd Rd.raw o.b k
  if h.toNat % 256 ≠ 0 then throw (.fault { code := .misaligned, lane := k, ea := h })
  if b.toNat % 64 ≠ 0 then throw (.fault { code := .misaligned, lane := k, ea := b })
  let _ ← s.checked q k ⟨h, 8, false, true, false, .any, false, false⟩
  let x ← s.readVa q [] ms k ⟨b, 64, false, true, false, .any, false, false⟩ false
  let y ← s.readVa q [] x.2 k ⟨b + 64, 64, false, true, false, .any, false, false⟩ false
  match s.queueOf q.blk.asid h with
  | none => throw (.fault { code := .permission, lane := k, ea := h, atOnce := true })
  | some p =>
    let l := x.1 ++ y.1
    pure ((k, p.2.pa, (List.range 16).map fun i => BitVec.ofNat 64 (leNat ((l.drop (8 * i)).take 8))), y.2)

/-- The plans of lanes in ascending order (08 R229). -/
def planEnqs (plan : MemSys → Nat → Chkd ((Nat × Nat × List W64) × MemSys)) :
    List Nat → MemSys → Chkd (List (Nat × Nat × List W64) × MemSys)
  | [], ms => .ok ([], ms)
  | k :: l, ms => do
    let x ← plan ms k
    let y ← planEnqs plan l x.2
    pure (x.1 :: y.1, y.2)

/-- For each executing lane, releases at DEV, reserves a ring slot, writes the packet body and header, and kicks the queue, returning OK or FULL (R230). -/
def execEnq (c : Ctl) (o : P2) (s : State) : Out :=
  withCur s fun q =>
    let lanes := q.active c
    if lanes.isEmpty then .next (s.finish q q.blk.st q.grp)
    else if q.blk.spec.isSome then .next (stopWord s q .abort)
    else
      match planEnqs (s.planEnq q o) lanes s.ms with
      | .error x => .next (stopWord s q x)
      | .ok (l, ms) =>
        let s1 := { s with ms := ms }.sealBlk q.id
        withCur s1 fun q1 =>
          let acts := l.map fun p => Cur.hold s q p.1 (q.grp.opnd Rd.raw o.a p.1) (some (.dev, .sg)) none
            (.enq p.2.1 p.2.2 ⟨p.1, none, false, none, some o.p⟩)
          let g := { q1.grp.holdPreds (predName o.p) with acqPend := q1.grp.acqPend + acts.length }
          .next ((s1.finish q1 q1.blk.st g).pushHeld q1 acts)

/-! ### The work identifier (01 R15, 09 R256) -/

/-- The lowest bit of a field. -/
def widBase (b : Block) (f : Nat) : Nat := (b.widths.take f).sum

/-- Field `f` of a work identifier; 0 beyond the field count. -/
def widField (b : Block) (l : Lane) (f : Nat) : W64 :=
  if f < b.nf then (l.wid >>> widBase b f) &&& BitVec.ofNat 64 (2 ^ (b.widths.getD f 0) - 1) else 0

/-- Writes a field of the lane's work identifier, zero-extended, with taint 0 (R221). -/
def execWidW (c : Ctl) (d : Dst) (f : BitVec 3) (s : State) : Out :=
  withCur s fun q => laneWord s c d fun g k => (widField q.blk (g.lane k) f.toNat, false)

end Sys2Proof.Machine
end

