-- ==== Sys2Proof/Machine/Term.lean ====
section
/-! DEFINITION. The TERM words: term cells, dereferencing, the overlay, the trail, binding, unification and commit (08
R232 to R240, 10 R272 to R282). -/

namespace Sys2Proof.Machine

/-! ### Computations of a lane on memory (08 R232) -/

/-- A computation that reads and writes the machine, and may stop. What it did before it stopped stays in the state. -/
abbrev TM (α : Type) := ExceptT Stop (StateM State) α

/-- The issuing group as it stands. -/
def tmCur : TM Cur := do
  match (← get).cur? with
  | some q => pure q
  | none => throw .abort

/-- A lane of the issuing group. -/
def tmLane (k : Nat) : TM Lane := do
  let q ← tmCur
  pure (q.grp.lane k)

/-- Change a lane of the issuing group. -/
def tmSetLane (k : Nat) (f : Lane → Lane) : TM Unit := do
  let q ← tmCur
  modify fun s => s.putGrp q (q.grp.setLane k (f (q.grp.lane k)))

/-- Stop with a fault of a lane. -/
def tmFault {α : Type} (k : Nat) (code : FaultCode) (ea : W64 := 0) : TM α :=
  throw (.fault { code := code, lane := k, ea := ea })

/-- Load a cell with consume semantics: an LDB (08 R232, 06 R152). -/
def tmLoad (k : Nat) (a : W64) : TM W64 := do
  let q ← tmCur
  let s ← get
  match s.readVa q [] s.ms k ⟨a, 8, false, true, false, .any, false, false⟩ true with
  | .ok (l, ms) =>
    set { s with ms := ms }
    pure (BitVec.ofNat 64 (leNat l))
  | .error x => throw x

/-- Store a cell: an ordinary store of the lane (08 R232). -/
def tmStore (k : Nat) (a v : W64) : TM Unit := do
  let q ← tmCur
  let s ← get
  let bytes := leBytes v.toNat 8
  match s.checked q k ⟨a, 8, true, false, true, .any, false, false⟩ with
  | .ok (.scratch off) =>
    if s.rangeHeld q off 8 true then throw .held else set (s.scratchPut q off bytes)
  | .ok (.global leaf pa) =>
    let s1 := if remoteChk s.fab.chip (.global leaf pa) then s.sealBlk q.id else s
    set (s1.pushHeld q [Cur.hold s q k a none none (.store (placeOf s.fab.chip leaf pa) .back pa bytes)])
  | .ok _ => throw .abort
  | .error x => throw x

/-- Run a computation in each lane of a list, in ascending order. -/
def tmLanes {α : Type} (f : Nat → TM α) : List Nat → TM (List (Nat × α))
  | [] => pure []
  | k :: l => do
    let x ← f k
    let r ← tmLanes f l
    pure ((k, x) :: r)

/-- A word that runs a computation in its executing lanes and then ends by `k`; if a lane stops, the word has done
nothing (08 R232). -/
def termWord {α : Type} (s : State) (c : Ctl) (f : Cur → Nat → TM α) (k : State → Cur → List (Nat × α) → State) : Out :=
  withCur s fun q =>
    match (tmLanes (f q) (q.active c)).run s with
    | (.ok l, s1) => withCur s1 fun q1 => .next (k s1 q1 l)
    | (.error x, _) => .next (stopWord s q x)

/-! ### Term words (10 R272, R273) -/

/-- The tag. -/
def tagOf (t : W64) : Nat := (t.extractLsb' 60 4).toNat
/-- The pointer. -/
def ptrOf (t : W64) : W64 := t &&& 0x1FFFFFFFFFFFFFF
/-- A term word from a tag and a payload. -/
def mkTerm (tag : Nat) (p : W64) : W64 := (BitVec.ofNat 64 tag <<< 60) ||| p
/-- FUN. -/
def tFUN : Nat := 2
/-- STR. -/
def tSTR : Nat := 3
/-- LST. -/
def tLST : Nat := 4
/-- REF. -/
def tREF : Nat := 6
/-- VAR. -/
def tVAR : Nat := 7
/-- SVAR. -/
def tSVAR : Nat := 8
/-- TEN. -/
def tTEN : Nat := 11

/-- A variable word. -/
def isVar (t : W64) : Bool := tagOf t == tVAR || tagOf t == tSVAR

/-- A tag that every term word refuses (10 R273). -/
def badTag (t : W64) : Bool := decide (12 ≤ tagOf t)

/-- The arity of a FUN word. -/
def arityOf (f : W64) : Nat := (f.extractLsb' 32 16).toNat

/-! ### The overlay (08 R234) -/

/-- The lane has run no OVLCFG: its limits are zero, and a word faults with the overflow code of the structure that it first
touches (01 R14). -/
def Lane.unset (l : Lane) : Bool := l.sw.w1.extractLsb' 0 4 == 0

/-- The number of overlay entries of a lane; none before its first OVLCFG (01 R14). -/
def Lane.ovSize (l : Lane) : Nat := if l.sw.w1.extractLsb' 0 4 = 0 then 0 else 2 ^ (l.sw.w1.extractLsb' 0 4).toNat

/-- The address of an overlay entry. -/
def Lane.ovEntry (l : Lane) (h : Nat) : W64 := l.sw.ovl + BitVec.ofNat 64 (16 * h)

/-- VALID, TOMB and KEY of an overlay entry. -/
def ovValid (w0 : W64) : Bool := w0.getLsbD 63
/-- TOMB. -/
def ovTomb (w0 : W64) : Bool := w0.getLsbD 62

/-- Where the probes of an address begin. -/
def ovHash (n : Nat) (a : W64) : Nat := ((a >>> 3) ^^^ (a >>> 13)).toNat % n

/-- Probe the overlay of lane `l` for at most `n` entries, as lane `k` reads it: the VALID entry that holds the address. -/
def ovProbe (k : Nat) (l : Lane) (a : W64) : Nat → Nat → TM (Option W64)
  | 0, _ => pure none
  | n + 1, h => do
    let e := l.ovEntry (h % l.ovSize)
    let w0 ← tmLoad k e
    if ovValid w0 && ptrOf w0 == a then pure (some e)
    else if ovValid w0 || ovTomb w0 then ovProbe k l a n (h + 1)
    else pure none

/-- Probe for the first entry that is not VALID, whatever keys the entries before it hold. -/
def ovRoom (k : Nat) (l : Lane) : Nat → Nat → TM (Option W64)
  | 0, _ => pure none
  | n + 1, h => do
    let e := l.ovEntry (h % l.ovSize)
    let w0 ← tmLoad k e
    if ovValid w0 then ovRoom k l n (h + 1) else pure (some e)

/-- Run a probe from the hash of an address; there is no overlay before the first OVLCFG of the lane (01 R14). -/
def ovFrom (k : Nat) (a : W64) (probe : Lane → Nat → Nat → TM (Option W64)) : TM (Option W64) := do
  let l ← tmLane k
  if l.ovSize = 0 then tmFault k .overlayFull else probe l l.ovSize (ovHash l.ovSize a)

/-- Look an address up. -/
def ovFind (k : Nat) (a : W64) : TM (Option W64) := ovFrom k a fun l => ovProbe k l a

/-- The entry that an insertion of an address takes. -/
def ovPlace (k : Nat) (a : W64) : TM (Option W64) := ovFrom k a fun l => ovRoom k l

/-- Make a binding of an address in a free overlay entry. -/
def ovWrite (k : Nat) (e a v : W64) : TM Unit := do
  tmStore k (e + 8) v
  tmStore k e (0x8000000000000000 ||| a)

/-! ### The trail (08 R235) -/

/-- Append to the trail. -/
def trailPush (k : Nat) (w : W64) : TM Unit := do
  let l ← tmLane k
  if l.sw.trailL.toNat < l.tt.toNat + 8 then tmFault k .trailOverflow
  tmStore k l.tt w
  tmSetLane k fun x => { x with tt := x.tt + 8 }

/-- Undo the newest trail entry. -/
def undoOne (k : Nat) : TM Unit := do
  let l ← tmLane k
  let t ← tmLoad k (l.tt - 8)
  let a := ptrOf t
  if t.getLsbD 63 then
    let w0 ← tmLoad k a
    tmStore k a ((w0 &&& 0x7FFFFFFFFFFFFFFF) ||| 0x4000000000000000)
  else tmStore k a (mkTerm tVAR a)
  tmSetLane k fun x => { x with tt := x.tt - 8 }

/-- Undo a number of trail entries, newest first. -/
def undoMany (k : Nat) : Nat → TM Unit
  | 0 => pure ()
  | n + 1 => do
    undoOne k
    undoMany k n

/-- Undo the trail down to an address. -/
def undoTo (k : Nat) (a : W64) : TM Unit := do
  let l ← tmLane k
  undoMany k ((l.tt.toNat - a.toNat) / 8)

/-! ### Dereferencing (08 R233) -/

/-- Follow a term for a number of links; `ov` says whether the lane's overlay counts. -/
def derefFrom (k : Nat) (ov : Bool) : Nat → W64 → TM W64
  | 0, _ => tmFault k .termTag
  | n + 1, t => do
    if badTag t then tmFault k .termTag
    else if tagOf t = tREF then
      let c ← tmLoad k (ptrOf t)
      derefFrom k ov n c
    else if isVar t then
      let c ← tmLoad k (ptrOf t)
      if c ≠ t then derefFrom k ov n c
      else if tagOf t = tSVAR ∧ ov then
        match (← ovFind k (ptrOf t)) with
        | some e =>
          let v ← tmLoad k (e + 8)
          derefFrom k ov n v
        | none => pure t
      else pure t
    else pure t

/-- Dereference a term in a lane. -/
def tmDeref (k : Nat) (t : W64) : TM W64 := derefFrom k true 65536 t

/-! ### Binding (08 R237, 10 R278) -/

/-- Bind an unbound variable to a term. -/
def tmBind (k : Nat) (x v : W64) : TM Unit := do
  let a := ptrOf x
  if tagOf x = tVAR then
    trailPush k a
    tmStore k a v
  else
    let l ← tmLane k
    if l.sw.trailL.toNat < l.tt.toNat + 8 then tmFault k .trailOverflow
    match (← ovPlace k a) with
    | none => tmFault k .overlayFull
    | some e =>
      trailPush k (0x8000000000000000 ||| e)
      ovWrite k e a v

/-- Whether the first of two unbound variables is the one that is bound (10 R278). -/
def bindsFirst (s t : W64) : Bool :=
  if tagOf s ≠ tagOf t then tagOf s == tVAR
  else if inWindow (ptrOf s) ≠ inWindow (ptrOf t) then inWindow (ptrOf s)
  else decide ((ptrOf t).toNat < (ptrOf s).toNat)

/-- Bind two different terms, of which at least one is an unbound variable. -/
def tmBindPair (k : Nat) (s t : W64) : TM Unit :=
  if isVar s ∧ isVar t then
    if bindsFirst s t then tmBind k s (mkTerm tREF (ptrOf t)) else tmBind k t (mkTerm tREF (ptrOf s))
  else if isVar s then tmBind k s t
  else tmBind k t s

/-! ### Words that write a register -/

/-- The end of a TERM word that writes a register: the result is of variable latency (02 R43). -/
def termEnd (d : Dst) (s : State) (q : Cur) (l : List (Nat × (W64 × Bool))) : State :=
  let g := (q.grp.mapLanes fun k x =>
    match l.find? fun p => p.1 == k with
    | some p => x.setReg d.r p.2.1 p.2.2
    | none => x).shiftLatch d.r
  s.finish q q.blk.st { g with sb := g.sb ||| ((1 : W64) <<< d.r.toNat) }

/-- Extracts the tag of a term word (R236). -/
def execTag (c : Ctl) (o : RD1) (s : State) : Out :=
  termWord s c (fun q k => do
    let t := q.grp.opnd Rd.raw o.a k
    if badTag t then tmFault k .termTag
    pure (BitVec.ofNat 64 (tagOf t), q.grp.opndTaint o.a k)) (termEnd o.d)

/-- Builds a term word from a tag and payload (R236). -/
def execMkt (c : Ctl) (o : RD2) (s : State) : Out :=
  termWord s c (fun q k => do
    let tag := (q.grp.opnd Rd.raw o.b k).toNat % 16
    if 12 ≤ tag then tmFault k .termTag
    pure (mkTerm tag (q.grp.opnd Rd.raw o.a k &&& 0xFFFFFFFFFFFFFFF), q.grp.opndTaint o.a k || q.grp.opndTaint o.b k))
    (termEnd o.d)

/-- Follows bindings through cells and the lane's overlay to an unbound variable or non-variable (R233). -/
def execDeref (c : Ctl) (o : RD1) (s : State) : Out :=
  termWord s c (fun q k => do
    let v ← tmDeref k (q.grp.opnd Rd.raw o.a k)
    pure (v, true)) (termEnd o.d)

/-- Allocates cells on the private heap, returning the old heap top (R239). -/
def execHalloc (c : Ctl) (o : RD1) (s : State) : Out :=
  termWord s c (fun q k => do
    let n := (q.grp.opnd Rd.raw o.a k).toNat % 2 ^ 32
    let l ← tmLane k
    if l.unset ∨ l.sw.heapL.toNat < l.ht.toNat + 8 * n then tmFault k .heapOverflow
    tmSetLane k fun x => { x with ht := x.ht + BitVec.ofNat 64 (8 * n) }
    pure (l.ht, false)) (termEnd o.d)

/-- Load a cell that a word hands on: a word of tag 0xC to 0xF is met, and faults, though nothing follows it (08 R232, 10 R273;
log 90). -/
def tmTerm (k : Nat) (a : W64) : TM W64 := do
  let t ← tmLoad k a
  if badTag t then tmFault k .termTag else pure t

/-- An argument of a dereferenced term (08 R239). -/
def tmGetarg (k : Nat) (t : W64) (i : Nat) : TM W64 := do
  let p := ptrOf t
  if tagOf t = tSTR then
    let f ← tmLoad k p
    if tagOf f ≠ tFUN ∨ arityOf f < i then tmFault k .termTag
    if i = 0 then pure f else tmTerm k (p + BitVec.ofNat 64 (8 * i))
  else if tagOf t = tLST ∧ (i = 1 ∨ i = 2) then tmTerm k (p + BitVec.ofNat 64 (8 * (i - 1)))
  else tmFault k .termTag

/-- Returns an argument of a structure or list cell (R239). -/
def execGetarg (c : Ctl) (o : RD2) (s : State) : Out :=
  termWord s c (fun q k => do
    let t ← tmDeref k (q.grp.opnd Rd.raw o.a k)
    let v ← tmGetarg k t ((q.grp.opnd Rd.raw o.b k).toNat % 2 ^ 32)
    pure (v, true)) (termEnd o.d)

/-! ### BIND and COMMIT -/

/-- Binds an unbound variable to a value by the direction rules and trails it (R239). -/
def execBindT (c : Ctl) (a b : Opnd) (s : State) : Out :=
  termWord s c (fun q k => do
    let x ← tmDeref k (q.grp.opnd Rd.raw a k)
    if !isVar x then tmFault k .termTag
    let v ← tmDeref k (q.grp.opnd Rd.raw b k)
    if x ≠ v then tmBindPair k x v) fun s q _ => s.finish q q.blk.st q.grp

/-- What a COMMIT does in a lane: nothing, a swap in scratch with its outcome, or a swap at a global home. -/
inductive CommitRes where
  | no
  | done (ok : Bool)
  | far (act : Held)
  deriving DecidableEq, Repr

/-- The compare-and-swap of a COMMIT, its comparand the self-pointing word (08 R240, 06 R163). -/
def tmCommit (q : Cur) (p : BitVec 3) (k : Nat) (x w : W64) : TM CommitRes := do
  let s ← get
  let a := ptrOf x
  match s.checked q k ⟨a, 8, true, true, true, .any, false, false⟩ with
  | .ok (.scratch _) =>
    let c ← tmLoad k a
    if c = x then
      tmStore k a w
      pure (.done true)
    else pure (.done false)
  | .ok (.global leaf pa) =>
    pure (.far (Cur.hold s q k a (some (.blk, .sg)) (some (.blk, .sg))
      (.atom .cas (placeOf s.fab.chip leaf pa) pa true x w (some ⟨k, none, false, none, some p⟩))))
  | .ok _ => throw .abort
  | .error e => throw e

/-- Run `k` after the release action of a term word, unless it has already begun to read (06 R156). -/
def termRelease (s : State) (q : Cur) (c : Ctl) (k : Out) : Out :=
  if q.farBytes.isEmpty then afterDrain s q (!(q.active c).isEmpty) .results k else k

/-- Publishes a value into an SVAR cell by compare-and-swap at its home (R240). -/
def execCommit (c : Ctl) (o : P2) (s : State) : Out :=
  withCur s fun q => termRelease s q c <|
    termWord s c (fun q k => do
      let x ← derefFrom k false 65536 (q.grp.opnd Rd.raw o.a k)
      if tagOf x ≠ tSVAR then pure .no
      else
        let v ← tmDeref k (q.grp.opnd Rd.raw o.b k)
        tmCommit q o.p k x (if isVar v then mkTerm tREF (ptrOf v) else v)) fun s q l =>
      let g := q.grp.mapLanes fun k x =>
        match l.find? fun p => p.1 == k with
        | some (_, .no) => x.setPred o.p false
        | some (_, .done ok) => x.setPred o.p ok
        | _ => x
      let acts := l.filterMap fun p =>
        match p.2 with
        | .far h => some h
        | _ => none
      let s1 := if acts.any (fun h => (match h.act.range with
        | some r => r.1.isSome
        | none => false)) then s.sealBlk q.id else s
      match s1.cur? with
      | some q1 =>
        (s1.finish q1 q1.blk.st { g.holdPreds (predName o.p) with acqPend := g.acqPend + acts.length }).pushHeld q1 acts
      | none => s1

/-! ### UNIFY (08 R237, R238) -/

/-- Push a pair on the push-down list. -/
def pdlPush (k : Nat) (x y : W64) : TM Unit := do
  let l ← tmLane k
  if l.sw.pdlL.toNat < l.upd.toNat + 16 then tmFault k .pdlOverflow
  tmStore k l.upd x
  tmStore k (l.upd + 8) y
  tmSetLane k fun z => { z with upd := z.upd + 16, pdlHi := if z.pdlHi.toNat < z.upd.toNat + 16 then z.upd + 16 else z.pdlHi }

/-- Push the arguments of two structures, the last first. -/
def pushArgs (k : Nat) (p r : W64) : Nat → TM Unit
  | 0 => pure ()
  | n + 1 => do
    let x ← tmLoad k (p + BitVec.ofNat 64 (8 * (n + 1)))
    let y ← tmLoad k (r + BitVec.ofNat 64 (8 * (n + 1)))
    pdlPush k x y
    pushArgs k p r n

/-- The word at an address of the list becomes undefined, if the lane can still store there (10 R276; log 9). -/
def pdlForget (k : Nat) (a : W64) : TM Unit := do
  let n := (← get).free
  modify fun s => { s with free := n + 1 }
  tryCatch (tmStore k a (Config.pdlWord n)) fun _ => pure ()

/-- The first `n` words of the list become undefined. -/
def pdlForgetAll (k : Nat) (base : W64) : Nat → TM Unit
  | 0 => pure ()
  | n + 1 => do
    pdlForget k (base + BitVec.ofNat 64 (8 * n))
    pdlForgetAll k base n

/-- The end of a UNIFY in a lane (08 R237): UPD is 0, and the words that it pushed are undefined from now on (10 R276). While the
UNIFY runs, the list is memory like any other (10 R277). -/
def unifyEnd (k : Nat) : TM Unit := do
  let l ← tmLane k
  pdlForgetAll k l.sw.pdlB ((l.pdlHi.toNat - l.sw.pdlB.toNat) / 8)
  tmSetLane k fun z => { z with upd := 0, pdlHi := 0 }

/-- Pop a pair and work on it: false on a mismatch. -/
def unifyPair (k : Nat) : TM Bool := do
  let l ← tmLane k
  let x ← tmLoad k (l.upd - 16)
  let y ← tmLoad k (l.upd - 8)
  tmSetLane k fun z => { z with upd := z.upd - 16 }
  let s ← tmDeref k x
  let t ← tmDeref k y
  if s = t then pure true
  else if isVar s ∨ isVar t then
    tmBindPair k s t
    pure true
  else if tagOf s = tSTR ∧ tagOf t = tSTR then
    let f ← tmLoad k (ptrOf s)
    let g ← tmLoad k (ptrOf t)
    if tagOf f ≠ tFUN ∨ tagOf g ≠ tFUN then tmFault k .termTag
    if f ≠ g then pure false
    else
      pushArgs k (ptrOf s) (ptrOf t) (arityOf f)
      pure true
  else if tagOf s = tLST ∧ tagOf t = tLST then
    let a ← tmLoad k (ptrOf s + 8)
    let b ← tmLoad k (ptrOf t + 8)
    pdlPush k a b
    let c ← tmLoad k (ptrOf s)
    let d ← tmLoad k (ptrOf t)
    pdlPush k c d
    pure true
  else pure false

/-- How a UNIFY stands in a lane after an issue. -/
inductive URes where
  | ended (same : Bool)
  | more
  | stop (x : Stop)
  deriving DecidableEq, Repr

/-- The state after the end of a UNIFY in a lane. -/
def State.unifyEnded (s : State) (k : Nat) : State := ((unifyEnd k).run s).2

/-- Change the issuing group. -/
def State.updCur (s : State) (f : Group → Group) : State :=
  match s.cur? with
  | some q => s.putGrp q (f q.grp)
  | none => s

/-- Whether the push-down list of a lane is empty. -/
def State.pdlEmpty (s : State) (k : Nat) : Bool :=
  match s.cur? with
  | some q => (q.grp.lane k).upd == (q.grp.lane k).sw.pdlB
  | none => true

/-- Pop at most `n` pairs. A pair that cannot be finished is as if never popped (08 R238). -/
def unifyLoop (k : Nat) : Nat → State → URes × State
  | n, s =>
    if s.pdlEmpty k then (.ended true, s.unifyEnded k)
    else
      match n with
      | 0 => (.more, s)
      | m + 1 =>
        match (unifyPair k).run s with
        | (.ok same, s1) =>
          let s2 := s1.updCur fun g => { g with perfPairs := g.perfPairs + 1 }
          if same then unifyLoop k m s2 else (.ended false, s2.unifyEnded k)
        | (.error x, _) => (.stop x, s)

/-- Start a UNIFY in a lane: push its pair. -/
def unifyStart (k : Nat) (x y : W64) : TM Unit := do
  let l ← tmLane k
  if l.upd = 0 then
    tmSetLane k fun z => { z with upd := z.sw.pdlB, pdlHi := z.sw.pdlB }
    pdlPush k x y

/-- One issue of UNIFY in a lane: at most 64 pairs (08 R238). -/
def unifyLane (k : Nat) (x y : W64) (s : State) : URes × State :=
  match (unifyStart k x y).run s with
  | (.ok _, s1) => unifyLoop k 64 s1
  | (.error e, _) => (.stop e, s)

/-- One issue of UNIFY in the lanes that it has not finished: what stops it, whether pairs remain. -/
def unifyLanes (o : PUnify) : List Nat → State → Option Stop × Bool × State
  | [], s => (none, false, s)
  | k :: l, s =>
    match s.cur? with
    | none => (none, false, s)
    | some q =>
      match unifyLane k (q.grp.src Rd.raw o.a k) (q.grp.opnd Rd.raw o.b k) s with
      | (.stop x, s1) => (some x, true, s1)
      | (.more, s1) =>
        let r := unifyLanes o l s1
        (r.1, true, r.2.2)
      | (.ended same, s1) =>
        let m := (1 : Mask) <<< k
        let s2 := s1.updCur fun g =>
          let g1 := (g.setLane k ((g.lane k).setPred o.p same)).holdPreds (predName o.p)
          let p := g1.pcSlot q.slot
          g1.setSlot q.slot { p with done := p.done ||| m, bad := if o.f && !same then p.bad ||| m else p.bad }
        unifyLanes o l s2

end Sys2Proof.Machine
end

