-- ==== Sys2Proof/Machine/Search.lean ====
section
/-! DEFINITION. The SEARCH words: markers, backtracking, offers and adoption, the swatch descriptor (08 R241 to R249,
10 R283 to R287), and UNIFY, whose `.f` form ends in FAIL. -/

namespace Sys2Proof.Machine

/-! ### Markers (08 R241) -/

/-- TAKEN. -/
def mkTaken (w0 : W64) : Bool := w0.getLsbD 32
/-- OFFERED. -/
def mkOffered (w0 : W64) : Bool := w0.getLsbD 33
/-- BUSY. -/
def mkBusy (w0 : W64) : Bool := w0.getLsbD 34
/-- The flags as a number: BUSY, OFFERED, TAKEN from the top. -/
def mkFlags (w0 : W64) : BitVec 3 := w0.extractLsb' 32 3

/-- Replace the flags of a marker. -/
def withFlags (w0 : W64) (f : BitVec 3) : W64 := (w0 &&& ~~~(7 <<< 32 : W64)) ||| (f.setWidth 64 <<< 32)

/-- A PC from a byte offset; a PC is a word address (01 R17). -/
def altPc (entry : BitVec 57) (alt : BitVec 32) : BitVec 57 := ((entry + alt.setWidth 57) >>> 3) <<< 3

/-- Write a register of a lane, whose result is of variable latency (02 R43). -/
def tmReg (k : Nat) (r : Reg) (v : W64) : TM Unit := do
  tmSetLane k fun l => l.setReg r v false
  modify fun s => s.updCur fun g => { g with sb := g.sb ||| ((1 : W64) <<< r.toNat) }

/-- Restore the saved registers of a marker, with taint 0 (08 R245). -/
def restoreRegs (k : Nat) (m w0 : W64) : Nat → TM Unit
  | 0 => pure ()
  | n + 1 => do
    restoreRegs k m w0 n
    let v ← tmLoad k (m + BitVec.ofNat 64 (24 + 8 * n))
    tmReg k (w0.extractLsb' 40 6 + BitVec.ofNat 6 n) v

/-! ### FAIL (08 R245) -/

/-- FAIL on an empty stack: every binding is undone, and the lane goes to FEX or retires. Bits [2:0] of FEX are ignored, also
for the test of 0 (01 R25). -/
def failExhausted (k : Nat) : TM (Option (BitVec 57)) := do
  let l ← tmLane k
  undoTo k l.sw.trailB
  tmSetLane k fun x => { x with tt := x.sw.trailB, ht := x.sw.heapB }
  let q ← tmCur
  pure (if q.grp.fex >>> 3 = 0 then none else some (altPc q.blk.entry q.grp.fex))

/-- The loop of FAIL over the markers of a lane. -/
def failLoop (k : Nat) : Nat → TM (Option (BitVec 57))
  | 0 => failExhausted k
  | n + 1 => do
    let l ← tmLane k
    if l.mt = l.sw.markB then failExhausted k
    else
      let m := l.mt - 64
      let w0 ← tmLoad k m
      if mkBusy w0 then throw (.busy m)
      else if mkTaken w0 then
        tmSetLane k fun x => { x with mt := m }
        failLoop k n
      else
        if mkOffered w0 then tmStore k m (withFlags w0 3)
        let w1 ← tmLoad k (m + 8)
        let tt := l.sw.trailB + (w1.extractLsb' 0 32).setWidth 64
        undoTo k tt
        tmSetLane k fun x => { x with tt := tt, ht := x.sw.heapB + (w1.extractLsb' 32 32).setWidth 64 }
        restoreRegs k m w0 5
        tmSetLane k fun x => { x with mt := m }
        let q ← tmCur
        modify fun s => s.updCur fun g => { g with perfFails := g.perfFails + 1 }
        pure (some (altPc q.blk.entry (w0.extractLsb' 0 32)))

/-- FAIL in a lane. -/
def tmFail (k : Nat) : TM (Option (BitVec 57)) := do
  let l ← tmLane k
  if l.unset then tmFault k .markerOverflow
  failLoop k ((l.mt.toNat - l.sw.markB.toNat) / 64 + 1)

/-- The next PCs that a word gives some of its lanes; the others go on. -/
def nextOf (pc : BitVec 57) (l : List (Nat × Option (BitVec 57))) (k : Nat) : Option (BitVec 57) :=
  match l.find? fun p => p.1 == k with
  | some p => p.2
  | none => some (pcNext pc)

/-- Backtracks to the newest untaken marker, undoing the trail, or exits through FEX (R245). -/
def execFailW (c : Ctl) (s : State) : Out :=
  withCur s fun q =>
    match (tmLanes tmFail (q.active c)).run s with
    | (.ok l, s1) => .next (s.route q s1 (nextOf q.pc l))
    | (.error x, _) => .next (stopWord s q x)

/-- Unifies two terms through the push-down list, up to 64 pairs per issue, reissuing itself until done (R237). -/
def execUnify (c : Ctl) (o : PUnify) (s : State) : Out :=
  withCur s fun q =>
    let lanes := (q.active c).filter fun k => !q.done.getLsbD k
    let r := unifyLanes o lanes s
    withCur r.2.2 fun q1 =>
      match r.1 with
      | some x => .next (stopWord r.2.2 q1 x)
      | none =>
        if r.2.1 then .next (r.2.2.waitSlot q1 .none)
        else
          let bad := (q1.grp.pcSlot q1.slot).bad
          match (tmLanes tmFail ((List.range 32).filter fun k => bad.getLsbD k)).run r.2.2 with
          | (.ok l, s1) => .next (r.2.2.route q1 s1 (nextOf q.pc l))
          | (.error x, _) => .next (stopWord r.2.2 q1 x)

/-! ### TRY, TRUST and CUT (08 R244, R246) -/

/-- How many of the first `n` overlay entries of a lane are VALID. -/
def ovCount (k : Nat) (l : Lane) : Nat → TM Nat
  | 0 => pure 0
  | n + 1 => do
    let w0 ← tmLoad k (l.ovEntry n)
    let r ← ovCount k l n
    pure (if ovValid w0 then r + 1 else r)

/-- Store words from an address upward. -/
def tmStores (k : Nat) (a : W64) : List W64 → TM Unit
  | [] => pure ()
  | w :: l => do
    tmStore k a w
    tmStores k (a + 8) l

/-- TRY in a lane. -/
def tmTry (q : Cur) (r : Reg) (off : BitVec 18) (k : Nat) : TM Unit := do
  let l ← tmLane k
  if l.sw.markL.toNat < l.mt.toNat + 64 then tmFault k .markerOverflow
  let alt : Int := (q.pc.toNat : Int) + 8 * off.toInt - (q.blk.entry.toNat : Int)
  if alt < 0 ∨ 2 ^ 32 ≤ alt then tmFault k .illegalInstr
  let ovc ← ovCount k l l.ovSize
  let w0 : W64 := (0 : BitVec 18) ++ r ++ (0 : BitVec 8) ++ BitVec.ofInt 32 alt
  let w1 : W64 := (l.ht - l.sw.heapB).setWidth 32 ++ (l.tt - l.sw.trailB).setWidth 32
  let w2 : W64 := (0 : BitVec 22) ++ BitVec.ofNat 5 q.gi ++ BitVec.ofNat 5 k ++ BitVec.ofNat 32 ovc
  tmStores k l.mt (w0 :: w1 :: w2 :: (List.range 5).map fun i => l.reg (r + BitVec.ofNat 6 i))
  tmSetLane k fun x => { x with mt := x.mt + 64 }

/-- A SEARCH word that writes no register and goes on to the next word. -/
def searchWord (s : State) (c : Ctl) (f : Cur → Nat → TM Unit) : Out :=
  termWord s c f fun s q _ => s.finish q q.blk.st q.grp

/-- Pushes a marker saving five registers and an alternative (R244). -/
def execTryM (c : Ctl) (o : STry) (s : State) : Out := searchWord s c fun q k => tmTry q o.k o.off k

/-- Pop the top marker of a lane: an OFFERED one is withdrawn first (08 R246). -/
def popMarker (k : Nat) : TM Unit := do
  let l ← tmLane k
  let m := l.mt - 64
  let w0 ← tmLoad k m
  if mkBusy w0 then throw (.busy m)
  if mkFlags w0 = 2 then tmStore k m (withFlags w0 3)
  tmSetLane k fun x => { x with mt := m }

/-- Pops the top marker without jumping, withdrawing an offer (R246). -/
def execTrust (c : Ctl) (s : State) : Out :=
  searchWord s c fun _ k => do
    let l ← tmLane k
    if l.unset then tmFault k .markerOverflow
    if l.mt ≠ l.sw.markB then popMarker k

/-- Pop a number of markers. -/
def popMarkers (k : Nat) : Nat → TM Unit
  | 0 => pure ()
  | n + 1 => do
    popMarker k
    popMarkers k n

/-- Pops markers down to a given level (R246). -/
def execCut (c : Ctl) (a : Opnd) (s : State) : Out :=
  searchWord s c fun q k => do
    let l ← tmLane k
    let v := q.grp.opnd Rd.raw a k
    if v.toNat % 64 ≠ 0 then tmFault k .misaligned v
    if l.unset ∨ v.toNat < l.sw.markB.toNat ∨ l.mt.toNat < v.toNat then tmFault k .markerOverflow
    popMarkers k ((l.mt.toNat - v.toNat) / 64)

/-! ### OFFER and ADOPT (08 R247, R248) -/

/-- Change the offer board of the issuing block. -/
def tmBoard (f : List BoardEnt → List BoardEnt) : TM Unit := do
  let q ← tmCur
  modify fun s => s.putSt q { q.blk.st with board := f q.blk.st.board }

/-- Offer markers from the oldest upward: `n` markers are left, `want` may still be offered. -/
def offerLoop (q0 : Cur) (k : Nat) : Nat → W64 → Nat → TM Unit
  | 0, _, _ => pure ()
  | n + 1, m, want => do
    let q ← tmCur
    if want = 0 ∨ 64 ≤ q.blk.st.board.length then pure ()
    else
      let w0 ← tmLoad k m
      if mkTaken w0 ∨ mkOffered w0 then offerLoop q0 k n (m + 64) want
      else
        tmStore k m (withFlags w0 (mkFlags w0 ||| 2))
        let e : BoardEnt := ⟨BitVec.ofNat 5 q0.gi, BitVec.ofNat 5 k, (m - BitVec.ofNat 64 windowBase).setWidth 21⟩
        tmBoard fun b => b ++ [e]
        modify fun s => if q.blk.pair then s.crosses q (.offer e) else s
        offerLoop q0 k n (m + 64) (want - 1)

/-- The marker stack of a lane lies in the scratch window (08 R247). -/
def Lane.stackInside (l : Lane) : Bool := inWindow l.sw.markB && decide (l.sw.markL.toNat ≤ windowBase + 2 ^ 21)

/-- OFFER in a lane. -/
def tmOffer (q : Cur) (k : Nat) (want : Nat) : TM Unit := do
  let l ← tmLane k
  if !l.stackInside then tmFault k .scratchRange l.sw.markB
  offerLoop q k ((l.mt.toNat - l.sw.markB.toNat) / 64) l.sw.markB want

/-- Posts the lane's oldest untaken markers on the block's offer board (R247). The place of the marker stacks is checked before the
release. -/
def execOffer (c : Ctl) (a : Opnd) (s : State) : Out :=
  withCur s fun q =>
    match (q.active c).find? fun k => !(q.grp.lane k).stackInside with
    | some k => .next (s.takeFault q { code := .scratchRange, lane := k, ea := (q.grp.lane k).sw.markB })
    | none => termRelease s q c <| searchWord s c fun q k => tmOffer q k (q.grp.opnd Rd.raw a k).toNat

/-- A term word that points into a lane's heap (08 R248). -/
def intoHeap (l : Lane) (v : W64) : Bool :=
  [tSTR, tLST, tREF, tVAR, tSVAR, tTEN].contains (tagOf v) &&
    decide (l.sw.heapB.toNat ≤ (ptrOf v).toNat ∧ (ptrOf v).toNat < l.sw.heapL.toNat)

/-- The bindings of the donor `d` in its trail from an address, oldest first: key and value of each KIND 1 entry. The values are term words
(08 R232). -/
def travelling (k : Nat) (d : Lane) : Nat → W64 → TM (List (W64 × W64))
  | 0, _ => pure []
  | n + 1, a => do
    let t ← tmLoad k a
    let r : List (W64 × W64) ←
      if t.getLsbD 63 then do
        let w0 ← tmLoad k (ptrOf t)
        let v ← tmLoad k (ptrOf t + 8)
        if badTag v then tmFault k .termTag
        pure [(ptrOf w0, v)]
      else pure []
    let more ← travelling k d n (a + 8)
    pure (r ++ more)

/-- Bind the travelling bindings in the adopter's overlay. -/
def bindAll (k : Nat) : List (W64 × W64) → TM Unit
  | [] => pure ()
  | b :: l => do
    tmBind k (mkTerm tSVAR b.1) b.2
    bindAll k l

/-- Take over the alternative of an offered marker (08 R248). -/
def adoptFrom (k : Nat) (d : Lane) (m w0 : W64) : TM (BitVec 57) := do
  let w1 ← tmLoad k (m + 8)
  let bs ← travelling k d ((w1.extractLsb' 0 32).toNat / 8) d.sw.trailB
  if bs.any fun b => intoHeap d b.2 then tmFault k .adoptPrivate m
  let l ← tmLane k
  if l.unset then tmFault k .trailOverflow
  undoTo k l.sw.trailB
  tmSetLane k fun x => { x with tt := x.sw.trailB, ht := x.sw.heapB, mt := x.sw.markB }
  bindAll k bs
  restoreRegs k m w0 5
  tmStore k m (withFlags w0 3)
  let q ← tmCur
  modify fun s => s.putSt q { q.blk.st with adopts := q.blk.st.adopts + 1 }
  pure (altPc q.blk.entry (w0.extractLsb' 0 32))

/-- ADOPT in a lane: offers of other lanes, oldest first, until one is taken. -/
def adoptLoop (gi k : Nat) : Nat → TM (Option (BitVec 57))
  | 0 => pure none
  | n + 1 => do
    let q ← tmCur
    match q.blk.st.board.find? fun e => !(e.grp.toNat == gi && e.lane.toNat == k) && !q.blk.st.offerHeld q.co e with
    | none => pure none
    | some e =>
      tmBoard fun b => b.erase e
      let m := BitVec.ofNat 64 windowBase + e.mofs.setWidth 64
      let w0 ← tmLoad k m
      if mkFlags w0 ≠ 2 then adoptLoop gi k n
      else
        match q.blk.st.groups[e.grp.toNat]? with
        | none => adoptLoop gi k n
        | some g =>
          let pc ← adoptFrom k (g.lane e.lane.toNat) m w0
          pure (some pc)

/-- ADOPT_PRIVATE: the entry has left the board, and the marker returns to its donor untaken (08 R248). The entries that the loop passed
before it stay on the board, since a precise fault changes nothing (10 R284, 17 R362; log 120). -/
def State.adoptPrivate (s : State) (q : Cur) (f : FaultInfo) : State :=
  let off := f.ea.toNat - windowBase
  let st := { q.blk.st with
    board := match q.blk.st.board.find? fun (e : BoardEnt) => e.mofs.toNat == off && !(e.grp.toNat == q.gi && e.lane.toNat == f.lane) && !q.blk.st.offerHeld q.co e with
      | some e => q.blk.st.board.erase e
      | none => q.blk.st.board }
  let st1 := st.writeScratch off (leBytes (withFlags (st.sword off) 0).toNat 8)
  let s0 := s.putSt q st1
  let s1 := if q.reaches off 8 then s0.crosses q (.bytes off 8) else s0
  match s1.cur? with
  | some q1 => s1.takeFault q1 { f with ea := 0 }
  | none => s1

/-- Takes an offered alternative from the board, copying the donor's shared bindings and saved registers (R248). -/
def execAdopt (c : Ctl) (p : BitVec 3) (s : State) : Out :=
  withCur s fun q =>
    match (tmLanes (fun k => adoptLoop q.gi k 64) (q.active c)).run s with
    | (.ok l, s1) =>
      let s2 := s1.updCur fun g => (g.mapLanes fun k x =>
        match l.find? fun (r : Nat × Option (BitVec 57)) => r.1 == k with
        | some r => x.setPred p r.2.isSome
        | none => x).holdPreds (predName p)
      .next (s.route q s2 (nextOf q.pc (l.filter fun r => r.2.isSome)))
    | (.error (.fault f), _) =>
      if f.code = .adoptPrivate ∧ q.blk.spec.isNone then .next (s.adoptPrivate q f) else .next (s.takeFault q f)
    | (.error x, _) => .next (stopWord s q x)

/-! ### OVLCFG (08 R242) -/

/-- Read words from an address upward. -/
def tmLoads (k : Nat) (a : W64) : Nat → TM (List W64)
  | 0 => pure []
  | n + 1 => do
    let w ← tmLoad k a
    let r ← tmLoads k (a + 8) n
    pure (w :: r)

/-- The check of a region: base and limit aligned, the limit not below the base (08 R242). -/
def checkRegion (k align : Nat) (base limit : W64) : TM Unit := do
  if base.toNat % align ≠ 0 then tmFault k .misaligned base
  if limit.toNat % align ≠ 0 then tmFault k .misaligned limit
  if limit.toNat < base.toNat then tmFault k .reservedField

/-- Read and check the descriptor of a lane (08 R242). -/
def tmSwatch (k : Nat) (a : W64) : TM Swatch := do
  let w ← tmLoads k a 10
  let x := fun (i : Nat) => w.getD i 0
  if (x 0).toNat % 16 ≠ 0 then tmFault k .misaligned (x 0)
  if (x 1).extractLsb' 4 28 ≠ 0 then tmFault k .reservedField
  if ((x 1).extractLsb' 0 4).toNat < 4 ∨ 10 < ((x 1).extractLsb' 0 4).toNat then tmFault k .reservedField
  checkRegion k 8 (x 2) (x 3)
  checkRegion k 64 (x 4) (x 5)
  checkRegion k 8 (x 6) (x 7)
  checkRegion k 16 (x 8) (x 9)
  pure ⟨x 0, x 1, x 2, x 3, x 4, x 5, x 6, x 7, x 8, x 9⟩

/-- The markers of a lane's stack that do not lie in the block's scratch (10 R277). -/
def farMarkers (size : Nat) (l : Lane) : List W64 := l.markers.filter fun a => !inScratch size a

/-- Wait while a marker among these is BUSY (10 R286). -/
def farIdle (k : Nat) : List W64 → TM Unit
  | [] => pure ()
  | a :: l => do
    if mkBusy (← tmLoad k a) then throw (.busy a)
    farIdle k l

/-- Retires the executing lanes; retiring the last lane of a group retires the group (R224). A lane waits while a marker of its
stack is BUSY (10 R286). -/
def execExitW (c : Ctl) (s : State) : Out :=
  withCur s fun q =>
    match (q.active c).findSome? fun k => busyMarker q.blk.st q.blk.scratchSize (q.grp.lane k) with
    | some a => .next (s.waitSlot q (.busy a))
    | none =>
      match (tmLanes (fun k => farIdle k (farMarkers q.blk.scratchSize (q.grp.lane k))) (q.active c)).run s with
      | (.ok _, s1) => flowWord s1 c (fun q => q.grp) fun _ _ => none
      | (.error x, _) => .next (stopWord s q x)

/-- Load a checked descriptor into a lane (08 R242, 10 R286). -/
def tmConfigure (gi : Nat) (size : Nat) : List (Nat × Swatch) → TM Unit
  | [] => pure ()
  | p :: rest => do
    let q ← tmCur
    if let some a := busyMarker q.blk.st size (q.grp.lane p.1) then throw (.busy a)
    farIdle p.1 (farMarkers size (q.grp.lane p.1))
    tmStores p.1 p.2.ovl (List.replicate (2 * 2 ^ (p.2.w1.extractLsb' 0 4).toNat) 0)
    tmSetLane p.1 fun l => { l with sw := p.2, tt := p.2.trailB, ht := p.2.heapB, mt := p.2.markB, upd := 0, pdlHi := 0 }
    tmBoard fun b => b.filter fun e => !(e.grp.toNat == gi && e.lane.toNat == p.1)
    tmConfigure gi size rest

/-- Loads a lane's swatch descriptor, clears the overlay and resets trail, heap and marker tops (R242). -/
def execOvlcfg (c : Ctl) (a : Opnd) (s : State) : Out :=
  withCur s fun q =>
    match (do
      let l ← tmLanes (fun k => tmSwatch k (q.grp.opnd Rd.raw a k)) (q.active c)
      tmConfigure q.gi q.blk.scratchSize l
      pure l : TM (List (Nat × Swatch))).run s with
    | (.ok l, s1) =>
      withCur s1 fun q1 =>
        let g := match l with
          | [] => q1.grp
          | p :: _ => { q1.grp with fex := p.2.w1.extractLsb' 32 32 }
        .next (s1.finish q1 q1.blk.st g)
    | (.error x, _) => .next (stopWord s q x)

end Sys2Proof.Machine
end

