-- ==== Sys2Proof/Machine/Issue.lean ====
section
/-! DEFINITION. Fetching and decoding a word, the choice of the word that a core issues, and what issue does around a
word (02 R42 to R44, R64, 08 R218 to R220, 09 R263 to R269). -/

namespace Sys2Proof.Machine

/-! ### Fetch and decode -/

/-- The word at a PC in the cluster's instruction cache, and whether its sector is poisoned; none on a miss (09 R268). -/
def State.wordAt (s : State) (b : Block) (pc : BitVec 57) : Option (W64 × Bool) :=
  (s.ms.icache.get? (icKey b.cl b.asid pc)).map fun l =>
    (l.1.getD (pc.toNat % 256 / 8) 0, l.2.getLsbD (pc.toNat % 256 / 64))

/-- The fault code of a decode fault. -/
def faultOf : DecodeFault → FaultCode
  | .illegalInstr => .illegalInstr
  | .reservedField => .reservedField

/-- The decode checks in their order, for a block with a register count (02 R64). -/
def decoded (nregs : Nat) (w : W64) : Except FaultCode Instr :=
  match decodeBytes (wordBytes w) with
  | .error e => .error (faultOf e)
  | .ok i =>
    if !i.regsBelow nregs || !i.spansAligned then .error .illegalInstr
    else if !i.pairOk then .error .illegalPair
    else .ok i

/-- STALL of a word (02 R42, R45). -/
def stallOf (w : W64) : Nat := if w.getLsbD 63 then (w.extractLsb' 0 3).toNat else (FW.ofWord w).stall.toNat

/-- YLD of a word (02 R44). -/
def yldOf (w : W64) : Bool := !w.getLsbD 63 && (FW.ofWord w).yld == 1

/-- What a word of a group reads, its latches read through (01 R20). -/
def Group.reads (g : Group) (i : Instr) (w : W64) : List Nat :=
  (wordReads i w).filterMap fun n => if n < 128 then some n else (g.latch (BitVec.ofNat 2 n)).map BitVec.toNat

/-! ### Whether an entry can issue (09 R265) -/

/-- How an entry stands. -/
inductive SlotStat where
  | empty
  /-- It waits at a JOIN, a BAR or a REGROUP. -/
  | waits
  /-- It waits for something else. -/
  | held
  /-- Its word is not in the instruction cache. -/
  | miss
  /-- An operand is not ready (02 R42). -/
  | slip
  | ready
  deriving DecidableEq, Repr

/-- Whether a marker is BUSY as a group would read it now; what cannot be read so is looked at by the word itself (10 R286). -/
def State.busyAt (s : State) (b : Block) (gi : Nat) (m : W64) : Bool :=
  if inScratch b.scratchSize m then (b.st.sword (m.toNat - windowBase)).getLsbD 34
  else
    match s.ms.walk (s.root b.asid) m with
    | none => false
    | some leaf =>
      let p := placeOf s.fab.chip leaf (leafPa leaf m)
      p.chip?.isNone && (BitVec.ofNat 64 (leNat (s.sees b gi m (leafPa leaf m)
        (s.ms.readAt b.cl none p true true (leafPa leaf m) 8).1))).getLsbD 34

/-- Whether a wait inside a word lets the word go on now. -/
def State.goes (s : State) (b : Block) (gi : Nat) (w : SWait) : Bool :=
  match w with
  | .none => true
  | .resume => true
  | .waitphGo => true
  | .between => true
  | .waitcCheck _ => true
  | .waitcLeave _ => true
  | .busy m => !s.busyAt b gi m
  | .drained => true
  | .farGo _ => true
  | _ => false

/-- A wait of a slot that makes its whole group not ready (06 R169, R176, 07 R191, R208, 17 R359; log 46). -/
def SWait.stopsGroup : SWait → Bool
  | .waitc _ => true
  | .waitph => true
  | .batch => true
  | .copySlot => true
  | .walk _ _ _ _ => true
  | _ => false

/-- The entry waits at its word, by the rules of JOIN, BAR and REGROUP. -/
def entryWaits (b : Block) (g : Group) (slot : Bool) (i : Instr) : Bool :=
  let m := (g.pcSlot slot).e.mask
  match i with
  | .join _ _ => !joinPasses b.st g slot
  | .bar _ k => m &&& ~~~(g.waiting k.toNat) == 0
  | .regroup _ _ => m &&& ~~~g.regWait == 0
  | _ => false

/-- How the entry of a slot stands. -/
def State.slotStat (s : State) (b : Block) (gi : Nat) (g : Group) (slot : Bool) : SlotStat :=
  let p := g.pcSlot slot
  if p.e.mask = 0 then .empty
  else if !s.goes b gi p.wait then .held
  else
    match s.wordAt b p.e.pc with
    | none => .miss
    | some (w, _) =>
      match decoded b.nregs w with
      | .error _ => .ready
      | .ok i =>
        if entryWaits b g slot i then .waits
        else if (g.reads i w).any fun n => g.outstanding n || g.pending (s.clk b.cl) n then .slip
        else if (i.regs ++ (fixedResults w).map (fun x => x.1) ++ varPreds i).any g.outstanding then .held
        else if decide (g.acqPend ≠ 0) && makesAccesses w then .held
        else .ready

/-- Whether an access of a group to another chip, due to leave, finds no room (19 R394). -/
def State.noRoom (s : State) (b : Block) (id gi : Nat) : Bool :=
  (s.core b.cl (b.coreOf gi)).held.any fun h =>
    h.blk == id && h.grp == gi && decide (h.issued + 160 ≤ s.clk b.cl) && !s.outRoom h

/-- A group that may go on: not parked, not retired, neither slot in a wait of the whole group, and room for its accesses of other
chips. -/
def State.groupFree (s : State) (b : Block) (id gi : Nat) (g : Group) : Bool :=
  !g.retired && g.park == .none && !g.slot0.wait.stopsGroup && !g.slot1.wait.stopsGroup && !s.noRoom b id gi

/-- A group that may issue: its block is not stopping. -/
def State.groupOpen (s : State) (b : Block) (id gi : Nat) (g : Group) : Bool := s.groupFree b id gi g && b.stopping == .none

/-- A sweep in progress has this slot. -/
def Group.sweeps (g : Group) (slot : Bool) : Bool := g.sweep.any fun x => x.1 == slot

/-- Whether the word of a slot has issued and completes before a pre-emption (08 R255, 17 R369): the waits of the table of 17 R371
reissue or are saved, a sweep stops before its next element (07 R216), and so does a wait for a batch that nothing closes while the
block is stopping. -/
def Group.mustEnd (g : Group) (st : BlkState) (slot : Bool) : Bool :=
  !g.sweeps slot &&
    (match (g.pcSlot slot).wait with
      | .resume => (g.pcSlot slot).plans.isEmpty
      | .coinit => true
      | .drain _ _ => true
      | .drained => true
      | .held => st.groups.all fun h => h.batches.all fun t => t.closed
      | .far _ => true
      | .farGo _ => (g.pcSlot slot).plans.isEmpty
      | .walk _ _ _ _ => true
      | _ => false)

/-- Whether a word of a group must end before its block is saved. -/
def BlkState.mustEnd (st : BlkState) : Bool := st.groups.any fun g => g.mustEnd st false || g.mustEnd st true

/-- The block is pre-empted, and a word of a group of it in a slot must end first: whatever the other slot waits for, it goes on. -/
def Block.ends (b : Block) (g : Group) (slot : Bool) : Bool :=
  (match b.stopping with
    | .preempt _ => true
    | _ => false) && !g.retired && g.park == .none && g.mustEnd b.st slot

/-- The slot that issues next, of those that are ready (09 R263); during a sweep only the sweep's slot. -/
def pickSlot (g : Group) (r0 r1 : Bool) : Option Bool :=
  match g.sweep with
  | some (slot, _) => if (if slot then r1 else r0) then some slot else none
  | none =>
    if r0 && r1 then some (!g.lastSlot)
    else if r0 then some false
    else if r1 then some true
    else none

/-! ### The exchange (08 R220) -/

/-- The stack entry with the smallest PC, the newest of equals. -/
def leastEntry : List Entry → Option Entry
  | [] => none
  | e :: l =>
    match leastEntry l with
    | some f => if f.pc < e.pc then some f else some e
    | none => some e

/-- Exchange the waiting slot entry with the larger PC for the stack entry with the smallest. -/
def exchange (st : BlkState) (g : Group) : BlkState × Group :=
  let l := st.stack g
  match leastEntry l with
  | none => (st, g)
  | some e =>
    let slot := g.slot0.e.mask == 0 || (g.slot1.e.mask != 0 && decide (g.slot0.e.pc < g.slot1.e.pc))
    let out := (g.pcSlot slot).e
    let rest := l.erase e
    let pushed := match rest with
      | f :: more => if f.pc = out.pc then { f with mask := f.mask ||| out.mask } :: more else out :: f :: more
      | [] => [out]
    let x := writeStack st g pushed
    let g1 := x.2.setSlot slot (slotAt e)
    (x.1, settle x.1 g1)

/-! ### The turn of a core -/

/-- The groups on a core: block, block number, group number, group. -/
def State.groupsOn (s : State) (cl co : Nat) : List (Nat × Block × Nat × Group) :=
  (s.blocks.filter fun p => p.2.cl == cl).flatMap fun p =>
    (p.2.st.groups.zipIdx.filter fun x => p.2.coreOf x.2 == co).map fun x => (p.1, p.2, x.2, x.1)

/-- Change a group and the state of its block, as the issue logic does. -/
def State.mapGroup (s : State) (id gi : Nat) (f : BlkState → Group → BlkState × Group) : State :=
  match s.blocks.get? id with
  | none => s
  | some b =>
    match b.st.groups[gi]? with
    | none => s
    | some g =>
      let r := f b.st g
      s.setBlock id { b with st := r.1.setGroup gi r.2 }

/-- The word of a slot is held: its slip counts once, however long the hold (02 R42, 08 R253, 09 R269). -/
def State.countSlip (s : State) (id : Nat) (gi : Nat) (g : Group) (slot : Bool) : State :=
  if (g.pcSlot slot).slip then s
  else
    (s.mapGroup id gi fun st h => (st, h.setSlot slot { h.pcSlot slot with slip := true })).tallied id gi ⟨1, 0, 0⟩

/-- A group misses the line of the next word of a slot (09 R269). -/
def State.icMissed (s : State) (id : Nat) (b : Block) (gi : Nat) (g : Group) (slot : Bool) : State :=
  let s1 := (s.countSlip id gi g slot).mapGroup id gi fun st h => (st, { h with park := .icache (h.pcSlot slot).e.pc })
  let c := s1.cluster b.cl
  s1.setCluster b.cl { c with icMiss := c.icMiss.put b.perfKey (c.icMiss.getD b.perfKey 0 + 1) }

/-- What comes before the choice: a REGROUP that can act, exchanges, instruction-cache misses and slips (08 R220, R226,
09 R269, 02 R42). -/
def State.readyCore (s : State) (cl co : Nat) : State :=
  let s0 := ((s.groupsOn cl co).map fun x => x.1).eraseDups.foldl (fun a id => a.regroupNow id co) s
  (s0.groupsOn cl co).foldl (fun a x =>
    let b := x.2.1
    let g := x.2.2.2
    if !s0.groupOpen b x.1 x.2.2.1 g then
      match [false, true].find? fun slot => b.ends g slot && s0.slotStat b x.2.2.1 g slot == .miss with
      | some slot => a.icMissed x.1 b x.2.2.1 g slot
      | none => a
    else
      let t0 := s0.slotStat b x.2.2.1 g false
      let t1 := s0.slotStat b x.2.2.1 g true
      let stuck := fun (t : SlotStat) => t == .waits || t == .empty
      let slip := fun (a : State) (t : SlotStat) (slot : Bool) => if t = .slip then a.countSlip x.1 x.2.2.1 g slot else a
      if stuck t0 && stuck t1 && !(t0 == .empty && t1 == .empty) && decide (g.depth ≠ 0) then
        a.mapGroup x.1 x.2.2.1 exchange
      else if t0 == .miss then a.icMissed x.1 b x.2.2.1 g false
      else if t1 == .miss then a.icMissed x.1 b x.2.2.1 g true
      else if decide (g.stallUntil ≤ s.clk cl) then slip (slip a t0 false) t1 true
      else a) s0

/-- A group that could issue its next word now. -/
structure Cand where
  id : Nat
  gi : Nat
  slot : Bool
  asid : Nat
  order : Nat
  waited : Nat
  demoted : Bool
  yielded : Bool
  /-- The group is of a speculation. -/
  spec : Option Nat
  deriving DecidableEq, Repr

/-- The ready groups of a core: of each, the slot that would issue next. -/
def State.cands (s : State) (cl co : Nat) : List Cand :=
  (s.groupsOn cl co).filterMap fun x =>
    let b := x.2.1
    let g := x.2.2.2
    if s.groupOpen b x.1 x.2.2.1 g && decide (g.stallUntil ≤ s.clk cl) then
      (pickSlot g (s.slotStat b x.2.2.1 g false == .ready) (s.slotStat b x.2.2.1 g true == .ready)).map fun slot =>
        ⟨x.1, x.2.2.1, slot, b.asid, 32 * b.order + x.2.2.1, g.readyFor, g.demotedAt == s.clk cl, g.yielded, b.spec⟩
    else none

/-- The first word in progress on a core that waited and can go on. It has issued: going on takes no issue slot, and is no issue for
any count (08 R253, 19 R401). -/
def State.goingOn (s : State) (cl co : Nat) : Option Focus :=
  (s.groupsOn cl co).findSome? fun x =>
    let b := x.2.1
    let g := x.2.2.2
    let can := fun (slot : Bool) => (g.pcSlot slot).wait != .none && s.slotStat b x.2.2.1 g slot == .ready
    let slot := if s.groupOpen b x.1 x.2.2.1 g then pickSlot g (can false) (can true)
      else [false, true].find? fun slot => b.ends g slot && can slot
    slot.map fun slot => ⟨x.1, x.2.2.1, slot⟩

/-- The budget of a context in a cluster (09 R267). -/
def State.budget (s : State) (cl asid : Nat) : Budget := (s.cluster cl).budgets.getD asid ⟨0, 524288, 0, 0⟩

/-- The first of a list under an order. -/
def firstBy (better : Cand → Cand → Bool) : List Cand → Option Cand
  | [] => none
  | c :: l =>
    match firstBy better l with
    | some d => if better d c then some d else some c
    | none => some c

/-- The oldest that is not demoted, or, if all are, the oldest (02 R44, 09 R266). -/
def oldest (l : List Cand) : Option Cand :=
  let older := fun (c d : Cand) => decide (c.order < d.order)
  match firstBy older (l.filter fun c => !c.demoted) with
  | some c => some c
  | none => firstBy older l

/-- Whether the context of a group is under its ceiling; a speculation takes none of its slots yet (09 R267, 16 R343). -/
def State.underCeil (s : State) (cl : Nat) (c : Cand) : Bool :=
  c.spec.isSome || decide ((s.budget cl c.asid).used < (s.budget cl c.asid).ceil)

/-- The choice of 09 R266 among groups of real work. Of overdue groups that have waited equally long it is the first in the order of
block numbers and groups (log 97). -/
def State.chooseReal (s : State) (cl : Nat) (l : List Cand) : Option Cand :=
  let e := l.filter (s.underCeil cl)
  let r := e.filter fun c => decide ((s.budget cl c.asid).used < (s.budget cl c.asid).res)
  let p := if r.isEmpty then e else r
  match firstBy (fun c d => decide (d.waited < c.waited)) (p.filter fun c => decide (4096 ≤ c.waited)) with
  | some c => some c
  | none => oldest p

/-- The ready groups without those that yielded, which are not ready for this slot if another group is (08 R254; log 47). -/
def notYielded (l : List Cand) : List Cand := if l.all fun c => c.yielded then l else l.filter fun c => !c.yielded

/-- The choice of a core among its ready groups; a speculation takes what no real group takes (16 R343). -/
def State.choose (s : State) (cl : Nat) (l : List Cand) : Option Cand :=
  match s.chooseReal cl (l.filter fun c => c.spec.isNone) with
  | some c => some c
  | none => oldest (l.filter fun c => c.spec.isSome)

/-- The slot that a choice takes is charged: to the context's budget word (09 R267), or, for a speculation, to what its
claim will charge (16 R343, R351). -/
def State.chargeSlot (s : State) (cl : Nat) (c : Cand) : State :=
  match c.spec with
  | none =>
    let x := s.cluster cl
    let u := s.budget cl c.asid
    s.setCluster cl { x with budgets := x.budgets.put c.asid { u with used := u.used + 1 } }
  | some n =>
    match s.qs.specs.get? n with
    | some y =>
      let z := { y with charge := y.charge.put cl (y.charge.getD cl 0 + 1) }
      { s with qs := { s.qs with specs := s.qs.specs.put n z } }
    | none => s

/-- A word of a launch issues in this cycle (19 R401, 21 R420). -/
def State.launchIssued (s : State) (l : Nat) : State :=
  match s.qs.launches.get? l with
  | some x => { s with qs := { s.qs with launches := s.qs.launches.put l { x with issued := true } } }
  | none => s

/-- A core takes its issue slot: its choice is in focus (09 R266). A YIELD holds its group back from this one slot only (08 R254): it is
not ready then, and a group of a context at its ceiling is not counted as ready either (09 R267). -/
def State.takeSlot (s : State) (cl co : Nat) : State :=
  let l := notYielded (s.cands cl co)
  let pick := s.choose cl l
  let s0 := (s.groupsOn cl co).foldl (fun a x => a.mapGroup x.1 x.2.2.1 fun st g => (st, { g with yielded := false })) s
  let s1 := (l.filter (s.underCeil cl)).foldl (fun a c => a.mapGroup c.id c.gi fun st g =>
    (st, if pick = some c then { g with readyFor := 0, lastSlot := c.slot } else { g with readyFor := g.readyFor + 1 })) s0
  match pick with
  | none => s1
  | some c =>
    let launch := match s1.blocks.get? c.id with
      | some b => b.launch
      | none => 0
    { (s1.chargeSlot cl c).launchIssued launch with focus := some ⟨c.id, c.gi, c.slot⟩ }

/-! ### The watchdog (19 R401, 21 R420) -/

/-- Whether a group waits for a host reply. -/
def State.waitsHost (s : State) (id gi : Nat) (g : Group) : Bool :=
  (match g.park with
    | .fault _ _ _ => true
    | _ => false) && s.faultQ.any fun p => p.who == .group id gi

/-- The registers and predicates that the next word of a slot waits for. -/
def State.slotNeeds (s : State) (b : Block) (g : Group) (slot : Bool) : List Nat :=
  match s.wordAt b (g.pcSlot slot).e.pc with
  | none => []
  | some (w, _) =>
    match decoded b.nregs w with
    | .error _ => []
    | .ok i => (g.reads i w ++ i.regs ++ (fixedResults w).map (fun x => x.1) ++ varPreds i).filter g.outstanding

/-- The drains in which the slots of a group wait: since when, and for what. -/
def Group.drainsOf (g : Group) : List (Nat × Acks) :=
  [g.slot0.wait, g.slot1.wait].filterMap fun w =>
    match w with
    | .drain since acks => some (since, acks)
    | _ => none

/-- Whether a slot waits inside its word for bytes of another chip, or for a value there. -/
def SWait.awaitsFar : SWait → Bool
  | .far _ => true
  | .waitc _ => true
  | _ => false

/-- Whether the next word of a slot makes accesses. -/
def State.accessNext (s : State) (b : Block) (g : Group) (slot : Bool) : Bool :=
  match s.wordAt b (g.pcSlot slot).e.pc with
  | some (w, _) => makesAccesses w
  | none => false

/-- Whether a group waits for what an access of its own brings: the word of a slot waits for it, the next word needs a register of it, or
makes accesses, which wait for an acquiring read. -/
def State.needsAnswer (s : State) (b : Block) (g : Group) (rets : List Ret) (acq atWord : Bool) : Bool :=
  (atWord && (g.slot0.wait.awaitsFar || g.slot1.wait.awaitsFar)) ||
    (acq && (s.accessNext b g false || s.accessNext b g true)) ||
    ((s.slotNeeds b g false ++ s.slotNeeds b g true).any fun n => rets.any fun x => x.names n)

/-- Whether a slot waits for copies of its block. -/
def SWait.onCopies : SWait → Bool
  | .waitph => true
  | .coinit => true
  | .copySlot => true
  | _ => false

/-- Whether a stream is under repair. -/
def State.repaired (s : State) (k : Nat) : Bool := (s.fab.repair.get? k).isSome

/-- The stream of a message. -/
def OutMsg.stream (m : OutMsg) : Nat := 8 * m.m.dst + m.m.vc

/-- The streams under repair for which an act of a core waits itself: it finds no room there, comes behind a message, or releases what a
message writes. -/
def State.actRepairs (s : State) (h : Held) : List Nat :=
  let room := if s.outRoom h then [] else
    match h.act.range with
    | some (some c, _, _) => [8 * c, 8 * c + 4].filter s.repaired
    | _ => []
  room ++ (s.fab.retry.filter fun m => s.repaired m.stream && (m.before h || m.bars h)).map OutMsg.stream

/-- The streams under repair for which each act of a queue waits, itself or behind others: `done` are those before it. -/
def State.queueRepairs (s : State) (done : List (Held × List Nat)) : List Held → List (Held × List Nat)
  | [] => done
  | h :: rest =>
    let first := done.filter fun x => actsOrdered x.1 h || (h.rel.isSome && x.1.mayPrecede h.blk h.grp (s.acqAtOf h))
    s.queueRepairs (done ++ [(h, s.actRepairs h ++ first.flatMap fun x => x.2)]) rest

/-- The streams under repair on which remote accesses lie that a group waits for: messages, its own or those that a drain asks for; acts
of its core that wait for them; and messages of a copy (19 R401). -/
def State.waitsRepair (s : State) (b : Block) (id gi : Nat) (g : Group) : List Nat :=
  let drains := g.drainsOf
  let msgs := s.fab.retry.filter fun (m : OutMsg) => s.repaired m.stream &&
    ((drains.any fun d => m.awaited id gi d.2) ||
      (match m.blk with
      | some x => x == id && m.grp == gi && s.needsAnswer b g m.rets m.acq.isSome m.atWord
      | none => (g.slot0.wait.onCopies || g.slot1.wait.onCopies) &&
          (match s.ms.copies.get? m.grp with
            | some c => c.blk == id || c.objs.contains id
            | none => false)))
  let acts := (s.queueRepairs [] (s.core b.cl (b.coreOf gi)).held).filter fun x =>
    (drains.any fun d => x.1.drains id gi (b.acqAt gi) d.1 d.2) ||
      (x.1.blk == id && x.1.grp == gi &&
        (s.needsAnswer b g x.1.act.rets x.1.acq.isSome (x.1.act.answers && x.1.act.rets.all fun r => r.d.isNone) ||
          (decide (x.1.issued + 160 ≤ s.clk b.cl) && !s.outRoom x.1)))
  (msgs.map OutMsg.stream ++ acts.flatMap fun x => x.2).eraseDups

/-- Whether neither slot of a group can issue. A result of fixed latency on its way is no wait (log 110). -/
def State.waits (s : State) (b : Block) (id gi : Nat) (g : Group) : Bool :=
  let h := { g with ready := [] }
  !s.groupOpen b id gi h || (s.slotStat b gi h false != .ready && s.slotStat b gi h true != .ready)

/-- A cycle that counts for nothing, whatever waits (21 R420): an assist, a checkpoint or a pre-emption under way. -/
def Block.pauses (b : Block) : Bool :=
  (b.st.groups.any fun g => g.park == .assist) || !b.prot.pending.isEmpty ||
    (match b.stopping with
      | .preempt _ => true
      | _ => false)

/-- How a cycle stands for the watchdog of a launch: it counts, or it is excused, by the repairs of these streams if by any. -/
inductive WdogCycle where
  | counts
  | excused (repairs : List Nat)
  deriving DecidableEq, Repr

/-- How a cycle stands for a launch. -/
def State.wdogCycle (s : State) (l : Nat) : WdogCycle :=
  let bs := s.blocks.filter fun p => p.2.launch == l
  let waiting := bs.flatMap fun p =>
    (p.2.st.groups.zipIdx.filter fun x => !x.1.retired && s.waits p.2 p.1 x.2 x.1).map fun x =>
      (s.waitsHost p.1 x.2 x.1, s.waitsRepair p.2 p.1 x.2 x.1)
  if bs.any fun p => p.2.pauses then .excused []
  else if waiting.isEmpty || !waiting.all fun w => w.1 || !w.2.isEmpty then .counts
  else .excused (waiting.flatMap fun w => w.2).eraseDups

/-- One more cycle excused by a repair: its stream, when it began, and the cycles so far (19 R402). -/
def addExcuse (l : List (Nat × Nat × Nat)) (k began : Nat) : List (Nat × Nat × Nat) :=
  match l.find? fun x => x.1 == k && x.2.1 == began with
  | some x => (k, began, x.2.2 + 1) :: l.erase x
  | none => (k, began, 1) :: l

/-- A cycle ends for the watchdog of a launch (19 R401, R402, 21 R420): it is not counted where a copy delivered, a batch retired or a word
issued, and the count returns to 0, for a word issued where `Config.issueResets` says so (log 98); a cycle that repairs excuse counts
for them, whatever else issues. -/
def Launch.tick (x : Launch) (c : WdogCycle) (began : Nat → Nat) : Launch :=
  let y := { x with active := false, issued := false }
  let z := match c with
    | .counts => if x.active || x.issued then y else { y with wdog := x.wdog + 1 }
    | .excused l => { y with excused := l.foldl (fun a k => addExcuse a k (began k)) x.excused }
  if x.active || (x.issued && Config.issueResets) then { z with wdog := 0 } else z

/-- A local cycle of a cluster ends: the watchdogs of the launches whose oldest resident block it holds go on (19 R401). -/
def State.tickWdog (s : State) (cl : Nat) : State :=
  let one := fun (l : Nat) (x : Launch) =>
    match s.blocks.find? fun p => p.2.launch == l with
    | none => x
    | some p =>
      if p.2.cl ≠ cl then x else x.tick (s.wdogCycle l) fun k => s.fab.repair.getD k 0
  { s with qs := { s.qs with launches := KMap.mapV one s.qs.launches } }

/-- The next core of a cluster has its turn; after the eighth the local count goes up (00 R5, 09 R265). -/
def ClusterState.nextTurn (c : ClusterState) : ClusterState :=
  if c.turn + 1 < 8 then { c with turn := c.turn + 1 } else { c with turn := 0, clk := c.clk + 1 }

/-- Whether a new period of a cluster must begin before anything issues (09 R267). -/
def ClusterState.periodDue (c : ClusterState) : Bool := decide (c.period < c.clk / 65536)

/-- The turn of a core is over. -/
def State.endTurn (s : State) (cl : Nat) : State :=
  let s1 := if (s.cluster cl).turn = 7 then s.tickWdog cl else s
  (s1.setCluster cl (s1.cluster cl).nextTurn).letCrossAll cl

/-- Each local cycle the core chooses one ready group under budget and issues its next word (R266). The turn of the core
ends with the word; a word that goes on after a wait takes no turn, and does so on a core out of service too, whose blocks are leaving
(21 R421). Nothing issues while the period start of the cluster is due. A cycle in which a core of bin 2 may not issue counts for no group
as one in which it was ready (log 112). -/
def execIssueCycle (cl : Nat) (s : State) : Out :=
  if (s.cluster cl).periodDue then .next s
  else
    let co := (s.cluster cl).turn
    let c := s.core cl co
    let s1 := s.readyCore cl co
    match s1.goingOn cl co with
    | some f => .next { s1 with focus := some f }
    | none =>
      if c.service != .serving then .next (s1.endTurn cl)
      else
        let s2 := if c.bin = 2 then s1.setCore cl co { s1.core cl co with binTurn := (c.binTurn + 1) % 13 } else s1
        if c.bin != 2 || decide (c.binTurn < 11) then
          let s3 := s2.takeSlot cl co
          .next (if s3.focus.isSome then s3 else s3.endTurn cl)
        else .next (s2.endTurn cl)

/-! ### Around a word -/

/-- What the focus fetches: the word, and the instruction or the fault of its decoding. -/
def State.fetched (s : State) (f : Focus) : Option (Cur × W64 × Except FaultInfo Instr) :=
  match s.curOf f with
  | none => none
  | some q =>
    (s.wordAt q.blk q.pc).map fun p =>
      let low := ((List.range 32).find? fun k => q.grp.inEntry q.slot k).getD 0
      (q, p.1,
        if p.2 then .error { code := .poisonConsumed, lane := low, ea := q.pc.setWidth 64 }
        else
          match decoded q.blk.nregs p.1 with
          | .error e => .error { code := e, lane := low }
          | .ok i => .ok i)

/-- Issue begins: the journal keeps the block's state (21 R410), and the issue counts (08 R253). -/
def State.beginWord (s : State) (q : Cur) : State :=
  let clk := s.clk q.blk.cl
  let c := s.core q.blk.cl q.co
  let s1 := s.setCore q.blk.cl q.co { c with
    journal := (c.journal.filter fun e => decide (clk ≤ e.cycle + 320)) ++ [⟨clk, q.id, q.blk.st, q.blk.prot⟩] }
  if (q.grp.pcSlot q.slot).wait = .none then
    s1.putGrp q ({ q.grp with perfIssued := q.grp.perfIssued + 1 }.setSlot q.slot { q.grp.pcSlot q.slot with began := clk })
  else s1

/-- Whether the word of a `Cur` issues now, and does not go on after a wait. -/
def Cur.issues (q : Cur) : Bool := (q.grp.pcSlot q.slot).wait == .none

/-- The issue of a word holds its group: STALL (02 R42), and YLD or YIELD (02 R44, 08 R254). -/
def Group.issuedAt (g : Group) (clk : Nat) (w : W64) : Group :=
  { g with stallUntil := clk + stallOf w, demotedAt := if yldOf w || g.yielded then clk + 1 else g.demotedAt }

/-- What a word leaves of what its core has read ahead: nothing of its block where it may know of others' stores when it is over, and
nothing of a sector that an act of its group will change (06 R146, 11 R293; log 113). -/
def State.endAhead (s : State) (f : Focus) (clk : Nat) (w : W64) : State :=
  match s.curOf f with
  | none => s
  | some q =>
    if acquires w && (q.grp.pcSlot q.slot).wait == .none then
      s.setBlock q.id { q.blk with st := q.blk.st.knows clk }
    else if q.grp.ahead.isEmpty then s
    else
      let changed := fun (e : Early) => (s.queued q).any fun h =>
        h.blk == q.id && h.grp == q.gi && !h.act.reads && h.act.meets none (64 * e.sector) 64
      s.putGrp q { q.grp with ahead := q.grp.ahead.filter fun e => !changed e }

/-- A word is over, or waits: its results are on their way, its issue, if this was it, holds the group and takes the turn of its core,
and protection ends when its share is full (21 R415). -/
def State.endWord (s : State) (f : Focus) (cl : Nat) (issued : Bool) (w : W64) : State :=
  let clk := s.clk cl
  let s1 := s.mapGroup f.blk f.grp fun st g => (st, if issued then (g.results clk w).issuedAt clk w else g.results clk w)
  let s2 := s1.checkShare f.blk
  let s3 : State := { s2.endAhead f clk w with focus := none }
  if issued then s3.endTurn cl else s3

/-- The walks under way for the clusters of a die, as ASID and page: walks for one page merge (17 R359). -/
def State.walksOn (s : State) (die : Nat) : List (Nat × Nat) :=
  (s.blocks.flatMap fun p =>
    if dieOfCluster p.2.cl ≠ die then []
    else p.2.st.groups.flatMap fun g => [g.slot0.wait, g.slot1.wait].filterMap fun w =>
      match w with
      | .walk _ va _ true => some (p.2.asid, pageOf va)
      | _ => none).eraseDups

/-- Whether the walker of a die can take a walk: it holds fewer than 128, or this one is among them (17 R359). -/
def State.walkRoom (s : State) (die asid : Nat) (va : W64) : Bool :=
  decide ((s.walksOn die).length < 128) || (s.walksOn die).contains (asid, pageOf va)

/-- The translation of a fetch: from the cluster's TLB, or by a walk that fills it (17 R359). -/
def State.fetchTr (s : State) (cl co asid : Nat) (va : W64) : State × Option W64 :=
  match s.ms.tlbGet cl asid va with
  | some e => (s, some e)
  | none =>
    match s.walkFor cl asid va with
    | (s1, some (e, big)) => (s1.keepTr cl co asid va e big, some (leafOf va e big))
    | (s1, none) => (s1, none)

/-- A missed instruction-cache line arrives and the waiting group becomes ready (R269). -/
def execIcacheLineArrive (blk grp : Nat) (s : State) : Out :=
  match s.curOf ⟨blk, grp, false⟩ with
  | none => .next s
  | some q0 =>
    match q0.grp.park with
    | .icache pc =>
      let slot := !(q0.grp.slot0.e.mask != 0 && q0.grp.slot0.e.pc == pc)
      let va : W64 := pc.setWidth 64
      if (s.ms.tlbGet q0.blk.cl q0.blk.asid va).isNone && !s.walkRoom (dieOfCluster q0.blk.cl) q0.blk.asid va then .next s
      else
        let q := { q0 with slot := slot, grp := { q0.grp with park := .none } }
        let low := ((List.range 32).find? fun k => q.grp.inEntry slot k).getD 0
        let fault := fun (s : State) (c : FaultCode) (needX now : Bool) =>
          s.takeFault q { code := c, lane := low, ea := va, arg := if needX then 4 else 0, atOnce := now }
        match (s.putGrp q q.grp).fetchTr q.blk.cl q.co q.blk.asid va with
        | (s1, none) => .next (fault s1 .pageFaultRead true false)
        | (s1, some leaf) =>
          let pa := leafPa leaf va / 256 * 256
          if (pteRem leaf && pteChip leaf != s.fab.chip) || !pteX leaf then .next (fault s1 .permission true false)
          else if beyondHbm pa then .next (fault s1 .pageFaultRead false true)
          else .next (s1.icFill q.blk.cl q.blk.asid pc pa)
    | _ => .next s

/-! ### An instruction placed where the next step fetches it -/

/-- A group of 32 lanes at a PC, at the first word of a launch (01 R9, R16). -/
def Group.fresh (scratch gi : Nat) (pc : BitVec 57) (mask : Mask) (lanes : List Lane) : Group where
  slot0 := slotAt ⟨pc, mask⟩
  slot1 := PcSlot.empty
  lastSlot := true
  dspFloor := BitVec.ofNat 32 (scratch - 512 * (gi + 1))
  dspTop := BitVec.ofNat 32 (scratch - 512 * gi)
  dspCeil := BitVec.ofNat 32 (scratch - 512 * gi)
  l0 := none
  l1 := none
  l2 := none
  l3 := none
  acb := 0
  acl := 0
  bcnt := 0
  batches := []
  tix0 := 0
  tix1 := 0
  tix2 := 0
  tix3 := 0
  tix4 := 0
  sweep := none
  flg := 0
  fex := 0
  barWait := List.replicate 8 0
  barCounted := 0
  regWait := 0
  regMask := 0
  park := .none
  sb := 0
  psb := 0
  acqPend := 0
  acqAt := 0
  ahead := []
  ready := []
  stallUntil := 0
  demotedAt := 0
  yielded := false
  readyFor := 0
  perfIssued := 0
  perfPairs := 0
  perfFails := 0
  tally := Tally.zero
  retired := false
  lanes := lanes

/-- A lane at launch (01 R9). -/
def Lane.fresh (wid : W64) : Lane := ⟨true, [], 0, 0, 0, 0, 0, 0, 0, Swatch.zero, wid⟩

/-- The state of a block at its start (01 R26). -/
def BlkState.fresh (groups : List Group) : BlkState where
  groups := groups
  scratch := []
  spoison := []
  acc := []
  accF := []
  bars := List.replicate 8 ⟨BitVec.ofNat 6 groups.length, 0, false⟩
  board := []
  adopts := 0
  crossing := []
  track := false
  sectors := []
  tilesW := []

/-- A block of one group of 32 lanes on core 0 of cluster 0, alone in the part, at PC 0: what a placed instruction runs
in (log 16). -/
def Block.placed : Block where
  st := BlkState.fresh [Group.fresh 16384 0 0 0xFFFFFFFF ((List.range 32).map fun k => Lane.fresh (BitVec.ofNat 64 k))]
  launch := 0
  index := 0
  asid := 0
  cl := 0
  co := 0
  pair := false
  spec := none
  scratchSize := 16384
  tiles := 4
  nregs := 64
  entry := 0
  nf := 1
  widths := [5]
  qpkt := 0
  ftz := false
  protect := false
  scbOffset := 0
  prot := Prot.off
  stopping := .none
  order := 0

/-- The instruction-cache line that holds one word, at its start. -/
def lineOf (w : W64) : List W64 := w :: List.replicate 31 0

end Sys2Proof.Machine
end

