-- ==== Sys2Proof/Machine/Place.lean ====
section
/-! DEFINITION. From a launch to blocks on cores (09 R256 to R262, 15 R333 to R336, 16 R343): the work identifier,
placement, the dispatchers, budget words, the end of a block, the completion of a launch. -/

namespace Sys2Proof.Machine

/-! ### What a packet asks for (09 R256 to R258, 15 R315, R317) -/

/-- The widths of the fields of packet word 2 (09 R256). -/
def wfWidths (w2 : W64) : List Nat := (List.range 6).map fun i => (w2.extractLsb' (6 * i) 6).toNat
/-- NF (09 R256). -/
def wfCount (w2 : W64) : Nat := (w2.extractLsb' 36 4).toNat
/-- The extents E2 to E5 of the fields below NF; 1 for the others (09 R257). -/
def wfExtents (w : List W64) : List Nat :=
  let e := [(recW w 3).extractLsb' 0 32, (recW w 3).extractLsb' 32 32, (recW w 4).extractLsb' 0 32, (recW w 4).extractLsb' 32 32]
  e.mapIdx fun i x => if i + 2 < wfCount (recW w 2) then x.toNat else 1
/-- The number of blocks of a launch (09 R258). -/
def wfBlocks (w : List W64) : Nat := (wfExtents w).foldl (fun a b => a * b) 1
/-- REGS of packet word 5; 0 means 64 (15 R317). -/
def resRegs (w5 : W64) : Nat := if w5.extractLsb' 0 6 = 0 then 64 else (w5.extractLsb' 0 6).toNat
/-- SCRATCH in units of 16 KiB. -/
def resUnits (w5 : W64) : Nat := (w5.extractLsb' 6 10).toNat
/-- TILES. -/
def resTiles (w5 : W64) : Nat := (w5.extractLsb' 16 5).toNat
/-- GROUPS. -/
def resGroups (w5 : W64) : Nat := (w5.extractLsb' 21 6).toNat
/-- CHILD. -/
def resChild (w5 : W64) : Nat := (w5.extractLsb' 28 8).toNat
/-- CLASS. -/
def resClass (w5 : W64) : Nat := (w5.extractLsb' 36 4).toNat
/-- WDOG; 0 selects 255. -/
def resWdog (w5 : W64) : Nat := if w5.extractLsb' 40 8 = 0 then 255 else (w5.extractLsb' 40 8).toNat
/-- TYPE of a header (15 R315). -/
def hdrType (w0 : W64) : Nat := (w0.extractLsb' 1 7).toNat
/-- BARRIER. -/
def hdrBarrier (w0 : W64) : Bool := w0.getLsbD 20
/-- PAIR. -/
def hdrPair (w0 : W64) : Bool := w0.getLsbD 19
/-- PROTECT. -/
def hdrProtect (w0 : W64) : Bool := w0.getLsbD 18
/-- FTZ. -/
def hdrFtz (w0 : W64) : Bool := w0.getLsbD 17
/-- COOP. -/
def hdrCoop (w0 : W64) : Bool := w0.getLsbD 16
/-- ACQSC of a header; SYS stands for a value that no accepted packet holds. -/
def hdrAcq (w0 : W64) : AScope := (AScope.ofCode (w0.extractLsb' 8 3)).getD .sys
/-- RELSC of a header. -/
def hdrRel (w0 : W64) : AScope := (AScope.ofCode (w0.extractLsb' 11 3)).getD .sys

/-- The coordinates F2 to F5 of a block (09 R258). -/
def wfCoords (w : List W64) (b : Nat) : List Nat :=
  ((wfExtents w).foldl (fun (a : List Nat × Nat) e => (a.1 ++ [a.2 % e], a.2 / e)) ([], b)).1

/-- The work identifier of a lane (09 R256, 01 R15). -/
def widOf (w : List W64) (b gi lane : Nat) : W64 :=
  let ws := wfWidths (recW w 2)
  BitVec.ofNat 64 (((lane :: gi :: wfCoords w b).mapIdx fun i v => v * 2 ^ (ws.take i).sum).sum)

/-! ### What blocks take of a core (09 R259, R261) -/

/-- What resident blocks take of a core, of those that a test names. -/
def State.coreLoad (s : State) (cl co : Nat) (test : Block → Bool) : Load :=
  (s.blocks.filter fun p => p.2.cl == cl && test p.2 && (p.2.co == co || (p.2.pair && p.2.co + 1 == co))).foldl
    (fun a p => a.add (p.2.load (p.2.co != co))) Load.zero

/-- Whether a core holds within its limits (09 R259). -/
def Load.within (a : Load) (split : Nat) : Bool :=
  decide (a.groups ≤ 32) && decide (a.regBytes ≤ 262144) && decide (a.scratch ≤ 1024 * split) && decide (a.tiles ≤ 16) &&
    decide (a.blocks ≤ 16)

/-- Whether a block is of a speculation. -/
def Block.isSpec (b : Block) : Bool := b.spec.isSome

/-- Whether a core takes a part of a block: it is in service, and its free resources cover the part; what is being zeroed is not
free (09 R260, 17 R376, 21 R422). Real work looks past speculations; a speculation wants a core without real work (16
R343). -/
def State.coreFits (s : State) (cl co : Nat) (need : Load) (spec : Bool) : Bool :=
  let c := s.core cl co
  let real := s.coreLoad cl co fun b => !b.isSpec
  c.service == .serving &&
  (if spec then decide (real.blocks = 0) && (((s.coreLoad cl co fun _ => true).add c.zeroing).add need).within c.split
  else ((real.add c.zeroing).add need).within c.split)

/-- The cores of a cluster on which a block fits, with their resident groups: leaders for a pair (09 R260, R261). -/
def State.fitting (s : State) (cl : Nat) (b : Block) : List (Nat × Nat) :=
  let groups := fun (co : Nat) => (s.coreLoad cl co fun x => b.isSpec || !x.isSpec).groups
  if b.pair then
    ([0, 2, 4, 6].filter fun co => s.coreFits cl co (b.load false) b.isSpec && s.coreFits cl (co + 1) (b.load true) b.isSpec).map
      fun co => (co, groups co + groups (co + 1))
  else ((List.range 8).filter fun co => s.coreFits cl co (b.load false) b.isSpec).map fun co => (co, groups co)

/-- The pair with the smaller second part, the first of equals. -/
def leastOf : List (Nat × Nat) → Option (Nat × Nat)
  | [] => none
  | x :: l =>
    match leastOf l with
    | some y => if y.2 < x.2 then some y else some x
    | none => some x

/-- The core that the cluster dispatcher chooses: the fewest resident groups, then the lowest number (09 R260). -/
def State.chooseCore (s : State) (cl : Nat) (b : Block) : Option Nat := (leastOf (s.fitting cl b)).map fun x => x.1

/-! ### Budget words (09 R267) -/

/-- RES and CEIL of a class of a context; a class that the host never set reserves nothing. -/
def State.classOf (s : State) (asid cls : Nat) : Nat × Nat :=
  match (s.ctxs.get? asid).bind fun c => c.classes.get? cls with
  | some x => x
  | none => (0, 524288)

/-- Whether a context has a block resident in a cluster. -/
def State.residentIn (s : State) (cl asid : Nat) : Bool := s.blocks.any fun p => p.2.cl == cl && p.2.asid == asid

/-- The RES that a context gets in a cluster: the class value as far as the bound of 491,520 leaves room, never less than
it has. -/
def State.grantRes (s : State) (cl asid want have_ : Nat) : Nat :=
  let others := (((s.cluster cl).budgets.filter fun p => p.1 != asid && s.residentIn cl p.1).map fun p => p.2.res).sum
  if want ≤ have_ then want else max have_ (min want (491520 - others))

/-- A context becomes resident in a cluster: its budget word is written before its first block is placed; a block of another
class gives the class of the next period. A block that comes back to the cluster that held it finds what its context used there in
this period (09 R271, 17 R373). -/
def State.enterCluster (s : State) (cl asid cls : Nat) (back : Bool) : State :=
  let c := s.cluster cl
  let x := s.classOf asid cls
  let used := if back then (c.budgets.get? asid).elim 0 fun y => y.used else 0
  let b : Budget :=
    if s.residentIn cl asid then { s.budget cl asid with cls := cls } else ⟨used, x.2, s.grantRes cl asid x.1 0, cls⟩
  s.setCluster cl { c with budgets := c.budgets.put asid b }

/-- The budget words of a cluster at a period start: USED is 0 and CEIL is the class's; a RES above its class comes down first, then each
rises, in ascending order of ASID, as far as the bound allows (09 R267; log 111). -/
def State.renewBudgets (s : State) (cl : Nat) : State :=
  let put := fun (a : State) (asid : Nat) (b : Budget) =>
    a.setCluster cl { a.cluster cl with budgets := (a.cluster cl).budgets.put asid b }
  let s1 := (s.cluster cl).budgets.foldl (fun a p =>
    let x := a.classOf p.1 p.2.cls
    put a p.1 ⟨0, x.2, min p.2.res x.1, p.2.cls⟩) s
  (s1.cluster cl).budgets.foldl (fun a p =>
    put a p.1 { p.2 with res := a.grantRes cl p.1 (a.classOf p.1 p.2.cls).1 p.2.res }) s1

/-- At each multiple of 65,536 local cycles every budget word's USED returns to zero (R267). RES and CEIL take the values
of their class. -/
def execBudgetPeriodStart (cl : Nat) (s : State) : Out :=
  let c := s.cluster cl
  if !c.periodDue then .next s
  else
    let s1 := s.setCluster cl { c with period := c.clk / 65536, budgets := c.budgets.filter fun p => s.residentIn cl p.1 }
    .next (s1.renewBudgets cl)

/-! ### Placing a block (09 R260 to R262) -/

/-- A block of a launch as it starts (01 R9, R16, R26), not yet on a core. -/
def Launch.block (x : Launch) (l b : Nat) : Block :=
  let w5 := recW x.w 5
  let size := 16384 * resUnits w5
  let entry := (recW x.desc 0).setWidth 57
  let group := fun (gi : Nat) =>
    Group.fresh size gi entry 0xFFFFFFFF ((List.range 32).map fun k => Lane.fresh (widOf x.w b gi k))
  { st := BlkState.fresh ((List.range (resGroups w5)).map group)
    launch := l
    index := b
    asid := x.asid
    cl := 0
    co := 0
    pair := hdrPair (recW x.w 0)
    spec := x.spec
    scratchSize := size
    tiles := resTiles w5
    nregs := resRegs w5
    entry := entry
    nf := wfCount (recW x.w 2)
    widths := wfWidths (recW x.w 2)
    qpkt := 0
    ftz := hdrFtz (recW x.w 0)
    protect := hdrProtect (recW x.w 0)
    scbOffset := 0
    prot := Prot.off
    stopping := .none
    order := 0 }

/-- The address of the packet of a launch (01 R29). -/
def State.launchPacket (s : State) (x : Launch) : W64 :=
  match x.spec.bind s.qs.specs.get? with
  | some y => y.qpkt
  | none =>
    match s.qs.queues.get? x.q with
    | some y => ringSlot y x.pos
    | none => 0

/-- The first checkpoint of a protected block (21 R414). -/
def Block.protectNow (b : Block) : Block :=
  if b.protect then
    let st := { b.st with track := true, sectors := [], tilesW := [] }
    { b with st := st, prot := ⟨true, false, false, [], some st⟩ }
  else b

/-- A number for a new block: no resident or saved block has it. -/
def State.freshBlock (s : State) : Nat := s.saved.foldl (fun n p => max n (p.2.id + 1)) s.blocks.fresh

/-- The copies that a copy word has still to issue take slots of the core where the block goes (07 R191, 17 R371). -/
def Block.movePlans (b : Block) (cl co : Nat) : Block :=
  let there := { b with cl := cl, co := co }
  let slot := fun (gi : Nat) (p : PcSlot) => { p with plans := p.plans.map fun c => { c with cl := cl, co := there.coreOf gi } }
  { b with st := { b.st with groups := b.st.groups.mapIdx fun gi g => { g with slot0 := slot gi g.slot0, slot1 := slot gi g.slot1 } } }

/-- Put a block on a core: its context enters the cluster, its allocation has a place in the SRAM (log 5). A block that comes back
keeps its number. -/
def State.putOn (s : State) (b : Block) (id : Option Nat) (cls cl co : Nat) : State :=
  let s1 := s.enterCluster cl b.asid cls (id.isSome && b.cl == cl)
  let c := s1.core cl co
  let n := if b.pair then max c.nextOrder (s1.core cl (co + 1)).nextOrder else c.nextOrder
  let bump := fun (s : State) (k : Nat) => let x := s.core cl k; s.setCore cl k { x with nextOrder := n + 1 }
  let s2 := bump s1 co
  let s3 := if b.pair then bump s2 (co + 1) else s2
  let b1 := { b with
    cl := cl
    co := co
    order := n
    scbOffset := Config.scbOffset s.free
    st := ((b.movePlans cl co).st).knows (s.clk cl) }
  { s3 with free := s.free + 1, blocks := s3.blocks.put (id.getD s.freshBlock) b1 }

/-- Speculations with a block on a core, or on the pair that a block would take. -/
def State.specsOn (s : State) (cl co : Nat) (pair : Bool) : List Nat :=
  ((s.blocks.filter fun p => p.2.cl == cl && p.2.isSpec &&
    (p.2.co == co || (p.2.pair && p.2.co + 1 == co) || (pair && (p.2.co == co + 1 || (p.2.pair && p.2.co + 1 == co + 1))))).filterMap
    fun p => p.2.spec).eraseDups

/-- The cluster of the COOP rule: of those where the block fits, the one with the fewest blocks of the launch, then the lowest
number (09 R262). -/
def State.coopCluster (s : State) (b : Block) : Option Nat :=
  let here := fun (cl : Nat) => s.blocks.countP fun p => p.2.cl == cl && p.2.launch == b.launch
  (leastOf (((List.range 96).filter fun cl => (s.chooseCore cl b).isSome).map fun cl => (cl, here cl))).map fun x => x.1

/-- Place blocks one by one by the COOP rule, those that come back with their numbers; none if one does not fit. The speculations in
the way come with the answer. -/
def coopAll (cls : Nat) : List (Option Nat × Block) → State × List Nat → Option (State × List Nat)
  | [], x => some x
  | (id, b) :: l, x =>
    match x.1.coopCluster b with
    | none => none
    | some cl =>
      match x.1.chooseCore cl b with
      | none => none
      | some co =>
        coopAll cls l (x.1.putOn b id cls cl co, if b.isSpec then x.2 else (x.2 ++ x.1.specsOn cl co b.pair).eraseDups)

/-- A block ready to be placed: with its packet's address and, under PROTECT, its first checkpoint. -/
def State.readyBlock (s : State) (l : Nat) (x : Launch) (b : Nat) : Block :=
  ({ x.block l b with qpkt := s.launchPacket x } : Block).protectNow

/-- Whether a launch fits whole: no more blocks than the part has positions, and the COOP rule places every one (09 R262). -/
def State.coopFits (s : State) (l : Nat) (x : Launch) : Option (State × List Nat) :=
  if x.total ≤ 12288 then coopAll (resClass (recW x.w 5)) ((List.range x.total).map fun b => (none, s.readyBlock l x b)) (s, []) else none

/-! ### The dispatchers (15 R333 to R335) -/

/-- The slot that a queue holds. -/
def State.slotOf (s : State) (k : Nat) : Option Nat :=
  ((s.qs.slots.find? fun p => p.2.q == some k)).map fun p => p.1

/-- Whether the blocks of a launch may be handed out and placed: its queue holds a slot and is not being unmapped (15 R328,
17 R373). -/
def State.mappedLaunch (s : State) (x : Launch) : Bool :=
  match s.qs.queues.get? x.q with
  | some y => (s.slotOf x.q).isSome && y.step == 0
  | none => false

/-- The queues of a gang (15 R323): those of one context with one number; number 0 is a gang of the queue alone. -/
def State.gangOf (s : State) (k : Nat) : List (Nat × Queue) :=
  match s.qs.queues.get? k with
  | none => []
  | some x =>
    s.qs.queues.filter fun p =>
      p.2.st != .dead && (p.1 == k || (x.gang != 0 && p.2.gang == x.gang && p.2.asid == x.asid))

/-- The queues of a gang that take part in decisions: those that are not in ERROR (15 R432). -/
def gangLive (l : List (Nat × Queue)) : List (Nat × Queue) := l.filter fun p => p.2.st != .error

/-- The effective priority of queues: the largest of theirs (15 R331). -/
def queuesPrio (l : List (Nat × Queue)) : Nat := l.foldl (fun a p => max a (min 7 (p.2.bpri + p.2.age / 8))) 0

/-- The effective priority of a gang in a decision (15 R331, R432). -/
def gangPrio (l : List (Nat × Queue)) : Nat := queuesPrio (gangLive l)

/-- Chunks of a launch that a cluster has not placed whole. -/
def Launch.chunksAt (x : Launch) (cl : Nat) : List (List Nat) := x.chunks.getD cl []

/-- The cluster that gets the next chunk: in turn, passing over those that hold two (15 R334). -/
def Launch.nextCluster (x : Launch) : Option Nat :=
  let first := match x.lastCl with
    | some c => c + 1
    | none => 0
  ((List.range 96).map fun i => (first + i) % 96).find? fun cl => decide ((x.chunksAt cl).length < 2)

/-- Whether a launch has a chunk that can go out now, or, under COOP, can be placed whole now (09 R262, 15 R334). -/
def State.canDispatch (s : State) (l : Nat) (x : Launch) : Bool :=
  !x.terminated && decide (x.handed < x.total) && s.mappedLaunch x &&
    if x.coop then decide (x.handed = 0) && (s.coopFits l x).isSome else x.nextCluster.isSome

/-- The order of the device dispatcher: higher effective priority, then lower slot (15 R334). A queue in ERROR counts here: it takes part in
no decision only (15 R432). -/
def State.dispatchRank (s : State) (x : Launch) : Nat := (7 - queuesPrio (s.gangOf x.q)) * 256 + (s.slotOf x.q).getD 0

/-- Whether another launch goes before: of real work one of a better rank; a speculation waits for all real work (16 R343). -/
def State.dispatchAfter (s : State) (x : Launch) : Bool :=
  s.qs.launches.any fun p => s.canDispatch p.1 p.2 &&
    if p.2.spec.isNone then x.spec.isSome || decide (s.dispatchRank p.2 < s.dispatchRank x)
    else x.spec.isSome && decide (s.dispatchRank p.2 < s.dispatchRank x)

/-- The device dispatcher hands the next chunk of blocks to the next cluster in turn (R334): the higher effective priority
first, then the lower slot number. -/
def execDispatchChunk (launch : Nat) (s : State) : Out :=
  match s.qs.launches.get? launch with
  | none => .next s
  | some x =>
    if !s.canDispatch launch x || x.coop || s.dispatchAfter x then .next s
    else
      match x.nextCluster with
      | none => .next s
      | some cl =>
        let b := x.total - x.handed
        let n := min b (min 64 (max 1 ((b + 191) / 192)))
        let chunk := (List.range n).map (x.handed + ·)
        let y := { x with handed := x.handed + n, lastCl := some cl, chunks := x.chunks.put cl (x.chunksAt cl ++ [chunk]) }
        .next { s with qs := { s.qs with launches := s.qs.launches.put launch y } }

/-- Take the lowest block of the first chunk of a cluster. -/
def Launch.takeBlock (x : Launch) (cl : Nat) : Option (Nat × Launch) :=
  match x.chunksAt cl with
  | (c :: cs) :: more =>
    let b := cs.foldl min c
    let rest := (c :: cs).erase b
    let l := if rest.isEmpty then more else rest :: more
    some (b, { x with chunks := KMap.putD [] x.chunks cl l })
  | _ => none

/-- A cluster dispatcher places a pending block on the fitting core with fewest resident groups (R260). Speculations on that
core are discarded first (16 R343). -/
def execBlockPlace (cl launch : Nat) (s : State) : Out :=
  match s.qs.launches.get? launch with
  | none => .next s
  | some x =>
    if x.terminated || !s.mappedLaunch x then .next s
    else
      match x.takeBlock cl with
      | none => .next s
      | some (b, y) =>
        let blk := s.readyBlock launch x b
        match s.chooseCore cl blk with
        | none => .next s
        | some co =>
          let specs := if blk.isSpec then [] else s.specsOn cl co blk.pair
          if specs.isEmpty then
            let s1 := { s with qs := { s.qs with launches := s.qs.launches.put launch y } }
            .next (s1.putOn blk none (resClass (recW x.w 5)) cl co)
          else .next (specs.foldl (fun a n => a.discardSpec n .displaced) s)

/-- A COOP launch is admitted and all its blocks placed together when they all fit (R262), in its turn (15 R334). -/
def execCoopPlace (launch : Nat) (s : State) : Out :=
  match s.qs.launches.get? launch with
  | none => .next s
  | some x =>
    if x.terminated || !x.coop || x.handed ≠ 0 || !s.mappedLaunch x || s.dispatchAfter x then .next s
    else
      match s.coopFits launch x with
      | none => .next s
      | some (s1, specs) =>
        if specs.isEmpty then
          .next { s1 with qs := { s1.qs with launches := s1.qs.launches.put launch { x with handed := x.total } } }
        else .next (specs.foldl (fun a n => a.discardSpec n .displaced) s)

/-- An idle cluster dispatcher steals half the pending blocks of a launch from the busiest cluster (R335). What it takes is one chunk of its
own, and a chunk of the other that is left empty is one no more (R334; DESIGN CHOICE, log 129). -/
def execWorkSteal (cl launch : Nat) (s : State) : Out :=
  match s.qs.launches.get? launch with
  | none => .next s
  | some x =>
    let idle := !(s.qs.launches.any fun p => (x.spec.isSome || p.2.spec.isNone) && !(p.2.chunksAt cl).isEmpty)
    let fits := (s.chooseCore cl (s.readyBlock launch x 0)).isSome
    let pend := x.chunks.map fun p => (p.1, (p.2.map List.length).sum)
    let most := pend.foldl (fun (a : Nat × Nat) p => if a.2 < p.2 then p else a) (0, 0)
    if !idle || !fits || x.terminated || x.coop || !s.mappedLaunch x || decide (most.2 < 2) || decide (96 ≤ cl) then .next s
    else
      let all := (x.chunksAt most.1).flatten
      -- those with the highest index go
      let gone := all.filter fun b => decide (all.countP (fun c => decide (b < c)) < most.2 / 2)
      let left := ((x.chunksAt most.1).map fun c => c.filter fun b => !gone.contains b).filter fun c => !c.isEmpty
      let y := { x with chunks := (KMap.putD [] x.chunks most.1 left).put cl [gone] }
      .next { s with qs := { s.qs with launches := s.qs.launches.put launch y } }

/-! ### The end of a block (08 R224, 17 R364, R377) -/

/-- Copies in flight that a block issued or receives (07 R195). -/
def State.copiesOf (s : State) (id : Nat) : Bool := s.ms.copies.any fun p => p.2.blk == id || p.2.objs.contains id

/-- Whether nothing of a block is outside it: no copy, no batch that is closed, no act held in a core, no remote access
without its answer, and the strike journal of its words closed (17 R369, 21 R410). -/
def State.drained (s : State) (id : Nat) (b : Block) : Bool :=
  let quiet := fun (co : Nat) =>
    let c := s.core b.cl co
    !(c.held.any fun h => h.blk == id) && c.journal.all fun e => e.blk != id || decide (e.cycle + 160 ≤ s.clk b.cl)
  !s.copiesOf id && !(b.st.groups.any fun g => g.batches.any fun t => t.closed || !t.ops.isEmpty) &&
    quiet b.co && (!b.pair || quiet (b.co + 1)) && !(s.fab.retry.any fun m => m.blk == some id) &&
    !(b.st.groups.any fun g => g.park == .assist) && b.st.crossing.isEmpty

/-- One more block of a launch has ended. -/
def State.countEnd (s : State) (l n : Nat) : State :=
  match s.qs.launches.get? l with
  | none => s
  | some x =>
    let y := { x with ended := x.ended + n }
    let s1 := { s with qs := { s.qs with launches := s.qs.launches.put l y } }
    match x.spec.bind s.qs.specs.get? with
    | some sp =>
      if y.ended = y.total then
        { s1 with qs := { s1.qs with specs := s1.qs.specs.put (x.spec.getD 0) { sp with completedAt := some (s.clk 0) } } }
      else s1
    | none => s1

/-- A block ends when every group and every copy and batch has retired, and its resources are zeroed (R224). A block that a
fault terminates ends once it has drained, and its record is written (17 R364). -/
def execBlockEnd (blk : Nat) (s : State) : Out :=
  match s.blocks.get? blk with
  | none => .next s
  | some b =>
    if !s.drained blk b then .next s
    else
      match b.stopping with
      | .terminate r =>
        let s1 := match r with
          | some (gi, pc, f) => s.record b.asid (s.groupRecord b gi pc f)
          | none => s
        .next ((s1.countEnd b.launch 1).removeBlock blk)
      | .preempt _ => .next s
      | .none => if b.st.groups.all fun g => g.retired then .next ((s.countEnd b.launch 1).removeBlock blk) else .next s

/-- Zeroing of freed core resources ends and they may take a new block (R376). -/
def execZeroingDone (cl co : Nat) (s : State) : Out := .next (s.setCore cl co { s.core cl co with zeroing := Load.zero })

/-! ### What the front end and the slices write for a queue (15 R430, R431) -/

/-- Whether a release of the device must wait: at FAB and SYS, for every write of the chip to another that is not acknowledged (06 R156, 11
R294). -/
def State.relWaits (s : State) (a : AScope) : Bool := atLeastFab a && s.fab.retry.any OutMsg.writes

/-- A release action of the device: in every cluster (15 R336). -/
def State.releaseAll (s : State) (a : AScope) : State :=
  (List.range 96).foldl (fun x cl => x.releaseAct cl a .sg) s

/-- An acquire action of the device: in every cluster (15 R333). -/
def State.acquireAll (s : State) (a : AScope) : State :=
  (List.range 96).foldl (fun x cl => x.acquireAct cl a .sg) s

/-- Why the front end cannot go on. -/
inductive FeStop where
  /-- The packet is rejected with a code (15 R322). -/
  | reject (err : Nat)
  /-- The fault goes to F2 (17 R363). -/
  | park (code : FaultCode) (va : W64)
  /-- It needs words of another chip. -/
  | ask (chip pa : Nat)
  deriving DecidableEq, Repr

/-- The translation of an address of the front end, with its rights (15 R322, R431). -/
def State.fe (s : State) (asid : Nat) (va : W64) (write : Bool) : Except FeStop (W64 × Nat) :=
  if 2 ^ 57 ≤ va.toNat || inWindow va then .error (.reject 10)
  else
    match s.ms.walk (s.root asid) va with
    | none => .error (.park (pageFault write) va)
    | some leaf =>
      let pa := leafPa leaf va
      if !pteR leaf || (write && !pteW leaf) then .error (.park .permission va)
      else if beyondHbm pa then .error (.reject 10)
      else .ok (leaf, pa)

/-- Post a fault of the front end to F2 (17 R363). -/
def State.fePost (s : State) (asid : Nat) (code : FaultCode) (va : W64) (who : Waiter) : State :=
  s.postFault ⟨asid, va.toNat / 262144, code, who⟩

/-- An 8-byte operation of a signal as a message: 0 stores, 1 adds, 2 subtracts. -/
def sigOp (pa op : Nat) (v : W64) : RemoteOp :=
  if op = 0 then .store pa (leBytes v.toNat 8) else .red 0 pa true (if op = 1 then v else -v)

/-- Perform an 8-byte operation at its place: 0 stores, 1 adds, 2 subtracts (15 R319, R430). -/
def State.sigWrite (s : State) (asid : Nat) (leaf : W64) (pa op : Nat) (v : W64) : State :=
  if pteRem leaf && pteChip leaf != s.fab.chip then
    s.send (pteChip leaf) asid (sigOp pa op v) fun m => ⟨m, none, 0, 0, 0, 0, [], none, 0⟩
  else
    let old := s.ms.mem.word pa
    let new := if op = 0 then v else if op = 1 then old + v else old - v
    { s with ms := s.ms.homeWrite pa (leBytes new.toNat 8) }

/-- Whether the stream of a signal write has room. -/
def State.sigRoom (s : State) (leaf : W64) (op : Nat) : Bool :=
  !(pteRem leaf && pteChip leaf != s.fab.chip) || s.streamRoom (pteChip leaf) 0 1 (carried (sigOp 0 op 0))

/-- Whether the front end has a read of another chip under way for a queue: the signal of a WAITSIG, or a descriptor. -/
def State.feReading (s : State) (k : Nat) : Bool := s.fab.retry.any fun m => m.blk == none && m.grp == k && m.m.vc == 4

/-- Whether a queue has a launch in flight, one that has joined and waits for START among them (15 R330, R432, 19 R399). -/
def State.inFlight (s : State) (k : Nat) : Bool :=
  (s.qs.launches.any fun p => p.2.q == k && p.2.spec.isNone) || (s.qs.queues.get? k).any fun x => x.fetch.joined

/-- Whether a packet of a queue has not completed: a launch, or a packet with a write still to make (15 R315). -/
def State.unfinished (s : State) (k : Nat) : Bool := s.inFlight k || s.qs.pendW.any fun p => p.2.q == k

/-- The header that stands in the next ring slot of a queue, if that slot holds a packet (15 R316). -/
def State.head? (s : State) (x : Queue) : Option W64 :=
  let cons := qCons (s.q2 x)
  match s.homeLoad x.asid (ringSlot x cons) with
  | some w => if w.getLsbD 0 == phaseOf x cons then some w else none
  | none => none

/-- Whether a mapped queue is idle (15 R330). -/
def State.queueIdle (s : State) (k : Nat) (x : Queue) : Bool :=
  if x.st = .error then !s.inFlight k
  else !s.inFlight k && x.fetch == .none && !x.waiting && (s.head? x).isNone

/-- Whether a queue is mapped and idle. -/
def State.idleMapped (s : State) (k : Nat) : Bool :=
  match s.qs.queues.get? k with
  | some x => (s.slotOf k).isSome && s.queueIdle k x
  | none => false

/-- A mapped queue that has become idle, and was not in the state before, calls for a decision (15 R330). -/
def State.noteIdle (s before : State) (k : Nat) : State :=
  if s.idleMapped k && !before.idleMapped k then { s with qs := { s.qs with wantDecision := true } } else s

/-- A pending write is over. -/
def State.dropPend (s : State) (i : Nat) : State :=
  let gone := fun (_ : Nat) (x : PendWrite) => { x with afterP := x.afterP.filter fun j => j != i }
  { s with qs := { s.qs with pendW := KMap.mapV gone (s.qs.pendW.del i) } }

/-- A pending write that fails for good: it is recorded and given up, its queue enters ERROR, and F3 posts it (15 R332, R431). -/
def State.failPend (s : State) (i : Nat) (x : PendWrite) (y : Queue) (code : FaultCode) : State :=
  let r := faultRecord code.num 0 0 0 y.asid 0 0 0 x.va 0 y.handle (ringSlot y x.pos) (s.clk 0)
  (((s.record y.asid r).queueError x.q 10 x.pos).post (.faulted x.q)).dropPend i

/-- A slice or F4 would write a packet beyond the installed HBM: PAGE_FAULT_WRITE, delivered as an error of the queue (17 R358; log 123). -/
def State.slotFails (s : State) (k : Nat) (x : Queue) : State :=
  let va := ringSlot x (qResv (s.q2 x))
  ((s.record x.asid (faultRecord FaultCode.pageFaultWrite.num 0 0 0 x.asid 0 0 0 va 0 x.handle va (s.clk 0))).queueError k 10
    (qResv (s.q2 x))).post (.faulted k)

/-- Perform a pending write, translating its address now (15 R431): its release first; a fault is posted once, and the
write waits for the host; an address that no memory answers fails at once (17 R358). -/
def State.runPend (s : State) (i : Nat) : State :=
  match s.qs.pendW.get? i with
  | none => s
  | some x =>
    match s.qs.queues.get? x.q with
    | none => s.dropPend i
    | some y =>
      if (s.faultQ.any fun p => p.who == .signal i) || x.rel.any s.relWaits then s
      else
        match s.fe y.asid x.va true with
        | .ok t =>
          if !s.sigRoom t.1 x.op then s
          else
            let s1 := match x.rel with
              | some a => s.releaseAll a
              | none => s
            (s1.sigWrite y.asid t.1 t.2 x.op x.v).dropPend i
        | .error (.park code va) => s.fePost y.asid code va (.signal i)
        | .error _ => (s.failPend i x y .pageFaultWrite).noteIdle s x.q

/-- Add a pending write, after the launches and writes of its queue that are under way. -/
def State.addPend (s : State) (kind : PendKind) (k pos : Nat) (va : W64) (op : Nat) (v : W64) (rel : Option AScope)
    (wait : Bool) : State × Nat :=
  let i := s.qs.pendW.fresh
  let al := if wait then (s.qs.launches.filter fun p => p.2.q == k && p.2.spec.isNone).map fun p => p.1 else []
  let ap := if wait then (s.qs.pendW.filter fun p => p.2.q == k).map fun p => p.1 else []
  ({ s with qs := { s.qs with pendW := s.qs.pendW.put i ⟨kind, al, ap, k, pos, va, op, v, rel⟩ } }, i)

/-- Decrement a completion signal now, or once the host has made its page accessible (15 R336, R431). -/
def State.decSignal (s : State) (k pos : Nat) (va : W64) : State :=
  if va = 0 then s
  else
    let r := s.addPend .late k pos va 2 1 none false
    r.1.runPend r.2

/-! ### The completion of a launch (15 R336) -/

/-- A launch goes: the reserved child slots it did not use return (15 R326). -/
def State.dropLaunch (s : State) (l : Nat) (x : Launch) : State :=
  let s1 :=
    if x.children = 0 then s
    else
      match s.queueOf x.asid (recW x.w 7) with
      | some (_, y) =>
        let w := s.q2 y
        s.setQ2 y (qWord2 (qCons w) (qResv w) (qHeld w - x.children))
      | none => s
  let after := fun (_ : Nat) (p : PendWrite) => { p with afterL := p.afterL.filter fun j => j != l }
  { s1 with qs := { s1.qs with launches := s1.qs.launches.del l, pendW := KMap.mapV after s1.qs.pendW } }

/-- When every block has retired the device releases at RELSC and decrements the completion signal (R336). While the decrement
waits, the writes of later packets stay behind it (R431). -/
def execLaunchComplete (launch : Nat) (s : State) : Out :=
  match s.qs.launches.get? launch with
  | none => .next s
  | some x =>
    if x.spec.isSome || x.ended ≠ x.total || x.handed ≠ x.total || s.relWaits (hdrRel (recW x.w 0)) then .next s
    else
      let s1 := s.releaseAll (hdrRel (recW x.w 0))
      let late := s1.qs.pendW.fresh
      let s2 := s1.decSignal x.q x.pos (recW x.w 6)
      let behind := fun (_ : Nat) (p : PendWrite) => if p.afterL.contains launch then { p with afterP := p.afterP ++ [late] } else p
      let s3 := if (s2.qs.pendW.get? late).isSome then { s2 with qs := { s2.qs with pendW := KMap.mapV behind s2.qs.pendW } } else s2
      .next ((s3.dropLaunch launch x).noteIdle s x.q)

end Sys2Proof.Machine
end

