-- ==== Sys2Proof/Machine/Packets.lean ====
section
/-! DEFINITION. Reading and checking packets and kernel descriptors, and rejecting a packet (15 R315 to R322, 19 R386,
R397). -/

namespace Sys2Proof.Machine

/-- A check of the front end: it fails with a code. -/
def feNeed (b : Bool) (err : Nat) : Except FeStop Unit := if b then .ok () else .error (.reject err)

/-- Words that the front end reads at their home: a ring lies on no page of another chip (15 R323). -/
def State.feWords (s : State) (asid : Nat) (va : W64) (n : Nat) : Except FeStop (List W64) :=
  match s.fe asid va false with
  | .error e => .error e
  | .ok (leaf, pa) =>
    if pteRem leaf && pteChip leaf != s.fab.chip then .error (.reject 10)
    else .ok ((List.range n).map fun i => s.ms.mem.word (pa + 8 * i))

/-- The checks of R257 on words 2 to 5. -/
def fieldsOk (w : List W64) : Bool :=
  let w2 := recW w 2
  let ws := wfWidths w2
  let nf := wfCount w2
  w2.extractLsb' 40 24 == 0 && decide (1 ≤ nf ∧ nf ≤ 6) && ws.getD 0 0 == 5 && decide (ws.getD 1 0 ≤ 5) && decide (ws.sum ≤ 64) &&
  (ws.drop nf).all (fun x => x == 0) && decide (resGroups (recW w 5) ≤ 2 ^ ws.getD 1 0) &&
  ((wfExtents w).zipIdx.all fun x => decide (nf ≤ x.2 + 2) || decide (x.1 ≤ 2 ^ ws.getD (x.2 + 2) 0))

/-- The ranges of packet word 5, and scratch within one core, or a pair, in service (15 R317, R322). -/
def State.resOk (s : State) (w5 : W64) (pair : Bool) : Bool :=
  let regs := w5.extractLsb' 0 6
  let u := resUnits w5
  let room := fun (k n : Nat) => let c := s.core (k / 8) (k % 8); c.service != .retired && decide (16 * n ≤ c.split)
  (regs == 0 || regs == 16 || regs == 32 || regs == 48) && decide (1 ≤ resGroups w5 ∧ resGroups w5 ≤ if pair then 32 else 16) &&
  decide (resTiles w5 ≤ 16) && decide (1 ≤ u) && w5.extractLsb' 48 16 == 0 && !w5.getLsbD 27 &&
  (List.range 768).any fun k =>
    if pair then k % 2 == 0 && room k ((u + 1) / 2) && room (k + 1) (u / 2) else room k u

/-- The checks of R318 and R320 on a descriptor's address and words. The reserved bits of RES, [63:48] and [27], and of FIELDS, [63:40], are not
looked at (DESIGN CHOICE, log 59). -/
def State.descOk (s : State) (asid : Nat) (d : List W64) : Bool :=
  let e := recW d 0
  let page := match s.translate asid e with
    | some t => pteX t.1
    | none => false
  (d.drop 4).all (fun x => x == 0) && (recW d 3).extractLsb' 4 60 == 0 && e.toNat % 8 == 0 && page &&
    (recW d 1).extractLsb' 36 12 == 0 && resChild (recW d 1) == 0

/-- REGS and GROUPS equal, SCRATCH and TILES at least the descriptor's (15 R321). -/
def resMatch (w5 d1 : W64) : Bool :=
  w5.extractLsb' 0 6 == d1.extractLsb' 0 6 && resGroups w5 == resGroups d1 && decide (resUnits d1 ≤ resUnits w5) &&
    decide (resTiles d1 ≤ resTiles w5)

/-- The rest of R321: the field widths, as many as NF says, PAIR, COOP and FTZ. -/
def launchMatch (w d : List W64) : Bool :=
  resMatch (recW w 5) (recW d 1) && (recW w 2).extractLsb' 0 40 == (recW d 2).extractLsb' 0 40 &&
    hdrPair (recW w 0) == (recW d 3).getLsbD 1 && hdrCoop (recW w 0) == (recW d 3).getLsbD 2 &&
    (!(recW d 3).getLsbD 3 || hdrFtz (recW w 0))

/-- The words of a descriptor, at their home or as another chip has sent them (15 R320; log 53). -/
def State.descWords (s : State) (x : Queue) (va : W64) : Except FeStop (List W64) :=
  match s.fe x.asid va false with
  | .error e => .error e
  | .ok (leaf, pa) =>
    if pteRem leaf && pteChip leaf != s.fab.chip then
      match x.desc with
      | .got c p bytes => if c = pteChip leaf ∧ p = pa then .ok ((List.range 8).map fun i => BitVec.ofNat 64 (leNat ((bytes.drop (8 * i)).take 8)))
          else .error (.ask (pteChip leaf) pa)
      | .failed c p => if c = pteChip leaf ∧ p = pa then .error (.reject 10) else .error (.ask (pteChip leaf) pa)
      | _ => .error (.ask (pteChip leaf) pa)
    else .ok ((List.range 8).map fun i => s.ms.mem.word (pa + 8 * i))

/-- Read a descriptor (15 R318, R320). -/
def State.readDesc (s : State) (x : Queue) (va : W64) : Except FeStop (List W64) := do
  feNeed (va.extractLsb' 57 7 == 0 && va.toNat % 64 == 0) 4
  let d ← s.descWords x va
  feNeed (s.descOk x.asid d) 4
  .ok d

/-- Scopes of a header (15 R322). -/
def scopesOk (w0 : W64) : Bool := (AScope.ofCode (w0.extractLsb' 8 3)).isSome && (AScope.ofCode (w0.extractLsb' 11 3)).isSome

/-- Reserved header bits (15 R315). -/
def hdrClear (w0 : W64) : Bool := w0.extractLsb' 21 43 == 0 && w0.extractLsb' 14 2 == 0

/-- A completion signal, checked as an 8-byte atomic; 0 means none (15 R318, R431). -/
def State.sigCheck (s : State) (asid : Nat) (va : W64) : Except FeStop Unit := do
  if va = 0 then .ok ()
  else
    feNeed (va.extractLsb' 57 7 == 0 && va.toNat % 8 == 0) 8
    let _ ← s.fe asid va true
    .ok ()

/-- The signal address of a WAITSIG or a SIGNAL (15 R319, R431). -/
def State.addrCheck (s : State) (asid : Nat) (va : W64) (write : Bool) : Except FeStop Unit := do
  feNeed (va.toNat % 8 == 0) 8
  let _ ← s.fe asid va write
  .ok ()

/-- A launch that would start now (15 R333). -/
def Launch.make (k asid pos : Nat) (w desc : List W64) (spec : Option Nat) : Launch :=
  ⟨k, asid, pos, w, desc, wfBlocks w, 0, none, [], 0, false, resChild (recW w 5), hdrCoop (recW w 0), 0, [], false, false, spec⟩

/-- Whether a COOP launch fits a device that holds nothing (09 R262). -/
def State.fitsEmpty (s : State) (k asid : Nat) (w desc : List W64) : Bool :=
  let free := fun (_ : Nat) (c : CoreState) => { c with zeroing := Load.zero }
  !hdrCoop (recW w 0) ||
    (({ s with blocks := [], cores := KMap.mapV free s.cores } : State).coopFits 0 (Launch.make k asid 0 w desc none)).isSome

/-- The chips of a mask (19 R397). -/
def maskChips (m : W64) : List Nat := (List.range 64).filter fun c => m.getLsbD c

/-- The descriptor of a packet, as it is read, or, if the read succeeds, as a prediction gives it (15 R322, 16 R342). -/
def State.descFor (s : State) (x : Queue) (va : W64) (given : Option (List W64)) : Except FeStop (List W64) :=
  match given with
  | none => s.readDesc x va
  | some d => do
    feNeed (va.extractLsb' 57 7 == 0 && va.toNat % 64 == 0) 4
    let _ ← s.fe x.asid va false
    feNeed (s.descOk x.asid d) 4
    .ok d

/-- The checks of a LAUNCH or a LAUNCHX in their order (15 R322, 19 R397): with the descriptor as it is read, or as a
prediction gives it. `replica` says that F4 wrote the packet. -/
def State.checkLaunch (s : State) (k : Nat) (x : Queue) (w : List W64) (given : Option (List W64)) (replica : Bool) :
    Except FeStop (List W64) := do
  let w0 := recW w 0
  let joint := hdrType w0 == 2
  feNeed (fieldsOk w) 2
  feNeed (s.resOk (recW w 5) (hdrPair w0)) 3
  feNeed (s.fitsEmpty k x.asid w [0, 0, 0, 0, 0, 0, 0, 0]) 3
  let d ← s.descFor x (recW w 1) given
  feNeed (launchMatch w d) 4
  feNeed (x.classmask.getLsbD (resClass (recW w 5))) 5
  feNeed (scopesOk w0) 6
  feNeed (hdrClear w0) 7
  feNeed (!joint || (x.dq.isSome && recW w 7 != 0 && (maskChips (recW w 7)).all fun c => s.fab.chips.contains c)) 7
  feNeed (!joint || replica || recW w 15 == 0) 7
  s.sigCheck x.asid (recW w 6)
  let c := resChild (recW w 5)
  if joint then feNeed (c == 0) 9
  else if c = 0 then feNeed (recW w 7 == 0) 9
  else
    match s.queueOf x.asid (recW w 7) with
    | some (_, t) => feNeed (decide (c ≤ t.size)) 9
    | none => .error (.reject 9)
  .ok d

/-- The checks of a WAITSIG (15 R319, R322): its condition. -/
def State.checkWaitsig (s : State) (x : Queue) (w : List W64) : Except FeStop WCond := do
  feNeed (scopesOk (recW w 0)) 6
  feNeed (hdrClear (recW w 0) && (w.drop 4).all (fun v => v == 0) && (recW w 3).extractLsb' 4 60 == 0) 7
  let cc ← match WCond.ofCode (recW w 3).toNat with
    | some c => .ok c
    | none => .error (.reject 7)
  s.addrCheck x.asid (recW w 1) false
  .ok cc

/-- The checks of a SIGNAL. -/
def State.checkSignal (s : State) (x : Queue) (w : List W64) : Except FeStop Unit := do
  feNeed (scopesOk (recW w 0)) 6
  feNeed (hdrClear (recW w 0) && (w.drop 4).all (fun v => v == 0) && decide ((recW w 3).toNat < 3)) 7
  s.addrCheck x.asid (recW w 1) true

/-- The checks of a NOP. -/
def State.checkNop (s : State) (x : Queue) (w : List W64) : Except FeStop Unit := do
  feNeed (scopesOk (recW w 0)) 6
  feNeed (hdrClear (recW w 0) && (List.range 16).all fun i => i == 0 || i == 6 || recW w i == 0) 7
  s.sigCheck x.asid (recW w 6)

/-- The checks of a CONTREG in the order of 19 R386: its entry, none to clear. CHILD other than 0 is BADCHILD (log 104). -/
def State.checkContreg (s : State) (x : Queue) (w : List W64) : Except FeStop (Option ContEnt) := do
  let e ← if recW w 1 = 0 then .ok none
    else (do
      let d ← s.readDesc x (recW w 1)
      let w5 := recW w 5
      feNeed (resMatch w5 (recW d 1)) 4
      feNeed (s.resOk w5 ((recW d 3).getLsbD 1)) 3
      feNeed (resChild w5 == 0 && (s.queueOf x.asid (recW w 7)).isSome) 9
      .ok (some ⟨recW d 2, (recW d 3).getLsbD 3, (recW d 3).getLsbD 1, (recW d 3).getLsbD 2, recW w 7, w5, recW w 1⟩))
  feNeed (hdrClear (recW w 0) && (recW w 8).extractLsb' 8 56 == 0 &&
    (List.range 16).all fun i => i == 0 || i == 1 || (5 ≤ i && i ≤ 8) || recW w i == 0) 7
  s.sigCheck x.asid (recW w 6)
  .ok e

/-- Reject the packet at CONS (15 R322): ERR and ERRPOS, ERROR, the post, and the decrement of a completion signal that
passes its own checks. -/
def State.rejectPacket (s : State) (k : Nat) (x : Queue) (err : Nat) (w : Option (List W64)) : State :=
  let pos := qCons (s.q2 x)
  let s1 := (s.queueError k err pos).post (.rejected k err pos)
  let s2 :=
    match w with
    | none => s1
    | some l =>
      if [1, 2, 5, 6].contains (hdrType (recW l 0)) then
        match s1.sigCheck x.asid (recW l 6) with
        | .ok _ => s1.decSignal k pos (recW l 6)
        | .error _ => s1
      else s1
  s2.noteIdle s k

/-- The fetcher stops at a packet: it rejects it, waits for F2, or asks another chip (15 R322, 17 R363). -/
def State.feStop (s : State) (k : Nat) (x : Queue) (w : Option (List W64)) (e : FeStop) : State :=
  match e with
  | .reject err => s.rejectPacket k x err w
  | .park code va => (s.setQueue k { x with waiting := true }).fePost x.asid code va (.fetcher k)
  | .ask chip pa =>
    if s.fab.unreachable.contains chip then s.setQueue k { x with desc := .failed chip pa }
    else if s.feReading k || s.writeOut chip pa 64 || !s.streamRoom chip 4 1 0 then s
    else (s.setQueue k { x with desc := .asked chip pa }).send chip x.asid (.load pa 64) fun m => ⟨m, none, k, 0, 0, 0, [], none, 0⟩

/-- The packet that a speculation on a queue stands for will occupy this ring slot, now that another packet took the one before: its blocks
read it as QPKT (16 R344). -/
def State.moveSpecs (s : State) (k : Nat) (va : W64) : State :=
  let mine := fun (sp : Spec) => (s.qs.slots.getD sp.slot SlotState.free).q == some k
  let moved := fun (b : Block) => match b.spec.bind s.qs.specs.get? with
    | some sp => mine sp
    | none => false
  { s with
    qs := { s.qs with specs := KMap.mapV (fun _ sp => if mine sp then { sp with qpkt := va } else sp) s.qs.specs }
    blocks := KMap.mapV (fun _ (b : Block) => if moved b then { b with qpkt := va } else b) s.blocks }

/-- CONS goes up by one (15 R325): EPH follows (15 R323), and so does the ring slot of a speculation (16 R344). -/
def State.advanceCons (s : State) (k : Nat) : State :=
  match s.qs.queues.get? k with
  | none => s
  | some x =>
    let w := s.q2 x
    let c := (qCons w + 1) % 2 ^ 21
    ((s.setQ2 x (qWord2 c (qResv w) (qHeld w))).setQueue k { x with eph := phaseOf x c, desc := .none }).moveSpecs k (ringSlot x c)

end Sys2Proof.Machine
end

