-- ==== Sys2Proof/Machine/Predict.lean ====
section
/-! DEFINITION. The launch predictor and the cocoon (16 R337 to R353). -/

namespace Sys2Proof.Machine

/-! ### History and successors (16 R337 to R340) -/

/-- The 24 fields of a launch; PHASE is taken as 0 (16 R337). -/
def histOf (w desc : List W64) : Hist :=
  ((List.range 16).map fun i => if i = 0 then recW w 0 &&& ~~~(1 : W64) else recW w i) ++ (List.range 8).map fun i => recW desc i

/-- The kernel of a history entry: its descriptor's address. -/
def histKernel (h : Hist) : W64 := recW h 1

/-- Every field unpredicted. -/
def noClasses : List (Nat × Int) := List.replicate 24 (0, 0)

/-- The class of a field from its three latest values, oldest first, with its step (16 R339). -/
def classify (x1 x2 x3 : W64) : Nat × Int :=
  let d := (x3 - x2).toInt
  if x1 = x2 ∧ x2 = x3 then (1, 0)
  else if x3 - x2 = x2 - x1 ∧ d ≠ 0 ∧ -(2 ^ 31) ≤ d ∧ d < 2 ^ 31 then (2, d)
  else (0, 0)

/-- The classes of the fields of a kernel from its latest history entries, newest first. -/
def reclass (l : List Hist) : List (Nat × Int) :=
  match l with
  | h3 :: h2 :: h1 :: _ => (List.range 24).map fun f => classify (recW h1 f) (recW h2 f) (recW h3 f)
  | _ => noClasses

/-- The predicted value of a field (16 R340). -/
def predictField (c : Nat × Int) (x3 : W64) : Option W64 :=
  if c.1 = 1 then some x3 else if c.1 = 2 then some (x3 + BitVec.ofInt 64 c.2) else none

/-- The fields that an entry predicts: nothing until three launches of the kernel stand in the history, which no unmap keeps (16
R341). -/
def SlotState.predict (t : SlotState) (e : Succ) : List (Option W64) :=
  match t.hist.filter fun h => histKernel h == e.next with
  | h :: _ :: _ :: _ => e.cls.mapIdx fun f c => predictField c (recW h f)
  | _ => List.replicate 24 none

/-- Whether a launch equals every predicted value. -/
def fieldsMatch (fields : List (Option W64)) (h : Hist) : Bool :=
  (fields.zip h).all fun p => match p.1 with
    | some v => v == p.2
    | none => true

/-- The entry of the current key. -/
def SlotState.entry (t : SlotState) : Option Succ := t.succ.find? fun e => e.prev1 == t.key1 && e.prev2 == t.key2

/-- The successor entry after a launch: scored or made new, and reclassed (16 R339). -/
def SlotState.learn (t : SlotState) (h : Hist) : Succ :=
  let k := histKernel h
  let used := t.succ.foldl (fun a e => max a (e.used + 1)) 0
  let cls := reclass (h :: t.hist.filter fun x => histKernel x == k)
  match t.entry with
  | some e =>
    let hit := e.next == k && fieldsMatch (t.predict e) h
    { e with next := k, conf := if hit then min 3 (e.conf + 1) else 0, cls := cls, used := used }
  | none => ⟨t.key1, t.key2, k, 0, cls, used⟩

/-- The table with an entry, in the place of that of its key or of the least recently used (16 R338). -/
def putSucc (l : List Succ) (e : Succ) : List Succ :=
  let rest := l.filter fun x => !(x.prev1 == e.prev1 && x.prev2 == e.prev2)
  if rest.length < 64 then rest ++ [e]
  else
    let least := rest.foldl (fun a x => min a x.used) e.used
    (match rest.find? fun x => x.used == least with
      | some x => rest.erase x
      | none => rest) ++ [e]

/-- The predictor trains with a launch (16 R339). -/
def SlotState.train (t : SlotState) (h : Hist) : SlotState :=
  { t with
    succ := putSucc t.succ (t.learn h)
    hist := (h :: t.hist).take 32
    key1 := histKernel h
    key2 := t.key1 }

/-! ### Starting a launch (15 R333) -/

/-- The launch is handed to the dispatcher, and CONS goes up by one (15 R333, step 5). -/
def State.startLaunch (s : State) (k : Nat) (x : Queue) (pos : Nat) (w desc : List W64) : State :=
  let l := s.qs.launches.fresh
  let y := Launch.make k x.asid pos w desc none
  ({ s with qs := { s.qs with launches := s.qs.launches.put l y } } : State).advanceCons k

/-! ### Match and claim (16 R350, R351) -/

/-- The speculation of a slot. -/
def State.specOf (s : State) (slot : Nat) : Option (Nat × Spec) := s.qs.specs.find? fun p => p.2.slot == slot

/-- The lines of a cocoon become ordinary lines, of which the speculation wrote some bytes; what clusters hold of them goes: their
dirty bytes are merged, their copies are dropped (16 R351, step 2). Its poison is the lines' (21 R412), and the sectors that engines own for
it are owned for everyone. -/
def MemSys.convert (ms : MemSys) (n : Nat) : MemSys :=
  let c := ms.cocoon n
  let m0 := { ms with cocoons := ms.cocoons.del n, owned := c.owned ++ ms.owned }
  let m := (m0.cc.filter fun x => c.owned.contains (x.1 % 2 ^ 46)).foldl (fun m x => m.writeBackDrop (x.1 / 2 ^ 46) (x.1 % 2 ^ 46)) m0
  let m1 := c.lines.foldl (fun m (p : Nat × BitVec 2048 × BitVec 256) =>
    let m1 := m.homePut (256 * p.1) ((List.range 256).map fun i =>
      if p.2.2.getLsbD i then some (p.2.1.extractLsb' (8 * i) 8) else none)
    (m1.cc.filter fun x => (x.1 % 2 ^ 46) / 4 == p.1).foldl (fun m x => m.writeBackDrop (x.1 / 2 ^ 46) (x.1 % 2 ^ 46)) m1) m
  c.bad.foldl MemSys.setPoison m1

/-- The slots that a speculation took are charged, up to CEIL (16 R351, step 4). -/
def State.chargeClaim (s : State) (asid : Nat) (charge : KMap Nat) : State :=
  charge.foldl (fun a p =>
    let c := a.cluster p.1
    let u := a.budget p.1 asid
    a.setCluster p.1 { c with budgets := c.budgets.put asid { u with used := max u.used (min u.ceil (u.used + p.2)) } }) s

/-- Why a speculation can be claimed no more, if it cannot: it is spoiled, its cocoon is too large, or it has waited for 64 periods
(16 R346 to R348). -/
def State.specOver (s : State) (n : Nat) (sp : Spec) : Option SpecEnd :=
  let late := match sp.completedAt with
    | some t => decide (t + 64 * 65536 ≤ s.clk 0)
    | none => false
  if (s.ms.cocoon n).spoiled then some .spoiled
  else if s.ms.cocoonFull n then some .full
  else if late then some .timeout
  else none

/-- A claim (16 R351): the acquire; a speculation that is over is discarded and the launch starts as real work; otherwise the
cocoon is converted, CONS goes up, USED is charged, the speculation becomes the launch, its blocks have the packet's address, and
its counts are the context's (16 R353). -/
def State.claim (s : State) (k : Nat) (x : Queue) (pos : Nat) (w desc : List W64) (n : Nat) (sp : Spec) : State :=
  let s1 := s.acquireAll (hdrAcq (recW w 0))
  match s1.specOver n sp, s1.qs.launches.get? sp.launch with
  | some cause, _ => (s1.discardSpec n cause).startLaunch k x pos w desc
  | none, none => (s1.discardSpec n .abort).startLaunch k x pos w desc
  | none, some y =>
    let s2 := (s1.movePerf n (some x.asid)).updTele sp.slot fun t => { t with claimed := t.claimed + 1 }
    let s3 := { s2 with
      ms := s2.ms.convert n
      blocks := KMap.mapV (fun _ (b : Block) => if b.spec = some n then { b with spec := none, qpkt := ringSlot x pos } else b) s2.blocks
      qs := { s2.qs with
        specs := s2.qs.specs.del n
        launches := s2.qs.launches.put sp.launch { y with q := k, pos := pos, w := w, desc := desc, spec := none } } }
    (s3.advanceCons k).chargeClaim x.asid sp.charge

/-- Steps 3 to 5 of R333 for a LAUNCH: the predictor trains, and the launch is claimed or starts (16 R339, R350). -/
def State.consultPredictor (s : State) (slot k : Nat) (x : Queue) (pos : Nat) (w desc : List W64) : State :=
  let h := histOf w desc
  let s1 := s.updSlot slot fun t => t.train h
  match s1.specOf slot with
  | some (n, sp) =>
    if fieldsMatch sp.fields h then s1.claim k x pos w desc n sp
    else (((s1.discardSpec n .mismatch).acquireAll (hdrAcq (recW w 0))).startLaunch k x pos w desc)
  | none => (s1.acquireAll (hdrAcq (recW w 0))).startLaunch k x pos w desc

/-! ### Beginning a speculation (16 R342, R343) -/

/-- Whether an entry allows a speculation: CONF 3, fields 0 to 7 and 16 to 23 predicted, a plain LAUNCH of a predictable
kernel. -/
def mayPredict (e : Succ) (fields : List (Option W64)) : Bool :=
  let v := fun i => (fields.getD i none).getD 0
  e.conf == 3 && ((List.range 24).all fun i => (8 ≤ i && i < 16) || (fields.getD i none).isSome) &&
  hdrType (v 0) == 1 && !hdrProtect (v 0) && !hdrPair (v 0) && !hdrBarrier (v 0) && resChild (v 5) == 0 && (v 19).getLsbD 0

/-- Whether a fetcher that reads its next ring slot finds it empty (15 R316, 16 R342). -/
def State.slotEmpty (s : State) (x : Queue) : Bool :=
  let pos := qCons (s.q2 x)
  match s.feWords x.asid (ringSlot x pos) 16 with
  | .ok w => (recW w 0).getLsbD 0 != phaseOf x pos
  | .error _ => false

/-- A slot with an empty ring and a confident prediction starts a speculative launch on idle cores (R342). -/
def execSpecBegin (slot : Nat) (s : State) : Out :=
  let t := s.qs.slots.getD slot SlotState.free
  match t.q, t.entry with
  | some k, some e =>
    match s.qs.queues.get? k with
    | none => .next s
    | some x =>
      let fields := t.predict e
      let v := fields.map fun o => o.getD 0
      let idleCore := (List.range 768).any fun i => decide ((s.coreLoad (i / 8) (i % 8) fun _ => true).blocks = 0)
      let busy := (s.qs.launches.any fun p => p.2.q == k) || (s.specOf slot).isSome || decide (8 ≤ s.qs.specs.length)
      let open_ := x.st == .mapped && x.step == 0 && x.fetch == .none && !x.waiting && s.slotEmpty x
      if !open_ || busy || !mayPredict e fields || !idleCore then .next s
      else
        match s.checkLaunch k x (v.take 16) (some (v.drop 16)) false with
        | .error _ => .next s
        | .ok _ =>
          match (List.range 8).find? fun n => (s.qs.specs.get? n).isNone with
          | none => .next s
          | some n =>
            let cons := qCons (s.q2 x)
            let l := s.qs.launches.fresh
            let y := Launch.make k x.asid cons (v.take 16) (v.drop 16) (some n)
            let sp : Spec := ⟨slot, l, fields, ringSlot x cons, [], if y.total = 0 then some (s.clk 0) else none⟩
            let s0 := s.updTele slot fun t => { t with begun := t.begun + 1 }
            let s1 := { s0 with
              qs := { s0.qs with launches := s0.qs.launches.put l y, specs := s0.qs.specs.put n sp }
              ms := { s0.ms with cocoons := s0.ms.cocoons.put n ⟨[], [], [], false, []⟩ } }
            if y.coop then
              match s1.coopFits l y with
              | some (s2, _) =>
                .next { s2 with qs := { s2.qs with launches := s2.qs.launches.put l { y with handed := y.total } } }
              | none => .next s
            else .next s1
  | _, _ => .next s

/-! ### Ends of a speculation (16 R346 to R349) -/

/-- A completed speculation unclaimed for 64 periods of cluster 0 is discarded (R348); so is one that is spoiled, or whose
cocoon is full. -/
def execSpecTimeout (num : Nat) (s : State) : Out :=
  match s.qs.specs.get? num with
  | none => .next s
  | some sp =>
    match s.specOver num sp with
    | some cause => .next (s.discardSpec num cause)
    | none => .next s

/-- The L2 evicts a directory entry, which spoils any speculation that watched the line (R346). -/
def execDirectoryEntryEviction (line : Nat) (s : State) : Out := .next { s with ms := s.ms.spoil (256 * line) 256 }

end Sys2Proof.Machine
end

