-- ==== Sys2Proof/Machine/LoadStore.lean ====
section
/-! DEFINITION. The meanings of LOAD and STORE, and of INV and WB (06 R149 to R157, R177). -/

namespace Sys2Proof.Machine

/-- The address of an F-M word (06 R140). -/
def eaM (g : Group) (a : Src) (off : BitVec 18) (size k : Nat) : W64 :=
  g.src Rd.raw a k + off.signExtend 64 * BitVec.ofNat 64 size

/-- The address of an F-O word (06 R140). -/
def eaO (g : Group) (a : Src) (ofs : BitVec 13) (size k : Nat) : W64 :=
  g.src Rd.raw a k + ofs.signExtend 64 * BitVec.ofNat 64 size

/-- Write the bytes of a load into a register, a pair or a quad, zero-extended (06 R149). -/
def Lane.load (l : Lane) (d : Reg) (span : Nat) (t : Bool) (bytes : List Byte) : Lane :=
  (List.range span).foldl (fun x i =>
    x.setReg (d + BitVec.ofNat 6 i) (BitVec.ofNat 64 (leNat ((bytes.drop (8 * i)).take 8))) t) l

/-- The registers of a load, as bits of the scoreboard. -/
def spanMask (d : Reg) (span : Nat) : BitVec 64 := (List.range span).foldl (fun m i => m ||| ((1 : W64) <<< (d.toNat + i))) 0

/-- What a load does in a lane: bytes that it has at once, acts that fetch them later, or the end of a speculation. -/
inductive LdRes where
  | bytes (l : List Byte)
  | acts (l : List Act)
  | abort
  deriving DecidableEq, Repr

/-- Whether a core may read ahead what a load names: scratch is not read so, but nothing read ahead is of it (06 R144). -/
def State.readsAhead (_s : State) (chk : Chk) : Bool :=
  match chk with
  | .global leaf _ => !pteTso leaf
  | _ => true

/-- How a load word reads: past the cluster cache or not, whether a miss fills it, whether its reads may be performed later, and
where the parts of a lane go. -/
structure LdMode where
  past : Nat → Bool
  keep : Bool
  later : Bool
  rets : Nat → List Ret

/-- The acts of a load of this chip: one for each aligned part of 8 bytes, which alone is never torn (06 R146). -/
def loadActs (p : Place) (ldb keep : Bool) (pa n : Nat) (rets : List Ret) : List Act :=
  rets.mapIdx fun i r => .load p ldb keep (pa + 8 * i) (min 8 n) r

/-- The read of one lane, with what it leaves in the memory system. A load of another chip that queued stores of its core cover
reads their bytes, but for one behind a load of its lane that is still on its way (06 R146, R147). -/
def State.loadLane (s : State) (q : Cur) (ms : MemSys) (m : LdMode) (k : Nat) (r : Req) (chk : Chk) : LdRes × MemSys :=
  match chk with
  | .scratch off => (.bytes (q.blk.st.scratch.bytes off r.size), ms)
  | .global leaf pa =>
    match s.predicted q.blk r.ea r.size with
    | some (some l) => (.bytes l, ms)
    | some none => (.abort, ms)
    | none =>
      let p := placeOf s.fab.chip leaf pa
      match p with
      | .remote chip =>
        match if s.ownReadOut q k chip pa r.size then none else covered (s.queued q) (some chip) pa r.size with
        | some l => (.bytes l, ms)
        | none => (.acts [.rload chip pa r.size (m.rets k)], ms)
      | _ =>
        if s.defers q m.later chk then (.acts (loadActs p (m.past k) m.keep pa r.size (m.rets k)), ms)
        else
          let x := ms.readAt q.blk.cl q.blk.spec p (m.past k) m.keep pa r.size
          (.bytes (forward (s.queued q) none pa x.1), x.2)
  | _ => (.bytes [], ms)

/-- The reads of the executing lanes, in ascending order. -/
def State.loadLanes (s : State) (q : Cur) (m : LdMode) (req : Nat → Req) (chk : Nat → Chk) :
    List Nat → MemSys → List (Nat × LdRes) × MemSys
  | [], ms => ([], ms)
  | k :: l, ms =>
    let x := s.loadLane q ms m k (req k) (chk k)
    let y := s.loadLanes q m req chk l x.2
    ((k, x.1) :: y.1, y.2)

/-- A load word. `ldb` reads past the cluster cache, `keep` lets a miss fill it (02 R52), `taintAll` taints what is written, `acq`
is the acquire action with the storage scope that its word names. A load without one may be performed later, or, but for one by a
tainted address and one of a TSO page, may have been performed ahead (06 R144, R152, 11 R289). -/
def loadWord (s : State) (c : Ctl) (d : Dst) (sz : Size) (ea : Group → Nat → W64) (addr : Src) (ldb keep taintAll : Bool)
    (acq : Option (AScope × SScope)) : Out :=
  let past := fun (q : Cur) k => ldb || q.grp.srcTaint addr k
  let req := fun (q : Cur) k => (⟨ea q.grp k, sz.bytes, false, true, false, .any, false, false⟩ : Req)
  withAccess s c (acq.map fun p => p.1) acq.isNone past req fun s q chk =>
    let lanes := q.active c
    let span := sz.span
    let taint := fun k => taintAll || q.grp.srcTaint addr k
    let rets := fun k => (List.range span).map fun i => (⟨k, some (d.r + BitVec.ofNat 6 i), taint k, none, none⟩ : Ret)
    let x := s.loadLanes q ⟨past q, keep, acq.isNone, rets⟩ (req q) chk lanes s.ms
    if x.1.any fun p => p.2 == .abort then .next (s.takeFault q { code := .permission, lane := 0 })
    else
      let g := (q.grp.mapLanes fun k l =>
        match x.1.find? fun p => p.1 == k with
        | some (_, .bytes b) => l.load d.r span (taint k) b
        | _ => l).shiftLatch d.r
      let late := lanes.any fun k => q.grp.srcTaint addr k || !s.readsAhead (chk k)
      let acts := x.1.flatMap fun p =>
        match p.2 with
        | .acts l => l.map fun a => Cur.hold s q p.1 (req q p.1).ea none (acq.map fun a => (a.1, .sg)) a
        | _ => []
      let far := if acq.isSome then acts.length else 0
      let g1 := { g with sb := g.sb ||| spanMask d.r span, acqPend := g.acqPend + far, ahead := if late then [] else g.ahead }
      let s1 := { s with ms := x.2 }
      let s2 := (s1.finish q q.blk.st g1).pushHeld q acts
      match acq with
      | some a =>
        let global := lanes.any fun k => match chk k with
          | .global _ _ => true
          | _ => false
        .next (if lanes.isEmpty then s2 else s2.acquireAct q.blk.cl a.1 (if global then .sg else a.2))
      | none => .next s2

/-- Plain load, served from the cluster cache on an ordinary page (R149). -/
def execLd (c : Ctl) (o : MLd) (s : State) : Out :=
  loadWord s c o.d o.sz (fun g k => eaM g o.a o.off o.sz.bytes k) o.a false (o.ch != .noalloc) false none

/-- Consume load performed as an LDB that taints every register it writes (R152). -/
def execLdc (c : Ctl) (o : MLd) (s : State) : Out :=
  loadWord s c o.d o.sz (fun g k => eaM g o.a o.off o.sz.bytes k) o.a true true true none

/-- Load from the home, writing back a dirty sector first and invalidating the cluster copy (R150). -/
def execLdb (c : Ctl) (o : MLd) (s : State) : Out :=
  loadWord s c o.d o.sz (fun g k => eaM g o.a o.off o.sz.bytes k) o.a true true false none

/-- Acquiring load performed as an LDB followed by the acquire action (R149). -/
def execLda (c : Ctl) (o : OLd) (s : State) : Out :=
  loadWord s c o.d o.sz (fun g k => eaO g o.a o.ofs o.sz.bytes k) o.a true true false (some (o.asc, o.ssc))

/-- The end of a word that changes nothing but its PC. -/
def onlyAdvance (s : State) : Out := withCur s fun q => .next (s.finish q q.blk.st q.grp)

/-- The leaf under an address as a prefetch finds it: by the TLBs, else by a walk that only the prefetch waits for. -/
def State.prefLeaf (s : State) (q : Cur) (ea : W64) : Option W64 :=
  if inWindow ea || decide (2 ^ 57 ≤ ea.toNat) then none
  else
    match s.trOf q ea with
    | some e => some e
    | none => s.ms.walk (s.root q.blk.asid) ea

/-- The prefetch of one lane. It is dropped where a check would fail, and on scratch, memory-side, remote and poisoned addresses (06
R153, 21 R413); the cluster cache takes no TSO and no host line (06 R143), and nothing that a speculation reads (16 R345; log
96); an engine that owns the sector keeps it. -/
def State.prefetch (s : State) (q : Cur) (tg : PrefTarget) (keep : Bool) (ea : W64) : State :=
  match s.prefLeaf q ea with
  | none => s
  | some leaf =>
    let pa := leafPa leaf ea
    if (pteRem leaf && pteChip leaf != s.fab.chip) || pteMs leaf || beyondHbm pa || !pteR leaf || q.blk.spec.isSome then s
    else
      match tg with
      | .l2 => s
      | .cc =>
        if !keep || placeOf s.fab.chip leaf pa != .cache || (s.ms.cc.get? (ccKey q.blk.cl (pa / 64))).isSome ||
            s.ms.owned.contains (pa / 64) || s.ms.poison.contains (pa / 64) then s
        else { s with ms := s.ms.ccPut q.blk.cl (pa / 64) (s.ms.fill (pa / 64)) }
      | .icache =>
        if !pteX leaf || s.ms.poisoned (pa / 256 * 256) 256 ||
            (s.ms.icache.get? (icKey q.blk.cl q.blk.asid (ea.setWidth 57))).isSome then s
        else s.icFill q.blk.cl q.blk.asid (ea.setWidth 57) (pa / 256 * 256)

/-- Prefetch hint into the L2, cluster cache or instruction cache; never faults after decode (R153). -/
def execPref (c : Ctl) (o : MPref) (s : State) : Out :=
  withCur s fun q =>
    let s1 := (q.active c).foldl (fun a k => a.prefetch q o.tg (o.ch != .noalloc) (eaM q.grp o.a o.off 1 k)) s
    .next (s1.finish q q.blk.st q.grp)

/-- What a store does in the issuing lanes: scratch at once, global memory from the store queue (06 R147, R154). -/
def storeWord (s : State) (c : Ctl) (size : Nat) (ea : Group → Nat → W64) (data : Group → Nat → List Byte)
    (way : WriteWay) (rel : Option (AScope × SScope)) : Out :=
  let req := fun (q : Cur) k => (⟨ea q.grp k, size, true, false, true, .any, false, false⟩ : Req)
  withAccess s c (rel.map fun p => p.1) false (fun _ _ => false) req fun s q chk =>
    let lanes := q.active c
    let toScratch := lanes.any fun k => match chk k with
      | .scratch _ => true
      | _ => false
    let acks := match rel with
      | some a => releaseAcks a.1
      | none => .results
    afterDrain s q (rel.isSome && toScratch) acks <|
      let s0 := match rel with
        | some a =>
          let r := if toScratch then s.releaseAct q.blk.cl a.1 a.2 else s
          if widerThanBlk a.1 && !lanes.isEmpty then r.sealBlk q.id else r
        | none => s
      let s1 := lanes.foldl (fun x k =>
        match chk k with
        | .scratch off => x.scratchPut q off (data q.grp k)
        | _ => x) s0
      let acts := lanes.filterMap fun k =>
        match chk k with
        | .global leaf pa =>
          some (Cur.hold s q k (ea q.grp k) (rel.map fun a => (a.1, .sg)) none
            (.store (placeOf s.fab.chip leaf pa) way pa (data q.grp k)))
        | _ => none
      withCur s1 fun q1 => .next ((s1.finish q1 q1.blk.st q1.grp).pushHeld q1 acts)

/-- The data of a store: the low bytes of a register, or a pair or quad in ascending order (06 R154). -/
def storeData (d : Reg) (sz : Size) (g : Group) (k : Nat) : List Byte :=
  (((List.range sz.span).map fun i => leBytes ((g.lane k).reg (d + BitVec.ofNat 6 i)).toNat 8).flatten).take sz.bytes

/-- How a plain store of a hint goes: no-allocate leaves the cluster cache alone where it misses (02 R52). -/
def hintWay (h : Hint) : WriteWay := if h = .noalloc then .around else .back

/-- Plain store, leaving the sector dirty in the cluster cache (R154). -/
def execSt (c : Ctl) (o : MSt) (s : State) : Out :=
  storeWord s c o.sz.bytes (fun g k => eaM g o.a o.off o.sz.bytes k) (storeData o.d o.sz) (hintWay o.ch) none

/-- Release action then store, written through to the L2 at DEV or wider (R154). -/
def execStl (c : Ctl) (o : OSt) (s : State) : Out :=
  storeWord s c o.sz.bytes (fun g k => eaO g o.a o.ofs o.sz.bytes k) (storeData o.d o.sz) (if atLeastDev o.asc then .through else .back)
    (some (o.asc, o.ssc))

/-- Store written through to the home, leaving no dirty copy (R154). -/
def execStnt (c : Ctl) (o : MSt) (s : State) : Out :=
  storeWord s c o.sz.bytes (fun g k => eaM g o.a o.off o.sz.bytes k) (storeData o.d o.sz) .through none

/-- Store of zero bytes over the access size (R154). -/
def execZeroSt (c : Ctl) (o : MZero) (s : State) : Out :=
  storeWord s c o.sz.bytes (fun g k => eaM g o.a o.off o.sz.bytes k) (fun _ _ => List.replicate o.sz.bytes 0) (hintWay o.ch) none

/-- INV and WB (06 R177): on an ordinary page, after the earlier accesses of the group. -/
def sectorWord (s : State) (c : Ctl) (o : MSec) (f : MemSys → Nat → Nat → MemSys) : Out :=
  let req := fun (q : Cur) k => (⟨eaM q.grp o.a o.off 1 k, 1, true, false, true, .any, false, false⟩ : Req)
  withAccess s c none false (fun _ _ => false) req fun s q chk =>
    let lanes := q.active c
    let own := fun k => match chk k with
      | .global leaf pa => if ordinaryPage s.fab.chip leaf pa && q.blk.spec.isNone then some (pa / 64) else none
      | _ => none
    afterDrain s q (lanes.any fun k => (own k).isSome) .results <|
      let ms := lanes.foldl (fun m k =>
        match own k with
        | some sec => f m q.blk.cl sec
        | none => m) s.ms
      .next ({ s with ms := ms }.finish q q.blk.st q.grp)

/-- Writes back a dirty sector and invalidates the cluster copy (R177). -/
def execInv (c : Ctl) (o : MSec) (s : State) : Out := sectorWord s c o MemSys.writeBackDrop

/-- Writes back a dirty sector and keeps a clean copy (R177). -/
def execWb (c : Ctl) (o : MSec) (s : State) : Out := sectorWord s c o MemSys.writeBack

end Sys2Proof.Machine
end

