-- ==== Sys2Proof/Machine/Sync.lean ====
section
/-! DEFINITION. FENCE (06 R158) and WAITC with its events (06 R168 to R170, 19 R392). -/

namespace Sys2Proof.Machine

/-- What a FENCE waits for (06 R155, R156, R158): an acquire for the earlier reads of the group, whatever storage it names; a release of
global storage for every earlier access, FENCE.ar for those of other chips too; and FAB and SYS for every acknowledgement. The
scratch accesses of the group are performed when they issue. -/
def fenceWaits (o : OFence) : Option Acks :=
  if Order.isRel o.ord && atLeastFab o.asc then some .chip
  else if !coversG o.ssc then (if Order.isAcq o.ord then some .reads else none)
  else if Order.isRel o.ord && Order.isAcq o.ord then some .group
  else if Order.isRel o.ord then some .results
  else some .reads

/-- Takes the acquire, release or acquire-release action at its scopes (R158). -/
def execFence (c : Ctl) (o : OFence) (s : State) : Out :=
  withCur s fun q =>
    if (q.active c).isEmpty then .next (s.finish q q.blk.st q.grp)
    else if q.blk.spec.isSome && atLeastFab o.asc then .next (s.takeFault q { code := .permission, lane := 0 })
    else
      afterDrain s q (fenceWaits o).isSome ((fenceWaits o).getD .results) <|
        let s1 := if Order.isRel o.ord then s.releaseAct q.blk.cl o.asc o.ssc else s
        let s2 := if Order.isRel o.ord && widerThanBlk o.asc then s1.sealBlk q.id else s1
        let s3 := if Order.isAcq o.ord then s2.acquireAct q.blk.cl o.asc o.ssc else s2
        withCur s3 fun q1 => .next (s3.finish q1 q1.blk.st q1.grp)

/-- A condition of WAITC on values of width `w` (02 R58). -/
def wcondHolds {w : Nat} (cc : WCond) (a b : BitVec w) : Bool :=
  match cc with
  | .eq => a == b
  | .ne => a != b
  | .lt => a.slt b
  | .le => a.sle b
  | .gt => b.slt a
  | .ge => b.sle a
  | .any => (a &&& b) != 0
  | .none => (a &&& b) == 0
  | .ltu => a.ult b
  | .leu => a.ule b
  | .gtu => b.ult a
  | .geu => b.ule a

/-- A condition at the size of the access (06 R168). -/
def wcondAt (cc : WCond) (wide : Bool) (a b : W64) : Bool :=
  if wide then wcondHolds cc a b else wcondHolds cc (a.setWidth 32) (b.setWidth 32)

/-- Monitors of a core in use (06 R170). -/
def MemSys.monitorsOf (ms : MemSys) (cl co : Nat) : Nat := ms.monitors.countP fun m => m.cl == cl && m.co == co

/-- The end of a WAITC: the last values go to DST, then the acquire action (06 R169). Nothing of the sectors that it has read was read
ahead for a later load (06 R146). -/
def waitcEnd (s : State) (q : Cur) (c : Ctl) (o : AWaitc) (secs : List Nat) (vals : List (Nat × W64)) : State :=
  let g := (q.grp.mapLanes fun k l =>
    if q.grp.runs q.slot c k then
      l.setReg o.d.r ((vals.find? fun p => p.1 == k).elim 0 fun p => p.2) (q.grp.srcTaint o.a k || q.grp.srcTaint o.b k)
    else l).shiftLatch o.d.r
  let s1 := s.finish q q.blk.st { g with
    sb := g.sb ||| ((1 : W64) <<< o.d.r.toNat)
    ahead := g.ahead.filter fun e => !secs.contains e.sector }
  if o.acq && !(q.active c).isEmpty then s1.acquireAct q.blk.cl o.asc o.ssc else s1

/-- The sectors that an armed WAITC watches: those of scratch and of this chip (06 R170, 19 R392). -/
def watchOf (s : State) (q : Cur) (lanes : List Nat) (chk : Nat → Chk) : List Monitor :=
  (lanes.filterMap fun k =>
    match chk k with
    | .scratch off => some (⟨q.id, q.gi, q.blk.cl, q.co, true, off / 64⟩ : Monitor)
    | .global leaf pa => if pteRem leaf && pteChip leaf != s.fab.chip then none else some ⟨q.id, q.gi, q.blk.cl, q.co, false, pa / 64⟩
    | _ => none).eraseDups

/-- Loads until a condition holds in every lane, sleeping on sector monitors between checks (R169). Where the core has a free monitor
but not one for each sector named, it arms none, and the word rechecks every 1,024 local cycles as R170 says of no free
monitor (log 94). -/
def execWaitc (c : Ctl) (o : AWaitc) (s : State) : Out :=
  let req := fun (q : Cur) k => (⟨q.grp.src Rd.raw o.a k, o.sz.bytes, false, true, false, .any, false, false⟩ : Req)
  withAccess s c (some o.asc) false (fun _ _ => true) req fun s q chk =>
    let lanes := q.active c
    let clk := s.clk q.blk.cl
    let secs := lanes.filterMap fun k => match chk k with
      | .global _ pa => some (pa / 64)
      | _ => none
    let w : WaitcRec := match (q.grp.pcSlot q.slot).wait with
      | .waitcCheck w => w
      | .waitcLeave w => w
      | _ => ⟨(q.grp.pcSlot q.slot).began, clk, [], [], false⟩
    let leave := match (q.grp.pcSlot q.slot).wait with
      | .waitcLeave _ => true
      | _ => false
    if leave || lanes.isEmpty then .next (waitcEnd s q c o secs w.vals)
    else
      let mode : LdMode := ⟨fun _ => true, true, false, fun k => [⟨k, none, false, none, none⟩]⟩
      let x := s.loadLanes q mode (req q) chk lanes s.ms
      if x.1.any fun p => p.2 == .abort then .next (s.takeFault q { code := .permission, lane := 0 })
      else
        let near := x.1.filterMap fun p =>
          match p.2 with
          | .bytes b => some (p.1, (BitVec.ofNat 64 (leNat b) : W64))
          | _ => none
        let far := x.1.filterMap fun p =>
          match p.2 with
          | .acts [.rload chip pa _ _] => some (p.1, chip, pa)
          | _ => none
        let s1 := { s with ms := x.2 }
        if far.all fun p => w.got.any fun g => g.1 == p.1 then
          let vals := near ++ w.got
          let b := fun k => q.grp.src Rd.raw o.b k
          let ok := lanes.all fun k => wcondAt o.cc (o.sz == .b8) ((vals.find? fun p => p.1 == k).elim 0 fun p => p.2) (b k)
          if ok || decide (w.issued + 65536 ≤ clk) then .next (waitcEnd s1 q c o secs vals)
          else
            let m := watchOf s1 q lanes chk
            let free := decide (s1.ms.monitorsOf q.blk.cl q.co + m.length ≤ 32)
            let s2 := if free then { s1 with ms := { s1.ms with monitors := s1.ms.monitors ++ m } } else s1
            .next (s2.waitSlot q (.waitc { w with slept := clk, vals := vals, got := [], armed := free }))
        else
          let acts := far.map fun p =>
            Cur.hold s q p.1 (q.grp.src Rd.raw o.a p.1) none none (.rwait p.2.1 p.2.2 (o.sz == .b8))
          .next ((s1.waitSlot q (.waitc { w with slept := clk, got := [], armed := false })).pushHeld q acts)

/-! ### What ends the sleep of a WAITC (06 R169, R170) -/

/-- Whether reads of a WAITC on other chips are outstanding. -/
def State.waitcOut (s : State) (b : Block) (id gi : Nat) : Bool :=
  ((s.core b.cl (b.coreOf gi)).held.any fun h => h.blk == id && h.grp == gi &&
    (match h.act with
      | .rwait _ _ _ => true
      | _ => false)) ||
  s.fab.retry.any fun m => m.blk == some id && m.grp == gi &&
    (match m.m.op with
      | .waitc _ _ => true
      | _ => false)

/-- Change the sleeping WAITCs of a group, and disarm its monitors. -/
def State.wakeWaitc (s : State) (id gi : Nat) (f : WaitcRec → SWait) : State :=
  let go := fun (w : SWait) => match w with
    | .waitc r => f r
    | _ => w
  let s1 := s.updGrp id gi fun g => { g with slot0 := g.slot0.rewait go, slot1 := g.slot1.rewait go }
  { s1 with ms := { s1.ms with monitors := s1.ms.monitors.filter fun m => !(m.blk == id && m.grp == gi) } }

/-- A write to a watched sector wakes a sleeping WAITC to recheck (R170). -/
def execMonitorWake (blk grp : Nat) (s : State) : Out :=
  if s.ms.fired.contains (blk, grp) then
    let s1 := { s with ms := { s.ms with fired := s.ms.fired.filter fun p => p != (blk, grp) } }
    .next (s1.wakeWaitc blk grp .waitcCheck)
  else .next s

/-- The record of a sleeping WAITC. -/
def SWait.waitc? : SWait → Option WaitcRec
  | .waitc r => Option.some r
  | _ => Option.none

/-- Change the WAITCs of a group whose record meets a test, when none of its reads is outstanding. The monitors are the
group's, so another WAITC of the group that sleeps checks again. -/
def State.waitcEvent (s : State) (blk grp : Nat) (test : Nat → WaitcRec → Bool) (f : WaitcRec → SWait) : State :=
  match s.blocks.get? blk with
  | some b =>
    match b.st.groups[grp]? with
    | some g =>
      let meets := fun (p : PcSlot) => match p.wait.waitc? with
        | some r => test (s.clk b.cl) r
        | none => false
      if s.waitcOut b blk grp || !(meets g.slot0 || meets g.slot1) then s
      else s.wakeWaitc blk grp fun r => if test (s.clk b.cl) r then f r else .waitcCheck r
    | none => s
  | none => s

/-- After 1,024 local cycles asleep a WAITC rechecks its condition (R169). -/
def execWaitcRecheckTimer (blk grp : Nat) (s : State) : Out :=
  .next (s.waitcEvent blk grp (fun clk r => decide (r.slept + 1024 ≤ clk)) .waitcCheck)

/-- After 65,536 local cycles since issue a WAITC returns with the last value (R169). -/
def execWaitcTimeout (blk grp : Nat) (s : State) : Out :=
  .next (s.waitcEvent blk grp (fun clk r => decide (r.issued + 65536 ≤ clk)) .waitcLeave)

/-- The part may end a WAITC at any time with its last loaded values (R169). -/
def execWaitcSpuriousReturn (blk grp : Nat) (s : State) : Out :=
  .next (s.waitcEvent blk grp (fun _ _ => true) .waitcLeave)

end Sys2Proof.Machine
end

