-- ==== Sys2Proof/Machine/Front.lean ====
section
/-! DEFINITION. The fetchers: kicks, reading packets in ring order, and what each type of packet does (15 R315 to R336, 19
R386, R397 to R399). -/

namespace Sys2Proof.Machine

/-! ### Wakes (15 R327) -/

/-- The monitor of a parked WAITSIG of a queue has matched: a write reached the sector of its signal (R327). -/
def State.sigMatch (s : State) (k : Nat) : State :=
  if s.ms.sigHit.contains k then ({ s with ms := { s.ms with sigHit := s.ms.sigHit.filter fun q => q != k } } : State).kickQueue k else s

/-- A write to a QCB's KICK word wakes the mapped fetcher or marks an unmapped queue READY (R327). -/
def execKick (q : Nat) (s : State) : Out :=
  match s.qs.queues.get? q with
  | none => .next s
  | some x => .next (({ s with ms := { s.ms with kicked := s.ms.kicked.filter fun a => a != x.pa } } : State).kickQueue q)

/-- A write to the sector of a mapped fetcher's next word 0, or of the signal of its parked WAITSIG, wakes the fetcher without a kick
(R327). -/
def execFetcherMonitorMatch (slot : Nat) (s : State) : Out :=
  match (s.qs.slots.getD slot SlotState.free).q with
  | none => .next s
  | some k =>
    match s.qs.queues.get? k with
    | none => .next s
    | some x => .next (if (s.head? x).isSome then (s.sigMatch k).kickQueue k else s.sigMatch k)

/-! ### Reading the next packet (15 R316, R322) -/

/-- What a fetcher finds at its next ring slot. -/
inductive Head where
  | empty
  | stop (e : FeStop)
  | packet (pos : Nat) (w : List W64)
  deriving DecidableEq, Repr

/-- Read the next ring slot. -/
def State.readHead (s : State) (x : Queue) : Head :=
  let pos := qCons (s.q2 x)
  match s.feWords x.asid (ringSlot x pos) 16 with
  | .error e => .stop e
  | .ok w => if (recW w 0).getLsbD 0 == phaseOf x pos then .packet pos w else .empty

/-- The queue that a slot's fetcher reads for: mapped, woken, between packets and not waiting (15 R323, R328). -/
def State.fetching (s : State) (slot : Nat) : Option (Nat × Queue) :=
  let t := s.qs.slots.getD slot SlotState.free
  t.q.bind fun k => (s.qs.queues.get? k).bind fun x =>
    if x.st == .mapped && x.step == 0 && x.fetch == .none && !x.waiting && t.woken then some (k, x) else none

/-- A fetcher reads a packet of the types that a test names; an empty slot puts it to sleep; a queue that becomes idle by what the
packet does calls for a decision (R330). -/
def fetchWord (s : State) (slot : Nat) (want : Nat → Bool) (act : Nat → Queue → Nat → List W64 → State) : State :=
  match s.fetching slot with
  | none => s
  | some (k, x) =>
    match s.readHead x with
    | .empty => s.updSlot slot fun t => { t with woken := false }
    | .stop e => s.feStop k x none e
    | .packet pos w => if want (hdrType (recW w 0)) then (act k x pos w).noteIdle s k else s

/-- Whether a BARRIER bit holds a packet back (15 R315). -/
def State.barred (s : State) (k : Nat) (w : List W64) : Bool := hdrBarrier (recW w 0) && s.unfinished k

/-! ### Joint launch (19 R397 to R399) -/

/-- The word 15 that F4 writes into a replica (19 R398). -/
def replicaWord (m : W64) (chip : Nat) : W64 :=
  let rank := (maskChips m).countP fun c => decide (c < chip)
  (0 : BitVec 42) ++ BitVec.ofNat 6 (maskChips m).length ++ (0 : BitVec 2) ++ BitVec.ofNat 6 rank ++ (0 : BitVec 2) ++
    BitVec.ofNat 6 chip

/-- The words of a replica for a chip. -/
def replicaOf (w : List W64) (chip : Nat) : List W64 := w.take 15 ++ [replicaWord (recW w 7) chip]

/-- Write a replica into the ring of a fabric queue of this chip: none if the ring is full. Generations are counted on every chip
alike, so the next packet of this chip has a later one (19 R399, R400). -/
def State.putReplica (s : State) (k : Nat) (x : Queue) (src gen : Nat) (w : List W64) : Option State :=
  if s.slotBeyond x then some (s.slotFails k x)
  else (s.reserve x false).map fun r =>
    let y := { x with replicas := x.replicas ++ [⟨r.1, src, gen, false⟩], gen := max x.gen (gen + 1) }
    (r.2.setQueue k y).putPacket k y r.1 w

/-- Send a message of F4 to another chip, now or once its stream has room, in order (19 R394). -/
def State.sendF4 (s : State) (chip asid : Nat) (op : RemoteOp) : State :=
  if (s.fab.f4.any fun x => x.1 == chip) || !s.streamRoom chip (vcOf op) 1 (carried op) then
    { s with fab := { s.fab with f4 := s.fab.f4 ++ [(chip, asid, op)] } }
  else s.send chip asid op fun m => ⟨m, none, 0, 0, 0, 0, [], none, 0⟩

/-- The first message of F4 that waited and now finds room goes out. -/
def State.flushF4 (s : State) : State :=
  match s.fab.f4.find? fun x => s.streamRoom x.1 (vcOf x.2.2) 1 (carried x.2.2) &&
      (s.fab.f4.find? fun y => y.1 == x.1) == some x with
  | some x => ({ s with fab := { s.fab with f4 := s.fab.f4.erase x } } : State).send x.1 x.2.1 x.2.2 fun m => ⟨m, none, 0, 0, 0, 0, [], none, 0⟩
  | none => s

/-- The queue of this chip with a domain queue number. -/
def State.fabricQueue (s : State) (dq : Nat) : Option (Nat × Queue) :=
  s.qs.queues.find? fun p => p.2.dq == some dq && p.2.st != .dead

/-- Change the record of a joint launch at its coordinator. -/
def State.updJoin (s : State) (dq gen : Nat) (f : Join → Join) : State :=
  { s with fab := { s.fab with joins := s.fab.joins.map fun j => if j.dq = dq ∧ j.gen = gen then f j else j } }

/-- The record of a joint launch. -/
def State.joinOf (s : State) (dq gen : Nat) : Option Join := s.fab.joins.find? fun j => j.dq == dq && j.gen == gen

/-- The replica that the fetcher of a queue has reached. -/
def Queue.replicaAt (x : Queue) (pos : Nat) : Option Replica := x.replicas.find? fun r => r.pos == pos

/-- The replica for which the fetcher of a queue waits: it has joined. -/
def Queue.joinedReplica (x : Queue) : Option (Replica × List W64 × List W64) :=
  match x.fetch with
  | .launch pos w desc true => (x.replicaAt pos).map fun r => (r, w, desc)
  | _ => none

/-- A replica of a generation, of a coordinator if one is named. -/
def Replica.is (r : Replica) (gen : Nat) (src : Option Nat) : Bool := r.gen == gen && src.all fun c => c == r.src

/-- The fetcher is done with a replica. -/
def State.dropReplica (s : State) (k pos : Nat) : State :=
  match s.qs.queues.get? k with
  | some x => s.setQueue k { x with replicas := x.replicas.filter fun r => r.pos != pos }
  | none => s

/-- The coordinator gives a generation up: ABORT to every other chip of the mask (19 R399). -/
def State.abortAll (s : State) (dq gen : Nat) : State :=
  match s.joinOf dq gen with
  | none => s
  | some j =>
    if j.started || j.aborted then s
    else
      ((maskChips j.mask).filter fun c => c != s.fab.chip).foldl (fun a c => a.sendF4 c 0 (.abort dq gen s.fab.chip))
        (s.updJoin dq gen fun y => { y with aborted := true })

/-- A chip has joined (19 R399): when all have, START goes to every other chip of the mask. -/
def State.chipJoined (s : State) (dq gen chip : Nat) : State :=
  match s.joinOf dq gen with
  | none => s
  | some j =>
    if j.started || j.aborted || j.joined.contains chip || !(maskChips j.mask).contains chip then s
    else
      let all := (chip :: j.joined).length == (maskChips j.mask).length
      let s1 := s.updJoin dq gen fun y => { y with joined := chip :: y.joined, started := all }
      if all then
        ((maskChips j.mask).filter fun c => c != s.fab.chip).foldl (fun a c => a.sendF4 c 0 (.start dq gen)) s1
      else s1

/-- A replica of this chip is rejected: its coordinator learns it (19 R399). -/
def State.replicaFails (s : State) (x : Queue) (pos : Nat) : State :=
  match x.replicaAt pos, x.dq with
  | some r, some dq => if r.src = s.fab.chip then s.abortAll dq r.gen else s.sendF4 r.src x.asid (.abort dq r.gen r.src)
  | _, _ => s

/-- START at a chip: it acquires and dispatches its replica (19 R399). -/
def State.gotStart (s : State) (dq gen : Nat) (src : Option Nat) : State :=
  match s.fabricQueue dq with
  | none => s
  | some (k, x) =>
    match x.joinedReplica with
    | some (r, w, desc) =>
      if r.is gen src then
        let s1 := (s.setQueue k { x with fetch := .none }).acquireAll (hdrAcq (recW w 0))
        (s1.startLaunch k { x with fetch := .none } r.pos w desc).dropReplica k r.pos
      else s
    | none => s

/-- ABORT has come for a replica that has not joined (19 R399). -/
def State.noteAbort (s : State) (k : Nat) (x : Queue) (gen : Nat) (src : Option Nat) : State :=
  s.setQueue k { x with replicas := x.replicas.map fun r => if r.is gen src then { r with aborted := true } else r }

/-- ABORT at a chip: it rejects its replica with JOINFAIL, at once if it has joined, else once every other check of the replica has
passed (19 R399, 15 R322). -/
def State.gotAbort (s : State) (dq gen : Nat) (src : Option Nat) : State :=
  match s.fabricQueue dq with
  | none => s
  | some (k, x) =>
    match x.joinedReplica with
    | some (r, w, _) =>
      if r.is gen src then
        let y := { x with fetch := .none }
        ((s.setQueue k y).rejectPacket k y 11 (some w)).dropReplica k r.pos
      else s.noteAbort k x gen src
    | none => s.noteAbort k x gen src

/-- A chip's join for a generation reaches the coordinator, which sends START when all have joined (R399). The join of this
chip reaches it once its replica waits. -/
def execJoinMessage (dq gen chip : Nat) (s : State) : Out :=
  let mine := match s.fabricQueue dq with
    | some (_, x) => x.joinedReplica.any fun r => r.1.is gen (some s.fab.chip)
    | none => false
  .next (if chip ≠ s.fab.chip || mine then s.chipJoined dq gen chip else s)

/-- On START a chip acquires and dispatches its replica of the joint launch (R399): at the coordinator once every chip has
joined. -/
def execStartMessage (dq gen : Nat) (s : State) : Out :=
  match s.joinOf dq gen with
  | some j => .next (if j.started then s.gotStart dq gen (some s.fab.chip) else s)
  | none => .next (s.gotStart dq gen none)

/-- On ABORT a chip rejects its replica with JOINFAIL (R399): at the coordinator once it has given the generation up. -/
def execAbortMessage (dq gen : Nat) (s : State) : Out :=
  match s.joinOf dq gen with
  | some j => .next (if j.aborted then s.gotAbort dq gen (some s.fab.chip) else s)
  | none => .next (s.gotAbort dq gen none)

/-- The coordinator sends ABORT when not every chip joined within the watchdog limit (R399). -/
def execJoinTimeout (dq gen : Nat) (s : State) : Out :=
  match s.joinOf dq gen with
  | some j => .next (if decide (j.since + j.limit ≤ s.clk 0) then s.abortAll dq gen else s)
  | none => .next s

/-! ### LAUNCH and LAUNCHX (15 R333, 19 R397) -/

/-- The fetcher reads and checks a LAUNCH packet, consults the predictor, acquires and hands the launch to the dispatcher (R333):
here it checks the packet, and rejects a packet of a type that does not exist. -/
def execFetchLaunch (slot : Nat) (s : State) : Out :=
  .next <| fetchWord s slot (fun t => t < 2 || 6 < t) fun k x pos w =>
    if hdrType (recW w 0) ≠ 1 then s.rejectPacket k x 1 (some w)
    else
      match s.checkLaunch k x w none false with
      | .error e => s.feStop k x (some w) e
      | .ok d => s.setQueue k { x with fetch := .launch pos w d false }

/-- The fetcher reads a joint-launch packet for replication to the chips of its mask (R397). A replica is checked and waits
for admission. -/
def execFetchLaunchx (slot : Nat) (s : State) : Out :=
  .next <| fetchWord s slot (fun t => t == 2) fun k x pos w =>
    match x.replicaAt pos with
    | some r =>
      match s.checkLaunch k x w none true with
      | .error (.reject e) => ((s.replicaFails x pos).feStop k x (some w) (.reject e)).dropReplica k pos
      | .error e => s.feStop k x (some w) e
      | .ok d =>
        if r.aborted then (s.rejectPacket k x 11 (some w)).dropReplica k pos else s.setQueue k { x with fetch := .launch pos w d false }
    | none =>
      match s.checkLaunch k x w none false with
      | .error e => s.feStop k x (some w) e
      | .ok _ =>
        let chips := maskChips (recW w 7)
        let far := chips.filter fun c => c != s.fab.chip
        let dq := x.dq.getD 0
        if !(far.all fun c => s.streamRoom c 2 1 136) then s
        else
          let s1 := s.advanceCons k
          match s1.qs.queues.get? k with
          | none => s
          | some y =>
            let y1 := { y with gen := y.gen + 1 }
            let s2 := s1.setQueue k y1
            let here := if chips.contains s.fab.chip then s2.putReplica k y1 s.fab.chip y.gen (replicaOf w s.fab.chip) else some s2
            match here with
            | none => s
            | some s3 =>
              let s4 := far.foldl (fun a c => a.sendF4 c x.asid (.replica dq (replicaOf w c ++ [BitVec.ofNat 64 y.gen]))) s3
              let j : Join := ⟨dq, y.gen, recW w 7, [], false, false, s.clk 0, 2 ^ 20 * resWdog (recW w 5)⟩
              { s4 with fab := { s4.fab with joins := s4.fab.joins ++ [j] } }

/-- A waiting launch starts once BARRIER is met and its child slots are reserved in the target queue (R326). The predictor
then trains, and the launch is claimed or starts (15 R333); a replica joins instead (19 R399). -/
def execLaunchAdmit (slot : Nat) (s : State) : Out :=
  match (s.qs.slots.getD slot SlotState.free).q with
  | none => .next s
  | some k =>
    match s.qs.queues.get? k with
    | none => .next s
    | some x =>
      match x.fetch with
      | .launch pos w d false =>
        let c := resChild (recW w 5)
        if x.st ≠ .mapped || x.step ≠ 0 || s.barred k w then .next s
        else if hdrType (recW w 0) = 2 then
          match x.replicaAt pos, x.dq with
          | some r, some dq =>
            if r.aborted then .next ((s.rejectPacket k x 11 (some w)).dropReplica k pos)
            else if s.relWaits (hdrAcq (recW w 0)) then .next s
            else
              let s1 := (s.releaseAll (hdrAcq (recW w 0))).setQueue k { x with fetch := .launch pos w d true }
              .next (if r.src = s.fab.chip then s1 else s1.sendF4 r.src x.asid (.join dq r.gen))
          | _, _ => .next s
        else
          let admitted :=
            if c = 0 then some s
            else
              match s.queueOf x.asid (recW w 7) with
              | none => none
              | some (_, y) =>
                let v := s.q2 y
                if qUsed v + qHeld v + c ≤ y.size then some (s.setQ2 y (qWord2 (qCons v) (qResv v) (qHeld v + c))) else none
          match admitted with
          | none => .next s
          | some s1 => .next ((s1.setQueue k { x with fetch := .none }).consultPredictor slot k { x with fetch := .none } pos w d)
      | _ => .next s

/-! ### The other types (15 R319, 19 R386) -/

/-- The fetcher parks on a WAITSIG packet until its signal condition holds (R319). -/
def execFetchWaitsig (slot : Nat) (s : State) : Out :=
  .next <| fetchWord s slot (fun t => t == 3) fun k x pos w =>
    match s.checkWaitsig x w with
    | .error e => s.feStop k x (some w) e
    | .ok cc =>
      if s.barred k w then s
      else
        let s1 := s.advanceCons k
        match s1.qs.queues.get? k with
        | none => s
        | some y =>
          let s2 := s1.setQueue k { y with fetch := .waitsig pos (recW w 1) (recW w 2) cc (hdrAcq (recW w 0)) none }
          match s.fe x.asid (recW w 1) false with
          | .ok (leaf, pa) =>
            if pteRem leaf && pteChip leaf != s.fab.chip then s2
            else { s2 with ms := { s2.ms with sigWatch := s2.ms.sigWatch.put k (pa / 64) } }
          | .error _ => s2

/-- The parked WAITSIG condition holds and fetch resumes with an acquire (R319). A signal of another chip is asked for. -/
def execWaitsigSatisfied (slot : Nat) (s : State) : Out :=
  match (s.qs.slots.getD slot SlotState.free).q with
  | none => .next s
  | some k =>
    match s.qs.queues.get? k with
    | none => .next s
    | some x =>
      match x.fetch with
      | .waitsig pos va b cc acq got =>
        if x.st ≠ .mapped || x.step ≠ 0 then .next s
        else
          let go := (((({ s with ms := s.ms.unwatch k } : State).setQueue k { x with fetch := .none }).updSlot slot fun t =>
            { t with woken := true }).acquireAll acq).noteIdle s k
          match s.fe x.asid va false with
          | .error _ => .next s
          | .ok (leaf, pa) =>
            if pteRem leaf && pteChip leaf != s.fab.chip then
              let asked := s.fab.retry.any fun m => m.blk == none && m.grp == k && m.m.vc == 4
              match got with
              | some v =>
                if wcondAt cc true v b then .next go else .next (s.setQueue k { x with fetch := .waitsig pos va b cc acq none })
              | none =>
                if asked || s.writeOut (pteChip leaf) pa 8 || !s.streamRoom (pteChip leaf) 4 1 0 then .next s
                else .next (s.send (pteChip leaf) x.asid (.load pa 8) fun m => ⟨m, none, k, 0, 0, 0, [], none, 0⟩)
            else if wcondAt cc true (s.ms.mem.word pa) b then .next go
            else .next s
      | _ => .next s

/-- Whether the turn of the write of an accepted packet has come. -/
def State.writeDue (s : State) (i : Nat) (x : PendWrite) : Bool :=
  x.afterL.isEmpty && x.afterP.isEmpty && !(s.faultQ.any fun f => f.who == .signal i) && (match x.kind with
    | .contreg _ _ _ => false
    | _ => true)

/-- A write of an accepted packet is made once its turn has come, whether or not its queue holds a slot (15 R431). -/
def State.runDue (s : State) (i : Nat) : State :=
  match s.qs.pendW.get? i with
  | some x => if s.writeDue i x then s.runPend i else s
  | none => s

/-- The write of an accepted packet of a kind whose turn has come, of the queue of a slot. -/
def State.pendDue (s : State) (slot : Nat) (kind : PendKind) : Option Nat :=
  (s.qs.slots.getD slot SlotState.free).q.bind fun k =>
    (s.qs.pendW.find? fun p => p.2.q == k && p.2.kind == kind && s.writeDue p.1 p.2).map fun p => p.1

/-- A SIGNAL packet, after earlier packets complete, releases and stores, adds or subtracts at the signal (R319). The write
of an accepted SIGNAL whose turn has come is made first; otherwise the fetcher accepts the next. -/
def execFetchSignal (slot : Nat) (s : State) : Out :=
  match s.pendDue slot .signal with
  | some i => .next (s.runPend i)
  | none =>
    .next <| fetchWord s slot (fun t => t == 4) fun k x pos w =>
      match s.checkSignal x w with
      | .error e => s.feStop k x (some w) e
      | .ok _ =>
        if s.barred k w then s
        else ((s.addPend .signal k pos (recW w 1) (recW w 3).toNat (recW w 2) (some (hdrRel (recW w 0))) true).1).advanceCons k

/-- A NOP packet decrements its signal once every earlier packet has completed (R319). -/
def execFetchNopPacket (slot : Nat) (s : State) : Out :=
  match s.pendDue slot .nop with
  | some i => .next (s.runPend i)
  | none =>
    .next <| fetchWord s slot (fun t => t == 5) fun k x pos w =>
      match s.checkNop x w with
      | .error e => s.feStop k x (some w) e
      | .ok _ =>
        if s.barred k w then s
        else if recW w 6 = 0 then s.advanceCons k
        else ((s.addPend .nop k pos (recW w 6) 2 1 none true).1).advanceCons k

/-- Write or clear an entry on the slices that a test names (19 R385, R386); a context in teardown has none any more (17 R378). -/
def State.setCont (s : State) (asid idx : Nat) (e : Option ContEnt) (test : Nat → Bool) : State :=
  match (s.ctxs.get? asid).filter fun c => !c.tearing with
  | none => s
  | some c =>
    let conts := ((List.range 8).filter test).foldl (fun m i =>
      match e with
      | some v => KMap.put m (256 * i + idx) v
      | none => KMap.del m (256 * i + idx)) c.conts
    { s with ctxs := s.ctxs.put asid { c with conts := conts } }

/-- A CONTREG packet is checked and writes or clears a continuation-table entry on every slice (R386). Slices get the
entry between here and the completion. -/
def execFetchContreg (slot : Nat) (s : State) : Out :=
  .next <| fetchWord s slot (fun t => t == 6) fun k x pos w =>
    match s.checkContreg x w with
    | .error e => s.feStop k x (some w) e
    | .ok e =>
      if s.barred k w then s
      else
        let idx := (recW w 8).toNat % 256
        let s1 := s.setCont x.asid idx e fun i => Config.sliceEarly s.free i
        ((({ s1 with free := s1.free + 1 } : State).addPend (.contreg idx e s.free) k pos (recW w 6) 2 1 none false).1).advanceCons k

/-- Whether a later CONTREG of the same context and index has reached a slice, or completed its own writes: its entry stays (15 R319,
19 R386). -/
def State.overtaken (s : State) (asid idx act slice : Nat) : Bool :=
  s.qs.pendW.any fun p =>
    match p.2.kind with
    | .contreg j _ n => j == idx && decide (act < n) && Config.sliceEarly n slice &&
        (match s.qs.queues.get? p.2.q with
          | some y => y.asid == asid
          | none => false)
    | _ => false

/-- Once every slice holds the new entry, the CONTREG decrements its completion signal (R386): a decrement that waits is one like a completed
launch's. CONTREGs of one index complete in the order of their packets. -/
def execContregComplete (q pos : Nat) (s : State) : Out :=
  match s.qs.pendW.find? fun p => p.2.q == q && p.2.pos == pos && (match p.2.kind with
      | .contreg _ _ _ => true
      | _ => false) with
  | none => .next s
  | some (i, x) =>
    match x.kind, s.qs.queues.get? q with
    | .contreg idx e act, some y =>
      let older := s.qs.pendW.any fun p =>
        match p.2.kind, s.qs.queues.get? p.2.q with
        | .contreg j _ n, some z => j == idx && decide (n < act) && z.asid == y.asid
        | _, _ => false
      if older then .next s
      else
        let s1 := s.setCont y.asid idx e fun slice => !s.overtaken y.asid idx act slice
        if x.va = 0 then .next (s1.dropPend i)
        else .next (({ s1 with qs := { s1.qs with pendW := s1.qs.pendW.put i { x with kind := .late } } } : State).runPend i)
    | _, _ => .next s

end Sys2Proof.Machine
end

