-- ==== Sys2Proof/Machine/System.lean ====
section
/-! DEFINITION. The SYS words: traps, special registers, counters (08 R250 to R254, 01 R19, R24, R25, R29, R30). -/

namespace Sys2Proof.Machine

/-- System no-operation word; does nothing whatever its guard (R250). -/
def execNop (_c : Ctl) (s : State) : Out := onlyAdvance s

/-- TRAP and BKPT act once for the group if any lane executes them (08 R251). -/
def trapWord (s : State) (c : Ctl) (code : FaultCode) (arg : BitVec 18) : Out :=
  withCur s fun q =>
    match q.active c with
    | [] => .next (s.finish q q.blk.st q.grp)
    | k :: _ => .next (s.takeFault q { code := code, lane := k, arg := arg })

/-- Raises TRAP_INSTR with an immediate code once for the group; the group resumes at the next word if the trap is resolved (R251). -/
def execTrap (c : Ctl) (code : BitVec 18) (s : State) : Out := trapWord s c .trapInstr code

/-- Raises BKPT with an immediate code once for the group (R251). -/
def execBkpt (c : Ctl) (code : BitVec 18) (s : State) : Out := trapWord s c .bkpt code

/-- The lowest lane of the issuing entry. -/
def Cur.lowest (q : Cur) : Nat := ((List.range 32).find? fun k => q.grp.inEntry q.slot k).getD 0

/-- A word that is illegal in a kernel, whatever its guards (02 R63). -/
def illegalWord (s : State) : Out := withCur s fun q => .next (s.takeFault q { code := .illegalInstr, lane := q.lowest })

/-- Serves only the assist routine on the cluster control core; in a kernel it faults ILLEGAL_INSTR (R63). -/
def execHalt (_c : Ctl) (s : State) : Out := illegalWord s

/-- Return from the assist routine on the cluster control core; in a kernel it faults ILLEGAL_INSTR (R63). -/
def execEret (_c : Ctl) (s : State) : Out := illegalWord s

/-! ### Special registers -/

/-- DSP: FLOOR and TOP (01 R19). -/
def Group.dsp (g : Group) : W64 := g.dspFloor ++ g.dspTop

/-- SCB: SIZE and OFFSET (01 R27). -/
def Block.scb (b : Block) : W64 := BitVec.ofNat 32 b.scratchSize ++ (0 : BitVec 11) ++ b.scbOffset

/-- What RDSR returns in a lane (01 R29). -/
def srValue (b : Block) (gi : Nat) (g : Group) (n : SReg) (k : Nat) : W64 :=
  let l := g.lane k
  match n with
  | .lane => BitVec.ofNat 64 k
  | .gid => BitVec.ofNat 64 gi
  | .wid0 => widField b l 0
  | .wid1 => widField b l 1
  | .wid2 => widField b l 2
  | .wid3 => widField b l 3
  | .wid4 => widField b l 4
  | .wid5 => widField b l 5
  | .qpkt => b.qpkt
  | .asid => BitVec.ofNat 64 b.asid
  | .clid => BitVec.ofNat 64 b.cl
  | .core => BitVec.ofNat 64 b.co
  | .scb => b.scb
  | .tt => l.tt
  | .ht => l.ht
  | .mt => l.mt
  | .upd => l.upd
  | .acb => g.acb.setWidth 64
  | .acl => g.acl.setWidth 64
  | .bcnt => g.bcnt.setWidth 64
  | .dsp => g.dsp
  | .flg => g.flg.setWidth 64
  | .fex => g.fex.setWidth 64
  | .tix0 => g.tix0.setWidth 64
  | .tix1 => g.tix1.setWidth 64
  | .tix2 => g.tix2.setWidth 64
  | .tix3 => g.tix3.setWidth 64
  | .tix4 => g.tix4.setWidth 64

/-- Reads the special register numbered in IMM18[7:0] into the destination with taint 0, waiting for earlier term words when it reads TT, HT, MT or UPD (R29). -/
def execRdsr (c : Ctl) (d : Dst) (n : SReg) (s : State) : Out :=
  withCur s fun q => laneWordVar s c d fun g k => (srValue q.blk q.gi g n k, false)

/-- A word that writes group state from its lowest executing lane (01 R29). -/
def groupWrite (s : State) (c : Ctl) (a : Opnd) (f : Cur → Nat → W64 → Out) : Out :=
  withCur s fun q =>
    match q.active c with
    | [] => .next (s.finish q q.blk.st q.grp)
    | k :: _ => f q k (q.grp.opnd Rd.raw a k)

/-- Move the divergence stack of a group to the region that a value names (01 R19). -/
def moveStack (st : BlkState) (g : Group) (v : W64) : BlkState × Group :=
  let floor := v.extractLsb' 32 32
  let top := v.extractLsb' 0 32
  let n := 16 * g.depth
  let bytes := st.scratch.bytes g.dspTop.toNat n
  (if n = 0 then st else st.writeScratch top.toNat bytes,
    { g with dspFloor := floor, dspTop := top, dspCeil := top + BitVec.ofNat 32 n })

/-- Moves the group's divergence stack, with its entries, to the region that the written FLOOR and TOP name (R19). -/
def execWrsrDsp (c : Ctl) (a : Opnd) (s : State) : Out :=
  groupWrite s c a fun q k v =>
    let floor := (v.extractLsb' 32 32).toNat
    let top := (v.extractLsb' 0 32).toNat
    if floor % 16 ≠ 0 ∨ top % 16 ≠ 0 ∨ top < floor then .next (s.takeFault q { code := .misaligned, lane := k })
    else if q.blk.scratchSize < top + 16 * q.grp.depth then .next (s.takeFault q { code := .scratchRange, lane := k })
    else
      let r := moveStack q.blk.st q.grp v
      .next (s.finish q r.1 r.2)

/-- Waits for earlier floating-point words of the group, then writes the sticky flags FLG (R24). -/
def execWrsrFlg (c : Ctl) (a : Opnd) (s : State) : Out :=
  groupWrite s c a fun q _ v => .next (s.finish q q.blk.st { q.grp with flg := v.setWidth 5 })

/-- Writes the group's fail-exit offset FEX (R25). -/
def execWrsrFex (c : Ctl) (a : Opnd) (s : State) : Out :=
  groupWrite s c a fun q _ v => .next (s.finish q q.blk.st { q.grp with fex := v.setWidth 32 })

/-! ### Counters -/

/-- Writes the issuing cluster's 64-bit local cycle count into every executing lane (R252). -/
def execLcyc (c : Ctl) (d : Dst) (s : State) : Out :=
  withCur s fun q => laneWordVar s c d fun _ _ => (BitVec.ofNat 64 (s.clk q.blk.cl), false)

/-- A counter as PERF reads it (08 R253). -/
def State.counter (s : State) (q : Cur) (n : Counter) : W64 :=
  let c := (s.core q.blk.cl q.co).perf
  -- a speculation reads its context's counts with its own (16 R353)
  let sum := fun (f : CorePerf → BitVec 64) => f (c.getD q.blk.asid CorePerf.zero) +
    if q.blk.spec.isSome then f (c.getD q.blk.perfKey CorePerf.zero) else 0
  let miss := (s.cluster q.blk.cl).icMiss
  match n with
  | .words => q.grp.perfIssued
  | .slips => sum CorePerf.slips
  | .icMisses => miss.getD q.blk.asid 0 + if q.blk.spec.isSome then miss.getD q.blk.perfKey 0 else 0
  | .assists => sum CorePerf.assists
  | .rewinds => sum CorePerf.rewinds
  | .mmas => sum CorePerf.mmas
  | .copies => sum CorePerf.copies
  | .pairs => q.grp.perfPairs
  | .fails => q.grp.perfFails
  | .adopts => q.blk.st.adopts

/-- Reads a numbered performance counter into the destination (R253). -/
def execPerf (c : Ctl) (d : Dst) (n : Counter) (s : State) : Out :=
  withCur s fun q => laneWordVar s c d fun _ _ => (s.counter q n, false)

/-- Marks the group not ready for the next issue slot if another group of the core is ready (R254): whatever its guard, in
which no lane need execute (DESIGN CHOICE, log 47). -/
def execYieldW (_c : Ctl) (s : State) : Out :=
  withCur s fun q => .next (s.finish q q.blk.st { q.grp with yielded := true })

end Sys2Proof.Machine
end

