-- ==== Sys2Proof/Machine/Preempt.lean ====
section
/-! DEFINITION. What parks a group and ends (03 R76, 17 R359, R363), pre-emption, saving and resuming blocks (17 R367 to
R375), and checkpoints (21 R414). -/

namespace Sys2Proof.Machine

/-! ### Parked groups -/

/-- The assist routine finishes a word with gradual underflow and the group becomes ready (R76). -/
def execAssistComplete (blk grp : Nat) (s : State) : Out :=
  .next (s.updGrp blk grp fun g => if g.park = .assist then { g with park := .none } else g)

/-- The walk that a slot waits for: lane, address, kind of access, and whether it is under way. -/
def PcSlot.walking (p : PcSlot) : Option (Nat × W64 × Bool × Bool) :=
  match p.wait with
  | .walk lane va w going => some (lane, va, w, going)
  | _ => none

/-- The slots that a walk of the walker of a die serves: those whose walk of the page is under way (17 R359). -/
def State.merged (s : State) (die asid page : Nat) : List Focus :=
  (s.blocks.filter fun p => dieOfCluster p.2.cl == die && p.2.asid == asid).flatMap fun p =>
    p.2.st.groups.zipIdx.flatMap fun g => [false, true].filterMap fun slot =>
      match (g.1.pcSlot slot).wait with
      | .walk _ va _ true => if pageOf va = page then some ⟨p.1, g.2, slot⟩ else none
      | _ => none

/-- A waiting slot has its translation, and its word goes on; without one it raises a page fault (17 R359, R361). -/
def State.walked (s : State) (f : Focus) (r : Option (W64 × Bool)) : State :=
  match s.curOf f with
  | none => s
  | some q =>
    match (q.grp.pcSlot f.slot).walking with
    | none => s
    | some (lane, va, w, _) =>
      let p := { q.grp.pcSlot f.slot with wait := .resume }
      match r with
      | some (e, big) =>
        (s.putGrp q (q.grp.setSlot f.slot (p.gotTr q.blk.asid va e big))).keepTr q.blk.cl q.co q.blk.asid va e big
      | none => s.takeFault { q with grp := q.grp.setSlot f.slot p } { code := pageFault w, lane := lane, ea := va }

/-- The group of a slot, with the walk that it waits for, if one does. -/
def State.walker (s : State) (blk grp : Nat) : Option (Cur × Nat × W64 × Bool × Bool) :=
  (s.curOf ⟨blk, grp, false⟩).bind fun q0 =>
    let q := { q0 with slot := q0.grp.slot0.walking.isNone }
    (q.grp.pcSlot q.slot).walking.map fun x => (q, x)

/-- A page-table walk ends and serves the waiting translation or raises a page fault (R359). A translation that the TLB of the cluster
holds by now is served from there; a walk begins when its die has fewer than 128; one walk serves every wait for its page. -/
def execTlbWalkComplete (blk grp : Nat) (s : State) : Out :=
  match s.walker blk grp with
  | none => .next s
  | some (q, lane, va, w, going) =>
    let die := dieOfCluster q.blk.cl
    match s.ms.tlbGet q.blk.cl q.blk.asid va with
    | some e => .next (s.walked ⟨blk, grp, q.slot⟩ (some (e, false)))
    | none =>
      if !going then .next (if s.walkRoom die q.blk.asid va then s.waitSlot q (.walk lane va w true) else s)
      else
        let r := s.walkFor q.blk.cl q.blk.asid va
        .next ((s.merged die q.blk.asid (pageOf va)).foldl (fun a f => a.walked f r.2) r.1)

/-- One posted fault has its reply (17 R363): a group's word reissues or its fault is delivered as an error; a fetcher checks its
packet again or rejects it with FAULT; a pending write is made, or recorded and given up (15 R431). -/
def State.reply (s : State) (p : Posted) (retry : Bool) : State :=
  match p.who with
  | .group blk gi =>
    match s.curOf ⟨blk, gi, false⟩ with
    | none => s
    | some q =>
      match q.grp.park with
      | .fault slot pc f =>
        if retry then s.updGrp blk gi fun g => { g with park := .none }
        else s.deliverErrorAt { q with slot := slot } pc f
      | _ => s
  | .fetcher k =>
    match s.qs.queues.get? k with
    | none => s
    | some x =>
      if !x.waiting then s
      else
        let s1 := s.setQueue k { x with waiting := false }
        if retry then (s1.updSlot x.slot fun t => { t with woken := true }).noteIdle s k
        else
          let w := match s1.readHead x with
            | .packet _ w => some w
            | _ => none
          let s2 := match x.replicaAt (qCons (s1.q2 x)) with
            | some _ => (s1.replicaFails x (qCons (s1.q2 x))).dropReplica k (qCons (s1.q2 x))
            | none => s1
          (s2.rejectPacket k { x with waiting := false } 10 w).noteIdle s k
  | .signal i =>
    if retry then s.runPend i
    else
      match s.qs.pendW.get? i with
      | none => s
      | some x =>
        match s.qs.queues.get? x.q with
        | none => s.dropPend i
        | some y =>
          (s.failPend i x y p.code).noteIdle s x.q

/-- The host driver replies retry, reissuing the faulting word, or fail, delivering it as an error (R363). One reply serves
every fault on the page. -/
def execHostFaultReply (asid page : Nat) (retry : Bool) (s : State) : Out :=
  let mine := s.faultQ.filter fun p => p.asid == asid && p.page == page
  .next (mine.foldl (fun a p => a.reply p retry)
    { s with faultQ := s.faultQ.filter fun p => !(p.asid == asid && p.page == page) })

/-! ### Pre-emption (17 R368, R369) -/

/-- Order the pre-emption of a block; a COOP launch is pre-empted whole; a speculation is dropped (17 R368, R375). -/
def State.orderPreempt (s : State) (id : Nat) : State :=
  match s.blocks.get? id with
  | none => s
  | some b =>
    match b.spec with
    | some n => s.discardSpec n .displaced
    | none =>
      let coop := match s.qs.launches.get? b.launch with
        | some x => x.coop
        | none => false
      let stop := fun (k : Nat) (x : Block) =>
        if (k = id || (coop && x.launch == b.launch)) && x.stopping == .none then { x with stopping := .preempt none } else x
      { s with blocks := KMap.mapV stop s.blocks }

/-- Whether F1 has a reason to pre-empt a block: its queue is being unmapped, or its core is taken out (15 R328, 21 R421). -/
def State.mustLeave (s : State) (b : Block) : Bool :=
  (match (s.launchQueue b.launch).bind s.qs.queues.get? with
    | some x => x.step != 0
    | none => false) ||
  (s.core b.cl b.co).service != .serving || (b.pair && (s.core b.cl (b.co + 1)).service != .serving)

/-- F1 orders a block's pre-emption; no group issues and the drain begins (R368). -/
def execPreemptOrder (blk : Nat) (s : State) : Out :=
  match s.blocks.get? blk with
  | none => .next s
  | some b => .next (if s.mustLeave b then s.orderPreempt blk else s)

/-- A slot as its image holds it: what its table names as a wait stays, and the rest of its word is forgotten; lanes that a word has
finished stay finished, and a copy word keeps the copies that it has still to issue (07 R198, 17 R371). -/
def PcSlot.saved (p : PcSlot) : PcSlot :=
  let w : SWait := match p.wait with
    | .waitc r => .waitc r
    | .waitcCheck r => .waitc r
    | .waitcLeave r => .waitc r
    | .waitph => .waitph
    | .waitphGo => .waitph
    | .busy m => .busy m
    | _ => if p.plans.isEmpty then .none else .copySlot
  { p with wait := w, slip := false, pages := [] }

/-- A group as its image holds it (17 R370, R371). A sweep keeps its slot, and reads its records again (07 R216). The count of cycles that the
group was ready without issuing (09 R266) has no place in its record and starts at 0 after the resume (DESIGN CHOICE, log 128). -/
def Group.saved (g : Group) : Group :=
  { g with
    slot0 := g.slot0.saved
    slot1 := g.slot1.saved
    sb := 0
    psb := 0
    acqPend := 0
    acqAt := 0
    ahead := []
    stallUntil := 0
    ready := []
    demotedAt := 0
    yielded := false
    readyFor := 0
    tally := Tally.zero
    sweep := g.sweep.map fun x => (x.1, []) }

/-- A block as its image holds it: its checkpoint is gone (17 R374). -/
def Block.saved (b : Block) : Block :=
  { b with
    st := { b.st with groups := b.st.groups.map Group.saved, track := false, sectors := [], tilesW := [] }
    prot := { b.prot with sealed := true, rolledBack := false, ckpt := none }
    stopping := .none }

/-- A slot after a resume: a copy word waits for its next slot, and every other word that waited issues again (17 R371). -/
def PcSlot.back (p : PcSlot) : PcSlot := { p with wait := if p.plans.isEmpty then .none else .copySlot }

/-- A block after a resume (17 R371). -/
def Block.back (b : Block) : Block :=
  { b with st := { b.st with groups := b.st.groups.map fun g => { g with slot0 := g.slot0.back, slot1 := g.slot1.back, park := .none } } }

/-! ### The save image (17 R370 to R372) -/

/-- WAIT of a group record (17 R371). -/
def Group.waitNum (g : Group) : Nat :=
  let any := fun (f : SWait → Bool) => f g.slot0.wait || f g.slot1.wait
  let fault := match g.park with
    | .fault _ _ _ => true
    | _ => false
  let waitc := fun (w : SWait) => match w with
    | .waitc _ => true
    | _ => false
  if fault then 1
  else if any waitc then 2
  else if any SWait.isWaitph then 3
  else if any SWait.isBusy then 6
  else if !g.slot0.plans.isEmpty || !g.slot1.plans.isEmpty then 7
  else if g.barWait.any fun m => m != 0 then 4
  else if g.regWait != 0 then 5
  else 0

/-- NEXTLANE of a group record (17 R371). -/
def Group.nextLane (g : Group) : Nat :=
  match (g.slot0.plans ++ g.slot1.plans).map fun c => c.lane with
  | [] => 0
  | k :: l => l.foldl min k

/-- LREC of a group record: a latch record and its valid bit (17 R371). -/
def latchByte (l : Option Reg) : BitVec 8 :=
  match l with
  | some r => (1 : BitVec 1) ++ (0 : BitVec 1) ++ r
  | none => 0

/-- The words of a group record that are not reserved, w0 to w13 (17 R371). -/
def Group.imageWords (g : Group) : List W64 :=
  [g.slot0.e.pc.setWidth 64, g.slot1.e.mask ++ g.slot0.e.mask, g.slot1.e.pc.setWidth 64, g.dsp,
    (0 : BitVec 32) ++ latchByte g.l3 ++ latchByte g.l2 ++ latchByte g.l1 ++ latchByte g.l0,
    (0 : BitVec 27) ++ g.flg ++ (0 : BitVec 5) ++ g.acl ++ (0 : BitVec 5) ++ g.acb, g.fex ++ g.bcnt, g.tix1 ++ g.tix0, g.tix3 ++ g.tix2,
    g.tix4.setWidth 64, (0 : BitVec 51) ++ BitVec.ofNat 5 g.nextLane ++ (0 : BitVec 4) ++ BitVec.ofNat 4 g.waitNum, g.perfIssued, g.perfPairs,
    g.perfFails]

/-- The words of a lane record that are not reserved, w0 to w16 (17 R372). -/
def Lane.imageWords (l : Lane) : List W64 :=
  [(0 : BitVec 55) ++ bit l.present ++ (0 : BitVec 1) ++ l.pred, l.taint, l.wid, l.tt, l.ht, l.mt, l.upd, l.sw.ovl, l.sw.w1, l.sw.trailB,
    l.sw.trailL, l.sw.markB, l.sw.markL, l.sw.heapB, l.sw.heapL, l.sw.pdlB, l.sw.pdlL]

/-- What the header of an image holds (17 R370); the count of the offer board is here, since 64 entries fill its section (log 99). -/
def Block.header (b : Block) : List W64 :=
  [b.qpkt, BitVec.ofNat 64 b.index] ++
    (b.st.bars.flatMap fun x => [x.expected.setWidth 64, x.arrived.setWidth 64, (bit x.phase).setWidth 64]) ++
    [BitVec.ofNat 64 b.scratchSize, BitVec.ofNat 64 b.tiles, b.st.adopts, BitVec.ofNat 64 b.st.board.length]

/-- The order of a list that a number stands for: one of those left at a time. -/
def pickOrder : Nat → List Nat → Nat → List Nat
  | 0, _, _ => []
  | n + 1, l, code => l.getD (code % l.length) 0 :: pickOrder n (l.eraseIdx (code % l.length)) (code / l.length)

/-- Which word of the header stands at each of the 32 places: an order that is not given (17 R370; log 99). -/
def headerOrder : List Nat := pickOrder 32 (List.range 32) Config.headerLayout

/-- The word of a header at a place; places that no word needs hold 0. -/
def headerWord (l : List W64) (i : Nat) : W64 := l.getD (headerOrder.getD i 31) 0

/-- An entry of the offer board as a word (10 R283). -/
def BoardEnt.word (e : BoardEnt) : W64 := (0 : BitVec 22) ++ e.grp ++ e.lane ++ (0 : BitVec 11) ++ e.mofs

/-- Where the sections of an image begin: lane records, registers, scratch, accumulators (17 R370). -/
def Block.sections (b : Block) : Nat × Nat × Nat × Nat :=
  let n := b.st.groups.length
  let lanes := 768 + 512 * n
  let regs := lanes + 6144 * n
  let scratch := regs + 256 * b.nregs * n
  (lanes, regs, scratch, scratch + b.scratchSize)

/-- The words of an image that are not 0, with their offsets, but for scratch and accumulators (17 R370). -/
def Block.wordsOf (b : Block) : List (Nat × W64) :=
  let x := b.sections
  let row := fun (o : Nat) (l : List W64) => l.zipIdx.map fun p => (o + 8 * p.2, p.1)
  ((row 0 ((List.range 32).map fun i => headerWord b.header i)) ++ (row 256 (b.st.board.map BoardEnt.word)) ++
    b.st.groups.zipIdx.flatMap fun g => row (768 + 512 * g.2) g.1.imageWords ++
      g.1.lanes.zipIdx.flatMap fun l => row (x.1 + 192 * (32 * g.2 + l.2)) l.1.imageWords ++
        l.1.regs.map fun r => (x.2.1 + 8 * b.nregs * (32 * g.2 + l.2) + 8 * r.1, r.2)).filter fun p => p.2 != 0

/-- The bytes of an image that are not in such words: scratch, and the accumulator rows, a follower's after its leader's (17 R370). -/
def Block.bytesOf (b : Block) : List (Nat × List Byte) :=
  let x := b.sections
  (b.st.scratch.map fun c => (x.2.2.1 + c.1, [c.2])) ++ (b.st.acc.map fun c => (x.2.2.2 + 4 * c.1, leBytes c.2.toNat 4)) ++
    b.st.accF.map fun c => (x.2.2.2 + 24576 * b.tiles + 4 * c.1, leBytes c.2.toNat 4)

/-- Write the image of a block at an address (17 R370). -/
def Mem.putImage (m : Mem) (b : Block) (at_ : Nat) : Mem :=
  let m1 := m.filter fun c => !decide (at_ ≤ c.1 ∧ c.1 < at_ + b.imageSize)
  b.bytesOf.foldl (fun m p => m.setBytes (at_ + p.1) p.2) (b.wordsOf.foldl (fun m p => m.setWord (at_ + p.1) p.2) m1)

/-- Cells of 4 bytes that memory holds in a range, by their number. -/
def Mem.cells (m : Mem) (at_ n : Nat) : KMap (BitVec 32) :=
  ((m.filter fun c => decide (at_ ≤ c.1 ∧ c.1 < at_ + n)).foldl (fun (a : KMap (BitVec 32)) c =>
    let k := (c.1 - at_) / 4
    KMap.putD 0 a k (BitVec.ofNat 32 (leNat (m.bytes (at_ + 4 * k) 4)))) [])

/-- A lane with the values that an image holds: registers, taints and predicates (17 R367). -/
def Lane.fromImage (l : Lane) (m : Mem) (n rec regs : Nat) : Lane :=
  { l with
    regs := (List.range n).foldl (fun a r => KMap.putD 0 a r (m.word (regs + 8 * r))) []
    taint := m.word (rec + 8)
    pred := (m.word rec).setWidth 7 }

/-- The block with what the host may have changed in its image (17 R367). -/
def Block.fromImage (b : Block) (m : Mem) (at_ : Nat) : Block :=
  let x := b.sections
  let rows := 24576 * b.tiles
  let lane := fun (gi k : Nat) (l : Lane) =>
    l.fromImage m b.nregs (at_ + x.1 + 192 * (32 * gi + k)) (at_ + x.2.1 + 8 * b.nregs * (32 * gi + k))
  let group := fun (gi : Nat) (g : Group) => if g.retired then g else { g with lanes := g.lanes.mapIdx (lane gi) }
  { b with st := { b.st with
      groups := b.st.groups.mapIdx group
      scratch := (m.filter fun c => decide (at_ + x.2.2.1 ≤ c.1 ∧ c.1 < at_ + x.2.2.2)).map fun c => (c.1 - (at_ + x.2.2.1), c.2)
      acc := m.cells (at_ + x.2.2.2) rows
      accF := if b.pair then m.cells (at_ + x.2.2.2 + rows) rows else b.st.accF } }

/-- What an image may not meet: the pages that a context maps and the tables that map them, the QCBs, and the other images, as address and
size (17 R370). -/
def State.noImage (s : State) : List (Nat × Nat) :=
  (s.ctxs.flatMap fun p => s.ms.tablesOf p.2.root ++ s.ms.pagesOf p.2.root) ++ (s.ms.qcbs.map fun a => (a, 256)) ++
    s.saved.map fun p => (p.2.addr, p.2.blk.imageSize)

/-- Where the image of a block goes: at the save area of its queue, or at the first place after what lies there where no context maps memory
(15 R323, 17 R370; log 99). -/
def State.imageAddr (s : State) (b : Block) : Nat :=
  let base := ((s.launchQueue b.launch).bind s.qs.queues.get?).elim 0 fun x => x.savea.toNat
  let taken := s.noImage
  let fits := fun (a : Nat) => decide (a + b.imageSize ≤ 2 ^ 39) && !(taken.any fun r => overlaps a b.imageSize r.1 r.2)
  ((base :: taken.map fun r => r.1 + r.2).find? fits).getD base

/-- Once copies, batches, assists and the store queue drain, the image is written and resources zeroed (R369): every word that has
issued completes first, but for those of the table of R371. -/
def execPreemptSave (blk : Nat) (s : State) : Out :=
  match s.blocks.get? blk with
  | none => .next s
  | some b =>
    match b.stopping with
    | .preempt trap =>
      if !s.drained blk b || b.st.mustEnd then .next s
      else
        let img : SaveImg := ⟨b.saved, blk, s.imageAddr b, trap, trap.isNone⟩
        let ms := { s.ms with mem := s.ms.mem.putImage img.blk img.addr }
        .next (({ s with saved := s.saved.put s.saved.fresh img, ms := ms } : State).removeBlock blk)
    | _ => .next s

/-! ### Resuming (17 R373) -/

/-- The move of a block from one cluster to another: a release in the old, an acquire in the new (17 R373). -/
def State.moved (s : State) (old new : Nat) : State :=
  if old = new then s else { s with ms := (s.ms.releaseDev old).acquireDev new }

/-- An image is zeroed after the resume that reads it (17 R376). -/
def State.dropImage (s : State) (img : SaveImg) : State := { s with ms := s.ms.zeroRange (img.addr, img.blk.imageSize) }

/-- Where a resumed block goes: the cluster that held it if a core there fits, else the lowest where one fits (17 R373). -/
def State.resumeAt (s : State) (b : Block) : Option (Nat × Nat) :=
  match s.chooseCore b.cl b with
  | some co => some (b.cl, co)
  | none =>
    match (List.range 96).find? fun cl => (s.chooseCore cl b).isSome with
    | some cl => (s.chooseCore cl b).map fun co => (cl, co)
    | none => none

/-- The saved blocks of a launch in ascending index, with their image numbers. -/
def State.savedOf (s : State) (l : Nat) : List (Nat × SaveImg) :=
  let mine := s.saved.filter fun p => p.2.blk.launch == l
  let most := mine.foldl (fun a p => max a (p.2.blk.index + 1)) 0
  if mine.length ≤ 1 then mine else (List.range most).flatMap fun i => mine.filter fun p => p.2.blk.index == i

/-- A saved block is placed, its state restored and cross-cluster write-back and invalidation performed before it issues
(R373). -/
def execBlockResume (save : Nat) (s : State) : Out :=
  match s.saved.get? save with
  | none => .next s
  | some img =>
    let b := img.blk
    match s.qs.launches.get? b.launch with
    | none => .next s
    | some x =>
      let cls := resClass (recW x.w 5)
      if x.terminated || !s.mappedLaunch x || !img.resume then .next s
      else if x.coop then
        let all := s.savedOf b.launch
        if x.ended + all.length ≠ x.total || !(all.all fun p => p.2.resume) then .next s
        else
          match coopAll cls (all.map fun p => (some p.2.id, p.2.blk.back)) (s, []) with
          | none => .next s
          | some (s1, specs) =>
            if !specs.isEmpty then .next (specs.foldl (fun a n => a.discardSpec n .displaced) s)
            else
              let s2 := all.foldl (fun a p =>
                match s1.blocks.get? p.2.id with
                | some n => (a.moved p.2.blk.cl n.cl).dropImage p.2
                | none => a) s1
              .next { s2 with saved := s2.saved.filter fun p => p.2.blk.launch != b.launch }
      else
        match s.resumeAt b with
        | none => .next s
        | some (cl, co) =>
          let specs := s.specsOn cl co b.pair
          if !specs.isEmpty then .next (specs.foldl (fun a n => a.discardSpec n .displaced) s)
          else
            .next (((({ s with saved := s.saved.del save } : State).dropImage img).moved b.cl cl).putOn b.back (some img.id) cls cl co)

/-! ### Traps under DEBUG (17 R367) -/

/-- Change one group of an image. -/
def Block.editGroup (b : Block) (gi : Nat) (f : Group → Group) : Block :=
  match b.st.groups[gi]? with
  | some g => { b with st := b.st.setGroup gi (f g) }
  | none => b

/-- Change one lane of an image. -/
def Block.editLane (b : Block) (gi k : Nat) (f : Lane → Lane) : Block := b.editGroup gi fun g => g.setLane k (f (g.lane k))

/-- One edit of the host (17 R367). The rows of a follower come after those of its leader (17 R370). -/
def Block.edit (b : Block) (e : Edit) : Block :=
  match e with
  | .reg gi k r v => if r < b.nregs then b.editLane gi k fun l => { l with regs := KMap.putD 0 l.regs r v } else b
  | .taint gi k v => b.editLane gi k fun l => { l with taint := v }
  | .pred gi k v => b.editLane gi k fun l => { l with pred := v }
  | .scratch o v => if o < b.scratchSize then { b with st := b.st.writeScratch o [v] } else b
  | .acc r c v =>
    if 96 ≤ c then b
    else if r < 64 * b.tiles then { b with st := { b.st with acc := KMap.putD 0 b.st.acc (96 * r + c) v } }
    else if b.pair && r < 128 * b.tiles then
      { b with st := { b.st with accF := KMap.putD 0 b.st.accF (96 * (r - 64 * b.tiles) + c) v } }
    else b
  | .other => b

/-- An error against a block that is in its save image: the launch is terminated, one record is written (17 R364, R367). -/
def State.failImage (s : State) (b : Block) (gi : Nat) (f : FaultInfo) : State :=
  let s1 := (s.terminateLaunch b.launch).record b.asid (s.groupRecord b gi 0 f)
  match s.launchQueue b.launch with
  | some k => (s1.queueError k 12 (s.launchPos b.launch)).post (.faulted k)
  | none => s1

/-- The host resumes a trapped block through F0 at the word after the trap (R367): with what it wrote into the image in memory, and the
changes that come with the command; a write to another field of the image terminates the block. -/
def execDebugResume (save : Nat) (edits : List Edit) (s : State) : Out :=
  match s.saved.get? save with
  | none => .next s
  | some img =>
    match img.trap with
    | none => .next s
    | some gi =>
      if img.resume then .next s
      else
        let b0 := img.blk.fromImage s.ms.mem img.addr
        if edits.contains .other || s.ms.mem.putImage b0 img.addr != s.ms.mem then
          .next (s.failImage img.blk gi { code := .reservedField })
        else
          let b := edits.foldl Block.edit b0
          .next { s with
            saved := s.saved.put save { img with blk := b, resume := true }
            ms := { s.ms with mem := s.ms.mem.putImage b img.addr } }

/-! ### Checkpoints (21 R414) -/

/-- A protected block records a checkpoint at start and at each barrier completion once copies and batches retire (R414). -/
def execCheckpoint (blk : Nat) (s : State) : Out :=
  match s.blocks.get? blk with
  | none => .next s
  | some b =>
    let batch := b.st.groups.any fun g => g.batches.any fun t => t.closed
    if !b.protect || b.prot.pending.isEmpty || b.stopping != .none || s.copiesOf blk || batch then .next s
    else
      let done := (b.prot.pending.foldl completeSlot b.st).knows (s.clk b.cl)
      let st := { done with track := true, sectors := [], tilesW := [] }
      .next (s.setBlock blk { b with st := st, prot := ⟨true, false, false, [], some st⟩ })

end Sys2Proof.Machine
end

