-- ==== Sys2Proof/Machine/Sched.lean ====
section
/-! DEFINITION. Gangs, decisions, mapping and the unmap sequence (15 R328 to R331), and the reset of a queue (R432). -/

namespace Sys2Proof.Machine

/-! ### Gangs (15 R331) -/

/-- A gang: its queues in ascending QCB address. -/
abbrev Gang := List (Nat × Queue)

/-- The place of a queue in every order of the decisions: its QCB's address, which is its handle, a virtual address of its context
(15 R323, R331); of equal handles of two contexts, the lower physical address (log 105). -/
def Queue.place (x : Queue) : Nat := 2 ^ 64 * x.handle.toNat + x.pa

/-- Insert a queue by its QCB address. -/
def insertQueue (p : Nat × Queue) : Gang → Gang
  | [] => [p]
  | q :: l => if p.2.place < q.2.place then p :: q :: l else q :: insertQueue p l

/-- The gang of a queue, in ascending QCB address. -/
def State.gang (s : State) (k : Nat) : Gang := (s.gangOf k).foldl (fun l p => insertQueue p l) []

/-- Every gang, once. -/
def State.gangs (s : State) : List Gang :=
  (s.qs.queues.filter fun p => p.2.st != .dead).filterMap fun p =>
    match s.gang p.1 with
    | [] => none
    | q :: l => if q.1 = p.1 then some (q :: l) else none

/-- The address of a gang: the lowest of its QCBs. -/
def gangAddr (g : Gang) : Nat :=
  match g with
  | [] => 0
  | q :: _ => q.2.place

/-- The AGE of a gang: the greatest of its queues. -/
def gangAge (g : Gang) : Nat := (gangLive g).foldl (fun a p => max a p.2.age) 0

/-- Whether a gang holds slots. -/
def State.gangMapped (s : State) (g : Gang) : Bool := g.any fun p => (s.slotOf p.1).isSome

/-- Whether a gang is being unmapped. -/
def gangLeaving (g : Gang) : Bool := g.any fun p => p.2.step != 0

/-- Whether every queue of a mapped gang is idle (15 R330). -/
def State.gangIdle (s : State) (g : Gang) : Bool := g.all fun p => s.queueIdle p.1 p.2

/-- Whether a gang is eligible: a queue is READY, or MAPPED and not idle (15 R331). -/
def State.gangEligible (s : State) (g : Gang) : Bool :=
  g.any fun p => p.2.st == .ready || (p.2.st == .mapped && !s.queueIdle p.1 p.2)

/-- The order in which unmapped gangs are served: priority, then AGE, then the lower address. -/
def gangBefore (a b : Gang) : Bool :=
  decide (gangPrio b < gangPrio a) || (gangPrio a == gangPrio b &&
    (decide (gangAge b < gangAge a) || (gangAge a == gangAge b && decide (gangAddr a < gangAddr b))))

/-- Insert a gang by an order. -/
def insertGang (before : Gang → Gang → Bool) (g : Gang) : List Gang → List Gang
  | [] => [g]
  | h :: l => if before g h then g :: h :: l else h :: insertGang before g l

/-- Gangs in an order. -/
def sortGangs (before : Gang → Gang → Bool) (l : List Gang) : List Gang := l.foldl (fun a g => insertGang before g a) []

/-! ### Mapping and unmapping (15 R328, R331, 16 R341) -/

/-- Free hardware slots, of 256. -/
def State.freeSlots (s : State) : Nat := 256 - s.qs.slots.countP fun p => p.2.q.isSome

/-- Map a queue to the lowest free slot: its kept successor table returns, its fetcher reads (16 R341). -/
def State.mapQueue (s : State) (k : Nat) : State :=
  match s.qs.queues.get? k, (List.range 256).find? fun n => (s.qs.slots.getD n SlotState.free).q.isNone with
  | some x, some n =>
    let t := { SlotState.free with q := some k, woken := true, succ := s.qs.keptSucc.getD k [] }
    let s1 := { s with qs := { s.qs with slots := s.qs.slots.put n t, keptSucc := s.qs.keptSucc.del k } }
    (s1.setQueue k { x with st := .mapped, slot := n, age := 0, pend := false }).noteIdle s k
  | _, _ => s

/-- Begin the unmap of a queue: its fetcher stops, and its slot's speculation is discarded (15 R328, 16 R349). -/
def State.beginUnmap (s : State) (k : Nat) : State :=
  match s.qs.queues.get? k, s.slotOf k with
  | some x, some n =>
    let s1 := s.setQueue k { x with st := if x.st == .error then .error else .unmapping, step := 1 }
    match s1.specOf n with
    | some (i, _) => s1.discardSpec i .unmapped
    | none => s1
  | _, _ => s

/-- The slots that a gang holds. -/
def State.slotsOf (s : State) (g : Gang) : Nat := g.countP fun p => (s.slotOf p.1).isSome

/-- Take gangs from the front until their slots with the free ones cover a size. -/
def coverWith (s : State) (size prio : Nat) : Nat → List Gang → Option (List Gang)
  | free, l =>
    if size ≤ free then some []
    else
      match l with
      | [] => none
      | g :: rest =>
        if gangPrio g < prio then (coverWith s size prio (free + s.slotsOf g) rest).map fun r => g :: r else none

/-- Serve the eligible unmapped gangs in order (15 R331); `new` are the addresses of gangs mapped in this decision. -/
def serveGangs : List Gang → List Nat → State → State
  | [], _, s => s
  | u :: l, new, s =>
    let live := gangLive u
    if live.length ≤ s.freeSlots then serveGangs l (gangAddr u :: new) (live.foldl (fun a p => a.mapQueue p.1) s)
    else
      let m := s.gangs.filter fun g => s.gangMapped g && !gangLeaving g && !new.contains (gangAddr g)
      match coverWith s live.length (gangPrio u) s.freeSlots (sortGangs (fun a b => gangBefore b a) m) with
      | some taken => taken.foldl (fun a g => g.foldl (fun b p => b.beginUnmap p.1) a) s
      | none => s

/-- F1 maps eligible gangs by effective priority, begins unmaps of displaced gangs and ages waiting queues (R331). Idle
mapped gangs are unmapped first (R330). -/
def execSchedDecision (s : State) : Out :=
  if !s.qs.wantDecision then .next s
  else
    let s0 := { s with qs := { s.qs with wantDecision := false } }
    let idle := s0.gangs.filter fun g => s0.gangMapped g && !gangLeaving g && s0.gangIdle g
    let s1 := idle.foldl (fun a g => g.foldl (fun b p => b.beginUnmap p.1) a) s0
    let want := sortGangs gangBefore (s1.gangs.filter fun g => !s1.gangMapped g && s1.gangEligible g)
    let s2 := serveGangs want [] s1
    .next (((want.flatMap gangLive).map fun p => p.1).foldl (fun a k =>
      match a.qs.queues.get? k with
      | some x => if (a.slotOf k).isNone then a.setQueue k { x with age := min 65535 (x.age + 1) } else a
      | none => a) s2)

/-- Every 16 periods of cluster 0 a timeslice triggers a scheduling decision (R330). -/
def execTimesliceExpire (s : State) : Out :=
  if s.qs.slices < s.clk 0 / 1048576 then
    .next { s with qs := { s.qs with slices := s.clk 0 / 1048576, wantDecision := true } }
  else .next s

/-- A queue is no more: its QCB reads DEAD, its slot is free, what waits for it is dropped. -/
def State.killQueue (s : State) (k : Nat) : State :=
  match s.qs.queues.get? k with
  | none => s
  | some x =>
    let s1 := s.setQueue k
      { x with st := .dead, pend := false, fetch := .none, waiting := false, step := 0, replicas := [], desc := .none, resetDue := false }
    let s2 := match s.slotOf k with
      | some n =>
        let s2 := match s1.specOf n with
          | some (i, _) => s1.discardSpec i .unmapped
          | none => s1
        { s2 with qs := { s2.qs with slots := s2.qs.slots.del n, wantDecision := true } }
      | none => s1
    { s2 with
      qs := { s2.qs with queues := s2.qs.queues.del k, keptSucc := s2.qs.keptSucc.del k, pendW := s2.qs.pendW.filter fun p => p.2.q != k }
      faultQ := s2.faultQ.filter fun p => match p.who with
        | .fetcher j => j != k
        | .signal i => !((s2.qs.pendW.get? i).any fun w => w.q == k)
        | .group _ _ => true
      ms := { s2.ms.unwatch k with qcbs := s2.ms.qcbs.filter fun a => a != x.pa, kicked := s2.ms.kicked.filter fun a => a != x.pa } }

/-- Whether the teardown of a context has begun (17 R378). -/
def State.tearingDown (s : State) (asid : Nat) : Bool := (s.ctxs.get? asid).any fun c => c.tearing

/-- The flush probe returns, and F1 writes the QCB, reroutes kicks and frees the slot (R328): once every read of the fetcher has returned,
every resident block of the queue's launches is saved, no write of the queue is due, and every launch whose blocks have all retired is complete (R329). In a
teardown of its context the queue is DEAD (17 R378). -/
def execUnmapFlushProbeReturn (slot : Nat) (s : State) : Out :=
  let t := s.qs.slots.getD slot SlotState.free
  match t.q with
  | none => .next s
  | some k =>
    match s.qs.queues.get? k with
    | none => .next s
    | some x =>
      let mine := fun (l : Nat) => s.launchQueue l == some k
      let due := (s.qs.pendW.any fun p => p.2.q == k && s.writeDue p.1 p.2) ||
        s.qs.launches.any fun p => p.2.q == k && p.2.spec.isNone && p.2.ended == p.2.total && p.2.handed == p.2.total
      if x.step = 0 || (s.blocks.any fun p => p.2.spec.isNone && mine p.2.launch) || due || s.feReading k then .next s
      else
        let pend := x.pend || t.pending
        let left := s.saved.any fun p => mine p.2.blk.launch
        let unread := x.waiting || (s.head? x).isSome || (match x.fetch with
          | .launch _ _ _ _ => true
          | _ => false)
        let st : QState := if x.st == .error then .error else if pend || unread || left then .ready else .idle
        let s1 := s.setQueue k { x with st := st, step := 0, pend := pend, slot := 0, fstate := some s.free }
        let s2 := { s1 with free := s1.free + 1, qs := { s1.qs with
          slots := s1.qs.slots.del slot
          keptSucc := if t.succ.isEmpty then s1.qs.keptSucc else s1.qs.keptSucc.put k t.succ
          wantDecision := true } }
        .next (if s2.tearingDown x.asid then s2.killQueue k else s2)

/-- The host driver resets a queue in ERROR through F0, dropping its unread packets (R432): in one act, now or once no launch of the
queue is in flight and none of its blocks is resident or saved. -/
def execQueueReset (q : Nat) (s : State) : Out :=
  match s.qs.queues.get? q with
  | none => .next s
  | some x =>
    let mine := fun (l : Nat) => s.launchQueue l == some q
    let busy := s.inFlight q || (s.blocks.any fun p => p.2.spec.isNone && mine p.2.launch) || s.saved.any fun p => mine p.2.blk.launch
    if x.st ≠ .error then .next s
    else if busy then .next (if x.resetDue then s else s.setQueue q { x with resetDue := true })
    else
      let w := s.q2 x
      let s1 := s.setQ2 x (qWord2 (qResv w) (qResv w) (qHeld w))
      let st : QState := if (s.slotOf q).isSome then .mapped else .idle
      let y := { x with
        err := 0
        errpos := 0
        fstate := none
        resetDue := false
        fetch := .none
        waiting := false
        pend := false
        age := 0
        eph := phaseOf x (qResv w)
        st := st
        replicas := []
        desc := .none }
      .next ((s1.setQueue q y).noteIdle s q)

end Sys2Proof.Machine
end

