-- ==== Sys2Proof/Machine/Driver.lean ====
section
/-! DEFINITION. The commands of the host driver through F0 (15 R332, 17 R354, R360, R378): contexts, queues, budget classes,
quotas, invalidates, teardown, and the SRAM split (09 R259). -/

namespace Sys2Proof.Machine

/-- F0 reports that a command is complete. -/
def State.cmdDone (s : State) : State := s.post .cmdDone
/-- F0 returns an error status, and nothing is made (17 R354). -/
def State.cmdError (s : State) : State := s.post .cmdError

/-- A context that F0 created and whose teardown has not begun (17 R354). -/
def State.liveCtx (s : State) (asid : Nat) : Option Ctx :=
  match s.ctxs.get? asid with
  | some c => if c.tearing then none else some c
  | none => none

/-- F0 creates a context with its root table, fault ring and DEBUG flag (R354). A ring where no memory is installed is refused (log
103). -/
def execCreateContext (asid root : Nat) (debug : Bool) (fn : CtxHost) (s : State) : Out :=
  if 1024 ≤ asid || root % 65536 ≠ 0 || decide (2 ^ 39 ≤ root) || beyondHbm fn.ring || (s.ctxs.get? asid).isSome || s.fw.resetting then .next s.cmdError
  else .next ({ s with ctxs := s.ctxs.put asid ⟨root, debug, fn.fn, fn.ring, [], 0, 0, [], 8, [], [], false, false⟩ } : State).cmdDone

/-- Make a queue, if its fields, its context and its gang allow it (15 R323, R331). The page of the ring is not looked at: a ring on an MS or TSO
page is read and written like one on an ordinary page (DESIGN CHOICE, log 53). -/
def State.newQueue (s : State) (dq : Option Nat) (n : QcbNew) : State :=
  let gang := s.qs.queues.countP fun p => p.2.st != .dead && n.gang != 0 && p.2.gang == n.gang && p.2.asid == n.asid
  match s.liveCtx n.asid, s.translate n.asid n.handle with
  | some _, some (leaf, pa) =>
    if n.handle.toNat % 256 ≠ 0 || n.base.toNat % 4096 ≠ 0 || n.log2n < 4 || 20 < n.log2n || 7 < n.bpri || 65536 ≤ n.gang ||
        256 ≤ gang || pteRem leaf || beyondHbm pa || (s.queueOf n.asid n.handle).isSome || (s.queueAt pa).isSome ||
        (match dq with
          | some d => (s.fabricQueue d).isSome
          | none => false) then s.cmdError
    else
      let x : Queue :=
        { asid := n.asid
          handle := n.handle
          pa := pa
          base := n.base
          gang := n.gang
          classmask := n.classmask
          bpri := n.bpri
          log2n := n.log2n
          st := .idle
          pend := false
          eph := true
          slot := 0
          err := 0
          errpos := 0
          age := 0
          savea := Config.saveArea s.free
          fstate := none
          resetDue := false
          fetch := .none
          step := 0
          waiting := false
          dq := dq
          gen := 0
          replicas := []
          desc := .none }
      let ms := { s.ms.homeWrite pa (List.replicate 256 0) with qcbs := pa :: s.ms.qcbs }
      (({ s with ms := ms, free := s.free + 1 } : State).setQueue s.qs.queues.fresh x).cmdDone
  | _, _ => s.cmdError

/-- F0 creates a queue control block for a context at the host driver's command (R332). -/
def execCreateQcb (n : QcbNew) (s : State) : Out := .next (s.newQueue none n)

/-- The host driver creates a fabric queue on every chip of the domain under one queue number (R397): here the copy of this
chip. -/
def execCreateFabricQueue (dq : Nat) (n : QcbNew) (s : State) : Out := .next (s.newQueue (some dq) n)

/-- F0 destroys a queue control block at the host driver's command (R332). A queue with work under way, or blocks saved, is
refused (log 17). -/
def execDestroyQcb (q : Nat) (s : State) : Out :=
  if (s.qs.queues.get? q).isNone || s.unfinished q then .next s.cmdError else .next (s.killQueue q).cmdDone

/-- F0 sets a budget class's reservation and ceiling, taking effect at the next period start (R267). -/
def execSetBudgetClass (asid cls res ceil : Nat) (s : State) : Out :=
  match s.liveCtx asid with
  | none => .next s.cmdError
  | some c =>
    if 16 ≤ cls || 524288 < ceil || ceil < res then .next s.cmdError
    else .next ({ s with ctxs := s.ctxs.put asid { c with classes := c.classes.put cls (res, ceil) } } : State).cmdDone

/-- F0 sets a context's continuation FIFO quota on the slices (R388). -/
def execSetQuota (asid n : Nat) (s : State) : Out :=
  match s.liveCtx asid with
  | none => .next s.cmdError
  | some c =>
    if n < 1 || 64 < n then .next s.cmdError
    else .next ({ s with ctxs := s.ctxs.put asid { c with quota := n } } : State).cmdDone

/-! ### Invalidate (17 R360) -/

/-- Whether an operation of a batch reaches global memory. -/
def MOp.probed : MOp → Bool
  | .mload _ _ _ pages => !pages.isEmpty
  | .mstore _ _ _ pages => !pages.isEmpty
  | _ => false

/-- The copies of a group that wait for a slot, as block, group and lane. -/
def Group.waitingPlans (id gi : Nat) (g : Group) : List (Nat × Nat × Nat) :=
  (g.slot0.plans ++ g.slot1.plans).map fun c => (id, gi, c.lane)

/-- What an invalidate of a context waits for: the acts its blocks hold, their messages to other chips, its copies, those that copy words
have probed and not issued, in saved blocks too, and its batches that reach memory. -/
def State.startInval (s : State) (asid va size : Nat) : Inval :=
  let mine := s.blocks.filter fun p => p.2.asid == asid
  let has := fun (id : Nat) => mine.any fun p => p.1 == id
  { asid := asid
    va := va
    size := size
    acts := (s.cores.filter fun p => p.2.held.any fun h => has h.blk).map fun p => (p.1, s.clk (p.1 / 8))
    msgs := (s.fab.retry.filter fun (m : OutMsg) => m.m.asid == asid).map fun (m : OutMsg) => m.m
    copies := (s.ms.copies.filter fun p => has p.2.blk).map fun p => p.1
    plans := ((mine.map fun p => (p.1, p.2.st)) ++
      (s.saved.filter fun p => p.2.blk.asid == asid).map fun p => (p.2.id, p.2.blk.st)).flatMap fun p =>
        p.2.groups.zipIdx.flatMap fun g => g.1.waitingPlans p.1 g.2
    batches := mine.flatMap fun p => p.2.st.groups.zipIdx.flatMap fun g =>
      (g.1.batches.filter fun t => !t.outs.isEmpty || t.ops.any fun o => o.2.2.probed).map fun t => (p.1, g.2, t.num) }

/-- A block that is resident or saved. -/
def State.anyBlock (s : State) (id : Nat) : Option Block :=
  match s.blocks.get? id with
  | some b => some b
  | none => (s.saved.find? fun p => p.2.id == id).map fun p => p.2.blk

/-- Whether all of that is performed. -/
def State.invalDone (s : State) (x : Inval) : Bool :=
  (x.acts.all fun a => !((s.cores.getD a.1 CoreState.init).held.any fun h => decide (h.issued ≤ a.2) &&
    (match s.blocks.get? h.blk with
      | some b => b.asid == x.asid
      | none => false))) &&
  (x.msgs.all fun m => !(s.fab.retry.any fun (y : OutMsg) => y.m == m)) &&
  !(s.fab.retry.any fun (y : OutMsg) => y.m.asid == x.asid && (match y.blk.bind s.blocks.get? with
    | some b => x.acts.any fun a => a.1 == 8 * b.cl + b.coreOf y.grp && decide (y.issued ≤ a.2)
    | none => false)) &&
  (x.plans.all fun p => match (s.anyBlock p.1).bind fun b => b.st.groups[p.2.1]? with
    | some g => !(g.waitingPlans p.1 p.2.1).contains p
    | none => true) &&
  (x.copies.all fun c => (s.ms.copies.get? c).isNone) &&
  x.batches.all fun t =>
    match (s.anyBlock t.1).bind fun b => b.st.groups[t.2.1]? with
    | some g => !(g.batches.any fun y => y.num == t.2.2)
    | none => true

/-- Words in progress of a block forget translations of a range. -/
def BlkState.dropTr (st : BlkState) (asid va size : Nat) : BlkState :=
  let slot := fun (p : PcSlot) => { p with pages := p.pages.filter fun x => !trMeets asid va size x.1 }
  { st with groups := st.groups.map fun g => { g with slot0 := slot g.slot0, slot1 := slot g.slot1 } }

/-- Every micro-TLB, cluster TLB and walker cache drops the range, every instruction cache the context, and no word in progress goes on
with a dropped translation (17 R360, steps 1 and 2). -/
def State.invalidate (s : State) (asid va size : Nat) : State :=
  let core := fun (_ : Nat) (c : CoreState) => { c with
    utlb := c.utlb.filter fun x => !trMeets asid va size x.1
    journal := c.journal.map fun e => { e with st := e.st.dropTr asid va size } }
  { s with
    ms := (s.ms.tlbDrop asid va size).icDrop asid
    cores := KMap.mapV core s.cores
    blocks := KMap.mapV (fun _ (b : Block) => if b.asid = asid then { b with st := b.st.dropTr asid va size } else b) s.blocks }

/-- F2 keeps account of the pages that the contexts map, whether or not a word reaches them: the host is about to write memory, which may
change a table (17 R360, R376; log 106). -/
def State.noteMapped (s : State) : State :=
  let note := fun (_ : Nat) (c : Ctx) =>
    { c with mapped := (s.ms.mapsFrom 3 0 c.root 0).foldl (fun l m => if l.contains m then l else m :: l) c.mapped }
  { s with ctxs := KMap.mapV note s.ctxs }

/-- F2 zeroes the pages that an invalidate has freed, before anything maps them again: those of the range that the context had mapped
and that no context maps now (17 R376; log 106). -/
def State.zeroFreed (s : State) (x : Inval) : State :=
  match s.ctxs.get? x.asid with
  | none => s
  | some c =>
    let live := s.ctxs.flatMap fun p => s.ms.pagesOf p.2.root
    let gone := c.mapped.filter fun m => decide (m.1 < x.va + x.size ∧ x.va < m.1 + m.2.2) &&
      !(live.any fun r => decide (r.1 < m.2.1 + m.2.2 ∧ m.2.1 < r.1 + r.2))
    { s with
      ms := gone.foldl (fun ms m => ms.zeroRange m.2) s.ms
      ctxs := s.ctxs.put x.asid { c with mapped := c.mapped.filter fun m => !gone.contains m } }

/-- F2 drops matching TLB and instruction-cache entries and drains translated accesses, then reports completion (R360). -/
def execInvalidate (asid va size : Nat) (s : State) : Out :=
  match s.invals.find? fun x => x.asid == asid && x.va == va && x.size == size with
  | some x => .next (if s.invalDone x then (({ s with invals := s.invals.erase x } : State).zeroFreed x).cmdDone else s)
  | none =>
    match s.liveCtx asid with
    | none => .next s.cmdError
    | some _ =>
      let s1 := s.invalidate asid va size
      .next { s1 with invals := s1.invals ++ [s1.startInval asid va size] }

/-! ### Teardown (17 R378) -/

/-- Begin a teardown: the continuation table is cleared, and every queue of the context is unmapped, which pre-empts its blocks; one
without a slot is DEAD at once (17 R368, R378, step 1). -/
def State.beginTeardown (s : State) (asid : Nat) : State :=
  match s.liveCtx asid with
  | none => s
  | some c =>
    let s1 := { s with ctxs := s.ctxs.put asid { c with conts := [], tearing := true } }
    ((s1.qs.queues.filter fun p => p.2.asid == asid).map fun p => p.1).foldl
      (fun a k => if (a.slotOf k).isSome then a.beginUnmap k else a.killQueue k) s1

/-- Steps 2 to 4 of a teardown, once no queue of the context is left: blocks that are still resident or saved are terminated without a
record, speculations are discarded, and continuation tasks are dropped and counted (17 R378). -/
def State.teardownBlocks (s : State) (asid : Nat) : State :=
  let specs := ((s.blocks.filter fun p => p.2.asid == asid).filterMap fun p => p.2.spec).eraseDups
  let s1 := specs.foldl (fun a n => a.discardSpec n .teardown) s
  let tasks := (s1.fifos.map fun p => p.2.countP fun t => t.asid == asid).sum
  let stop := fun (_ : Nat) (b : Block) => if b.asid = asid then { b with stopping := .terminate none } else b
  let s2 := ((s1.qs.launches.filter fun p => p.2.asid == asid).map fun p => p.1).foldl State.terminateLaunch s1
  { s2 with
    blocks := KMap.mapV stop s2.blocks
    qs := { s2.qs with hostEvents := if tasks = 0 then s2.qs.hostEvents else s2.qs.hostEvents ++ [.tasksDiscarded asid tasks] }
    fifos := (KMap.mapV (fun _ (l : List Task) => l.filter fun t => t.asid != asid) s2.fifos).filter fun p => !p.2.isEmpty
    faultQ := s2.faultQ.filter fun p => p.asid != asid }

/-- The channel of a stream key. -/
def streamVc (key : Nat) : Nat := key % 8
/-- The chip of a stream key. -/
def streamChip (key : Nat) : Nat := key / 8

/-- Channels 0 to 3 are ordered (19 R393). -/
def ordered (vc : Nat) : Bool := decide (vc < 4)

/-- Send a flush probe for a stream: it names the number of the next message there (19 R396). -/
def State.probeStream (s : State) (key : Nat) : State :=
  let s1 := s.sendF4 (streamChip key) 0 (.probe (streamVc key) (s.fab.outSeq.getD key 0))
  { s1 with fab := { s1.fab with probes := if s1.fab.probes.contains key then s1.fab.probes else s1.fab.probes ++ [key] } }

/-- A drain begins (19 R396): flush probes down every ordered stream in use, and the phase tag for streams under repair. -/
def State.startDrain (s : State) : State :=
  let streams := (s.fab.outSeq.map fun p => p.1).filter fun k => ordered (streamVc k) && (s.fab.repair.get? k).isNone
  streams.foldl State.probeStream
    { s with fab := { s.fab with quiet := [], joined := false, tag := if s.fab.repair.isEmpty then s.fab.tag else !s.fab.tag } }

/-- A drain of the fabric is asked for; it begins when none is under way. -/
def State.askDrain (s : State) (why : DrainWhy) : State :=
  if s.fab.drains.contains why then s
  else
    let s1 := { s with fab := { s.fab with drains := s.fab.drains ++ [why] } }
    if s.fab.drains.isEmpty then s1.startDrain else s1

/-- Steps 5 and 6 of a teardown: everything is invalidated, the pages are zeroed, the counts of the context go, and the ASID is free (17
R378, 08 R253). -/
def State.freeAsid (s : State) (asid : Nat) (c : Ctx) : State :=
  let s1 := s.invalidate asid 0 (2 ^ 57)
  ({ s1 with
    ms := (s1.ms.pagesOf c.root).foldl MemSys.zeroRange s1.ms
    ctxs := s1.ctxs.del asid
    cores := KMap.mapV (fun _ (x : CoreState) => { x with perf := x.perf.del asid }) s1.cores
    clusters := KMap.mapV (fun _ (x : ClusterState) => { x with icMiss := x.icMiss.del asid, budgets := x.budgets.del asid }) s1.clusters
    qs := { s1.qs with launches := s1.qs.launches.filter fun p => p.2.asid != asid }
    invals := s1.invals.filter fun x => x.asid != asid } : State).cmdDone

/-- A teardown goes on: its queues are unmapped, then its blocks end, then, in a domain of several chips, the fabric drains (19 R396),
and then the ASID is freed. -/
def State.goTeardown (s : State) (asid : Nat) : State :=
  match s.ctxs.get? asid with
  | none => s
  | some c =>
    if !c.tearing || s.qs.queues.any fun p => p.2.asid == asid then s
    else if (s.blocks.any fun p => p.2.asid == asid) || s.saved.any fun p => p.2.blk.asid == asid then s.teardownBlocks asid
    else if s.fab.chips.length > 1 && !c.drained then s.askDrain (.teardown asid)
    else (s.teardownBlocks asid).freeAsid asid c

/-- F0 clears the continuation table, unmaps queues, terminates blocks and speculations, invalidates and zeroes the context
(R378). The command goes on until the context has no block. -/
def execTeardownAsid (asid : Nat) (s : State) : Out :=
  match s.ctxs.get? asid with
  | none => .next s.cmdError
  | some c => .next (if c.tearing then s.goTeardown asid else (s.beginTeardown asid).goTeardown asid)

/-! ### The SRAM split (09 R259) -/

/-- Blocks on a core. -/
def State.blocksOnCore (s : State) (cl co : Nat) : List Nat :=
  (s.blocks.filter fun p => p.2.cl == cl && (p.2.co == co || (p.2.pair && p.2.co + 1 == co))).map fun p => p.1

/-- Firmware changes an empty core's SRAM split after writing back and dropping the L1 share (R259). Blocks on the core are
pre-empted first (17 R368). -/
def execSramSplitChange (cl co split : Nat) (s : State) : Out :=
  if !([512, 768, 896].contains split) || 96 ≤ cl || 8 ≤ co then .next s.cmdError
  else
    match s.blocksOnCore cl co with
    | [] =>
      if (s.core cl co).zeroing ≠ Load.zero then .next s
      else
        let s1 := { s with ms := (s.ms.ccSectors cl).foldl (fun m (p : Nat × Sector) => m.writeBackDrop cl p.1) s.ms }
        .next ((s1.setCore cl co { s1.core cl co with split := split }).cmdDone)
    | l => .next (l.foldl State.orderPreempt s)

end Sys2Proof.Machine
end

