-- ==== Sys2Proof/Machine/Dual.lean ====
section
/-! DEFINITION. The meanings of dual words (02 R45 to R48, 05 R138, R139): one for each operation of slot X. Slot Y
rides along: both slots read every operand before either writes. -/

namespace Sys2Proof.Machine

/-- The integer function of a slot on operands of width `w`: DST, then SRC (05 R138). -/
def siFn (o : SIOp) (w : Nat) (d x : BitVec w) : BitVec w :=
  match o with
  | .mov => x
  | .add => d + x
  | .sub => d - x
  | .and => d &&& x
  | .or => d ||| x
  | .xor => d ^^^ x
  | .shl => eShl d x
  | .shr => eShr d x
  | .sar => eSar d x
  | .min => eMin d x
  | .max => eMax d x
  | .neg => -x
  | .not => ~~~x

/-- Whether lo and hi of an i64 slot extend the sign (02 R39). -/
def siSigned : SIOp → Bool
  | .add => true
  | .sub => true
  | .min => true
  | .max => true
  | .neg => true
  | .sar => true
  | .mov => false
  | .and => false
  | .or => false
  | .xor => false
  | .shl => false
  | .shr => false
  | .not => false

/-- Whether a slot reads its destination (02 R46). -/
def siReadsDst : SIOp → Bool
  | .mov => false
  | .neg => false
  | .not => false
  | .add => true
  | .sub => true
  | .and => true
  | .or => true
  | .xor => true
  | .shl => true
  | .shr => true
  | .sar => true
  | .min => true
  | .max => true

/-- The float function of a slot (05 R138). -/
def sfFn (o : SFOp) (f : FFmt) (ftz : Bool) (d x : FVal) : FRes :=
  match o with
  | .fadd => f.add .rne ftz d x
  | .fmul => f.mul ftz d x
  | .fmin => f.minmax false ftz d x
  | .fmax => f.minmax true ftz d x
  | .fneg => f.negOp ftz x

/-- What a slot computes in a lane. -/
def slotResult (x : Slot) (ftz : Bool) (g : Group) (k : Nat) : LaneRes :=
  match x with
  | .nop => LaneRes.int 0 false
  | .int o f =>
    LaneRes.int (map2 f.t.width (siFn o f.t.width) ((g.lane k).reg f.d.r) (g.opnd (.int f.t (siSigned o)) ⟨f.src, f.md⟩ k))
      (g.srcTaint f.src k || (siReadsDst o && (g.lane k).tnt f.d.r))
  | .flt o f =>
    let m := fmtOf f.t
    packF m.width (g.srcTaint f.src k || (o != .fneg && (g.lane k).tnt f.d.r)) fun i =>
      sfFn o m ftz (fsub m ftz i ((g.lane k).reg f.d.r)) (fsub m ftz i (g.opnd (.flt f.t) ⟨f.src, f.md⟩ k))

/-- Whether a lane executes a slot (02 R46). -/
def slotRuns (x : Slot) (g : Group) (slot : Bool) (k : Nat) : Bool :=
  g.inEntry slot k &&
    (match x with
      | .nop => false
      | .int _ f => (g.lane k).pr f.g != f.n
      | .flt _ f => (g.lane k).pr f.g != f.n)

/-- Write a slot's results into the lanes that execute it, by what the group was before the word. -/
def slotWrite (x : Slot) (old g : Group) (slot ftz : Bool) : Group :=
  match x.dst? with
  | none => g
  | some d =>
    (g.mapLanes fun k l =>
      if slotRuns x old slot k then l.setReg d (slotResult x ftz old k).v (slotResult x ftz old k).t else l).shiftLatch d

/-- The lanes that execute a slot. -/
def slotActive (x : Slot) (g : Group) (slot : Bool) : List Nat := (List.range 32).filter fun k => slotRuns x g slot k

/-- A dual word (02 R46, 05 R138, R139). -/
def dualWord (s : State) (x y : Slot) : Out :=
  withCur s fun q =>
    let g := q.grp
    let ftz := q.blk.ftz
    let fl := orFlags (slotActive x g q.slot) (slotResult x ftz g) ||| orFlags (slotActive y g q.slot) (slotResult y ftz g)
    let tiny := anyAssist (slotActive x g q.slot) (slotResult x ftz g) || anyAssist (slotActive y g q.slot) (slotResult y ftz g)
    let g1 := (slotWrite y g (slotWrite x g g q.slot ftz) q.slot ftz).addFlags fl
    .next ((s.finish q q.blk.st g1).assistIf q tiny)

/-- Empty dual-word slot that does nothing (R46). -/
def execSlotNop (_stall : BitVec 3) (y : Slot) (s : State) : Out := dualWord s .nop y

/-- Dual-word slot move (R138). -/
def execSlotMov (_stall : BitVec 3) (x : SlotF IType) (y : Slot) (s : State) : Out := dualWord s (.int .mov x) y

/-- Dual-word slot DST := DST + SRC (R138). -/
def execSlotAdd (_stall : BitVec 3) (x : SlotF IType) (y : Slot) (s : State) : Out := dualWord s (.int .add x) y

/-- Dual-word slot subtraction (R138). -/
def execSlotSub (_stall : BitVec 3) (x : SlotF IType) (y : Slot) (s : State) : Out := dualWord s (.int .sub x) y

/-- Dual-word slot AND (R138). -/
def execSlotAnd (_stall : BitVec 3) (x : SlotF IType) (y : Slot) (s : State) : Out := dualWord s (.int .and x) y

/-- Dual-word slot OR (R138). -/
def execSlotOr (_stall : BitVec 3) (x : SlotF IType) (y : Slot) (s : State) : Out := dualWord s (.int .or x) y

/-- Dual-word slot XOR (R138). -/
def execSlotXor (_stall : BitVec 3) (x : SlotF IType) (y : Slot) (s : State) : Out := dualWord s (.int .xor x) y

/-- Dual-word slot left shift (R138). -/
def execSlotShl (_stall : BitVec 3) (x : SlotF IType) (y : Slot) (s : State) : Out := dualWord s (.int .shl x) y

/-- Dual-word slot logical right shift (R138). -/
def execSlotShr (_stall : BitVec 3) (x : SlotF IType) (y : Slot) (s : State) : Out := dualWord s (.int .shr x) y

/-- Dual-word slot arithmetic right shift (R138). -/
def execSlotSar (_stall : BitVec 3) (x : SlotF IType) (y : Slot) (s : State) : Out := dualWord s (.int .sar x) y

/-- Dual-word slot signed minimum (R138). -/
def execSlotMin (_stall : BitVec 3) (x : SlotF IType) (y : Slot) (s : State) : Out := dualWord s (.int .min x) y

/-- Dual-word slot signed maximum (R138). -/
def execSlotMax (_stall : BitVec 3) (x : SlotF IType) (y : Slot) (s : State) : Out := dualWord s (.int .max x) y

/-- Dual-word slot negation (R138). -/
def execSlotNeg (_stall : BitVec 3) (x : SlotF IType) (y : Slot) (s : State) : Out := dualWord s (.int .neg x) y

/-- Dual-word slot bitwise NOT (R138). -/
def execSlotNot (_stall : BitVec 3) (x : SlotF IType) (y : Slot) (s : State) : Out := dualWord s (.int .not x) y

/-- Dual-word slot floating-point addition (R138). -/
def execSlotFadd (_stall : BitVec 3) (x : SlotF FType) (y : Slot) (s : State) : Out := dualWord s (.flt .fadd x) y

/-- Dual-word slot floating-point multiplication (R138). -/
def execSlotFmul (_stall : BitVec 3) (x : SlotF FType) (y : Slot) (s : State) : Out := dualWord s (.flt .fmul x) y

/-- Dual-word slot floating-point minimum (R138). -/
def execSlotFmin (_stall : BitVec 3) (x : SlotF FType) (y : Slot) (s : State) : Out := dualWord s (.flt .fmin x) y

/-- Dual-word slot floating-point maximum (R138). -/
def execSlotFmax (_stall : BitVec 3) (x : SlotF FType) (y : Slot) (s : State) : Out := dualWord s (.flt .fmax x) y

/-- Dual-word slot floating-point negation (R138). -/
def execSlotFneg (_stall : BitVec 3) (x : SlotF FType) (y : Slot) (s : State) : Out := dualWord s (.flt .fneg x) y

end Sys2Proof.Machine
end

