-- ==== Sys2Proof/Machine/Float.lean ====
section
/-! DEFINITION. The meanings of FALU and FSFU (05 R118 to R126). -/

namespace Sys2Proof.Machine

/-- A float function of one operand on each sub-element (05 R101, R105). -/
def flt1 (s : State) (c : Ctl) (o : R1 FType) (var : Bool) (f : FFmt → Bool → FVal → FRes) : Out :=
  floatWord s c o.d var fun ftz g k =>
    packF (fmtOf o.t).width (g.opndTaint o.a k) fun i =>
      f (fmtOf o.t) ftz (fsub (fmtOf o.t) ftz i (g.opnd (.flt o.t) o.a k))

/-- A float function of two operands on each sub-element (05 R101, R105). -/
def flt2 (s : State) (c : Ctl) (o : R2 FType) (var : Bool) (f : FFmt → Bool → FVal → FVal → FRes) : Out :=
  floatWord s c o.d var fun ftz g k =>
    packF (fmtOf o.t).width (g.opndTaint o.a k || g.opndTaint o.b k) fun i =>
      f (fmtOf o.t) ftz (fsub (fmtOf o.t) ftz i (g.opnd (.flt o.t) o.a k)) (fsub (fmtOf o.t) ftz i (g.opnd (.flt o.t) o.b k))

/-- Floating-point addition, rounded once (R118). -/
def execFadd (c : Ctl) (o : R2 FType) (s : State) : Out := flt2 s c o false fun f ftz x y => f.add .rne ftz x y

/-- Floating-point subtraction (R118). -/
def execFsub (c : Ctl) (o : R2 FType) (s : State) : Out := flt2 s c o false fun f ftz x y => f.add .rne ftz x y.neg

/-- Floating-point multiplication (R118). -/
def execFmul (c : Ctl) (o : R2 FType) (s : State) : Out := flt2 s c o false fun f ftz x y => f.mul ftz x y

/-- Fused multiply-add with one rounding (R118). -/
def execFma (c : Ctl) (o : R3 FType) (s : State) : Out :=
  floatWord s c o.d false fun ftz g k =>
    let f := fmtOf o.t
    packF f.width (g.opndTaint o.a k || g.opndTaint o.b k || g.opndTaint o.c k) fun i =>
      f.fma ftz (fsub f ftz i (g.opnd (.flt o.t) o.a k)) (fsub f ftz i (g.opnd (.flt o.t) o.b k))
        (fsub f ftz i (g.opnd (.flt o.t) o.c k))

/-- Floating-point minimum with -0 below +0 and NaN rules (R119). -/
def execFmin (c : Ctl) (o : R2 FType) (s : State) : Out := flt2 s c o false fun f ftz x y => f.minmax false ftz x y

/-- Floating-point maximum (R119). -/
def execFmax (c : Ctl) (o : R2 FType) (s : State) : Out := flt2 s c o false fun f ftz x y => f.minmax true ftz x y

/-- Inverts the sign, NaNs becoming canonical (R120). -/
def execFneg (c : Ctl) (o : R1 FType) (s : State) : Out := flt1 s c o false fun f ftz x => f.negOp ftz x

/-- Clears the sign, NaNs becoming canonical (R120). -/
def execFabs (c : Ctl) (o : R1 FType) (s : State) : Out := flt1 s c o false fun f ftz x => f.absOp ftz x

/-- Writes the class code of each sub-element's encoding (R121). -/
def execFclass (c : Ctl) (o : R1 FType) (s : State) : Out :=
  floatWord s c o.d false fun _ g k =>
    let f := fmtOf o.t
    packF f.width (g.opndTaint o.a k) fun i => f.classify (sub f.width i (g.opnd (.flt o.t) o.a k)).toNat

/-- Rounds each sub-element to an integral value by the named mode (R122). -/
def execFround (c : Ctl) (o : RFround) (s : State) : Out :=
  flt1 s c ⟨o.d, o.a, o.t⟩ false fun f ftz x => f.integral o.m ftz x

/-- The integer TYPE of the width of a format: FSCALE reads its second operand so (05 R123). -/
def scaleType : FType → IType
  | .f64 => .i64
  | .f32x2 => .i32x2
  | .bf16x4 => .i16x4
  | .f16x4 => .i16x4
  | .f8e4x8 => .i8x8
  | .f8e5x8 => .i8x8

/-- Multiplies a by two to the integer power b (R123). With .f64 a .lo or .hi half of b is read as the signed integer of R123,
not as the FP32 value of the f64 column of R39: its 32 bits are sign-extended (log 85). -/
def execFscale (c : Ctl) (o : R2 FType) (s : State) : Out :=
  floatWord s c o.d false fun ftz g k =>
    let f := fmtOf o.t
    packF f.width (g.opndTaint o.a k || g.opndTaint o.b k) fun i =>
      f.scale ftz (fsub f ftz i (g.opnd (.flt o.t) o.a k))
        (sub f.width i (g.opnd (.int (scaleType o.t) true) o.b k)).toInt

/-- Correctly rounded reciprocal (R124). -/
def execFrcp (c : Ctl) (o : R1 FType) (s : State) : Out := flt1 s c o true fun f ftz x => f.rcp ftz x

/-- Correctly rounded reciprocal square root (R124). -/
def execFrsq (c : Ctl) (o : R1 FType) (s : State) : Out := flt1 s c o true fun f ftz x => f.rsq ftz x

/-- Correctly rounded square root (R124). -/
def execFsqrt (c : Ctl) (o : R1 FType) (s : State) : Out := flt1 s c o true fun f ftz x => f.sqrt ftz x

/-- Correctly rounded division (R124). -/
def execFdiv (c : Ctl) (o : R2 FType) (s : State) : Out := flt2 s c o true fun f ftz x y => f.div ftz x y

/-- Correctly rounded two to the power a (R124). -/
def execFexp2 (c : Ctl) (o : R1 FType) (s : State) : Out := flt1 s c o true fun f ftz x => f.exp2 ftz x

/-- Correctly rounded base-2 logarithm (R124). -/
def execFlog2 (c : Ctl) (o : R1 FType) (s : State) : Out := flt1 s c o true fun f ftz x => f.log2 ftz x

/-- Correctly rounded sine (R124). -/
def execFsin (c : Ctl) (o : R1 FType) (s : State) : Out := flt1 s c o true fun f ftz x => f.trig false ftz x

/-- Correctly rounded cosine (R124). -/
def execFcos (c : Ctl) (o : R1 FType) (s : State) : Out := flt1 s c o true fun f ftz x => f.trig true ftz x

/-- Correctly rounded hyperbolic tangent (R124). -/
def execFtanh (c : Ctl) (o : R1 FType) (s : State) : Out := flt1 s c o true fun f ftz x => f.tanh ftz x

end Sys2Proof.Machine
end

