-- ==== Sys2Proof/Machine/Slices.lean ====
section
/-! DEFINITION. The tasks of the memory slices (19 R387 to R390), and what reaches memory from outside the clusters: evictions
(11 R297), uncorrectable errors (21 R412), the host (15 R325). -/

namespace Sys2Proof.Machine

/-- The packet of a task (19 R389). -/
def Task.packet (t : Task) : List W64 :=
  let w0 : W64 := (0 : BitVec 44) ++ bit t.ent.pair ++ (0 : BitVec 1) ++ bit t.ent.ftz ++ bit t.ent.coop ++ (0 : BitVec 2) ++
    AScope.dev.code ++ AScope.dev.code ++ (1 : BitVec 7) ++ (0 : BitVec 1)
  [w0, t.ent.desc, t.ent.fields, 0x0000000100000001, 0x0000000100000001, t.ent.res, 0, 0, t.old, t.ea, t.tag.setWidth 64,
    (0 : BitVec 55) ++ bit t.decc ++ (0 : BitVec 2) ++ BitVec.ofNat 6 t.chip, 0, 0, 0, 0]

/-- A memory slice turns a queued continuation into a LAUNCH packet in the target queue when a ring slot is free (R389).
Tasks bound for one queue go in their order; a task for a queue in ERROR or DEAD is discarded (19 R390). -/
def execSliceWriteTask (slice pos : Nat) (s : State) : Out :=
  let l := s.fifos.getD slice []
  match l[pos]? with
  | none => .next s
  | some t =>
    if (l.take pos).any fun u => u.asid == t.asid && u.ent.target == t.ent.target then .next s
    else
      let gone := { s with fifos := KMap.putD [] s.fifos slice (l.eraseIdx pos) }
      let drop := gone.post (.contDrop t.asid t.ea t.tag)
      match s.queueOf t.asid t.ent.target with
      | none => .next drop
      | some (k, x) =>
        if x.st = .error then .next drop
        else if gone.slotBeyond x then .next (drop.slotFails k x)
        else
          match gone.reserve x false with
          | none => .next s
          | some (p, s1) => .next (s1.putPacket k x p t.packet)

/-- The part evicts a cluster-cache sector at any moment, writing it back if dirty (R297). -/
def execSectorEviction (cl sector : Nat) (s : State) : Out := .next { s with ms := s.ms.writeBackDrop cl sector }

/-- An uncorrectable error in HBM, the memory-side cache, the L2, a cluster cache or scratch poisons the affected 64-byte
sector (R412). -/
def execUncorrectableError (at_ : ErrPlace) (s : State) : Out :=
  match at_ with
  | .home x => .next { s with ms := s.ms.setPoison x }
  | .cache cl x =>
    match s.ms.cc.get? (ccKey cl x) with
    | some y => .next { s with ms := s.ms.ccPut cl x { y with poison := true } }
    | none => .next s
  | .scratch blk x =>
    .next (s.updBlk blk fun st => { st with spoison := if st.spoison.contains x then st.spoison else x :: st.spoison })

/-- What a host access over CXL does at the home of an address: what it answers, and memory after it (15 R325). -/
def cxlRun (op : CxlOp) (ms : MemSys) (pa : Nat) : List Byte × MemSys :=
  let old := ms.mem.word pa
  let rmw := fun (v : W64) => (leBytes old.toNat 8, ms.homeWrite pa (leBytes v.toNat 8))
  match op with
  | .read n => (ms.mem.bytes pa n, ms)
  | .write bytes => ([], ms.homeWrite pa bytes)
  | .cas o n => rmw (if old = o then n else old)
  | .or v => rmw (old ||| v)
  | .add v => rmw (old + v)

/-- The bytes that a host access touches. -/
def cxlSize : CxlOp → Nat
  | .read n => n
  | .write bytes => bytes.length
  | .cas _ _ => 8
  | .or _ => 8
  | .add _ => 8

/-- An access that writes is noted before it may change a page table (17 R376). -/
def cxlNotes (op : CxlOp) (s : State) : State :=
  match op with
  | .read _ => s
  | _ => s.noteMapped

/-- A host read, write or CXL atomic reaches device memory, for example a QCB reservation or a slot-word cancel performed at
the memory slice (R325). Memory that is not installed answers nothing; a sector that an engine holds is waited for; a
poisoned line reads with the poison indication (21 R412), and an atomic on it is not performed (21 R413). -/
def execHostCxlAccess (pa : Nat) (op : CxlOp) (s : State) : Out :=
  let held := (sectorsOf pa (cxlSize op)).any fun x => s.ms.owned.contains x
  if 2 ^ 39 < pa + cxlSize op || held then .next s
  else
    let r := cxlRun op s.ms pa
    match op with
    | .write _ => .next (({ cxlNotes op s with ms := r.2 } : State).post (.cxl [] false))
    | _ =>
      if s.ms.poisoned pa (cxlSize op) then .next (s.post (.cxl [] true))
      else .next (({ cxlNotes op s with ms := r.2 } : State).post (.cxl r.1 false))

end Sys2Proof.Machine
end

