-- ==== Sys2Proof/Machine/Links.lean ====
section
/-! DEFINITION. The fabric (19 R391 to R402, 21 R418, R419): what arrives from other chips, answers to what this chip sent,
draining, ports and repair, and the faults of the watchdog. -/

namespace Sys2Proof.Machine

/-! ### Serving other chips (19 R391, R392, R395) -/

/-- The local ASID under which a chip and an ASID may reach a range; none outside the import table (19 R391). -/
def State.importOf (s : State) (src asid pa n : Nat) : Option Nat :=
  (s.fab.imports.find? fun e => e.chip == src && e.asid == asid && decide (e.base ≤ pa ∧ pa + n ≤ e.base + e.size)).map fun e =>
    e.localAsid

/-- Whether a message reads what it names into an operation or a lane. -/
def remoteReads : RemoteOp → Bool
  | .load _ _ => true
  | .store _ _ => false
  | .atom _ _ _ _ _ => true
  | .red _ _ _ _ => true
  | .casc _ _ _ _ _ => true
  | .decc _ _ _ _ => true
  | .waitc _ _ => true
  | .replica _ _ => false
  | .join _ _ => false
  | .start _ _ => false
  | .abort _ _ _ => false
  | .probe _ _ => false
  | .engineRead _ _ => true
  | .engineWrite _ _ _ => false

/-- The stream on which a message came. -/
def streamOf (m : Msg) : Nat := 8 * m.src + m.vc

/-- The receiving end of a stream. -/
def State.inStream (s : State) (key : Nat) : InStream := s.fab.ins.getD key ⟨0, [], [], []⟩

/-- Change the receiving end of a stream. -/
def State.setInStream (s : State) (key : Nat) (x : InStream) : State := { s with fab := { s.fab with ins := s.fab.ins.put key x } }

/-- The channel of the answers to a channel: 1 for 0, 5 for 4 (19 R393); the others' are not given (log 101). -/
def answerVc (vc : Nat) : Nat := if vc < 4 then 1 else 5

/-- The receiving end of a response stream. -/
def State.ackStream (s : State) (key : Nat) : AckStream := s.fab.acks.getD key ⟨0, [], []⟩

/-- Whether everything before a number has come on a stream from a chip, and been performed (19 R396). -/
def State.streamPast (s : State) (src vc : Nat) (upTo : BitVec 32) : Bool :=
  let next := if vc = 1 ∨ vc = 5 then (s.ackStream (8 * src + vc)).next else (s.inStream (8 * src + vc)).next
  decide ((next - upTo).toNat < 2 ^ 31)

/-- Whether a message can be performed now: its sectors are not an engine's, a replica finds a ring slot, the stream of a flush probe has
been performed (19 R396), and the messages that follow it directly are here (06 R145). -/
def State.canServe (s : State) (m : Msg) : Bool :=
  (match remoteRange m.op with
    | some r => !((sectorsOf r.1 r.2).any fun x => s.ms.owned.contains x)
    | none => true) &&
  (match m.op with
    | .replica dq _ =>
      (match s.fabricQueue dq with
        | some (_, x) => let w := s.q2 x; decide (qUsed w + qHeld w < x.size)
        | none => true)
    | .probe vc upTo => s.streamPast m.src vc upTo
    | _ => true) &&
  (List.range m.burst).all fun i => (s.inStream (streamOf m)).held.any fun h => h.seq == m.seq + BitVec.ofNat 32 (i + 1)

/-- Perform an atomic of another chip at its home. -/
def State.serveAtom (s : State) (fn pa : Nat) (wide : Bool) (b c : W64) : State × W64 :=
  let old : W64 := BitVec.ofNat 64 (leNat (s.ms.mem.bytes pa (atomBytes wide)))
  let new := leBytes (atomNew (AFn.ofNum fn) wide old b c).toNat (atomBytes wide)
  ({ s with ms := s.ms.homeWrite pa new }, old)

/-- The number of a status (02 R55). -/
def statusNum : Status → Nat
  | .ok => 0
  | .retry => 1
  | .badtask => 2

/-- Perform a message whose range the import table allows, under a local ASID. -/
def State.serve (s : State) (m : Msg) (asid : Nat) : State × RemoteReply :=
  match m.op with
  | .load pa n => (s, .data (s.ms.mem.bytes pa n))
  | .store pa l => ({ s with ms := s.ms.homeWrite pa l }, .ack)
  | .atom fn pa w b c => let r := s.serveAtom fn pa w b c; (r.1, .old r.2 0)
  | .red fn pa w b => ((s.serveAtom fn pa w b 0).1, .ack)
  | .casc pa b new task ea => let r := s.atomc asid pa task ea m.src false (cascNext b new); (r.1, .old r.2.1 (statusNum r.2.2))
  | .decc pa b task ea => let r := s.atomc asid pa task ea m.src true (deccNext b); (r.1, .old r.2.1 (statusNum r.2.2))
  | .waitc pa w => (s, .data (s.ms.mem.bytes pa (if w then 8 else 4)))
  | .replica dq words =>
    match s.fabricQueue dq with
    | some (k, x) => ((s.putReplica k x m.src (recW words 16).toNat (words.take 16)).getD s, .ack)
    | none => (s.sendF4 m.src m.asid (.abort dq (recW words 16).toNat m.src), .ack)
  | .join dq gen => (s.chipJoined dq gen m.src, .ack)
  | .start dq gen => (s.gotStart dq gen (some m.src), .ack)
  | .abort dq gen coord =>
    if coord = s.fab.chip then
      (match s.joinOf dq gen with
        | some j => (if (maskChips j.mask).contains m.src then s.abortAll dq gen else s, .ack)
        | none => (s, .ack))
    else (s.gotAbort dq gen (some coord), .ack)
  | .probe _ _ => (s, .ack)
  | .engineRead pa n => (s, .data (s.ms.mem.bytes pa n))
  | .engineWrite pa l bad =>
    let ms := s.ms.homeWrite pa l
    ({ s with ms := if bad then ms.setPoison (pa / 64) else ms }, .ack)

/-- Perform a message: outside the import table, or beyond the installed HBM, it is refused (17 R358, 19 R391; log 123); a poisoned sector is not read (21 R413). -/
def State.perform? (s : State) (m : Msg) : State × RemoteReply :=
  match remoteRange m.op with
  | none => s.serve m m.asid
  | some r =>
    match s.importOf m.src m.asid r.1 r.2 with
    | none => (s, .refused)
    | some a => if beyondHbm r.1 then (s, .refused) else if remoteReads m.op && s.ms.poisoned r.1 r.2 then (s, .poison) else s.serve m a

/-- An answer goes out. -/
def State.sendAnswer (s : State) (a : Answer) : State := { s with fab := { s.fab with answers := s.fab.answers ++ [a] } }

/-- Answer a message: the answer takes the next number of its response stream, and is kept with the last 1,024 of the message's stream (19
R393, R395). -/
def State.answer (s : State) (m : Msg) (r : RemoteReply) : State :=
  let key := 8 * m.src + answerVc m.vc
  let n := s.fab.outSeq.getD key 0
  let a : Answer := ⟨m.src, m.vc, m.seq, n, r, s.fab.tag⟩
  let x := s.inStream (streamOf m)
  let s1 := s.setInStream (streamOf m) { x with results := (x.results ++ [a]).drop (x.results.length + 1 - 1024) }
  ({ s1 with fab := { s1.fab with outSeq := s1.fab.outSeq.put key (n + 1) } } : State).sendAnswer a

/-- Perform a message and answer it (19 R395). -/
def State.serveMsg (s : State) (m : Msg) : State :=
  let r := s.perform? m
  r.1.answer m r.2

/-- Perform what an ordered stream holds, in order (19 R395). -/
def drainStream (key : Nat) : Nat → State → State
  | 0, s => s
  | n + 1, s =>
    let x := s.inStream key
    match x.held.find? fun m => m.seq == x.next with
    | none => s
    | some m =>
      if !s.canServe m then s
      else
        let s1 := s.setInStream key { x with held := x.held.erase m, next := x.next + 1 }
        drainStream key n (s1.serveMsg m)

/-- NEXT of an unordered stream moves past the numbers performed. -/
def advanceNext : Nat → InStream → InStream
  | 0, x => x
  | n + 1, x => if x.done.contains x.next then advanceNext n { x with next := x.next + 1, done := x.done.erase x.next } else x

/-- Answer a duplicate: its answer is sent again as it was (19 R395). -/
def State.answerAgain (s : State) (m : Msg) : State :=
  match (s.inStream (streamOf m)).results.find? fun a => a.seq == m.seq with
  | some a => s.sendAnswer a
  | none => s

/-- A flit has come at a port, which is not given, that is up (21 R418). -/
def State.flitCame (s : State) : State :=
  let p := Config.flitPort s.free % 24
  let x := s.ports.getD p ⟨8, true, 0, 0, 0⟩
  { s with ports := if x.up then s.ports.put p { x with lastFlit := s.clk 0 } else s.ports, free := s.free + 1 }

/-- A destination performs, holds or answers as duplicate an arriving fabric message by its sequence number (R395). -/
def execRemoteMessageArrive (m : Msg) (s : State) : Out :=
  if m.dst ≠ s.fab.chip || m.src == s.fab.chip || !s.fab.chips.contains m.src || 8 ≤ m.vc || vcOf m.op ≠ m.vc then .next s
  else
    let s := s.flitCame
    let x := s.inStream (streamOf m)
    let d := (m.seq - x.next).toNat
    if 2 ^ 31 ≤ d || x.done.contains m.seq then .next (s.answerAgain m)
    else if 1024 ≤ d then .next s
    else if ordered m.vc then
      let s1 := if x.held.any fun h => h.seq == m.seq then s else s.setInStream (streamOf m) { x with held := x.held ++ [m] }
      .next (drainStream (streamOf m) (x.held.length + 1) s1)
    else if !s.canServe m then
      .next (if x.held.contains m then s else s.setInStream (streamOf m) { x with held := x.held ++ [m] })
    else
      let y := advanceNext (x.done.length + 1) { x with done := m.seq :: x.done, held := x.held.erase m }
      .next ((s.setInStream (streamOf m) y).serveMsg m)

/-! ### Answers to this chip (19 R394) -/

/-- The status of a number. -/
def numStatus (n : Nat) : Status := if n = 0 then .ok else if n = 1 then .retry else .badtask

/-- Whether bytes that a word in progress asked for are still on their way. -/
def State.farOut (s : State) (b : Block) (id gi : Nat) : Bool :=
  let none? := fun (l : List Ret) => l.all fun r => r.d.isNone
  ((s.core b.cl (b.coreOf gi)).held.any fun h => h.blk == id && h.grp == gi && (match h.act with
    | .rload _ _ _ l => none? l
    | _ => false)) ||
  s.fab.retry.any fun m => m.blk == some id && m.grp == gi && (match m.m.op with
    | .load _ _ => none? m.rets
    | _ => false)

/-- Bytes of another chip reach the words that asked for them; when none is on its way the words go on. -/
def State.gotFar (s : State) (id gi chip pa : Nat) (bytes : List Byte) : State :=
  match s.blocks.get? id with
  | none => s
  | some b =>
    let out := s.farOut b id gi
    let go := fun (w : SWait) => match w with
      | .far l => if out then .far ((chip, pa, bytes) :: l) else .farGo ((chip, pa, bytes) :: l)
      | _ => w
    s.updGrp id gi fun g => { g with slot0 := g.slot0.rewait go, slot1 := g.slot1.rewait go }

/-- Write what a load brought into its registers (05 R101, 19 R392). -/
def Group.loaded (g : Group) (rets : List Ret) (bytes : List Byte) : Group :=
  rets.zipIdx.foldl (fun g p => g.ret p.1 (BitVec.ofNat 64 (leNat ((bytes.drop (8 * p.2)).take 8))) .ok) g

/-- The acquire action of an access that another chip has performed. -/
def State.acquireMsg (s : State) (id gi cl : Nat) (m : OutMsg) : State :=
  match m.acq with
  | some a => (s.acquireAct cl a.1 a.2).updGrp id gi fun g => g.acqDone (s.clk cl)
  | none => s

/-- The value of a WAITC's location on another chip; once all have come the word checks (19 R392). -/
def State.gotWaitc (s : State) (id gi lane : Nat) (bytes : List Byte) : State :=
  match s.blocks.get? id with
  | none => s
  | some b =>
    let out := s.waitcOut b id gi
    let v : W64 := BitVec.ofNat 64 (leNat bytes)
    let go := fun (w : SWait) => match w with
      | .waitc r =>
        let r1 := { r with got := r.got ++ [(lane, v)] }
        if out then .waitc r1 else .waitcCheck r1
      | _ => w
    s.updGrp id gi fun g => { g with slot0 := g.slot0.rewait go, slot1 := g.slot1.rewait go }

/-- The answer to a message of a lane. -/
def State.laneAnswer (s : State) (id : Nat) (m : OutMsg) (r : RemoteReply) : State :=
  match s.curOf ⟨id, m.grp, false⟩ with
  | none => s
  | some q =>
    match r with
    | .refused => s.fabricFail m
    | .poison =>
      match s.blocks.get? id with
      | some _ =>
        let done := fun (g : Group) => if m.acq.isSome then g.acqDone (s.clk q.blk.cl) else g
        (s.updGrp id m.grp done).consumePoison { q with grp := done q.grp } m.pc m.lane m.ea
      | none => s
    | .ack => s.acquireMsg id m.grp q.blk.cl m
    | .data bytes =>
      match m.m.op with
      | .load pa _ =>
        if m.rets.all fun x => x.d.isNone then s.gotFar id m.grp m.m.dst pa bytes
        else (s.updGrp id m.grp fun g => g.loaded m.rets bytes).acquireMsg id m.grp q.blk.cl m
      | .waitc _ _ => s.gotWaitc id m.grp m.lane bytes
      | _ => s
    | .old v n =>
      let st := match m.m.op with
        | .atom _ _ _ b _ => if v = b then .ok else .retry
        | _ => numStatus n
      (s.updGrp id m.grp fun g => m.rets.foldl (fun g x => g.ret x v st) g).acquireMsg id m.grp q.blk.cl m

/-- The answer to a message of an engine, or of the front end (07 R192, 15 R319, R320). A write of a signal that the other chip refuses is
dropped, and the read of a WAITSIG that it refuses is made again (log 122). -/
def State.partAnswer (s : State) (m : OutMsg) (r : RemoteReply) : State :=
  match m.m.op, r with
  | .engineRead pa _, .data bytes => s.gotSource m.grp (engineKey m pa) bytes false
  | .engineRead pa n, .poison => s.gotSource m.grp (engineKey m pa) (List.replicate n 0) true
  | .engineRead _ _, .refused => s.fabricFail m
  | .engineWrite _ _ _, .refused => s.fabricFail m
  | .engineWrite _ _ _, _ => s.gotAck m.grp (m.lane, m.ea.toNat) false
  | .load pa _, .data bytes =>
    match s.qs.queues.get? m.grp with
    | some x =>
      match x.fetch with
      | .waitsig pos va b cc acq _ =>
        s.setQueue m.grp { x with fetch := .waitsig pos va b cc acq (some (BitVec.ofNat 64 (leNat bytes))) }
      | _ => s.descGot m.grp m.m.dst pa (some bytes)
    | none => s
  | .load pa _, _ => s.descGot m.grp m.m.dst pa none
  | _, _ => s

/-- The answer to a message frees its place in the retry buffer and does what it brings. -/
def State.answered (s : State) (dst vc : Nat) (seq : BitVec 32) (r : RemoteReply) : State :=
  match s.fab.retry.find? fun m => m.m.dst == dst && m.m.vc == vc && m.m.seq == seq with
  | none => s
  | some m =>
    let s1 := { s with fab := { s.fab with retry := s.fab.retry.erase m } }
    match m.blk with
    | some id => s1.laneAnswer id m r
    | none => s1.partAnswer m r

/-- Change the receiving end of a response stream. -/
def State.setAckStream (s : State) (key : Nat) (x : AckStream) : State := { s with fab := { s.fab with acks := s.fab.acks.put key x } }

/-- Take the answers that an ordered response stream holds, in order (19 R393, R395). -/
def drainAnswers (key src : Nat) : Nat → State → State
  | 0, s => s
  | n + 1, s =>
    let x := s.ackStream key
    match x.held.find? fun a => a.rseq == x.next with
    | none => s
    | some a =>
      drainAnswers key src n ((s.setAckStream key { x with held := x.held.erase a, next := x.next + 1 }).answered src a.vc a.seq a.r)

/-- NEXT of an unordered response stream moves past the answers taken. -/
def AckStream.advance : Nat → AckStream → AckStream
  | 0, x => x
  | n + 1, x => if x.done.contains x.next then AckStream.advance n { x with next := x.next + 1, done := x.done.erase x.next } else x

/-- An end-to-end acknowledgement or response frees the message's retry-buffer place (R394): in the order of its stream on an ordered
channel, once (19 R393, R395). -/
def execRemoteAckArrive (dst vc : Nat) (seq : AckNum) (r : RemoteReply) (s : State) : Out :=
  let key := 8 * dst + answerVc vc
  let x := s.ackStream key
  let d := (seq.own - x.next).toNat
  if dst == s.fab.chip || !s.fab.chips.contains dst || 8 ≤ vc then .next s
  else
  let s := s.flitCame
  if 1024 ≤ d || x.done.contains seq.own then .next s
  else if ordered (answerVc vc) then
    let a : Answer := ⟨s.fab.chip, vc, seq.of, seq.own, r, seq.tag⟩
    let s1 := if x.held.any fun h => h.rseq == seq.own then s else s.setAckStream key { x with held := x.held ++ [a] }
    .next (drainAnswers key dst (x.held.length + 1) s1).wakeDrains
  else
    .next ((s.setAckStream key (AckStream.advance (x.done.length + 1) { x with done := seq.own :: x.done })).answered dst vc seq.of r).wakeDrains

/-! ### Draining (19 R396) -/

/-- A flush probe returns, proving every earlier message of the stream performed (R396); a repair of the stream ends (21 R419). It
returns once the destination has acknowledged it. -/
def execFlushProbeReturn (dst vc : Nat) (s : State) : Out :=
  let key := 8 * dst + vc
  let isIt := fun (op : RemoteOp) => match op with
    | .probe v _ => v == vc
    | _ => false
  if !s.fab.probes.contains key || (s.fab.retry.any fun m => m.m.dst == dst && isIt m.m.op) ||
      (s.fab.f4.any fun x => x.1 == dst && isIt x.2.2) then .next s
  else .next { s with fab := { s.fab with probes := s.fab.probes.erase key, repair := s.fab.repair.del key } }

/-- Whether this chip holds no unacknowledged message of a tag, and no message or answer of it that is not performed (19 R396). -/
def State.quietFor (s : State) (tag : Bool) : Bool :=
  !(s.fab.retry.any fun m => m.m.tag == tag) && !(s.fab.ins.any fun p => p.2.held.any fun m => m.tag == tag) &&
    !(s.fab.acks.any fun p => p.2.held.any fun a => a.tag == tag)

/-- A chip reports quiet for a phase tag; the phase drains when all chips have reported (R396). This chip reports once it is quiet for the
tag that it has left. The report of another chip in a phase that this chip does not drain has this chip move to the other tag, and report
in its turn (log 124). -/
def execFabricPhaseQuiet (chip : Nat) (s : State) : Out :=
  let old := !s.fab.tag
  let mine := s.quietFor old
  let told := fun (f : Fabric) => if chip == s.fab.chip then { f with reports := f.reports ++ [old] } else f
  if !s.fab.chips.contains chip then .next s
  else if s.fab.drains.isEmpty then
    if chip ≠ s.fab.chip then .next (if s.fab.joined then s else { s with fab := { s.fab with tag := old, joined := true } })
    else .next (if s.fab.joined && mine then { s with fab := told { s.fab with joined := false } } else s)
  else if s.fab.quiet.contains chip || (chip == s.fab.chip && !mine) then .next s
  else .next { s with fab := told { s.fab with quiet := chip :: s.fab.quiet } }

/-- A chip is no more of the domain: its streams, imports and repairs go. -/
def State.dropChip (s : State) (chip : Nat) : State :=
  let other := fun (k : Nat) => streamChip k != chip
  { s with fab := { s.fab with
    chips := s.fab.chips.filter fun c => c != chip
    imports := s.fab.imports.filter fun e => e.chip != chip
    outSeq := s.fab.outSeq.filter fun p => other p.1
    ins := s.fab.ins.filter fun p => other p.1
    acks := s.fab.acks.filter fun p => other p.1
    repair := s.fab.repair.filter fun p => other p.1
    probes := s.fab.probes.filter other
    f4 := s.fab.f4.filter fun x => x.1 != chip
    unreachable := s.fab.unreachable.filter fun c => c != chip } }

/-- Whether nothing to a chip or from it is under way. -/
def State.chipQuiet (s : State) (chip : Nat) : Bool :=
  !(s.fab.retry.any fun m => m.m.dst == chip) && !(s.fab.ins.any fun p => streamChip p.1 == chip && !p.2.held.isEmpty) &&
    !(s.fab.f4.any fun x => x.1 == chip)

/-- The drain under way ends once every flush probe has returned, and every chip is quiet where streams are under repair (R396): the host
is told, a teardown goes on, or a chip leaves; then the next drain begins. -/
def State.stepDrain (s : State) : State :=
  match s.fab.drains with
  | [] => s
  | why :: rest =>
    let done := s.fab.probes.isEmpty && (s.fab.repair.isEmpty || s.fab.chips.all fun c => s.fab.quiet.contains c) &&
      (match why with
        | .leave c => s.chipQuiet c
        | _ => true)
    if !done then s
    else
      let s1 := { s with fab := { s.fab with drains := rest, quiet := [] } }
      let s2 := match why with
        | .quiesce => s1.post .quiesced
        | .teardown asid =>
          (match s1.ctxs.get? asid with
            | some c => { s1 with ctxs := s1.ctxs.put asid { c with drained := true } }
            | none => s1)
        | .leave c => s1.dropChip c
      if rest.isEmpty then s2 else s2.startDrain

/-- The host driver asks F4 to drain the fabric (R396). The request goes on until all is drained. -/
def execFabricQuiesce (s : State) : Out :=
  .next (if s.fab.drains.contains .quiesce then s.stepDrain else s.askDrain .quiesce)

/-- A chip leaves the fabric domain after F4 has drained the fabric (R396). -/
def execChipLeavesDomain (chip : Nat) (s : State) : Out :=
  if chip = s.fab.chip || !s.fab.chips.contains chip then .next s else .next (s.askDrain (.leave chip))

/-- An entry of F4's import table is set, naming the physical ranges a (chip, ASID) pair may reach and the local ASID that
serves its ATOMCs (R391). -/
def execImportTableEntry (chip asid base size local_ : Nat) (s : State) : Out :=
  match s.liveCtx local_ with
  | none => .next s.cmdError
  | some _ => .next ({ s with fab := { s.fab with imports := s.fab.imports ++ [⟨chip, asid, base, size, local_⟩] } } : State).cmdDone

/-! ### Ports (21 R418, R419) -/

/-- A port as bring-up leaves it. -/
def Port.init : Port := ⟨8, true, 0, 0, 0⟩

/-- A port. -/
def State.port (s : State) (p : Nat) : Port := s.ports.getD p Port.init

/-- Change a port. -/
def State.setPort (s : State) (p : Nat) (x : Port) : State := { s with ports := s.ports.put p x }

/-- The accesses that wait for a chip that no route reaches complete with FABRIC_UNREACHABLE (19 R402). -/
def State.failUnreachable (s : State) : State :=
  let lost := s.fab.retry.filter fun m => s.fab.unreachable.contains m.m.dst
  (lost.foldl (fun (a : State) m => a.fabricFail m)
    { s with fab := { s.fab with retry := s.fab.retry.filter fun m => !s.fab.unreachable.contains m.m.dst } }).wakeDrains

/-- F4 declares a port failed (21 R419): its streams are under repair, and their messages go out again on a new route, with a
probe behind them; a chip without a route is unreachable. A drain under way begins again. -/
def State.failPort (s : State) (p : Nat) : State :=
  let n := s.free
  let mine := (s.fab.outSeq.map fun x => x.1).filter fun k => Config.routed n p k
  let lost := (mine.map streamChip).eraseDups.filter fun c => Config.noRoute n c
  let alive := mine.filter fun k => !lost.contains (streamChip k)
  let clk := s.clk 0
  let s1 := s.setPort p { s.port p with up := false, goodSince := clk }
  let again := s.fab.retry.filter fun m => alive.contains (8 * m.m.dst + m.m.vc)
  let s2 := { s1 with
    free := n + 1
    fab := { s1.fab with
      unreachable := (s1.fab.unreachable ++ lost).eraseDups
      repair := alive.foldl (fun m k => KMap.put m k ((KMap.get? m k).getD clk)) s1.fab.repair
      probes := s1.fab.probes.filter fun k => !lost.contains (streamChip k)
      f4 := s1.fab.f4.filter fun x => !lost.contains x.1
      outbox := s1.fab.outbox ++ again.map fun m => m.m } }
  let s3 := (alive.foldl State.probeStream s2).failUnreachable
  if s3.fab.drains.isEmpty then s3 else s3.startDrain

/-- Ports are numbered 0 to 23 (00 R1). -/
def isPort (p : Nat) : Bool := decide (p < 24)

/-- A link port retries a flit that failed its CRC from its link buffer (R418). -/
def execFlitCrcRetry (port : Nat) (ok : Bool) (s : State) : Out :=
  if !isPort port then .next s
  else
    let x := s.port port
    .next (s.setPort port (if ok then { x with retries := 0, lastFlit := s.clk 0 }
      else { x with retries := x.retries + 1, goodSince := s.clk 0 }))

/-- A port that loses a lane retrains to 4 lanes at half bandwidth (R418); a failed retraining is a failure of the port. -/
def execPortLaneLoss (port : Nat) (trained : Bool) (s : State) : Out :=
  if !isPort port then .next s
  else if trained then .next (s.setPort port { s.port port with lanes := 4 })
  else .next (s.failPort port)

/-- F4 declares a port failed and reroutes and replays its streams under repair (R419): after 32 consecutive failed retries of one
flit. At a port that is down already, accesses that still wait for an unreachable chip complete. -/
def execPortFail (port : Nat) (s : State) : Out :=
  let x := s.port port
  if !x.up then .next s.failUnreachable
  else if isPort port && decide (32 ≤ x.retries) then .next (s.failPort port)
  else .next s

/-- 4,096 cycles with no flit received make a port fail (R418). -/
def execPortReceiveTimeout (port : Nat) (s : State) : Out :=
  let x := s.port port
  if isPort port && x.up && decide (x.lastFlit + 4096 ≤ s.clk 0) then .next (s.failPort port) else .next s

/-- A retrained port returns to routing after 2^20 cycles without error (R419). -/
def execPortReturn (port : Nat) (s : State) : Out :=
  let x := s.port port
  if isPort port && !x.up && decide (x.goodSince + 2 ^ 20 ≤ s.clk 0) then
    .next (s.setPort port { x with up := true, retries := 0, lastFlit := s.clk 0 })
  else .next s

/-! ### The watchdog's faults (19 R402, 17 R364) -/

/-- A fault against a whole launch: one record for its oldest resident block, every block terminated, the queue in ERROR; a
speculation is discarded (16 R347). -/
def State.launchFault (s : State) (l : Nat) (x : Launch) (code : FaultCode) : State :=
  match x.spec with
  | some n => s.discardSpec n .abort
  | none =>
    let s1 := match s.blocks.find? fun p => p.2.launch == l with
      | some p =>
        let gi := ((p.2.st.groups.zipIdx.find? fun (g : Group × Nat) => !g.1.retired).map fun (g : Group × Nat) => g.2).getD 0
        s.record p.2.asid (s.groupRecord p.2 gi 0 { code := code, lane := 0 })
      | none => s
    ((s1.terminateLaunch l).queueError x.q 12 x.pos).post (.faulted x.q)

/-- The launch watchdog count reaches its limit and raises HANG against the whole launch (R402). -/
def execHang (launch : Nat) (s : State) : Out :=
  match s.qs.launches.get? launch with
  | none => .next s
  | some x =>
    if x.terminated || x.wdog < 2 ^ 20 * resWdog (recW x.w 5) then .next s else .next (s.launchFault launch x .hang)

/-- A repair that has excused a wait for 2^26 cycles, and goes on, raises a fault against the launch (R402). -/
def execRemoteRecoveryTimeout (launch : Nat) (s : State) : Out :=
  match s.qs.launches.get? launch with
  | none => .next s
  | some x =>
    let due := x.excused.any fun e => decide (2 ^ 26 ≤ e.2.2) && s.fab.repair.get? e.1 == some e.2.1
    if x.terminated || !due then .next s
    else .next (s.launchFault launch x .remoteRecoveryTimeout)

end Sys2Proof.Machine
end

