-- ==== Sys2Proof/Machine/Sha.lean ====
section
/-! DEFINITION. SHA-256 (21 R423 to R425), as FIPS 180-4 defines it (log 18). -/

namespace Sys2Proof.Machine

/-- The first 64 prime numbers. -/
def primes : List Nat := (List.range 312).filter fun n => decide (2 ≤ n) && (List.range n).all fun d => d < 2 || n % d != 0

/-- The bits of the integer root of degree `k` of `n` from bit `b - 1` down, on top of `r`. -/
def rootFrom (k n : Nat) : Nat → Nat → Nat
  | 0, r => r
  | b + 1, r => rootFrom k n b (if (r + 2 ^ b) ^ k ≤ n then r + 2 ^ b else r)

/-- The first 32 fraction bits of the root of degree `k` of a number below 2^16. -/
def rootFraction (k n : Nat) : BitVec 32 := BitVec.ofNat 32 (rootFrom k (n * 2 ^ (32 * k)) 40 0)

/-- The hash before the first block: square roots of the first eight primes. -/
def shaStart : List (BitVec 32) := (primes.take 8).map (rootFraction 2)

/-- The round constants: cube roots of the first 64 primes. -/
def shaRoundConst : List (BitVec 32) := primes.map (rootFraction 3)

/-- A number of a whole list of bytes, most significant first, as 32 bits. -/
def beWord (l : List Byte) : BitVec 32 := BitVec.ofNat 32 (leNat l.reverse)

/-- The bytes of a word, most significant first. -/
def beBytes (w : BitVec 32) : List Byte := (leBytes w.toNat 4).reverse

/-- Two rotations and a third term, exclusive or. -/
def mix (x : BitVec 32) (i j : Nat) (y : BitVec 32) : BitVec 32 := x.rotateRight i ^^^ (x.rotateRight j ^^^ y)

/-- The words of the schedule after the first 16: the window holds the last 16, oldest first. -/
def shaSchedule : Nat → List (BitVec 32) → List (BitVec 32)
  | 0, _ => []
  | n + 1, win =>
    let word := fun i => win.getD i 0
    let next := word 0 + mix (word 1) 7 18 (word 1 >>> 3) + word 9 + mix (word 14) 17 19 (word 14 >>> 10)
    next :: shaSchedule n (win.drop 1 ++ [next])

/-- One round on the eight working words, with the sum of the constant and the schedule word. -/
def shaRound (v : List (BitVec 32)) (kw : BitVec 32) : List (BitVec 32) :=
  let at_ := fun i => v.getD i 0
  let choice := at_ 6 ^^^ (at_ 4 &&& (at_ 5 ^^^ at_ 6))
  let major := (at_ 0 &&& (at_ 1 ||| at_ 2)) ||| (at_ 1 &&& at_ 2)
  let t := at_ 7 + mix (at_ 4) 6 11 ((at_ 4).rotateRight 25) + choice + kw
  (t + mix (at_ 0) 2 13 ((at_ 0).rotateRight 22) + major) :: (v.take 3 ++ ((at_ 3 + t) :: (v.drop 4).take 3))

/-- The hash after a block of 64 bytes. -/
def shaBlock (h : List (BitVec 32)) (block : List Byte) : List (BitVec 32) :=
  let first := (List.range 16).map fun i => beWord ((block.drop (4 * i)).take 4)
  let sums := List.zipWith (· + ·) shaRoundConst (first ++ shaSchedule 48 first)
  List.zipWith (· + ·) h (sums.foldl shaRound h)

/-- A message with its padding: the bit 1, zeros to 8 bytes short of a whole block, and the length in bits. -/
def shaPadded (m : List Byte) : List Byte :=
  m ++ 0x80 :: (List.replicate ((119 - m.length % 64) % 64) 0 ++ (leBytes (8 * m.length) 8).reverse)

/-- The hash after the blocks of a padded message. -/
def shaBlocks (h : List (BitVec 32)) (m : List Byte) : Nat → List (BitVec 32)
  | 0 => h
  | n + 1 => shaBlock (shaBlocks h m n) ((m.drop (64 * n)).take 64)

/-- The digest of a list of bytes. -/
def sha256 (m : List Byte) : List Byte :=
  let p := shaPadded m
  (shaBlocks shaStart p (p.length / 64)).flatMap beBytes

end Sys2Proof.Machine
end

