-- ==== Sys2Proof/Machine/Hours.lean ====
section
/-! DEFINITION. Across hours (21): strikes and the rewind (R409 to R411), health binning (R421, R422), firmware and
attestation (R423 to R425), resets (R426), power (R428). -/

namespace Sys2Proof.Machine

/-! ### The 160-cycle rewind (21 R410, R411) -/

/-- The journal entries of a block, of both cores of a pair. -/
def State.journalOf (s : State) (id : Nat) (b : Block) : List JEntry :=
  let one := fun (co : Nat) => (s.core b.cl co).journal.filter fun e => e.blk == id
  one b.co ++ if b.pair then one (b.co + 1) else []

/-- The earliest entry after a target. -/
def firstAfter (target : Nat) : List JEntry → Option JEntry
  | [] => none
  | e :: l =>
    match firstAfter target l with
    | none => if target < e.cycle then some e else none
    | some f => if target < e.cycle ∧ e.cycle ≤ f.cycle then some e else some f

/-- A sleeping WAITC checks again after a rewind, since its monitors are gone. -/
def SWait.rearm (w : SWait) : SWait :=
  match w with
  | .waitc r => .waitcCheck r
  | _ => w

/-- A state of a block in which sleeping WAITCs check again. -/
def BlkState.rearm (st : BlkState) : BlkState :=
  { st with groups := st.groups.map fun g => { g with slot0 := g.slot0.rewait SWait.rearm, slot1 := g.slot1.rewait SWait.rearm } }

/-- The counts of the cores of a block go back with it (21 R411). -/
def State.backTally (s : State) (b : Block) (old new : BlkState) : State :=
  (old.groups.zip new.groups).zipIdx.foldl (fun a x =>
    a.countCore b.cl (b.coreOf x.2) b.perfKey fun p => p.back x.1.1.tally x.1.2.tally) s

/-- A block goes back to its state at the end of a cycle: acts held for later words are dropped, and copies whose
hand-off is among them; sectors of MSTOREs that are undone are given back, and the counts of what is undone (21 R411). -/
def State.rewindBlock (s : State) (target id : Nat) : State :=
  match s.blocks.get? id with
  | none => s
  | some b =>
    let s1 := match firstAfter target (s.journalOf id b) with
      | some e =>
        let t := (s.setBlock id { b with st := e.st.rearm, prot := e.prot }).backTally b b.st e.st
        { t with ms := t.ms.reown b.spec b.st.owns e.st.owns }
      | none => s
    let later := fun (h : Held) => h.blk == id && decide (target < h.issued)
    let cores := if b.pair then [b.co, b.co + 1] else [b.co]
    let lost := cores.flatMap fun co => (s1.core b.cl co).held.filterMap fun h =>
      match h.act with
      | .handoff c => if later h then some c else none
      | _ => none
    let s2 := cores.foldl (fun a co =>
      let c := a.core b.cl co
      a.setCore b.cl co { c with
        held := c.held.filter fun h => !later h
        journal := c.journal.filter fun e => e.blk != id || decide (e.cycle ≤ target) }) s1
    { s2 with ms := { s2.ms with
      copies := s2.ms.copies.filter fun p => !lost.contains p.1
      monitors := s2.ms.monitors.filter fun m => m.blk != id
      fired := s2.ms.fired.filter fun p => p.1 != id } }

/-- The target of a rewind of a core (21 R411): that of an earlier rewind that began less than 160 cycles ago, if that is
earlier. -/
def CoreState.target (c : CoreState) (clk t : Nat) : Nat :=
  match c.lastStrike with
  | some x => if clk < x.1 + 160 then min x.2 (t - 160) else t - 160
  | none => t - 160

/-- The groups of a block that are in the assist routine finish first (21 R411). -/
def State.finishAssist (s : State) (id : Nat) : State :=
  s.updBlk id fun st => { st with groups := st.groups.map fun g => if g.park = .assist then { g with park := .none } else g }

/-- One core rewinds: its blocks, and a pair's other core with it. The rewind counts for the contexts of those blocks. -/
def State.rewindCore (s : State) (cl co t : Nat) : State :=
  let ids := s.blocksOnCore cl co
  let c := s.core cl co
  let clk := s.clk cl
  let target := c.target clk t
  let s1 := ids.foldl (fun (a : State) id => (a.finishAssist id).rewindBlock target id) s
  let asids := (ids.filterMap fun id => (s.blocks.get? id).map Block.perfKey).eraseDups
  let s2 := asids.foldl (fun (a : State) n => a.countCore cl co n fun p => { p with rewinds := p.rewinds + 1 }) s1
  let s3 := s2.setCore cl co { s2.core cl co with lastStrike := some (clk, target) }
  let gone := match s3.focus with
    | some f => ids.contains f.blk
    | none => false
  if gone then { s3 with focus := none } else s3

/-- A strike report rewinds the named cores to the state of T−160 and discards held acts (R411). T is the cycle of the report: one that names
another cycle of its cluster is no report (log 117). -/
def execStrikeReport (cl t : Nat) (mask : BitVec 8) (s : State) : Out :=
  if 96 ≤ cl || s.clk cl ≠ t then .next s
  else .next (((List.range 8).filter fun co => mask.getLsbD co).foldl (fun (a : State) co => a.rewindCore cl co t) s)

/-! ### Health binning (21 R421, R422) -/

/-- The occupancy report of a cluster: a core in service by its bin, a core that is out by 3 (21 R422). -/
def State.occupancy (s : State) (cl : Nat) : State :=
  s.post (.occupancy cl ((List.range 8).map fun co => let c := s.core cl co; if c.service == .serving then c.bin else 3))

/-- Whether a core of a cluster is out for its self-test. -/
def State.testing (s : State) (cl : Nat) : Bool :=
  (List.range 8).any fun co =>
    match (s.core cl co).service with
    | .leaving => true
    | .out _ => true
    | _ => false

/-- The cycles that lie less than 2^40 back. -/
def recentOf (clk : Nat) (l : List Nat) : List Nat := l.filter fun x => decide (clk < x + 2 ^ 40)

/-- Whether a core is marginal: 8 margin alarms or 64 corrected errors within 2^40 local cycles (21 R421). -/
def CoreState.marginal (c : CoreState) (clk : Nat) : Bool :=
  decide (8 ≤ (recentOf clk c.alarms).length) || decide (64 ≤ (recentOf clk c.corrected).length)

/-- A timing-margin monitor raises an alarm, or ECC corrects an error of a core, that of a strike among them, which leaves a counter alone
(21 R409, R421). -/
def State.wear (s : State) : State :=
  let n := Config.wear s.free
  let cl := n % 1024 / 8 % 96
  let co := n % 8
  let c := s.core cl co
  let clk := s.clk cl
  let c1 := if n / 1024 % 2 = 0 then { c with alarms := recentOf clk c.alarms ++ [clk] }
    else { c with corrected := recentOf clk c.corrected ++ [clk], corrections := c.corrections + 1 }
  ({ s with free := s.free + 1 } : State).setCore cl co c1

/-- F5 finds a marginal core and takes it out: its blocks are pre-empted (R421); one core of a cluster at a time. -/
def execCoreMarginal (cl co : Nat) (s : State) : Out :=
  let c := s.core cl co
  if 96 ≤ cl || 8 ≤ co || c.service != .serving || s.testing cl || !c.marginal (s.clk cl) then .next s
  else
    let s1 := s.setCore cl co { c with service := .leaving }
    .next (((s.blocksOnCore cl co).foldl State.orderPreempt s1).occupancy cl)

/-- The blocks of a marginal core have left it: it moves to the next bin, where one in bin 2 stays, and its self-test begins (21 R421; log
118). -/
def State.beginBist (s : State) (cl co : Nat) : State :=
  let c := s.core cl co
  if c.service == .leaving && (s.blocksOnCore cl co).isEmpty then s.setCore cl co { c with service := .out (s.clk cl), bin := min 2 (c.bin + 1) }
  else s

/-- After 2^24 cycles of self-test the core is readmitted in its bin or retired (R421). A core that fails in another bin than
bin 2 goes on to the next bin (log 19). A readmitted core counts its alarms and corrected errors anew (log 118). -/
def execBistEnd (cl co : Nat) (pass : Bool) (s : State) : Out :=
  let c := s.core cl co
  match c.service with
  | .out since =>
    if s.clk cl < since + 2 ^ 24 || !(s.blocksOnCore cl co).isEmpty || c.zeroing != Load.zero then .next s
    else
      let c1 :=
        if pass then { c with service := .serving, lastStrike := none, alarms := [], corrected := [] }
        else if c.bin = 2 then { c with service := .retired }
        else { c with service := .out (s.clk cl), bin := c.bin + 1 }
      .next ((s.setCore cl co c1).occupancy cl)
  | _ => .next s

/-! ### Firmware (21 R423 to R425) -/

/-- The bytes of a digest, in order. -/
def digestBytes (m : BitVec 256) : List Byte := (List.range 32).map fun i => m.extractLsb' (248 - 8 * i) 8

/-- A digest from its bytes. -/
def digestOf (l : List Byte) : BitVec 256 := l.foldl (fun a b => (a <<< 8) ||| b.setWidth 256) 0

/-- The bytes of words of a header. -/
def hdrBytes (h : List W64) (lo n : Nat) : List Byte := ((List.range n).map fun i => leBytes (recW h (lo + i)).toNat 8).flatten

/-- KIND of an image. -/
def imgKind (x : Image) : Nat := ((recW x.header 1).extractLsb' 0 32).toNat

/-- VERSION of an image. -/
def imgVersion (x : Image) : BitVec 32 := (recW x.header 1).extractLsb' 32 32

/-- DIGEST of an image. -/
def imgDigest (x : Image) : List Byte := hdrBytes x.header 3 4

/-- Whether F6 accepts an image: its header, its digest, its signature, its version (21 R423). -/
def Firmware.accepts (f : Firmware) (x : Image) : Bool :=
  let key := ((recW x.header 15).extractLsb' 0 8).toNat
  recW x.header 0 == 0x58485254 && decide (imgKind x ≤ 7) && decide (key ≤ 3) && (recW x.header 15).extractLsb' 8 56 == 0 &&
  (recW x.header 2).toNat == x.body.length && x.body.length % 64 == 0 && sha256 x.body == imgDigest x &&
  Config.sigOk key (hdrBytes x.header 0 7) (hdrBytes x.header 7 4) (hdrBytes x.header 11 4) &&
  decide ((f.fuses.getD (imgKind x) 0).toNat ≤ (imgVersion x).toNat)

/-- M := SHA-256(M ‖ DIGEST) (21 R424). -/
def extend (m : BitVec 256) (d : List Byte) : BitVec 256 := digestOf (sha256 (digestBytes m ++ d))

/-- An accepted image is measured, and its version kept (21 R424). -/
def Firmware.measure (f : Firmware) (x : Image) : Firmware :=
  let versions := ((f.versions ++ List.replicate 8 0).take 8).set (imgKind x) (imgVersion x)
  let g := { f with
    versions := versions
    loaded := if f.loaded.contains (imgKind x) then f.loaded else imgKind x :: f.loaded }
  if imgKind x = 0 then { g with m0 := extend f.m0 (imgDigest x) } else { g with m1 := extend f.m1 (imgDigest x) }

/-- Bring-up verifies and measures the images in KIND order; a failed check stops it, in recovery mode (21 R425, R426). -/
def bringUp (images : List Image) : List Nat → Firmware → Firmware
  | [], f => f
  | k :: l, f =>
    match images.find? fun x => imgKind x == k with
    | some x => if f.accepts x then bringUp images l (f.measure x) else { f with recovery := true }
    | none => { f with recovery := true }

/-- The host driver loads configuration tables, and F6 extends M3 with their digest (R424). -/
def execConfigTableLoad (table : List Byte) (s : State) : Out :=
  .next ({ s with fw := { s.fw with m3 := extend s.fw.m3 (sha256 table) } } : State).cmdDone

/-- The bytes of an attestation report before its signature (21 R425). -/
def Firmware.report (f : Firmware) (nonce : List Byte) : List Byte :=
  nonce ++ digestBytes f.m0 ++ digestBytes f.m1 ++ digestBytes f.m2 ++ digestBytes f.m3 ++
    (((f.versions ++ List.replicate 8 0).take 8).map fun (v : BitVec 32) => leBytes v.toNat 4).flatten ++ leBytes f.serial.toNat 8

/-- F6 signs an attestation report over the nonce, measurements, versions and serial (R425). -/
def execAttestationRequest (nonce : List Byte) (s : State) : Out :=
  if nonce.length ≠ 32 then .next s.cmdError
  else
    let r := s.fw.report nonce
    .next (s.post (.attestation (r ++ Config.sign r)))

/-! ### Resets (21 R426) -/

/-- Host memory, which no reset of the part zeroes. -/
def hostPart (m : Mem) : Mem := m.filter fun c => isHost c.1

/-- Steps 2 to 5 of a bring-up: HBM and the caches are zeroed, the self-test sets the bins, M2 takes the digest of fuses, split default and
bins, F4 joins the domain, and the interfaces report ready (21 R424, R426). What the self-test finds, that digest and the other chips are
open (log 14, 119). -/
def State.bringUpRest (s : State) : State :=
  let bin := fun (k : Nat) => Config.testBin s.free k % 3
  { s with
    ms := { MemSys.init with mem := hostPart s.ms.mem }
    cores := ((List.range 768).filter fun k => bin k ≠ 0).map fun k => (k, { CoreState.init with bin := bin k })
    fab := { s.fab with chips := (s.fab.chip :: (Config.domain s.free).map fun c => c % 64).eraseDups }
    fw := { s.fw with m2 := extend s.fw.m2 (digestBytes (Config.bringUp s.free)), recovery := false, linkReady := true }
    free := s.free + 1 }

/-- The images that wait are measured as far as their turn has come, in KIND order (21 R424). -/
def Firmware.measureDue (f : Firmware) : Nat → Firmware
  | 0 => f
  | n + 1 =>
    match f.waiting.find? fun x => imgKind x == f.loaded.length with
    | some x => ({ (f.measure x) with waiting := f.waiting.erase x } : Firmware).measureDue n
    | none => f

/-- In recovery mode a signed firmware image is loaded over the management bus and checked by F6 (R425). It is measured once those of
every smaller KIND are (R424); the bring-up goes on once every kind of image has been accepted. -/
def execRecoveryImageLoad (image : Image) (s : State) : Out :=
  if !s.fw.recovery || !s.fw.accepts image then .next s
  else
    let f := ({ s.fw with waiting := image :: s.fw.waiting.filter fun x => imgKind x != imgKind image } : Firmware).measureDue 8
    let t : State := { s with fw := f }
    .next (if f.loaded.length = 8 then t.bringUpRest else t)

/-- Power-on or management reset runs the full bring-up (R426). What the outside world still does, the fuses, the serial
number and the chip's number stay. A failed check stops the bring-up after its first step (R425). -/
def execColdReset (images : List Image) (s : State) : Out :=
  let f : Firmware := { Firmware.init with fuses := s.fw.fuses, serial := s.fw.serial }
  let t : State := { State.reset with
    ms := { MemSys.init with mem := s.ms.mem }
    fab := { Fabric.init with chip := s.fab.chip, chips := [s.fab.chip] }
    fw := bringUp images (List.range 8) f
    inputs := s.inputs
    tick := s.tick
    free := s.free }
  .next (if t.fw.recovery then t else t.bringUpRest)

/-- A host driver reset tears down every context by R378; then HBM and caches are zeroed, and firmware and bins kept (R426). -/
def execDeviceReset (s : State) : Out :=
  .next (((s.ctxs.filter fun p => !p.2.tearing).map fun p => p.1).foldl State.beginTeardown { s with fw := { s.fw with resetting := true } })

/-- A device reset ends, once no context is left: HBM and caches are zeroed, M3 is cleared, the bins and what the fabric still has under way
stay (21 R426). -/
def State.endReset (s : State) : State :=
  let keepCl := fun (_ : Nat) (c : ClusterState) => { c with budgets := [], icMiss := [] }
  let keepCo := fun (_ : Nat) (c : CoreState) =>
    { CoreState.init with
      split := c.split
      bin := c.bin
      service := c.service
      binTurn := c.binTurn
      alarms := c.alarms
      corrected := c.corrected
      corrections := c.corrections }
  if !s.fw.resetting || !s.ctxs.isEmpty then s
  else { State.reset with
    clusters := KMap.mapV keepCl s.clusters
    cores := KMap.mapV keepCo s.cores
    ms := { MemSys.init with mem := hostPart s.ms.mem }
    fab := { s.fab with imports := [], joins := [] }
    ports := s.ports
    fw := { s.fw with m3 := 0, resetting := false }
    power := s.power
    qs := { QueueSys.init with slices := s.qs.slices, hostEvents := s.qs.hostEvents }
    inputs := s.inputs
    tick := s.tick
    free := s.free }

/-- A PCIe function-level reset tears down the contexts created through that function (R426). -/
def execFunctionReset (fn : Nat) (s : State) : Out :=
  let mine := (s.ctxs.filter fun p => p.2.fn == fn && !p.2.tearing).map fun p => p.1
  .next (mine.foldl State.beginTeardown s)

/-! ### Power (21 R428) -/

/-- The host sets a module power cap through PLDM (R428): from 1,800 W to 3,600 W. -/
def execPowerCapSet (watts : Nat) (s : State) : Out :=
  if 1800 ≤ watts ∧ watts ≤ 3600 then .next ({ s with power := ⟨watts⟩ } : State).cmdDone else .next s.cmdError

/-- F5 lowers or raises cluster clocks by 50 MHz to hold power and temperature limits (R428): a telemetry event reports it. -/
def execThrottleStep (cl : Nat) (down : Bool) (s : State) : Out :=
  let c := s.cluster cl
  if 96 ≤ cl then .next s
  else .next ((s.setCluster cl { c with steps := if down then c.steps + 1 else c.steps - 1 }).post (.throttle cl down))

end Sys2Proof.Machine
end

