-- ==== Sys2Proof/Machine/Mma.lean ====
section
/-! DEFINITION. The meanings of MMA and MACC, and what the matrix array does (07 R199 to R212). -/

namespace Sys2Proof.Machine

/-! ### Group words (07 R181) -/

/-- A group word acts once, with the operands of the lowest executing lane, and not at all if no lane executes it. -/
def groupWord (s : State) (c : Ctl) (k : Cur → Nat → Out) : Out :=
  withCur s fun q =>
    match q.active c with
    | [] => .next (s.finish q q.blk.st q.grp)
    | i :: _ => k q i

/-- A group word whose checks may stop it. -/
def groupChecked (s : State) (c : Ctl) (k : Cur → Nat → Chkd State) : Out :=
  groupWord s c fun q i =>
    match k q i with
    | .ok s1 => .next s1
    | .error x => .next (stopWord s q x)

/-! ### Joining a batch (07 R204) -/

/-- An operation joins the group's open batch, with the scratch ranges it holds. -/
def Group.join (g : Group) (pc : BitVec 57) (lane clk : Nat) (mma : Bool) (op : MOp) (ranges : List (Nat × Nat × Bool)) : Group :=
  let n := if mma then 1 else 0
  if g.batches.any fun t => !t.closed then
    { g with batches := g.batches.map fun t =>
      if t.closed then t
      else { t with mmas := t.mmas + n, ops := t.ops ++ [((pc, lane), clk, op)], ranges := t.ranges ++ ranges } }
  else { g with batches := g.batches ++ [⟨g.bcnt, false, 0, n, [((pc, lane), clk, op)], ranges, []⟩] }

/-- The first row of tile `t` of the group's window, if the window holds the tile (07 R200, step 1). -/
def tileRow (g : Group) (k : Nat) (t : BitVec 4) : Chkd Nat := do
  need (decide (g.acb.toNat + 64 * t.toNat + 64 ≤ g.acl.toNat)) .accWindow k 0
  .ok (g.acb.toNat + 64 * t.toNat)

/-- Whether a group of a paired block runs on the follower (09 R261). -/
def Block.follows (b : Block) (gi : Nat) : Bool := b.pair && decide (b.coreOf gi ≠ b.co)

/-- PAIR asks for the launch's flag and a group of the leader (07 R200, step 2). -/
def pairAllowed (b : Block) (gi k : Nat) (pair : Bool) : Chkd Unit := need (!pair || (b.pair && !b.follows gi)) .reservedField k 0

/-- Whether a scratch range that a matrix operation reads is held: by a copy, or by an MSTORE that will write it, but not
one of the group's own open batch (07 R193, R203). -/
def State.operandHeld (s : State) (q : Cur) (off n : Nat) (write : Bool) : Bool :=
  (s.ms.copies.any fun p => p.2.holds q.id off n write) ||
  (q.blk.st.groups.mapIdx fun gi g => g.batches.any fun t =>
    (if write then gi != q.gi else gi != q.gi || t.closed) &&
      t.ranges.any fun r => overlaps off n r.1 r.2.1 && (write || r.2.2)).any id ||
  q.blk.st.crossing.any fun x => x.covers q.co off n

/-- The two operand ranges of an MMA: alignment of both first, then their places (07 R200, step 3). -/
def State.mmaRanges (s : State) (q : Cur) (k : Nat) (a b : W64) (na nb : Nat) : Chkd (Nat × Nat) := do
  need (decide (a.toNat % 16 = 0)) .misaligned k a
  need (decide (b.toNat % 16 = 0)) .misaligned k b
  let x ← scratchRange q.blk k a na
  let y ← scratchRange q.blk k b nb
  if s.operandHeld q x na false || s.operandHeld q y nb false then .error .held else .ok (x, y)

/-- The end of a word that joins an operation. -/
def State.joined (s : State) (q : Cur) (k : Nat) (mma : Bool) (op : MOp) (ranges : List (Nat × Nat × Bool)) : State :=
  s.finish q q.blk.st (q.grp.join q.pc k (s.clk q.blk.cl) mma op ranges)

/-- An MMA (07 R199 to R202): `planes` of B, `na` bytes of A, and the operation on the ranges found. -/
def mmaWord (s : State) (c : Ctl) (tile : BitVec 4) (a b : Src) (planes na : Nat) (pair : Bool)
    (op : Cur → Nat → Nat → Nat → MOp) : Out :=
  groupChecked s c fun q k => do
    let row ← tileRow q.grp k tile
    pairAllowed q.blk q.gi k pair
    let nb := 384 * planes * (if pair then 2 else 1)
    let r ← s.mmaRanges q k (q.grp.src Rd.raw a k) (q.grp.src Rd.raw b k) na nb
    .ok (s.joined q k true (op q row r.1 r.2) [(r.1, na, false), (r.2, nb, false)])

/-- A float-B MMA. -/
def mmaFloat (s : State) (c : Ctl) (o : XMmaF) (bf : AFmt) : Out :=
  mmaWord s c o.tile o.a o.b (aFmt bf).width (2048 * aBytes o.af) o.pair fun _ row a b => .mmaF bf o.af row a b o.pair

/-- An integer-B MMA with elements of `bits` bits. -/
def mmaInt (s : State) (c : Ctl) (o : XMmaI) (bits : Nat) : Out :=
  mmaWord s c o.tile o.a o.b bits 2048 o.pair fun _ row a b => .mmaI bits row a b o.pair

/-- Matrix multiply-accumulate with E4M3 B planes into a tile of the open batch (R201). -/
def execMmaF8e4 (c : Ctl) (o : XMmaF) (s : State) : Out := mmaFloat s c o .e4m3

/-- Matrix multiply-accumulate with E5M2 B planes (R201). -/
def execMmaF8e5 (c : Ctl) (o : XMmaF) (s : State) : Out := mmaFloat s c o .e5m2

/-- Matrix multiply-accumulate with BF16 B planes (R201). -/
def execMmaBf16 (c : Ctl) (o : XMmaF) (s : State) : Out := mmaFloat s c o .bf16

/-- Matrix multiply-accumulate with FP16 B planes (R201). -/
def execMmaF16 (c : Ctl) (o : XMmaF) (s : State) : Out := mmaFloat s c o .fp16

/-- Integer matrix multiply-accumulate with INT8 B (R201). -/
def execMmaI8 (c : Ctl) (o : XMmaI) (s : State) : Out := mmaInt s c o 8

/-- Integer matrix multiply-accumulate with INT4 B (R201). -/
def execMmaI4 (c : Ctl) (o : XMmaI) (s : State) : Out := mmaInt s c o 4

/-- Integer matrix multiply-accumulate with INT2 B (R201). -/
def execMmaI2 (c : Ctl) (o : XMmaI) (s : State) : Out := mmaInt s c o 2

/-- Integer matrix multiply-accumulate with binary B (R201). -/
def execMmaB1 (c : Ctl) (o : XMmaI) (s : State) : Out := mmaInt s c o 1

/-- The scales of 96 columns, read at issue from all 32 lanes: the four block scales of each column and its superblock
scale (03 R79, R80). A lane position that holds no lane (retired, or left by REGROUP) still has its registers, and the scales
are read from them (log 86). -/
def scalesOf (g : Group) (sc : Reg) (bs : Bool) : List (BitVec 32 × BitVec 32) :=
  (List.range 96).map fun n =>
    let l := g.lane (n % 32)
    let half := if bs then 32 else 0
    ((l.reg (sc + BitVec.ofNat 6 (n / 32))).extractLsb' half 32,
      if n < 32 then (l.reg (sc + 3)).extractLsb' 0 32
      else if n < 64 then (l.reg (sc + 3)).extractLsb' 32 32
      else (l.reg (sc + 4)).extractLsb' 0 32)

/-- Matrix multiply-accumulate with QC4 codebook B and register scales (R201). -/
def execMmaQc4 (c : Ctl) (o : XMmaQ) (s : State) : Out :=
  mmaWord s c o.tile o.a o.b 4 (2048 * aBytes o.af) o.pair fun q row a b =>
    .mmaQ o.af row a b o.pair
      (scalesOf q.grp o.sc o.bs ++ if o.pair then scalesOf q.grp (o.sc + 5) o.bs else [])

/-- Zeroes every cell of a tile in the open batch (R205). -/
def execMzero (c : Ctl) (tile : BitVec 4) (s : State) : Out :=
  groupChecked s c fun q k => do
    let row ← tileRow q.grp k tile
    .ok (s.joined q k false (.mzero row) [])

/-- The pages of a tile in global memory, which must be ordinary (07 R206). -/
def State.tilePages (s : State) (q : Cur) (k : Nat) (write : Bool) : List W64 → KMap W64 → Chkd (KMap W64)
  | [], m => .ok m
  | va :: l, m => do
    if 2 ^ 57 ≤ va.toNat then throw (.fault { code := pageFault write, lane := k, ea := va, atOnce := true })
    match ← s.checked q k ⟨va, 1, write, !write, write, .global, false, true⟩ with
    | .global leaf _ => s.tilePages q k write l (m.put (va.toNat / 262144) leaf)
    | _ => .error .abort

/-- The first byte of a tile in each page that it touches. -/
def tileVas (va : W64) (n : Nat) : List W64 :=
  va :: ((List.range ((va.toNat % 262144 + n - 1) / 262144)).map fun i =>
    BitVec.ofNat 64 (va.toNat / 262144 * 262144 + 262144 * (i + 1)))

/-- MLOAD and MSTORE (07 R206, R207): the checks, then the operation; an MSTORE to global memory waits for the stores of
its core that meet it, and takes ownership of its sectors. -/
def tileWord (s : State) (c : Ctl) (o : XTile) (write : Bool) : Out :=
  groupChecked s c fun q k => do
    let row ← tileRow q.grp k o.tile
    let va := q.grp.opnd Rd.raw o.a k
    let n := 6144 * ((tileFmt o.fmt).width / 8)
    need (decide (va.toNat % 64 = 0)) .misaligned k va
    let mk := fun (pages : KMap W64) => if write then MOp.mstore o.fmt row va pages else MOp.mload o.fmt row va pages
    if inWindow va then do
      let off ← scratchRange q.blk k va n
      if s.operandHeld q off n write then .error .held
      else .ok (s.joined q k false (mk []) [(off, n, write)])
    else do
      let pages ← s.tilePages q k write (tileVas va n) []
      let sectors := tileSectors va pages n
      if write then
        if (s.core q.blk.cl q.co).held.any fun h => match h.act.range with
            | some r => r.1.isNone && sectors.contains (r.2.1 / 64)
            | none => false then .error .drain
        else
          let ms := s.ms.own q.blk.cl q.blk.spec sectors
          .ok (({ s with ms := ms } : State).joined q k false (mk pages) [])
      else if sectors.any fun x => s.ms.owned.contains x || (s.ms.ownedBy q.blk.spec).contains x then .error .held
      else .ok (s.joined q k false (mk pages) [])

/-- Loads a tile from scratch or global memory, widening to FP32 (R206). -/
def execMload (c : Ctl) (o : XTile) (s : State) : Out := tileWord s c o false

/-- Stores a tile to scratch or global memory when its batch retires (R207). -/
def execMstore (c : Ctl) (o : XTile) (s : State) : Out := tileWord s c o true

/-! ### Batches as programs see them -/

/-- MFENCE closes the open batch: its number is then issued (07 R204, R205). -/
def Group.mfence (g : Group) (clk : Nat) : Group :=
  let g1 := if g.batches.any fun t => !t.closed then g.closeOpen clk
    else { g with batches := g.batches ++ [⟨g.bcnt, true, clk, 0, [], [], []⟩] }
  { g1 with bcnt := g.bcnt + 1 }

/-- Returns BCNT and closes the open batch (R205). -/
def execMfence (c : Ctl) (d : Reg) (s : State) : Out :=
  withCur s fun q =>
    if (q.active c).isEmpty then .next (s.finish q q.blk.st (q.grp.shiftLatch d))
    else
      let g := (q.grp.writeLanes q.slot c d fun _ => (q.grp.bcnt.setWidth 64, false)).mfence (s.clk q.blk.cl)
      .next (s.finish q q.blk.st { g with sb := g.sb ||| ((1 : W64) <<< d.toNat) })

/-- A number that has been issued: one of the 2^31 values below BCNT (01 R22). -/
def batchIssued (bcnt n : BitVec 32) : Bool := bcnt != n && decide ((bcnt - n).toNat ≤ 2 ^ 31)

/-- Waits until a named issued batch has retired (R208). -/
def execMwait (c : Ctl) (a : Opnd) (s : State) : Out :=
  groupChecked s c fun q k => do
    let n := (q.grp.opnd Rd.raw a k).setWidth 32
    need (batchIssued q.grp.bcnt n) .batchFuture k 0
    .ok (if q.grp.batches.any fun t => t.closed && t.num == n then s.waitSlot q .batch else s.finish q q.blk.st q.grp)

/-- Two windows of rows meet. -/
def windowsMeet (a b c d : Nat) : Bool := decide (a < b ∧ c < d ∧ a < d ∧ c < b)

/-- Whether ACWIN may set a window (07 R209). -/
def windowOk (b : Block) (vb vl vg : W64) : Bool :=
  let lo := vb.toNat
  let hi := vl.toNat
  let gi := vg.toNat
  decide (lo < 2048) && decide (hi < 2048) && decide (gi < 32) && decide (lo % 64 = 0) && decide (hi % 64 = 0) &&
  decide (lo ≤ hi) && decide (hi ≤ 64 * b.tiles) &&
  (match b.st.groups[gi]? with
    | some g => !g.retired
    | none => false) &&
  (List.range b.st.groups.length).all fun i =>
    match b.st.groups[i]? with
    | some g => i == gi || g.retired || b.coreOf i != b.coreOf gi || !windowsMeet lo hi g.acb.toNat g.acl.toNat
    | none => true

/-- Waits for the target group's batches, then sets its accumulator window (R209). -/
def execAcwin (c : Ctl) (o : XAcwin) (s : State) : Out :=
  groupChecked s c fun q k => do
    let vb := q.grp.opnd Rd.raw o.a k
    let vl := q.grp.opnd Rd.raw o.b k
    let vg := q.grp.opnd Rd.raw o.c k
    let gi := vg.toNat % 32
    let waits := match q.blk.st.groups[gi]? with
      | some g => !g.retired && g.batches.any fun t => t.closed
      | none => false
    if waits then .ok (s.waitSlot q .batch)
    else do
      need (windowOk q.blk vb vl vg) .accWindow k 0
      let set := fun (g : Group) => { g with acb := vb.setWidth 11, acl := vl.setWidth 11 }
      if gi = q.gi then .ok (s.finish q q.blk.st (set q.grp))
      else
        let st := match q.blk.st.groups[gi]? with
          | some g => q.blk.st.setGroup gi (set g)
          | none => q.blk.st
        .ok (s.finish q st q.grp)

/-! ### The matrix array (07 R201, R204, R207) -/

/-- The local cycles of an operation (07 R201, R205). -/
def mopCycles : MOp → Nat
  | .mmaF bf _ _ _ _ _ => 2 * (aFmt bf).width
  | .mmaI bits _ _ _ _ => 2 * bits
  | .mmaQ _ _ _ _ _ _ => 8
  | .mzero _ => 4
  | .mload f _ _ _ => 12 * ((tileFmt f).width / 8)
  | .mstore f _ _ _ => 12 * ((tileFmt f).width / 8)

/-- The local cycles that it takes on a core: 13/11 of them in bin 2 (21 R421). -/
def State.arrayCycles (s : State) (cl co : Nat) (op : MOp) : Nat :=
  if (s.core cl co).bin = 2 then (13 * mopCycles op + 10) / 11 else mopCycles op

/-- The sectors of global memory that an MLOAD reads: address and physical address. -/
def mloadSectors : MOp → List (W64 × Nat)
  | .mload f _ va pages =>
    if inWindow va then []
    else (List.range (96 * ((tileFmt f).width / 8))).map fun i =>
      let a : W64 := va + BitVec.ofNat 64 (64 * i)
      (a, leafPa (pages.getD (a.toNat / 262144) 0) a)
  | _ => []

/-- Whether an operation waits for its core's queue, as an LDB would: for an act whose result is not known, or for a read of its
group that comes first (06 R146). -/
def State.mopWaits (s : State) (b : Block) (id gi : Nat) (op : MOp) : Bool :=
  let l := s.visible b.cl (b.coreOf gi) b.spec
  (mloadSectors op).any fun x => l.any fun h =>
    h.act.unknownIn none x.2 64 || (h.act.reads && h.blk == id && h.grp == gi && h.act.meets none x.2 64)

/-- Replace the first batch of a group. -/
def BlkState.setFirst (st : BlkState) (gi : Nat) (t : Batch) : BlkState :=
  match st.groups[gi]? with
  | some g => st.setGroup gi { g with batches := t :: g.batches.tail }
  | none => st

/-- A paired MMA (07 R202). -/
def MOp.paired : MOp → Bool
  | .mmaF _ _ _ _ _ pair => pair
  | .mmaI _ _ _ _ pair => pair
  | .mmaQ _ _ _ _ pair _ => pair
  | _ => false

/-- Whether the array of a core is taken: it is the follower of a paired MMA that the leader's array runs, the first of those that a group
of the leader has joined and that have not completed (07 R202; log 115). -/
def State.arrayTaken (s : State) (cl co : Nat) : Bool :=
  s.blocks.any fun p => p.2.pair && p.2.cl == cl && p.2.co + 1 == co &&
    p.2.st.groups.any fun g => (g.batches.head?.bind fun t => t.ops.head?).any fun o => o.2.2.paired

/-- The matrix array finishes an MMA after 2·P local cycles and updates the tile (R201). The assist routine counts once for each operation with
a tiny result, and once for a paired one, on the core of the group that issued it (03 R75; DESIGN CHOICE, log 126). -/
def execMmaComplete (blk grp : Nat) (s : State) : Out :=
  match s.curOf ⟨blk, grp, false⟩ with
  | none => .next s
  | some q =>
    match q.grp.batches with
    | [] => .next s
    | t :: _ =>
      match t.ops with
      | [] => .next s
      | (pc, at_, op) :: ops =>
        if s.clk q.blk.cl < at_ + s.arrayCycles q.blk.cl q.co op || s.arrayTaken q.blk.cl q.co then .next s
        else if s.mopWaits q.blk blk grp op then .next s
        else if (mloadSectors op).any (fun x => s.predicted q.blk x.1 64 == some none) ||
            mopPoison q.blk.st s.ms q.blk.cl q.blk.spec op then
          match q.blk.spec with
          | some n => .next (s.discardSpec n .abort)
          | none => .next (s.consumePoison q pc.1 pc.2 0)
        else
          let r := runMOp q.blk.st s.ms q.blk.cl q.blk.spec (s.sees q.blk grp) q.blk.ftz (q.blk.follows grp) op
          let st := r.1.setFirst grp { t with ops := ops, outs := t.outs ++ r.2.2.1 }
          let s1 := ({ s with ms := r.2.1 } : State).setBlock blk { q.blk with st := st }
          .next ((if r.2.2.2 then s1.tallied blk grp ⟨0, 1, 0⟩ else s1).checkShare blk)

/-- Retire the first batch of a group in one state of its block: what is left of it runs, and its scratch MSTOREs are
written. Applied to a state of the journal, it makes a batch that has retired stay retired. -/
def retireFirst (b : Block) (gi : Nat) (see : W64 → Nat → List Byte → List Byte) (ms : MemSys) (st : BlkState) : BlkState :=
  match st.groups[gi]? with
  | none => st
  | some g =>
    match g.batches with
    | [] => st
    | t :: rest =>
      let y := t.ops.foldl (fun (a : BlkState × List (W64 × KMap W64 × List Byte) × BitVec 64) o =>
        let r := runMOp a.1 ms b.cl b.spec see b.ftz (b.follows gi) o.2.2
        (r.1, a.2.1 ++ r.2.2.1, if r.2.2.2 then a.2.2 + 1 else a.2.2)) (st, t.outs, 0)
      let x := (y.2.1.filter fun o => inWindow o.1).foldl (fun a o => (writeOut a ms b.spec o).1) y.1
      match x.groups[gi]? with
      | some g1 => x.setGroup gi { g1 with batches := rest, tally := g1.tally.add ⟨0, y.2.2, BitVec.ofNat 64 t.mmas⟩ }
      | none => x

/-- Whether the first batch of a group may retire: closed, all its operations complete, and, where it writes global
memory or the scratchpad of a pair, closed 160 local cycles ago (07 R204, R207, 21 R410). -/
def batchDone (pair : Bool) (g : Group) (clk : Nat) : Bool :=
  match g.batches with
  | [] => false
  | t :: _ => t.closed && t.ops.isEmpty && (t.outs.all (fun o => !pair && inWindow o.1) || decide (t.closedAt + 160 ≤ clk))

/-- A closed batch retires in order once every operation has completed, writing its MSTOREs (R204). -/
def execBatchRetire (blk grp : Nat) (s : State) : Out :=
  match s.curOf ⟨blk, grp, false⟩ with
  | none => .next s
  | some q =>
    if !batchDone q.blk.pair q.grp (s.clk q.blk.cl) || s.arrayTaken q.blk.cl q.co then .next s
    else
      match q.grp.batches with
      | [] => .next s
      | t :: _ =>
        let far := t.outs.filter fun o => !inWindow o.1
        let near := t.outs.filter fun o => inWindow o.1
        let s1 := if far.isEmpty then s.setBlock blk { q.blk with st := retireFirst q.blk grp (s.sees q.blk grp) s.ms q.blk.st }
          else s.updBlk blk (retireFirst q.blk grp (s.sees q.blk grp) s.ms)
        let ms := far.foldl (fun m o => (writeOut q.blk.st m q.blk.spec o).2) s1.ms
        let ms1 := ms.fire fun m => m.scratch && m.blk == blk && near.any fun o =>
          (sectorsOf (o.1.toNat - windowBase) o.2.2.length).contains m.sector
        let s2 := (({ s1 with ms := ms1 } : State).launchActive q.blk.launch).countCore q.blk.cl q.co q.blk.perfKey fun p =>
          { p with mmas := p.mmas + BitVec.ofNat 64 t.mmas }
        .next (((s2.checkShare blk).rewait (fun _ _ _ => true) fun w => (w.over SWait.isBatch).over SWait.isHeld).dropFull q.blk.spec)

end Sys2Proof.Machine
end

