-- ==== Sys2Proof/Machine/Pred.lean ====
section
/-! DEFINITION. The meanings of PRED (05 R114 to R117). -/

namespace Sys2Proof.Machine

/-- A comparison of integers, true in every sub-element (05 R114). -/
def intCmp (s : State) (c : Ctl) (o : PCmp IType Cond) (signed : Bool) : Out :=
  predWord s c o.p fun g k =>
    allSub o.t.width (fun a b => condHolds o.cc signed a b) (g.opnd (.int o.t signed) o.a k) (g.opnd (.int o.t signed) o.b k)

/-- Writes a predicate from a signed comparison over all sub-elements (R114). -/
def execCmp (c : Ctl) (o : PCmp IType Cond) (s : State) : Out := intCmp s c o true

/-- Writes a predicate from an unsigned comparison over all sub-elements (R114). -/
def execUcmp (c : Ctl) (o : PCmp IType Cond) (s : State) : Out := intCmp s c o false

/-- The flags of FCMP in one lane: NV for a signalling NaN (05 R115). -/
def fcmpFlags (f : FFmt) (ftz : Bool) (a b : W64) : Flags :=
  (List.range (64 / f.width)).foldl (fun x i => x ||| (fsub f ftz i a).nv ||| (fsub f ftz i b).nv) 0

/-- Writes a predicate from an IEEE comparison over all sub-elements (R115). -/
def execFcmp (c : Ctl) (o : PCmp FType FCond) (s : State) : Out :=
  withCur s fun q =>
    let f := fmtOf o.t
    let a := q.grp.opnd (.flt o.t) o.a
    let b := q.grp.opnd (.flt o.t) o.b
    let holds := fun k => (List.range (64 / f.width)).all fun i =>
      fcondHolds o.cc ((fsub f q.blk.ftz i (a k)).cmp (fsub f q.blk.ftz i (b k)))
    let fl := (q.active c).foldl (fun x k => x ||| fcmpFlags f q.blk.ftz (a k) (b k)) 0
    let g := q.grp.mapLanes fun k l => if q.grp.runs q.slot c k then l.setPred o.p (holds k) else l
    .next (s.finish q q.blk.st (g.addFlags fl))

/-- Writes the AND of two predicate operands (R116). -/
def execPand (c : Ctl) (o : PLog2) (s : State) : Out :=
  predWord s c o.p fun g k => (g.lane k).predOp o.q && (g.lane k).predOp o.s

/-- Writes the OR of two predicate operands (R116). -/
def execPor (c : Ctl) (o : PLog2) (s : State) : Out :=
  predWord s c o.p fun g k => (g.lane k).predOp o.q || (g.lane k).predOp o.s

/-- Writes the XOR of two predicate operands (R116). -/
def execPxor (c : Ctl) (o : PLog2) (s : State) : Out :=
  predWord s c o.p fun g k => (g.lane k).predOp o.q != (g.lane k).predOp o.s

/-- Writes the negation of a predicate operand (R116). -/
def execPnot (c : Ctl) (o : PLog1) (s : State) : Out := predWord s c o.p fun g k => !(g.lane k).predOp o.q

/-- Copies a predicate operand (R116). -/
def execPmov (c : Ctl) (o : PLog1) (s : State) : Out := predWord s c o.p fun g k => (g.lane k).predOp o.q

/-- Sets a predicate true when the 64-bit operand is nonzero (R117). -/
def execPset (c : Ctl) (o : P1) (s : State) : Out := predWord s c o.p fun g k => g.opnd Rd.raw o.a k != 0

/-- Writes p0 to p7 into the low byte of a register (R117). -/
def execPget (c : Ctl) (d : Dst) (s : State) : Out :=
  laneWord s c d fun g k => (((1 : BitVec 1) ++ (g.lane k).pred).setWidth 64, false)

end Sys2Proof.Machine
end

