-- ==== Sys2Proof/Machine/Sweep.lean ====
section
/-! DEFINITION. The meanings of TSWEEP and TSRED (07 R213 to R216): one destination element at each execution, so that
other groups, a fault or a pre-emption come between elements. -/

namespace Sys2Proof.Machine

/-- The float format of a tensor format that sweeps take (07 R214). -/
def sweepFmt (f : Nat) : Option FFmt :=
  if f = 7 then some .f32
  else if f = 8 then some .bf16
  else if f = 9 then some .f16
  else if f = 10 then some .e4m3
  else if f = 11 then some .e5m2
  else none

/-- Whether a record suits a sweep (07 R214). -/
def sweepRecord (r : List W64) : Bool :=
  let b := Box.ofWords r
  recordShape r && (sweepFmt b.fmt).isSome && !b.planar && !b.zfill

/-- Whether a source record of a TSWEEP matches its destination (07 R214). -/
def sweepMatches (d x : Box) : Bool :=
  x.rank == d.rank && (List.range d.rank).all fun i => x.ext i == d.ext i || (x.ext i == 1 && x.bcast.getLsbD i)

/-- Whether the records of a TSRED match, under a mask (07 R213, R214). -/
def redMatches (d x : Box) (m : BitVec 5) : Bool :=
  d.rank == x.rank && (List.range 5).all (fun i => !m.getLsbD i || decide (i < x.rank)) &&
    (List.range d.rank).all fun i => d.ext i == (if m.getLsbD i then 1 else x.ext i)

/-- The index that TIX0 to TIX4 hold. -/
def Group.tix (g : Group) : List Nat := [g.tix0.toNat, g.tix1.toNat, g.tix2.toNat, g.tix3.toNat, g.tix4.toNat]

/-- Set TIX0 to TIX4. -/
def Group.setTix (g : Group) (i : List Nat) : Group :=
  let f := fun (n : Nat) => (BitVec.ofNat 32 (i.getD n 0) : BitVec 32)
  { g with tix0 := f 0, tix1 := f 1, tix2 := f 2, tix3 := f 3, tix4 := f 4 }

/-- The number of the element at an index, dim 0 fastest; none outside the box. -/
def Box.number (b : Box) (i : List Nat) : Option Nat :=
  if (List.range 5).all fun d => decide (i.getD d 0 < b.ext d) then
    some (i.getD 0 0 + b.ext 0 * (i.getD 1 0 + b.ext 1 * (i.getD 2 0 + b.ext 2 * (i.getD 3 0 + b.ext 3 * i.getD 4 0))))
  else none

/-- Coordinates of a sweep (07 R214). -/
def noCoord : List Int := [0, 0, 0, 0, 0]

/-- Load an element of a source as the lowest executing lane's LD would (07 R215). -/
def State.sweepLoad (s : State) (q : Cur) (ms : MemSys) (k : Nat) (b : Box) (i : List Nat) : Chkd (FVal × MemSys) := do
  let va := (b.elemVa noCoord i).1
  let r ← s.readVa q [] ms k ⟨va, b.elemBytes, false, true, false, .any, false, false⟩ false
  .ok (((sweepFmt b.fmt).getD .f32).read q.blk.ftz (leNat r.1), r.2)

/-- The element result of a TSWEEP in FP32 (07 R213). -/
def sweepFn (o : SweepOp) (ftz : Bool) (a b : FVal) : FRes :=
  let f := FFmt.f32
  match o with
  | .mov => { f.ofVal .rne ftz a with fl := 0 }
  | .add => f.add .rne ftz a b
  | .sub => f.add .rne ftz a b.neg
  | .mul => f.mul ftz a b
  | .min => f.minmax false ftz a b
  | .max => f.minmax true ftz a b
  | .relu => f.minmax true ftz a (.fin false 0 0)
  | .exp2 => f.exp2 ftz a
  | .tanh => f.tanh ftz a
  | .rcp => f.rcp ftz a
  | .rsq => f.rsq ftz a

/-- Whether an operation takes a second source (07 R213). -/
def sweepTwo : SweepOp → Bool
  | .mov => false
  | .add => true
  | .sub => true
  | .mul => true
  | .min => true
  | .max => true
  | .relu => false
  | .exp2 => false
  | .tanh => false
  | .rcp => false
  | .rsq => false

/-- The first x of a reduction as FP32 holds it: it is kept, no operation, so a signalling NaN stays one and nothing is tiny (03 R73 to R75,
07 R213). -/
def firstAcc (x : FVal) : FRes :=
  match x with
  | .nan true => .plain 0x7FA00000
  | v => .plain (FFmt.f32.ofVal .rne false v).bits

/-- One step of a reduction: the accumulator, none before the first element (07 R213). -/
def redStep (o : RedOp) (ftz : Bool) (acc : Option FRes) (x : FVal) : FRes :=
  let f := FFmt.f32
  let zero : FRes := f.zero false
  let val := fun (r : FRes) => f.read ftz r.bits
  let join := fun (r old : FRes) => ({ r with fl := r.fl ||| old.fl, assist := r.assist || old.assist } : FRes)
  match o with
  | .add => let a := acc.getD zero; join (f.add .rne ftz (val a) x) a
  | .addsq => let a := acc.getD zero; join (f.fma ftz x x (val a)) a
  | .max =>
    match acc with
    | none => firstAcc x
    | some a => join (f.minmax true ftz (val a) x) a
  | .min =>
    match acc with
    | none => firstAcc x
    | some a => join (f.minmax false ftz (val a) x) a

/-- Reduce the source elements of one destination element, the masked dims in ascending order (07 R215). -/
def State.reduceLoop (s : State) (q : Cur) (k : Nat) (o : RedOp) (b : Box) : List (List Nat) → Option FRes → MemSys →
    Chkd (FRes × MemSys)
  | [], acc, ms => .ok (acc.getD (FFmt.f32.zero false), ms)
  | i :: l, acc, ms => do
    let x ← s.sweepLoad q ms k b i
    s.reduceLoop q k o b l (some (redStep o q.blk.ftz acc x.1)) x.2

/-- The source indices of a destination index under a mask, in order. -/
def maskedIndices (b : Box) (m : BitVec 5) (i : List Nat) : List (List Nat) :=
  let e := fun d => if m.getLsbD d then b.ext d else 1
  (List.range (e 0 * e 1 * e 2 * e 3 * e 4)).map fun n =>
    let j := [n % e 0, n / e 0 % e 1, n / (e 0 * e 1) % e 2, n / (e 0 * e 1 * e 2) % e 3, n / (e 0 * e 1 * e 2 * e 3)]
    (List.range 5).map fun d => if m.getLsbD d then j.getD d 0 else i.getD d 0

/-- Store the element of the destination as the lowest executing lane's ST would (07 R215): the state after it, with the
act that a global store holds back. A store to another chip seals (06 R179). -/
def State.sweepStore (s : State) (q : Cur) (k : Nat) (b : Box) (i : List Nat) (y : FRes) : Chkd (State × List Held) := do
  let va := (b.elemVa noCoord i).1
  let f := (sweepFmt b.fmt).getD .f32
  let v := f.ofVal .rne q.blk.ftz (FFmt.f32.read q.blk.ftz y.bits)
  let bytes := leBytes v.bits b.elemBytes
  match ← s.checked q k ⟨va, b.elemBytes, true, false, true, .any, false, false⟩ with
  | .scratch off => if s.rangeHeld q off b.elemBytes true then .error .held else .ok (s.scratchPut q off bytes, [])
  | .global leaf pa =>
    let p := placeOf s.fab.chip leaf pa
    if s.ms.recalled q.blk.cl q.blk.spec pa p false then .error .held
    else .ok (if p.chip?.isSome then s.sealBlk q.id else s, [Cur.hold s q k va none none (.store p .back pa bytes)])
  | _ => .error .abort

/-- Whether rounding an FP32 value to the destination's format calls the assist routine. -/
def storeAssist (b : Box) (ftz : Bool) (y : FRes) : Bool :=
  (((sweepFmt b.fmt).getD .f32).ofVal .rne ftz (FFmt.f32.read ftz y.bits)).assist

/-- The step of a sweep at the element that TIX names (07 R215). The assist routine counts once for each element whose value, or its rounding
to the destination, is tiny (03 R75; DESIGN CHOICE, log 126). -/
def sweepStep (s : State) (q : Cur) (k : Nat) (recs : List (List W64)) (d : Box)
    (value : List Nat → MemSys → Chkd (FRes × MemSys)) : State :=
  let g0 := { q.grp with sweep := some (q.slot, recs) }
  let q0 := { q with grp := g0 }
  match d.number q.grp.tix with
  | none => s.finish q q.blk.st { (q.grp.setTix []) with sweep := none }
  | some e =>
    let i := q.grp.tix
    let r : Chkd (FRes × State × List Held) := do
      let v ← value i s.ms
      let w ← ({ s with ms := v.2 } : State).sweepStore q k d i v.1
      .ok (v.1, w)
    match r with
    | .error x => stopWord s q0 x
    | .ok (y, s1, acts) =>
      let tiny := y.assist || storeAssist d q.blk.ftz y
      match s1.cur? with
      | none => s1
      | some q1 =>
        let g := q1.grp.addFlags y.fl
        let s2 :=
          if e + 1 = d.count then s1.finish q1 q1.blk.st { (g.setTix []) with sweep := none }
          else
            let g1 := ({ (g.setTix (d.index (e + 1))) with sweep := some (q.slot, recs) } : Group)
            s1.putGrp q1 (g1.setSlot q.slot { q1.grp.pcSlot q.slot with wait := .between })
        (s2.pushHeld q acts).assistIf q tiny

/-- The records of a sweep: those of its issue, or read now (07 R182, R214). -/
def State.sweepRecords (s : State) (q : Cur) (k : Nat) (eas : List W64) : Chkd (List (List W64) × MemSys) :=
  match q.grp.sweep with
  | some (_, x :: l) => .ok (x :: l, s.ms)
  | _ => eas.foldlM (fun (x : List (List W64) × MemSys) ea => do
      let r ← s.readRecord q x.2 k ea
      need (sweepRecord r.1) .reservedField k ea
      .ok (x.1 ++ [r.1], r.2)) ([], s.ms)

/-- Applies an element-wise operation over whole tensor records, resumable by TIX (R215). -/
def execTsweep (c : Ctl) (o : XSweep) (s : State) : Out :=
  groupWord s c fun q k =>
    let e := fun (x : Opnd) => q.grp.opnd Rd.raw x k
    let eas := if sweepTwo o.op then [e o.a, e o.b, e o.c] else [e o.a, e o.b]
    let r : Chkd (List (List W64) × MemSys) := do
      let x ← s.sweepRecords q k eas
      let d := Box.ofWords (x.1.getD 0 [])
      need ((x.1.drop 1).all fun y => sweepMatches d (Box.ofWords y)) .reservedField k (e o.a)
      .ok x
    match r with
    | .error x => .next (stopWord s q x)
    | .ok (recs, ms) =>
      let s0 := { s with ms := ms }
      let d := Box.ofWords (recs.getD 0 [])
      .next (sweepStep s0 q k recs d fun i m => do
        let a ← s0.sweepLoad q m k (Box.ofWords (recs.getD 1 [])) i
        if sweepTwo o.op then
          let b ← s0.sweepLoad q a.2 k (Box.ofWords (recs.getD 2 [])) i
          .ok (sweepFn o.op q.blk.ftz a.1 b.1, b.2)
        else .ok (sweepFn o.op q.blk.ftz a.1 (.fin false 0 0), a.2))

/-- Reduces a tensor over the masked dimensions into a destination record (R215). A mask bit at or above the source's rank faults
RESERVED_FIELD, for which the spec gives no code (07 R213; log 89). -/
def execTsred (c : Ctl) (o : XRed) (s : State) : Out :=
  groupWord s c fun q k =>
    let e := fun (x : Opnd) => q.grp.opnd Rd.raw x k
    let m : BitVec 5 := (e o.m).setWidth 5
    let r : Chkd (List (List W64) × MemSys) := do
      let x ← s.sweepRecords q k [e o.a, e o.b]
      need (redMatches (Box.ofWords (x.1.getD 0 [])) (Box.ofWords (x.1.getD 1 [])) m) .reservedField k (e o.a)
      .ok x
    match r with
    | .error x => .next (stopWord s q x)
    | .ok (recs, ms) =>
      let s0 := { s with ms := ms }
      let b := Box.ofWords (recs.getD 1 [])
      .next (sweepStep s0 q k recs (Box.ofWords (recs.getD 0 [])) fun i m1 =>
        s0.reduceLoop q k o.op b (maskedIndices b m i) none m1)

end Sys2Proof.Machine
end

