-- ==== Sys2Proof/Machine/Xlane.lean ====
section
/-! DEFINITION. The meanings of XLANE (05 R133 to R137). -/

namespace Sys2Proof.Machine

/-- An operand read from a lane position: a position that holds no lane reads 0 (05 R133). -/
def Group.xread (g : Group) (rd : Rd) (o : Opnd) (k : Nat) : W64 := if (g.lane k).present then g.opnd rd o k else 0

/-- The taint of an XLANE result: every register the word reads, over every position that holds a lane (05 R137). -/
def Group.xtaint (g : Group) (os : List Opnd) : Bool :=
  (List.range 32).any fun k => (g.lane k).present && os.any fun o => g.opndTaint o k

/-- A lane number taken from a register (05 R134). -/
def laneNo (x : W64) : Nat := x.toNat % 32

/-- Reads a from the lane named by b (R134). An inline constant b fills by TYPE (DESIGN CHOICE, log 125). -/
def execShfl (c : Ctl) (o : R2 IType) (s : State) : Out :=
  laneWord s c o.d fun g k =>
    (g.xread (.int o.t false) o.a (laneNo (g.opnd (.int o.t false) o.b k)), g.xtaint [o.a, o.b])

/-- Reads a from the lane L XOR b (R134). An inline constant b fills by TYPE (DESIGN CHOICE, log 125). -/
def execShflx (c : Ctl) (o : R2 IType) (s : State) : Out :=
  laneWord s c o.d fun g k =>
    (g.xread (.int o.t false) o.a (k ^^^ laneNo (g.opnd (.int o.t false) o.b k)), g.xtaint [o.a, o.b])

/-- Broadcasts a from the lane chosen by the lowest executing lane (R134). An inline constant b fills by TYPE (DESIGN CHOICE, log 125). -/
def execBcast (c : Ctl) (o : R2 IType) (s : State) : Out :=
  withCur s fun q =>
    let low := (q.active c).headD 0
    laneWord s c o.d fun g _ =>
      (g.xread (.int o.t false) o.a (laneNo (g.opnd (.int o.t false) o.b low)), g.xtaint [o.a, o.b])

/-- Writes the mask of executing lanes whose source is nonzero (R134). -/
def execVote (c : Ctl) (o : RD1) (s : State) : Out :=
  withCur s fun q =>
    let m := maskOf fun k => q.grp.runs q.slot c k && q.grp.opnd Rd.raw o.a k != 0
    laneWord s c o.d fun g _ => (m.setWidth 64, g.xtaint [o.a])

/-- Writes the mask of executing lanes whose 64-bit value equals this lane's (R134). -/
def execMatchL (c : Ctl) (o : RD1) (s : State) : Out :=
  withCur s fun q =>
    laneWord s c o.d fun g k =>
      ((maskOf fun j => g.runs q.slot c j && g.opnd Rd.raw o.a j == g.opnd Rd.raw o.a k).setWidth 64, g.xtaint [o.a])

/-- How REDL and SCANL read their operand (02 R39, 05 R102). -/
def laneOpRd : LaneOp → Rd
  | .int .add t => .int t true
  | .int .min t => .int t true
  | .int .max t => .int t true
  | .int _ t => .int t false
  | .flt _ t => .flt t

/-- The function of an integer operation of REDL and SCANL (05 R135). -/
def ropFn (o : ROp) (w : Nat) (a b : BitVec w) : BitVec w :=
  match o with
  | .add => a + b
  | .min => eMin a b
  | .max => eMax a b
  | .umin => eUmin a b
  | .umax => eUmax a b
  | .and => a &&& b
  | .or => a ||| b
  | .xor => a ^^^ b

/-- The function of a float operation of REDL and SCANL (05 R135). -/
def rfopFn (o : RFOp) (f : FFmt) (ftz : Bool) (x y : FVal) : FRes :=
  match o with
  | .fadd => f.add .rne ftz x y
  | .fmin => f.minmax false ftz x y
  | .fmax => f.minmax true ftz x y

/-- Combine two registers, with the flags raised (05 R135). A tiny sum inside the tree or the scan counts as a result of
the word, also where no lane receives it: it calls the assist routine (03 R75; log 87). -/
def laneOpCombine (p : LaneOp) (ftz : Bool) (a b : LaneRes) : LaneRes :=
  match p with
  | .int o t => LaneRes.int (map2 t.width (ropFn o t.width) a.v b.v) false
  | .flt o t =>
    let f := fmtOf t
    let r := packF f.width false fun i => rfopFn o f ftz (fsub f ftz i a.v) (fsub f ftz i b.v)
    { r with fl := r.fl ||| a.fl ||| b.fl, assist := r.assist || a.assist || b.assist }

/-- Combine values that may be absent: op(x, absent) = x (05 R135). -/
def laneOpOpt (p : LaneOp) (ftz : Bool) (a b : Option LaneRes) : Option LaneRes :=
  match a, b with
  | some x, some y => some (laneOpCombine p ftz x y)
  | some x, none => some x
  | none, y => y

/-- One level of the tree of REDL: neighbours combine. -/
def treeLevel (p : LaneOp) (ftz : Bool) : List (Option LaneRes) → List (Option LaneRes)
  | a :: b :: l => laneOpOpt p ftz a b :: treeLevel p ftz l
  | l => l

/-- The tree of REDL over 32 positions (05 R135). -/
def treeReduce (p : LaneOp) (ftz : Bool) (l : List (Option LaneRes)) : Option LaneRes :=
  ((treeLevel p ftz (treeLevel p ftz (treeLevel p ftz (treeLevel p ftz (treeLevel p ftz l))))).headD none)

/-- A value as the word delivers it. A float value that met no other lane's goes through the float unit all the same: a
NaN leaves canonical and a signalling one sets NV, FTZ flushes a subnormal, and a subnormal calls the assist routine (03
R73 to R77, 05 R105). On a result of the unit this changes nothing. -/
def laneOpDeliver (p : LaneOp) (ftz : Bool) (a : LaneRes) : LaneRes :=
  match p with
  | .int _ _ => a
  | .flt _ t =>
    let f := fmtOf t
    let r := packF f.width false fun i => f.minmax false ftz (fsub f ftz i a.v) (fsub f ftz i a.v)
    { r with fl := r.fl ||| a.fl, assist := r.assist || a.assist }

/-- The prefixes of SCANL: what each position receives, then the running value (05 R135). -/
def scanFrom (p : LaneOp) (ftz excl : Bool) : List (Option LaneRes) → Option LaneRes → List LaneRes
  | [], _ => []
  | x :: l, run =>
    let next := laneOpOpt p ftz run x
    let out := ((if excl then run else next).map (laneOpDeliver p ftz)).getD (LaneRes.int 0 false)
    out :: scanFrom p ftz excl l next

/-- The operand of each lane of E, absent outside it. -/
def laneInputs (q : Cur) (c : Ctl) (o : RLane) : List (Option LaneRes) :=
  (List.range 32).map fun k =>
    if q.grp.runs q.slot c k then some (LaneRes.int (q.grp.opnd (laneOpRd o.op) o.a k) false) else none

/-- Reduces sub-elements over the executing lanes in a fixed tree order (R135). -/
def execRedl (c : Ctl) (o : RLane) (s : State) : Out :=
  withCur s fun q =>
    let r := ((treeReduce o.op q.blk.ftz (laneInputs q c o)).map (laneOpDeliver o.op q.blk.ftz)).getD (LaneRes.int 0 false)
    floatWord s c o.d false fun _ g _ => { r with t := g.xtaint [o.a] }

/-- Writes the inclusive or exclusive prefix over executing lanes (R135). The flags and the assist of the whole scan are
those of its word, the sums that no lane receives among them (log 87). -/
def execScanl (c : Ctl) (o : RLane) (s : State) : Out :=
  withCur s fun q =>
    let x := laneInputs q c o
    let r := scanFrom o.op q.blk.ftz o.excl x none
    let all := (scanFrom o.op q.blk.ftz false x none).getD 31 (LaneRes.int 0 false)
    floatWord s c o.d false fun _ g k =>
      let d := r.getD k (LaneRes.int 0 false)
      ⟨d.v, g.xtaint [o.a], all.fl ||| d.fl, all.assist || d.assist⟩

/-- Compare-and-exchange with a partner lane for a bitonic sort stage (R136). An inline constant b fills by TYPE (DESIGN CHOICE, log 125). -/
def execCxch (c : Ctl) (o : R2 IType) (s : State) : Out :=
  withCur s fun q =>
    laneWord s c o.d fun g k =>
      let rd := Rd.int o.t true
      let a := g.opnd rd o.a k
      let b := g.opnd rd o.b k
      let p := k ^^^ laneNo b
      let v :=
        if p = k ∨ !g.runs q.slot c p ∨ (g.opnd rd o.b p).toNat % 64 ≠ b.toNat % 64 then a
        else if decide (k < p) != b.getLsbD 5 then map2 o.t.width eMin a (g.opnd rd o.a p)
        else map2 o.t.width eMax a (g.opnd rd o.a p)
      (v, g.xtaint [o.a, o.b])

end Sys2Proof.Machine
end

