-- ==== Sys2Proof/Machine/Dispatch.lean ====
section
/-! DEFINITION. The dispatch of instructions to their meanings: one arm for each row of the operation table. -/

namespace Sys2Proof.Machine

/-- What the machine does with one instruction: a word of the issuing group, or an event of the part. -/
def exec (i : Instr) (s : State) : Host.Outcome State Fault Refusal :=
  match i with
  | .nop c => Sys2Proof.Machine.execNop c s
  | .trap c code => Sys2Proof.Machine.execTrap c code s
  | .bkpt c code => Sys2Proof.Machine.execBkpt c code s
  | .halt c => Sys2Proof.Machine.execHalt c s
  | .eret c => Sys2Proof.Machine.execEret c s
  | .rdsr c d n => Sys2Proof.Machine.execRdsr c d n s
  | .wrsrDsp c a => Sys2Proof.Machine.execWrsrDsp c a s
  | .wrsrFlg c a => Sys2Proof.Machine.execWrsrFlg c a s
  | .wrsrFex c a => Sys2Proof.Machine.execWrsrFex c a s
  | .lcyc c d => Sys2Proof.Machine.execLcyc c d s
  | .perf c d n => Sys2Proof.Machine.execPerf c d n s
  | .yieldW c => Sys2Proof.Machine.execYieldW c s
  | .bra c off => Sys2Proof.Machine.execBra c off s
  | .join c off => Sys2Proof.Machine.execJoin c off s
  | .call c d off => Sys2Proof.Machine.execCall c d off s
  | .ret c a => Sys2Proof.Machine.execRet c a s
  | .jmpi c a => Sys2Proof.Machine.execJmpi c a s
  | .exitW c => Sys2Proof.Machine.execExitW c s
  | .elect c p => Sys2Proof.Machine.execElect c p s
  | .regroup c a => Sys2Proof.Machine.execRegroup c a s
  | .enq c o => Sys2Proof.Machine.execEnq c o s
  | .widW c d f => Sys2Proof.Machine.execWidW c d f s
  | .add c o => Sys2Proof.Machine.execAdd c o s
  | .sub c o => Sys2Proof.Machine.execSub c o s
  | .adds c o => Sys2Proof.Machine.execAdds c o s
  | .subs c o => Sys2Proof.Machine.execSubs c o s
  | .neg c o => Sys2Proof.Machine.execNeg c o s
  | .abs c o => Sys2Proof.Machine.execAbs c o s
  | .min c o => Sys2Proof.Machine.execMin c o s
  | .max c o => Sys2Proof.Machine.execMax c o s
  | .umin c o => Sys2Proof.Machine.execUmin c o s
  | .umax c o => Sys2Proof.Machine.execUmax c o s
  | .avg c o => Sys2Proof.Machine.execAvg c o s
  | .lea c o => Sys2Proof.Machine.execLea c o s
  | .sel c o => Sys2Proof.Machine.execSel c o s
  | .mov c o => Sys2Proof.Machine.execMov c o s
  | .movi c o => Sys2Proof.Machine.execMovi c o s
  | .movhi c o => Sys2Proof.Machine.execMovhi c o s
  | .mul c o => Sys2Proof.Machine.execMul c o s
  | .mulh c o => Sys2Proof.Machine.execMulh c o s
  | .umulh c o => Sys2Proof.Machine.execUmulh c o s
  | .mad c o => Sys2Proof.Machine.execMad c o s
  | .div c o => Sys2Proof.Machine.execDiv c o s
  | .udiv c o => Sys2Proof.Machine.execUdiv c o s
  | .rem c o => Sys2Proof.Machine.execRem c o s
  | .urem c o => Sys2Proof.Machine.execUrem c o s
  | .popc c o => Sys2Proof.Machine.execPopc c o s
  | .clz c o => Sys2Proof.Machine.execClz c o s
  | .ctz c o => Sys2Proof.Machine.execCtz c o s
  | .brev c o => Sys2Proof.Machine.execBrev c o s
  | .and c o => Sys2Proof.Machine.execAnd c o s
  | .or c o => Sys2Proof.Machine.execOr c o s
  | .xor c o => Sys2Proof.Machine.execXor c o s
  | .andn c o => Sys2Proof.Machine.execAndn c o s
  | .orn c o => Sys2Proof.Machine.execOrn c o s
  | .not c o => Sys2Proof.Machine.execNot c o s
  | .shl c o => Sys2Proof.Machine.execShl c o s
  | .shr c o => Sys2Proof.Machine.execShr c o s
  | .sar c o => Sys2Proof.Machine.execSar c o s
  | .rot c o => Sys2Proof.Machine.execRot c o s
  | .bfx c o => Sys2Proof.Machine.execBfx c o s
  | .ubfx c o => Sys2Proof.Machine.execUbfx c o s
  | .bfi c o => Sys2Proof.Machine.execBfi c o s
  | .pack c o => Sys2Proof.Machine.execPack c o s
  | .unpk c o => Sys2Proof.Machine.execUnpk c o s
  | .cmp c o => Sys2Proof.Machine.execCmp c o s
  | .ucmp c o => Sys2Proof.Machine.execUcmp c o s
  | .fcmp c o => Sys2Proof.Machine.execFcmp c o s
  | .pand c o => Sys2Proof.Machine.execPand c o s
  | .por c o => Sys2Proof.Machine.execPor c o s
  | .pxor c o => Sys2Proof.Machine.execPxor c o s
  | .pnot c o => Sys2Proof.Machine.execPnot c o s
  | .pmov c o => Sys2Proof.Machine.execPmov c o s
  | .pset c o => Sys2Proof.Machine.execPset c o s
  | .pget c d => Sys2Proof.Machine.execPget c d s
  | .fadd c o => Sys2Proof.Machine.execFadd c o s
  | .fsub c o => Sys2Proof.Machine.execFsub c o s
  | .fmul c o => Sys2Proof.Machine.execFmul c o s
  | .fma c o => Sys2Proof.Machine.execFma c o s
  | .fmin c o => Sys2Proof.Machine.execFmin c o s
  | .fmax c o => Sys2Proof.Machine.execFmax c o s
  | .fneg c o => Sys2Proof.Machine.execFneg c o s
  | .fabs c o => Sys2Proof.Machine.execFabs c o s
  | .fclass c o => Sys2Proof.Machine.execFclass c o s
  | .fround c o => Sys2Proof.Machine.execFround c o s
  | .fscale c o => Sys2Proof.Machine.execFscale c o s
  | .frcp c o => Sys2Proof.Machine.execFrcp c o s
  | .frsq c o => Sys2Proof.Machine.execFrsq c o s
  | .fsqrt c o => Sys2Proof.Machine.execFsqrt c o s
  | .fdiv c o => Sys2Proof.Machine.execFdiv c o s
  | .fexp2 c o => Sys2Proof.Machine.execFexp2 c o s
  | .flog2 c o => Sys2Proof.Machine.execFlog2 c o s
  | .fsin c o => Sys2Proof.Machine.execFsin c o s
  | .fcos c o => Sys2Proof.Machine.execFcos c o s
  | .ftanh c o => Sys2Proof.Machine.execFtanh c o s
  | .cvt c o => Sys2Proof.Machine.execCvt c o s
  | .qpack c o => Sys2Proof.Machine.execQpack c o s
  | .qunpk c o => Sys2Proof.Machine.execQunpk c o s
  | .plane c o => Sys2Proof.Machine.execPlane c o s
  | .unplane c o => Sys2Proof.Machine.execUnplane c o s
  | .shfl c o => Sys2Proof.Machine.execShfl c o s
  | .shflx c o => Sys2Proof.Machine.execShflx c o s
  | .bcast c o => Sys2Proof.Machine.execBcast c o s
  | .vote c o => Sys2Proof.Machine.execVote c o s
  | .redl c o => Sys2Proof.Machine.execRedl c o s
  | .scanl c o => Sys2Proof.Machine.execScanl c o s
  | .matchL c o => Sys2Proof.Machine.execMatchL c o s
  | .cxch c o => Sys2Proof.Machine.execCxch c o s
  | .ld c o => Sys2Proof.Machine.execLd c o s
  | .ldc c o => Sys2Proof.Machine.execLdc c o s
  | .ldb c o => Sys2Proof.Machine.execLdb c o s
  | .lda c o => Sys2Proof.Machine.execLda c o s
  | .pref c o => Sys2Proof.Machine.execPref c o s
  | .st c o => Sys2Proof.Machine.execSt c o s
  | .stl c o => Sys2Proof.Machine.execStl c o s
  | .stnt c o => Sys2Proof.Machine.execStnt c o s
  | .zeroSt c o => Sys2Proof.Machine.execZeroSt c o s
  | .atomAdd c o => Sys2Proof.Machine.execAtomAdd c o s
  | .atomFadd c o => Sys2Proof.Machine.execAtomFadd c o s
  | .atomAnd c o => Sys2Proof.Machine.execAtomAnd c o s
  | .atomOr c o => Sys2Proof.Machine.execAtomOr c o s
  | .atomXor c o => Sys2Proof.Machine.execAtomXor c o s
  | .atomMin c o => Sys2Proof.Machine.execAtomMin c o s
  | .atomMax c o => Sys2Proof.Machine.execAtomMax c o s
  | .atomUmin c o => Sys2Proof.Machine.execAtomUmin c o s
  | .atomUmax c o => Sys2Proof.Machine.execAtomUmax c o s
  | .atomExch c o => Sys2Proof.Machine.execAtomExch c o s
  | .atomCas c o => Sys2Proof.Machine.execAtomCas c o s
  | .atomIncw c o => Sys2Proof.Machine.execAtomIncw c o s
  | .redAdd c o => Sys2Proof.Machine.execRedAdd c o s
  | .redFadd c o => Sys2Proof.Machine.execRedFadd c o s
  | .redAnd c o => Sys2Proof.Machine.execRedAnd c o s
  | .redOr c o => Sys2Proof.Machine.execRedOr c o s
  | .redXor c o => Sys2Proof.Machine.execRedXor c o s
  | .redMin c o => Sys2Proof.Machine.execRedMin c o s
  | .redMax c o => Sys2Proof.Machine.execRedMax c o s
  | .redUmin c o => Sys2Proof.Machine.execRedUmin c o s
  | .redUmax c o => Sys2Proof.Machine.execRedUmax c o s
  | .casc c o => Sys2Proof.Machine.execCasc c o s
  | .decc c o => Sys2Proof.Machine.execDecc c o s
  | .fence c o => Sys2Proof.Machine.execFence c o s
  | .bar c slot => Sys2Proof.Machine.execBar c slot s
  | .waitc c o => Sys2Proof.Machine.execWaitc c o s
  | .coinit c a b => Sys2Proof.Machine.execCoinit c a b s
  | .arrive c o => Sys2Proof.Machine.execArrive c o s
  | .expect c a b => Sys2Proof.Machine.execExpect c a b s
  | .waitph c o => Sys2Proof.Machine.execWaitph c o s
  | .inv c o => Sys2Proof.Machine.execInv c o s
  | .wb c o => Sys2Proof.Machine.execWb c o s
  | .copy c o => Sys2Proof.Machine.execCopy c o s
  | .copym c o => Sys2Proof.Machine.execCopym c o s
  | .copys c o => Sys2Proof.Machine.execCopys c o s
  | .copyg c o => Sys2Proof.Machine.execCopyg c o s
  | .mmaF8e4 c o => Sys2Proof.Machine.execMmaF8e4 c o s
  | .mmaF8e5 c o => Sys2Proof.Machine.execMmaF8e5 c o s
  | .mmaBf16 c o => Sys2Proof.Machine.execMmaBf16 c o s
  | .mmaF16 c o => Sys2Proof.Machine.execMmaF16 c o s
  | .mmaI8 c o => Sys2Proof.Machine.execMmaI8 c o s
  | .mmaI4 c o => Sys2Proof.Machine.execMmaI4 c o s
  | .mmaI2 c o => Sys2Proof.Machine.execMmaI2 c o s
  | .mmaB1 c o => Sys2Proof.Machine.execMmaB1 c o s
  | .mmaQc4 c o => Sys2Proof.Machine.execMmaQc4 c o s
  | .mzero c tile => Sys2Proof.Machine.execMzero c tile s
  | .mload c o => Sys2Proof.Machine.execMload c o s
  | .mstore c o => Sys2Proof.Machine.execMstore c o s
  | .mfence c d => Sys2Proof.Machine.execMfence c d s
  | .mwait c a => Sys2Proof.Machine.execMwait c a s
  | .acwin c o => Sys2Proof.Machine.execAcwin c o s
  | .tsweep c o => Sys2Proof.Machine.execTsweep c o s
  | .tsred c o => Sys2Proof.Machine.execTsred c o s
  | .tag c o => Sys2Proof.Machine.execTag c o s
  | .mkt c o => Sys2Proof.Machine.execMkt c o s
  | .deref c o => Sys2Proof.Machine.execDeref c o s
  | .unify c o => Sys2Proof.Machine.execUnify c o s
  | .bindT c a b => Sys2Proof.Machine.execBindT c a b s
  | .halloc c o => Sys2Proof.Machine.execHalloc c o s
  | .getarg c o => Sys2Proof.Machine.execGetarg c o s
  | .commit c o => Sys2Proof.Machine.execCommit c o s
  | .tryM c o => Sys2Proof.Machine.execTryM c o s
  | .trust c => Sys2Proof.Machine.execTrust c s
  | .failW c => Sys2Proof.Machine.execFailW c s
  | .cut c a => Sys2Proof.Machine.execCut c a s
  | .offer c a => Sys2Proof.Machine.execOffer c a s
  | .adopt c p => Sys2Proof.Machine.execAdopt c p s
  | .ovlcfg c a => Sys2Proof.Machine.execOvlcfg c a s
  | .slotNop stall y => Sys2Proof.Machine.execSlotNop stall y s
  | .slotMov stall x y => Sys2Proof.Machine.execSlotMov stall x y s
  | .slotAdd stall x y => Sys2Proof.Machine.execSlotAdd stall x y s
  | .slotSub stall x y => Sys2Proof.Machine.execSlotSub stall x y s
  | .slotAnd stall x y => Sys2Proof.Machine.execSlotAnd stall x y s
  | .slotOr stall x y => Sys2Proof.Machine.execSlotOr stall x y s
  | .slotXor stall x y => Sys2Proof.Machine.execSlotXor stall x y s
  | .slotShl stall x y => Sys2Proof.Machine.execSlotShl stall x y s
  | .slotShr stall x y => Sys2Proof.Machine.execSlotShr stall x y s
  | .slotSar stall x y => Sys2Proof.Machine.execSlotSar stall x y s
  | .slotMin stall x y => Sys2Proof.Machine.execSlotMin stall x y s
  | .slotMax stall x y => Sys2Proof.Machine.execSlotMax stall x y s
  | .slotNeg stall x y => Sys2Proof.Machine.execSlotNeg stall x y s
  | .slotNot stall x y => Sys2Proof.Machine.execSlotNot stall x y s
  | .slotFadd stall x y => Sys2Proof.Machine.execSlotFadd stall x y s
  | .slotFmul stall x y => Sys2Proof.Machine.execSlotFmul stall x y s
  | .slotFmin stall x y => Sys2Proof.Machine.execSlotFmin stall x y s
  | .slotFmax stall x y => Sys2Proof.Machine.execSlotFmax stall x y s
  | .slotFneg stall x y => Sys2Proof.Machine.execSlotFneg stall x y s
  | .storeLeaveCore cl co => Sys2Proof.Machine.execStoreLeaveCore cl co s
  | .monitorWake blk grp => Sys2Proof.Machine.execMonitorWake blk grp s
  | .waitcRecheckTimer blk grp => Sys2Proof.Machine.execWaitcRecheckTimer blk grp s
  | .waitcTimeout blk grp => Sys2Proof.Machine.execWaitcTimeout blk grp s
  | .waitcSpuriousReturn blk grp => Sys2Proof.Machine.execWaitcSpuriousReturn blk grp s
  | .copySlotGrant blk grp => Sys2Proof.Machine.execCopySlotGrant blk grp s
  | .copyDelivery id chunk => Sys2Proof.Machine.execCopyDelivery id chunk s
  | .mmaComplete blk grp => Sys2Proof.Machine.execMmaComplete blk grp s
  | .batchRetire blk grp => Sys2Proof.Machine.execBatchRetire blk grp s
  | .issueCycle cl => Sys2Proof.Machine.execIssueCycle cl s
  | .budgetPeriodStart cl => Sys2Proof.Machine.execBudgetPeriodStart cl s
  | .icacheLineArrive blk grp => Sys2Proof.Machine.execIcacheLineArrive blk grp s
  | .tlbWalkComplete blk grp => Sys2Proof.Machine.execTlbWalkComplete blk grp s
  | .sectorEviction cl sector => Sys2Proof.Machine.execSectorEviction cl sector s
  | .assistComplete blk grp => Sys2Proof.Machine.execAssistComplete blk grp s
  | .hostFaultReply asid page retry => Sys2Proof.Machine.execHostFaultReply asid page retry s
  | .debugResume save edits => Sys2Proof.Machine.execDebugResume save edits s
  | .preemptOrder blk => Sys2Proof.Machine.execPreemptOrder blk s
  | .preemptSave blk => Sys2Proof.Machine.execPreemptSave blk s
  | .blockResume save => Sys2Proof.Machine.execBlockResume save s
  | .zeroingDone cl co => Sys2Proof.Machine.execZeroingDone cl co s
  | .kick q => Sys2Proof.Machine.execKick q s
  | .fetchLaunch slot => Sys2Proof.Machine.execFetchLaunch slot s
  | .launchAdmit slot => Sys2Proof.Machine.execLaunchAdmit slot s
  | .fetchLaunchx slot => Sys2Proof.Machine.execFetchLaunchx slot s
  | .fetchWaitsig slot => Sys2Proof.Machine.execFetchWaitsig slot s
  | .waitsigSatisfied slot => Sys2Proof.Machine.execWaitsigSatisfied slot s
  | .fetchSignal slot => Sys2Proof.Machine.execFetchSignal slot s
  | .fetchNopPacket slot => Sys2Proof.Machine.execFetchNopPacket slot s
  | .fetchContreg slot => Sys2Proof.Machine.execFetchContreg slot s
  | .contregComplete q pos => Sys2Proof.Machine.execContregComplete q pos s
  | .dispatchChunk launch => Sys2Proof.Machine.execDispatchChunk launch s
  | .blockPlace cl launch => Sys2Proof.Machine.execBlockPlace cl launch s
  | .coopPlace launch => Sys2Proof.Machine.execCoopPlace launch s
  | .workSteal cl launch => Sys2Proof.Machine.execWorkSteal cl launch s
  | .blockEnd blk => Sys2Proof.Machine.execBlockEnd blk s
  | .launchComplete launch => Sys2Proof.Machine.execLaunchComplete launch s
  | .timesliceExpire => Sys2Proof.Machine.execTimesliceExpire s
  | .schedDecision => Sys2Proof.Machine.execSchedDecision s
  | .unmapFlushProbeReturn slot => Sys2Proof.Machine.execUnmapFlushProbeReturn slot s
  | .queueReset q => Sys2Proof.Machine.execQueueReset q s
  | .createContext asid root debug fn => Sys2Proof.Machine.execCreateContext asid root debug fn s
  | .createQcb n => Sys2Proof.Machine.execCreateQcb n s
  | .destroyQcb q => Sys2Proof.Machine.execDestroyQcb q s
  | .createFabricQueue dq n => Sys2Proof.Machine.execCreateFabricQueue dq n s
  | .setBudgetClass asid cls res ceil => Sys2Proof.Machine.execSetBudgetClass asid cls res ceil s
  | .setQuota asid n => Sys2Proof.Machine.execSetQuota asid n s
  | .invalidate asid va size => Sys2Proof.Machine.execInvalidate asid va size s
  | .teardownAsid asid => Sys2Proof.Machine.execTeardownAsid asid s
  | .sramSplitChange cl co split => Sys2Proof.Machine.execSramSplitChange cl co split s
  | .specBegin slot => Sys2Proof.Machine.execSpecBegin slot s
  | .specTimeout num => Sys2Proof.Machine.execSpecTimeout num s
  | .sliceWriteTask slice pos => Sys2Proof.Machine.execSliceWriteTask slice pos s
  | .remoteMessageArrive m => Sys2Proof.Machine.execRemoteMessageArrive m s
  | .remoteAckArrive dst vc seq r => Sys2Proof.Machine.execRemoteAckArrive dst vc seq r s
  | .flushProbeReturn dst vc => Sys2Proof.Machine.execFlushProbeReturn dst vc s
  | .fabricPhaseQuiet chip => Sys2Proof.Machine.execFabricPhaseQuiet chip s
  | .fabricQuiesce => Sys2Proof.Machine.execFabricQuiesce s
  | .joinMessage dq gen chip => Sys2Proof.Machine.execJoinMessage dq gen chip s
  | .startMessage dq gen => Sys2Proof.Machine.execStartMessage dq gen s
  | .abortMessage dq gen => Sys2Proof.Machine.execAbortMessage dq gen s
  | .joinTimeout dq gen => Sys2Proof.Machine.execJoinTimeout dq gen s
  | .hang launch => Sys2Proof.Machine.execHang launch s
  | .remoteRecoveryTimeout launch => Sys2Proof.Machine.execRemoteRecoveryTimeout launch s
  | .strikeReport cl t mask => Sys2Proof.Machine.execStrikeReport cl t mask s
  | .checkpoint blk => Sys2Proof.Machine.execCheckpoint blk s
  | .flitCrcRetry port ok => Sys2Proof.Machine.execFlitCrcRetry port ok s
  | .portLaneLoss port trained => Sys2Proof.Machine.execPortLaneLoss port trained s
  | .portFail port => Sys2Proof.Machine.execPortFail port s
  | .portReceiveTimeout port => Sys2Proof.Machine.execPortReceiveTimeout port s
  | .portReturn port => Sys2Proof.Machine.execPortReturn port s
  | .coreMarginal cl co => Sys2Proof.Machine.execCoreMarginal cl co s
  | .bistEnd cl co pass => Sys2Proof.Machine.execBistEnd cl co pass s
  | .attestationRequest nonce => Sys2Proof.Machine.execAttestationRequest nonce s
  | .coldReset images => Sys2Proof.Machine.execColdReset images s
  | .deviceReset => Sys2Proof.Machine.execDeviceReset s
  | .functionReset fn => Sys2Proof.Machine.execFunctionReset fn s
  | .powerCapSet watts => Sys2Proof.Machine.execPowerCapSet watts s
  | .throttleStep cl down => Sys2Proof.Machine.execThrottleStep cl down s
  | .hostCxlAccess pa op => Sys2Proof.Machine.execHostCxlAccess pa op s
  | .uncorrectableError at_ => Sys2Proof.Machine.execUncorrectableError at_ s
  | .fetcherMonitorMatch slot => Sys2Proof.Machine.execFetcherMonitorMatch slot s
  | .importTableEntry chip asid base size local_ => Sys2Proof.Machine.execImportTableEntry chip asid base size local_ s
  | .configTableLoad table => Sys2Proof.Machine.execConfigTableLoad table s
  | .recoveryImageLoad image => Sys2Proof.Machine.execRecoveryImageLoad image s
  | .chipLeavesDomain chip => Sys2Proof.Machine.execChipLeavesDomain chip s
  | .variableLatencyResult blk grp r => Sys2Proof.Machine.execVariableLatencyResult blk grp r s
  | .directoryEntryEviction line => Sys2Proof.Machine.execDirectoryEntryEviction line s

end Sys2Proof.Machine
end

