-- ==== Sys2Proof/Machine/Events.lean ====
section
/-! DEFINITION. Which events can happen next (00 R5), and the choice among them (log 2). An event in these lists whose
condition does not hold leaves the state as it is. -/

namespace Sys2Proof.Machine

/-- Something that can happen: a meaning with its operands. -/
abbrev Event := State → Out

/-- What a slot may wait for from outside its core. -/
def waitEvents (id gi : Nat) (w : SWait) : List Event :=
  match w with
  | .waitc _ => [execWaitcRecheckTimer id gi, execWaitcTimeout id gi, execWaitcSpuriousReturn id gi]
  | .copySlot => [execCopySlotGrant id gi]
  | .walk _ _ _ _ => [execTlbWalkComplete id gi]
  | _ => []

/-- What a parked group waits for. -/
def parkEvents (id gi : Nat) (p : Park) : List Event :=
  match p with
  | .assist => [execAssistComplete id gi]
  | .icache _ => [execIcacheLineArrive id gi]
  | _ => []

/-- Events of a group. -/
def groupEvents (id gi : Nat) (g : Group) : List Event :=
  waitEvents id gi g.slot0.wait ++ waitEvents id gi g.slot1.wait ++ parkEvents id gi g.park ++
  (if g.batches.isEmpty then [] else [execMmaComplete id gi, execBatchRetire id gi]) ++ [fun (t : State) => .next (t.readAhead id gi)] ++
  ((List.range 71).filter g.outstanding).map fun r => execVariableLatencyResult id gi r

/-- Events of the blocks. -/
def State.blockEvents (s : State) : List Event :=
  s.blocks.flatMap fun p =>
    [execBlockEnd p.1, execCheckpoint p.1, execPreemptOrder p.1, execPreemptSave p.1] ++
      p.2.st.groups.zipIdx.flatMap fun g => groupEvents p.1 g.2 g.1

/-- Events of clusters and cores. -/
def State.coreEvents (s : State) : List Event :=
  (List.range 96).map (fun cl => execIssueCycle cl) ++ (List.range 96).map (fun cl => execBudgetPeriodStart cl) ++
  s.cores.flatMap fun p =>
    (if p.2.held.isEmpty then [] else [execStoreLeaveCore (p.1 / 8) (p.1 % 8)]) ++
      (if p.2.zeroing = Load.zero then [] else [execZeroingDone (p.1 / 8) (p.1 % 8)]) ++
        if p.2.service = .leaving then [fun (t : State) => .next (t.beginBist (p.1 / 8) (p.1 % 8))]
        else if p.2.marginal (s.clk (p.1 / 8)) then [execCoreMarginal (p.1 / 8) (p.1 % 8)] else []

/-- Events of memory, the copy engines and the slices. -/
def State.memEvents (s : State) : List Event :=
  [fun (t : State) => .next t.wear] ++ s.ms.fired.map (fun p => execMonitorWake p.1 p.2) ++
  s.ms.copies.flatMap (fun p => (List.range p.2.todo.length).map fun k => execCopyDelivery p.1 k) ++
  s.ms.cc.map (fun p => execSectorEviction (p.1 / 2 ^ 46) (p.1 % 2 ^ 46)) ++
  s.ms.cocoons.flatMap (fun p => p.2.watch.map fun l => execDirectoryEntryEviction l) ++
  s.fifos.flatMap fun p => (List.range p.2.length).map fun k => execSliceWriteTask p.1 k

/-- Events of a hardware slot. -/
def slotEvents (n : Nat) : List Event :=
  [execFetchLaunch n, execFetchLaunchx n, execFetchWaitsig n, execFetchSignal n, execFetchNopPacket n, execFetchContreg n, execLaunchAdmit n,
    execWaitsigSatisfied n, execFetcherMonitorMatch n, execUnmapFlushProbeReturn n, execSpecBegin n]

/-- Events of a launch. -/
def launchEvents (l : Nat) (x : Launch) : List Event :=
  [execDispatchChunk l, execCoopPlace l, execLaunchComplete l, execHang l, execRemoteRecoveryTimeout l] ++
  x.chunks.map (fun p => execBlockPlace p.1 l) ++ if x.chunks.isEmpty then [] else (List.range 96).map fun cl => execWorkSteal cl l

/-- Events of queues, slots, launches and speculations. -/
def State.queueEvents (s : State) : List Event :=
  s.qs.slots.flatMap (fun p => slotEvents p.1) ++
  s.qs.queues.flatMap (fun p =>
    (if s.ms.kicked.contains p.2.pa then [execKick p.1] else []) ++ (if p.2.resetDue then [execQueueReset p.1] else [])) ++
  s.ms.sigHit.map (fun k => fun (t : State) => .next (t.sigMatch k)) ++
  s.qs.pendW.flatMap (fun p => [execContregComplete p.2.q p.2.pos, fun (t : State) => .next (t.runDue p.1)]) ++
  s.qs.launches.flatMap (fun p => launchEvents p.1 p.2) ++ s.qs.specs.map (fun p => execSpecTimeout p.1) ++
  s.saved.map (fun p => execBlockResume p.1) ++ [execTimesliceExpire, execSchedDecision]

/-- Events of the fabric and its ports, and host commands that go on. -/
def State.fabricEvents (s : State) : List Event :=
  s.fab.joins.flatMap (fun j =>
    [execJoinMessage j.dq j.gen s.fab.chip, execStartMessage j.dq j.gen, execAbortMessage j.dq j.gen, execJoinTimeout j.dq j.gen]) ++
  s.fab.ins.flatMap (fun p => p.2.held.map fun m => execRemoteMessageArrive m) ++
  (if s.fab.drains.isEmpty then [] else [fun (t : State) => .next t.stepDrain, execFabricPhaseQuiet s.fab.chip]) ++
  s.fab.probes.map (fun k => execFlushProbeReturn (streamChip k) (streamVc k)) ++
  (if s.fab.f4.isEmpty then [] else [fun (t : State) => .next t.flushF4]) ++
  s.ports.flatMap (fun p => [execPortFail p.1, execPortReceiveTimeout p.1, execPortReturn p.1]) ++
  s.invals.map (fun x => execInvalidate x.asid x.va x.size) ++
  (s.ctxs.filter fun p => p.2.tearing).map (fun p => execTeardownAsid p.1) ++
  if s.fw.resetting then [fun (t : State) => .next t.endReset] else []

/-- Everything inside the part that can happen next. -/
def State.events (s : State) : List Event :=
  s.coreEvents ++ s.blockEvents ++ s.memEvents ++ s.queueEvents ++ s.fabricEvents

/-- What reaches the part over the management bus, which answers in recovery mode too (21 R425, R426). -/
def fromManagement : Instr → Bool
  | .coldReset _ => true
  | .recoveryImageLoad _ => true
  | .attestationRequest _ => true
  | .powerCapSet _ => true
  | _ => false

/-- What comes from outside: the host, other chips, the links, sensors, errors, and the firmware's own measures. -/
def fromOutside : Instr → Bool
  | .hostFaultReply _ _ _ => true
  | .debugResume _ _ => true
  | .kick _ => true
  | .queueReset _ => true
  | .createContext _ _ _ _ => true
  | .createQcb _ => true
  | .destroyQcb _ => true
  | .createFabricQueue _ _ => true
  | .setBudgetClass _ _ _ _ => true
  | .setQuota _ _ => true
  | .invalidate _ _ _ => true
  | .teardownAsid _ => true
  | .sramSplitChange _ _ _ => true
  | .remoteMessageArrive _ => true
  | .remoteAckArrive _ _ _ _ => true
  | .flushProbeReturn _ _ => true
  | .fabricPhaseQuiet _ => true
  | .fabricQuiesce => true
  | .joinMessage _ _ _ => true
  | .startMessage _ _ => true
  | .abortMessage _ _ => true
  | .strikeReport _ _ _ => true
  | .flitCrcRetry _ _ => true
  | .portLaneLoss _ _ => true
  | .portReceiveTimeout _ => true
  | .coreMarginal _ _ => true
  | .bistEnd _ _ _ => true
  | .deviceReset => true
  | .functionReset _ => true
  | .throttleStep _ _ => true
  | .hostCxlAccess _ _ => true
  | .uncorrectableError _ => true
  | .importTableEntry _ _ _ _ _ => true
  | .configTableLoad _ => true
  | .chipLeavesDomain _ => true
  | i => fromManagement i

/-- Whether the outside can act so now: in recovery mode the part answers on the management bus alone (21 R425). -/
def State.accepts (s : State) (i : Instr) : Bool := if s.fw.recovery then fromManagement i else fromOutside i

/-- A state whose next input is taken. -/
def State.dropInput (s : State) : State := { s with inputs := s.inputs.tail }

/-- The choice among the events that can happen and the next input. -/
def State.choice (s : State) : Nat := Config.pick s.tick % (s.events.length + if s.inputs.isEmpty then 0 else 1)

/-- The event chosen, if it is one of the part's own. -/
def State.ownEvent (s : State) : Option Event := s.events[s.choice]?

/-- The input chosen, if none of the part's own events is: one that cannot act is passed over. -/
def State.input (s : State) : Option Instr := s.inputs.head?.filter s.accepts

/-- One choice is made. -/
def State.ticked (s : State) : State := { s with tick := s.tick + 1 }

/-- The word in focus faults before it executes (02 R64, 21 R413). -/
def State.faultWord (s : State) (f : Focus) (x : FaultInfo) : State :=
  match s.curOf f with
  | some q => s.takeFault q x
  | none => s

/-- The state after what a word did; a stop stays a stop. -/
def afterWord (r : Out) (k : State → State) : Out :=
  match r with
  | .next t => .next (k t)
  | .fault e => .fault e
  | .refused e => .refused e

/-- Place a word where the next step fetches it: in the first word of the first line of ASID 0 in cluster 0, before a block that
stands at PC 0 on core 0, and in focus (log 16). -/
def State.placeWord (s : State) (w : W64) : State :=
  let id := s.blocks.fresh
  { s with
    focus := some ⟨id, 0, false⟩
    blocks := s.blocks.put id Block.placed
    ms := { s.ms with icache := s.ms.icache.put (icKey 0 0 0) (lineOf w, 0) } }

end Sys2Proof.Machine
end

