-- ==== Sys2Proof/Machine/Step.lean ====
section
/-! DEFINITION. One step: the word in focus is fetched, decoded and executed, or else one event happens. -/

namespace Sys2Proof.Machine

/-- One step of the part. -/
def step (s : State) : Host.Outcome State Fault Refusal :=
  match s.focus with
  | none =>
    match s.ownEvent with
    | some e => e s.ticked
    | none =>
      match s.input with
      | some i => exec i s.ticked.dropInput
      | none => .next s.ticked.dropInput
  | some f =>
    match s.fetched f with
    | none => .next { s with focus := none }
    | some (q, w, .error x) => .next (((s.beginWord q).faultWord f x).endWord f q.blk.cl q.issues w)
    | some (q, w, .ok i) => afterWord (exec i (s.beginWord q)) fun t => t.endWord f q.blk.cl q.issues w

/-- The state with an instruction placed where the next step fetches it: a word of 64 bits (log 16). -/
def State.withFetchWord (s : State) (_nbits w : Nat) : State := s.placeWord (BitVec.ofNat 64 w)

end Sys2Proof.Machine
end

