-- ==== Sys2Proof/Safety.lean ====
section
/-! DEFINITION. What a safe step is, the invariants of the part, and the vocabulary of the statements: what a word leaves in
its group. -/

namespace Sys2Proof.Machine

/-- A step is safe where it answers a next state: it neither faults nor refuses. -/
def Safe (s : State) : Prop := ∃ t, step s = .next t

/-! ### Frames of groups -/

/-- The group `h` is the group `g` with scoreboard `sb` and flags `fl`, except for what the end of a word moves (the PC
slots, the stack top, and which slot a sweep belongs to) and for the lanes and latches. -/
def Group.restIs (g h : Group) (sb : W64) (fl : Flags) : Prop :=
  { h with
    slot0 := g.slot0
    slot1 := g.slot1
    dspTop := g.dspTop
    sweep := g.sweep
    l0 := g.l0
    l1 := g.l1
    l2 := g.l2
    l3 := g.l3
    lanes := g.lanes } = { g with sb := sb, flg := fl } ∧ (h.sweep.map fun p => p.2) = g.sweep.map fun p => p.2

/-- The latches of `h` are those of `g`. -/
def Group.sameLatches (g h : Group) : Prop := h.l0 = g.l0 ∧ h.l1 = g.l1 ∧ h.l2 = g.l2 ∧ h.l3 = g.l3

/-- The latches of `h` are those of `g`, shifted down for a result in `d` (01 R20). -/
def Group.latchesShift (g h : Group) (d : Reg) : Prop := h.l0 = some d ∧ h.l1 = g.l0 ∧ h.l2 = g.l1 ∧ h.l3 = g.l2

/-- A lane in which one register, with its taint, has changed. -/
structure Lane.OnlyReg (l m : Lane) (d : Reg) (v : W64) (t : Bool) : Prop where
  value : m.reg d = v
  taint : m.tnt d = t
  others : ∀ r, r ≠ d → m.reg r = l.reg r ∧ m.tnt r = l.tnt r
  rest : { m with regs := l.regs, taint := l.taint } = l

/-- A lane in which one predicate has changed; p7 cannot (01 R12). -/
structure Lane.OnlyPred (l m : Lane) (p : BitVec 3) (b : Bool) : Prop where
  value : p ≠ 7 → m.pr p = b
  others : ∀ r, r ≠ p → m.pr r = l.pr r
  seven : p = 7 → m = l
  rest : { m with pred := l.pred } = l

/-- What a word with one destination register leaves in the issuing group: scoreboard `sb`, flags `fl`, the value `v k` with the taint
`t k` in each lane that executes it, and nothing else. -/
structure RegEffect (q : Cur) (c : Ctl) (d : Reg) (sb : W64) (fl : Flags) (v : Nat → W64) (t : Nat → Bool) (h : Group) : Prop where
  rest : q.grp.restIs h sb fl
  latches : q.grp.latchesShift h d
  size : h.lanes.length = q.grp.lanes.length
  idle : ∀ k, q.grp.runs q.slot c k = false → h.lane k = q.grp.lane k
  wrote : ∀ k, q.grp.runs q.slot c k = true → (q.grp.lane k).OnlyReg (h.lane k) d (v k) (t k)

/-- What a word that writes a predicate leaves in the issuing group. -/
structure PredEffect (q : Cur) (c : Ctl) (p : BitVec 3) (fl : Flags) (v : Nat → Bool) (h : Group) : Prop where
  rest : q.grp.restIs h q.grp.sb fl
  latches : q.grp.sameLatches h
  size : h.lanes.length = q.grp.lanes.length
  idle : ∀ k, q.grp.runs q.slot c k = false → h.lane k = q.grp.lane k
  wrote : ∀ k, q.grp.runs q.slot c k = true → (q.grp.lane k).OnlyPred (h.lane k) p (v k)

/-- A fixed-latency word completes: it writes `d` in its lanes with the taint `t`, and every value meets `P`. -/
def Computes (s : State) (i : Instr) (q : Cur) (c : Ctl) (d : Reg) (t : Nat → Bool) (P : Nat → W64 → Prop) : Prop :=
  ∃ h v, exec i s = .next (s.putGrp q h) ∧ RegEffect q c d q.grp.sb q.grp.flg v t h ∧ ∀ k, q.grp.runs q.slot c k = true → P k (v k)

/-- A word of variable latency completes so, and its result is scoreboarded (02 R43). -/
def ComputesVar (s : State) (i : Instr) (q : Cur) (c : Ctl) (d : Reg) (t : Nat → Bool) (P : Nat → W64 → Prop) : Prop :=
  ∃ h v, exec i s = .next (s.putGrp q h) ∧ RegEffect q c d (q.grp.sb ||| ((1 : W64) <<< d.toNat)) q.grp.flg v t h ∧
    ∀ k, q.grp.runs q.slot c k = true → P k (v k)

/-- A word that writes a predicate completes, and every value meets `P`. -/
def Decides (s : State) (i : Instr) (q : Cur) (c : Ctl) (p : BitVec 3) (P : Nat → Bool → Prop) : Prop :=
  ∃ h v, exec i s = .next (s.putGrp q h) ∧ PredEffect q c p q.grp.flg v h ∧ ∀ k, q.grp.runs q.slot c k = true → P k (v k)

/-- A condition on two numbers, or on whether two registers have a 1 in the same place (02 R58). -/
def CondIs (cc : Cond) (x y : Int) (both : Prop) : Prop :=
  match cc with
  | .eq => x = y
  | .ne => x ≠ y
  | .lt => x < y
  | .le => x ≤ y
  | .gt => y < x
  | .ge => y ≤ x
  | .any => both
  | .none => ¬ both

/-- A float word completes: the results `r` stand in its lanes, their flags are ORed into FLG (01 R24), and a tiny result takes
the group to the assist routine (03 R75). `var` says whether its latency is variable. -/
def ComputesF (s : State) (i : Instr) (q : Cur) (c : Ctl) (d : Reg) (var : Bool) (r : Nat → LaneRes) : Prop :=
  ∃ h, exec i s = .next ((s.putGrp q h).assistIf q (anyAssist (q.active c) r)) ∧
    RegEffect q c d (if var then q.grp.sb ||| ((1 : W64) <<< d.toNat) else q.grp.sb) (q.grp.flg ||| orFlags (q.active c) r)
      (fun k => (r k).v) (fun k => (r k).t) h

/-- The tree of REDL (05 R135): at level `n` position `j` has taken in the `2 ^ n` positions from `j` upward. -/
def redTree {α : Type} (op : α → α → α) (x : Nat → α) : Nat → Nat → α
  | 0, j => x j
  | n + 1, j => op (redTree op x n j) (redTree op x n (j + 2 ^ n))

/-! ### Entries -/

/-- Lane `k` stands at `pc` in a group: in a slot, or on the divergence stack (08 R217). -/
def Group.At (st : BlkState) (g : Group) (k : Nat) (pc : BitVec 57) : Prop :=
  (g.slot0.e.mask.getLsbD k = true ∧ g.slot0.e.pc = pc) ∨ (g.slot1.e.mask.getLsbD k = true ∧ g.slot1.e.pc = pc) ∨
    ∃ e ∈ st.stack g, e.mask.getLsbD k = true ∧ e.pc = pc

/-- The stack of a group lies between FLOOR and the place where it began (01 R18, R19). -/
def Group.StackOk (g : Group) : Prop := g.dspFloor.toNat ≤ g.dspTop.toNat ∧ g.dspTop.toNat ≤ g.dspCeil.toNat

/-- The group without the entry that issues. -/
def Cur.others (q : Cur) : Group := q.grp.setSlot q.slot PcSlot.empty

/-- The mask of the entry that issues. -/
def Cur.mask (q : Cur) : Mask := (q.grp.pcSlot q.slot).e.mask

/-- Where every lane stands after a word that sends each lane of its entry to `next`: no lane of another entry has moved, and of the
block nothing has changed but the bytes of the group's stack. -/
structure Routes (q : Cur) (next : Nat → Option (BitVec 57)) (st : BlkState) (h : Group) : Prop where
  at_ : ∀ k pc, h.At st k pc ↔ (q.mask.getLsbD k = true ∧ next k = some pc) ∨ q.others.At q.blk.st k pc
  scratch : ∀ i, i < q.grp.dspFloor.toNat ∨ q.grp.dspCeil.toNat ≤ i → st.scratch.byte i = q.blk.st.scratch.byte i
  rest : { st with scratch := q.blk.st.scratch, sectors := q.blk.st.sectors } = q.blk.st

/-- Whether the new entries of a word fit on the stack of a group (08 R217). -/
def Fits (q : Cur) (g : Group) (next : Nat → Option (BitVec 57)) : Prop :=
  (placeEntries q.blk.st g q.slot (targets q.mask next)).isSome

/-- The next PC of the lanes that a word does not send away. -/
def Cur.stay (q : Cur) : Option (BitVec 57) := some (pcNext q.pc)

/-! ### Memory words -/

/-- The group of a word, as a state holds it. -/
def State.grpAt (t : State) (q : Cur) : Option Group := (t.blocks.get? q.id).bind fun b => b.st.groups[q.gi]?

/-- A group whose WAITPHs look again (06 R176). -/
def Group.woken (g : Group) : Group :=
  let f := fun (w : SWait) => w.over SWait.isWaitph
  { g with slot0 := g.slot0.rewait f, slot1 := g.slot1.rewait f }

/-- A memory word leaves the block `b` and in it the group `h`: nothing else of the part changes but the memory system, the acts that cores hold
and the free values taken, and in the block nothing but the group, the scratchpad, whether it is still protected, and, if the
word stores to scratch, the WAITPHs of its other groups, which look again, and on a pair what the other core is not to meet yet (21
R410). -/
structure Frame (s t : State) (q : Cur) (b : Block) (h : Group) (stores : Bool) : Prop where
  blk : t.blocks.get? q.id = some b
  grp : b.st.groups[q.gi]? = some h
  peers : ∀ j, j ≠ q.gi → b.st.groups[j]? = q.blk.st.groups[j]? ∨
    (stores = true ∧ b.st.groups[j]? = (q.blk.st.groups[j]?).map Group.woken)
  others : ∀ id, id ≠ q.id → t.blocks.get? id = s.blocks.get? id
  state : { t with blocks := s.blocks, cores := s.cores, ms := s.ms, free := s.free } = s
  block : { b with st := q.blk.st, prot := q.blk.prot } = q.blk
  scratch : stores = false → b.st.scratch = q.blk.st.scratch ∧ b.st.spoison = q.blk.st.spoison
  rest : { b.st with
    groups := q.blk.st.groups
    scratch := q.blk.st.scratch
    spoison := q.blk.st.spoison
    sectors := q.blk.st.sectors
    track := q.blk.st.track
    crossing := q.blk.st.crossing } = q.blk.st
  cross : ∃ l, b.st.crossing = q.blk.st.crossing ++ l ∧
    (l = [] ∨ (stores = true ∧ q.blk.pair = true ∧ ∀ x ∈ l, x.cycle = s.clk q.blk.cl ∧ x.co = q.co))

/-- The core of a word holds the acts of `l` after those it held, and no core has changed otherwise. -/
def Holds (s t : State) (q : Cur) (l : List Held) : Prop :=
  t.core q.blk.cl q.co = { s.core q.blk.cl q.co with held := (s.core q.blk.cl q.co).held ++ l } ∧
    ∀ k, k ≠ coreKey q.blk.cl q.co → t.cores.getD k CoreState.init = s.cores.getD k CoreState.init

/-- Nothing stands in the way of a memory word of a block that is no speculation: every executing lane passes its checks, and a lane
whose access is performed at once reads no poison, and meets no range that an engine or a batch holds and no act of its core that must come
first (06 R142, R146, R147, 07 R193, R203, 21 R413). `later` says that reads of the word may be performed later. -/
structure Reaches (s : State) (q : Cur) (c : Ctl) (req : Nat → Req) (past : Nat → Bool) (later : Bool) : Prop where
  cur : s.cur? = some q
  real : q.blk.spec = none
  passed : ∀ k, q.grp.runs q.slot c k = true → (s.check q k (req k)).passed = true
  clean : ∀ k, q.grp.runs q.slot c k = true → s.defers q later (s.check q k (req k)) = false →
    s.readsPoison q (req k) (past k) (s.check q k (req k)) = false
  free : ∀ k, q.grp.runs q.slot c k = true → s.defers q later (s.check q k (req k)) = false →
    s.accessHeld q (req k) (past k) (s.check q k (req k)) = false
  known : ∀ k, q.grp.runs q.slot c k = true → s.defers q later (s.check q k (req k)) = false →
    s.readWaits q k (req k) (s.check q k (req k)) = false

/-- The request of a load. -/
def loadReq (ea : Group → Nat → W64) (n : Nat) (q : Cur) (k : Nat) : Req := ⟨ea q.grp k, n, false, true, false, .any, false, false⟩

/-- The request of a store. -/
def storeReq (ea : Group → Nat → W64) (n : Nat) (q : Cur) (k : Nat) : Req := ⟨ea q.grp k, n, true, false, true, .any, false, false⟩

/-- The request of an ATOM or a RED. -/
def atomReq (a : Src) (n : Nat) (q : Cur) (k : Nat) : Req := ⟨q.grp.src Rd.raw a k, n, true, true, true, .any, false, false⟩

/-- The request of an ATOMC. -/
def atomcReq (a : Src) (q : Cur) (k : Nat) : Req := ⟨q.grp.src Rd.raw a k, 8, true, true, true, .global, true, false⟩

/-- The request of a word on a completion object. -/
def objReq (a : Opnd) (q : Cur) (k : Nat) : Req := ⟨q.grp.opnd Rd.raw a k, 16, true, false, false, .scratch, false, false⟩

/-- What each word of the access classes asks of memory in a lane (06 R140, R149, R154, R159, R165, R168, R173, R177). -/
def accessOf : Instr → Option (Ctl × (Cur → Nat → Req))
  | .ld c o => some (c, loadReq (fun g k => eaM g o.a o.off o.sz.bytes k) o.sz.bytes)
  | .ldb c o => some (c, loadReq (fun g k => eaM g o.a o.off o.sz.bytes k) o.sz.bytes)
  | .ldc c o => some (c, loadReq (fun g k => eaM g o.a o.off o.sz.bytes k) o.sz.bytes)
  | .lda c o => some (c, loadReq (fun g k => eaO g o.a o.ofs o.sz.bytes k) o.sz.bytes)
  | .st c o => some (c, storeReq (fun g k => eaM g o.a o.off o.sz.bytes k) o.sz.bytes)
  | .stnt c o => some (c, storeReq (fun g k => eaM g o.a o.off o.sz.bytes k) o.sz.bytes)
  | .stl c o => some (c, storeReq (fun g k => eaO g o.a o.ofs o.sz.bytes k) o.sz.bytes)
  | .zeroSt c o => some (c, storeReq (fun g k => eaM g o.a o.off o.sz.bytes k) o.sz.bytes)
  | .inv c o => some (c, storeReq (fun g k => eaM g o.a o.off 1 k) 1)
  | .wb c o => some (c, storeReq (fun g k => eaM g o.a o.off 1 k) 1)
  | .atomAdd c o => some (c, atomReq o.a o.sz.bytes)
  | .atomFadd c o => some (c, atomReq o.a o.sz.bytes)
  | .atomAnd c o => some (c, atomReq o.a o.sz.bytes)
  | .atomOr c o => some (c, atomReq o.a o.sz.bytes)
  | .atomXor c o => some (c, atomReq o.a o.sz.bytes)
  | .atomMin c o => some (c, atomReq o.a o.sz.bytes)
  | .atomMax c o => some (c, atomReq o.a o.sz.bytes)
  | .atomUmin c o => some (c, atomReq o.a o.sz.bytes)
  | .atomUmax c o => some (c, atomReq o.a o.sz.bytes)
  | .atomExch c o => some (c, atomReq o.a o.sz.bytes)
  | .atomCas c o => some (c, atomReq o.a o.sz.bytes)
  | .atomIncw c o => some (c, atomReq o.a o.sz.bytes)
  | .redAdd c o => some (c, atomReq o.a o.sz.bytes)
  | .redFadd c o => some (c, atomReq o.a o.sz.bytes)
  | .redAnd c o => some (c, atomReq o.a o.sz.bytes)
  | .redOr c o => some (c, atomReq o.a o.sz.bytes)
  | .redXor c o => some (c, atomReq o.a o.sz.bytes)
  | .redMin c o => some (c, atomReq o.a o.sz.bytes)
  | .redMax c o => some (c, atomReq o.a o.sz.bytes)
  | .redUmin c o => some (c, atomReq o.a o.sz.bytes)
  | .redUmax c o => some (c, atomReq o.a o.sz.bytes)
  | .casc c o => some (c, atomcReq o.a)
  | .decc c o => some (c, atomcReq o.a)
  | .coinit c a _ => some (c, objReq a)
  | .arrive c o => some (c, objReq o.a)
  | .expect c a _ => some (c, objReq a)
  | .waitph c o => some (c, objReq o.a)
  | .waitc c o => some (c, fun q k => ⟨q.grp.src Rd.raw o.a k, o.sz.bytes, false, true, false, .any, false, false⟩)
  | _ => none

/-- The byte at a home address with the dirty bytes of a cluster's copy over it. -/
def MemSys.merged (ms : MemSys) (cl a : Nat) : Byte :=
  match ms.cc.get? (ccKey cl (a / 64)) with
  | some x => if x.dirty.getLsbD (a % 64) then x.data.extractLsb' (8 * (a % 64)) 8 else ms.mem.byte a
  | none => ms.mem.byte a

/-- The byte of a cluster's copy, or the byte at home if it has none. -/
def MemSys.copied (ms : MemSys) (cl a : Nat) : Byte :=
  match ms.cc.get? (ccKey cl (a / 64)) with
  | some x => x.data.extractLsb' (8 * (a % 64)) 8
  | none => ms.mem.byte a

/-- A lane after a load: the bytes stand in the registers of its span, zero-extended, and nothing else has changed (06 R149). -/
structure Lane.Loads (l m : Lane) (d : Reg) (span : Nat) (t : Bool) (bytes : List Byte) : Prop where
  value : ∀ i < span, m.reg (d + BitVec.ofNat 6 i) = BitVec.ofNat 64 (leNat ((bytes.drop (8 * i)).take 8)) ∧
    m.tnt (d + BitVec.ofNat 6 i) = t
  others : ∀ r, (∀ i < span, r ≠ d + BitVec.ofNat 6 i) → m.reg r = l.reg r ∧ m.tnt r = l.tnt r
  rest : { m with regs := l.regs, taint := l.taint } = l

/-- A copy in flight that names an object of the block of a word at a scratch address (07 R188). -/
def State.inObject (s : State) (q : Cur) (a : Nat) : Prop :=
  ∃ p ∈ s.ms.copies, p.2.objs.contains q.id = true ∧ p.2.objOff ≤ a ∧ a < p.2.objOff + 16

/-- Everything a load does at issue (06 R143, R146, R147, R149, R150, R152, 11 R289). A lane that reads scratch or a TSO page, or whose word has an
acquire action, has its value at once; so has one whose bytes queued stores to another chip give. For every other lane acts
wait in the core, one for each aligned part of 8 bytes on this chip, and one on another chip (log 34). A load by a tainted address, or of a TSO
page, has its core forget what it has read ahead (06 R144, R152; log 113), and LDA leaves no copy in the cluster (06 R150). `past` says of a lane that it
reads past the cluster cache, `keep` that a miss fills it; `merges` that some lane has by then merged the cluster's copy of a
sector into its home. -/
def LoadEffect (s : State) (q : Cur) (i : Instr) (c : Ctl) (d : Reg) (sz : Size) (ea : Group → Nat → W64) (addr : Src)
    (ldb keep taintAll : Bool) (acq : Option AScope) : Prop :=
  let E := fun k => q.grp.runs q.slot c k
  let past := fun k => ldb || q.grp.srcTaint addr k
  let n := sz.bytes
  let chk := fun k => s.check q k (loadReq ea n q k)
  let t := fun k => taintAll || q.grp.srcTaint addr k
  let merges := fun (m sector : Nat) => ∃ j < m, E j = true ∧ acq.isSome = true ∧ ∃ leaf pa, chk j = .global leaf pa ∧
    placeOf s.fab.chip leaf pa = .cache ∧ pa / 64 = sector
  let held := s.queued q
  let ret := fun (k i : Nat) => (⟨k, some (d + BitVec.ofNat 6 i), t k, none, none⟩ : Ret)
  let holds := Cur.hold s q
  let acts := (q.active c).flatMap fun k =>
    match chk k with
    | .global leaf pa =>
      match placeOf s.fab.chip leaf pa with
      | .remote chip => if (covered held (some chip) pa n).isSome && !s.ownReadOut q k chip pa n then []
        else [holds k (ea q.grp k) none (acq.map fun a => (a, .sg)) (.rload chip pa n ((List.range sz.span).map (ret k)))]
      | p => if acq.isSome || pteTso leaf then []
        else (List.range sz.span).map fun i => holds k (ea q.grp k) none none (.load p (past k) keep (pa + 8 * i) (min 8 n) (ret k i))
    | _ => []
  ∃ u b h, exec i s = .next u ∧ Frame s u q b h false ∧ Holds s u q acts ∧
    q.grp.restIs { h with acqPend := q.grp.acqPend, ahead := q.grp.ahead } (q.grp.sb ||| spanMask d sz.span) q.grp.flg ∧
    (h.ahead = if (q.active c).any (fun k => q.grp.srcTaint addr k || !s.readsAhead (chk k)) then [] else q.grp.ahead) ∧
    h.acqPend = q.grp.acqPend + (if acq.isSome then acts.length else 0) ∧ q.grp.latchesShift h d ∧
    (∀ k, E k = false → h.lane k = q.grp.lane k) ∧
    (∀ k, E k = true →
      match chk k with
      | .scratch off => (q.grp.lane k).Loads (h.lane k) d sz.span (t k) (q.blk.st.scratch.bytes off n)
      | .global leaf pa =>
        (∀ chip, placeOf s.fab.chip leaf pa = .remote chip →
          (∀ l, covered held (some chip) pa n = some l → s.ownReadOut q k chip pa n = false →
            (q.grp.lane k).Loads (h.lane k) d sz.span (t k) l) ∧
          (covered held (some chip) pa n = none ∨ s.ownReadOut q k chip pa n = true → h.lane k = q.grp.lane k)) ∧
        (placeOf s.fab.chip leaf pa = .cache → acq.isSome = true → ldb = true → u.ms.cc.get? (ccKey q.blk.cl (pa / 64)) = none) ∧
        ((placeOf s.fab.chip leaf pa).chip? = none → acq = none → pteTso leaf = false → h.lane k = q.grp.lane k) ∧
        ((placeOf s.fab.chip leaf pa).chip? = none → acq.isSome = true ∨ pteTso leaf = true → ∃ l : List Byte, l.length = n ∧
          (∀ i (hi : i < l.length),
            (merges (k + 1) (pa / 64) → l[i] = s.ms.merged q.blk.cl (pa + i)) ∧
            (¬ merges (k + 1) (pa / 64) → l[i] = s.ms.mem.byte (pa + i))) ∧
          (q.grp.lane k).Loads (h.lane k) d sz.span (t k) (forward held none pa l))
      | _ => False) ∧
    ∀ a, (merges 32 (a / 64) → u.ms.mem.byte a = s.ms.merged q.blk.cl a) ∧
      (¬ merges 32 (a / 64) → u.ms.mem.byte a = s.ms.mem.byte a)

/-- Everything a store does at issue (06 R143, R147, R154, R156): scratch is written at once, the lowest lane first, and each global store is held in the
core; a release that meets a store to scratch is taken at once. -/
def StoreEffect (s : State) (q : Cur) (i : Instr) (c : Ctl) (n : Nat) (ea : Group → Nat → W64) (data : Nat → List Byte)
    (way : WriteWay) (rel : Option (AScope × SScope)) : Prop :=
  let E := fun k => q.grp.runs q.slot c k
  let chk := fun k => s.check q k (storeReq ea n q k)
  let hits := fun (k a : Nat) => E k = true ∧ ∃ off, chk k = .scratch off ∧ off ≤ a ∧ a < off + n
  let near := ∃ k off, E k = true ∧ chk k = .scratch off
  let wide := ∃ x, rel = some x ∧ near ∧ atLeastDev x.1 = true ∧ coversG x.2 = true
  (∀ x, rel = some x → near → s.drainDone q.blk q.id q.gi (s.clk q.blk.cl) (releaseAcks x.1) = true) →
  ∃ u b h, exec i s = .next u ∧ Frame s u q b h true ∧
    Holds s u q ((q.active c).filterMap fun k =>
      match chk k with
      | .global leaf pa => some (Cur.hold s q k (ea q.grp k) (rel.map fun a => (a.1, .sg)) none
          (.store (placeOf s.fab.chip leaf pa) way pa (data k)))
      | _ => none) ∧
    q.grp.restIs h q.grp.sb q.grp.flg ∧ q.grp.sameLatches h ∧ h.lanes = q.grp.lanes ∧
    (∀ a, ¬ s.inObject q a →
      ((∀ k, ¬ hits k a) → b.st.scratch.byte a = q.blk.st.scratch.byte a) ∧
      ∀ k off, E k = true → chk k = .scratch off → off ≤ a → a < off + n → (∀ j, k < j → ¬ hits j a) →
        b.st.scratch.byte a = (data k).getD (a - off) 0) ∧
    (wide → u.ms.mem = (s.ms.releaseDev q.blk.cl).mem) ∧ (¬ wide → u.ms.mem = s.ms.mem)

/-- Everything an ATOM or a RED does at issue (06 R147, R159, R160): a scratch location is changed at once, the lowest lane first, and gives its old value to
`d`; a global one is changed later, by the act that the core holds. -/
def AtomEffect (s : State) (q : Cur) (i : Instr) (c : Ctl) (fn : AFn) (d : Option Reg) (addr b cc : Src) (ord : Order) (asc : AScope)
    (ssc : SScope) (sz : Size) : Prop :=
  let g := q.grp
  let E := fun k => g.runs q.slot c k
  let n := sz.bytes
  let chk := fun k => s.check q k (atomReq addr n q k)
  let near := ∃ k off, E k = true ∧ chk k = .scratch off
  let t := fun k => g.srcTaint addr k || g.srcTaint b k || (fn == .cas && g.srcTaint cc k)
  let after := fun (off : Nat) (l : List Nat) => (l.filter fun j => chk j == .scratch off).foldl
    (fun (v : W64) j => atomNew fn (sz == .b8) v (g.src Rd.raw b j) (g.src Rd.raw cc j))
    (BitVec.ofNat 64 (leNat (q.blk.st.scratch.bytes off n)))
  let acq := if Order.isAcq ord then some (asc, ssc) else none
  let waits := Order.isRel ord = true ∧ (coversG ssc = true ∨ atLeastFab asc = true)
  let acts := (q.active c).filterMap fun k =>
    match chk k with
    | .global leaf pa =>
      let p := placeOf s.fab.chip leaf pa
      some (Cur.hold s q k (g.src Rd.raw addr k) (if waits then some (asc, ssc) else none) acq
        (.atom fn (if p = .cache ∧ atLeastDev asc = true then .l2 else p) pa (sz == .b8) (g.src Rd.raw b k) (g.src Rd.raw cc k)
          (d.map fun x => ⟨k, some x, t k, none, none⟩)))
    | _ => none
  let wide := Order.isRel ord = true ∧ near ∧ atLeastDev asc = true ∧ coversG ssc = true
  (∀ k off, E k = true → chk k = .scratch off → ∀ p ∈ s.ms.copies, p.2.objectIn q.id off n = false) →
  (waits → near → s.drainDone q.blk q.id q.gi (s.clk q.blk.cl) (releaseAcks asc) = true) →
  ∃ u bk h, exec i s = .next u ∧ Frame s u q bk h true ∧ Holds s u q acts ∧
    (match d with
      | some x => g.restIs { h with acqPend := g.acqPend } (g.sb ||| ((1 : W64) <<< x.toNat)) g.flg ∧ g.latchesShift h x
      | none => g.restIs { h with acqPend := g.acqPend } g.sb g.flg ∧ g.sameLatches h) ∧
    h.acqPend = g.acqPend + (if acq.isSome then acts.length else 0) ∧
    (∀ k, E k = false → h.lane k = g.lane k) ∧
    (∀ k, E k = true →
      match chk k, d with
      | .scratch off, some x => (g.lane k).OnlyReg (h.lane k) x (after off ((q.active c).filter fun j => decide (j < k))) (t k)
      | _, _ => h.lane k = g.lane k) ∧
    (∀ k off, E k = true → chk k = .scratch off → bk.st.scratch.bytes off n = leBytes (after off (q.active c)).toNat n) ∧
    (∀ a, (∀ k off, E k = true → chk k = .scratch off → a < off ∨ off + n ≤ a) → bk.st.scratch.byte a = q.blk.st.scratch.byte a) ∧
    (wide → u.ms.mem = (s.ms.releaseDev q.blk.cl).mem) ∧ (¬ wide → u.ms.mem = s.ms.mem)

/-- Everything an ATOMC does at issue (06 R165, R166): its acts wait in the core, and the group for their results, which are
scoreboarded, the register and the status predicates (02 R43). -/
def AtomcEffect (s : State) (q : Cur) (i : Instr) (c : Ctl) (d : Reg) (addr : Src) (pp : PPair) (asc : AScope) (ssc : SScope)
    (act : Nat → Place → Nat → Act) : Prop :=
  let g := q.grp
  let acts := (q.active c).filterMap fun k =>
    match s.check q k (atomcReq addr q k) with
    | .global leaf pa => some (Cur.hold s q k (g.src Rd.raw addr k) (some (asc, ssc)) (some (asc, ssc))
        (act k (placeOf s.fab.chip leaf pa) pa))
    | _ => none
  ∃ u b h, exec i s = .next u ∧ Frame s u q b h false ∧ Holds s u q acts ∧ acts.length = (q.active c).length ∧
    g.restIs { h with acqPend := g.acqPend, psb := g.psb } (g.sb ||| ((1 : W64) <<< d.toNat)) g.flg ∧ g.latchesShift h d ∧
    (∀ p : BitVec 3, p ≠ 7 → h.psb.getLsbD p.toNat = (g.psb.getLsbD p.toNat || p == (pairOf pp).1 || p == (pairOf pp).2)) ∧
    h.acqPend = g.acqPend + acts.length ∧ h.lanes = g.lanes ∧ u.ms.mem = s.ms.mem ∧
    (q.active c ≠ [] → b.prot.on = true → b.prot.sealed = true)

/-- The result of an atomic function at width `w` (06 R160, R161). -/
def AtomIs (fn : AFn) (f : FFmt) {w : Nat} (old b c new : BitVec w) : Prop :=
  match fn with
  | .add => new = old + b
  | .fadd => new = BitVec.ofNat w (f.add .rne false (f.decode old.toNat) (f.decode b.toNat)).bits
  | .and => new = old &&& b
  | .or => new = old ||| b
  | .xor => new = old ^^^ b
  | .min => new.toInt = min old.toInt b.toInt
  | .max => new.toInt = max old.toInt b.toInt
  | .umin => new.toNat = min old.toNat b.toNat
  | .umax => new.toNat = max old.toNat b.toNat
  | .exch => new = b
  | .cas => new = if old = b then c else old
  | .incw => new = if b.toNat ≤ old.toNat then 0 else old + 1

/-- A condition of WAITC on two values of a width (02 R58, 06 R168). -/
def WCondIs (cc : WCond) {w : Nat} (a b : BitVec w) : Prop :=
  match cc with
  | .eq => a = b
  | .ne => a ≠ b
  | .lt => a.toInt < b.toInt
  | .le => a.toInt ≤ b.toInt
  | .gt => b.toInt < a.toInt
  | .ge => b.toInt ≤ a.toInt
  | .any => a &&& b ≠ 0
  | .none => a &&& b = 0
  | .ltu => a.toNat < b.toNat
  | .leu => a.toNat ≤ b.toNat
  | .gtu => b.toNat < a.toNat
  | .geu => b.toNat ≤ a.toNat

/-- What a word that changes completion objects does (06 R173 to R175): each executing lane in ascending order changes its object by `f`. -/
structure ObjEffect (s u : State) (q : Cur) (c : Ctl) (a : Opnd) (f : Nat → Obj → Obj) (b : Block) (h : Group) : Prop where
  frame : Frame s u q b h true
  held : Holds s u q []
  objects : ∀ k off, q.grp.runs q.slot c k = true → s.check q k (objReq a q k) = .scratch off →
    b.st.obj off = ((q.active c).filter fun j => s.check q j (objReq a q j) == .scratch off).foldl (fun o j => f j o) (q.blk.st.obj off)
  bytes : ∀ x, (∀ k off, q.grp.runs q.slot c k = true → s.check q k (objReq a q k) = .scratch off → x < off ∨ off + 16 ≤ x) →
    b.st.scratch.byte x = q.blk.st.scratch.byte x
  mem : u.ms.mem = s.ms.mem

/-- A word completes that changes nothing but the slots and the stack top: what ends every word. -/
def Passes (s : State) (i : Instr) (q : Cur) : Prop :=
  ∃ h, exec i s = .next (s.putGrp q h) ∧ q.grp.restIs h q.grp.sb q.grp.flg ∧ q.grp.sameLatches h ∧ h.lanes = q.grp.lanes

/-- An operation of lane `k` has joined the open batch of a group, or begun one with the group's batch count as its number (07 R203, R204), and the word has done nothing else. -/
structure Joins (s : State) (q : Cur) (h : Group) (k : Nat) (mma : Bool) (op : MOp) (ranges : List (Nat × Nat × Bool)) : Prop where
  rest : q.grp.restIs { h with batches := q.grp.batches } q.grp.sb q.grp.flg
  latches : q.grp.sameLatches h
  lanes : h.lanes = q.grp.lanes
  closed : (h.batches.filter fun t => t.closed) = q.grp.batches.filter fun t => t.closed
  begins : (∀ t ∈ q.grp.batches, t.closed = true) → h.batches = q.grp.batches ++
    [{ num := q.grp.bcnt, closed := false, closedAt := 0, mmas := if mma then 1 else 0, ops := [((q.pc, k), s.clk q.blk.cl, op)], ranges := ranges,
       outs := [] }]
  goesOn : (∃ t ∈ q.grp.batches, t.closed = false) → (h.batches.filter fun t => !t.closed) =
    (q.grp.batches.filter fun t => !t.closed).map fun t =>
      { t with mmas := t.mmas + (if mma then 1 else 0), ops := t.ops ++ [((q.pc, k), s.clk q.blk.cl, op)], ranges := t.ranges ++ ranges }

/-! ### Terms -/

/-- The offset of an address in the scratch window (06 R140). -/
def scratchOf (a : W64) : Nat := a.toNat - 0x1FFFFE00000

/-- An eight-byte cell of the block's own scratchpad that nothing holds and no poison touches (06 R140, 07 R193, 21 R413). -/
structure State.Cell (s : State) (q : Cur) (a : W64) : Prop where
  aligned : a.toNat % 8 = 0
  base : 0x1FFFFE00000 ≤ a.toNat
  last : a.toNat ≤ 0x1FFFFFFFFFF
  below : scratchOf a + 8 ≤ q.blk.scratchSize
  free : s.rangeHeld q (scratchOf a) 8 true = false
  clean : q.blk.st.poisoned (scratchOf a) 8 = false

/-- No copy in flight names an object of the block (07 R188). -/
def State.NoObject (s : State) (q : Cur) : Prop := ∀ p ∈ s.ms.copies, p.2.objs.contains q.id = false

/-! ### Events -/

/-- The group with another wait in a slot. -/
def Group.withWait (g : Group) (z : Bool) (w : SWait) : Group := g.setSlot z { g.pcSlot z with wait := w }

/-- From outside its core one group has become `h`, and the memory system `ms`: no other group and no act held in a core has changed, nor anything
else but the states that a rewind goes back to, in which the group changes alike (21 R410). -/
structure GroupOnly (s t : State) (id gi : Nat) (h : Group) (ms : MemSys) : Prop where
  group : ∃ b, s.blocks.get? id = some b ∧ t.blocks = s.blocks.put id { b with st := b.st.setGroup gi h }
  held : ∀ cl co, (t.core cl co).held = (s.core cl co).held
  rest : { t with blocks := s.blocks, cores := s.cores } = { s with ms := ms }

/-- Of the cores one has become `c`. -/
def CoreOnly (s t : State) (cl co : Nat) (c : CoreState) : Prop :=
  t.core cl co = c ∧ ∀ k, k ≠ coreKey cl co → t.cores.getD k CoreState.init = s.cores.getD k CoreState.init

/-- A ready group of real work whose context has slots left; one that yielded counts only if every ready group did (08 R254, 09 R266). -/
def State.Eligible (s : State) (cl : Nat) (l : List Cand) (d : Cand) : Prop :=
  d ∈ l ∧ d.spec = none ∧ ((∃ e ∈ l, e.yielded = false) → d.yielded = false) ∧ (s.budget cl d.asid).used < (s.budget cl d.asid).ceil

/-- The groups among which age decides: those below their reservation, if there is one (09 R266). -/
def State.Pool (s : State) (cl : Nat) (l : List Cand) (d : Cand) : Prop :=
  s.Eligible cl l d ∧ ((∃ e, s.Eligible cl l e ∧ (s.budget cl e.asid).used < (s.budget cl e.asid).res) →
    (s.budget cl d.asid).used < (s.budget cl d.asid).res)

/-- The packet `w` at position `pos` is the next of the fetcher of slot `n`, which reads for queue `k`, and nothing holds it back (15 R315, R316). -/
structure State.Next (s : State) (n k : Nat) (x : Queue) (pos : Nat) (w : List W64) : Prop where
  fetch : s.fetching n = some (k, x)
  head : s.readHead x = .packet pos w
  free : s.barred k w = false

/-- CONS of a queue has gone up by one, and word 2 of its QCB holds the rest as before (15 R325). -/
def Advances (s t : State) (x : Queue) : Prop :=
  qCons (t.q2 x) = (qCons (s.q2 x) + 1) % 2 ^ 21 ∧ qResv (t.q2 x) = qResv (s.q2 x) ∧ qHeld (t.q2 x) = qHeld (s.q2 x)

/-- Memory outside the control block of a queue is as it was. -/
def OutsideQcb (s t : State) (x : Queue) : Prop := ∀ a, a < x.pa ∨ x.pa + 256 ≤ a → t.ms.mem.byte a = s.ms.mem.byte a

end Sys2Proof.Machine
end

