-- ==== Sys2Proof/Certificates/Slice0/Obligations.lean ====
section
/-! DEFINITION. The statements for the provers. -/

open Sys2Proof
open Sys2Proof.Machine

/-! ### Integer words -/

/-- 05 R106, R101, R13, R20: ADD, SUB, ADDS and SUBS write, in every sub-element of every executing lane, the sum or difference, wrapped
or clamped to the signed range; the taint is the OR of the operands' taints; nothing else of the group changes but latches, slots
and stack top. 05 R106: MIN, MAX, UMIN, UMAX and AVG in every sub-element; AVG is the floor of (a + b + 1) / 2, computed without wrap. 05 R106, R109, R111: NEG, ABS, MOV, NOT, BREV, POPC, CLZ and CTZ in every sub-element. 05 R106 to R108: LEA, SEL, MOVI and MOVHI. SEL takes the whole operand that its predicate chooses and the taint of both; MOVI
clears the taint; MOVHI replaces one slice of `d` and keeps the rest, taint included. -/
def Obligations.IntegerArithmetic : Prop :=
  (∀ (s : State) (q : Cur) (c : Ctl) (o : R2 IType), s.cur? = some q →
    let w := o.t.width
    let A := fun k j => sub w j (q.grp.opnd (.int o.t true) o.a k)
    let B := fun k j => sub w j (q.grp.opnd (.int o.t true) o.b k)
    let t := fun k => q.grp.opndTaint o.a k || q.grp.opndTaint o.b k
    let clamp := fun (x : Int) => max (-(2 ^ (w - 1) : Int)) (min (2 ^ (w - 1) - 1) x)
    Computes s (.add c o) q c o.d.r t (fun k v => ∀ j < 64 / w, sub w j v = A k j + B k j) ∧
    Computes s (.sub c o) q c o.d.r t (fun k v => ∀ j < 64 / w, sub w j v = A k j - B k j) ∧
    Computes s (.adds c o) q c o.d.r t (fun k v => ∀ j < 64 / w, (sub w j v).toInt = clamp ((A k j).toInt + (B k j).toInt)) ∧
    Computes s (.subs c o) q c o.d.r t (fun k v => ∀ j < 64 / w, (sub w j v).toInt = clamp ((A k j).toInt - (B k j).toInt))) ∧
  (∀ (s : State) (q : Cur) (c : Ctl) (o : R2 IType), s.cur? = some q →
    let w := o.t.width
    let A := fun sx k j => sub w j (q.grp.opnd (.int o.t sx) o.a k)
    let B := fun sx k j => sub w j (q.grp.opnd (.int o.t sx) o.b k)
    let t := fun k => q.grp.opndTaint o.a k || q.grp.opndTaint o.b k
    Computes s (.min c o) q c o.d.r t (fun k v => ∀ j < 64 / w, (sub w j v).toInt = min (A true k j).toInt (B true k j).toInt) ∧
    Computes s (.max c o) q c o.d.r t (fun k v => ∀ j < 64 / w, (sub w j v).toInt = max (A true k j).toInt (B true k j).toInt) ∧
    Computes s (.umin c o) q c o.d.r t (fun k v => ∀ j < 64 / w, (sub w j v).toNat = min (A false k j).toNat (B false k j).toNat) ∧
    Computes s (.umax c o) q c o.d.r t (fun k v => ∀ j < 64 / w, (sub w j v).toNat = max (A false k j).toNat (B false k j).toNat) ∧
    Computes s (.avg c o) q c o.d.r t
      (fun k v => ∀ j < 64 / w, (sub w j v).toInt = ((A true k j).toInt + (B true k j).toInt + 1) / 2)) ∧
  (∀ (s : State) (q : Cur) (c : Ctl) (o : R1 IType), s.cur? = some q →
    let w := o.t.width
    let A := fun sx k j => sub w j (q.grp.opnd (.int o.t sx) o.a k)
    let t := fun k => q.grp.opndTaint o.a k
    Computes s (.neg c o) q c o.d.r t (fun k v => ∀ j < 64 / w, sub w j v = -A true k j) ∧
    Computes s (.abs c o) q c o.d.r t
      (fun k v => ∀ j < 64 / w, sub w j v = if (A true k j).toInt < 0 then -A true k j else A true k j) ∧
    Computes s (.mov c o) q c o.d.r t (fun k v => v = q.grp.opnd (.int o.t false) o.a k) ∧
    Computes s (.not c o) q c o.d.r t (fun k v => v = ~~~ q.grp.opnd (.int o.t false) o.a k) ∧
    Computes s (.brev c o) q c o.d.r t
      (fun k v => ∀ j < 64 / w, ∀ i < w, (sub w j v).getLsbD i = (A false k j).getLsbD (w - 1 - i)) ∧
    Computes s (.popc c o) q c o.d.r t
      (fun k v => ∀ j < 64 / w, (sub w j v).toNat = (List.range w).countP fun i => (A false k j).getLsbD i) ∧
    Computes s (.clz c o) q c o.d.r t (fun k v => ∀ j < 64 / w,
      let n := (sub w j v).toNat
      n ≤ w ∧ (∀ i, w - n ≤ i → i < w → (A false k j).getLsbD i = false) ∧
        (n < w → (A false k j).getLsbD (w - 1 - n) = true)) ∧
    Computes s (.ctz c o) q c o.d.r t (fun k v => ∀ j < 64 / w,
      let n := (sub w j v).toNat
      n ≤ w ∧ (∀ i, i < n → (A false k j).getLsbD i = false) ∧ (n < w → (A false k j).getLsbD n = true))) ∧
  (∀ (s : State) (q : Cur) (c : Ctl), s.cur? = some q →
    (∀ o : RLea, Computes s (.lea c o) q c o.d.r (fun k => q.grp.opndTaint o.a k || q.grp.opndTaint o.b k) fun k v =>
      v.toNat = ((q.grp.opnd (.int .i64 true) o.a k).toNat + (q.grp.opnd (.int .i64 true) o.b k).toNat * 2 ^ o.k.toNat) % 2 ^ 64) ∧
    (∀ o : RSel, Computes s (.sel c o) q c o.d.r (fun k => q.grp.opndTaint o.a k || q.grp.opndTaint o.b k) fun k v =>
      v = if (q.grp.lane k).pr o.p.p != o.p.neg then q.grp.opnd (.int o.t false) o.a k else q.grp.opnd (.int o.t false) o.b k) ∧
    (∀ o : RMovi, Computes s (.movi c o) q c o.d.r (fun _ => false) fun _ v => v.toInt = o.imm.toInt) ∧
    ∀ o : RMovhi, Computes s (.movhi c o) q c o.d.r (fun k => (q.grp.lane k).tnt o.d.r) fun k v =>
      let lo := match o.j with
        | .j1 => 18
        | .j2 => 36
        | .j3 => 54
      ∀ i < 64, v.getLsbD i = if lo ≤ i ∧ i < lo + 18 then o.imm.getLsbD (i - lo) else ((q.grp.lane k).reg o.d.r).getLsbD i)

/-- 05 R109: MUL, MULH, UMULH and MAD: the low or the high half of the product of every pair of sub-elements. 05 R110, 02 R43: DIV, UDIV, REM and UREM never fault. A divisor of 0 gives all ones, or the dividend as the remainder; otherwise
the quotient is truncated toward zero (and wraps where the least number is divided by -1), and the remainder has the sign of the
dividend. The result is scoreboarded. -/
def Obligations.IntegerProducts : Prop :=
  (∀ (s : State) (q : Cur) (c : Ctl), s.cur? = some q →
    (∀ o : R2 IType,
      let w := o.t.width
      let A := fun sx k j => sub w j (q.grp.opnd (.int o.t sx) o.a k)
      let B := fun sx k j => sub w j (q.grp.opnd (.int o.t sx) o.b k)
      let t := fun k => q.grp.opndTaint o.a k || q.grp.opndTaint o.b k
      Computes s (.mul c o) q c o.d.r t (fun k v => ∀ j < 64 / w, sub w j v = A true k j * B true k j) ∧
      Computes s (.mulh c o) q c o.d.r t
        (fun k v => ∀ j < 64 / w, (sub w j v).toInt = (A true k j).toInt * (B true k j).toInt / 2 ^ w) ∧
      Computes s (.umulh c o) q c o.d.r t
        (fun k v => ∀ j < 64 / w, (sub w j v).toNat = (A false k j).toNat * (B false k j).toNat / 2 ^ w)) ∧
    ∀ o : R3 IType,
      let w := o.t.width
      let X := fun a k j => sub w j (q.grp.opnd (.int o.t true) a k)
      Computes s (.mad c o) q c o.d.r (fun k => q.grp.opndTaint o.a k || q.grp.opndTaint o.b k || q.grp.opndTaint o.c k)
        fun k v => ∀ j < 64 / w, sub w j v = X o.a k j * X o.b k j + X o.c k j) ∧
  (∀ (s : State) (q : Cur) (c : Ctl) (o : R2 IType), s.cur? = some q →
    let w := o.t.width
    let A := fun sx k j => sub w j (q.grp.opnd (.int o.t sx) o.a k)
    let B := fun sx k j => sub w j (q.grp.opnd (.int o.t sx) o.b k)
    let t := fun k => q.grp.opndTaint o.a k || q.grp.opndTaint o.b k
    ComputesVar s (.div c o) q c o.d.r t (fun k v => ∀ j < 64 / w,
      sub w j v = if B true k j = 0 then BitVec.allOnes w else BitVec.ofInt w ((A true k j).toInt.tdiv (B true k j).toInt)) ∧
    ComputesVar s (.udiv c o) q c o.d.r t (fun k v => ∀ j < 64 / w,
      (sub w j v).toNat = if B false k j = 0 then 2 ^ w - 1 else (A false k j).toNat / (B false k j).toNat) ∧
    ComputesVar s (.rem c o) q c o.d.r t (fun k v => ∀ j < 64 / w,
      (sub w j v).toInt = if B true k j = 0 then (A true k j).toInt else (A true k j).toInt.tmod (B true k j).toInt) ∧
    ComputesVar s (.urem c o) q c o.d.r t (fun k v => ∀ j < 64 / w,
      (sub w j v).toNat = if B false k j = 0 then (A false k j).toNat else (A false k j).toNat % (B false k j).toNat))

/-- 05 R111: its words but NOT, which is in IntegerArithmetic: the bitwise words AND, OR, XOR, ANDN and ORN. SHL, SHR, SAR and ROT take the count from the whole sub-element of b: a count of w or more gives 0, or every bit the
sign; ROT takes it modulo w. 05 R112: BFX, UBFX and BFI on the field that begins at b modulo 256 and has c modulo 256 bits, as far as it lies in the
sub-element. 05 R113: PACK keeps the low half of every sub-element, those of a below those of b; UNPK widens the elements of one half of a,
by zeros or by the sign. -/
def Obligations.BitWords : Prop :=
  (∀ (s : State) (q : Cur) (c : Ctl) (o : R2 IType), s.cur? = some q →
    let A := fun k => q.grp.opnd (.int o.t false) o.a k
    let B := fun k => q.grp.opnd (.int o.t false) o.b k
    let t := fun k => q.grp.opndTaint o.a k || q.grp.opndTaint o.b k
    Computes s (.and c o) q c o.d.r t (fun k v => v = A k &&& B k) ∧
    Computes s (.or c o) q c o.d.r t (fun k v => v = A k ||| B k) ∧
    Computes s (.xor c o) q c o.d.r t (fun k v => v = A k ^^^ B k) ∧
    Computes s (.andn c o) q c o.d.r t (fun k v => v = A k &&& ~~~ B k) ∧
    Computes s (.orn c o) q c o.d.r t (fun k v => v = A k ||| ~~~ B k)) ∧
  (∀ (s : State) (q : Cur) (c : Ctl) (o : R2 IType), s.cur? = some q →
    let w := o.t.width
    let A := fun sx k j => sub w j (q.grp.opnd (.int o.t sx) o.a k)
    let n := fun sx k j => (sub w j (q.grp.opnd (.int o.t sx) o.b k)).toNat
    let t := fun k => q.grp.opndTaint o.a k || q.grp.opndTaint o.b k
    Computes s (.shl c o) q c o.d.r t (fun k v => ∀ j < 64 / w, ∀ i < w,
      (sub w j v).getLsbD i = (decide (n false k j ≤ i) && (A false k j).getLsbD (i - n false k j))) ∧
    Computes s (.shr c o) q c o.d.r t (fun k v => ∀ j < 64 / w, ∀ i < w,
      (sub w j v).getLsbD i = (A false k j).getLsbD (i + n false k j)) ∧
    Computes s (.sar c o) q c o.d.r t (fun k v => ∀ j < 64 / w, (sub w j v).toInt = (A true k j).toInt / 2 ^ n true k j) ∧
    Computes s (.rot c o) q c o.d.r t (fun k v => ∀ j < 64 / w, ∀ i < w,
      (sub w j v).getLsbD ((i + n false k j) % w) = (A false k j).getLsbD i)) ∧
  (∀ (s : State) (q : Cur) (c : Ctl) (o : R3 IType), s.cur? = some q →
    let w := o.t.width
    let X := fun sx a k j => sub w j (q.grp.opnd (.int o.t sx) a k)
    let pos := fun sx k j => (X sx o.b k j).toNat % 256
    let len := fun sx k j => min ((X sx o.c k j).toNat % 256) (w - pos sx k j)
    let t := fun k => q.grp.opndTaint o.a k || q.grp.opndTaint o.b k || q.grp.opndTaint o.c k
    Computes s (.ubfx c o) q c o.d.r t (fun k v => ∀ j < 64 / w, ∀ i < w,
      (sub w j v).getLsbD i = (decide (i < len false k j) && (X false o.a k j).getLsbD (pos false k j + i))) ∧
    Computes s (.bfx c o) q c o.d.r t (fun k v => ∀ j < 64 / w, ∀ i < w,
      (sub w j v).getLsbD i =
        (decide (len true k j ≠ 0) && (X true o.a k j).getLsbD (pos true k j + min i (len true k j - 1)))) ∧
    Computes s (.bfi c o) q c o.d.r (fun k => (q.grp.lane k).tnt o.d.r || t k) (fun k v => ∀ j < 64 / w, ∀ i < w,
      (sub w j v).getLsbD i =
        if pos false k j ≤ i ∧ i < pos false k j + len false k j then (X false o.a k j).getLsbD (i - pos false k j)
        else (sub w j ((q.grp.lane k).reg o.d.r)).getLsbD i)) ∧
  (∀ (s : State) (q : Cur) (c : Ctl), s.cur? = some q →
    (∀ o : R2 IType,
      let h := o.t.width / 2
      let n := 64 / o.t.width
      Computes s (.pack c o) q c o.d.r (fun k => q.grp.opndTaint o.a k || q.grp.opndTaint o.b k) fun k v => ∀ j < n,
        sub h j v = (sub o.t.width j (q.grp.opnd (.int o.t false) o.a k)).setWidth h ∧
        sub h (n + j) v = (sub o.t.width j (q.grp.opnd (.int o.t false) o.b k)).setWidth h) ∧
    ∀ o : RUnpk,
      let w := o.t.width
      let h := w / 2
      Computes s (.unpk c o) q c o.d.r (fun k => q.grp.opndTaint o.a k) fun k v => ∀ j < 64 / w,
        let a := q.grp.opnd (.int o.t false) o.a k
        sub w j v = match o.x with
          | .lz => (sub h j a).setWidth w
          | .ls => (sub h j a).signExtend w
          | .hz => (a.extractLsb' (32 + h * j) h).setWidth w
          | .hs => (a.extractLsb' (32 + h * j) h).signExtend w)

/-! ### Predicates -/

/-- 05 R114, 02 R58: CMP and UCMP write whether the condition holds in every sub-element, read as signed or unsigned numbers. 05 R115, 02 R58: FCMP holds if the condition holds in every sub-element: a NaN is unordered, two zeros are equal; a signalling NaN
in an executing lane raises NV, and no other flag is raised. 05 R116, R117, 02 R57: the predicate words, over predicate operands that may be negated; PSET tests all 64 bits; PGET shows p0 to
p6, a 1 for p7, and zeros, with taint 0. -/
def Obligations.Comparisons : Prop :=
  (∀ (s : State) (q : Cur) (c : Ctl) (o : PCmp IType Cond), s.cur? = some q →
    let w := o.t.width
    let A := fun sx k j => sub w j (q.grp.opnd (.int o.t sx) o.a k)
    let B := fun sx k j => sub w j (q.grp.opnd (.int o.t sx) o.b k)
    Decides s (.cmp c o) q c o.p (fun k v => v = true ↔ ∀ j < 64 / w,
      CondIs o.cc (A true k j).toInt (B true k j).toInt (∃ i < w, (A true k j).getLsbD i = true ∧ (B true k j).getLsbD i = true)) ∧
    Decides s (.ucmp c o) q c o.p (fun k v => v = true ↔ ∀ j < 64 / w,
      CondIs o.cc (A false k j).toNat (B false k j).toNat
        (∃ i < w, (A false k j).getLsbD i = true ∧ (B false k j).getLsbD i = true))) ∧
  (∀ (s : State) (q : Cur) (c : Ctl) (o : PCmp FType FCond), s.cur? = some q →
    let f := fmtOf o.t
    let A := fun k j => fsub f q.blk.ftz j (q.grp.opnd (.flt o.t) o.a k)
    let B := fun k j => fsub f q.blk.ftz j (q.grp.opnd (.flt o.t) o.b k)
    let less := fun (x y : FVal) => x.isNan = false ∧ y.isNan = false ∧ x.cmp y = some .lt
    let same := fun (x y : FVal) => x.isNan = false ∧ y.isNan = false ∧ x.cmp y = some .eq
    let more := fun (x y : FVal) => x.isNan = false ∧ y.isNan = false ∧ x.cmp y = some .gt
    let unord := fun (x y : FVal) => x.isNan = true ∨ y.isNan = true
    ∃ h v fl, exec (.fcmp c o) s = .next (s.putGrp q h) ∧ PredEffect q c o.p (q.grp.flg ||| fl) v h ∧
      (fl = if ∃ k ∈ q.active c, ∃ j < 64 / f.width, A k j = .nan true ∨ B k j = .nan true then flNV else 0) ∧
      ∀ k, q.grp.runs q.slot c k = true → (v k = true ↔ ∀ j < 64 / f.width,
        match o.cc with
        | .eq => same (A k j) (B k j)
        | .ne => ¬ same (A k j) (B k j)
        | .lt => less (A k j) (B k j)
        | .le => less (A k j) (B k j) ∨ same (A k j) (B k j)
        | .gt => more (A k j) (B k j)
        | .ge => more (A k j) (B k j) ∨ same (A k j) (B k j)
        | .un => unord (A k j) (B k j)
        | .ord => ¬ unord (A k j) (B k j))) ∧
  (∀ (s : State) (q : Cur) (c : Ctl), s.cur? = some q →
    let x := fun (p : PredOp) k => (q.grp.lane k).pr p.p != p.neg
    (∀ o : PLog2,
      Decides s (.pand c o) q c o.p (fun k v => v = (x o.q k && x o.s k)) ∧
      Decides s (.por c o) q c o.p (fun k v => v = (x o.q k || x o.s k)) ∧
      Decides s (.pxor c o) q c o.p (fun k v => v = xor (x o.q k) (x o.s k))) ∧
    (∀ o : PLog1,
      Decides s (.pnot c o) q c o.p (fun k v => v = !x o.q k) ∧ Decides s (.pmov c o) q c o.p (fun k v => v = x o.q k)) ∧
    (∀ o : P1, Decides s (.pset c o) q c o.p fun k v => v = true ↔ q.grp.opnd (.int .i64 false) o.a k ≠ 0) ∧
    ∀ d : Dst, Computes s (.pget c d) q c d.r (fun _ => false) fun k v => ∀ i < 64,
      v.getLsbD i = (decide (i < 8) && (q.grp.lane k).pr (BitVec.ofNat 3 i)))

/-! ### Float words -/

/-- 05 R118, R119, R105: FADD, FSUB, FMUL, FMA, FMIN and FMAX compute in every sub-element by the arithmetic of the format, rounded once to
nearest; their flags are ORed into FLG, and a tiny result takes the group to the assist routine. 05 R120 to R123: FNEG, FABS, FCLASS, FROUND and FSCALE; FSCALE reads its second operand as signed integers of the width of the
format, which is the model's choice for f64 (log 85). The sums and products of finite values are in FloatRounding. 05 R124, R125: the FSFU words compute in every sub-element; their results are of variable latency, so they are scoreboarded. -/
def Obligations.FloatWords : Prop :=
  (∀ (s : State) (q : Cur) (c : Ctl), s.cur? = some q →
    let z := q.blk.ftz
    (∀ o : R2 FType,
      let f := fmtOf o.t
      let A := fun k j => fsub f z j (q.grp.opnd (.flt o.t) o.a k)
      let B := fun k j => fsub f z j (q.grp.opnd (.flt o.t) o.b k)
      let res := fun (g : Nat → Nat → FRes) k => packF f.width (q.grp.opndTaint o.a k || q.grp.opndTaint o.b k) (g k)
      ComputesF s (.fadd c o) q c o.d.r false (res fun k j => f.add .rne z (A k j) (B k j)) ∧
      ComputesF s (.fsub c o) q c o.d.r false (res fun k j => f.add .rne z (A k j) (B k j).neg) ∧
      ComputesF s (.fmul c o) q c o.d.r false (res fun k j => f.mul z (A k j) (B k j)) ∧
      ComputesF s (.fmin c o) q c o.d.r false (res fun k j => f.minmax false z (A k j) (B k j)) ∧
      ComputesF s (.fmax c o) q c o.d.r false (res fun k j => f.minmax true z (A k j) (B k j))) ∧
    ∀ o : R3 FType,
      let f := fmtOf o.t
      let X := fun a k j => fsub f z j (q.grp.opnd (.flt o.t) a k)
      ComputesF s (.fma c o) q c o.d.r false fun k =>
        packF f.width (q.grp.opndTaint o.a k || q.grp.opndTaint o.b k || q.grp.opndTaint o.c k)
          fun j => f.fma z (X o.a k j) (X o.b k j) (X o.c k j)) ∧
  (∀ (s : State) (q : Cur) (c : Ctl), s.cur? = some q →
    let z := q.blk.ftz
    (∀ o : R1 FType,
      let f := fmtOf o.t
      let x := fun k => q.grp.opnd (.flt o.t) o.a k
      let res := fun (g : Nat → Nat → FRes) k => packF f.width (q.grp.opndTaint o.a k) (g k)
      ComputesF s (.fneg c o) q c o.d.r false (res fun k j => f.ofVal .rne z (fsub f z j (x k)).neg) ∧
      ComputesF s (.fabs c o) q c o.d.r false (res fun k j => f.absOp z (fsub f z j (x k))) ∧
      ComputesF s (.fclass c o) q c o.d.r false (res fun k j => f.classify (sub f.width j (x k)).toNat)) ∧
    (∀ o : RFround,
      let f := fmtOf o.t
      ComputesF s (.fround c o) q c o.d.r false fun k => packF f.width (q.grp.opndTaint o.a k) fun j =>
        f.integral o.m z (fsub f z j (q.grp.opnd (.flt o.t) o.a k))) ∧
    ∀ o : R2 FType,
      let f := fmtOf o.t
      ComputesF s (.fscale c o) q c o.d.r false fun k =>
        packF f.width (q.grp.opndTaint o.a k || q.grp.opndTaint o.b k) fun j =>
          f.scale z (fsub f z j (q.grp.opnd (.flt o.t) o.a k)) (sub f.width j (q.grp.opnd (.int (scaleType o.t) true) o.b k)).toInt) ∧
  (∀ (s : State) (q : Cur) (c : Ctl), s.cur? = some q →
    let z := q.blk.ftz
    (∀ o : R1 FType,
      let f := fmtOf o.t
      let res := fun (g : FVal → FRes) k => packF f.width (q.grp.opndTaint o.a k) fun j => g (fsub f z j (q.grp.opnd (.flt o.t) o.a k))
      ComputesF s (.frcp c o) q c o.d.r true (res (f.rcp z)) ∧ ComputesF s (.frsq c o) q c o.d.r true (res (f.rsq z)) ∧
      ComputesF s (.fsqrt c o) q c o.d.r true (res (f.sqrt z)) ∧ ComputesF s (.fexp2 c o) q c o.d.r true (res (f.exp2 z)) ∧
      ComputesF s (.flog2 c o) q c o.d.r true (res (f.log2 z)) ∧ ComputesF s (.fsin c o) q c o.d.r true (res (f.trig false z)) ∧
      ComputesF s (.fcos c o) q c o.d.r true (res (f.trig true z)) ∧ ComputesF s (.ftanh c o) q c o.d.r true (res (f.tanh z))) ∧
    ∀ o : R2 FType,
      let f := fmtOf o.t
      ComputesF s (.fdiv c o) q c o.d.r true fun k =>
        packF f.width (q.grp.opndTaint o.a k || q.grp.opndTaint o.b k) fun j =>
          f.div z (fsub f z j (q.grp.opnd (.flt o.t) o.a k)) (fsub f z j (q.grp.opnd (.flt o.t) o.b k)))

/-- 03 R69: rounding `m` times 2 to the `e` to a multiple `n` of 2 to the `q` is exact where the value is such a multiple, and loses bits exactly
if it is not; to nearest, the error is at most half a unit, and a tie takes the even multiple; toward zero, the multiple does not exceed the value; away
from zero, it is not below the value; every mode keeps the error below one unit. 03 R70, R71, R73, R74: a result whose rounded magnitude is above the largest finite value of its format overflows: OF and NX are set,
E4M3 saturates, and the other formats give an infinity in the modes that round it so, and else the largest finite value. A canonical NaN
has sign 0. 03 R69, R73, R75, R77: a nonzero value of a format is rounded to its precision, but not below the unit of its subnormals. It is tiny if
its magnitude, rounded to the precision with no bound on the exponent, is below the least normal number. Under flush to zero a tiny result of a format
wider than 8 bits is a zero with UF and NX. Otherwise NX says that bits were lost, UF that a tiny result lost bits, and the assist routine is called for
a tiny result of such a format. 05 R118: the sum, the product and the fused sum of finite values are the exact ones, rounded once; a sum of zeros is
negative where both are, and another sum of 0 is positive. -/
def Obligations.FloatRounding : Prop :=
  (∀ (m : Nat) (e q : Int) (neg : Bool) (rm : RMode), q ≤ e → roundAt rm neg m e q = (m * 2 ^ (e - q).toNat, false)) ∧
  (∀ (m : Nat) (e q : Int) (neg : Bool), e < q →
    let u := 2 ^ (q - e).toNat
    let r := fun rm => (roundAt rm neg m e q).1
    (∀ rm, (roundAt rm neg m e q).2 = decide (m % u ≠ 0)) ∧
    (∀ rm, r rm * u < m + u ∧ m < r rm * u + u) ∧
    (2 * (r .rne * u) ≤ 2 * m + u ∧ 2 * m ≤ 2 * (r .rne * u) + u) ∧
    (2 * (m % u) = u → r .rne % 2 = 0) ∧
    r .rz * u ≤ m ∧
    (neg = false → m ≤ r .ru * u ∧ r .rd * u ≤ m) ∧ (neg = true → r .ru * u ≤ m ∧ m ≤ r .rd * u)) ∧
  (∀ (f : FFmt) (rm : RMode) (neg : Bool),
    (f.overflow rm neg).fl = flOF ||| flNX ∧ (f.overflow rm neg).assist = false ∧
    (f.overflow rm neg).bits = f.signed neg
      (if f = .e4m3 then f.maxBits
       else match rm with
         | .rne => f.maxBits + 1
         | .rz => f.maxBits
         | .ru => if neg then f.maxBits else f.maxBits + 1
         | .rd => if neg then f.maxBits + 1 else f.maxBits) ∧
    (f.decode f.maxBits).isNan = false ∧
    (f ≠ .e4m3 → f.decode (f.signed neg (f.maxBits + 1)) = .inf neg) ∧
    f.decode f.nan = .nan false ∧ f.nan.testBit (f.width - 1) = false) ∧
  (∀ (f : FFmt) (rm : RMode) (ftz neg : Bool) (m : Nat) (e : Int), m ≠ 0 →
    let p : Int := f.fbits
    let emin : Int := 1 - (f.bias : Int)
    let top : Int := (Nat.log2 m : Int) + e
    let q := max top emin - p
    let n := roundAt rm neg m e q
    let x : Rat := (n.1 : Rat) * 2 ^ q
    let tiny := ((roundAt rm neg m e (top - p)).1 : Rat) * 2 ^ (top - p) < 2 ^ emin
    let r := f.round rm ftz neg m e
    (tiny ∧ ftz = true ∧ f.fp8 = false → r = ⟨f.signed neg 0, flUF ||| flNX, false⟩) ∧
    (¬ (tiny ∧ ftz = true ∧ f.fp8 = false) →
      (∃ k g, f.decode f.maxBits = .fin false k g ∧ ((k : Rat) * 2 ^ g < x → r = f.overflow rm neg) ∧
        (x ≤ (k : Rat) * 2 ^ g → (∃ (i : Nat) (j : Int), f.decode r.bits = .fin neg i j ∧ (i : Rat) * 2 ^ j = x) ∧
          (r.fl.getLsbD 0 = true ↔ n.2 = true) ∧ (r.fl.getLsbD 1 = true ↔ tiny ∧ n.2 = true) ∧ r.fl &&& ~~~(flUF ||| flNX) = 0 ∧
          (r.assist = true ↔ tiny ∧ f.fp8 = false))))) ∧
  ∀ (f : FFmt) (rm : RMode) (z a b : Bool) (m n : Nat) (e k : Int),
    let val := fun (neg : Bool) (m : Nat) (e : Int) => (if neg then -1 else 1 : Rat) * m * 2 ^ e
    let rounds := fun (rm : RMode) (r : FRes) (v : Rat) => ∃ (i : Nat) (j : Int), i ≠ 0 ∧ (i : Rat) * 2 ^ j = |v| ∧ r = f.round rm z (decide (v < 0)) i j
    let sum := val a m e + val b n k
    (sum ≠ 0 → rounds rm (f.add rm z (.fin a m e) (.fin b n k)) sum) ∧
    (sum = 0 → f.add rm z (.fin a m e) (.fin b n k) = f.zero (decide (m = 0 ∧ n = 0) && a && b)) ∧
    (val a m e * val b n k ≠ 0 → rounds .rne (f.mul z (.fin a m e) (.fin b n k)) (val a m e * val b n k)) ∧
    (val a m e * val b n k = 0 → f.mul z (.fin a m e) (.fin b n k) = f.zero (a != b)) ∧
    ∀ (c : Bool) (l : Nat) (h : Int),
      let v := val a m e * val b n k + val c l h
      (v ≠ 0 → rounds .rne (f.fma z (.fin a m e) (.fin b n k) (.fin c l h)) v) ∧
      (v = 0 → f.fma z (.fin a m e) (.fin b n k) (.fin c l h) = f.zero (decide (m * n = 0 ∧ l = 0) && (a != b) && c))

/-! ### Conversions -/

/-- 03 R72, 05 R127 to R129: CVT converts every element by its pair of formats into a register of the destination's width; a conversion from
a float to an integer goes to the nearest bound and sets NV if it is out of range, to 0 and NV for a NaN, and an integer to an integer is
clamped; the flags of every element are ORed into FLG. 05 R130 to R132, 03 R68: QPACK shifts into `d`, from the low end, the index of the codebook
entry nearest each product, the lower on a tie; QUNPK expands nibble n·g + i to the codebook's value; PLANE gathers bit p of every sub-element,
and UNPLANE scatters a row of bits into bit p and keeps the rest; an inline constant as the row is filled by the word's type (the model's choice,
log 125). Every one of them completes in every state with a word in focus. -/
def Obligations.ConversionWords : Prop :=
  (∀ (s : State) (q : Cur) (c : Ctl) (o : RCvt), s.cur? = some q →
    let src := cvtKind o.src
    let dst := cvtKind o.dst
    let n := 64 / max src.width dst.width
    let A := fun k j => ((q.grp.opnd (.int .i64 false) o.a k).extractLsb' (src.width * j) src.width).toNat
    (∃ r : Nat → LaneRes, ComputesF s (.cvt c o) q c o.d.r false r ∧ ∀ k,
      (r k).t = q.grp.opndTaint o.a k ∧
      (∀ j < n, sub dst.width j (r k).v = BitVec.ofNat dst.width (cvtElem dst src o.m q.blk.ftz (A k j)).bits) ∧
      (∀ i, dst.width * n ≤ i → (r k).v.getLsbD i = false) ∧
      (∀ i, (r k).fl.getLsbD i = true ↔ ∃ j < n, (cvtElem dst src o.m q.blk.ftz (A k j)).fl.getLsbD i = true) ∧
      ((r k).assist = true ↔ ∃ j < n, (cvtElem dst src o.m q.blk.ftz (A k j)).assist = true)) ∧
    (∀ f g rm z b, cvtElem (.flt g) (.flt f) rm z b = match f.read z b with
      | .inf neg => g.infinity neg (if g = .e4m3 then flNX else 0)
      | v => g.ofVal rm z v) ∧
    (∀ f w sg rm z b, cvtElem (.int w sg) (.flt f) rm z b = toInteger w sg rm (f.read z b)) ∧
    (∀ g w sg rm z b, let x : Int := if sg then (BitVec.ofNat w b).toInt else (b : Int)
      cvtElem (.flt g) (.int w sg) rm z b = g.deliver rm z (decide (x < 0)) x.natAbs 0) ∧
    (∀ v tg w sg rm z b, let x : Int := if sg then (BitVec.ofNat w b).toInt else (b : Int)
      let lo : Int := if tg then -(2 ^ (v - 1) : Int) else 0
      let hi : Int := if tg then (2 ^ (v - 1) : Int) - 1 else (2 ^ v : Int) - 1
      cvtElem (.int v tg) (.int w sg) rm z b = ⟨(BitVec.ofInt v (max lo (min hi x))).toNat, 0, false⟩) ∧
    (∀ w sg rm sig, toInteger w sg rm (.nan sig) = ⟨0, flNV, false⟩) ∧
    ∀ w sg rm neg m e,
      let x := (roundAt rm neg m e 0).1
      let y : Int := if neg then -(x : Int) else x
      toInteger w sg rm (.fin neg m e) =
        if y < intLo w sg then ⟨intBits w (intLo w sg), flNV, false⟩
        else if intHi w sg < y then ⟨intBits w (intHi w sg), flNV, false⟩
        else ⟨intBits w y, if (roundAt rm neg m e 0).2 then flNX else 0, false⟩) ∧
  (codebook = [-256, -190, -145, -110, -80, -53, -26, 0, 22, 45, 70, 98, 130, 168, 211, 256] ∧ (∀ sig, nearest (.nan sig) = 7) ∧
    nearest (.inf false) = 15 ∧ nearest (.inf true) = 0 ∧ ∀ neg m e,
      let u := min e (-8)
      let y : Int := (if neg then -(m : Int) else m) * 2 ^ (e - u).toNat
      let far := fun (i : Nat) => (y - codebook.getD i 0 * 2 ^ (-8 - u).toNat).natAbs
      let n := nearest (.fin neg m e)
      n < 16 ∧ ∀ i < 16, far n ≤ far i ∧ (far i = far n → n ≤ i)) ∧
  (∀ (s : State) (q : Cur) (c : Ctl), s.cur? = some q →
    (∀ o : R2 FType,
      let f := fmtOf o.t
      let n := 64 / f.width
      Computes s (.qpack c o) q c o.d.r (fun k => (q.grp.lane k).tnt o.d.r || q.grp.opndTaint o.a k || q.grp.opndTaint o.b k)
        fun k v =>
          (∀ j < n, (v.extractLsb' (4 * j) 4).toNat =
            nearest ((fsub f q.blk.ftz j (q.grp.opnd (.flt o.t) o.a k)).mul
              (fsub .f32 q.blk.ftz 0 (q.grp.opnd (.flt .f32x2) o.b k))).1) ∧
          ∀ i, 4 * n ≤ i → i < 64 → v.getLsbD i = ((q.grp.lane k).reg o.d.r).getLsbD (i - 4 * n)) ∧
    (∀ o : RRaw FType,
      let f := fmtOf o.t
      let n := 64 / f.width
      Computes s (.qunpk c o) q c o.d.r (fun k => q.grp.opndTaint o.a k) fun k v => ∀ j < n,
        let x := codebook.getD ((q.grp.opnd (.flt o.t) o.a k).extractLsb' (4 * (n * o.k.toNat + j)) 4).toNat 0
        sub f.width j v = BitVec.ofNat f.width (f.deliver .rne false (decide (x < 0)) x.natAbs (-8)).bits) ∧
    ∀ o : RRaw IType, o.k.toNat < o.t.width →
      let w := o.t.width
      Computes s (.plane c o) q c o.d.r (fun k => q.grp.opndTaint o.a k)
        (fun k v => ∀ i < 64, v.getLsbD i =
          (decide (i < 64 / w) && (q.grp.opnd (.int o.t false) o.a k).getLsbD (w * i + o.k.toNat))) ∧
      Computes s (.unplane c o) q c o.d.r (fun k => (q.grp.lane k).tnt o.d.r || q.grp.opndTaint o.a k)
        (fun k v => ∀ i < 64, v.getLsbD i =
          if i % w = o.k.toNat then (q.grp.opnd (.int o.t false) o.a k).getLsbD (i / w)
          else ((q.grp.lane k).reg o.d.r).getLsbD i))

/-! ### Words across lanes -/

/-- 05 R133, R134, R136, R137: SHFL, SHFLX, BCAST, VOTE, MATCH and CXCH. A position that holds no lane reads as 0; the taint is the OR over
every position that holds a lane. 05 R135, R137: REDL combines the executing lanes in the tree of R135, SCANL in ascending order; add, and, or and xor
are stated besides as the sum, modulo two to the width, or the combination of every bit. What a float operation delivers has gone through the float
unit, and its flags are the OR over the combinations made (the model's choice for those that no lane receives, log 87). An inline constant as
the lane number is filled like every operand of the word's type (the model's choice, log 125). Every one of them
completes in every state with a word in focus. -/
def Obligations.LaneWords : Prop :=
  (∀ (s : State) (q : Cur) (c : Ctl), s.cur? = some q →
    let here := fun k => (q.grp.lane k).present
    let E := fun k => q.grp.runs q.slot c k
    let low := (q.active c).headD 0
    (∀ o : R2 IType,
      let A := fun k => if here k then q.grp.opnd (.int o.t false) o.a k else 0
      let b := fun k => (q.grp.opnd (.int o.t false) o.b k).toNat % 32
      let t := fun (_ : Nat) => (List.range 32).any fun k => here k && (q.grp.opndTaint o.a k || q.grp.opndTaint o.b k)
      Computes s (.shfl c o) q c o.d.r t (fun k v => v = A (b k)) ∧
      Computes s (.shflx c o) q c o.d.r t (fun k v => v = A (k ^^^ b k)) ∧
      Computes s (.bcast c o) q c o.d.r t (fun _ v => v = A (b low))) ∧
    (∀ o : R2 IType,
      let w := o.t.width
      let A := fun k => q.grp.opnd (.int o.t true) o.a k
      let B := fun k => q.grp.opnd (.int o.t true) o.b k
      let t := fun (_ : Nat) => (List.range 32).any fun k => here k && (q.grp.opndTaint o.a k || q.grp.opndTaint o.b k)
      Computes s (.cxch c o) q c o.d.r t fun k v =>
        let p := k ^^^ ((B k).toNat % 32)
        if p = k ∨ E p = false ∨ (B p).toNat % 64 ≠ (B k).toNat % 64 then v = A k
        else if xor (decide (k < p)) ((B k).getLsbD 5) then
          ∀ j < 64 / w, (sub w j v).toInt = min (sub w j (A k)).toInt (sub w j (A p)).toInt
        else ∀ j < 64 / w, (sub w j v).toInt = max (sub w j (A k)).toInt (sub w j (A p)).toInt) ∧
    ∀ o : RD1,
      let a := fun k => q.grp.opnd (.int .i64 false) o.a k
      let t := fun (_ : Nat) => (List.range 32).any fun k => here k && q.grp.opndTaint o.a k
      Computes s (.vote c o) q c o.d.r t
        (fun _ v => ∀ m < 64, v.getLsbD m = (decide (m < 32) && E m && decide (a m ≠ 0))) ∧
      Computes s (.matchL c o) q c o.d.r t
        (fun k v => ∀ m < 64, v.getLsbD m = (decide (m < 32) && E m && decide (a m = a k)))) ∧
  (∀ (s : State) (q : Cur) (c : Ctl) (o : RLane), s.cur? = some q →
    let E := fun k => q.grp.runs q.slot c k
    let a := fun k => q.grp.opnd (laneOpRd o.op) o.a k
    let t := (List.range 32).any fun k => (q.grp.lane k).present && q.grp.opndTaint o.a k
    let sum := fun (w j : Nat) (l : List Nat) => l.foldl (fun x k => x + sub w j (a k)) 0
    let bits := fun (f : Bool → Bool → Bool) (u : Bool) (i : Nat) (l : List Nat) => l.foldl (fun x k => f x ((a k).getLsbD i)) u
    let input := fun (k : Nat) => if E k then some (LaneRes.int (a k) false) else none
    let scan := fun (l : List Nat) => l.foldl (fun x k => laneOpOpt o.op q.blk.ftz x (input k)) none
    let given := fun (l : List Nat) => (scan l).elim (LaneRes.int 0 false) (laneOpDeliver o.op q.blk.ftz)
    (∃ r : Nat → LaneRes, ComputesF s (.redl c o) q c o.d.r false r ∧ ∀ k, E k = true → (r k).t = t ∧
      match o.op with
      | .int .add ty => ∀ j < 64 / ty.width, sub ty.width j (r k).v = sum ty.width j (q.active c)
      | .int .and _ => ∀ i < 64, (r k).v.getLsbD i = bits (fun x y => x && y) true i (q.active c)
      | .int .or _ => ∀ i < 64, (r k).v.getLsbD i = bits (fun x y => x || y) false i (q.active c)
      | .int .xor _ => ∀ i < 64, (r k).v.getLsbD i = bits xor false i (q.active c)
      | _ => ∃ x, redTree (laneOpOpt o.op q.blk.ftz) input 5 0 = some x ∧ (r k).v = (laneOpDeliver o.op q.blk.ftz x).v ∧
          (r k).fl = (laneOpDeliver o.op q.blk.ftz x).fl ∧ (r k).assist = (laneOpDeliver o.op q.blk.ftz x).assist) ∧
    ∃ r : Nat → LaneRes, ComputesF s (.scanl c o) q c o.d.r false r ∧ ∀ k, E k = true →
      let upto := (q.active c).filter fun j => decide (j < k) || (!o.excl && decide (j = k))
      (r k).t = t ∧
      match o.op with
      | .int .add ty => ∀ j < 64 / ty.width, sub ty.width j (r k).v = sum ty.width j upto
      | .int .and _ => upto ≠ [] → ∀ i < 64, (r k).v.getLsbD i = bits (fun x y => x && y) true i upto
      | .int .or _ => ∀ i < 64, (r k).v.getLsbD i = bits (fun x y => x || y) false i upto
      | .int .xor _ => ∀ i < 64, (r k).v.getLsbD i = bits xor false i upto
      | _ => (r k).v = (given upto).v ∧ (r k).fl = (given (q.active c)).fl ||| (given upto).fl ∧
          (r k).assist = ((given (q.active c)).assist || (given upto).assist))

/-! ### Dual words -/

/-- 02 R45, R46, 05 R138, R139: a dual word, whatever operation slot X and slot Y hold (SLOT_NOP, SLOT_MOV, SLOT_ADD, SLOT_SUB, SLOT_AND, SLOT_OR,
SLOT_XOR, SLOT_SHL, SLOT_SHR, SLOT_SAR, SLOT_MIN, SLOT_MAX, SLOT_NEG, SLOT_NOT, SLOT_FADD, SLOT_FMUL, SLOT_FMIN, SLOT_FMAX, SLOT_FNEG),
completes: each slot writes its own destination in the lanes that its own guard admits, both results are computed from the registers
before the word, the flags of both are ORed into FLG, and nothing else changes. A slot's taint is that of its source and, where it reads it, of its destination; an
integer slot sets no flag, and a float slot sets those of all its elements and calls the assist routine if one of them is tiny. 05 R138: what a slot computes is what the full-word function computes with DST, read whole, as its first operand and SRC as its second
(MOV, NEG, NOT and FNEG take SRC alone). -/
def Obligations.DualWords : Prop :=
  (∀ (s : State) (q : Cur) (i : Instr) (x y : Slot), s.cur? = some q →
    i.slotX? = some x → i.slotY? = some y →
    let z := q.blk.ftz
    let R := fun (u : Slot) k => slotRuns u q.grp q.slot k
    let V := fun (u : Slot) k => slotResult u z q.grp k
    let A := fun (u : Slot) => slotActive u q.grp q.slot
    ∃ h, exec i s = .next ((s.putGrp q h).assistIf q (anyAssist (A x) (V x) || anyAssist (A y) (V y))) ∧
      q.grp.restIs h q.grp.sb (q.grp.flg ||| (orFlags (A x) (V x) ||| orFlags (A y) (V y))) ∧
      (match x.dst?, y.dst? with
        | none, none => q.grp.sameLatches h
        | some d, none => q.grp.latchesShift h d
        | none, some d => q.grp.latchesShift h d
        | some d, some e => h.l0 = some e ∧ h.l1 = some d ∧ h.l2 = q.grp.l0 ∧ h.l3 = q.grp.l1) ∧
      h.lanes.length = q.grp.lanes.length ∧
      ∀ k < q.grp.lanes.length, { h.lane k with regs := (q.grp.lane k).regs, taint := (q.grp.lane k).taint } = q.grp.lane k ∧
        ∀ r,
          (h.lane k).reg r =
            (if y.dst? = some r ∧ R y k = true then (V y k).v
             else if x.dst? = some r ∧ R x k = true then (V x k).v
             else (q.grp.lane k).reg r) ∧
          (h.lane k).tnt r =
            (if y.dst? = some r ∧ R y k = true then (V y k).t
             else if x.dst? = some r ∧ R x k = true then (V x k).t
             else (q.grp.lane k).tnt r)) ∧
  (∀ (g : Group) (z : Bool) (k : Nat),
    (∀ (o : SIOp) (f : SlotF IType),
      let w := f.t.width
      let D := fun j => sub w j ((g.lane k).reg f.d.r)
      let S := fun j => sub w j (g.opnd (.int f.t (siSigned o)) ⟨f.src, f.md⟩ k)
      let r := slotResult (.int o f) z g k
      r.fl = 0 ∧ r.assist = false ∧ r.t = (g.srcTaint f.src k || (decide (o ≠ .mov ∧ o ≠ .neg ∧ o ≠ .not) && (g.lane k).tnt f.d.r)) ∧ ∀ j < 64 / w,
        let v := sub w j r.v
        match o with
        | .mov => v = S j
        | .add => v = D j + S j
        | .sub => v = D j - S j
        | .and => v = D j &&& S j
        | .or => v = D j ||| S j
        | .xor => v = D j ^^^ S j
        | .shl => v = D j <<< (S j).toNat
        | .shr => v = D j >>> (S j).toNat
        | .sar => v.toInt = (D j).toInt / 2 ^ (S j).toNat
        | .min => v.toInt = min (D j).toInt (S j).toInt
        | .max => v.toInt = max (D j).toInt (S j).toInt
        | .neg => v = -S j
        | .not => v = ~~~ S j) ∧
    ∀ (o : SFOp) (f : SlotF FType),
      let m := fmtOf f.t
      let D := fun j => fsub m z j ((g.lane k).reg f.d.r)
      let S := fun j => fsub m z j (g.opnd (.flt f.t) ⟨f.src, f.md⟩ k)
      let r := slotResult (.flt o f) z g k
      let e := fun (j : Nat) => match o with
        | .fadd => m.add .rne z (D j) (S j)
        | .fmul => m.mul z (D j) (S j)
        | .fmin => m.minmax false z (D j) (S j)
        | .fmax => m.minmax true z (D j) (S j)
        | .fneg => m.negOp z (S j)
      (∀ j < 64 / m.width, sub m.width j r.v = BitVec.ofNat m.width (e j).bits) ∧
      r.t = (g.srcTaint f.src k || (decide (o ≠ .fneg) && (g.lane k).tnt f.d.r)) ∧
      (∀ i, r.fl.getLsbD i = true ↔ ∃ j < 64 / m.width, (e j).fl.getLsbD i = true) ∧
      (r.assist = true ↔ ∃ j < 64 / m.width, (e j).assist = true))

/-! ### System words -/

/-- 01 R29, R15, R19, R22, R24, R25, R27: RDSR returns the special register, zero-extended, with taint 0. 08 R252, R253, R221: LCYC returns the cluster's local count, PERF the numbered counter, and WID a field of the work identifier, each with taint 0;
a field is the bits that the launch's widths give it, and 0 beyond the field count. 02 R43: the results of RDSR, LCYC and PERF are of variable latency, so they are
scoreboarded. 08 R250, R254, 06 R153, 02 R52: NOP does nothing but end; YIELD marks the group. PREF never faults and changes no byte, register or
block: of the cluster's cache it fills at most sectors that the cluster did not hold, as memory has them, and not with the no-allocate hint. Every one
of these words completes in every state with a word in focus. -/
def Obligations.SpecialReads : Prop :=
  (∀ (s : State) (q : Cur) (c : Ctl) (d : Dst) (n : SReg), s.cur? = some q →
    let b := q.blk
    let g := q.grp
    ComputesVar s (.rdsr c d n) q c d.r (fun _ => false) fun k v =>
      let l := q.grp.lane k
      match n with
      | .lane => v.toNat = k
      | .gid => v = BitVec.ofNat 64 q.gi
      | .wid0 => v = widField b l 0
      | .wid1 => v = widField b l 1
      | .wid2 => v = widField b l 2
      | .wid3 => v = widField b l 3
      | .wid4 => v = widField b l 4
      | .wid5 => v = widField b l 5
      | .qpkt => v = b.qpkt
      | .asid => v = BitVec.ofNat 64 b.asid
      | .clid => v = BitVec.ofNat 64 b.cl
      | .core => v = BitVec.ofNat 64 b.co
      | .scb => v.extractLsb' 32 32 = BitVec.ofNat 32 b.scratchSize ∧ v.extractLsb' 0 21 = b.scbOffset ∧ v.extractLsb' 21 11 = 0
      | .tt => v = l.tt
      | .ht => v = l.ht
      | .mt => v = l.mt
      | .upd => v = l.upd
      | .acb => v.toNat = g.acb.toNat
      | .acl => v.toNat = g.acl.toNat
      | .bcnt => v.toNat = g.bcnt.toNat
      | .dsp => v.extractLsb' 32 32 = g.dspFloor ∧ v.extractLsb' 0 32 = g.dspTop
      | .flg => v.toNat = g.flg.toNat
      | .fex => v.toNat = g.fex.toNat
      | .tix0 => v.toNat = g.tix0.toNat
      | .tix1 => v.toNat = g.tix1.toNat
      | .tix2 => v.toNat = g.tix2.toNat
      | .tix3 => v.toNat = g.tix3.toNat
      | .tix4 => v.toNat = g.tix4.toNat) ∧
  (∀ (s : State) (q : Cur) (c : Ctl) (d : Dst), s.cur? = some q →
    ComputesVar s (.lcyc c d) q c d.r (fun _ => false) (fun _ v => v = BitVec.ofNat 64 (s.clk q.blk.cl)) ∧
    (∀ n, ComputesVar s (.perf c d n) q c d.r (fun _ => false) (fun _ v => v = s.counter q n)) ∧
    ∀ f : BitVec 3, Computes s (.widW c d f) q c d.r (fun _ => false) (fun k v =>
      let base := (q.blk.widths.take f.toNat).sum
      let n := q.blk.widths.getD f.toNat 0
      ∀ i < 64, v.getLsbD i =
        (decide (f.toNat < q.blk.nf) && decide (i < n) && (q.grp.lane k).wid.getLsbD (base + i)))) ∧
  (∀ (s : State) (q : Cur) (c : Ctl), s.cur? = some q →
    (∃ h, exec (.nop c) s = .next (s.putGrp q h) ∧ q.grp.restIs h q.grp.sb q.grp.flg ∧ q.grp.sameLatches h ∧ h.lanes = q.grp.lanes) ∧
    (∀ o, ∃ u b h, exec (.pref c o) s = .next u ∧ Frame s u q b h false ∧ Holds s u q [] ∧ u.ms.mem = s.ms.mem ∧
      q.grp.restIs h q.grp.sb q.grp.flg ∧ q.grp.sameLatches h ∧ h.lanes = q.grp.lanes ∧
      (∀ x, u.ms.cc.get? x = s.ms.cc.get? x ∨ (o.tg = .cc ∧ o.ch ≠ .noalloc ∧ s.ms.cc.get? x = none ∧
        ∃ sector, x = ccKey q.blk.cl sector ∧ u.ms.cc.get? x = some (s.ms.fill sector))) ∧
      (o.tg ≠ .icache → u.ms.icache = s.ms.icache)) ∧
    ∃ h, exec (.yieldW c) s = .next (s.putGrp q h) ∧ h.yielded = true ∧
      q.grp.restIs { h with yielded := q.grp.yielded } q.grp.sb q.grp.flg ∧ q.grp.sameLatches h ∧ h.lanes = q.grp.lanes)

/-- 01 R24, R25, R29: WRSR to FLG and FEX writes the value of the lowest executing lane into the group, and nothing else; with no executing lane the
word only ends. 01 R19: WRSR to DSP takes FLOOR and TOP from the lowest executing lane. Unless both are multiples of 16 and TOP is not below FLOOR it faults
MISALIGNED; if the entries would not fit below SIZE it faults SCRATCH_RANGE; otherwise the entries of the stack stand at TOP as they stood at
the old TOP, no other byte of scratch changes, and the ceiling follows them. -/
def Obligations.SpecialWrites : Prop :=
  (∀ (s : State) (q : Cur) (c : Ctl) (a : Opnd), s.cur? = some q →
    (q.active c = [] → Passes s (.wrsrFlg c a) q ∧ Passes s (.wrsrFex c a) q ∧ Passes s (.wrsrDsp c a) q) ∧
    ∀ k l, q.active c = k :: l →
      let v := q.grp.opnd (.int .i64 false) a k
      (∃ h, exec (.wrsrFlg c a) s = .next (s.putGrp q h) ∧ q.grp.restIs h q.grp.sb (v.extractLsb' 0 5) ∧ q.grp.sameLatches h ∧
        h.lanes = q.grp.lanes) ∧
      ∃ h, exec (.wrsrFex c a) s = .next (s.putGrp q h) ∧ h.fex = v.extractLsb' 0 32 ∧
        q.grp.restIs { h with fex := q.grp.fex } q.grp.sb q.grp.flg ∧ q.grp.sameLatches h ∧ h.lanes = q.grp.lanes) ∧
  (∀ (s : State) (q : Cur) (c : Ctl) (a : Opnd) (k : Nat) (l : List Nat), s.cur? = some q →
    q.active c = k :: l →
    let v := q.grp.opnd (.int .i64 false) a k
    let floor := (v.extractLsb' 32 32).toNat
    let top := (v.extractLsb' 0 32).toNat
    let n := 16 * q.grp.depth
    let ok := floor % 16 = 0 ∧ top % 16 = 0 ∧ floor ≤ top
    (¬ ok → exec (.wrsrDsp c a) s = .next (s.takeFault q { code := .misaligned, lane := k })) ∧
    (ok → q.blk.scratchSize < top + n → exec (.wrsrDsp c a) s = .next (s.takeFault q { code := .scratchRange, lane := k })) ∧
    (ok → top + n ≤ q.blk.scratchSize → ∃ (st : BlkState) (h : Group), exec (.wrsrDsp c a) s = .next (s.putSt q (st.setGroup q.gi h)) ∧
      h.dspFloor.toNat = floor ∧ h.dspCeil = BitVec.ofNat 32 (top + n) ∧ h.lanes = q.grp.lanes ∧ st.groups = q.blk.st.groups ∧
      (∀ i < n, st.scratch.byte (top + i) = q.blk.st.scratch.byte (q.grp.dspTop.toNat + i)) ∧
      ∀ i, i < top ∨ top + n ≤ i → st.scratch.byte i = q.blk.st.scratch.byte i))

/-! ### Flow -/

/-- 08 R217, R218: a split succeeds whenever the stack has room for one entry less than there are next PCs; a lane of the entry then stands
where it was sent, whatever the slots and the stack held, and the merges and refills that follow move no lane. -/
def Obligations.Splits : Prop := ∀ (q : Cur) (next : Nat → Option (BitVec 57)),
  q.grp.StackOk → (∀ k pc, next k = some pc → pc.extractLsb' 0 3 = 0) →
  (q.grp.dspFloor.toNat + 16 * ((targets q.mask next).length - 1) ≤ q.grp.dspTop.toNat → Fits q q.grp next) ∧
  ∀ r, placeEntries q.blk.st q.grp q.slot (targets q.mask next) = some r → Routes q next r.1 (settle r.1 r.2)

/-- 08 R221, R222, R223: BRA, CALL, RET and JMPI. If the new entries fit, every executing lane goes to its target and every other lane of the
entry to the next word; CALL leaves the address of the next word in its destination. If they do not fit, the word faults
DIVSTACK and moves nothing. A target of RET or JMPI that is misaligned, or beyond the address space, faults before any lane moves. -/
def Obligations.Branches : Prop := ∀ (s : State) (q : Cur) (c : Ctl), s.cur? = some q → q.grp.StackOk →
  q.pc.extractLsb' 0 3 = 0 →
  let E := fun k => q.grp.runs q.slot c k
  let full := fun i => exec i s = .next (s.takeFault q { code := .divStack, lane := ((List.range 32).find? fun k => q.mask.getLsbD k).getD 0 })
  (∀ off : BitVec 18,
    let next := fun k => if E k then some (q.pc + (off.signExtend 57 <<< 3)) else q.stay
    (Fits q q.grp next →
      (∃ st h, exec (.bra c off) s = .next (s.putSt q (st.setGroup q.gi h)) ∧ Routes q next st h ∧
        q.grp.restIs h q.grp.sb q.grp.flg ∧ q.grp.sameLatches h ∧ h.lanes = q.grp.lanes) ∧
      ∀ d, ∃ st h, exec (.call c d off) s = .next (s.putSt q (st.setGroup q.gi h)) ∧ Routes q next st h ∧
        RegEffect q c d.r q.grp.sb q.grp.flg (fun _ => (q.pc + 8).setWidth 64) (fun _ => false) h) ∧
    (¬ Fits q q.grp next → full (.bra c off) ∧ ∀ d, full (.call c d off))) ∧
  ∀ a,
    let v := fun k => q.grp.opnd (.int .i64 false) a k
    let bad := fun k => (v k).extractLsb' 0 3 ≠ 0 ∨ (v k).extractLsb' 57 7 ≠ 0
    let next := fun k => if E k then some ((v k).extractLsb' 0 57) else q.stay
    (∀ i ∈ [Instr.ret c a, Instr.jmpi c a],
      ((∀ k, E k = true → ¬ bad k) → Fits q q.grp next →
        ∃ st h, exec i s = .next (s.putSt q (st.setGroup q.gi h)) ∧ Routes q next st h ∧
          q.grp.restIs h q.grp.sb q.grp.flg ∧ q.grp.sameLatches h ∧ h.lanes = q.grp.lanes) ∧
      ((∀ k, E k = true → ¬ bad k) → ¬ Fits q q.grp next → full i) ∧
      ∀ k, E k = true → bad k → (∀ j < k, E j = true → ¬ bad j) →
        exec i s = .next (s.takeFault q
          (if (v k).extractLsb' 0 3 ≠ 0 then { code := .misaligned, lane := k, ea := v k }
          else { code := .pageFaultRead, lane := k, ea := v k, atOnce := true })))

/-- 08 R219, R221, R224, 01 R12: JOIN passes its whole entry to its target when no other entry has a smaller PC, and else leaves everything as
it is. ELECT names the lowest executing lane. 10 R286: EXIT sends the other lanes on and retires the lanes that execute it, unless a marker of a
stack of theirs is BUSY; then the word waits for it; a marker outside scratch is read as a term cell is, and stops the word as such a read
does. 08 R224, 06 R172: when lanes of a group retire and others remain, their positions hold no lane, they wait at no barrier slot, their offers
leave the board, and every other lane is as it was. When the last lane retires, the group retires: its open batch closes, its lanes
are gone, and every barrier slot expects one group less. -/
def Obligations.FlowWords : Prop :=
  (∀ (s : State) (q : Cur) (c : Ctl), s.cur? = some q →
    (∀ off : BitVec 18,
      let other := (q.grp.pcSlot !q.slot).e
      let first := (other.mask ≠ 0 → q.pc ≤ other.pc) ∧ ∀ e ∈ q.blk.st.stack q.grp, q.pc ≤ e.pc
      (first → ∃ h, exec (.join c off) s = .next (s.putSt q (q.blk.st.setGroup q.gi h)) ∧
        Routes q (fun _ => some (q.pc + (off.signExtend 57 <<< 3))) q.blk.st h ∧
        q.grp.restIs h q.grp.sb q.grp.flg ∧ q.grp.sameLatches h ∧ h.lanes = q.grp.lanes) ∧
      (¬ first → exec (.join c off) s = .next s)) ∧
    (∀ p, Decides s (.elect c p) q c p fun k b => b = true ↔ ∀ j, q.grp.runs q.slot c j = true → k ≤ j) ∧
    (let mine := fun (k : Nat) (a : W64) => q.grp.runs q.slot c k = true ∧ a ∈ (q.grp.lane k).markers
      let off := fun (a : W64) => a.toNat - 0x1FFFFE00000
      let near := fun (a : W64) => inWindow a = true ∧ off a + 8 ≤ q.blk.scratchSize
      let busy := fun (a : W64) => near a ∧ (q.blk.st.sword (off a)).getLsbD 34 = true
      let next := fun k => if q.grp.runs q.slot c k then none else q.stay
      ((∃ k a, mine k a ∧ busy a) → ∃ k a, mine k a ∧ busy a ∧ exec (.exitW c) s = .next (s.waitSlot q (.busy a))) ∧
      (q.active c = [] → Passes s (.exitW c) q) ∧
      (∀ k l a r, q.active c = k :: l → (∀ j b, mine j b → ¬ busy b) →
        ((q.grp.lane k).markers.filter fun b => !(inWindow b && decide (off b + 8 ≤ q.blk.scratchSize))) = a :: r →
        let rd := s.readVa q [] s.ms k ⟨a, 8, false, true, false, .any, false, false⟩ true
        (∀ w ms, rd = .ok (w, ms) → (BitVec.ofNat 64 (leNat w)).getLsbD 34 = true → exec (.exitW c) s = .next (s.waitSlot q (.busy a))) ∧
        ∀ e, rd = .error e → exec (.exitW c) s = .next (stopWord s q e)) ∧
      ((∀ k a, mine k a → near a ∧ ¬ busy a) → (∃ k, q.grp.runs q.slot c k = true) →
      ∃ st h, exec (.exitW c) s =
          .next ((s.putSt q (st.setGroup q.gi h)).retireLanes q.id q.gi (maskOf fun k => q.grp.runs q.slot c k)) ∧
        Routes q next st h ∧ q.grp.restIs h q.grp.sb q.grp.flg ∧ q.grp.sameLatches h ∧ h.lanes = q.grp.lanes))) ∧
  (∀ (s : State) (id gi : Nat) (b : Block) (g : Group) (m : Mask),
    s.blocks.get? id = some b → b.st.groups[gi]? = some g →
    let t := s.retireLanes id gi m
    let left := fun k => (g.lane k).present && !m.getLsbD k
    ((∃ k < 32, left k = true) → ∃ b' g', t.blocks.get? id = some b' ∧ b'.st.groups[gi]? = some g' ∧ g'.retired = g.retired ∧
      (∀ k < 32, (g'.lane k).present = left k ∧ { g'.lane k with present := (g.lane k).present } = g.lane k) ∧
      (∀ i, g'.waiting i &&& m = 0) ∧
      (∀ e ∈ b'.st.board, e ∈ b.st.board ∧ ¬ (e.grp.toNat = gi ∧ m.getLsbD e.lane.toNat = true))) ∧
    ((∀ k < 32, left k = false) → g.retired = false → b.st.bars.length = 8 →
      ∃ b' g', t.blocks.get? id = some b' ∧ b'.st.groups[gi]? = some g' ∧ g'.retired = true ∧ (∀ k, (g'.lane k).present = false) ∧
        (∀ x ∈ g'.batches, x.closed = true) ∧ ∀ i < 8, (b'.st.bar i).expected = (b.st.bar i).expected - 1))

/-! ### Exceptions -/

/-- 08 R251, 02 R63: TRAP and BKPT take their exception once for the group, in the lowest executing lane, and only end if no lane executes
them. HALT and ERET are illegal in a kernel whatever their guards, in the lowest lane of the entry. 17 R365, R367, R368, 16 R347: a trap of a context under DEBUG writes its record of eight words into the
context's ring in memory (where in the ring, log 103), or counts it as dropped when the ring is full of records that the host has not
read; the group goes on to the next word, and its block is pre-empted, with every block of a COOP launch. A fault of a speculation discards the
speculation: its blocks and its cocoon are gone, and memory is as it was. -/
def Obligations.Traps : Prop :=
  (∀ (s : State) (q : Cur) (c : Ctl), s.cur? = some q →
    (∀ code : BitVec 18,
      (q.active c = [] → Passes s (.trap c code) q ∧ Passes s (.bkpt c code) q) ∧
      ∀ k l, q.active c = k :: l →
        exec (.trap c code) s = .next (s.takeFault q { code := .trapInstr, lane := k, arg := code }) ∧
        exec (.bkpt c code) s = .next (s.takeFault q { code := .bkpt, lane := k, arg := code })) ∧
    ∀ k < 32, q.grp.inEntry q.slot k = true → (∀ j < k, q.grp.inEntry q.slot j = false) →
      exec (.halt c) s = .next (s.takeFault q { code := .illegalInstr, lane := k }) ∧
      exec (.eret c) s = .next (s.takeFault q { code := .illegalInstr, lane := k })) ∧
  (∀ (s : State) (q : Cur) (f : FaultInfo), s.cur? = some q →
    (∀ ctx, q.blk.spec = none → (f.code = .trapInstr ∨ f.code = .bkpt) → s.ctxs.get? q.blk.asid = some ctx → ctx.debug = true →
      ∃ b h ctx', (s.takeFault q f).blocks.get? q.id = some b ∧ b.stopping = .preempt (some q.gi) ∧
        b.st = q.blk.st.setGroup q.gi h ∧ q.grp.restIs h q.grp.sb q.grp.flg ∧ h.lanes = q.grp.lanes ∧
        (∀ k pc, h.At q.blk.st k pc ↔ (q.mask.getLsbD k = true ∧ pc = pcNext q.pc) ∨ q.others.At q.blk.st k pc) ∧
        (s.takeFault q f).ctxs.get? q.blk.asid = some ctx' ∧
        (∀ id o x, id ≠ q.id → s.blocks.get? id = some o → o.launch = q.blk.launch → o.stopping = .none →
          s.qs.launches.get? o.launch = some x → x.coop = true →
          ∃ o', (s.takeFault q f).blocks.get? id = some o' ∧ o'.stopping = .preempt none ∧ o'.st = o.st) ∧
        let seen := min ctx.ring.length (s.ms.mem.word (ctx.ringAt + Config.ringRead) - BitVec.ofNat 64 ctx.ringRead).toNat
        let left := ctx.ring.drop seen
        ctx'.ringRead = ctx.ringRead + seen ∧
        (if left.length < 64 then
          ∃ r, ctx'.ring = left ++ [r] ∧ r.length = 8 ∧ (r.getD 0 0).extractLsb' 56 8 = f.code.num ∧ r.getD 1 0 = q.pc.setWidth 64 ∧
            ctx'.dropped = ctx.dropped ∧
            ∀ i < 8, (s.takeFault q f).ms.mem.word
              (ctx.ringAt + Config.ringRecord ((ctx.ringRead + seen + left.length) % 64) + 8 * i) = r.getD i 0
        else ctx'.ring = left ∧ ctx'.dropped = ctx.dropped + 1)) ∧
    ∀ n, q.blk.spec = some n →
      let t := s.takeFault q f
      (∀ id b, t.blocks.get? id = some b → b.spec ≠ some n) ∧ t.qs.specs.get? n = none ∧ t.ms.cocoons.get? n = none ∧
        t.ms.mem = s.ms.mem)

/-- 17 R361, R364: a fault that is delivered as an error. The group is parked at its word and has performed nothing of it. Its block stops and will
write the record; every other block of the launch stops too, and its saved blocks are gone with their images; the launch hands out no more
blocks. The queue is in ERROR with code 12 and the position of the packet, unless it holds a code already, and the host hears of it. Of memory
nothing changes but the queue's own control block and those images. -/
def Obligations.ErrorDelivery : Prop := ∀ (s : State) (q : Cur) (f : FaultInfo) (x : Launch) (y : Queue), s.cur? = some q →
  q.blk.spec = none → f.replayable = false → f.code ≠ .poisonConsumed →
  ((f.code = .trapInstr ∨ f.code = .bkpt) → ∀ ctx, s.ctxs.get? q.blk.asid = some ctx → ctx.debug = false) →
  s.qs.launches.get? q.blk.launch = some x → s.qs.queues.get? x.q = some y →
  let t := s.takeFault q f
  (∃ b, t.blocks.get? q.id = some b ∧ b.stopping = .terminate (some (q.gi, q.pc, f)) ∧
    b.st = q.blk.st.setGroup q.gi { q.grp with park := .fault q.slot q.pc f }) ∧
  (∀ id b, id ≠ q.id → s.blocks.get? id = some b → ∃ b', t.blocks.get? id = some b' ∧ b'.st = b.st ∧
    (b.launch ≠ q.blk.launch → b' = b) ∧ (b.launch = q.blk.launch → ∃ z, b'.stopping = .terminate z)) ∧
  (∃ x', t.qs.launches.get? q.blk.launch = some x' ∧ x'.terminated = true ∧ x'.chunks = [] ∧ x'.handed = x.total) ∧
  (∃ y', t.qs.queues.get? x.q = some y' ∧ y'.st = .error ∧
    (y'.err, y'.errpos) = (if y.err = 0 then (12, x.pos) else (y.err, y.errpos))) ∧
  t.qs.hostEvents = s.qs.hostEvents ++ [.faulted x.q] ∧ t.saved = s.saved.filter (fun p => p.2.blk.launch != q.blk.launch) ∧
  ∀ a, a < y.pa ∨ y.pa + 256 ≤ a →
    let image := ∃ p ∈ s.saved, p.2.blk.launch = q.blk.launch ∧ p.2.addr ≤ a ∧ a < p.2.addr + p.2.blk.imageSize
    (image → t.ms.mem.byte a = 0) ∧ (¬ image → t.ms.mem.byte a = s.ms.mem.byte a)

/-- 17 R359, R361, R363: a translation fault that is not delivered at once. If a walk made now serves the access, the word obtains the
translation, which it uses when it issues again, and nothing happens to the group, memory or the host. Otherwise the group is
parked at its word, the fault joins the list that the host answers, and the host hears of it, once for each page; memory stays as it is. -/
def Obligations.PageFaults : Prop := ∀ (s : State) (q : Cur) (f : FaultInfo), s.cur? = some q → q.blk.spec = none →
  f.code ∈ [FaultCode.pageFaultRead, .pageFaultWrite, .permission] → f.atOnce = false →
  let t := s.takeFault q f
  let page := f.ea.toNat / 262144
  let good := fun (leaf : W64) => (f.arg.getLsbD 0 = true → pteR leaf = true) ∧
    ((f.code = .pageFaultWrite ∨ f.arg.getLsbD 1 = true) → pteW leaf = true) ∧
    (f.arg.getLsbD 2 = true → pteX leaf = true ∧ (pteRem leaf = true → pteChip leaf = s.fab.chip))
  let g := q.grp.setSlot q.slot { q.grp.pcSlot q.slot with wait := .none, pages := [] }
  let h := { g with park := .fault q.slot q.pc { f with arg := 0 } }
  (∀ leaf big, s.ms.walkRaw (s.root q.blk.asid) f.ea = some (leaf, big) → good leaf →
    t.grpAt q = some (q.grp.setSlot q.slot { q.grp.pcSlot q.slot with
      pages := (q.grp.pcSlot q.slot).pages.put (trKey q.blk.asid f.ea big) leaf }) ∧
    t.ms.mem = s.ms.mem ∧ t.ms.cc = s.ms.cc ∧ t.faultQ = s.faultQ ∧ t.qs = s.qs ∧
    (∀ id, id ≠ q.id → t.blocks.get? id = s.blocks.get? id) ∧ ∀ cl co, (t.core cl co).held = (s.core cl co).held) ∧
  ((∀ leaf big, s.ms.walkRaw (s.root q.blk.asid) f.ea = some (leaf, big) → ¬ good leaf) →
    t.blocks = s.blocks.put q.id { q.blk with st := q.blk.st.setGroup q.gi h } ∧
    t.faultQ = s.faultQ ++ [⟨q.blk.asid, page, f.code, .group q.id q.gi⟩] ∧
    (t.qs = if ∃ y ∈ s.faultQ, y.asid = q.blk.asid ∧ y.page = page then s.qs
      else { s.qs with hostEvents := s.qs.hostEvents ++ [.pageFault q.blk.asid page] }) ∧
    { t with blocks := s.blocks, faultQ := s.faultQ, qs := s.qs } = s)

/-! ### Memory words -/

/-- 06 R140, R141, R142, R165, 07 R206, 17 R359, R362: the checks of an access in a lane, in order: alignment, the scratch window, the 57-bit space,
translation, the kind of the page, its rights, installed memory. A translation is one that the word has obtained or one of the
core's micro-TLB. 06 R142, 17 R359: the lowest executing lane whose checks do not pass decides for every word of the access classes: a fault is taken before any lane
performs its access; a missing translation makes the entry wait for a walk. -/
def Obligations.AccessChecks : Prop :=
  (∀ (s : State) (q : Cur) (k : Nat) (r : Req),
    let a := r.ea.toNat
    let window := 0x1FFFFE00000 ≤ a ∧ a ≤ 0x1FFFFFFFFFF
    let off := a - 0x1FFFFE00000
    let out := fun (code : FaultCode) (now : Bool) => s.check q k r = .fault { code := code, lane := k, ea := r.ea, atOnce := now }
    let page : FaultCode := if r.write = true then .pageFaultWrite else .pageFaultRead
    let own := trGet (q.grp.pcSlot q.slot).pages 0 q.blk.asid r.ea
    let tr := if own.isSome then own else trGet (s.core q.blk.cl q.co).utlb 0 q.blk.asid r.ea
    (a % r.size ≠ 0 → out .misaligned false) ∧
    (a % r.size = 0 →
      (window → (r.side ≠ .global ∧ off + r.size ≤ q.blk.scratchSize → s.check q k r = .scratch off) ∧
        (r.side = .global ∨ q.blk.scratchSize < off + r.size → out .scratchRange false)) ∧
      (¬ window → (2 ^ 57 ≤ a → out (if r.side = .scratch then .pageFaultRead else page) true) ∧
        (a < 2 ^ 57 → (r.side = .scratch → out .scratchRange false) ∧
          (r.side ≠ .scratch →
            (tr = none → s.check q k r = .walk r.ea) ∧
            ∀ leaf, tr = some leaf →
              let lack := (r.needR = true ∧ pteR leaf = false) ∨ (r.needW = true ∧ pteW leaf = false)
              let pa := 65536 * pteAddr leaf + a % 262144
              let wrong := (r.ms = true ∧ pteMs leaf = false) ∨ (r.ordinary = true ∧ ordinaryPage s.fab.chip leaf pa = false)
              (wrong → out .permission true) ∧
              (¬ wrong → lack → ∃ x : BitVec 18, s.check q k r = .fault { code := .permission, lane := k, ea := r.ea, arg := x }) ∧
              (¬ wrong → ¬ lack → 2 ^ 39 ≤ pa → pa < 2 ^ 51 → out page true) ∧
              (¬ wrong → ¬ lack → pa < 2 ^ 39 ∨ 2 ^ 51 ≤ pa → s.check q k r = .global leaf pa)))))) ∧
  (∀ (s : State) (q : Cur) (i : Instr) (c : Ctl) (req : Cur → Nat → Req) (k : Nat),
    s.cur? = some q → accessOf i = some (c, req) → q.grp.runs q.slot c k = true →
    (∀ j < k, q.grp.runs q.slot c j = true → (s.check q j (req q j)).passed = true) →
    (∀ f, s.check q k (req q k) = .fault f → exec i s = .next (s.takeFault q f)) ∧
    ∀ va, s.check q k (req q k) = .walk va → exec i s = .next (s.waitSlot q (.walk k va (req q k).write false)))

/-- 06 R143, R146, R147, R149, R150, R152, 02 R52, 11 R289: LD, LDB, LDC and LDA at issue. Scratch is read as it is, and a TSO page at once. LDA reads at
once, past the cluster's copy, whose dirty bytes are merged into the home first, and which is then gone. Every other read of memory waits in the core
(which reads wait and which are made at once is the model's reading, log 34; what the core has read ahead, log 113) as acts, which say whether they go
past the cluster's copy (LDB, LDC, and an address that is tainted) and whether a miss fills it (not with the no-allocate hint). Stores that the core
still holds are seen by its own loads. LDC taints what it writes; the others carry the address's taint. -/
def Obligations.Loads : Prop := ∀ (s : State) (q : Cur) (c : Ctl),
  (∀ o : MLd,
    let ea := fun (g : Group) k => eaM g o.a o.off o.sz.bytes k
    (Reaches s q c (loadReq ea o.sz.bytes q) (fun k => q.grp.srcTaint o.a k) true →
      LoadEffect s q (.ld c o) c o.d.r o.sz ea o.a false (o.ch != .noalloc) false none) ∧
    (Reaches s q c (loadReq ea o.sz.bytes q) (fun _ => true) true →
      LoadEffect s q (.ldb c o) c o.d.r o.sz ea o.a true true false none ∧ LoadEffect s q (.ldc c o) c o.d.r o.sz ea o.a true true true none)) ∧
  ∀ o : OLd,
    let ea := fun (g : Group) k => eaO g o.a o.ofs o.sz.bytes k
    Reaches s q c (loadReq ea o.sz.bytes q) (fun _ => true) false →
      LoadEffect s q (.lda c o) c o.d.r o.sz ea o.a true true false (some o.asc)

/-- 06 R147, R154, R156: ST, STNT, STL and ZERO_ST once every lane passes its checks. Scratch takes the bytes at once, of the highest lane where
lanes meet; every other store waits in the core, as an act for each lane with its bytes, its way (through to the L2 for STNT and a wide STL; around the cluster cache where ST or ZERO with the
no-allocate hint misses it; else into the cluster cache), and the release of STL. On a pair the other core meets bytes of its part later (log 121). Lanes, other groups and the bytes of memory stay as they are. -/
def Obligations.Stores : Prop := ∀ (s : State) (q : Cur) (c : Ctl),
  (∀ o : MSt,
    let ea := fun (g : Group) k => eaM g o.a o.off o.sz.bytes k
    Reaches s q c (storeReq ea o.sz.bytes q) (fun _ => false) false →
      StoreEffect s q (.st c o) c o.sz.bytes ea (storeData o.d o.sz q.grp) (hintWay o.ch) none ∧
      StoreEffect s q (.stnt c o) c o.sz.bytes ea (storeData o.d o.sz q.grp) .through none) ∧
  (∀ o : OSt,
    let ea := fun (g : Group) k => eaO g o.a o.ofs o.sz.bytes k
    Reaches s q c (storeReq ea o.sz.bytes q) (fun _ => false) false →
      StoreEffect s q (.stl c o) c o.sz.bytes ea (storeData o.d o.sz q.grp)
        (if atLeastDev o.asc then .through else .back) (some (o.asc, o.ssc))) ∧
  ∀ o : MZero,
    let ea := fun (g : Group) k => eaM g o.a o.off o.sz.bytes k
    Reaches s q c (storeReq ea o.sz.bytes q) (fun _ => false) false →
      StoreEffect s q (.zeroSt c o) c o.sz.bytes ea (fun _ => List.replicate o.sz.bytes 0) (hintWay o.ch) none

/-- 06 R177, R156, R158: INV and WB merge the dirty bytes of the cluster's copy of each ordinary sector named into its home, and INV drops the copy. FENCE takes the
release action, then the acquire action, at its scopes; neither lanes nor scratch change. -/
def Obligations.CacheWords : Prop := ∀ (s : State) (q : Cur) (c : Ctl),
  (∀ o : MSec,
    let req := storeReq (fun g k => eaM g o.a o.off 1 k) 1 q
    let names := fun (sector : Nat) => ∃ k leaf pa, q.grp.runs q.slot c k = true ∧ s.check q k (req k) = .global leaf pa ∧
      ordinaryPage s.fab.chip leaf pa = true ∧ pa / 64 = sector
    Reaches s q c req (fun _ => false) false → s.drainDone q.blk q.id q.gi (s.clk q.blk.cl) .results = true →
    ∀ i ∈ [Instr.inv c o, .wb c o], ∃ u b h, exec i s = .next u ∧ Frame s u q b h false ∧ Holds s u q [] ∧
      q.grp.restIs h q.grp.sb q.grp.flg ∧ q.grp.sameLatches h ∧ h.lanes = q.grp.lanes ∧
      (∀ a, (names (a / 64) → u.ms.mem.byte a = s.ms.merged q.blk.cl a) ∧ (¬ names (a / 64) → u.ms.mem.byte a = s.ms.mem.byte a)) ∧
      ∀ x, names x → (i = .inv c o → u.ms.cc.get? (ccKey q.blk.cl x) = none) ∧
        ∀ y, u.ms.cc.get? (ccKey q.blk.cl x) = some y → y.dirty = 0) ∧
  ∀ o : OFence, s.cur? = some q →
    (q.active c = [] → Passes s (.fence c o) q) ∧
    (q.active c ≠ [] → q.blk.spec = none → (∀ a, fenceWaits o = some a → s.drainDone q.blk q.id q.gi (s.clk q.blk.cl) a = true) →
      let dev := atLeastDev o.asc = true ∧ coversG o.ssc = true
      ∃ u b h, exec (.fence c o) s = .next u ∧ Frame s u q b h false ∧ Holds s u q [] ∧
        q.grp.restIs h q.grp.sb q.grp.flg ∧ q.grp.sameLatches h ∧ h.lanes = q.grp.lanes ∧
        (Order.isRel o.ord = true → dev → ∀ a, a / 64 < 2 ^ 46 → u.ms.mem.byte a = s.ms.merged q.blk.cl a) ∧
        (Order.isRel o.ord = false ∨ ¬ dev → u.ms.mem = s.ms.mem) ∧
        (Order.isAcq o.ord = true → dev → ∀ x y, x < 2 ^ 46 → u.ms.cc.get? (ccKey q.blk.cl x) = some y → y.dirty ≠ 0))

/-- 06 R159, R160, R161: the twelve functions of ATOM and RED, at 8 bytes and at 4, where the low 32 bits of the operands count. 06 R147, R155, R156, R159, R160: the ATOM words and the RED words, at their two sizes, once every lane passes its checks: in
scratch lanes act at once in ascending order; elsewhere an act for each lane waits in the core. An ATOM's old value goes to `d`; a RED writes no register. -/
def Obligations.Atomics : Prop :=
  (∀ (fn : AFn) (old b c : W64),
    AtomIs fn .f64 old b c (atomNew fn true old b c) ∧
    AtomIs fn .f32 (old.setWidth 32) (b.setWidth 32) (c.setWidth 32) ((atomNew fn false old b c).setWidth 32) ∧
    (atomNew fn false old b c).toNat < 2 ^ 32) ∧
  (∀ (s : State) (q : Cur) (c : Ctl),
    (∀ o : AAtom, o.sz = .b4 ∨ o.sz = .b8 → Reaches s q c (atomReq o.a o.sz.bytes q) (fun _ => atLeastDev o.asc) false →
      let A := fun i fn => AtomEffect s q i c fn (some o.d.r) o.a o.b .zero o.ord o.asc o.ssc o.sz
      A (.atomAdd c o) .add ∧ A (.atomFadd c o) .fadd ∧ A (.atomAnd c o) .and ∧ A (.atomOr c o) .or ∧ A (.atomXor c o) .xor ∧
      A (.atomMin c o) .min ∧ A (.atomMax c o) .max ∧ A (.atomUmin c o) .umin ∧ A (.atomUmax c o) .umax ∧
      A (.atomExch c o) .exch ∧ A (.atomIncw c o) .incw) ∧
    (∀ o : ACas, o.sz = .b4 ∨ o.sz = .b8 → Reaches s q c (atomReq o.a o.sz.bytes q) (fun _ => atLeastDev o.asc) false →
      AtomEffect s q (.atomCas c o) c .cas (some o.d.r) o.a o.b o.c o.ord o.asc o.ssc o.sz) ∧
    ∀ o : ARed, o.sz = .b4 ∨ o.sz = .b8 → Reaches s q c (atomReq o.a o.sz.bytes q) (fun _ => atLeastDev o.asc) false →
      let A := fun i fn => AtomEffect s q i c fn none o.a o.b .zero o.ord o.asc o.ssc o.sz
      A (.redAdd c o) .add ∧ A (.redFadd c o) .fadd ∧ A (.redAnd c o) .and ∧ A (.redOr c o) .or ∧ A (.redXor c o) .xor ∧
      A (.redMin c o) .min ∧ A (.redMax c o) .max ∧ A (.redUmin c o) .umin ∧ A (.redUmax c o) .umax)

/-- 06 R165, R166: CASC and DECC once every lane passes its checks: an act for each executing lane waits in the core, with the lane's
operands, new value and task word, between a release and an acquire at its scope; its answer goes to `d`, with the taint of every source, and its status
to the predicate pair. The results are scoreboarded, and no memory changes yet. When the act is performed at its slice, the status is RETRY if the slice's
queue is full or the context's quota used, BADTASK if the table has no such entry, and else OK; the old value is read whatever the status; under OK,
CASC writes the new value if the old one is the comparand, DECC always subtracts, and where the swap took place or the count came to 0 a task of the
entry joins the slice's queue; nothing else changes memory. The pair then says OK in its first predicate and BADTASK in its second. -/
def Obligations.ContinuationAtomics : Prop :=
  (∀ (s : State) (cl : Nat) (h : Held) (b : Block) (g : Group) (p : Place) (pa : Nat) (ea x y task : W64) (ret : Ret) (pp : PPair) (d : Reg),
    s.blocks.get? h.blk = some b → b.st.groups[h.grp]? = some g → g.retired = false → ret.lane < g.lanes.length → p.chip? = none →
    ret.pair = some pp → ret.d = some d → ret.pred = none → h.rel = none → s.ms.atomPoison cl none pa p = false →
    let old := s.ms.mem.word pa
    let slice := sliceOf pa
    let fifo := s.fifos.getD slice []
    ∀ ctx, s.ctxs.get? b.asid = some ctx →
    let full := 512 ≤ fifo.length ∨ ctx.quota ≤ fifo.countP fun t => t.asid == b.asid
    let entry := ctx.conts.get? (256 * slice + task.toNat % 256)
    let u := s.perform cl h
    let ends := fun (st : Status) => ∃ g', (u.blocks.get? h.blk).bind (fun b => b.st.groups[h.grp]?) = some g' ∧
      (g'.lane ret.lane).reg d = old ∧ (g'.lane ret.lane).tnt d = ret.taint ∧
      (g'.lane ret.lane).pr (pairOf pp).1 = decide (st = .ok) ∧ (g'.lane ret.lane).pr (pairOf pp).2 = decide (st = .badtask)
    let still := u.ms.mem = s.ms.mem ∧ u.fifos = s.fifos
    let queues := fun (e : ContEnt) (decc : Bool) => u.fifos.getD slice [] = fifo ++ [⟨b.asid, e, old, ea, task.extractLsb' 32 32, s.fab.chip, decc⟩]
    let puts := fun (v : W64) => ∀ a, u.ms.mem.byte a = if pa ≤ a ∧ a < pa + 8 then v.extractLsb' (8 * (a - pa)) 8 else s.ms.mem.byte a
    ((h.act = .casc p pa ea x y task ret ∨ h.act = .decc p pa ea x task ret) →
      (full → ends .retry ∧ still) ∧ (¬ full → entry = none → ends .badtask ∧ still)) ∧
    ∀ e, ¬ full → entry = some e →
      (h.act = .casc p pa ea x y task ret → ends .ok ∧ (old ≠ x → still) ∧ (old = x → puts y ∧ queues e false)) ∧
      (h.act = .decc p pa ea x task ret → ends .ok ∧ puts (old - x) ∧ (old ≠ x → u.fifos = s.fifos) ∧ (old = x → queues e true))) ∧
  ∀ (s : State) (q : Cur) (c : Ctl),
  (∀ o : ACasc, Reaches s q c (atomcReq o.a q) (fun _ => true) false →
    AtomcEffect s q (.casc c o) c o.d.r o.a o.pp o.asc o.ssc fun k p pa =>
      let g := q.grp
      let new := (g.lane k).reg o.c
      let task := (g.lane k).reg (o.c + 1)
      let t := g.srcTaint o.a k || (g.srcTaint o.b k || (g.lane k).tnt o.c || (g.lane k).tnt (o.c + 1))
      .casc p pa (g.src Rd.raw o.a k) (g.src Rd.raw o.b k) new task ⟨k, some o.d.r, t, some o.pp, none⟩) ∧
  ∀ o : ADecc, Reaches s q c (atomcReq o.a q) (fun _ => true) false →
    AtomcEffect s q (.decc c o) c o.d.r o.a o.pp o.asc o.ssc fun k p pa =>
      let g := q.grp
      let t := g.srcTaint o.a k || (g.srcTaint o.b k || g.srcTaint o.c k)
      .decc p pa (g.src Rd.raw o.a k) (g.src Rd.raw o.b k) (g.src Rd.raw o.c k) ⟨k, some o.d.r, t, some o.pp, none⟩

/-! ### Synchronisation -/

/-- 06 R171: BAR only ends if no lane executes it. Otherwise, once the earlier acts of the group are performed, the lanes that execute it wait at the slot and the
other lanes of the entry go on; the group arrives if all its lanes now wait there. 06 R171, R172, 21 R414: a group arrives at a slot once, when all its lanes wait there. When the arrivals meet the expected count the slot's phase flips and
its count returns to 0, or, under PROTECT, a checkpoint is due; on a pair, with groups on both cores, this comes 160 cycles later (21 R410; log 121). A release lets every lane that waits go on to the next word, and moves nothing else. -/
def Obligations.Barriers : Prop :=
  (∀ (s : State) (q : Cur) (c : Ctl) (n : BitVec 3), s.cur? = some q →
    (q.active c = [] → Passes s (.bar c n) q) ∧
    (q.active c ≠ [] → s.drainDone q.blk q.id q.gi (s.clk q.blk.cl) .results = true → q.grp.StackOk → q.pc.extractLsb' 0 3 = 0 →
      let E := fun k => q.grp.runs q.slot c k
      let next := fun k => if E k then some q.pc else q.stay
      Fits q q.grp next → ∃ st h, exec (.bar c n) s = .next ((s.putSt q (st.setGroup q.gi h)).arrive q.id q.gi n.toNat) ∧
        Routes q next st h ∧ q.grp.sameLatches h ∧ h.lanes = q.grp.lanes ∧
        q.grp.restIs { h with barWait := q.grp.barWait } q.grp.sb q.grp.flg ∧
        ∀ j, n.toNat < q.grp.barWait.length → ∀ k < 32, (h.waiting j).getLsbD k =
          ((q.grp.waiting j).getLsbD k || (decide (j = n.toNat) && E k)))) ∧
  ((∀ (s : State) (id gi k : Nat) (b : Block) (g : Group), s.blocks.get? id = some b → b.st.groups[gi]? = some g → k < b.st.bars.length →
      let two := fun (b : Block) => b.pair = true ∧ 1 < b.st.groups.length
      let t := s.arrive id gi k
      let x := b.st.bar k
      let ready := g.live ≠ 0 ∧ (∀ l < 32, g.live.getLsbD l = true → (g.waiting k).getLsbD l = true) ∧ g.barCounted.getLsbD k = false
      (¬ ready → t = s) ∧
      (ready → ∃ b', t.blocks.get? id = some b' ∧
        (x.arrived + 1 ≠ x.expected → b'.st.bar k = { x with arrived := x.arrived + 1 } ∧ b'.prot = b.prot) ∧
        (x.arrived + 1 = x.expected → ¬ two b → b.protect = false → b'.st.bar k = { x with arrived := 0, phase := !x.phase } ∧ b'.prot = b.prot) ∧
        (x.arrived + 1 = x.expected → two b → b'.st.bar k = { x with arrived := x.arrived + 1 } ∧ b'.prot = b.prot ∧
          b'.st.crossing = b.st.crossing ++ [⟨s.clk b.cl, b.co, .bar k⟩]) ∧
        (x.arrived + 1 = x.expected → ¬ two b → b.protect = true → b'.st.bar k = { x with arrived := x.arrived + 1 } ∧
          b'.prot = { b.prot with pending := b.prot.pending ++ [k] }))) ∧
    (∀ (s : State) (id k t co : Nat) (b : Block), s.blocks.get? id = some b → b.st.crossing = [⟨t, co, .bar k⟩] → k < b.st.bars.length →
      let u := s.letCross id
      let x := b.st.bar k
      (s.clk b.cl < t + 160 → u = s) ∧
      (t + 160 ≤ s.clk b.cl → ∃ b', u.blocks.get? id = some b' ∧ b'.st.crossing = [] ∧
        (b.protect = false → b'.st.bar k = { x with arrived := 0, phase := !x.phase } ∧ b'.prot = b.prot) ∧
        (b.protect = true → b'.st.bar k = x ∧ b'.prot = { b.prot with pending := b.prot.pending ++ [k] }))) ∧
    ∀ (st : BlkState) (gi k : Nat) (g : Group), st.groups[gi]? = some g → g.StackOk →
      (∀ e, e = g.slot0.e ∨ e = g.slot1.e ∨ e ∈ st.stack g → e.mask &&& ~~~g.waiting k = 0) →
      let st' := releaseGroup st gi k
      ∃ h, st'.groups[gi]? = some h ∧ (∀ l pc, h.At st' l pc ↔ ∃ pc0, g.At st l pc0 ∧ pc = pcNext pc0) ∧
        h.waiting k = 0 ∧ h.barCounted.getLsbD k = false ∧ h.lanes = g.lanes ∧
        (∀ j, j ≠ gi → st'.groups[j]? = st.groups[j]?) ∧ st'.bars = st.bars ∧
        ∀ i, i < g.dspFloor.toNat ∨ g.dspCeil.toNat ≤ i → st'.scratch.byte i = st.scratch.byte i)

/-- 06 R174, R175, 07 R187, R188: what the words and the copy engines do to an object. An object completes when it has no arrival and no byte left to
wait for: its phase goes up, and its arrivals are the reload count again. 06 R173 to R176: COINIT, ARRIVE, EXPECT and WAITPH. COINIT waits while a copy names an object of its lanes. ARRIVE gives each lane the phase before its arrival.
WAITPH faults on a phase to come, waits while a lane's phase is the present one, and else says in its predicate whether more than one has passed. -/
def Obligations.ObjectWords : Prop :=
  (∀ (o : Obj),
    let done := fun (p : Obj) => if p.arrivals = 0 ∧ p.bytes = 0 then { p with phase := p.phase + 1, arrivals := p.reload } else p
    (∀ n, let r := if n = 0 then 1 else n; Obj.init n = { phase := 0, arrivals := r, bytes := 0, reload := r, clipped := 0, err := false }) ∧
    o.arrive = done { o with arrivals := BitVec.ofNat 16 (o.arrivals.toNat - 1) } ∧
    (∀ n, o.expect n = done { o with bytes := o.bytes + n }) ∧
    (∀ n clip bad, (o.delivered n clip bad).clipped.toNat = min 0xFFFFFF (o.clipped.toNat + clip) ∧ (o.delivered n clip bad).err = (o.err || bad) ∧
      (o.delivered n clip bad).bytes = o.bytes - BitVec.ofNat 32 n ∧
      (o.delivered n clip bad).phase = if o.arrivals = 0 ∧ o.bytes = BitVec.ofNat 32 n then o.phase + 1 else o.phase) ∧
    Obj.ofWords o.w0 o.w1 = o) ∧
  (∀ (s : State) (q : Cur) (c : Ctl) (a : Opnd), Reaches s q c (objReq a q) (fun _ => false) false →
    let E := fun k => q.grp.runs q.slot c k
    let at_ := fun (k off : Nat) => E k = true ∧ s.check q k (objReq a q k) = .scratch off
    let busy := fun (off : Nat) => ∃ p ∈ s.ms.copies, p.2.objs.contains q.id = true ∧ p.2.objOff = off
    (∀ b : Opnd,
      ((∃ k off, at_ k off ∧ busy off) → exec (.coinit c a b) s = .next (s.waitSlot q .coinit)) ∧
      ((∀ k off, at_ k off → ¬ busy off) → ∃ u bk h, exec (.coinit c a b) s = .next u ∧
        ObjEffect s u q c a (fun k _ => Obj.init ((q.grp.opnd (.int .i64 false) b k).extractLsb' 0 16)) bk h ∧
        q.grp.restIs h q.grp.sb q.grp.flg ∧ q.grp.sameLatches h ∧ h.lanes = q.grp.lanes) ∧
      ∃ u bk h, exec (.expect c a b) s = .next u ∧
        ObjEffect s u q c a (fun k o => o.expect ((q.grp.opnd (.int .i64 false) b k).extractLsb' 0 32)) bk h ∧
        q.grp.restIs h q.grp.sb q.grp.flg ∧ q.grp.sameLatches h ∧ h.lanes = q.grp.lanes) ∧
    (∀ d : Dst, s.drainDone q.blk q.id q.gi (s.clk q.blk.cl) .results = true → ∃ u bk h, exec (.arrive c ⟨d, a⟩) s = .next u ∧
      ObjEffect s u q c a (fun _ o => o.arrive) bk h ∧ q.grp.restIs h (q.grp.sb ||| ((1 : W64) <<< d.r.toNat)) q.grp.flg ∧
      q.grp.latchesShift h d.r ∧ (∀ k, E k = false → h.lane k = q.grp.lane k) ∧
      ∀ k off, at_ k off → (q.grp.lane k).OnlyReg (h.lane k) d.r
        ((((q.active c).filter fun j => decide (j < k) && (s.check q j (objReq a q j) == .scratch off)).foldl (fun o _ => o.arrive)
          (q.blk.st.obj off)).phase.setWidth 64) false) ∧
    ∀ (b : Opnd) (p : BitVec 3),
      let ahead := fun k off => ((q.blk.st.obj off).phase - (q.grp.opnd (.int .i64 false) b k).extractLsb' 0 16).toNat
      (∀ k off, at_ k off → 2 ^ 15 ≤ ahead k off → (∀ j o, j < k → at_ j o → ahead j o < 2 ^ 15) →
        exec (.waitph c ⟨p, a, b⟩) s = .next (s.takeFault q { code := .phaseFuture, lane := k, ea := q.grp.opnd (.int .i64 false) a k })) ∧
      ((∀ k off, at_ k off → ahead k off < 2 ^ 15) →
        ((∃ k off, at_ k off ∧ ahead k off = 0) → exec (.waitph c ⟨p, a, b⟩) s = .next (s.waitSlot q .waitph)) ∧
        ((∀ k off, at_ k off → ahead k off ≠ 0) →
          Decides s (.waitph c ⟨p, a, b⟩) q c p fun k v => ∀ off, at_ k off → (v = true ↔ ahead k off ≠ 1))))

/-- 06 R168 to R170, 06 R150, 02 R43: WAITC, when it issues and when it looks again, with every lane's location on this chip. It completes where its condition
holds in every lane of the values that it reads, or where 65,536 cycles have passed since it issued: each lane's register takes the
value that it read, as an LDB reads, and the acquire action follows. A return by its timeout or by the part's choice completes with the last
values read. Otherwise the entry sleeps from now on; its sectors are watched if the core has monitors for all of them, and else none of them is (the
model's choice where it has some, log 94). As LDBs its reads merge the dirty bytes of the cluster's copies of ordinary sectors into their homes, which
wakes whoever watches them, and drop those copies; no other byte of memory changes. -/
def Obligations.WaitWord : Prop := ∀ (s : State) (q : Cur) (c : Ctl) (o : AWaitc),
  let E := fun k => q.grp.runs q.slot c k
  let req := fun k => (⟨q.grp.src (.int .i64 false) o.a k, o.sz.bytes, false, true, false, .any, false, false⟩ : Req)
  let chk := fun k => s.check q k (req k)
  Reaches s q c req (fun _ => true) false → o.sz = .b4 ∨ o.sz = .b8 → (∀ k, E k = true → remoteChk s.fab.chip (chk k) = false) →
  let n := o.sz.bytes
  let wait := (q.grp.pcSlot q.slot).wait
  let merges := fun (m sector : Nat) => (q.active c).any fun j => decide (j < m) && (match chk j with
    | .global leaf pa => decide (placeOf s.fab.chip leaf pa = .cache) && pa / 64 == sector
    | _ => false)
  let v := fun (k : Nat) => (BitVec.ofNat 64 (leNat (match chk k with
    | .scratch off => q.blk.st.scratch.bytes off n
    | .global _ pa => forward (s.queued q) none pa ((List.range n).map fun i =>
        if merges (k + 1) (pa / 64) then s.ms.merged q.blk.cl (pa + i) else s.ms.mem.byte (pa + i))
    | _ => [])) : W64)
  let ok := fun (k : Nat) => if o.sz = .b8 then WCondIs o.cc (v k) (q.grp.src (.int .i64 false) o.b k)
    else WCondIs o.cc ((v k).setWidth 32) ((q.grp.src (.int .i64 false) o.b k).setWidth 32)
  let dev := o.acq = true ∧ atLeastDev o.asc = true ∧ coversG o.ssc = true
  let ends := fun (u : State) (val : Nat → W64) => ∃ b h, Frame s u q b h false ∧ Holds s u q [] ∧
    RegEffect q c o.d.r (q.grp.sb ||| ((1 : W64) <<< o.d.r.toNat)) q.grp.flg val (fun k => q.grp.srcTaint o.a k || q.grp.srcTaint o.b k)
      { h with ahead := q.grp.ahead } ∧
    ∀ e, e ∈ h.ahead ↔ e ∈ q.grp.ahead ∧ ∀ k leaf pa, E k = true → chk k = .global leaf pa → e.sector ≠ pa / 64
  let reads := fun (u : State) => (∀ a, u.ms.mem.byte a = if merges 32 (a / 64) then s.ms.merged q.blk.cl a else s.ms.mem.byte a) ∧
    (∀ x < 2 ^ 46, merges 32 x = true → u.ms.cc.get? (ccKey q.blk.cl x) = none)
  let keeps := fun (u : State) => ∀ x < 2 ^ 46, merges 32 x = false → u.ms.cc.get? (ccKey q.blk.cl x) = s.ms.cc.get? (ccKey q.blk.cl x)
  let acquires := fun (u : State) => (¬ dev ∨ q.active c = [] → keeps u) ∧
    (dev → q.active c ≠ [] → ∀ x y, x < 2 ^ 46 → u.ms.cc.get? (ccKey q.blk.cl x) = some y → y.dirty ≠ 0)
  (∀ issued, (wait.waitc? = none ∧ (∀ w, wait ≠ .waitcCheck w ∧ wait ≠ .waitcLeave w) ∧ issued = (q.grp.pcSlot q.slot).began) ∨
      (∃ w, wait = .waitcCheck w ∧ w.got = [] ∧ issued = w.issued) →
    ((∀ k, E k = true → ok k) ∨ issued + 65536 ≤ s.clk q.blk.cl →
      ∃ u, exec (.waitc c o) s = .next u ∧ ends u v ∧ reads u ∧ acquires u) ∧
    ((∃ k, E k = true ∧ ¬ ok k) → s.clk q.blk.cl < issued + 65536 → ∃ u b h left watch, exec (.waitc c o) s = .next u ∧
      Frame s u q b h false ∧ Holds s u q [] ∧ reads u ∧ keeps u ∧
      let room := (left.countP fun m => m.cl == q.blk.cl && m.co == q.co) + watch.length ≤ 32
      (∀ m, m ∈ left ↔ m ∈ s.ms.monitors ∧ ¬ (m.scratch = false ∧ merges 32 m.sector = true ∧
        ∃ y, s.ms.cc.get? (ccKey q.blk.cl m.sector) = some y ∧ y.dirty ≠ 0)) ∧
      watch.Nodup ∧ (∀ m, m ∈ watch ↔ ∃ k, E k = true ∧
        ((∃ off, chk k = .scratch off ∧ m = ⟨q.id, q.gi, q.blk.cl, q.co, true, off / 64⟩) ∨
          ∃ leaf pa, chk k = .global leaf pa ∧ m = ⟨q.id, q.gi, q.blk.cl, q.co, false, pa / 64⟩)) ∧
      u.ms.monitors = left ++ (if room then watch else []) ∧
      h = q.grp.setSlot q.slot { q.grp.pcSlot q.slot with
        wait := .waitc ⟨issued, s.clk q.blk.cl, (q.active c).map fun k => (k, v k), [], decide room⟩ })) ∧
  ∀ w, wait = .waitcLeave w → ∃ u, exec (.waitc c o) s = .next u ∧ ends u (fun k => (w.vals.find? fun p => p.1 == k).elim 0 fun p => p.2) ∧
    u.ms.mem = s.ms.mem ∧ (¬ dev ∨ q.active c = [] → u.ms.cc = s.ms.cc) ∧
    (dev → q.active c ≠ [] → ∀ x y, x < 2 ^ 46 → u.ms.cc.get? (ccKey q.blk.cl x) = some y → y.dirty ≠ 0)

/-! ### Regrouping and device enqueue -/

/-- 01 R31, 08 R225, R226, R227: REGROUP only ends if no lane executes it. While another group of the core has not come to its own, the lanes that execute it
wait at the word and the others go on. A group that is alone on its core, with every lane in one entry that executes the word, passes it at once. What a lane
keeps when it moves: the registers that the donor's mask names, with their taints, and everything that is no register. 08 R227: a receiver, in ascending
order, takes the first later group whose live lanes fit beside its own and that no earlier receiver has taken; the donor's live lanes, in ascending order,
go to the receiver's lowest free lane numbers, and their offers with them; the donor keeps none. A group that passes goes on in one entry of all its
lanes. -/
def Obligations.Regroup : Prop := ∀ (s : State) (q : Cur) (c : Ctl) (a : Opnd), s.cur? = some q →
  let E := fun k => q.grp.runs q.slot c k
  (q.active c = [] → Passes s (.regroup c a) q) ∧
  (∀ k l, q.active c = k :: l → q.grp.StackOk → q.pc.extractLsb' 0 3 = 0 →
    (∃ j g, j ≠ q.gi ∧ q.blk.st.groups[j]? = some g ∧ q.blk.coreOf j = q.co ∧ g.retired = false ∧ g.atRegroup = none) →
    let next := fun i => if E i then some q.pc else q.stay
    Fits q q.grp next → ∃ st h, exec (.regroup c a) s = .next (s.putSt q (st.setGroup q.gi h)) ∧ Routes q next st h ∧
      q.grp.restIs { h with regWait := q.grp.regWait, regMask := q.grp.regMask } q.grp.sb q.grp.flg ∧ q.grp.sameLatches h ∧
      h.lanes = q.grp.lanes ∧ (∀ i < 32, h.regWait.getLsbD i = (q.grp.regWait.getLsbD i || E i)) ∧
      ((∀ i < 32, q.grp.regWait.getLsbD i = true → k ≤ i) → h.regMask = q.grp.opnd (.int .i64 false) a k) ∧
      ((∃ i < k, q.grp.regWait.getLsbD i = true) → h.regMask = q.grp.regMask)) ∧
  (q.active c ≠ [] → q.blk.stopping = .none → q.grp.retired = false → q.grp.live = q.mask → (∀ k < 32, q.mask.getLsbD k = true → E k = true) →
    (q.grp.pcSlot !q.slot).e.mask = 0 → q.grp.depth = 0 →
    (∀ j g, j ≠ q.gi → q.blk.st.groups[j]? = some g → q.blk.coreOf j = q.co → g.retired = true) →
    ∃ h, exec (.regroup c a) s = .next (s.putGrp q h) ∧ h.regWait = 0 ∧ h.lanes = q.grp.lanes ∧ q.grp.sameLatches h ∧
      q.grp.restIs { h with regWait := q.grp.regWait, regMask := q.grp.regMask } q.grp.sb q.grp.flg ∧
      ∀ k pc, h.At q.blk.st k pc ↔ q.mask.getLsbD k = true ∧ pc = q.pc + 8) ∧
  (∀ (nregs : Nat) (mask : BitVec 64) (free : Nat) (l : Lane), nregs ≤ 64 →
    let m := moveLane nregs mask free l
    (∀ r : Reg, mask.getLsbD r.toNat = true → m.reg r = l.reg r ∧ m.tnt r = l.tnt r) ∧
    { m with regs := l.regs, taint := l.taint } = l) ∧
  (∀ l : List (Nat × Nat), (l.Pairwise fun x y => x.1 < y.1) → (∀ x ∈ l, x.2 ≤ 32) →
    let P := regroupPairs l.length l
    (P.flatMap fun p => [p.1, p.2]).Nodup ∧
    (∀ p ∈ P, ∃ a b, (p.1, a) ∈ l ∧ (p.2, b) ∈ l ∧ p.1 < p.2 ∧ a + b ≤ 32 ∧
      ∀ d n, (d, n) ∈ l → p.1 < d → d < p.2 → a + n ≤ 32 → ∃ p' ∈ P, p'.1 < p.1 ∧ p'.2 = d) ∧
    ∀ r a, (r, a) ∈ l → (∀ p ∈ P, p.1 ≠ r ∧ p.2 ≠ r) → ∀ d n, (d, n) ∈ l → r < d → a + n ≤ 32 → ∃ p ∈ P, p.1 < r ∧ p.2 = d) ∧
  (∀ (st : BlkState) (nregs free i j : Nat) (r d : Group), i ≠ j → st.groups[i]? = some r → st.groups[j]? = some d → r.lanes.length = 32 →
    let live := (List.range 32).filter fun k => (d.lane k).present
    let room := (List.range 32).filter fun k => !(r.lane k).present
    live.length ≤ room.length →
    let t := (moveLanes nregs (i, j) (st, free)).1
    ∃ r' d', t.groups[i]? = some r' ∧ t.groups[j]? = some d' ∧ (∀ n, n ≠ i → n ≠ j → t.groups[n]? = st.groups[n]?) ∧
      (∀ (n k p : Nat), live[n]? = some k → room[n]? = some p → (∃ f, r'.lane p = moveLane nregs d.regMask f (d.lane k)) ∧
        ∀ e ∈ st.board, e.grp.toNat = j → e.lane.toNat = k → { e with grp := BitVec.ofNat 5 i, lane := BitVec.ofNat 5 p } ∈ t.board) ∧
      (∀ p, p ∉ room.take live.length → r'.lane p = r.lane p) ∧ ∀ k, (d'.lane k).present = false) ∧
  ∀ (st : BlkState) (l : List Nat) (i : Nat) (g : Group) (z : Bool), l.Nodup → i ∈ l → st.groups[i]? = some g →
    (g.pcSlot z).e.mask ≠ 0 → (g.pcSlot z).e.mask &&& ~~~g.regWait = 0 → (g.pcSlot !z).e.mask = 0 →
    ∃ h, (passRegroup st l).groups[i]? = some h ∧ (h.pcSlot z).e = ⟨(g.pcSlot z).e.pc + 8, g.live⟩ ∧ (h.pcSlot !z) = g.pcSlot !z ∧
      h.regWait = 0 ∧ h.lanes = g.lanes

/-- 08 R229, R230: ENQ of a block that is no speculation. A handle or a body that is misaligned faults before anything is read; any lane that cannot be served stops
the word. Otherwise one act for each executing lane waits in the core, releasing at DEV: it carries the queue and the 16 words of the lane's
body, and its answer goes to the predicate, which is scoreboarded (02 R43). -/
def Obligations.Enqueue : Prop := ∀ (s : State) (q : Cur) (c : Ctl) (o : P2), s.cur? = some q →
  let v := fun (x : Opnd) k => q.grp.opnd (.int .i64 false) x k
  (q.active c = [] → Passes s (.enq c o) q) ∧
  (∀ k l, q.blk.spec = none → q.active c = k :: l → (v o.a k).toNat % 256 ≠ 0 →
    exec (.enq c o) s = .next (s.takeFault q { code := .misaligned, lane := k, ea := v o.a k })) ∧
  (∀ k l, q.blk.spec = none → q.active c = k :: l → (v o.a k).toNat % 256 = 0 → (v o.b k).toNat % 64 ≠ 0 →
    exec (.enq c o) s = .next (s.takeFault q { code := .misaligned, lane := k, ea := v o.b k })) ∧
  (∀ x, q.blk.spec = none → q.active c ≠ [] → planEnqs (s.planEnq q o) (q.active c) s.ms = .error x →
    exec (.enq c o) s = .next (stopWord s q x)) ∧
  ∀ l ms, q.blk.spec = none → q.active c ≠ [] → planEnqs (s.planEnq q o) (q.active c) s.ms = .ok (l, ms) →
    l.map (fun p => p.1) = q.active c ∧
    (∀ p ∈ l, p.2.2.length = 16 ∧ ∃ x, s.queueOf q.blk.asid (v o.a p.1) = some x ∧ p.2.1 = x.2.pa) ∧
    ∃ u b h, exec (.enq c o) s = .next u ∧ Frame s u q b h false ∧ u.ms.mem = s.ms.mem ∧
      Holds s u q (l.map fun p => Cur.hold s q p.1 (v o.a p.1) (some (.dev, .sg)) none (.enq p.2.1 p.2.2 ⟨p.1, none, false, none, some o.p⟩)) ∧
      q.grp.restIs { h with acqPend := q.grp.acqPend, psb := q.grp.psb } q.grp.sb q.grp.flg ∧ h.acqPend = q.grp.acqPend + l.length ∧
      (∀ p : BitVec 3, p ≠ 7 → h.psb.getLsbD p.toNat = (q.grp.psb.getLsbD p.toNat || p == o.p)) ∧
      q.grp.sameLatches h ∧ h.lanes = q.grp.lanes ∧ (b.prot.on = true → b.prot.sealed = true)

/-! ### Copies -/

/-- 07 R190, R191, R195, R196, R198: COPY, COPYM, COPYS and COPYG once the lanes' checks have given the copies `cs`. A copy that is not empty takes a slot of the core under a
fresh number, adds its bytes to the object of its own block at once, and hands itself over when it leaves the core; memory does not change. With no slot free the word waits,
and keeps the lanes that are done. A lane that fails its checks stops the word. 07 R182, R184, R185, R190, R195, R196: the checks of a copy in a lane, in their order, and the copy that it makes. -/
def Obligations.CopyWords : Prop :=
  (∀ (s : State) (q : Cur) (c : Ctl), s.cur? = some q → q.done = 0 → (q.grp.pcSlot q.slot).plans = [] →
    (∀ x ∈ s.invals, ∀ k, (q.id, q.gi, k) ∈ x.plans → q.grp.runs q.slot c k = false) →
    let word := fun (i : Instr) (plan : MemSys → Nat → Chkd (CopyOp × MemSys)) =>
      (∀ x, planAll plan (q.active c) s.ms = .error x → exec i s = .next (stopWord s q x)) ∧
      ∀ cs ms, planAll plan (q.active c) s.ms = .ok (cs, ms) → (q.blk.spec = none → ms.mem = s.ms.mem) ∧
        let real := cs.filter fun x => !x.empty
        let own := fun (off : Nat) => real.filter fun x => x.objs.contains q.id && x.objOff == off
        (s.ms.slotsUsed q.blk.cl q.co + real.length ≤ 16 → ∃ u b h ids, exec i s = .next u ∧ Frame s u q b h true ∧ u.ms.mem = ms.mem ∧
          q.grp.restIs h q.grp.sb q.grp.flg ∧ q.grp.sameLatches h ∧ h.lanes = q.grp.lanes ∧
          ids.length = real.length ∧ ids.Nodup ∧
          (u.core q.blk.cl q.co).held =
            (s.core q.blk.cl q.co).held ++ List.zipWith (fun (x : CopyOp) id => Cur.hold s q x.lane 0 none none (.handoff id)) real ids ∧
          (∀ p ∈ List.zip real ids, s.ms.copies.get? p.2 = none ∧ u.ms.copies.get? p.2 = some p.1) ∧
          (∀ id, id ∉ ids → u.ms.copies.get? id = s.ms.copies.get? id) ∧
          (∀ off, off % 16 = 0 → b.st.obj off =
            (own off).foldl (fun (o : Obj) x => { o with bytes := o.bytes + BitVec.ofNat 32 x.size }) (q.blk.st.obj off)) ∧
          (∀ a, (∀ x ∈ real, x.objs.contains q.id = true → a < x.objOff ∨ x.objOff + 16 ≤ a) →
            b.st.scratch.byte a = q.blk.st.scratch.byte a) ∧
          (q.active c ≠ [] → b.prot.on = true → b.prot.sealed = true)) ∧
        (16 ≤ s.ms.slotsUsed q.blk.cl q.co → ∀ x l, cs = x :: l → x.empty = false →
          ∃ u b h, exec i s = .next u ∧ Frame s u q b h false ∧ Holds s u q [] ∧ u.ms.copies = s.ms.copies ∧ u.ms.mem = ms.mem ∧
            h = q.grp.setSlot q.slot { q.grp.pcSlot q.slot with wait := .copySlot, plans := cs })
    (∀ o : CBox, word (.copy c o) (s.planBox q o .load) ∧ word (.copym c o) (s.planBox q o .multi) ∧ word (.copys c o) (s.planBox q o .store)) ∧
    ∀ o : CGlob, word (.copyg c o) (s.planGlobal q o)) ∧
  (∀ (s : State) (q : Cur) (ms : MemSys) (k : Nat),
    let w := 0x1FFFFE00000
    let inside := fun (ea : W64) (n : Nat) => w ≤ ea.toNat ∧ ea.toNat < w + 0x200000 ∧ ea.toNat - w + n ≤ q.blk.scratchSize
    let bad := fun (code : FaultCode) (ea : W64) => (Stop.fault { code := code, lane := k, ea := ea })
    (∀ (o : CBox) (kind : CopyKind), kind ≠ .global →
      let plan := s.planBox q o kind ms k
      let l := q.grp.lane k
      let oe := l.reg o.o
      let re := q.grp.opnd (.int .i64 false) o.b k
      let se := q.grp.opnd (.int .i64 false) o.a k
      let co := coordsOf l o.c
      let obj := oe.toNat % 16 = 0 ∧ inside oe 16
      (oe.toNat % 16 ≠ 0 → plan = .error (bad .misaligned oe)) ∧
      (oe.toNat % 16 = 0 → ¬ inside oe 16 → plan = .error (bad .scratchRange oe)) ∧
      (obj → re.toNat % 64 ≠ 0 → plan = .error (bad .misaligned re)) ∧
      ∀ r m, obj → re.toNat % 64 = 0 → s.readRecord q ms k re = .ok (r, m) →
        let n := (Box.ofWords r).size
        let valid := recordValid r co (kind != .store) = true
        let far := se.toNat + n ≤ oe.toNat ∨ oe.toNat + 16 ≤ se.toNat
        (¬ valid → plan = .error (bad .reservedField re)) ∧
        (valid → se.toNat % 16 ≠ 0 → plan = .error (bad .misaligned se)) ∧
        (valid → se.toNat % 16 = 0 → ¬ inside se n → plan = .error (bad .scratchRange se)) ∧
        (valid → se.toNat % 16 = 0 → inside se n → ¬ far → plan = .error (bad .scratchRange se)) ∧
        ∀ p, plan = .ok p → valid ∧ se.toNat % 16 = 0 ∧ inside se n ∧ far ∧ p.2 = m ∧ p.1.kind = kind ∧ p.1.lane = k ∧ p.1.blk = q.id ∧ p.1.grp = q.gi ∧
          p.1.objOff = oe.toNat - w ∧ p.1.sofs = se.toNat - w ∧ p.1.size = n ∧ p.1.trec = r ∧ p.1.coord = co ∧ (kind ≠ .multi → p.1.objs = [q.id]) ∧
          (kind = .multi → ∀ id, id ∈ p.1.objs ↔ ∃ j < 8, (l.reg (o.c + 3)).getLsbD j = true ∧ s.blocksOn q.blk.cl j q.blk.launch = [id])) ∧
    ∀ o : CGlob,
      let plan := s.planGlobal q o ms k
      let oe := (q.grp.lane k).reg o.o
      let d := q.grp.opnd (.int .i64 false) o.a k
      let a := q.grp.opnd (.int .i64 false) o.b k
      let n := (q.grp.opnd (.int .i64 false) o.n k).toNat
      let obj := oe.toNat % 16 = 0 ∧ inside oe 16
      let window := fun (x : W64) => w ≤ x.toNat ∧ x.toNat < w + 0x200000
      let even := d.toNat % 16 = 0 ∧ a.toNat % 16 = 0 ∧ n % 16 = 0
      (oe.toNat % 16 ≠ 0 → plan = .error (bad .misaligned oe)) ∧
      (oe.toNat % 16 = 0 → ¬ inside oe 16 → plan = .error (bad .scratchRange oe)) ∧
      (obj → ¬ even → plan = .error (bad .misaligned (if d.toNat % 16 = 0 ∧ a.toNat % 16 ≠ 0 then a else d))) ∧
      (obj → even → window d ∨ window a → plan = .error (bad .scratchRange (if window d then d else a))) ∧
      (obj → even → ¬ window d → ¬ window a → 262144 < n → plan = .error (bad .reservedField d)) ∧
      ∀ p, plan = .ok p → obj ∧ even ∧ ¬ window d ∧ ¬ window a ∧ n ≤ 262144 ∧ p.2 = ms ∧ p.1.kind = .global ∧ p.1.dva = d ∧ p.1.sva = a ∧ p.1.size = n ∧
        p.1.objOff = oe.toNat - w ∧ p.1.objs = [q.id] ∧ p.1.lane = k)

/-! ### Matrix words -/

/-- 07 R181, R200, R201, R203, R204: the nine MMAs. The lowest executing lane gives the operands. The checks in order: the tile's rows lie in the window; PAIR
asks for a pair and one of the leader's groups; both addresses are multiples of 16; A's range and then B's lie in the block's scratchpad. The word waits while a range is held;
otherwise its operation joins the open batch, with its two ranges, and no register or memory changes. -/
def Obligations.MatrixMultiply : Prop := ∀ (s : State) (q : Cur) (c : Ctl), s.cur? = some q →
  let w := 0x1FFFFE00000
  let inside := fun (ea : W64) (n : Nat) => w ≤ ea.toNat ∧ ea.toNat < w + 0x200000 ∧ ea.toNat - w + n ≤ q.blk.scratchSize
  let mma := fun (i : Instr) (tile : BitVec 4) (a b : Src) (planes na : Nat) (pair : Bool) (op : Nat → Nat → Nat → MOp) =>
    (q.active c = [] → Passes s i q) ∧
    ∀ k l, q.active c = k :: l →
      let row := q.grp.acb.toNat + 64 * tile.toNat
      let va := q.grp.src (.int .i64 false) a k
      let vb := q.grp.src (.int .i64 false) b k
      let nb := 384 * planes * (if pair then 2 else 1)
      let fits := row + 64 ≤ q.grp.acl.toNat
      let may := pair = true → q.blk.pair = true ∧ q.blk.coreOf q.gi = q.blk.co
      let even := va.toNat % 16 = 0 ∧ vb.toNat % 16 = 0
      let out := fun (code : FaultCode) (ea : W64) => exec i s = .next (s.takeFault q { code := code, lane := k, ea := ea })
      let held := s.operandHeld q (va.toNat - w) na false = true ∨ s.operandHeld q (vb.toNat - w) nb false = true
      (¬ fits → out .accWindow 0) ∧
      (fits → ¬ may → out .reservedField 0) ∧
      (fits → may → ¬ even → out .misaligned (if va.toNat % 16 = 0 then vb else va)) ∧
      (fits → may → even → ¬ inside va na → out .scratchRange va) ∧
      (fits → may → even → inside va na → ¬ inside vb nb → out .scratchRange vb) ∧
      (fits → may → even → inside va na → inside vb nb → held → exec i s = .next (s.waitSlot q .held)) ∧
      (fits → may → even → inside va na → inside vb nb → ¬ held → ∃ h, exec i s = .next (s.putGrp q h) ∧
        Joins s q h k true (op row (va.toNat - w) (vb.toNat - w)) [(va.toNat - w, na, false), (vb.toNat - w, nb, false)])
  (∀ o : XMmaF,
    let wide := fun (f : AFmt) => match f with | .e4m3 => 1 | .e5m2 => 1 | .bf16 => 2 | .fp16 => 2
    let f := fun (i : Instr) (bf : AFmt) => mma i o.tile o.a o.b (8 * wide bf) (2048 * wide o.af) o.pair fun r x y => .mmaF bf o.af r x y o.pair
    f (.mmaF8e4 c o) .e4m3 ∧ f (.mmaF8e5 c o) .e5m2 ∧ f (.mmaBf16 c o) .bf16 ∧ f (.mmaF16 c o) .fp16) ∧
  (∀ o : XMmaI,
    let f := fun (i : Instr) (bits : Nat) => mma i o.tile o.a o.b bits 2048 o.pair fun r x y => .mmaI bits r x y o.pair
    f (.mmaI8 c o) 8 ∧ f (.mmaI4 c o) 4 ∧ f (.mmaI2 c o) 2 ∧ f (.mmaB1 c o) 1) ∧
  ∀ o : XMmaQ,
    let wide := match o.af with | .e4m3 => 1 | .e5m2 => 1 | .bf16 => 2 | .fp16 => 2
    mma (.mmaQc4 c o) o.tile o.a o.b 4 (2048 * wide) o.pair fun r x y =>
      .mmaQ o.af r x y o.pair (scalesOf q.grp o.sc o.bs ++ if o.pair then scalesOf q.grp (o.sc + 5) o.bs else [])

/-- 03 R79, R80: the block scales and the superblock scale that a QC4 MMA reads at issue, for each column, also at a lane position that holds no lane (the model's
choice, log 86). 03 R78, R81 to R85, 07 R201, R202, R205, R206, R207: what an operation of a batch does to the 64 rows of its tile, with no other row, no other core's
accumulator and nothing else of the block changed. An integer cell takes the sum of 32 products modulo 2^32; a float cell adds, in two steps, the exact sum of 16
products with one rounding each, and a QC4 cell that sum times the column's superblock scale; a pair gives its second 96 columns to the follower, and
keeps every other row of both cores; MZERO clears; an MLOAD from scratch widens each value to FP32, which is exact; an MSTORE rounds each cell to its format, once, to
nearest, and changes no cell. -/
def Obligations.MatrixCells : Prop :=
  (∀ (g : Group) (sc : Reg) (bs : Bool) (n : Nat), n < 96 →
    let v := fun (j : Nat) => (g.lane (n % 32)).reg (sc + BitVec.ofNat 6 j)
    (scalesOf g sc bs).length = 96 ∧
    (∀ i < 32, ((scalesOf g sc bs).getD n (0, 0)).1.getLsbD i = (v (n / 32)).getLsbD ((if bs then 32 else 0) + i)) ∧
    ∀ i < 32, ((scalesOf g sc bs).getD n (0, 0)).2.getLsbD i =
      (if n < 32 then (v 3).getLsbD i else if n < 64 then (v 3).getLsbD (32 + i) else (v 4).getLsbD i)) ∧
  (∀ (st : BlkState) (ms : MemSys) (cl : Nat) (spec : Option Nat) (see : W64 → Nat → List Byte → List Byte) (ftz follower : Bool) (row : Nat),
    let run := fun (op : MOp) => (runMOp st ms cl spec see ftz follower op).1
    let mem := fun (x : BlkState) => if follower then x.accF else x.acc
    let old := fun (m n : Nat) => cell (mem st) (row + m) n
    let sets := fun (op : MOp) (f : Nat → Nat → BitVec 32) => ∀ m < 64, ∀ n < 96, cell (mem (run op)) (row + m) n = f m n
    let keeps := fun (op : MOp) => ∀ r n, n < 96 → r < row ∨ row + 64 ≤ r → cell (run op).acc r n = cell st.acc r n ∧
      cell (run op).accF r n = cell st.accF r n
    let alone := fun (op : MOp) => if follower then (run op).acc = st.acc else (run op).accF = st.accF
    let bAt := fun (b k n : Nat) (planes : Nat) => ((List.range planes).map fun p =>
      if (st.scratch.byte (b + 384 * p + 12 * k + n / 8)).getLsbD (n % 8) then 2 ^ p else 0).sum
    let signed := fun (bits v : Nat) => (if bits = 1 then (if v = 1 then 1 else -1) else if v < 2 ^ (bits - 1) then (v : Int) else (v : Int) - 2 ^ bits)
    let sumI := fun (bits a b m n : Nat) => ((List.range 32).map fun k =>
      (st.scratch.byte (a + 32 * m + k)).toInt * signed bits (bAt b k n bits)).sum
    let addF := fun (v : BitVec 32) (x : FVal) => (BitVec.ofNat 32 (FFmt.f32.add .rne ftz (FFmt.f32.read ftz v.toNat) x).bits : BitVec 32)
    let aAt := fun (af : AFmt) (a m k : Nat) =>
      (aFmt af).read ftz (leNat (st.scratch.bytes (a + (32 * m + k) * ((aFmt af).width / 8)) ((aFmt af).width / 8)))
    let prod := fun (bf af : AFmt) (a b m n k : Nat) => ((aAt af a m k).mul ((aFmt bf).read ftz (bAt b k n (aFmt bf).width))).1
    let code := fun (idx s8 : Nat) => let x := codebook.getD idx 0
      (FVal.fin (decide (x < 0)) (x.natAbs * (s8 + 1)) (-16))
    let dotQ := fun (af : AFmt) (a b : Nat) (sc : List (BitVec 32 × BitVec 32)) (m n : Nat) (v : BitVec 32) =>
      let x := sc.getD n (0, 0)
      let half := fun (h : Nat) => ((exactSum ((List.range 16).map fun i =>
        ((aAt af a m (16 * h + i)).mul (code (bAt b (16 * h + i) n 4) (x.1.extractLsb' (8 * ((16 * h + i) / 8)) 8).toNat)).1)).mul
          (FFmt.f32.read ftz x.2.toNat)).1
      addF (addF v (half 0)) (half 1)
    let dot := fun (bf af : AFmt) (a b m n : Nat) (v : BitVec 32) =>
      addF (addF v (exactSum ((List.range 16).map fun i => prod bf af a b m n i))) (exactSum ((List.range 16).map fun i => prod bf af a b m n (16 + i)))
    (∀ op, { run op with acc := st.acc, accF := st.accF, tilesW := st.tilesW } = st) ∧
    (∀ bits a b, bits ∈ [1, 2, 4, 8] →
      sets (.mmaI bits row a b false) (fun m n => old m n + BitVec.ofInt 32 (sumI bits a b m n)) ∧ keeps (.mmaI bits row a b false) ∧
      alone (.mmaI bits row a b false) ∧ (follower = false → keeps (.mmaI bits row a b true) ∧ sets (.mmaI bits row a b true) (fun m n => old m n + BitVec.ofInt 32 (sumI bits a b m n)) ∧
        ∀ m < 64, ∀ n < 96, cell (run (.mmaI bits row a b true)).accF (row + m) n =
          cell st.accF (row + m) n + BitVec.ofInt 32 (sumI bits a (b + 384 * bits) m n))) ∧
    (∀ bf af a b, sets (.mmaF bf af row a b false) (fun m n => dot bf af a b m n (old m n)) ∧ keeps (.mmaF bf af row a b false) ∧
      alone (.mmaF bf af row a b false) ∧ (follower = false → keeps (.mmaF bf af row a b true) ∧ sets (.mmaF bf af row a b true) (fun m n => dot bf af a b m n (old m n)) ∧
        ∀ m < 64, ∀ n < 96, cell (run (.mmaF bf af row a b true)).accF (row + m) n =
          dot bf af a (b + 384 * (aFmt bf).width) m n (cell st.accF (row + m) n))) ∧
    (∀ af a b sc, sets (.mmaQ af row a b false sc) (fun m n => dotQ af a b sc m n (old m n)) ∧ keeps (.mmaQ af row a b false sc) ∧
      alone (.mmaQ af row a b false sc) ∧ (follower = false → keeps (.mmaQ af row a b true sc) ∧
        sets (.mmaQ af row a b true sc) (fun m n => dotQ af a b sc m n (old m n)) ∧
        ∀ m < 64, ∀ n < 96, cell (run (.mmaQ af row a b true sc)).accF (row + m) n =
          dotQ af a (b + 1536) (sc.drop 96) m n (cell st.accF (row + m) n))) ∧
    (sets (.mzero row) (fun _ _ => 0) ∧ keeps (.mzero row) ∧ alone (.mzero row)) ∧
    (∀ fmt va pages, inWindow va = true →
      let f := tileFmt fmt
      let w := f.width / 8
      sets (.mload fmt row va pages) (fun m n =>
        let x := leNat (st.scratch.bytes (va.toNat - 0x1FFFFE00000 + w * (96 * m + n)) w)
        BitVec.ofNat 32 (if fmt = .f32 then x else (FFmt.f32.ofVal .rne false (f.read ftz x)).bits)) ∧
      keeps (.mload fmt row va pages) ∧ alone (.mload fmt row va pages)) ∧
    ∀ fmt va pages,
      let f := tileFmt fmt
      let w := f.width / 8
      let r := runMOp st ms cl spec see ftz follower (.mstore fmt row va pages)
      r.1 = st ∧ ∃ l, r.2.2.1 = [(va, pages, l)] ∧ l.length = w * 6144 ∧
        ∀ m < 64, ∀ n < 96, (l.drop (w * (96 * m + n))).take w =
          leBytes (if fmt = .f32 then (old m n).toNat else (f.ofVal .rne ftz (FFmt.f32.read ftz (old m n).toNat)).bits) w) ∧
  ∀ l : List (Bool × Nat × Int), l ≠ [] →
    let val := fun (x : Bool × Nat × Int) => (if x.1 then -1 else 1 : Rat) * x.2.1 * 2 ^ x.2.2
    ∃ neg m e, exactSum (l.map fun x => FVal.fin x.1 x.2.1 x.2.2) = .fin neg m e ∧ val (neg, m, e) = (l.map val).sum

/-- 07 R200, R204 to R209, 01 R21, R22: MZERO, MLOAD and MSTORE check the window, then the address; with their range free they join the open batch. MFENCE answers BCNT, counts it up and
closes the open batch, or an empty one. MWAIT faults on a number not issued yet, waits for a batch that has not retired, and else passes. ACWIN waits for the closed batches of
its target group, faults unless the window is allowed, and else sets the target's window alone. -/
def Obligations.MatrixWords : Prop := ∀ (s : State) (q : Cur) (c : Ctl), s.cur? = some q →
  let w := 0x1FFFFE00000
  let v := fun (x : Opnd) k => q.grp.opnd (.int .i64 false) x k
  let fault := fun (i : Instr) (code : FaultCode) (k : Nat) (ea : W64) => exec i s = .next (s.takeFault q { code := code, lane := k, ea := ea })
  let tile := fun (i : Instr) (t : BitVec 4) => (q.active c = [] → Passes s i q) ∧
    ∀ k l, q.active c = k :: l → ¬ q.grp.acb.toNat + 64 * t.toNat + 64 ≤ q.grp.acl.toNat → fault i .accWindow k 0
  (∀ t, tile (.mzero c t) t ∧ ∀ k l, q.active c = k :: l → let row := q.grp.acb.toNat + 64 * t.toNat
    row + 64 ≤ q.grp.acl.toNat → ∃ h, exec (.mzero c t) s = .next (s.putGrp q h) ∧ Joins s q h k false (.mzero row) []) ∧
  (∀ (o : XTile) (write : Bool), let i := if write then Instr.mstore c o else Instr.mload c o
    tile i o.tile ∧ ∀ k l, q.active c = k :: l →
      let row := q.grp.acb.toNat + 64 * o.tile.toNat
      let va := v o.a k
      let n := 6144 * (match o.fmt with | .f32 => 4 | .bf16 => 2 | .f16 => 2 | .e4m3 => 1 | .e5m2 => 1)
      let window := w ≤ va.toNat ∧ va.toNat < w + 0x200000
      let room := va.toNat - w + n ≤ q.blk.scratchSize
      let op := fun (p : KMap W64) => if write then MOp.mstore o.fmt row va p else MOp.mload o.fmt row va p
      row + 64 ≤ q.grp.acl.toNat →
      (va.toNat % 64 ≠ 0 → fault i .misaligned k va) ∧
      (va.toNat % 64 = 0 →
        (window → ¬ room → fault i .scratchRange k va) ∧
        (window → room → s.operandHeld q (va.toNat - w) n write = true → exec i s = .next (s.waitSlot q .held)) ∧
        (window → room → s.operandHeld q (va.toNat - w) n write = false →
          ∃ h, exec i s = .next (s.putGrp q h) ∧ Joins s q h k false (op []) [(va.toNat - w, n, write)]) ∧
        (¬ window → ∀ x, s.tilePages q k write (tileVas va n) [] = .error x → exec i s = .next (stopWord s q x)) ∧
        (¬ window → ∀ p, s.tilePages q k write (tileVas va n) [] = .ok p →
          let sector := fun (j : Nat) => let a := va + BitVec.ofNat 64 (64 * j)
            (65536 * pteAddr (p.getD (a.toNat / 262144) 0) + a.toNat % 262144) / 64
          (write = false → (∀ j < n / 64, sector j ∉ s.ms.owned ∧ sector j ∉ s.ms.ownedBy q.blk.spec) →
            ∃ h, exec i s = .next (s.putGrp q h) ∧ Joins s q h k false (op p) []) ∧
          (write = true → q.blk.spec = none → (∀ x ∈ (s.core q.blk.cl q.co).held, x.act.range = none) →
            ∃ u b h, exec i s = .next u ∧ Frame s u q b h false ∧ Holds s u q [] ∧ Joins s q h k false (op p) [] ∧
              ∀ j < n / 64, sector j ∈ u.ms.owned)))) ∧
  (∀ d, ∃ h, exec (.mfence c d) s = .next (s.putGrp q h) ∧
    RegEffect q c d (if q.active c = [] then q.grp.sb else q.grp.sb ||| ((1 : W64) <<< d.toNat)) q.grp.flg (fun _ => q.grp.bcnt.setWidth 64) (fun _ => false)
      { h with bcnt := q.grp.bcnt, batches := q.grp.batches } ∧
    (q.active c = [] → h.bcnt = q.grp.bcnt ∧ h.batches = q.grp.batches) ∧
    (q.active c ≠ [] → h.bcnt = q.grp.bcnt + 1 ∧ (∀ t ∈ h.batches, t.closed = true) ∧
      ((∀ t ∈ q.grp.batches, t.closed = true) → h.batches = q.grp.batches ++ [⟨q.grp.bcnt, true, s.clk q.blk.cl, 0, [], [], []⟩]) ∧
      ((∃ t ∈ q.grp.batches, t.closed = false) → h.batches.map (fun t => (t.num, t.mmas, t.ops, t.ranges, t.outs)) =
        q.grp.batches.map fun t => (t.num, t.mmas, t.ops, t.ranges, t.outs)))) ∧
  (∀ a, (q.active c = [] → Passes s (.mwait c a) q) ∧ ∀ k l, q.active c = k :: l →
    let n := (v a k).extractLsb' 0 32
    let issued := n ≠ q.grp.bcnt ∧ (q.grp.bcnt - n).toNat ≤ 2 ^ 31
    (¬ issued → fault (.mwait c a) .batchFuture k 0) ∧
    (issued → (∃ t ∈ q.grp.batches, t.closed = true ∧ t.num = n) → exec (.mwait c a) s = .next (s.waitSlot q .batch)) ∧
    (issued → (∀ t ∈ q.grp.batches, t.closed = true → t.num ≠ n) → Passes s (.mwait c a) q)) ∧
  ∀ o : XAcwin, (q.active c = [] → Passes s (.acwin c o) q) ∧ ∀ k l, q.active c = k :: l →
    let lo := (v o.a k).toNat
    let hi := (v o.b k).toNat
    let gi := (v o.c k).toNat
    let clash := ∃ j g, j ≠ gi ∧ q.blk.st.groups[j]? = some g ∧ g.retired = false ∧ q.blk.coreOf j = q.blk.coreOf gi ∧
      lo < hi ∧ g.acb.toNat < g.acl.toNat ∧ lo < g.acl.toNat ∧ g.acb.toNat < hi
    let ok := ∀ g, q.blk.st.groups[gi]? = some g → lo % 64 = 0 ∧ hi % 64 = 0 ∧ lo ≤ hi ∧ hi ≤ 64 * q.blk.tiles ∧ hi < 2048 ∧ gi < 32 ∧ g.retired = false ∧ ¬ clash
    (gi < 32 → q.blk.st.groups[gi]? = none → fault (.acwin c o) .accWindow k 0) ∧
    (∀ g, gi < 32 → q.blk.st.groups[gi]? = some g → g.retired = false → (∃ t ∈ g.batches, t.closed = true) →
      exec (.acwin c o) s = .next (s.waitSlot q .batch)) ∧
    (∀ g, gi < 32 → q.blk.st.groups[gi]? = some g → (∀ t ∈ g.batches, t.closed = false) → ¬ ok → fault (.acwin c o) .accWindow k 0) ∧
    (∀ g, gi < 32 → q.blk.st.groups[gi]? = some g → (∀ t ∈ g.batches, t.closed = false) → ok → gi = q.gi →
      ∃ h, exec (.acwin c o) s = .next (s.putGrp q h) ∧ h.acb.toNat = lo ∧ h.acl.toNat = hi ∧
        q.grp.restIs { h with acb := q.grp.acb, acl := q.grp.acl } q.grp.sb q.grp.flg ∧ q.grp.sameLatches h ∧ h.lanes = q.grp.lanes) ∧
    ∀ g, gi < 32 → q.blk.st.groups[gi]? = some g → (∀ t ∈ g.batches, t.closed = false) → ok → gi ≠ q.gi →
      ∃ h x, exec (.acwin c o) s = .next (s.putSt q ((q.blk.st.setGroup gi x).setGroup q.gi h)) ∧
        x.acb.toNat = lo ∧ x.acl.toNat = hi ∧ { x with acb := g.acb, acl := g.acl } = g ∧
        q.grp.restIs h q.grp.sb q.grp.flg ∧ q.grp.sameLatches h ∧ h.lanes = q.grp.lanes

/-- 07 R213 to R216, 01 R23: one element of a TSWEEP or a TSRED, its records read and matching and its loads and its store served. The element that TIX names is computed from the
sources' elements at the same index, or, for TSRED, from all those that the mask gives; its result is stored; the operation's flags, and not those of the
widening or of the rounding at the store (log 25), go into FLG. TIX goes on to the next element, and after
the last one, or at an index outside the destination, it is 0 and the word is over. A record that does not match stops it before the first element. With the records and the elements in the block's own scratchpad
an element completes, and the store is the result rounded to the destination's format. That a mask bit at or above the source's rank faults is the model's choice (log 89). What each operation computes, and
which records suit it, is the table of R213 and the list of R214; the first value of a maximum or a minimum is kept as it is. -/
def Obligations.Sweeps : Prop :=
  (∀ (z : Bool) (a b : FVal),
    let f := FFmt.f32
    (sweepFn .mov z a b).bits = (f.ofVal .rne z a).bits ∧ (sweepFn .mov z a b).fl = 0 ∧
    sweepFn .add z a b = f.add .rne z a b ∧ sweepFn .sub z a b = f.add .rne z a b.neg ∧ sweepFn .mul z a b = f.mul z a b ∧
    sweepFn .min z a b = f.minmax false z a b ∧ sweepFn .max z a b = f.minmax true z a b ∧
    sweepFn .relu z a b = f.minmax true z a (.fin false 0 0) ∧ sweepFn .exp2 z a b = f.exp2 z a ∧ sweepFn .tanh z a b = f.tanh z a ∧
    sweepFn .rcp z a b = f.rcp z a ∧ sweepFn .rsq z a b = f.rsq z a ∧
    (∀ (g : FFmt) (n : Nat) (o : RedOp), o = .max ∨ o = .min →
      let r := redStep o z none (g.read z n)
      g ≠ .f64 → r.fl = 0 ∧ r.assist = false ∧ (match g.read z n with
        | .fin neg m e => ∃ (i : Nat) (j : Int), f.decode r.bits = .fin neg i j ∧ (i : Rat) * 2 ^ j = m * 2 ^ e
        | x => f.decode r.bits = x)) ∧
    ∀ (acc : Option FRes) (x : FVal) (o : RedOp),
      let a := acc.getD (f.zero false)
      let v := f.read z a.bits
      (o = .add ∨ o = .addsq ∨ acc.isSome = true) →
      let y := match o with
        | .add => f.add .rne z v x
        | .addsq => f.fma z x x v
        | .max => f.minmax true z v x
        | .min => f.minmax false z v x
      redStep o z acc x = ⟨y.bits, y.fl ||| a.fl, y.assist || a.assist⟩) ∧
  (∀ r : List W64, let b := Box.ofWords r
    sweepRecord r = true ↔ recordShape r = true ∧ 7 ≤ b.fmt ∧ b.fmt ≤ 11 ∧ b.planar = false ∧ b.zfill = false) ∧
  (∀ (d x : Box) (m : BitVec 5), redMatches d x m = true ↔ d.rank = x.rank ∧ (∀ i < 5, m.getLsbD i = true → i < x.rank) ∧
    ∀ i < d.rank, d.ext i = if m.getLsbD i then 1 else x.ext i) ∧
  ∀ (s : State) (q : Cur) (c : Ctl) (k : Nat) (l : List Nat), s.cur? = some q → q.active c = k :: l → q.blk.spec = none →
  let v := fun (x : Opnd) => q.grp.opnd (.int .i64 false) x k
  let but := fun (h : Group) => { h with
    sweep := q.grp.sweep
    tix0 := q.grp.tix0
    tix1 := q.grp.tix1
    tix2 := q.grp.tix2
    tix3 := q.grp.tix3
    tix4 := q.grp.tix4 }
  let past := fun (i : Instr) (m : MemSys) => ∃ h, exec i s = .next (({ s with ms := m } : State).putGrp q h) ∧ h.tix = [0, 0, 0, 0, 0] ∧
    h.sweep = none ∧ q.grp.restIs (but h) q.grp.sb q.grp.flg ∧ h.lanes = q.grp.lanes ∧ q.grp.sameLatches h
  let goesOn := fun (b : Block) (h : Group) (recs : List (List W64)) (d : Box) (e : Nat) (y : FRes) =>
    h.lanes = q.grp.lanes ∧ q.grp.restIs (but h) q.grp.sb (q.grp.flg ||| y.fl) ∧ q.grp.sameLatches h ∧
      (e + 1 < d.count → (∀ n < 5, h.tix.getD n 0 = (d.index (e + 1)).getD n 0) ∧ h.sweep = some (q.slot, recs) ∧
        (h.pcSlot q.slot).wait = .between ∧ ∀ j pc, h.At q.blk.st j pc ↔ q.grp.At q.blk.st j pc) ∧
      (e + 1 = d.count → h.tix = [0, 0, 0, 0, 0] ∧ h.sweep = none ∧
        ∀ j pc, h.At b.st j pc ↔ (q.mask.getLsbD j = true ∧ pc = q.pc + 8) ∨ q.others.At b.st j pc)
  let element := fun (i : Instr) (recs : List (List W64)) (d : Box) (e : Nat) (y : FRes) (m : MemSys) =>
    ∀ s1 acts, ({ s with ms := m } : State).sweepStore q k d q.grp.tix y = .ok (s1, acts) → y.assist = false → storeAssist d q.blk.ftz y = false →
      ∃ u b h, exec i s = .next u ∧ Frame s u q b h true ∧ Holds s u q acts ∧ u.ms.mem = s1.ms.mem ∧
        (∀ x, s1.blocks.get? q.id = some x → b.st.scratch = x.st.scratch) ∧ goesOn b h recs d e y
  let near := fun (ea : W64) (n : Nat) => ea.toNat % n = 0 ∧ inWindow ea = true ∧ scratchOf ea + n ≤ q.blk.scratchSize ∧
    s.rangeHeld q (scratchOf ea) n true = false ∧ q.blk.st.poisoned (scratchOf ea) n = false
  let load := fun (x : Box) (j : List Nat) => ((sweepFmt x.fmt).getD .f32).read q.blk.ftz
    (leNat (q.blk.st.scratch.bytes (scratchOf (x.elemVa noCoord j).1) x.elemBytes))
  let direct := fun (i : Instr) (eas : List W64) (suits : List Box → Prop) (sources : List Box → List (Box × List Nat)) (result : List Box → FRes) =>
    q.grp.sweep = none → s.NoObject q → (∀ ea ∈ eas, near ea 64) →
    let recs := eas.map fun ea => (List.range 8).map fun j => q.blk.st.sword (scratchOf ea + 8 * j)
    let boxes := recs.map Box.ofWords
    let d := boxes.getD 0 (Box.ofWords [])
    let y := result boxes
    let dst := (d.elemVa noCoord q.grp.tix).1
    (∀ r ∈ recs, sweepRecord r = true) → suits boxes → (∀ p ∈ sources boxes, near (p.1.elemVa noCoord p.2).1 p.1.elemBytes) → near dst d.elemBytes →
    y.assist = false → storeAssist d q.blk.ftz y = false → ∀ e, d.number q.grp.tix = some e →
      ∃ u b h, exec i s = .next u ∧ Frame s u q b h true ∧ Holds s u q [] ∧ u.ms.mem = s.ms.mem ∧ goesOn b h recs d e y ∧
        b.st.scratch.bytes (scratchOf dst) d.elemBytes =
          leBytes (((sweepFmt d.fmt).getD .f32).ofVal .rne q.blk.ftz (FFmt.f32.read q.blk.ftz y.bits)).bits d.elemBytes ∧
        ∀ a, a < scratchOf dst ∨ scratchOf dst + d.elemBytes ≤ a → b.st.scratch.byte a = q.blk.st.scratch.byte a
  (∀ o : XSweep,
    let two := sweepTwo o.op
    let eas := if two then [v o.a, v o.b, v o.c] else [v o.a, v o.b]
    let matching := fun (d x : Box) => x.rank = d.rank ∧ ∀ j < d.rank, x.ext j = d.ext j ∨ (x.ext j = 1 ∧ x.bcast.getLsbD j = true)
    let src := fun (l : List Box) (n : Nat) => l.getD n (Box.ofWords [])
    direct (.tsweep c o) eas (fun l => ∀ x ∈ l.drop 1, matching (src l 0) x) (fun l => (l.drop 1).map fun x => (x, q.grp.tix))
      (fun l => sweepFn o.op q.blk.ftz (load (src l 1) q.grp.tix) (if two then load (src l 2) q.grp.tix else .fin false 0 0)) ∧
    (∀ f, s.sweepRecords q k eas = .error (.fault f) → exec (.tsweep c o) s = .next (s.takeFault q f)) ∧
    ∀ recs m0, s.sweepRecords q k eas = .ok (recs, m0) →
      let box := fun (n : Nat) => Box.ofWords (recs.getD n [])
      let d := box 0
      let suits := ∀ n, 1 ≤ n → n < recs.length → matching d (box n)
      (¬ suits → exec (.tsweep c o) s = .next (s.takeFault q { code := .reservedField, lane := k, ea := v o.a })) ∧
      (suits → d.number q.grp.tix = none → past (.tsweep c o) m0) ∧
      (suits → ∀ e x m1, d.number q.grp.tix = some e → ({ s with ms := m0 } : State).sweepLoad q m0 k (box 1) q.grp.tix = .ok (x, m1) →
        (two = false → element (.tsweep c o) recs d e (sweepFn o.op q.blk.ftz x (.fin false 0 0)) m1) ∧
        ∀ y m2, two = true → ({ s with ms := m0 } : State).sweepLoad q m1 k (box 2) q.grp.tix = .ok (y, m2) →
          element (.tsweep c o) recs d e (sweepFn o.op q.blk.ftz x y) m2)) ∧
  ∀ o : XRed,
    let m : BitVec 5 := (v o.m).extractLsb' 0 5
    let src := fun (l : List Box) (n : Nat) => l.getD n (Box.ofWords [])
    direct (.tsred c o) [v o.a, v o.b] (fun l => redMatches (src l 0) (src l 1) m = true)
      (fun l => (maskedIndices (src l 1) m q.grp.tix).map fun j => (src l 1, j))
      (fun l => ((maskedIndices (src l 1) m q.grp.tix).foldl (fun acc j => some (redStep o.op q.blk.ftz acc (load (src l 1) j))) none).getD
        (FFmt.f32.zero false)) ∧
    ∀ recs m0, s.sweepRecords q k [v o.a, v o.b] = .ok (recs, m0) →
    let d := Box.ofWords (recs.getD 0 [])
    let b := Box.ofWords (recs.getD 1 [])
    (redMatches d b m = false →
      exec (.tsred c o) s = .next (s.takeFault q { code := .reservedField, lane := k, ea := v o.a })) ∧
    (redMatches d b m = true → d.number q.grp.tix = none → past (.tsred c o) m0) ∧
    (redMatches d b m = true → ∀ e y m1, d.number q.grp.tix = some e →
      ({ s with ms := m0 } : State).reduceLoop q k o.op b (maskedIndices b m q.grp.tix) none m0 = .ok (y, m1) → element (.tsred c o) recs d e y m1)

/-! ### Terms and search -/

/-- 08 R232, R233, R236 to R240, 10 R273, R276, R278: the TERM words. TAG and MKT take a term apart and put one together, and refuse a tag from 12 up; HALLOC moves the lane's heap top and answers the
old one, and faults before the lane's first OVLCFG. DEREF and GETARG answer, tainted, what their loads give; BIND, COMMIT and UNIFY end once every lane's part is done, and a lane that stops undoes the word. Each completes
on terms in the block's own scratch: DEREF of a constant, of a bound and of an unbound cell, GETARG of a list and of a structure, BIND of a private variable to a constant, which writes its cell and its trail,
UNIFY of two equal constants, of two different ones, of a private variable and a constant, of two lists and of two structures with equal elements and of
two with different functors, which says yes or no, leaves its list undefined and counts its pairs, and of which the .f form FAILs where it says no;
COMMIT to a constant says no, to an unbound shared variable it swaps the value in: at once in scratch, else by an act that its core holds.
The predicates of UNIFY and COMMIT are scoreboarded (02 R43). DEREF never answers a reference. That a cell of tag 12 up which GETARG answers faults is the model's choice (log 90). -/
def Obligations.TermWords : Prop := ∀ (s : State) (q : Cur) (c : Ctl), s.cur? = some q →
  let E := fun k => q.grp.runs q.slot c k
  let v := fun (x : Opnd) k => q.grp.opnd (.int .i64 false) x k
  let lowest := fun (bad : Nat → Prop) (k : Nat) => E k = true ∧ bad k ∧ ∀ j < k, E j = true → ¬ bad j
  let plain := fun (t : W64) => tagOf t < 12 ∧ tagOf t ∉ [6, 7, 8]
  let cell := fun (a : W64) => q.blk.st.sword (scratchOf a)
  let stops := fun {α : Type} (i : Instr) (f : Nat → TM α) => ∀ x s1, (tmLanes f (q.active c)).run s = (.error x, s1) → exec i s = .next (stopWord s q x)
  let reads := fun (i : Instr) (d : Reg) (f : Nat → TM W64) => stops i f ∧
    ∀ l s1, (tmLanes f (q.active c)).run s = (.ok l, s1) → l.map (fun p => p.1) = q.active c ∧
      ∃ u b h, exec i s = .next u ∧ Frame s u q b h false ∧ Holds s u q [] ∧ u.ms = s1.ms ∧
        q.grp.restIs h (q.grp.sb ||| ((1 : W64) <<< d.toNat)) q.grp.flg ∧ q.grp.latchesShift h d ∧
        (∀ k, E k = false → h.lane k = q.grp.lane k) ∧ ∀ p ∈ l, (q.grp.lane p.1).OnlyReg (h.lane p.1) d p.2 true
  (∀ o : RD1,
    let bad := fun k => 12 ≤ ((v o.a k).extractLsb' 60 4).toNat
    ((∀ k, E k = true → ¬ bad k) → ComputesVar s (.tag c o) q c o.d.r (fun k => q.grp.opndTaint o.a k) fun k x =>
      x.toNat = ((v o.a k).extractLsb' 60 4).toNat) ∧
    ∀ k, lowest bad k → exec (.tag c o) s = .next (s.takeFault q { code := .termTag, lane := k })) ∧
  (∀ o : RD2,
    let bad := fun k => 12 ≤ ((v o.b k).extractLsb' 0 4).toNat
    ((∀ k, E k = true → ¬ bad k) →
      ComputesVar s (.mkt c o) q c o.d.r (fun k => q.grp.opndTaint o.a k || q.grp.opndTaint o.b k) fun k x =>
        x.extractLsb' 60 4 = (v o.b k).extractLsb' 0 4 ∧ x.extractLsb' 0 60 = (v o.a k).extractLsb' 0 60) ∧
    ∀ k, lowest bad k → exec (.mkt c o) s = .next (s.takeFault q { code := .termTag, lane := k })) ∧
  (∀ o : RD1,
    let n := fun k => ((v o.a k).extractLsb' 0 32).toNat
    let bad := fun k => (q.grp.lane k).sw.w1.extractLsb' 0 4 = 0 ∨ (q.grp.lane k).sw.heapL.toNat < (q.grp.lane k).ht.toNat + 8 * n k
    ((∀ k, E k = true → ¬ bad k) → ∃ h, exec (.halloc c o) s = .next (s.putGrp q h) ∧
      q.grp.restIs h (q.grp.sb ||| ((1 : W64) <<< o.d.r.toNat)) q.grp.flg ∧ q.grp.latchesShift h o.d.r ∧
      (∀ k, E k = false → h.lane k = q.grp.lane k) ∧
      ∀ k, E k = true → ({ q.grp.lane k with ht := (q.grp.lane k).ht + BitVec.ofNat 64 (8 * n k) } : Lane).OnlyReg (h.lane k) o.d.r
        (q.grp.lane k).ht false) ∧
    ∀ k, lowest bad k → exec (.halloc c o) s = .next (s.takeFault q { code := .heapOverflow, lane := k })) ∧
  (∀ o : RD1, reads (.deref c o) o.d.r (fun k => tmDeref k (v o.a k)) ∧
    ((∀ k, E k = true → plain (v o.a k) ∨ (tagOf (v o.a k) ∈ [6, 7, 8] ∧ s.Cell q (ptrOf (v o.a k)) ∧
        (plain (cell (ptrOf (v o.a k))) ∨ (tagOf (v o.a k) = 7 ∧ cell (ptrOf (v o.a k)) = v o.a k)))) →
      ComputesVar s (.deref c o) q c o.d.r (fun _ => true) fun k x => x = if tagOf (v o.a k) ∈ [6, 7, 8] then cell (ptrOf (v o.a k)) else v o.a k)) ∧
  (∀ k t x s1, (tmDeref k t).run s = (.ok x, s1) → tagOf x ≠ 6 ∧ tagOf x < 12) ∧
  (∀ o : RD2,
    let i := fun k => ((v o.b k).extractLsb' 0 32).toNat
    let base := fun k => ptrOf (v o.a k)
    let arg := fun k => base k + BitVec.ofNat 64 (8 * if tagOf (v o.a k) = 4 then i k - 1 else i k)
    reads (.getarg c o) o.d.r (fun k => do
      let t ← tmDeref k (v o.a k)
      tmGetarg k t (i k)) ∧
    ((∀ k, E k = true → s.Cell q (arg k) ∧ tagOf (cell (arg k)) < 12 ∧ ((tagOf (v o.a k) = 4 ∧ (i k = 1 ∨ i k = 2)) ∨
        (tagOf (v o.a k) = 3 ∧ s.Cell q (base k) ∧ tagOf (cell (base k)) = 2 ∧ i k ≤ ((cell (base k)).extractLsb' 32 16).toNat))) →
      ComputesVar s (.getarg c o) q c o.d.r (fun _ => true) fun k x => x = cell (arg k)) ∧
    (∀ k l, q.active c = k :: l → s.Cell q (arg k) → 12 ≤ tagOf (cell (arg k)) → ((tagOf (v o.a k) = 4 ∧ (i k = 1 ∨ i k = 2)) ∨
        (tagOf (v o.a k) = 3 ∧ s.Cell q (base k) ∧ tagOf (cell (base k)) = 2 ∧ i k ≠ 0 ∧ i k ≤ ((cell (base k)).extractLsb' 32 16).toNat)) →
      exec (.getarg c o) s = .next (s.takeFault q { code := .termTag, lane := k })) ∧
    ∀ k, E k = true → (∀ j, E j = true → k ≤ j) → tagOf (v o.a k) = 4 → i k ≠ 1 → i k ≠ 2 →
      exec (.getarg c o) s = .next (s.takeFault q { code := .termTag, lane := k })) ∧
  (∀ a b,
    let f := fun k => do
      let x ← tmDeref k (v a k)
      if !isVar x then tmFault k .termTag
      let y ← tmDeref k (v b k)
      if x ≠ y then tmBindPair k x y
    stops (.bindT c a b) f ∧
    (∀ l s1 q1, (tmLanes f (q.active c)).run s = (.ok l, s1) → s1.cur? = some q1 → ∃ h, exec (.bindT c a b) s = .next (s1.putGrp q1 h) ∧
      q1.grp.restIs h q1.grp.sb q1.grp.flg ∧ q1.grp.sameLatches h ∧ h.lanes = q1.grp.lanes) ∧
    (∀ k, lowest (fun k => plain (v a k)) k → (∀ j, E j = true → k ≤ j) → exec (.bindT c a b) s = .next (s.takeFault q { code := .termTag, lane := k })) ∧
    ∀ k, q.active c = [k] → q.blk.spec = none → s.NoObject q →
      let x := v a k
      let l := q.grp.lane k
      let at_ := ptrOf x
      tagOf x = 7 → s.Cell q at_ → q.blk.st.sword (scratchOf at_) = x → plain (v b k) → s.Cell q l.tt → l.tt.toNat + 8 ≤ l.sw.trailL.toNat → l.tt ≠ at_ →
      ∃ u bk h, exec (.bindT c a b) s = .next u ∧ Frame s u q bk h true ∧ Holds s u q [] ∧ u.ms.mem = s.ms.mem ∧
        bk.st.sword (scratchOf at_) = v b k ∧ bk.st.sword (scratchOf l.tt) = at_ ∧
        (∀ i, (i < scratchOf at_ ∨ scratchOf at_ + 8 ≤ i) → (i < scratchOf l.tt ∨ scratchOf l.tt + 8 ≤ i) →
          bk.st.scratch.byte i = q.blk.st.scratch.byte i) ∧
        q.grp.restIs h q.grp.sb q.grp.flg ∧ q.grp.sameLatches h ∧ h.lane k = { l with tt := l.tt + 8 } ∧ ∀ j, j ≠ k → h.lane j = q.grp.lane j) ∧
  (∀ o : P2, s.drainDone q.blk q.id q.gi (s.clk q.blk.cl) .results = true → q.farBytes = [] →
    let held := fun (h : Group) => ∀ p : BitVec 3, p ≠ 7 → h.psb.getLsbD p.toNat = (q.grp.psb.getLsbD p.toNat || p == o.p)
    let f := fun k => do
      let x ← derefFrom k false 65536 (v o.a k)
      if tagOf x ≠ 8 then pure CommitRes.no
      else
        let y ← tmDeref k (v o.b k)
        tmCommit q o.p k x (if isVar y then mkTerm 6 (ptrOf y) else y)
    stops (.commit c o) f ∧
    (∀ l s1 q1, (tmLanes f (q.active c)).run s = (.ok l, s1) → s1.cur? = some q1 →
      let acts := l.filterMap fun p => match p.2 with
        | .far x => some x
        | _ => none
      ∃ u h, exec (.commit c o) s = .next u ∧ u.grpAt q = some h ∧ u.ms = s1.ms ∧ h.acqPend = q1.grp.acqPend + acts.length ∧
        (u.core q.blk.cl q.co).held = (s1.core q.blk.cl q.co).held ++ acts ∧ ∀ p ∈ l, match p.2 with
          | .no => (q1.grp.lane p.1).OnlyPred (h.lane p.1) o.p false
          | .done ok => (q1.grp.lane p.1).OnlyPred (h.lane p.1) o.p ok
          | .far _ => h.lane p.1 = q1.grp.lane p.1) ∧
    ((∀ k, E k = true → plain (v o.a k)) →
      ∃ u b h, exec (.commit c o) s = .next u ∧ Frame s u q b h false ∧ Holds s u q [] ∧ u.ms = s.ms ∧ held h ∧
        PredEffect q c o.p q.grp.flg (fun _ => false) { h with psb := q.grp.psb }) ∧
    ∀ k, q.active c = [k] → q.blk.spec = none → s.NoObject q →
      let x := v o.a k
      let at_ := ptrOf x
      tagOf x = 8 → plain (v o.b k) →
      (s.Cell q at_ → cell at_ = x →
        ∃ u b h, exec (.commit c o) s = .next u ∧ Frame s u q b h true ∧ Holds s u q [] ∧ u.ms.mem = s.ms.mem ∧ held h ∧
          b.st.sword (scratchOf at_) = v o.b k ∧
          (∀ i, i < scratchOf at_ ∨ scratchOf at_ + 8 ≤ i → b.st.scratch.byte i = q.blk.st.scratch.byte i) ∧
          PredEffect q c o.p q.grp.flg (fun _ => true) { h with psb := q.grp.psb }) ∧
      ∀ leaf pa ms, s.readVa q [] s.ms k ⟨at_, 8, false, true, false, .any, false, false⟩ true = .ok (leBytes x.toNat 8, ms) →
        s.check q k ⟨at_, 8, true, true, true, .any, false, false⟩ = .global leaf pa →
        ∃ u b h, exec (.commit c o) s = .next u ∧ Frame s u q b h false ∧ u.ms = ms ∧ held h ∧ h.acqPend = q.grp.acqPend + 1 ∧
          Holds s u q [Cur.hold s q k at_ (some (.blk, .sg)) (some (.blk, .sg))
            (.atom .cas (placeOf s.fab.chip leaf pa) pa true x (v o.b k) (some ⟨k, none, false, none, some o.p⟩))] ∧
          q.grp.restIs { h with psb := q.grp.psb, acqPend := q.grp.acqPend } q.grp.sb q.grp.flg ∧ q.grp.sameLatches h ∧ h.lanes = q.grp.lanes) ∧
  (∀ o : PUnify,
    let r := unifyLanes o ((q.active c).filter fun k => !q.done.getLsbD k) s
    ∀ q1, r.2.2.cur? = some q1 →
      (∀ x, r.1 = some x → exec (.unify c o) s = .next (stopWord r.2.2 q1 x)) ∧
      (r.1 = none → r.2.1 = true → exec (.unify c o) s = .next (r.2.2.waitSlot q1 .none)) ∧
      (r.1 = none → r.2.1 = false → (q1.grp.pcSlot q1.slot).bad = 0 → q1.grp.StackOk → q1.pc = q.pc → q.pc.extractLsb' 0 3 = 0 →
        ∃ st h, exec (.unify c o) s = .next (r.2.2.putSt q1 (st.setGroup q1.gi h)) ∧ Routes q1 (fun _ => some (q.pc + 8)) st h ∧
          q1.grp.restIs h q1.grp.sb q1.grp.flg ∧ q1.grp.sameLatches h ∧ h.lanes = q1.grp.lanes)) ∧
  (∀ (o : PUnify) (k : Nat), q.active c = [k] → q.done = 0 → (q.grp.pcSlot q.slot).bad = 0 → s.NoObject q → (q.grp.lane k).upd = 0 →
    let l := q.grp.lane k
    let x := q.grp.src (.int .i64 false) o.a k
    let y := v o.b k
    let list := l.sw.pdlB
    let room := fun (n : Nat) => list.toNat + 8 * n ≤ l.sw.pdlL.toNat ∧ ∀ i < n, s.Cell q (list + BitVec.ofNat 64 (8 * i))
    let away := fun (n : Nat) (a : W64) => s.Cell q a ∧ (scratchOf a + 8 ≤ scratchOf list ∨ scratchOf list + 8 * n ≤ scratchOf a)
    let at_ := fun (t : W64) (i : Nat) => ptrOf t + BitVec.ofNat 64 (8 * i)
    let ends := fun (pairs n : Nat) (same : Bool) (l' : Lane) (put : List (W64 × W64)) =>
      ∃ u b h, exec (.unify c o) s = .next u ∧ Frame s u q b h true ∧ Holds s u q [] ∧ u.ms.mem = s.ms.mem ∧
        (∀ p ∈ put, b.st.sword (scratchOf p.1) = p.2) ∧
        (∀ i, i < scratchOf list ∨ scratchOf list + 8 * n ≤ i → (∀ p ∈ put, i < scratchOf p.1 ∨ scratchOf p.1 + 8 ≤ i) →
          b.st.scratch.byte i = q.blk.st.scratch.byte i) ∧
        q.grp.restIs { h with perfPairs := q.grp.perfPairs, psb := q.grp.psb } q.grp.sb q.grp.flg ∧
        h.perfPairs = q.grp.perfPairs + BitVec.ofNat 64 pairs ∧ q.grp.sameLatches h ∧
        (∀ p : BitVec 3, p ≠ 7 → h.psb.getLsbD p.toNat = (q.grp.psb.getLsbD p.toNat || p == o.p)) ∧
        (∀ j, j ≠ k → h.lane j = q.grp.lane j) ∧ ({ l' with upd := 0, pdlHi := 0 } : Lane).OnlyPred (h.lane k) o.p same
    let differ := plain x ∧ plain y ∧ x ≠ y ∧ ¬ (tagOf x = tagOf y ∧ tagOf x ∈ [3, 4])
    (room 2 → plain x → x = y → ends 1 2 true l []) ∧
    (room 2 → differ → o.f = false → ends 1 2 false l []) ∧
    (room 2 → differ → o.f = true → o.p ≠ 7 → l.sw.w1.extractLsb' 0 4 ≠ 0 → l.mt = l.sw.markB → l.tt = l.sw.trailB → q.grp.fex >>> 3 ≠ 0 →
      q.grp.StackOk → q.pc.extractLsb' 0 3 = 0 → q.grp.dspFloor.toNat + 16 ≤ q.grp.dspTop.toNat →
      let next := fun j => if j = k then some (((q.blk.entry + q.grp.fex.setWidth 57) >>> 3) <<< 3) else q.stay
      ∃ t b g st h, Frame s t q b g true ∧ exec (.unify c o) s = .next (t.putSt { q with grp := g, blk := b } (st.setGroup q.gi h)) ∧
        Routes { q with grp := g, blk := b } next st h ∧ (h.lane k).pr o.p = false ∧ (h.lane k).ht = l.sw.heapB ∧ (h.lane k).upd = 0 ∧
        ∀ j, j ≠ k → h.lane j = q.grp.lane j) ∧
    (room 2 → tagOf x = 7 → away 2 (ptrOf x) → cell (ptrOf x) = x → plain y → away 2 l.tt → l.tt.toNat + 8 ≤ l.sw.trailL.toNat → l.tt ≠ ptrOf x →
      ends 1 2 true { l with tt := l.tt + 8 } [(ptrOf x, y), (l.tt, ptrOf x)]) ∧
    (room 4 → tagOf x = 4 → tagOf y = 4 → x ≠ y →
      (∀ i < 2, away 4 (at_ x i) ∧ away 4 (at_ y i) ∧ plain (cell (at_ x i)) ∧ cell (at_ x i) = cell (at_ y i)) → ends 3 4 true l []) ∧
    (tagOf x = 3 → tagOf y = 3 → x ≠ y →
      let f := cell (ptrOf x)
      let g := cell (ptrOf y)
      let n := (f.extractLsb' 32 16).toNat
      let w := max 2 (2 * n)
      tagOf f = 2 → tagOf g = 2 → room w →
      (away w (ptrOf x) → away w (ptrOf y) → f = g → n ≤ 63 →
        (∀ i, 1 ≤ i → i ≤ n → away w (at_ x i) ∧ away w (at_ y i) ∧ plain (cell (at_ x i)) ∧ cell (at_ x i) = cell (at_ y i)) →
        ends (1 + n) w true l []) ∧
      (away 2 (ptrOf x) → away 2 (ptrOf y) → f ≠ g → o.f = false → ends 1 2 false l []))) ∧
  ∀ x y : W64, tagOf x ∈ [7, 8] → tagOf y ∈ [7, 8] → (bindsFirst x y = true ↔
    (tagOf x = 7 ∧ tagOf y = 8) ∨ (tagOf x = tagOf y ∧ ((inWindow (ptrOf x) = true ∧ inWindow (ptrOf y) = false) ∨
      (inWindow (ptrOf x) = inWindow (ptrOf y) ∧ (ptrOf y).toNat < (ptrOf x).toNat))))

/-- 08 R241 to R248, 01 R14, R25: the SEARCH words. TRY saves a marker of eight words at MT; TRUST and CUT take markers away, and refuse a level that is misaligned or out of range; FAIL goes to the alternative of the top
marker with its five registers, or, on an empty stack, to FEX, or retires the lane; OFFER posts the oldest marker, refuses markers outside scratch and has nothing to post from an empty stack; ADOPT takes an offer, and from
an empty board says no; OVLCFG loads the descriptor, clears the overlay and sets every top. Before the first OVLCFG of a lane FAIL, TRUST and CUT fault. Each completes where its marker or descriptor stands in the block's own scratch;
where two checks fail, MARKER_OVERFLOW comes before ILLEGAL_INSTR (log 37); the low three bits of an alternative and of FEX are dropped, so that an FEX below 8 retires the lane (log 38). In
every case it ends once every lane's part is done, and a lane that stops undoes the word. -/
def Obligations.SearchWords : Prop := ∀ (s : State) (q : Cur) (c : Ctl), s.cur? = some q → q.grp.StackOk → q.pc.extractLsb' 0 3 = 0 →
  let E := fun k => q.grp.runs q.slot c k
  let L := fun k => q.grp.lane k
  let v := fun (x : Opnd) k => q.grp.opnd (.int .i64 false) x k
  let first := fun (k : Nat) => E k = true ∧ ∀ j, E j = true → k ≤ j
  let unset := fun (k : Nat) => (L k).sw.w1.extractLsb' 0 4 = 0
  let cell := fun (a : W64) => q.blk.st.sword (scratchOf a)
  let faults := fun (i : Instr) (k : Nat) (code : FaultCode) (ea : W64) => exec i s = .next (s.takeFault q { code := code, lane := k, ea := ea })
  let top := fun (k : Nat) => (L k).mt - 64
  let marker := fun (m : W64) => ∀ i < 8, s.Cell q (m + BitVec.ofNat 64 (8 * i))
  let drop := fun (i : Instr) (k : Nat) => ∃ h, exec i s = .next (s.putGrp q h) ∧ q.grp.restIs h q.grp.sb q.grp.flg ∧ q.grp.sameLatches h ∧
    h.lane k = { L k with mt := top k } ∧ ∀ j, j ≠ k → h.lane j = L j
  let alt := fun (w0 : W64) => ((q.blk.entry + (w0.extractLsb' 0 32).setWidth 57) >>> 3) <<< 3
  let five := fun (w0 : W64) => (List.range 5).foldl (fun m i => m ||| ((1 : W64) <<< (w0.extractLsb' 40 6 + BitVec.ofNat 6 i).toNat)) q.grp.sb
  let stops := fun {α : Type} (i : Instr) (f : Nat → TM α) => ∀ x s1, (tmLanes f (q.active c)).run s = (.error x, s1) → exec i s = .next (stopWord s q x)
  let acts := fun (i : Instr) (f : Nat → TM Unit) => stops i f ∧ ∀ l s1 q1, (tmLanes f (q.active c)).run s = (.ok l, s1) → s1.cur? = some q1 →
    ∃ h, exec i s = .next (s1.putGrp q1 h) ∧ q1.grp.restIs h q1.grp.sb q1.grp.flg ∧ q1.grp.sameLatches h ∧ h.lanes = q1.grp.lanes
  let ready := s.drainDone q.blk q.id q.gi (s.clk q.blk.cl) .results = true ∧ q.farBytes = []
  (∀ o : STry, acts (.tryM c o) (fun k => tmTry q o.k o.off k) ∧
    (∀ k, first k → (L k).sw.markL.toNat < (L k).mt.toNat + 64 → faults (.tryM c o) k .markerOverflow 0) ∧
    ∀ k, q.active c = [k] → s.NoObject q →
      let n := if unset k then 0 else 2 ^ ((L k).sw.w1.extractLsb' 0 4).toNat
      let entry := fun (i : Nat) => (L k).sw.ovl + BitVec.ofNat 64 (16 * i)
      let alt : Int := (q.pc.toNat : Int) + 8 * o.off.toInt - (q.blk.entry.toNat : Int)
      (∀ i < n, s.Cell q (entry i)) → (L k).mt.toNat + 64 ≤ (L k).sw.markL.toNat → 0 ≤ alt → alt < 2 ^ 32 → marker (L k).mt →
      ∃ u b h, exec (.tryM c o) s = .next u ∧ Frame s u q b h true ∧ Holds s u q [] ∧ u.ms.mem = s.ms.mem ∧
        let w := fun (i : Nat) => b.st.sword (scratchOf (L k).mt + 8 * i)
        ((w 0).extractLsb' 0 32 = BitVec.ofInt 32 alt ∧ (w 0).extractLsb' 40 6 = o.k ∧ (w 0).extractLsb' 32 8 = 0 ∧ (w 0).extractLsb' 46 18 = 0) ∧
        ((w 1).extractLsb' 0 32 = ((L k).tt - (L k).sw.trailB).extractLsb' 0 32 ∧
          (w 1).extractLsb' 32 32 = ((L k).ht - (L k).sw.heapB).extractLsb' 0 32) ∧
        (w 2 = BitVec.ofNat 64 (((List.range n).countP fun i => (cell (entry i)).getLsbD 63) + 2 ^ 32 * (k % 32) + 2 ^ 37 * (q.gi % 32))) ∧
        (∀ i < 5, w (3 + i) = (L k).reg (o.k + BitVec.ofNat 6 i)) ∧
        (∀ i, i < scratchOf (L k).mt ∨ scratchOf (L k).mt + 64 ≤ i → b.st.scratch.byte i = q.blk.st.scratch.byte i) ∧
        q.grp.restIs h q.grp.sb q.grp.flg ∧ q.grp.sameLatches h ∧ h.lane k = { L k with mt := (L k).mt + 64 } ∧ ∀ j, j ≠ k → h.lane j = L j) ∧
  (acts (.trust c) (fun k => do
      let l ← tmLane k
      if l.unset then tmFault k .markerOverflow
      if l.mt ≠ l.sw.markB then popMarker k) ∧
    ((∀ k, E k = true → (L k).mt = (L k).sw.markB ∧ ¬ unset k) → Passes s (.trust c) q) ∧
    (∀ k, first k → unset k → faults (.trust c) k .markerOverflow 0) ∧
    ∀ k, q.active c = [k] → ¬ unset k → (L k).mt ≠ (L k).sw.markB → s.Cell q (top k) →
      ((cell (top k)).getLsbD 34 = true → exec (.trust c) s = .next (s.waitSlot q (.busy (top k)))) ∧
      ((cell (top k)).getLsbD 34 = false → (cell (top k)).extractLsb' 32 2 ≠ 2 → drop (.trust c) k)) ∧
  (∀ a,
    let low := fun k => unset k ∨ (v a k).toNat < (L k).sw.markB.toNat ∨ (L k).mt.toNat < (v a k).toNat
    acts (.cut c a) (fun k => do
      let l ← tmLane k
      if (v a k).toNat % 64 ≠ 0 then tmFault k .misaligned (v a k)
      if l.unset ∨ (v a k).toNat < l.sw.markB.toNat ∨ l.mt.toNat < (v a k).toNat then tmFault k .markerOverflow
      popMarkers k ((l.mt.toNat - (v a k).toNat) / 64)) ∧
    ((∀ k, E k = true → (v a k).toNat % 64 = 0 ∧ v a k = (L k).mt ∧ ¬ low k) → Passes s (.cut c a) q) ∧
    (∀ k, q.active c = [k] → (v a k).toNat % 64 = 0 → ¬ low k → (L k).mt.toNat = (v a k).toNat + 64 → s.Cell q (v a k) →
      ((cell (v a k)).getLsbD 34 = true → exec (.cut c a) s = .next (s.waitSlot q (.busy (v a k)))) ∧
      ((cell (v a k)).getLsbD 34 = false → (cell (v a k)).extractLsb' 32 2 ≠ 2 → drop (.cut c a) k)) ∧
    ∀ k, first k → ((v a k).toNat % 64 ≠ 0 → faults (.cut c a) k .misaligned (v a k)) ∧
      ((v a k).toNat % 64 = 0 → low k → faults (.cut c a) k .markerOverflow 0)) ∧
  (stops (.failW c) tmFail ∧
    (∀ k, first k → unset k → faults (.failW c) k .markerOverflow 0) ∧
    (∀ k, q.active c = [k] → ¬ unset k → (L k).mt ≠ (L k).sw.markB → marker (top k) →
      let w0 := cell (top k)
      let w1 := cell (top k + 8)
      let next := fun j => if j = k then some (alt w0) else q.stay
      w0.extractLsb' 32 3 = 0 → (L k).tt = (L k).sw.trailB + (w1.extractLsb' 0 32).setWidth 64 → Fits q q.grp next →
      ∃ st h, exec (.failW c) s = .next (s.putSt q (st.setGroup q.gi h)) ∧ Routes q next st h ∧
        q.grp.restIs { h with perfFails := q.grp.perfFails } (five w0) q.grp.flg ∧ h.perfFails = q.grp.perfFails + 1 ∧ q.grp.sameLatches h ∧
        (∀ j, j ≠ k → h.lane j = L j) ∧
        ({ L k with mt := top k, ht := (L k).sw.heapB + (w1.extractLsb' 32 32).setWidth 64 } : Lane).Loads (h.lane k) (w0.extractLsb' 40 6) 5 false
          (q.blk.st.scratch.bytes (scratchOf (top k) + 24) 40)) ∧
    ((∀ k, E k = true → (L k).mt = (L k).sw.markB ∧ (L k).tt = (L k).sw.trailB ∧ ¬ unset k) →
      let to_ := if q.grp.fex >>> 3 = 0 then none else some (((q.blk.entry + q.grp.fex.setWidth 57) >>> 3) <<< 3)
      let next := fun k => if E k then to_ else q.stay
      Fits q q.grp next → ∃ st h, exec (.failW c) s = .next (if (q.active c).isEmpty || to_.isSome then s.putSt q (st.setGroup q.gi h)
          else (s.putSt q (st.setGroup q.gi h)).retireLanes q.id q.gi (maskOf fun k => E k)) ∧
        Routes q next st h ∧ q.grp.restIs h q.grp.sb q.grp.flg ∧ q.grp.sameLatches h ∧
        ∀ k, h.lane k = if E k then { L k with ht := (L k).sw.heapB } else L k)) ∧
  (∀ a, ready →
    acts (.offer c a) (fun k => tmOffer q k (v a k).toNat) ∧
    ((∀ k, E k = true → inWindow (L k).sw.markB = true ∧ (L k).sw.markL.toNat ≤ 0x20000000000 ∧ (L k).mt = (L k).sw.markB) → Passes s (.offer c a) q) ∧
    (∀ k, q.active c = [k] → s.NoObject q → v a k ≠ 0 → inWindow (L k).sw.markB = true → (L k).sw.markL.toNat ≤ 0x20000000000 →
      (L k).mt.toNat = (L k).sw.markB.toNat + 64 → s.Cell q (L k).sw.markB → q.blk.st.board.length < 64 → (cell (L k).sw.markB).extractLsb' 32 2 = 0 →
      let off := scratchOf (L k).sw.markB
      ∃ t b h, Frame s t q b h true ∧ Holds s t q [] ∧ t.ms.mem = s.ms.mem ∧
        exec (.offer c a) s = .next (t.setBlock q.id { b with st := { b.st with
          board := q.blk.st.board ++ [⟨BitVec.ofNat 5 q.gi, BitVec.ofNat 5 k, BitVec.ofNat 21 off⟩] } }) ∧
        b.st.sword off = cell (L k).sw.markB ||| ((1 : W64) <<< 33) ∧ (∀ i, i < off ∨ off + 8 ≤ i → b.st.scratch.byte i = q.blk.st.scratch.byte i) ∧
        q.grp.restIs h q.grp.sb q.grp.flg ∧ q.grp.sameLatches h ∧ h.lanes = q.grp.lanes)) ∧
  (∀ a k, first k → inWindow (L k).sw.markB = false → faults (.offer c a) k .scratchRange (L k).sw.markB) ∧
  (∀ p, let held := fun (h : Group) => ∀ i : BitVec 3, i ≠ 7 → h.psb.getLsbD i.toNat = (q.grp.psb.getLsbD i.toNat || i == p)
    (∀ f s1, (tmLanes (fun k => adoptLoop q.gi k 64) (q.active c)).run s = (.error (.fault f), s1) → f.code ≠ .adoptPrivate →
      exec (.adopt c p) s = .next (s.takeFault q f)) ∧
    (∀ k e rest d, q.active c = [k] → s.NoObject q → q.blk.st.board = e :: rest → (e.grp.toNat ≠ q.gi ∨ e.lane.toNat ≠ k) →
      q.blk.st.groups[e.grp.toNat]? = some d → ¬ unset k → (L k).tt = (L k).sw.trailB →
      let m := 0x1FFFFE00000 + e.mofs.setWidth 64
      let w0 := cell m
      let next := fun j => if j = k then some (alt w0) else q.stay
      marker m → w0.extractLsb' 32 3 = 2 → (cell (m + 8)).extractLsb' 0 32 = 0 → q.grp.dspFloor.toNat + 16 ≤ q.grp.dspTop.toNat →
      ∃ t b g st h l, Frame s t q b g true ∧ Holds s t q [] ∧ t.ms.mem = s.ms.mem ∧
        let q1 : Cur := { q with grp := g, blk := { b with st := { b.st with board := rest, adopts := q.blk.st.adopts + 1 } } }
        exec (.adopt c p) s = .next (t.putSt q1 (st.setGroup q.gi h)) ∧ Routes q1 next st h ∧
        b.st.sword e.mofs.toNat = w0 ||| ((1 : W64) <<< 32) ∧
        (∀ i, i < e.mofs.toNat ∨ e.mofs.toNat + 8 ≤ i → b.st.scratch.byte i = q.blk.st.scratch.byte i) ∧
        q.grp.restIs { h with psb := q.grp.psb } (five w0) q.grp.flg ∧ q.grp.sameLatches h ∧ held h ∧ (∀ j, j ≠ k → h.lane j = L j) ∧
        ({ L k with ht := (L k).sw.heapB, mt := (L k).sw.markB } : Lane).Loads l (w0.extractLsb' 40 6) 5 false
          (q.blk.st.scratch.bytes (e.mofs.toNat + 24) 40) ∧ l.OnlyPred (h.lane k) p true) ∧
    (q.blk.st.board = [] → ∃ st h, exec (.adopt c p) s = .next (s.putSt q (st.setGroup q.gi h)) ∧ Routes q (fun _ => q.stay) st h ∧
      held h ∧ PredEffect q c p q.grp.flg (fun _ => false) { h with psb := q.grp.psb })) ∧
  ∀ a,
    let f := do
      let l ← tmLanes (fun k => tmSwatch k (v a k)) (q.active c)
      tmConfigure q.gi q.blk.scratchSize l
      pure l
    (∀ x s1, f.run s = (.error x, s1) → exec (.ovlcfg c a) s = .next (stopWord s q x)) ∧
    (∀ l s1 q1, f.run s = (.ok l, s1) → s1.cur? = some q1 → ∃ h, exec (.ovlcfg c a) s = .next (s1.putGrp q1 h) ∧
      q1.grp.restIs { h with fex := q1.grp.fex } q1.grp.sb q1.grp.flg ∧ q1.grp.sameLatches h ∧ h.lanes = q1.grp.lanes ∧
      (∀ k x r, l = (k, x) :: r → h.fex = x.w1.extractLsb' 32 32) ∧ (l = [] → h.fex = q1.grp.fex)) ∧
    ∀ k, q.active c = [k] → s.NoObject q → (L k).mt = (L k).sw.markB →
      let w := fun (i : Nat) => cell (v a k + BitVec.ofNat 64 (8 * i))
      let n := ((w 1).extractLsb' 0 4).toNat
      let region := fun (i align : Nat) => (w i).toNat % align = 0 ∧ (w (i + 1)).toNat % align = 0 ∧ (w i).toNat ≤ (w (i + 1)).toNat
      (∀ i < 10, s.Cell q (v a k + BitVec.ofNat 64 (8 * i))) → (w 0).toNat % 16 = 0 → (w 1).extractLsb' 4 28 = 0 → 4 ≤ n → n ≤ 10 →
      region 2 8 → region 4 64 → region 6 8 → region 8 16 → (∀ i < 2 * 2 ^ n, s.Cell q (w 0 + BitVec.ofNat 64 (8 * i))) →
      let off := scratchOf (w 0)
      ∃ t b h, Frame s t q b h true ∧ Holds s t q [] ∧ t.ms.mem = s.ms.mem ∧
        exec (.ovlcfg c a) s = .next (t.setBlock q.id { b with st := { b.st with
          board := q.blk.st.board.filter fun e => !(e.grp.toNat == q.gi && e.lane.toNat == k) } }) ∧
        (∀ i, off ≤ i → i < off + 16 * 2 ^ n → b.st.scratch.byte i = 0) ∧
        (∀ i, i < off ∨ off + 16 * 2 ^ n ≤ i → b.st.scratch.byte i = q.blk.st.scratch.byte i) ∧
        q.grp.restIs { h with fex := q.grp.fex } q.grp.sb q.grp.flg ∧ h.fex = (w 1).extractLsb' 32 32 ∧ q.grp.sameLatches h ∧
        (∀ j, j ≠ k → h.lane j = L j) ∧
        h.lane k = { L k with sw := ⟨w 0, w 1, w 2, w 3, w 4, w 5, w 6, w 7, w 8, w 9⟩, tt := w 2, ht := w 6, mt := w 4, upd := 0, pdlHi := 0 }

/-! ### Events of groups, blocks and cores -/

/-- 06 R169, R170, 07 R191, 02 R43, 03 R76, 17 R359, R363, 09 R269, 21 R414, 17 R376: what each event does for the group that waits for it. A WAITC asleep is woken by
a write to a sector it watches and by its timer (what is watched, log 31), and then checks again; after 65,536 cycles, or at any time, it leaves with its last values. A
copy word goes on once a slot is free. A variable-latency result frees its register or its predicate; a load that waits in the queue of its core (log 34) reads its bytes then, as the core sees them, or takes those that its core has read
ahead (log 113). The assist routine ends. A walk gives the
word the translation, and the access goes on, or it faults; the cluster's TLB serves it without a walk, and a die takes no more than 128 walks. The missing line of 256 bytes comes into the cluster's instruction cache (the line that goes when it is
full, log 91). A reply of
the host lets the word issue again, or delivers its fault as an error. A protected block keeps its state as checkpoint
and completes the barrier slots that waited for it. A core's buffers are zero. -/
def Obligations.GroupEvents : Prop := ∀ (s : State) (id gi : Nat) (b : Block) (g : Group), s.blocks.get? id = some b → b.st.groups[gi]? = some g →
  (∀ z r, (g.pcSlot z).wait = .waitc r → (g.pcSlot (!z)).wait.waitc? = none →
    let off : MemSys := { s.ms with monitors := s.ms.monitors.filter fun m => !(m.blk == id && m.grp == gi) }
    (s.ms.fired.contains (id, gi) = true → ∃ t, exec (.monitorWake id gi) s = .next t ∧
      GroupOnly s t id gi (g.withWait z (.waitcCheck r)) { off with fired := s.ms.fired.filter fun p => p != (id, gi) }) ∧
    (s.waitcOut b id gi = false →
      (r.slept + 1024 ≤ s.clk b.cl → ∃ t, exec (.waitcRecheckTimer id gi) s = .next t ∧ GroupOnly s t id gi (g.withWait z (.waitcCheck r)) off) ∧
      (r.issued + 65536 ≤ s.clk b.cl → ∃ t, exec (.waitcTimeout id gi) s = .next t ∧ GroupOnly s t id gi (g.withWait z (.waitcLeave r)) off) ∧
      ∃ t, exec (.waitcSpuriousReturn id gi) s = .next t ∧ GroupOnly s t id gi (g.withWait z (.waitcLeave r)) off)) ∧
  (∀ z, (g.pcSlot z).wait = .copySlot → (g.pcSlot (!z)).wait ≠ .copySlot → s.ms.slotsUsed b.cl (b.coreOf gi) < 16 →
    ∃ t, exec (.copySlotGrant id gi) s = .next t ∧ GroupOnly s t id gi (g.withWait z .resume) s.ms) ∧
  (∀ r < 64, s.resultPending b id gi r = false → ∃ t sb, exec (.variableLatencyResult id gi r) s = .next t.wakeDrains ∧
    GroupOnly s t id gi { g with sb := sb } s.ms ∧ ∀ i, sb.getLsbD i = (g.sb.getLsbD i && decide (i ≠ r))) ∧
  (∀ p < 7, s.resultPending b id gi (64 + p) = false → ∃ t psb, exec (.variableLatencyResult id gi (64 + p)) s = .next t.wakeDrains ∧
    GroupOnly s t id gi { g with psb := psb } s.ms ∧ ∀ i < 7, psb.getLsbD i = (g.psb.getLsbD i && decide (i ≠ p))) ∧
  (∀ before h after p ldb keep pa n ret d, s.loadDue b.cl id gi (BitVec.toNat d) [] (s.core b.cl (b.coreOf gi)).held = some (before, h, after) →
    h.act = .load p ldb keep pa n ret → ret.d = some d → ret.pair = none → ret.pred = none → ret.lane < g.lanes.length → g.retired = false →
    b.spec = none → g.sb.getLsbD d.toNat = true →
    let seen := (seenBy h before after).filter fun x => (s.visible b.cl (b.coreOf gi) none).contains x
    let early := s.takesEarly h p ldb pa
    (early = none → s.ms.readPoison b.cl none pa n p ldb = false) →
    let x := s.ms.readAt b.cl none p ldb keep pa n
    let mem := match early with
      | some _ => s.ms.mem
      | none => x.2.mem
    let bytes := match early with
      | some e => (e.bytes.drop (pa % 64)).take n
      | none => forward seen none pa x.1
    ∃ t c g', exec (.variableLatencyResult id gi d.toNat) s = .next t ∧ t.blocks.get? id = some c ∧ c.st.groups[gi]? = some g' ∧
      (t.core b.cl (b.coreOf gi)).held = before ++ after ∧ t.ms.mem = mem ∧
      (g.lane ret.lane).OnlyReg (g'.lane ret.lane) d (BitVec.ofNat 64 (leNat bytes)) ret.taint ∧
      (∀ k, k ≠ ret.lane → g'.lane k = g.lane k) ∧ ∀ i, i ≠ d.toNat → g'.sb.getLsbD i = g.sb.getLsbD i) ∧
  (g.park = .assist → ∃ t, exec (.assistComplete id gi) s = .next t ∧ GroupOnly s t id gi { g with park := .none } s.ms) ∧
  (∀ z lane va w going, (g.pcSlot z).wait = .walk lane va w going → (z = true → g.slot0.walking = none) →
    let walk := s.walkFor b.cl b.asid va
    let served := fun (e : W64) (big : Bool) => ∃ t c g', exec (.tlbWalkComplete id gi) s = .next t ∧ t.blocks.get? id = some c ∧
      c.st.groups[gi]? = some g' ∧ g'.pcSlot z = { g.pcSlot z with wait := .resume, pages := (g.pcSlot z).pages.put (trKey b.asid va big) e }
    (∀ e, s.ms.tlbGet b.cl b.asid va = some e → served e false) ∧
    (s.ms.tlbGet b.cl b.asid va = none →
      (going = false → exec (.tlbWalkComplete id gi) s = .next (if s.walkRoom (b.cl / 24) b.asid va then
        s.putGrp ⟨id, b, gi, g, z⟩ (g.withWait z (.walk lane va w true)) else s)) ∧
      (going = true → (∀ e big, walk.2 = some (e, big) → served e big) ∧
        (walk.2 = none → s.merged (b.cl / 24) b.asid (pageOf va) = [⟨id, gi, z⟩] → exec (.tlbWalkComplete id gi) s =
          .next (walk.1.takeFault ⟨id, b, gi, g.withWait z .resume, z⟩
            { code := if w then .pageFaultWrite else .pageFaultRead, lane := lane, ea := va }))))) ∧
  (∀ pc leaf, g.park = .icache pc → s.ms.tlbGet b.cl b.asid (pc.setWidth 64) = some leaf → pteX leaf = true →
    (pteRem leaf = true → pteChip leaf = s.fab.chip) →
    let pa := leafPa leaf (pc.setWidth 64) / 256 * 256
    beyondHbm pa = false → ∃ t ws bad, exec (.icacheLineArrive id gi) s = .next t ∧
      GroupOnly { s with free := s.free + 1 } t id gi { g with park := .none }
        { s.ms with icache := s.ms.icache.putCap (fun k => k / 2 ^ 60 == b.cl) 256 s.free (icKey b.cl b.asid pc) (ws, bad) } ∧
      ws.length = 32 ∧ (∀ i < 32, ws.getD i 0 = s.ms.mem.word (pa + 8 * i)) ∧ ∀ i < 4, bad.getLsbD i = s.ms.poison.contains (pa / 64 + i)) ∧
  (∀ page code slot pc f, g.park = .fault slot pc f →
    (s.faultQ.filter fun p => p.asid == b.asid && p.page == page) = [⟨b.asid, page, code, .group id gi⟩] →
    let s0 : State := { s with faultQ := s.faultQ.filter fun p => !(p.asid == b.asid && p.page == page) }
    (∃ t, exec (.hostFaultReply b.asid page true) s = .next t ∧ GroupOnly s0 t id gi { g with park := .none } s.ms) ∧
    ∀ x y, s.qs.launches.get? b.launch = some x → s.qs.queues.get? x.q = some y → ∃ t c y',
      exec (.hostFaultReply b.asid page false) s = .next t ∧ t.blocks.get? id = some c ∧ c.stopping = .terminate (some (gi, pc, f)) ∧
        t.qs.queues.get? x.q = some y' ∧ y'.st = .error ∧ t.faultQ = s0.faultQ) ∧
  (b.protect = true → b.prot.pending ≠ [] → b.stopping = .none → s.copiesOf id = false →
    (∀ g' ∈ b.st.groups, ∀ t ∈ g'.batches, t.closed = false) →
    let st : BlkState := { (b.prot.pending.foldl completeSlot b.st).knows (s.clk b.cl) with track := true, sectors := [], tilesW := [] }
    exec (.checkpoint id) s = .next (s.setBlock id { b with st := st, prot := ⟨true, false, false, [], some st⟩ })) ∧
  ∀ cl co, ∃ t, exec (.zeroingDone cl co) s = .next t ∧ CoreOnly s t cl co { s.core cl co with zeroing := Load.zero } ∧ { t with cores := s.cores } = s

/-! ### Events of memory -/

/-- 06 R143, R145, R147, R156, R160, R166, 07 R191, 08 R230, 21 R410: what leaves a core's store queue. It is an act issued 160 local cycles ago or more and no load of this chip. Before it stands no act of its
sector but a load of another lane, no two acts of a group of which one is an enqueue or the hand-off of a copy, no two writes of a lane to the L2 or to one other chip; and before a release nothing of its group and no write that issued
when the group last came to know of others' stores, or earlier (log 33); and nothing under way holds it. An act alone in its queue, with nothing to hold it, leaves. The atomics of one word on one location leave together, in the order of their
lanes. A store to the L2 or to a slice changes the bytes it stores and no other byte of memory; a store to the cluster cache
changes the cluster's copy and no memory, unless it writes through, as STNT does, and as a store with CH 11 does where the cluster has no copy. An atomic leaves the function's result, and gives the old value to its lane. After the release of an ATOMC
its slice decides, and queues its task. An ENQ writes its packet where the queue has room, and its predicate says so. The hand-off of a copy writes back what its lane stored, and
takes its destination for the engine. -/
def Obligations.StoreQueue : Prop := ∀ (s : State) (cl co : Nat),
  let sector := fun (x y : Held) => ∃ r u, x.act.range = some r ∧ y.act.range = some u ∧ r.1 = u.1 ∧ r.2.1 / 64 = u.2.1 / 64
  let whole := fun (x : Held) => (∃ n, x.act = .handoff n) ∨ ∃ n w r, x.act = .enq n w r
  let atL2 := fun (x : Held) => (∃ way pa w, x.act = .store .l2 way pa w) ∨ ∃ fn pa wide y z r, x.act = .atom fn .l2 pa wide y z r
  let to_ := fun (x : Held) (n : Nat) => x.act.reads = false ∧ ∃ pa k, x.act.range = some (some n, pa, k)
  (∀ h, (s.core cl co).held = [h] → h.act.isLoad = false → h.issued + 160 ≤ s.clk cl → s.canPerform cl h = true → s.leaver cl co = some (h, [])) ∧
  ∀ (h : Held) (l : List Held), s.leaver cl co = some (h, l) →
  (h.issued + 160 ≤ s.clk cl ∧ s.canPerform cl h = true ∧ (∀ m ∈ s.fab.retry, m.before h = false ∧ m.bars h = false) ∧
    (∀ p ldb keep pa n r, h.act ≠ .load p ldb keep pa n r) ∧
    ∃ l1 l2, (s.core cl co).held = l1 ++ h :: l2 ∧ l = l1 ++ l2 ∧ ∀ x ∈ l1,
      (x.act.isLoad = true → sector x h → h.sameLane x.blk x.grp x.lane = false) ∧
      (x.act.isLoad = false → ¬ sector x h ∧ ¬ (x.blk = h.blk ∧ x.grp = h.grp ∧ (whole x ∨ whole h)) ∧
        (x.sameLane h.blk h.grp h.lane = true → ¬ (atL2 x ∧ atL2 h) ∧ ∀ n, ¬ (to_ x n ∧ to_ h n))) ∧
      (h.rel.isSome = true → ¬ (x.blk = h.blk ∧ x.grp = h.grp) ∧ (x.act.reads = true ∨ s.acqAtOf h < x.issued))) ∧
  (∃ t, exec (.storeLeaveCore cl co) s = .next t) ∧
  ∀ b, s.blocks.get? h.blk = some b → b.spec = none →
  (∀ a z, h.rel = some (a, z) →
    let s0 := (s.setCore cl co { s.core cl co with held := l }).releaseAct cl a z
    (∀ p pa ea x y task ret (decc : Bool), h.act = (if decc then .decc p pa ea x task ret else .casc p pa ea x y task ret) → p.chip? = none →
      s0.ms.atomPoison cl none pa p = false → l.find? h.follows = none →
      let fifo := s.fifos.getD (sliceOf pa) []
      ∀ ctx e, s.ctxs.get? b.asid = some ctx → fifo.length < 512 → fifo.countP (fun t => t.asid == b.asid) < ctx.quota →
        ctx.conts.get? (256 * sliceOf pa + task.toNat % 256) = some e →
        let old := s0.ms.mem.word pa
        let v := if decc then old - x else y
        ∃ t, exec (.storeLeaveCore cl co) s = .next t ∧ (t.core cl co).held = l ∧
          (∀ i, t.ms.mem.byte i = if (decc = true ∨ old = x) ∧ pa ≤ i ∧ i < pa + 8 then v.extractLsb' (8 * (i - pa)) 8 else s0.ms.mem.byte i) ∧
          t.fifos.getD (sliceOf pa) [] = fifo ++ if old = x then [⟨b.asid, e, old, ea, task.extractLsb' 32 32, s.fab.chip, decc⟩] else []) ∧
    ∀ qcb body ret p g k x, h.act = .enq qcb body ret → ret.pred = some p → p ≠ 7 → ret.pair = none → ret.d = none →
      b.st.groups[h.grp]? = some g → g.retired = false → ret.lane < g.lanes.length → s0.queueAt qcb = some (k, x) → s0.slotBeyond x = false →
      (∀ y, s.qs.launches.get? b.launch = some y → y.children = 0) →
      let ends := fun (u : State) (v : Bool) => ∃ t c g', exec (.storeLeaveCore cl co) s = .next t ∧ (t.core cl co).held = l ∧ t.ms.mem = u.ms.mem ∧
        t.qs = u.qs ∧ t.blocks.get? h.blk = some c ∧ c.st.groups[h.grp]? = some g' ∧ (g'.lane ret.lane).pr p = v
      (s0.reserve x false = none → ends s0 false) ∧
      ∀ pos s1, s0.reserve x false = some (pos, s1) → ends (s1.putPacket k x pos body) true) ∧
  (h.rel = none →
    (∀ n c, h.act = .handoff n → s.ms.copies.get? n = some c → (∀ k ∈ c.objs, k = h.blk) → KMap.sorted s.ms.cc = true →
      let dest := c.destSectors s.fab.chip
      ∃ t, exec (.storeLeaveCore cl co) s = .next t ∧ (t.core cl co).held = l ∧ t.ms.copies.get? n = some { c with handed := true } ∧
        (∀ x ∈ dest, x ∈ t.ms.owned ∧ t.ms.cc.get? (ccKey cl x) = none) ∧
        ∀ a, (a / 64 ∈ dest → t.ms.mem.byte a = s.ms.merged cl a) ∧ (a / 64 ∉ dest →
          (∀ y, s.ms.cc.get? (ccKey cl (a / 64)) = some y → y.writers.contains (h.blk, h.grp, h.lane) = false) → t.ms.mem.byte a = s.ms.mem.byte a)) ∧
    (∀ p way pa bytes, h.act = .store p way pa bytes → (p = .l2 ∨ p = .slice) →
      ∃ t, exec (.storeLeaveCore cl co) s = .next t ∧ (t.core cl co).held = l ∧
        ∀ a, t.ms.mem.byte a = if pa ≤ a ∧ a < pa + bytes.length then bytes.getD (a - pa) 0 else s.ms.mem.byte a) ∧
    (∀ way pa bytes, h.act = .store .cache way pa bytes → pa % 64 + bytes.length ≤ 64 →
      let has := (s.ms.cc.get? (ccKey cl (pa / 64))).isSome
      ∃ t, exec (.storeLeaveCore cl co) s = .next t ∧ (t.core cl co).held = l ∧
        (way = .back ∨ (way = .around ∧ has = true) → t.ms.mem = s.ms.mem ∧
          ∀ i (hi : i < bytes.length), t.ms.copied cl (pa + i) = bytes[i] ∧ t.ms.merged cl (pa + i) = bytes[i]) ∧
        (way = .through ∨ (way = .around ∧ has = false) → (has = false → t.ms.cc.get? (ccKey cl (pa / 64)) = none) ∧
          ∀ a, t.ms.mem.byte a = if pa ≤ a ∧ a < pa + bytes.length then bytes.getD (a - pa) 0
            else if a / 64 = pa / 64 then s.ms.merged cl a else s.ms.mem.byte a)) ∧
    ∀ fn p pa wide x y ret, h.act = .atom fn p pa wide x y ret → (p = .l2 ∨ p = .slice) →
      s.ms.cc.get? (ccKey cl (pa / 64)) = none → s.ms.poison = [] →
      let n := if wide then 8 else 4
      let old : W64 := BitVec.ofNat 64 (leNat (s.ms.mem.bytes pa n))
      let new := leBytes (atomNew fn wide old x y).toNat n
      (∀ h2 x2 y2 ret2, l.find? h.follows = some h2 → (l.erase h2).find? h.follows = none → h2.rel = none → h2.act = .atom fn p pa wide x2 y2 ret2 →
        ∃ t, exec (.storeLeaveCore cl co) s = .next t ∧ (t.core cl co).held = l.erase h2 ∧
          t.ms.mem.bytes pa n = leBytes (atomNew fn wide (BitVec.ofNat 64 (leNat new)) x2 y2).toNat n ∧
          ∀ a, a < pa ∨ pa + n ≤ a → t.ms.mem.byte a = s.ms.mem.byte a) ∧
      (l.find? h.follows = none → ∃ t, exec (.storeLeaveCore cl co) s = .next t ∧ (t.core cl co).held = l ∧ t.ms.mem.bytes pa n = new ∧
        (∀ a, a < pa ∨ pa + n ≤ a → t.ms.mem.byte a = s.ms.mem.byte a) ∧
        ∀ g r d, b.st.groups[h.grp]? = some g → g.retired = false → ret = some r → r.d = some d → r.lane < g.lanes.length →
          ∃ c g', t.blocks.get? h.blk = some c ∧ c.st.groups[h.grp]? = some g' ∧ (g'.lane r.lane).reg d = old))

/-- 07 R187, R192, R201, R202, R204, R205, R207, 21 R410, R421: deliveries and batches. A delivery of a COPY writes the bytes that the engine reads for its range, counts
them in the object, and completes the object when that is due; after the last the copy is gone. An operation runs once its cycles have passed, not before; in bin 2 it takes 13/11 of them (log 79), and while a paired MMA of the leader runs the
follower's array runs none (log 115). One whose result is tiny counts one assist (log 126). A closed batch without operations left retires: its scratch MSTORE is written, and words that wait for a batch go on; one that stores to global memory waits 160 cycles after its close, and on a pair so does one that stores at all. -/
def Obligations.EngineEvents : Prop :=
  (∀ bf af row a b pair, mopCycles (.mmaF bf af row a b pair) = match bf with
    | .e4m3 => 16
    | .e5m2 => 16
    | .bf16 => 32
    | .fp16 => 32) ∧
  (∀ row a b pair, mopCycles (.mmaI 1 row a b pair) = 2 ∧ mopCycles (.mmaI 2 row a b pair) = 4 ∧ mopCycles (.mmaI 4 row a b pair) = 8 ∧
    mopCycles (.mmaI 8 row a b pair) = 16) ∧
  (∀ af row a b pair sc, mopCycles (.mmaQ af row a b pair sc) = 8) ∧ (∀ row, mopCycles (.mzero row) = 4) ∧
  (∀ f row va pages op, (op = .mload f row va pages ∨ op = .mstore f row va pages) → mopCycles op = match f with
    | .f32 => 48
    | .bf16 => 24
    | .f16 => 24
    | .e4m3 => 12
    | .e5m2 => 12) ∧
  ∀ (s : State) (id gi : Nat),
  (∀ chunk c b off n, s.ms.copies.get? id = some c → s.blocks.get? c.blk = some b → c.todo[chunk]? = some (off, n) → c.kind = .load →
    c.handed = true → b.spec = none → c.objs = [c.blk] → c.objStored = false → c.ready s.fab.chip (c.sources off n) = true →
    batchHolds b.st (c.sofs + off) n = false → (c.objOff + 16 ≤ c.sofs + off ∨ c.sofs + off + n ≤ c.objOff) →
    let r := (fetchSources s.fab.chip none (fun _ => none) (c.sources off n) (c, s.ms)).1
    let last := c.todo.length = 1 ∧ c.sent = []
    ∃ t b' bad, exec (.copyDelivery id chunk) s = .next t ∧ t.blocks.get? c.blk = some b' ∧
      (∀ i < n, b'.st.scratch.byte (c.sofs + off + i) = (r.deliverBytes s.fab.chip off n).getD i 0) ∧
      (bad = true ↔ ∃ va ∈ c.sources off n, r.srcBad s.fab.chip va = true) ∧
      b'.st.obj c.objOff = (b.st.obj c.objOff).delivered n (if last then c.clip else 0) bad ∧
      (last → t.ms.copies.get? id = none) ∧
      (¬ last → ∃ c', t.ms.copies.get? id = some c' ∧ c'.todo = c.todo.erase (off, n)) ∧ t.ms.mem = s.ms.mem) ∧
  ∀ b g u l, s.blocks.get? id = some b → b.st.groups[gi]? = some g → g.batches = u :: l →
    (∀ pc at_ op ops, u.ops = (pc, at_, op) :: ops →
      let n := if (s.core b.cl (b.coreOf gi)).bin = 2 then (13 * mopCycles op + 10) / 11 else mopCycles op
      let taken := s.arrayTaken b.cl (b.coreOf gi)
      (s.clk b.cl < at_ + n ∨ taken = true ∨ s.mopWaits b id gi op = true → exec (.mmaComplete id gi) s = .next s) ∧
      (at_ + n ≤ s.clk b.cl → taken = false → s.mopWaits b id gi op = false → (∀ x ∈ mloadSectors op, s.predicted b x.1 64 ≠ some none) →
        mopPoison b.st s.ms b.cl b.spec op = false →
        let r := runMOp b.st s.ms b.cl b.spec (s.sees b gi) b.ftz (b.follows gi) op
        ∃ t b' g', exec (.mmaComplete id gi) s = .next t ∧ t.ms = r.2.1 ∧ t.blocks.get? id = some b' ∧ b'.st.acc = r.1.acc ∧
          b'.st.scratch = r.1.scratch ∧ b'.st.groups[gi]? = some g' ∧ g'.batches = { u with ops := ops, outs := u.outs ++ r.2.2.1 } :: l ∧
          g'.lanes = g.lanes ∧ g'.tally.assists = g.tally.assists + (if r.2.2.2 then 1 else 0) ∧
          (∀ j, j ≠ gi → b'.st.groups[j]? = b.st.groups[j]?) ∧ ∀ k, k ≠ id → t.blocks.get? k = s.blocks.get? k)) ∧
    (∀ o ∈ u.outs, u.closed = true → u.ops = [] → s.clk b.cl < u.closedAt + 160 → (inWindow o.1 = false ∨ b.pair = true) → exec (.batchRetire id gi) s = .next s) ∧
    (u.closed = true → u.ops = [] → s.arrayTaken b.cl (b.coreOf gi) = false → (∀ n, b.spec = some n → s.ms.cocoonFull n = false) →
      (u.outs = [] ∨ ∃ va m bytes, u.outs = [(va, m, bytes)] ∧ inWindow va = true ∧ (b.pair = true → u.closedAt + 160 ≤ s.clk b.cl)) →
      ∃ t b' h, exec (.batchRetire id gi) s = .next t ∧ t.blocks.get? id = some b' ∧ b'.st.groups[gi]? = some h ∧ h.batches = l ∧
        (∀ z, (g.pcSlot z).wait = .batch → (h.pcSlot z).wait = .resume) ∧ h.lanes = g.lanes ∧ b'.st.acc = b.st.acc ∧ t.ms.mem = s.ms.mem ∧
        (u.outs = [] → b'.st.scratch = b.st.scratch) ∧
        ∀ va m bytes, u.outs = [(va, m, bytes)] → bytes.length % 64 = 0 → ∀ i (hi : i < bytes.length),
          b'.st.scratch.byte (va.toNat - 0x1FFFFE00000 + i) = bytes[i])

/-- 11 R297, 15 R325, 16 R346, 21 R412, 19 R389, R390: what else reaches memory. An eviction merges the dirty bytes of a cluster's copy into its home and drops the
copy. An uncorrectable error poisons one sector and changes no data. A host access over CXL acts at the home. The loss of a directory
entry spoils the speculations that watch its line. A task of a slice becomes a packet of its queue, with the words of R389, once no earlier task of the
slice is bound for it; a task of a queue in ERROR is dropped and reported, and so is one whose ring slot lies beyond the installed memory (17 R358, log 123). -/
def Obligations.MemoryEvents : Prop := ∀ (s : State),
  (∀ cl sector, ∃ t, exec (.sectorEviction cl sector) s = .next t ∧ t.ms.cc.get? (ccKey cl sector) = none ∧ { t with ms := s.ms } = s ∧
    ∀ a, t.ms.mem.byte a = if a / 64 = sector then s.ms.merged cl a else s.ms.mem.byte a) ∧
  (∀ x, ∃ t, exec (.uncorrectableError (.home x)) s = .next t ∧ { t with ms := { t.ms with poison := s.ms.poison } } = s ∧
    ∀ y, y ∈ t.ms.poison ↔ y = x ∨ y ∈ s.ms.poison) ∧
  (∀ cl x y, s.ms.cc.get? (ccKey cl x) = some y → exec (.uncorrectableError (.cache cl x)) s =
    .next { s with ms := { s.ms with cc := s.ms.cc.put (ccKey cl x) { y with poison := true } } }) ∧
  (∀ id x b, s.blocks.get? id = some b → ∃ t l, exec (.uncorrectableError (.scratch id x)) s = .next t ∧
    t.blocks = s.blocks.put id { b with st := { b.st with spoison := l } } ∧ (∀ y, y ∈ l ↔ y = x ∨ y ∈ b.st.spoison) ∧ t.ms = s.ms) ∧
  (∀ pa n, pa + n ≤ 2 ^ 39 → (∀ x ∈ sectorsOf pa n, x ∉ s.ms.owned) → exec (.hostCxlAccess pa (.read n)) s =
    .next (s.post (if s.ms.poisoned pa n then .cxl [] true else .cxl (s.ms.mem.bytes pa n) false))) ∧
  (∀ pa bytes, pa + bytes.length ≤ 2 ^ 39 → (∀ x ∈ sectorsOf pa bytes.length, x ∉ s.ms.owned) →
    ∃ t, exec (.hostCxlAccess pa (.write bytes)) s = .next t ∧ t.qs = (s.post (.cxl [] false)).qs ∧
      ∀ a, t.ms.mem.byte a = if pa ≤ a ∧ a < pa + bytes.length then bytes.getD (a - pa) 0 else s.ms.mem.byte a) ∧
  (∀ pa, pa + 8 ≤ 2 ^ 39 → (∀ x ∈ sectorsOf pa 8, x ∉ s.ms.owned) → s.ms.poisoned pa 8 = false →
    let old := s.ms.mem.word pa
    let does := fun (op : CxlOp) (v : W64) => ∃ t, exec (.hostCxlAccess pa op) s = .next t ∧
      t.qs = (s.post (.cxl (s.ms.mem.bytes pa 8) false)).qs ∧ t.ms.mem.word pa = v ∧
      ∀ a, a < pa ∨ pa + 8 ≤ a → t.ms.mem.byte a = s.ms.mem.byte a
    ∀ v n, does (.cas v n) (if old = v then n else old) ∧ does (.or v) (old ||| v) ∧ does (.add v) (old + v)) ∧
  (∀ line, ∃ t, exec (.directoryEntryEviction line) s = .next t ∧ { t with ms := { t.ms with cocoons := s.ms.cocoons } } = s ∧
    ∀ n c, s.ms.cocoons.get? n = some c →
      t.ms.cocoons.get? n = some { c with spoiled := c.spoiled || c.watch.contains line }) ∧
  ∀ slice pos u k x, (s.fifos.getD slice [])[pos]? = some u →
    (∀ v ∈ (s.fifos.getD slice []).take pos, v.asid ≠ u.asid ∨ v.ent.target ≠ u.ent.target) → s.queueOf u.asid u.ent.target = some (k, x) →
    let gone : State := { s with fifos := KMap.putD [] s.fifos slice ((s.fifos.getD slice []).eraseIdx pos) }
    (x.st = .error → exec (.sliceWriteTask slice pos) s = .next (gone.post (.contDrop u.asid u.ea u.tag))) ∧
    (x.st ≠ .error → gone.slotBeyond x = true → exec (.sliceWriteTask slice pos) s = .next ((gone.post (.contDrop u.asid u.ea u.tag)).slotFails k x)) ∧
    (x.st ≠ .error → gone.slotBeyond x = false → gone.reserve x false = none → exec (.sliceWriteTask slice pos) s = .next s) ∧
    ∀ p s1, x.st ≠ .error → gone.slotBeyond x = false → gone.reserve x false = some (p, s1) →
      ∃ w0 w11, exec (.sliceWriteTask slice pos) s = .next (s1.putPacket k x p
          [w0, u.ent.desc, u.ent.fields, 0x0000000100000001, 0x0000000100000001, u.ent.res, 0, 0, u.old, u.ea, u.tag.setWidth 64, w11,
            0, 0, 0, 0]) ∧
        w0.extractLsb' 1 7 = 1 ∧ w0.extractLsb' 8 3 = 3 ∧ w0.extractLsb' 11 3 = 3 ∧ w0.extractLsb' 14 2 = 0 ∧ w0.extractLsb' 20 44 = 0 ∧
        w0.getLsbD 16 = u.ent.coop ∧ w0.getLsbD 17 = u.ent.ftz ∧ w0.getLsbD 18 = false ∧ w0.getLsbD 19 = u.ent.pair ∧
        (u.chip < 64 → w11.toNat = u.chip + if u.decc then 256 else 0)

/-! ### Issue and placement -/

/-- 08 R254, 09 R266, 16 R343: the choice among the ready groups of a core. Of the pool, the group that has waited longest if one is overdue; else the oldest that is not demoted; else the
oldest. Groups that yielded are left out unless every ready group has (log 47). A speculation issues only if no group of real work can (log 77), and YLD holds among speculations too; nothing issues only if nothing can. A word in progress
that can go on takes no turn, and goes on even on a core that is out of service. 00 R5, 09 R265, R266, R267, 21 R422: one turn of a core. Nothing happens while the period start of the cluster is due. Otherwise the cluster goes on to the next core, with the next
local cycle after the eighth, if nothing issues: the core is out of service, or a bin 2 core has one of its two idle cycles of thirteen, or no group is chosen. If one is, its
word comes into focus and its context has used one slot more. At a period start every context that is resident has used nothing, with
the ceiling of its class, and a reservation that has come down to its class or risen towards it (log 111). -/
def Obligations.IssueChoice : Prop :=
  (∀ (s : State) (cl : Nat) (l : List Cand),
    let got := s.choose cl (notYielded l)
    (∀ c, got = some c → c.spec = none → s.Pool cl l c ∧
      ((∃ d, s.Pool cl l d ∧ 4096 ≤ d.waited) → ∀ d, s.Pool cl l d → d.waited ≤ c.waited) ∧
      ((∀ d, s.Pool cl l d → d.waited < 4096) →
        ((∃ d, s.Pool cl l d ∧ d.demoted = false) → c.demoted = false ∧ ∀ d, s.Pool cl l d → d.demoted = false → c.order ≤ d.order) ∧
        ((∀ d, s.Pool cl l d → d.demoted = true) → ∀ d, s.Pool cl l d → c.order ≤ d.order))) ∧
    (∀ c, got = some c → c.spec ≠ none →
      let may := fun (d : Cand) => d ∈ l ∧ d.spec ≠ none ∧ ((∃ e ∈ l, e.yielded = false) → d.yielded = false)
      may c ∧ (∀ d, ¬ s.Eligible cl l d) ∧
        ((∃ d, may d ∧ d.demoted = false) → c.demoted = false ∧ ∀ d, may d → d.demoted = false → c.order ≤ d.order) ∧
        ((∀ d, may d → d.demoted = true) → ∀ d, may d → c.order ≤ d.order)) ∧
    (got = none → (∀ d, ¬ s.Eligible cl l d) ∧ ∀ d ∈ l, d.spec ≠ none → d.yielded = true ∧ ∃ e ∈ l, e.yielded = false)) ∧
  (∀ (s : State) (cl : Nat),
    let x := s.cluster cl
    let c := s.core cl x.turn
    let next := fun (t : State) => (t.cluster cl).turn = (x.turn + 1) % 8 ∧ (t.cluster cl).clk = x.clk + (if x.turn = 7 then 1 else 0)
    let ready := s.readyCore cl x.turn
    let r := if c.bin = 2 then ready.setCore cl x.turn { ready.core cl x.turn with binTurn := (c.binTurn + 1) % 13 } else ready
    let idle := c.bin = 2 ∧ 11 ≤ c.binTurn
    (x.periodDue = true → exec (.issueCycle cl) s = .next s) ∧
    let pick := r.choose cl (notYielded (r.cands cl x.turn))
    (s.focus = none → x.turn < 8 → x.periodDue = false → ready.ms.mem = s.ms.mem ∧
      (∀ f, ready.goingOn cl x.turn = some f → exec (.issueCycle cl) s = .next { ready with focus := some f }) ∧
      (c.service ≠ .serving → ready.goingOn cl x.turn = none → ∃ t, exec (.issueCycle cl) s = .next t ∧ t.focus = none ∧ next t ∧ t.ms.mem = s.ms.mem) ∧
      (c.service = .serving →
        (ready.goingOn cl x.turn = none → c.bin = 2 → ∃ t, exec (.issueCycle cl) s = .next t ∧ (t.core cl x.turn).binTurn = (c.binTurn + 1) % 13) ∧
        (ready.goingOn cl x.turn = none → idle ∨ pick = none → ∃ t, exec (.issueCycle cl) s = .next t ∧
          t.focus = none ∧ next t ∧ t.ms.mem = s.ms.mem) ∧
        (ready.goingOn cl x.turn = none → ¬ idle → ∀ d, pick = some d → ∃ t, exec (.issueCycle cl) s = .next t ∧
          t.focus = some ⟨d.id, d.gi, d.slot⟩ ∧ (t.cluster cl).turn = x.turn ∧ (t.cluster cl).clk = x.clk ∧ t.ms = ready.ms ∧
          (d.spec = none → (t.budget cl d.asid).used = (r.budget cl d.asid).used + 1)))) ∧
    (x.periodDue = true → KMap.sorted x.budgets = true → ∃ t, exec (.budgetPeriodStart cl) s = .next t ∧ (t.cluster cl).period = x.clk / 65536 ∧ (t.cluster cl).clk = x.clk ∧
      t.blocks = s.blocks ∧ t.ms = s.ms ∧
      ∀ a u, x.budgets.get? a = some u → s.residentIn cl a = true → ∃ v, (t.cluster cl).budgets.get? a = some v ∧ v.used = 0 ∧
        v.ceil = (s.classOf a u.cls).2 ∧ v.cls = u.cls ∧ min u.res (s.classOf a u.cls).1 ≤ v.res ∧ v.res ≤ (s.classOf a u.cls).1))

/-- 09 R256 to R262, 15 R334, R335, 01 R9, R16, R26: from a launch to blocks on cores. The device dispatcher hands the next chunk to the next cluster in turn that holds fewer than
two, for the launch of the highest priority and then the lowest slot, real work before speculations. A cluster dispatcher places the lowest block of its first chunk on
a core that fits it with the fewest resident groups, the lowest number on a tie, and the block starts with every register, predicate and
byte zero and its lanes at the entry. A COOP launch that fits is placed whole, in its turn. An idle cluster takes the upper half of the pending blocks of the cluster that has most, as one chunk (log 129). -/
def Obligations.Placement : Prop := ∀ (s : State) (l : Nat) (x : Launch), s.qs.launches.get? l = some x → x.terminated = false →
    s.mappedLaunch x = true →
  let first := x.lastCl.elim 0 fun c => c + 1
  let size := 16384 * resUnits (recW x.w 5)
  let entry : BitVec 57 := (recW x.desc 0).setWidth 57
  let turn := ∀ p ∈ s.qs.launches, (s.slotOf p.2.q).getD 0 < 256 ∧ (s.canDispatch p.1 p.2 = true → (x.spec = none ∧ p.2.spec ≠ none) ∨
    ((x.spec ≠ none → p.2.spec ≠ none) ∧ (queuesPrio (s.gangOf p.2.q) < queuesPrio (s.gangOf x.q) ∨
      (queuesPrio (s.gangOf p.2.q) = queuesPrio (s.gangOf x.q) ∧ (s.slotOf x.q).getD 0 ≤ (s.slotOf p.2.q).getD 0))))
  (∀ i < 96, x.coop = false → x.handed < x.total →
    (∀ j < i, 2 ≤ (x.chunksAt ((first + j) % 96)).length) → (x.chunksAt ((first + i) % 96)).length < 2 → turn →
    let b := x.total - x.handed
    let n := min b (min 64 (max 1 ((b + 191) / 192)))
    let cl := (first + i) % 96
    exec (.dispatchChunk l) s = .next { s with qs := { s.qs with launches := s.qs.launches.put l { x with
      handed := x.handed + n
      lastCl := some cl
      chunks := x.chunks.put cl (x.chunksAt cl ++ [(List.range n).map fun k => x.handed + k]) } } }) ∧
  (∀ cl c cs more co, x.chunksAt cl = (c :: cs) :: more →
    let b := cs.foldl min c
    s.chooseCore cl (s.readyBlock l x b) = some co → (x.spec = none → s.specsOn cl co (hdrPair (recW x.w 0)) = []) →
    (∀ e ∈ c :: cs, b ≤ e) ∧ ∃ t id k y, exec (.blockPlace cl l) s = .next t ∧ s.blocks.get? id = none ∧ t.blocks = s.blocks.put id k ∧
      t.ms = s.ms ∧ k.launch = l ∧ k.index = b ∧ k.cl = cl ∧ k.co = co ∧ k.asid = x.asid ∧ k.spec = x.spec ∧ k.qpkt = s.launchPacket x ∧
      k.stopping = .none ∧ (k.prot.on = hdrProtect (recW x.w 0)) ∧ k.scratchSize = size ∧ k.nregs = resRegs (recW x.w 5) ∧
      k.tiles = resTiles (recW x.w 5) ∧ k.st.groups.length = resGroups (recW x.w 5) ∧ (∀ a, k.st.scratch.byte a = 0) ∧ k.st.acc = [] ∧
      t.qs.launches.get? l = some y ∧ (y.chunksAt cl = if cs = [] then more else (c :: cs).erase b :: more) ∧
      ∀ gi < resGroups (recW x.w 5), ∃ g, k.st.groups[gi]? = some g ∧ g.slot0.e = ⟨entry, 0xFFFFFFFF⟩ ∧ g.slot1.e.mask = 0 ∧
        g.dspTop = BitVec.ofNat 32 (size - 512 * gi) ∧ g.dspCeil = g.dspTop ∧ g.dspFloor = BitVec.ofNat 32 (size - 512 * (gi + 1)) ∧
        ∀ i < 32, (g.lane i).present = true ∧ (g.lane i).wid = widOf x.w b gi i ∧ (∀ r, (g.lane i).reg r = 0 ∧ (g.lane i).tnt r = false) ∧
          ∀ p, p ≠ 7 → (g.lane i).pr p = false) ∧
  (∀ s1, x.coop = true → x.handed = 0 → turn → s.coopFits l x = some (s1, []) → ∃ t y, exec (.coopPlace l) s = .next t ∧
    t.blocks = s1.blocks ∧ t.ms = s.ms ∧ t.qs.launches.get? l = some y ∧ y.handed = x.total ∧
    ∀ b < x.total, ∃ id k, t.blocks.get? id = some k ∧ s.blocks.get? id = none ∧ k.launch = l ∧ k.index = b) ∧
  ∀ cl v, cl < 96 → x.coop = false → (∀ p ∈ s.qs.launches, x.spec ≠ none ∨ p.2.spec = none → p.2.chunksAt cl = []) → (s.chooseCore cl (s.readyBlock l x 0)).isSome = true →
    KMap.sorted x.chunks = true → (x.chunksAt v).flatten.Nodup → 2 ≤ (x.chunksAt v).flatten.length →
    (∀ u, (x.chunksAt u).flatten.length < (x.chunksAt v).flatten.length ∨
      ((x.chunksAt u).flatten.length = (x.chunksAt v).flatten.length ∧ v ≤ u)) →
    ∃ y gone, exec (.workSteal cl l) s = .next { s with qs := { s.qs with launches := s.qs.launches.put l y } } ∧ y.chunksAt cl = [gone] ∧
      gone.length = (x.chunksAt v).flatten.length / 2 ∧ (∀ b ∈ (y.chunksAt v).flatten, ∀ c ∈ gone, b < c) ∧
      (∀ b, b ∈ (x.chunksAt v).flatten ↔ b ∈ gone ∨ b ∈ (y.chunksAt v).flatten) ∧ { y with chunks := x.chunks } = x

/-- 09 R260: the core that a cluster dispatcher chooses fits, no core that fits has fewer resident groups, and none that has as few a lower number. A core that fits is in
service, and its free resources cover the block; what is being zeroed there is not free. -/
def Obligations.CoreChoice : Prop := ∀ (s : State) (cl : Nat) (b : Block), b.pair = false → b.spec = none →
  let here := fun (co : Nat) => s.coreLoad cl co fun x => !x.isSpec
  let taken := fun (co : Nat) => (here co).add (s.core cl co).zeroing
  let fits := fun (co : Nat) => co < 8 ∧ (s.core cl co).service = .serving ∧
    (taken co).groups + (b.load false).groups ≤ 32 ∧ (taken co).regBytes + 256 * b.nregs * (b.load false).groups ≤ 262144 ∧
    (taken co).scratch + b.scratchSize ≤ 1024 * (s.core cl co).split ∧ (taken co).tiles + b.tiles ≤ 16 ∧ (taken co).blocks < 16
  (∀ co, s.chooseCore cl b = some co →
    fits co ∧ ∀ k, fits k → (here co).groups < (here k).groups ∨ ((here co).groups = (here k).groups ∧ co ≤ k)) ∧
  (s.chooseCore cl b = none → ∀ k, ¬ fits k)

/-- 08 R224, 15 R326, R336, R431, 17 R364, R365, R376: how a block and a launch end. A drained block whose groups have all retired goes, its core's buffers wait for zeroing, and its launch counts it; a block that a fault
terminated ends so too, and its record is written with the fields of R365 into the context's ring in memory (where in it, log 103), or counted as dropped if the ring is full. Once every block has ended, and at FAB or wider once no write of this chip to
another is outstanding, the device releases at RELSC and takes one from the
completion signal, unless its address is 0, and the launch is gone. -/
def Obligations.Endings : Prop := ∀ (s : State),
  (∀ id b x, s.blocks.get? id = some b → s.drained id b = true → s.qs.launches.get? b.launch = some x → b.pair = false →
    let ends := fun (t : State) => t.blocks.get? id = none ∧ (∃ y, t.qs.launches.get? b.launch = some y ∧ y.ended = x.ended + 1) ∧
      (t.core b.cl b.co).zeroing = (s.core b.cl b.co).zeroing.add { b.load false with groups := 0, blocks := 0 } ∧
      ∀ k, k ≠ id → t.blocks.get? k = s.blocks.get? k
    (b.stopping = .none → (∀ g ∈ b.st.groups, g.retired = true) → ∃ t, exec (.blockEnd id) s = .next t ∧ ends t ∧ t.ctxs = s.ctxs ∧
      t.ms.mem = s.ms.mem) ∧
    (b.stopping = .none → (∃ g ∈ b.st.groups, g.retired = false) → exec (.blockEnd id) s = .next s) ∧
    (∀ gi pc f c, b.stopping = .terminate (some (gi, pc, f)) → s.ctxs.get? b.asid = some c →
      let read := min c.ring.length (s.ms.mem.word (c.ringAt + Config.ringRead) - BitVec.ofNat 64 c.ringRead).toNat
      let kept := c.ring.drop read
      let slot := c.ringAt + Config.ringRecord ((c.ringRead + read + kept.length) % 64)
      (64 ≤ kept.length → ∃ t, exec (.blockEnd id) s = .next t ∧ ends t ∧
        t.ctxs.get? b.asid = some { c with ring := kept, ringRead := c.ringRead + read, dropped := c.dropped + 1 } ∧
        t.ms.mem.bytes (c.ringAt + Config.ringDropped) 8 = leBytes (c.dropped + 1) 8) ∧
      (kept.length < 64 → ∃ t w r, exec (.blockEnd id) s = .next t ∧ ends t ∧
        t.ctxs.get? b.asid = some { c with ring := kept ++ [r], ringRead := c.ringRead + read } ∧
        (∀ i < 8, t.ms.mem.word (slot + 8 * i) = r.getD i 0) ∧ (∀ a, a < slot ∨ slot + 64 ≤ a → t.ms.mem.byte a = s.ms.mem.byte a) ∧
        r = [w, pc.setWidth 64, f.ea, BitVec.ofNat 64 b.index, s.launchHandle b.launch, b.qpkt, BitVec.ofNat 64 (s.clk b.cl), 0] ∧
        w.extractLsb' 56 8 = f.code.num ∧ w.extractLsb' 50 6 = 0 ∧ w.extractLsb' 32 18 = f.arg ∧ w.extractLsb' 27 5 = BitVec.ofNat 5 f.lane ∧
        w.extractLsb' 22 5 = BitVec.ofNat 5 gi ∧ w.extractLsb' 20 2 = 0 ∧ w.extractLsb' 10 10 = BitVec.ofNat 10 b.asid ∧
        w.extractLsb' 3 7 = BitVec.ofNat 7 b.cl ∧ w.extractLsb' 0 3 = BitVec.ofNat 3 b.co))) ∧
  ∀ l x y, s.qs.launches.get? l = some x → x.spec = none → x.ended = x.total → x.handed = x.total → x.children = 0 →
    s.qs.queues.get? x.q = some y →
    let wide := hdrRel (recW x.w 0) = .fab ∨ hdrRel (recW x.w 0) = .sys
    let out := ∃ m ∈ s.fab.retry, m.writes = true
    (wide → out → exec (.launchComplete l) s = .next s) ∧ (¬ (wide ∧ out) →
    let s1 := s.releaseAll (hdrRel (recW x.w 0))
    let va := recW x.w 6
    (va = 0 → ∃ t, exec (.launchComplete l) s = .next t ∧ t.qs.launches.get? l = none ∧ t.ms = s1.ms) ∧
    ∀ leaf pa, va ≠ 0 → s1.fe y.asid va true = .ok (leaf, pa) → (pteRem leaf = true → pteChip leaf = s.fab.chip) →
      (∀ p ∈ s.faultQ, ∀ i, p.who ≠ .signal i) →
      ∃ t, exec (.launchComplete l) s = .next t ∧ t.qs.launches.get? l = none ∧ t.ms.mem.word pa = s1.ms.mem.word pa - 1 ∧
        ∀ a, a < pa ∨ pa + 8 ≤ a → t.ms.mem.byte a = s1.ms.mem.byte a)

/-- 17 R367 to R375, 21 R421: pre-emption. F1 orders it for a block that must leave, and for every block of a COOP launch with it. Once the block has drained and no word of it must still
complete (a word that has issued, but for the waits of R371 and a sweep, which stops between its elements), its image is written to the save area (log 99), and kept beside it as data (log 71): lanes, entries, stack and scratch as they were. A saved block goes back, under its number, to its cluster if a
core there takes it, else to the lowest that does, with a write-back in the old cluster and an invalidation in the new, and its image is zeroed. A block that trapped under
DEBUG resumes when the host says so, with what the host wrote into the image in memory (log 71) and its edits of what it may edit; another change terminates the launch. -/
def Obligations.Preemption : Prop := ∀ (s : State),
  (∀ id b, s.blocks.get? id = some b → b.spec = none → s.mustLeave b = true → ∃ t, exec (.preemptOrder id) s = .next t ∧
    { t with blocks := s.blocks } = s ∧ ∀ k c, s.blocks.get? k = some c →
      let goes := (k = id ∨ (c.launch = b.launch ∧ ∃ x, s.qs.launches.get? b.launch = some x ∧ x.coop = true)) ∧ c.stopping = .none
      (goes → t.blocks.get? k = some { c with stopping := .preempt none }) ∧ (¬ goes → t.blocks.get? k = some c)) ∧
  (∀ id b trap, s.blocks.get? id = some b → b.stopping = .preempt trap →
    let must := ∃ g ∈ b.st.groups, ∃ z, g.sweeps z = false ∧
      let w := (g.pcSlot z).wait
      (w = .coinit ∨ w = .drained ∨ (∃ n a, w = .drain n a) ∨ (∃ l, w = .far l) ∨ (∃ k va f n, w = .walk k va f n) ∨
        ((w = .resume ∨ ∃ l, w = .farGo l) ∧ (g.pcSlot z).plans = []) ∨
        (w = .held ∧ ∀ h ∈ b.st.groups, ∀ t ∈ h.batches, t.closed = true))
    (s.drained id b = false ∨ must → exec (.preemptSave id) s = .next s) ∧
    (s.drained id b = true → ¬ must → ∃ t i img, exec (.preemptSave id) s = .next t ∧ t.blocks.get? id = none ∧ s.saved.get? i = none ∧
      t.saved = s.saved.put i img ∧ img.trap = trap ∧ img.resume = trap.isNone ∧ img.id = id ∧ img.addr = s.imageAddr img.blk ∧
      t.ms.mem = s.ms.mem.putImage img.blk img.addr ∧
      { img.blk with st := b.st, prot := b.prot, stopping := b.stopping } = b ∧
      img.blk.st.scratch = b.st.scratch ∧ img.blk.st.acc = b.st.acc ∧ img.blk.st.accF = b.st.accF ∧ img.blk.st.bars = b.st.bars ∧
      img.blk.st.groups.length = b.st.groups.length ∧
      ∀ (gi : Nat) g h, b.st.groups[gi]? = some g → img.blk.st.groups[gi]? = some h → h.lanes = g.lanes ∧ h.slot0.e = g.slot0.e ∧
        h.slot1.e = g.slot1.e ∧ h.dspTop = g.dspTop ∧ h.flg = g.flg ∧ h.fex = g.fex ∧ h.bcnt = g.bcnt ∧ h.retired = g.retired)) ∧
  (∀ i img x cl co, s.saved.get? i = some img → s.qs.launches.get? img.blk.launch = some x → x.terminated = false → x.coop = false →
    s.mappedLaunch x = true → img.resume = true → s.resumeAt img.blk = some (cl, co) → s.specsOn cl co img.blk.pair = [] →
    (∀ k, s.chooseCore img.blk.cl img.blk = some k → cl = img.blk.cl ∧ co = k) ∧
    (s.chooseCore img.blk.cl img.blk = none → s.chooseCore cl img.blk = some co ∧ ∀ j < cl, s.chooseCore j img.blk = none) ∧
    let ms := s.ms.zeroRange (img.addr, img.blk.imageSize)
    ∃ t b, exec (.blockResume i) s = .next t ∧ t.saved = s.saved.del i ∧ t.blocks = s.blocks.put img.id b ∧ b.cl = cl ∧ b.co = co ∧
      { b with cl := img.blk.cl, co := img.blk.co, order := img.blk.order, scbOffset := img.blk.scbOffset, st := img.blk.st } = img.blk ∧
      { b.st with groups := img.blk.st.groups } = img.blk.st ∧ b.st.groups.length = img.blk.st.groups.length ∧
      (∀ (gi : Nat) g h, img.blk.st.groups[gi]? = some g → b.st.groups[gi]? = some h → h.park = .none ∧
        h.ahead = [] ∧ h.acqAt = s.clk cl ∧
        { h with park := g.park, ahead := g.ahead, acqAt := g.acqAt, slot0 := g.slot0, slot1 := g.slot1 } = g ∧
        ∀ z, h.pcSlot z = { g.pcSlot z with
          wait := if (g.pcSlot z).plans = [] then .none else .copySlot
          plans := (g.pcSlot z).plans.map fun c => { c with cl := cl, co := b.coreOf gi } }) ∧
      t.ms = if cl = img.blk.cl then ms else (ms.releaseDev img.blk.cl).acquireDev cl) ∧
  ∀ i img gi edits, s.saved.get? i = some img → img.trap = some gi → img.resume = false →
    let b0 := img.blk.fromImage s.ms.mem img.addr
    (.other ∉ edits → s.ms.mem.putImage b0 img.addr = s.ms.mem →
      let b := edits.foldl Block.edit b0
      exec (.debugResume i edits) s = .next { s with
        saved := s.saved.put i { img with blk := b, resume := true }
        ms := { s.ms with mem := s.ms.mem.putImage b img.addr } }) ∧
    (∀ j k (r : Reg) v g, img.blk.st.groups[j]? = some g → k < g.lanes.length → r.toNat < img.blk.nregs →
      ∃ h, (img.blk.edit (.reg j k r.toNat v)).st.groups[j]? = some h ∧ (h.lane k).reg r = v ∧
        (∀ o, o ≠ r → (h.lane k).reg o = (g.lane k).reg o) ∧ ∀ o, o ≠ k → h.lane o = g.lane o) ∧
    ∀ x y, .other ∈ edits ∨ s.ms.mem.putImage b0 img.addr ≠ s.ms.mem → s.qs.launches.get? img.blk.launch = some x →
      s.qs.queues.get? x.q = some y → ∃ t x' y',
      exec (.debugResume i edits) s = .next t ∧ t.qs.launches.get? img.blk.launch = some x' ∧ x'.terminated = true ∧
        t.qs.queues.get? x.q = some y' ∧ y'.st = .error

/-! ### Queues -/

/-- 15 R328, R330, R331, R432, 16 R341: decisions. A timeslice of cluster 0 asks for one. A decision begins the unmap of every idle mapped queue that is a gang of its own, and, where the
free slots suffice for all, maps every waiting ready queue, with AGE 0. Gangs are served in the order of their priority, which is the greatest of BPRI + AGE / 8, at most 7, of those of its queues that are not in ERROR, then of AGE, then of the lower
address (of equal ones, log 105). The first that finds too few free slots displaces mapped gangs of lower priority, those that come last first, as few as are enough with the free slots, and none if they are not enough; nothing is mapped then, and the queues that
wait age. When the flush probe of an unmap returns, with no write of the queue due, no read of its fetcher outstanding and no launch of it to be completed, the slot is free, its
successor table is kept, FSTATE is written, in a layout that the model leaves open (log 102), and the queue is in ERROR as before, or READY if something waits for it, or else
IDLE; in a teardown of its context it is gone. -/
def Obligations.Decisions : Prop := ∀ (s : State),
  (s.qs.slices < s.clk 0 / 1048576 → exec .timesliceExpire s =
    .next { s with qs := { s.qs with slices := s.clk 0 / 1048576, wantDecision := true } }) ∧
  (s.qs.wantDecision = true → KMap.sorted s.qs.queues = true → KMap.sorted s.qs.slots = true →
    ∃ t, exec .schedDecision s = .next t ∧
      ((∀ k x, s.qs.queues.get? k = some x → x.st = .ready ∨ x.st = .mapped → s.gangMapped (s.gang k) = true) → t.qs.wantDecision = false) ∧
      (∀ k x n, s.qs.queues.get? k = some x → x.gang = 0 → x.st = .mapped → s.slotOf k = some n → x.step = 0 → s.queueIdle k x = true →
        ∃ y, t.qs.queues.get? k = some y ∧ y.st = .unmapping ∧ y.step = 1) ∧
      (s.qs.queues.length ≤ s.freeSlots → ∀ k x, s.qs.queues.get? k = some x → x.st = .ready → s.gangMapped (s.gang k) = false →
        ∃ y n z, t.qs.queues.get? k = some y ∧ y.st = .mapped ∧ y.slot = n ∧ y.age = 0 ∧ y.pend = false ∧ n < 256 ∧
          t.qs.slots.get? n = some z ∧ z.q = some k ∧ z.woken = true ∧ z.succ = s.qs.keptSucc.getD k []) ∧
      let want := sortGangs gangBefore (s.gangs.filter fun g => !s.gangMapped g && s.gangEligible g)
      let mapped := s.gangs.filter fun g => s.gangMapped g && !gangLeaving g
      ∀ u rest, (∀ g ∈ mapped, s.gangIdle g = false) → want = u :: rest → s.freeSlots < (gangLive u).length →
        (∀ g ∈ want, ∀ p ∈ g, p.2.st ≠ .error → t.qs.queues.get? p.1 = some { p.2 with age := min 65535 (p.2.age + 1) }) ∧
        let taken := coverWith s (gangLive u).length (gangPrio u) s.freeSlots (sortGangs (fun a b => gangBefore b a) mapped)
        (∀ g ∈ mapped, g ∉ taken.getD [] → ∀ p ∈ g, t.qs.queues.get? p.1 = some p.2) ∧
        ∀ l, taken = some l → ∀ g ∈ l, ∀ p ∈ g, (s.slotOf p.1).isSome = true →
          ∃ y, t.qs.queues.get? p.1 = some y ∧ y.step = 1 ∧ y.st = if p.2.st = .error then .error else .unmapping) ∧
  (∀ (g : Gang) n, gangPrio g ≤ n ↔ ∀ p ∈ g, p.2.st ≠ .error → min 7 (p.2.bpri + p.2.age / 8) ≤ n) ∧
  (∀ (g : Gang) n, gangAge g ≤ n ↔ ∀ p ∈ g, p.2.st ≠ .error → p.2.age ≤ n) ∧
  (∀ a b, gangBefore a b = true ↔ gangPrio b < gangPrio a ∨ (gangPrio a = gangPrio b ∧
    (gangAge b < gangAge a ∨ (gangAge a = gangAge b ∧ gangAddr a < gangAddr b)))) ∧
  (∀ l, (sortGangs gangBefore l).Perm l ∧ (sortGangs gangBefore l).Pairwise (fun a b => gangBefore b a = false) ∧
    (sortGangs (fun a b => gangBefore b a) l).Perm l ∧ (sortGangs (fun a b => gangBefore b a) l).Pairwise fun a b => gangBefore a b = false) ∧
  (∀ size prio free l, let sum := fun (r : List Gang) => free + (r.map s.slotsOf).sum
    (∀ r, coverWith s size prio free l = some r → (∃ m, l = r ++ m) ∧ size ≤ sum r ∧ (∀ g ∈ r, gangPrio g < prio) ∧
      ∀ i < r.length, sum (r.take i) < size) ∧
    (coverWith s size prio free l = none → ∀ i ≤ l.length, (∀ g ∈ l.take i, gangPrio g < prio) → sum (l.take i) < size)) ∧
  ∀ n z k x, s.qs.slots.get? n = some z → z.q = some k → s.qs.queues.get? k = some x → x.step ≠ 0 →
    let due := (∃ p ∈ s.blocks, p.2.spec = none ∧ s.launchQueue p.2.launch = some k) ∨ (∃ m ∈ s.fab.retry, m.blk = none ∧ m.grp = k ∧ m.m.vc = 4) ∨ (∃ p ∈ s.qs.pendW, p.2.q = k ∧ s.writeDue p.1 p.2 = true) ∨
      ∃ p ∈ s.qs.launches, p.2.q = k ∧ p.2.spec = none ∧ p.2.ended = p.2.total ∧ p.2.handed = p.2.total
    let waits := x.pend = true ∨ z.pending = true ∨ x.waiting = true ∨ (s.head? x).isSome = true ∨ (∃ pos w d j, x.fetch = .launch pos w d j) ∨
      ∃ p ∈ s.saved, s.launchQueue p.2.blk.launch = some k
    (due → exec (.unmapFlushProbeReturn n) s = .next s) ∧
    (¬ due → s.tearingDown x.asid = false → ∃ t y, exec (.unmapFlushProbeReturn n) s = .next t ∧ t.qs.slots.get? n = none ∧
      t.qs.queues.get? k = some y ∧ t.qs.wantDecision = true ∧
      y.step = 0 ∧ y.slot = 0 ∧ y.pend = (x.pend || z.pending) ∧ (x.st = .error → y.st = .error) ∧
      (x.st ≠ .error → (waits → y.st = .ready) ∧ (¬ waits → y.st = .idle)) ∧
      (∀ i < 10, t.ms.mem.word (x.pa + 48 + 8 * i) = Config.fstateWord s.free i) ∧ OutsideQcb s t x ∧
      (z.succ ≠ [] → t.qs.keptSucc.get? k = some z.succ)) ∧
    (¬ due → s.tearingDown x.asid = true → ∃ t, exec (.unmapFlushProbeReturn n) s = .next t ∧ t.qs.queues.get? k = none)

/-- 16 R342, R343, R346 to R348: a speculation begins for a mapped queue whose ring is empty, whose fetcher holds nothing and which has no launch, with a prediction of confidence 3 for every
field but the arguments, a launch that passes its checks, an idle core and one of eight numbers free: its cocoon is empty and memory and blocks stay. It ends when it is spoiled, when its cocoon is
full, or 64 periods after it completed, and its cause is counted. R350, R351: a launch of its slot that equals every predicted field claims it: it becomes the launch, its blocks have the packet's address, the bytes that it wrote go to memory,
CONS goes up, and the slots it took are charged, up to CEIL. A launch that differs, or one that finds it over, discards it and starts as real work. -/
def Obligations.Speculations : Prop := ∀ (s : State),
  (∀ n z k x e r, s.qs.slots.get? n = some z → z.q = some k → z.entry = some e → s.qs.queues.get? k = some x →
    x.st = .mapped → x.step = 0 → x.fetch = .none → x.waiting = false → s.slotEmpty x = true →
    (∀ p ∈ s.qs.launches, p.2.q ≠ k) → (∀ p ∈ s.qs.specs, p.2.slot ≠ n) → s.qs.specs.length < 8 → mayPredict e (z.predict e) = true →
    (∃ cl co, cl < 96 ∧ co < 8 ∧ (s.coreLoad cl co fun _ => true).blocks = 0) →
    let v := (z.predict e).map fun o => o.getD 0
    s.checkLaunch k x (v.take 16) (some (v.drop 16)) false = .ok r → hdrCoop (recW v 0) = false →
    e.conf = 3 ∧ (∀ i < 24, i < 8 ∨ 16 ≤ i → ((z.predict e).getD i none).isSome = true) ∧
    ∃ t i l y sp, exec (.specBegin n) s = .next t ∧ i < 8 ∧ s.qs.specs.get? i = none ∧ s.qs.launches.get? l = none ∧
      t.qs.specs = s.qs.specs.put i sp ∧ sp.slot = n ∧ sp.launch = l ∧ sp.fields = z.predict e ∧
      t.qs.launches = s.qs.launches.put l y ∧ y.spec = some i ∧ y.q = k ∧ y.w = v.take 16 ∧ y.desc = v.drop 16 ∧ y.handed = 0 ∧
      t.ms.cocoons.get? i = some ⟨[], [], [], false, []⟩ ∧ t.ms.mem = s.ms.mem ∧ t.blocks = s.blocks) ∧
  (∀ n z k x pos w d i (sp : Spec), s.qs.slots.get? n = some z → z.q = some k → s.qs.queues.get? k = some x → x.fetch = .launch pos w d false →
    x.st = .mapped → x.step = 0 → hdrType (recW w 0) = 1 → s.barred k w = false → resChild (recW w 5) = 0 → s.specOf n = some (i, sp) →
    sp.fields.length = 24 →
    let c := s.ms.cocoon i
    let same := ∀ (f : Nat) (v : W64), sp.fields[f]? = some (some v) → (histOf w d)[f]? = some v
    let ended := c.spoiled = true ∨ s.ms.cocoonFull i = true ∨ ∃ m, sp.completedAt = some m ∧ m + 64 * 65536 ≤ s.clk 0
    let gone := fun (t : State) => exec (.launchAdmit n) s = .next t ∧ t.qs.specs.get? i = none ∧ t.ms.cocoons.get? i = none
    (¬ same ∨ ended → ∃ t l y, gone t ∧ t.qs.launches.get? l = some y ∧ y.q = k ∧ y.pos = pos ∧ y.w = w ∧ y.desc = d ∧ y.handed = 0 ∧ y.spec = none ∧
      Advances s t x ∧ OutsideQcb s t x) ∧
    ∀ y, same → ¬ ended → s.qs.launches.get? sp.launch = some y → KMap.sorted c.lines = true → KMap.sorted sp.charge = true →
      let apart := fun (line : Nat) => ∀ p ∈ s.ms.cc, p.1 % 2 ^ 46 / 4 ≠ line
      ∃ t, gone t ∧ t.qs.launches.get? sp.launch = some { y with q := k, pos := pos, w := w, desc := d, spec := none } ∧
        (∀ j b, s.blocks.get? j = some b → b.spec = some i → t.blocks.get? j = some { b with spec := none, qpkt := ringSlot x pos }) ∧
        (∀ a, a < x.pa ∨ x.pa + 256 ≤ a → apart (a / 256) → t.ms.mem.byte a = match c.lines.get? (a / 256) with
          | some (v, m) => if m.getLsbD (a % 256) then v.extractLsb' (8 * (a % 256)) 8 else s.ms.mem.byte a
          | none => s.ms.mem.byte a) ∧
        (x.pa % 256 = 0 → c.lines.get? (x.pa / 256) = none → apart (x.pa / 256) → Advances s t x) ∧
        ∀ cl u, sp.charge.get? cl = some u → let b := s.budget cl x.asid
          (t.budget cl x.asid).used = max b.used (min b.ceil (b.used + u))) ∧
  ∀ n sp, s.qs.specs.get? n = some sp →
    let ends := fun (cause : SpecEnd) => ∃ t, exec (.specTimeout n) s = .next t ∧ t = s.discardSpec n cause ∧ t.qs.specs.get? n = none ∧
      t.qs.tele.get? sp.slot = some (let v := s.qs.tele.getD sp.slot ⟨0, 0, []⟩; { v with discarded := cause :: v.discarded })
    ((s.ms.cocoon n).spoiled = true → ends .spoiled) ∧
    ((s.ms.cocoon n).spoiled = false → s.ms.cocoonFull n = true → ends .full) ∧
    (∀ c, (s.ms.cocoon n).spoiled = false → s.ms.cocoonFull n = false → sp.completedAt = some c → c + 64 * 65536 ≤ s.clk 0 → ends .timeout) ∧
    ((∀ c, sp.completedAt = some c → s.clk 0 < c + 64 * 65536) → (s.ms.cocoon n).spoiled = false → s.ms.cocoonFull n = false →
      exec (.specTimeout n) s = .next s)

/-- 15 R322, R325, R327, R432: kicks, rejection, and the reset of a queue. A kick wakes a mapped fetcher, is kept for a queue that is being unmapped, makes an idle queue READY and asks for a decision, is
noted by a READY queue, and does nothing to others; a header in the next slot wakes the fetcher without one, and so does any write to the sector of the signal of a parked WAITSIG. A packet that fails a check puts its queue in ERROR
with the code and the position, unless it holds a code, and the host hears of it. The reset of a queue in ERROR drops the packets it has not read, once no launch of it is
in flight and no block of it is resident or saved. -/
def Obligations.QueueStates : Prop := ∀ (s : State) (k : Nat) (x : Queue), s.qs.queues.get? k = some x →
  (∃ t, exec (.kick k) s = .next t ∧ x.pa ∉ t.ms.kicked ∧ OutsideQcb s t x ∧
    (x.st = .mapped → ∃ z, t.qs.slots.get? x.slot = some z ∧ z = { s.qs.slots.getD x.slot SlotState.free with woken := true }) ∧
    (x.st = .unmapping → ∃ z, t.qs.slots.get? x.slot = some z ∧ z = { s.qs.slots.getD x.slot SlotState.free with pending := true }) ∧
    (x.st = .idle → t.qs.queues.get? k = some { x with pend := true, st := .ready } ∧ t.qs.wantDecision = true) ∧
    (x.st = .ready → t.qs.queues.get? k = some { x with pend := true }) ∧ ((x.st = .error ∨ x.st = .dead) → t.qs = s.qs)) ∧
  (∀ n z, s.qs.slots.get? n = some z → z.q = some k → x.st = .mapped → x.slot = n →
    (s.head? x).isSome = true ∨ k ∈ s.ms.sigHit →
    ∃ t, exec (.fetcherMonitorMatch n) s = .next t ∧ t.qs.slots.get? n = some { z with woken := true } ∧ k ∉ t.ms.sigHit ∧
      { t.ms with sigHit := s.ms.sigHit } = s.ms) ∧
  (∀ n pos w e, s.fetching n = some (k, x) → s.readHead x = .packet pos w → recW w 6 = 0 →
    (hdrType (recW w 0) = 1 ∧ s.checkLaunch k x w none false = .error (.reject e)) ∨
      ((hdrType (recW w 0) = 0 ∨ 7 ≤ hdrType (recW w 0)) ∧ e = 1) →
    ∃ t y, exec (.fetchLaunch n) s = .next t ∧ t.qs.queues.get? k = some y ∧ y.st = .error ∧ y.fetch = .none ∧
      (y.err, y.errpos) = (if x.err = 0 then (e, pos) else (x.err, x.errpos)) ∧
      t.qs.hostEvents = s.qs.hostEvents ++ [.rejected k e pos] ∧ OutsideQcb s t x ∧ t.qs.launches = s.qs.launches) ∧
  let busy := s.inFlight k = true ∨ (∃ p ∈ s.blocks, p.2.spec = none ∧ s.launchQueue p.2.launch = some k) ∨
    ∃ p ∈ s.saved, s.launchQueue p.2.blk.launch = some k
  (x.st = .error → busy → ∃ t, exec (.queueReset k) s = .next t ∧ t.qs.queues.get? k = some { x with resetDue := true } ∧ OutsideQcb s t x) ∧
  (x.st ≠ .error → exec (.queueReset k) s = .next s) ∧
  (x.st = .error → ¬ busy →
    ∃ t y, exec (.queueReset k) s = .next t ∧ t.qs.queues.get? k = some y ∧ y.err = 0 ∧ y.errpos = 0 ∧ y.fetch = .none ∧ y.waiting = false ∧
      y.resetDue = false ∧ y.pend = false ∧ y.age = 0 ∧ (y.st = if (s.slotOf k).isSome then .mapped else .idle) ∧ OutsideQcb s t x ∧
      qCons (t.q2 x) = qResv (s.q2 x) ∧ qResv (t.q2 x) = qResv (s.q2 x) ∧ qHeld (t.q2 x) = qHeld (s.q2 x))

/-- 15 R319, R322, R326, R333, R336, R430, R431, 16 R339, 19 R386: what each type of packet does once its checks have passed. A LAUNCH waits for admission, and for the slots that it reserves in the queue of its children, and then becomes a launch with
the blocks of its extents, after its acquire,
and the predictor trains with it (a speculation that it claims, in Speculations). A WAITSIG stops the fetcher until its condition holds at the home. A SIGNAL and a NOP are accepted first, and written once the launches before them have completed, while the fetcher goes on
(log 61), at FAB or wider once no write of this chip to another is outstanding; a CONTREG, on every slice. -/
def Obligations.Packets : Prop := ∀ (s : State) (n k : Nat) (x : Queue),
  (∀ pos w, s.Next n k x pos w →
    (∀ d, hdrType (recW w 0) = 1 → s.checkLaunch k x w none false = .ok d → ∃ t, exec (.fetchLaunch n) s = .next t ∧
      t.qs.queues.get? k = some { x with fetch := .launch pos w d false } ∧ OutsideQcb s t x ∧ t.q2 x = s.q2 x) ∧
    (∀ cc, hdrType (recW w 0) = 3 → s.checkWaitsig x w = .ok cc → ∃ t y, exec (.fetchWaitsig n) s = .next t ∧ t.qs.queues.get? k = some y ∧
      y.fetch = .waitsig pos (recW w 1) (recW w 2) cc (hdrAcq (recW w 0)) none ∧ Advances s t x ∧ OutsideQcb s t x) ∧
    (hdrType (recW w 0) = 4 → s.checkSignal x w = .ok () → s.pendDue n .signal = none → ∃ t i p, exec (.fetchSignal n) s = .next t ∧
      s.qs.pendW.get? i = none ∧ t.qs.pendW.get? i = some p ∧ p.kind = .signal ∧ p.q = k ∧ p.pos = pos ∧ p.va = recW w 1 ∧
      p.op = (recW w 3).toNat ∧ p.v = recW w 2 ∧ p.rel = some (hdrRel (recW w 0)) ∧ Advances s t x ∧ OutsideQcb s t x ∧
      ∀ l, l ∈ p.afterL ↔ ∃ y, (l, y) ∈ s.qs.launches ∧ y.q = k ∧ y.spec = none) ∧
    (hdrType (recW w 0) = 5 → s.checkNop x w = .ok () → s.pendDue n .nop = none → ∃ t, exec (.fetchNopPacket n) s = .next t ∧
      Advances s t x ∧ OutsideQcb s t x ∧ (recW w 6 = 0 → t.qs.pendW = s.qs.pendW) ∧
      (recW w 6 ≠ 0 → ∃ i p, s.qs.pendW.get? i = none ∧ t.qs.pendW.get? i = some p ∧ p.kind = .nop ∧ p.q = k ∧ p.va = recW w 6 ∧
        p.op = 2 ∧ p.v = 1 ∧ p.rel = none ∧ ∀ l, l ∈ p.afterL ↔ ∃ y, (l, y) ∈ s.qs.launches ∧ y.q = k ∧ y.spec = none)) ∧
    (∀ e, hdrType (recW w 0) = 6 → s.checkContreg x w = .ok e → ∃ t i p, exec (.fetchContreg n) s = .next t ∧
      s.qs.pendW.get? i = none ∧ t.qs.pendW.get? i = some p ∧ p.kind = .contreg ((recW w 8).toNat % 256) e s.free ∧ p.q = k ∧ p.pos = pos ∧
      p.va = recW w 6 ∧ p.op = 2 ∧ p.v = 1 ∧ p.afterL = [] ∧ p.afterP = [] ∧ Advances s t x ∧ OutsideQcb s t x)) ∧
  (∀ pos w d z, s.qs.slots.get? n = some z → z.q = some k → s.qs.queues.get? k = some x → x.fetch = .launch pos w d false →
    x.st = .mapped → x.step = 0 → hdrType (recW w 0) = 1 →
    (s.barred k w = true → exec (.launchAdmit n) s = .next s) ∧
    (s.barred k w = false → resChild (recW w 5) = 0 → (∀ p ∈ s.qs.specs, p.2.slot ≠ n) → ∃ t l y u v, exec (.launchAdmit n) s = .next t ∧
      s.qs.launches.get? l = none ∧ t.qs.launches = s.qs.launches.put l y ∧ y.q = k ∧ y.asid = x.asid ∧ y.pos = pos ∧ y.w = w ∧ y.desc = d ∧
      y.total = wfBlocks w ∧ y.handed = 0 ∧ y.ended = 0 ∧ y.coop = hdrCoop (recW w 0) ∧ y.spec = none ∧
      t.qs.queues.get? k = some u ∧ u.fetch = .none ∧ Advances s t x ∧ OutsideQcb s t x ∧ t.qs.slots.get? n = some v ∧
      v.key1 = recW w 1 ∧ v.key2 = z.key1 ∧ v.hist = (histOf w d :: z.hist).take 32) ∧
    (s.barred k w = false → resChild (recW w 5) ≠ 0 → s.queueOf x.asid (recW w 7) = none → exec (.launchAdmit n) s = .next s) ∧
    ∀ j y, s.barred k w = false → resChild (recW w 5) ≠ 0 → s.queueOf x.asid (recW w 7) = some (j, y) → y.log2n ≤ 20 →
      y.pa + 256 ≤ x.pa ∨ x.pa + 256 ≤ y.pa → (∀ p ∈ s.qs.specs, p.2.slot ≠ n) →
      let c := resChild (recW w 5)
      let v := s.q2 y
      (2 ^ y.log2n < qUsed v + qHeld v + c → exec (.launchAdmit n) s = .next s) ∧
      (qUsed v + qHeld v + c ≤ 2 ^ y.log2n → ∃ t l z, exec (.launchAdmit n) s = .next t ∧ s.qs.launches.get? l = none ∧ t.qs.launches.get? l = some z ∧
        z.q = k ∧ z.w = w ∧ z.desc = d ∧ z.children = c ∧ qHeld (t.q2 y) = qHeld v + c ∧ qCons (t.q2 y) = qCons v ∧ qResv (t.q2 y) = qResv v ∧
        Advances s t x)) ∧
  (∀ pos va b cc acq leaf pa z, s.qs.slots.get? n = some z → z.q = some k → s.qs.queues.get? k = some x →
    x.fetch = .waitsig pos va b cc acq none → x.st = .mapped → x.step = 0 → s.fe x.asid va false = .ok (leaf, pa) →
    (pteRem leaf = true → pteChip leaf = s.fab.chip) →
    (wcondAt cc true (s.ms.mem.word pa) b = false → exec (.waitsigSatisfied n) s = .next s) ∧
    (wcondAt cc true (s.ms.mem.word pa) b = true → ∃ t, exec (.waitsigSatisfied n) s = .next t ∧
      t.qs.queues.get? k = some { x with fetch := .none } ∧ t.qs.slots.get? n = some { z with woken := true } ∧ OutsideQcb s t x)) ∧
  (∀ i p leaf pa, s.qs.pendW.get? i = some p → s.qs.queues.get? p.q = some x → (∀ f ∈ s.faultQ, f.who ≠ .signal i) →
    (p.rel = some .fab ∨ p.rel = some .sys → ∀ m ∈ s.fab.retry, m.writes = false) →
    s.fe x.asid p.va true = .ok (leaf, pa) → (pteRem leaf = true → pteChip leaf = s.fab.chip) →
    let s1 := match p.rel with
      | some a => s.releaseAll a
      | none => s
    let old := s1.ms.mem.word pa
    let writes := fun (t : State) => t.qs.pendW.get? i = none ∧
      t.ms.mem.word pa = (if p.op = 0 then p.v else if p.op = 1 then old + p.v else old - p.v) ∧
      ∀ a, a < pa ∨ pa + 8 ≤ a → t.ms.mem.byte a = s1.ms.mem.byte a
    (s.pendDue n .signal = some i → ∃ t, exec (.fetchSignal n) s = .next t ∧ writes t) ∧
    (s.pendDue n .nop = some i → ∃ t, exec (.fetchNopPacket n) s = .next t ∧ writes t)) ∧
  ∀ i p idx e act c, s.qs.queues.get? k = some x → s.ctxs.get? x.asid = some c → c.tearing = false → p.kind = .contreg idx e act → p.q = k → p.va = 0 → s.qs.pendW = [(i, p)] →
    (∀ f ∈ s.faultQ, f.who ≠ .signal i) → ∃ t c', exec (.contregComplete k p.pos) s = .next t ∧ t.qs.pendW = [] ∧ t.ctxs.get? x.asid = some c' ∧
      (∀ slice < 8, c'.conts.get? (256 * slice + idx) = e) ∧ { c' with conts := c.conts } = c ∧ t.ms = s.ms

/-! ### The fabric -/

/-- 19 R391 to R395: messages from other chips. The next message of an ordered stream is performed and acknowledged, with the next number of its response stream, and NEXT goes up; one that comes early is held; one that has
been performed has its answer sent again. A range that the import table does not give, or that lies beyond the installed memory (17 R358, log 123), is refused. An answer is taken in the order of its stream; it takes its message out of
the retry buffer and brings its value to the lane that waits for it; a refusal delivers FABRIC_UNREACHABLE, whose record has PC 0 (log 93). Which channel answers those of channels 2, 3, 6 and 7 is the model's choice
(log 101). Each arrival is a flit at some port (21 R418, log 8). -/
def Obligations.FabricMessages : Prop := ∀ (s : State) (m : Msg),
  (m.dst = s.fab.chip → m.src ≠ s.fab.chip → s.fab.chips.contains m.src = true → vcOf m.op = m.vc →
    let key := 8 * m.src + m.vc
    let x := s.inStream key
    let ans := fun (r : RemoteReply) => (⟨m.src, m.vc, m.seq, s.fab.outSeq.getD (8 * m.src + answerVc m.vc) 0, r, s.fab.tag⟩ : Answer)
    let tells := fun (t : State) (r : RemoteReply) => t.fab.answers = s.fab.answers ++ [ans r] ∧
      t.fab.outSeq.getD (8 * m.src + answerVc m.vc) 0 = s.fab.outSeq.getD (8 * m.src + answerVc m.vc) 0 + 1 ∧ ans r ∈ (t.inStream key).results
    let seen := 2 ^ 31 ≤ (m.seq - x.next).toNat ∨ m.seq ∈ x.done
    (∀ a, seen → (x.results.find? fun r => r.seq == m.seq) = some a → exec (.remoteMessageArrive m) s =
      .next { s.flitCame with fab := { s.fab with answers := s.fab.answers ++ [a] } }) ∧
    (seen → (x.results.find? fun r => r.seq == m.seq) = none → exec (.remoteMessageArrive m) s = .next s.flitCame) ∧
    (m.seq ∉ x.done → 0 < (m.seq - x.next).toNat → (m.seq - x.next).toNat < 1024 → m.vc < 4 → (∀ h ∈ x.held, h.seq ≠ x.next ∧ h.seq ≠ m.seq) →
      ∃ t, exec (.remoteMessageArrive m) s = .next t ∧ (t.inStream key).held = x.held ++ [m] ∧ (t.inStream key).next = x.next ∧
        t.fab.answers = s.fab.answers ∧ { t with fab := s.fab } = s.flitCame) ∧
    (∀ pa l, m.op = .store pa l → m.burst = 0 → m.seq = x.next → m.seq ∉ x.done → x.held = [] →
      (∀ y ∈ sectorsOf pa l.length, y ∉ s.ms.owned) →
      (∀ a, s.importOf m.src m.asid pa l.length = some a → beyondHbm pa = false → ∃ t, exec (.remoteMessageArrive m) s = .next t ∧ tells t .ack ∧
        (t.inStream key).next = x.next + 1 ∧ (t.inStream key).held = [] ∧
        ∀ b, t.ms.mem.byte b = if pa ≤ b ∧ b < pa + l.length then l.getD (b - pa) 0 else s.ms.mem.byte b) ∧
      (s.importOf m.src m.asid pa l.length = none ∨ beyondHbm pa = true → ∃ t, exec (.remoteMessageArrive m) s = .next t ∧ tells t .refused ∧
        (t.inStream key).next = x.next + 1 ∧ t.ms = s.ms)) ∧
    (∀ fn pa b c a, m.op = .atom fn pa true b c → m.burst = 0 → m.seq = x.next → m.seq ∉ x.done → x.held = [] →
      (∀ y ∈ sectorsOf pa 8, y ∉ s.ms.owned) → s.importOf m.src m.asid pa 8 = some a → beyondHbm pa = false → s.ms.poisoned pa 8 = false →
      let old := s.ms.mem.word pa
      ∃ t, exec (.remoteMessageArrive m) s = .next t ∧ tells t (.old old 0) ∧ (t.inStream key).next = x.next + 1 ∧
        t.ms.mem.word pa = atomNew (AFn.ofNum fn) true old b c ∧ ∀ y, y < pa ∨ pa + 8 ≤ y → t.ms.mem.byte y = s.ms.mem.byte y) ∧
    ∀ pa n a, m.op = .load pa n → m.burst = 0 → m.seq = x.next → x.done = [] → (∀ y ∈ sectorsOf pa n, y ∉ s.ms.owned) →
      s.importOf m.src m.asid pa n = some a → beyondHbm pa = false → s.ms.poisoned pa n = false →
      ∃ t, exec (.remoteMessageArrive m) s = .next t ∧ tells t (.data (s.ms.mem.bytes pa n)) ∧ (t.inStream key).next = x.next + 1 ∧ t.ms = s.ms) ∧
  ∀ u id b g n tag, (s.fab.retry.find? fun y => y.m.dst == u.m.dst && y.m.vc == u.m.vc && y.m.seq == u.m.seq) = some u → u.blk = some id →
    s.blocks.get? id = some b → b.st.groups[u.grp]? = some g → g.retired = false → u.acq = none →
    u.m.dst ≠ s.fab.chip → s.fab.chips.contains u.m.dst = true → u.m.vc < 8 →
    let key := 8 * u.m.dst + answerVc u.m.vc
    s.ackStream key = ⟨n, [], []⟩ →
    let arrives := fun (r : RemoteReply) => exec (.remoteAckArrive u.m.dst u.m.vc ⟨u.m.seq, n, tag⟩ r) s
    let lane := fun (t : State) (k : Nat) => ((t.blocks.get? id).bind fun c => c.st.groups[u.grp]?).map fun h => h.lane k
    (∀ r d, 0 < (d - n).toNat → (d - n).toNat < 1024 → answerVc u.m.vc = 1 → ∃ t,
      exec (.remoteAckArrive u.m.dst u.m.vc ⟨u.m.seq, d, tag⟩ r) s = .next t ∧ t.ackStream key = ⟨n, [⟨s.fab.chip, u.m.vc, u.m.seq, d, r, tag⟩], []⟩ ∧
        t.fab.retry = s.fab.retry ∧ t.ms = s.ms) ∧
    (∀ r d, 1024 ≤ (d - n).toNat → exec (.remoteAckArrive u.m.dst u.m.vc ⟨u.m.seq, d, tag⟩ r) s = .next s.flitCame) ∧
    (∃ t, arrives .ack = .next t ∧ { t with blocks := s.blocks, fab := s.fab } = s.flitCame ∧ t.fab.retry = s.fab.retry.erase u ∧
      t.ackStream key = ⟨n + 1, [], []⟩ ∧ { t.fab with retry := s.fab.retry, acks := s.fab.acks } = s.fab) ∧
    (∀ pa n bytes k d c, u.m.op = .load pa n → u.rets = [⟨k, some d, c, none, none⟩] → k < g.lanes.length →
      ∃ t l, arrives (.data bytes) = .next t ∧ t.fab.retry = s.fab.retry.erase u ∧
        lane t k = some l ∧ (g.lane k).OnlyReg l d (BitVec.ofNat 64 (leNat (bytes.take 8))) c) ∧
    (∀ pa e n w ea v z k d c p, u.m.op = .casc pa e n w ea → u.rets = [⟨k, some d, c, some p, none⟩] → k < g.lanes.length →
      ∃ t l, arrives (.old v z) = .next t ∧ t.fab.retry = s.fab.retry.erase u ∧
        lane t k = some l ∧ l.reg d = v ∧ l.tnt d = c ∧ l.pr (pairOf p).1 = decide (z = 0) ∧ l.pr (pairOf p).2 = decide (2 ≤ z)) ∧
    (b.stopping = .none → ∃ t c f, arrives .refused = .next t ∧ t.blocks.get? id = some c ∧
      c.stopping = .terminate (some (u.grp, 0, f)) ∧ f.code = .fabricUnreachable ∧ f.lane = u.lane ∧ f.ea = u.ea)

/-- 19 R391, R396, 21 R419: draining, and the domain. A flush probe that returns ends its stream's probe and repair. A drain, for the host, for a teardown or for a chip that leaves, sends a probe down every ordered stream in use that is not
under repair, and turns the phase tag if a stream is; a chip's report joins the quiet ones, this chip's own once nothing of the old tag is under way, and is told to the others;
when all is drained the host hears of it, or the chip leaves the domain with its streams and its import ranges. In a phase that another chip drains, this chip moves to the other
tag at the first report it hears, and then reports in its turn (log 124). An import range needs a live context. -/
def Obligations.FabricDrain : Prop := ∀ (s : State),
  let probing := fun (t : State) => t.fab.quiet = [] ∧ (t.fab.tag = if s.fab.repair = [] then s.fab.tag else !s.fab.tag) ∧
    t.ms = s.ms ∧ t.blocks = s.blocks ∧
    ∀ p ∈ s.fab.outSeq, p.1 % 8 < 4 → s.fab.repair.get? p.1 = none → p.1 ∈ t.fab.probes ∧ ∃ n,
      (∃ m ∈ t.fab.outbox, m.dst = p.1 / 8 ∧ m.op = .probe (p.1 % 8) n) ∨ ∃ a, (p.1 / 8, a, .probe (p.1 % 8) n) ∈ t.fab.f4
  let quietNow := (∀ m ∈ s.fab.retry, m.m.tag = s.fab.tag) ∧ (∀ p ∈ s.fab.ins, ∀ m ∈ p.2.held, m.tag = s.fab.tag) ∧
    ∀ p ∈ s.fab.acks, ∀ a ∈ p.2.held, a.tag = s.fab.tag
  let drained := s.fab.probes = [] ∧ (s.fab.repair = [] ∨ ∀ c ∈ s.fab.chips, s.fab.quiet.contains c = true)
  (∀ dst vc, s.fab.probes.contains (8 * dst + vc) = true →
    let out := (∃ m ∈ s.fab.retry, m.m.dst = dst ∧ ∃ n, m.m.op = .probe vc n) ∨ ∃ a n, (dst, a, .probe vc n) ∈ s.fab.f4
    (out → exec (.flushProbeReturn dst vc) s = .next s) ∧
    (¬ out → exec (.flushProbeReturn dst vc) s = .next { s with fab := { s.fab with
      probes := s.fab.probes.erase (8 * dst + vc), repair := s.fab.repair.del (8 * dst + vc) } })) ∧
  (∀ chip, s.fab.drains ≠ [] → s.fab.chips.contains chip = true → chip ∉ s.fab.quiet →
    (chip = s.fab.chip → quietNow) → exec (.fabricPhaseQuiet chip) s = .next { s with fab := { s.fab with
      quiet := chip :: s.fab.quiet, reports := if chip = s.fab.chip then s.fab.reports ++ [!s.fab.tag] else s.fab.reports } }) ∧
  (s.fab.drains ≠ [] → s.fab.chips.contains s.fab.chip = true → (∃ m ∈ s.fab.retry, m.m.tag ≠ s.fab.tag) →
    exec (.fabricPhaseQuiet s.fab.chip) s = .next s) ∧
  (s.fab.drains = [] → s.fab.chips.contains s.fab.chip = true →
    (∀ chip, s.fab.chips.contains chip = true → chip ≠ s.fab.chip → exec (.fabricPhaseQuiet chip) s = .next
      { s with fab := { s.fab with tag := if s.fab.joined = true then s.fab.tag else !s.fab.tag, joined := true } }) ∧
    (s.fab.joined = true → quietNow → exec (.fabricPhaseQuiet s.fab.chip) s = .next
      { s with fab := { s.fab with joined := false, reports := s.fab.reports ++ [!s.fab.tag] } }) ∧
    (s.fab.joined = false ∨ (∃ m ∈ s.fab.retry, m.m.tag ≠ s.fab.tag) → exec (.fabricPhaseQuiet s.fab.chip) s = .next s)) ∧
  (s.fab.drains = [] → ∃ t, exec .fabricQuiesce s = .next t ∧ t.fab.drains = [.quiesce] ∧ probing t) ∧
  (s.fab.drains = [.quiesce] → drained →
    ∃ t, exec .fabricQuiesce s = .next t ∧ t.fab = { s.fab with drains := [], quiet := [] } ∧
      t.qs = { s.qs with hostEvents := s.qs.hostEvents ++ [.quiesced] }) ∧
  (s.fab.drains = [.quiesce] → ¬ drained → exec .fabricQuiesce s = .next s) ∧
  (∀ chip, chip ≠ s.fab.chip → s.fab.chips.contains chip = true →
    (s.fab.drains = [] → ∃ t, exec (.chipLeavesDomain chip) s = .next t ∧ t.fab.drains = [.leave chip] ∧ t.fab.chips = s.fab.chips ∧ probing t) ∧
    (s.fab.drains = [.leave chip] → drained → s.chipQuiet chip = true →
      { s.stepDrain with fab := s.fab } = s ∧ s.stepDrain.fab.drains = [] ∧
      (∀ c, c ∈ s.stepDrain.fab.chips ↔ c ∈ s.fab.chips ∧ c ≠ chip) ∧
      (∀ e, e ∈ s.stepDrain.fab.imports ↔ e ∈ s.fab.imports ∧ e.chip ≠ chip) ∧ ∀ p ∈ s.stepDrain.fab.outSeq, p.1 / 8 ≠ chip)) ∧
  (∀ asid c, s.fab.drains = [.teardown asid] → drained → s.ctxs.get? asid = some c →
    s.stepDrain.ctxs.get? asid = some { c with drained := true } ∧ s.stepDrain.fab.drains = []) ∧
  ∀ chip asid base size l, (s.liveCtx l = none → exec (.importTableEntry chip asid base size l) s = .next (s.post .cmdError)) ∧
    ((s.liveCtx l).isSome = true → ∃ t, exec (.importTableEntry chip asid base size l) s = .next t ∧
      t.fab = { s.fab with imports := s.fab.imports ++ [⟨chip, asid, base, size, l⟩] } ∧ t.qs = (s.post .cmdDone).qs)

/-- 19 R397 to R400: joint launches. A LAUNCHX of this chip goes as a replica to every chip of its mask, under the next generation of its queue, which the message carries as a seventeenth word (log 57), now or once the stream has room. A replica that is admitted waits and its chip joins,
once no release that its header asks for waits.
When the last chip of the mask has joined, START goes to all the others; on START the replica becomes a launch. If they have not all joined in time the coordinator gives up,
and on ABORT the replica is rejected with JOINFAIL, though it has not joined yet or waits behind another. -/
def Obligations.JointLaunch : Prop := ∀ (s : State) (dq gen : Nat),
  let goes := fun (t : State) (c : Nat) (op : RemoteOp) => (∃ m ∈ t.fab.outbox, m.dst = c ∧ m.op = op) ∨ ∃ a, (c, a, op) ∈ t.fab.f4
  (∀ n k x pos w d, s.Next n k x pos w → hdrType (recW w 0) = 2 → x.replicaAt pos = none → x.dq = some dq →
    s.checkLaunch k x w none false = .ok d → (∀ c ∈ maskChips (recW w 7), c ≠ s.fab.chip → s.streamRoom c 2 1 136 = true) →
    0 < qUsed (s.q2 x) → qUsed (s.q2 x) + qHeld (s.q2 x) ≤ x.size →
    ((maskChips (recW w 7)).contains s.fab.chip = true → (s.advanceCons k).slotBeyond x = false) →
    ∃ t u j, exec (.fetchLaunchx n) s = .next t ∧ t.fab.joins = s.fab.joins ++ [j] ∧ j.dq = dq ∧ j.gen = x.gen ∧ j.mask = recW w 7 ∧
      j.joined = [] ∧ j.started = false ∧ j.aborted = false ∧ j.since = s.clk 0 ∧ j.limit = 2 ^ 20 * resWdog (recW w 5) ∧
      t.qs.queues.get? k = some u ∧ u.gen = x.gen + 1 ∧
      ((maskChips (recW w 7)).contains s.fab.chip = true → ∃ p, ⟨p, s.fab.chip, x.gen, false⟩ ∈ u.replicas) ∧
      ∀ c ∈ maskChips (recW w 7), c ≠ s.fab.chip → goes t c (.replica dq (replicaOf w c ++ [BitVec.ofNat 64 x.gen]))) ∧
  (∀ n z k x pos w d p src, s.qs.slots.get? n = some z → z.q = some k → s.qs.queues.get? k = some x → x.fetch = .launch pos w d false →
    x.st = .mapped → x.step = 0 → s.barred k w = false → hdrType (recW w 0) = 2 → x.dq = some dq →
    let waits := (hdrAcq (recW w 0) = .fab ∨ hdrAcq (recW w 0) = .sys) ∧ ∃ m ∈ s.fab.retry, m.writes = true
    (x.replicaAt pos = some ⟨p, src, gen, false⟩ → waits → exec (.launchAdmit n) s = .next s) ∧
    (x.replicaAt pos = some ⟨p, src, gen, false⟩ → ¬ waits →
      ∃ t, exec (.launchAdmit n) s = .next t ∧ t.qs.queues.get? k = some { x with fetch := .launch pos w d true } ∧
        t.qs.launches = s.qs.launches ∧ (src ≠ s.fab.chip → goes t src (.join dq gen))) ∧
    (x.replicaAt pos = some ⟨p, src, gen, true⟩ → ∃ t u, exec (.launchAdmit n) s = .next t ∧ t.qs.queues.get? k = some u ∧
      u.st = .error ∧ u.fetch = .none ∧ u.replicaAt pos = none ∧ (x.err = 0 → u.err = 11))) ∧
  (∀ j chip, s.joinOf dq gen = some j → j.started = false → j.aborted = false → chip ∉ j.joined →
    (maskChips j.mask).contains chip = true → chip ≠ s.fab.chip →
    let all := j.joined.length + 1 = (maskChips j.mask).length
    ∃ t y, exec (.joinMessage dq gen chip) s = .next t ∧ t.joinOf dq gen = some y ∧ y.joined = chip :: j.joined ∧
      (y.started = true ↔ all) ∧
      (all → ∀ c ∈ maskChips j.mask, c ≠ s.fab.chip → goes t c (.start dq gen)) ∧ { t with fab := s.fab } = s) ∧
  (∀ j, s.joinOf dq gen = some j → j.started = false → j.aborted = false → j.since + j.limit ≤ s.clk 0 →
    ∃ t y, exec (.joinTimeout dq gen) s = .next t ∧ t.joinOf dq gen = some y ∧ y = { j with aborted := true } ∧
      (∀ c ∈ maskChips j.mask, c ≠ s.fab.chip → goes t c (.abort dq gen s.fab.chip)) ∧ { t with fab := s.fab } = s) ∧
  (∀ k x pos src, s.fabricQueue dq = some (k, x) → s.qs.queues.get? k = some x → (∀ r w d, x.joinedReplica = some (r, w, d) → r.gen ≠ gen) →
    s.joinOf dq gen = none → ⟨pos, src, gen, false⟩ ∈ x.replicas → ∃ t u, exec (.abortMessage dq gen) s = .next t ∧ t.qs.queues.get? k = some u ∧
      ⟨pos, src, gen, true⟩ ∈ u.replicas ∧ u.st = x.st ∧ u.fetch = x.fetch) ∧
  ∀ k x pos w d p src b, s.fabricQueue dq = some (k, x) → s.qs.queues.get? k = some x → x.fetch = .launch pos w d true →
    x.replicaAt pos = some ⟨p, src, gen, b⟩ → pos = qCons (s.q2 x) →
    ((∀ j, s.joinOf dq gen = some j → j.started = true ∧ src = s.fab.chip) → ∃ t l y u, exec (.startMessage dq gen) s = .next t ∧
      s.qs.launches.get? l = none ∧ t.qs.launches = s.qs.launches.put l y ∧ y.q = k ∧ y.pos = pos ∧ y.w = w ∧ y.desc = d ∧
      y.total = wfBlocks w ∧ y.handed = 0 ∧ t.qs.queues.get? k = some u ∧ u.fetch = .none ∧ u.replicaAt pos = none ∧ Advances s t x) ∧
    ((∀ j, s.joinOf dq gen = some j → j.aborted = true ∧ src = s.fab.chip) → recW w 6 = 0 → ∃ t u, exec (.abortMessage dq gen) s = .next t ∧
      t.qs.queues.get? k = some u ∧ u.st = .error ∧ u.fetch = .none ∧ u.replicaAt pos = none ∧
      (u.err, u.errpos) = (if x.err = 0 then (11, pos) else (x.err, x.errpos)) ∧ t.qs.launches = s.qs.launches)

/-- 19 R401, R402, 21 R418, R419: ports and the watchdog. A port counts the failed retries of a flit, goes on with four lanes if it retrains, and fails after 32 failed retries or 4,096 cycles in silence: its streams that have another
route are under repair and their messages go out again; which streams a port carries and which chips have no other route are values that the firmware's tables set, free here (log 73). It returns after 2^20 good cycles. A launch whose watchdog has run out, or that one repair, still under way, has held for
2^26 cycles, is terminated as a whole, its queue is in ERROR with code 12, and the host hears of it; one record stands for it, for the oldest resident block (log 76), and it is one of the 64 that its ring holds unread (log 103). -/
def Obligations.PortsAndWatchdog : Prop := ∀ (s : State),
  (∀ p < 24,
    let x := s.port p
    let sets := fun (i : Instr) (y : Port) => ∃ t, exec i s = .next t ∧ t.port p = y ∧ { t with ports := s.ports } = s ∧
      ∀ r, r ≠ p → t.port r = s.port r
    let fails := fun (i : Instr) => ∃ t, exec i s = .next t ∧ (t.port p).up = false ∧
      (∀ m ∈ s.fab.retry, s.fab.outSeq.get? (8 * m.m.dst + m.m.vc) ≠ none → m.m.vc < 8 →
        Config.routed s.free p (8 * m.m.dst + m.m.vc) = true →
        (Config.noRoute s.free m.m.dst = true → m.m.dst ∈ t.fab.unreachable) ∧
        (Config.noRoute s.free m.m.dst = false → m.m ∈ t.fab.outbox ∧ (t.fab.repair.get? (8 * m.m.dst + m.m.vc)).isSome = true))
    sets (.flitCrcRetry p true) { x with retries := 0, lastFlit := s.clk 0 } ∧
    sets (.flitCrcRetry p false) { x with retries := x.retries + 1, goodSince := s.clk 0 } ∧
    sets (.portLaneLoss p true) { x with lanes := 4 } ∧ fails (.portLaneLoss p false) ∧
    (x.up = true → 32 ≤ x.retries → fails (.portFail p)) ∧
    (x.up = true → x.retries < 32 → exec (.portFail p) s = .next s) ∧
    (x.up = true → x.lastFlit + 4096 ≤ s.clk 0 → fails (.portReceiveTimeout p)) ∧
    (s.clk 0 < x.lastFlit + 4096 → exec (.portReceiveTimeout p) s = .next s) ∧
    (x.up = false → x.goodSince + 2 ^ 20 ≤ s.clk 0 → sets (.portReturn p) { x with up := true, retries := 0, lastFlit := s.clk 0 }) ∧
    (s.clk 0 < x.goodSince + 2 ^ 20 → exec (.portReturn p) s = .next s)) ∧
  ∀ l x y, s.qs.launches.get? l = some x → x.spec = none → x.terminated = false → s.qs.queues.get? x.q = some y →
    let ends := fun (i : Instr) (code : FaultCode) => ∃ t x' y', exec i s = .next t ∧ t.qs.launches.get? l = some x' ∧ x'.terminated = true ∧
      t.qs.queues.get? x.q = some y' ∧ y'.st = .error ∧ (y'.err, y'.errpos) = (if y.err = 0 then (12, x.pos) else (y.err, y.errpos)) ∧
      t.qs.hostEvents = s.qs.hostEvents ++ [.faulted x.q] ∧
      (∀ k b, s.blocks.get? k = some b → b.launch = l → ∃ b' z, t.blocks.get? k = some b' ∧ b'.stopping = .terminate z) ∧
      ∀ p c, (s.blocks.find? fun p => p.2.launch == l) = some p → s.ctxs.get? p.2.asid = some c → c.ring.length < 64 →
        ∃ c' r l, t.ctxs.get? p.2.asid = some c' ∧ c'.ring = l ++ [r] ∧ l <:+ c.ring ∧ c'.dropped = c.dropped ∧
          (r.getD 0 0).extractLsb' 56 8 = code.num
    (2 ^ 20 * resWdog (recW x.w 5) ≤ x.wdog → ends (.hang l) .hang) ∧
    (x.wdog < 2 ^ 20 * resWdog (recW x.w 5) → exec (.hang l) s = .next s) ∧
    let due := ∃ e ∈ x.excused, 2 ^ 26 ≤ e.2.2 ∧ s.fab.repair.get? e.1 = some e.2.1
    (due → ends (.remoteRecoveryTimeout l) .remoteRecoveryTimeout) ∧
    (¬ due → exec (.remoteRecoveryTimeout l) s = .next s)

/-! ### The host and the firmware -/

/-- 09 R259, R267, 15 R323, R332, 17 R354, R360, R376, R378, 19 R388, R397: commands of the host driver. Each is done and reported, or refused with an error status and without effect: a context needs a free ASID below 1,024 and a root page in HBM; a class, a quota and a queue
need a live context, and a fault ring lies in HBM (log 103); while a device reset is under way no context is made (log 119). A queue with work under way is not destroyed (log 17). A queue starts IDLE with an empty ring. An invalidate drops every translation and line that it names; once what was under way is performed, the pages that it freed are zero (log 106) and it is
reported. A teardown unmaps the context's queues; when they are gone it stops the blocks that are left, and then the pages of HBM that its tables map are zero (log 69) and the ASID is free. The SRAM split of a core without blocks changes after every copy of its cluster, which the model does not divide among the cores (log 70), has been written back and dropped. -/
def Obligations.HostCommands : Prop := ∀ (s : State),
  let done := fun (t : State) => t.qs.hostEvents = s.qs.hostEvents ++ [.cmdDone]
  let refused := fun (i : Instr) => exec i s = .next (s.post .cmdError)
  (∀ asid root debug fn ring,
    ((1024 ≤ asid ∨ root % 65536 ≠ 0 ∨ 2 ^ 39 ≤ root ∨ beyondHbm ring = true ∨ (s.ctxs.get? asid).isSome = true ∨
        s.fw.resetting = true) →
      refused (.createContext asid root debug ⟨fn, ring⟩)) ∧
    (asid < 1024 → root % 65536 = 0 → root < 2 ^ 39 → beyondHbm ring = false → s.ctxs.get? asid = none → s.fw.resetting = false → ∃ t c,
      exec (.createContext asid root debug ⟨fn, ring⟩) s = .next t ∧
      done t ∧ t.ctxs = s.ctxs.put asid c ∧ c.root = root ∧ c.debug = debug ∧ c.fn = fn ∧ c.ringAt = ring ∧ c.ring = [] ∧ c.dropped = 0 ∧ c.classes = [] ∧
      c.conts = [] ∧ c.tearing = false ∧ t.ms = s.ms ∧ t.blocks = s.blocks)) ∧
  (∀ n, s.liveCtx n.asid = none → refused (.createQcb n) ∧ ∀ dq, refused (.createFabricQueue dq n)) ∧
  (∀ n leaf pa, (s.liveCtx n.asid).isSome = true → s.translate n.asid n.handle = some (leaf, pa) → pteRem leaf = false → beyondHbm pa = false →
    n.handle.toNat % 256 = 0 → n.base.toNat % 4096 = 0 → 4 ≤ n.log2n → n.log2n ≤ 20 → n.bpri ≤ 7 → n.gang = 0 →
    s.queueOf n.asid n.handle = none → s.queueAt pa = none →
    let makes := fun (i : Instr) (dq : Option Nat) => ∃ t k x, exec i s = .next t ∧ done t ∧ s.qs.queues.get? k = none ∧
      t.qs.queues = s.qs.queues.put k x ∧ x.asid = n.asid ∧ x.handle = n.handle ∧ x.pa = pa ∧ x.base = n.base ∧ x.log2n = n.log2n ∧
      x.bpri = n.bpri ∧ x.classmask = n.classmask ∧ x.st = .idle ∧ x.pend = false ∧ x.err = 0 ∧ x.age = 0 ∧ x.fetch = .none ∧ x.dq = dq ∧
      qCons (t.q2 x) = 0 ∧ qResv (t.q2 x) = 0 ∧ qHeld (t.q2 x) = 0 ∧ OutsideQcb s t x
    makes (.createQcb n) none ∧ ∀ dq, s.fabricQueue dq = none → makes (.createFabricQueue dq n) (some dq)) ∧
  (∀ k, ((s.qs.queues.get? k = none ∨ s.unfinished k = true) → refused (.destroyQcb k)) ∧
    ∀ x, s.qs.queues.get? k = some x → s.unfinished k = false → ∃ t, exec (.destroyQcb k) s = .next t ∧ t.qs.queues.get? k = none ∧
      (∀ n z, t.qs.slots.get? n = some z → s.slotOf k ≠ some n) ∧ done t ∧ x.pa ∉ t.ms.qcbs ∧
      OutsideQcb s t x) ∧
  (∀ asid cls res ceil, ((s.liveCtx asid = none ∨ 16 ≤ cls ∨ 524288 < ceil ∨ ceil < res) → refused (.setBudgetClass asid cls res ceil)) ∧
    ∀ c, s.liveCtx asid = some c → cls < 16 → ceil ≤ 524288 → res ≤ ceil → ∃ t, exec (.setBudgetClass asid cls res ceil) s = .next t ∧ done t ∧
      t.ctxs = s.ctxs.put asid { c with classes := c.classes.put cls (res, ceil) } ∧ t.clusters = s.clusters) ∧
  (∀ asid n, ((s.liveCtx asid = none ∨ n < 1 ∨ 64 < n) → refused (.setQuota asid n)) ∧
    ∀ c, s.liveCtx asid = some c → 1 ≤ n → n ≤ 64 → ∃ t, exec (.setQuota asid n) s = .next t ∧ done t ∧
      t.ctxs = s.ctxs.put asid { c with quota := n }) ∧
  (∀ asid va size, asid < 1024 →
    ((s.invals.find? fun x => x.asid == asid && x.va == va && x.size == size) = none →
      (s.liveCtx asid = none → refused (.invalidate asid va size)) ∧
      ((s.liveCtx asid).isSome = true → ∃ t x, exec (.invalidate asid va size) s = .next t ∧ t.invals = s.invals ++ [x] ∧
        x.asid = asid ∧ x.va = va ∧ x.size = size ∧ t.ms.mem = s.ms.mem ∧
        (∀ id b gi (g : Group), s.blocks.get? id = some b → b.asid = asid → b.st.groups[gi]? = some g →
          ∀ y ∈ g.slot0.plans ++ g.slot1.plans, (id, gi, y.lane) ∈ x.plans) ∧
        (∀ id b, s.blocks.get? id = some b → ∃ b', t.blocks.get? id = some b' ∧ { b' with st := b.st } = b ∧
          { b'.st with groups := b.st.groups } = b.st ∧ b'.st.groups.length = b.st.groups.length ∧
          ∀ (gi : Nat) g h, b.st.groups[gi]? = some g → b'.st.groups[gi]? = some h → { h with slot0 := g.slot0, slot1 := g.slot1 } = g ∧
            ∀ z, { h.pcSlot z with pages := (g.pcSlot z).pages } = g.pcSlot z ∧
              (b.asid = asid → ∀ y ∈ (h.pcSlot z).pages, trMeets asid va size y.1 = false)) ∧
        (∀ cl co, ∀ y ∈ (t.core cl co).utlb, trMeets asid va size y.1 = false) ∧
        (∀ cl (a : W64), a.toNat < 2 ^ 57 → va / 262144 ≤ a.toNat / 262144 → a.toNat / 262144 * 262144 < va + size →
          t.ms.tlbGet cl asid a = none) ∧
        ∀ cl pc, t.ms.icache.get? (icKey cl asid pc) = none)) ∧
    ∀ x, (s.invals.find? fun x => x.asid == asid && x.va == va && x.size == size) = some x →
      ((∃ p ∈ x.plans, ∃ b g, s.blocks.get? p.1 = some b ∧ b.st.groups[p.2.1]? = some g ∧ ∃ y ∈ g.slot0.plans ++ g.slot1.plans, y.lane = p.2.2) →
        s.invalDone x = false) ∧
      (s.invalDone x = false → exec (.invalidate asid va size) s = .next s) ∧
      (s.invalDone x = true → ∃ t, exec (.invalidate asid va size) s = .next t ∧ done t ∧ t.invals = s.invals.erase x ∧ t.blocks = s.blocks ∧
        ∀ c, s.ctxs.get? asid = some c →
          (∀ y ∈ c.mapped, y.1 < va + size → va < y.1 + y.2.2 →
            (∀ p ∈ s.ctxs, ∀ r ∈ s.ms.pagesOf p.2.root, y.2.1 + y.2.2 ≤ r.1 ∨ r.1 + r.2 ≤ y.2.1) →
            ∀ a, y.2.1 ≤ a → a < y.2.1 + y.2.2 → t.ms.mem.byte a = 0) ∧
          ∀ a, (∀ y ∈ c.mapped, a < y.2.1 ∨ y.2.1 + y.2.2 ≤ a) → t.ms.mem.byte a = s.ms.mem.byte a)) ∧
  (∀ asid, (s.ctxs.get? asid = none → refused (.teardownAsid asid)) ∧
    ∀ c, s.ctxs.get? asid = some c →
      (c.tearing = false → KMap.sorted s.qs.queues = true → ∃ t, exec (.teardownAsid asid) s = .next t ∧
        ∀ k x, s.qs.queues.get? k = some x → x.asid = asid → (s.slotOf k = none → t.qs.queues.get? k = none) ∧
          ((s.slotOf k).isSome = true → (∃ y, t.qs.queues.get? k = some y ∧ y.step = 1 ∧ (y.st = .unmapping ∨ y.st = .error)) ∧
            ∃ c', t.ctxs.get? asid = some c' ∧ c'.tearing = true ∧ c'.conts = [])) ∧
      (c.tearing = true →
        ((∃ p ∈ s.qs.queues, p.2.asid = asid) → exec (.teardownAsid asid) s = .next s) ∧
        ((∀ p ∈ s.qs.queues, p.2.asid ≠ asid) →
          (∀ k b, KMap.sorted s.blocks = true → s.blocks.get? k = some b → b.asid = asid → b.spec = none →
            ∃ t b', exec (.teardownAsid asid) s = .next t ∧ t.blocks.get? k = some b' ∧ b'.stopping = .terminate none ∧
              t.ctxs.get? asid = some c ∧ ∀ p ∈ t.fifos, ∀ u ∈ p.2, u.asid ≠ asid) ∧
          ((∀ p ∈ s.blocks, p.2.asid ≠ asid) → (∀ p ∈ s.saved, p.2.blk.asid ≠ asid) →
            (1 < s.fab.chips.length → c.drained = false → exec (.teardownAsid asid) s = .next (s.askDrain (.teardown asid))) ∧
            (s.fab.chips.length ≤ 1 ∨ c.drained = true → ∃ t, exec (.teardownAsid asid) s = .next t ∧ t.ctxs.get? asid = none ∧
              t.qs.hostEvents.getLast? = some .cmdDone ∧ (∀ p ∈ t.qs.launches, p.2.asid ≠ asid) ∧ (∀ p ∈ t.fifos, ∀ u ∈ p.2, u.asid ≠ asid) ∧
              (∀ cl co, (t.core cl co).perf.get? asid = none) ∧
              (KMap.sorted s.qs.launches = true → (∀ p ∈ s.saved, ∀ x, s.qs.launches.get? p.2.blk.launch = some x → x.asid ≠ asid) →
                ∀ r ∈ s.ms.pagesOf c.root, ∀ a, r.1 ≤ a → a < r.1 + r.2 → t.ms.mem.byte a = 0)))))) ∧
  ∀ cl co split, (split ∉ [512, 768, 896] → refused (.sramSplitChange cl co split)) ∧
    (split ∈ [512, 768, 896] → cl < 96 → co < 8 → s.blocksOnCore cl co = [] → (s.core cl co).zeroing = Load.zero →
      ∃ t, exec (.sramSplitChange cl co split) s = .next t ∧ done t ∧ (t.core cl co).split = split ∧
        (∀ x < 2 ^ 46, t.ms.cc.get? (ccKey cl x) = none) ∧ ∀ a < 2 ^ 52, t.ms.mem.byte a = s.ms.merged cl a)

/-- 21 R409 to R411: a strike report of this cycle (log 117) rewinds the block of a core it names. The block goes back to its state at the end of the target cycle, which the journal kept; the acts of later words are dropped and those of
earlier words stay; memory has not changed; the rewind is counted, and the counts of what is undone go back. A sleeping WAITC checks again. -/
def Obligations.Strikes : Prop := ∀ (s : State) (cl co t id : Nat) (mask : BitVec 8) (b : Block) (e : JEntry), cl < 96 → co < 8 →
  (t ≠ s.clk cl → exec (.strikeReport cl t mask) s = .next s) ∧ (t = s.clk cl →
  (∀ j < 8, mask.getLsbD j = decide (j = co)) → s.blocksOnCore cl co = [id] → s.blocks.get? id = some b → b.spec = none → b.pair = false → b.cl = cl →
  b.co = co → (s.core cl co).lastStrike = none → (∀ g ∈ b.st.groups, g.park ≠ .assist) →
  (∀ f ∈ (s.core cl co).journal, ∀ g ∈ f.st.groups, g.park ≠ .assist) →
  b.st.groups.length = e.st.groups.length →
  e ∈ (s.core cl co).journal → e.blk = id → t - 160 < e.cycle →
  (∀ f ∈ (s.core cl co).journal, f.blk = id → f ≠ e → t - 160 < f.cycle → e.cycle < f.cycle) →
  ∃ u, exec (.strikeReport cl t mask) s = .next u ∧ u.blocks.get? id = some { b with st := e.st.rearm, prot := e.prot } ∧
    (∀ h, h ∈ (u.core cl co).held ↔ h ∈ (s.core cl co).held ∧ (h.blk = id → h.issued ≤ t - 160)) ∧
    (∀ f ∈ (u.core cl co).journal, f.blk = id → f.cycle ≤ t - 160) ∧ u.ms.mem = s.ms.mem ∧ u.clk cl = s.clk cl ∧
    (let p := (s.core cl co).perf.getD b.asid CorePerf.zero
     let q := (u.core cl co).perf.getD b.asid CorePerf.zero
     q.rewinds = p.rewinds + 1 ∧ q.copies = p.copies ∧
     ∀ g h, b.st.groups = [g] → e.st.groups = [h] → q.slips = p.slips - (g.tally.slips - h.tally.slips) ∧
       q.assists = p.assists - (g.tally.assists - h.tally.assists) ∧ q.mmas = p.mmas - (g.tally.mmas - h.tally.mmas)) ∧
    (u.core cl co).lastStrike = some (s.clk cl, t - 160) ∧
    ∀ (gi : Nat) (h : Group), e.st.groups[gi]? = some h → ∃ k : Group, e.st.rearm.groups[gi]? = some k ∧ k.lanes = h.lanes ∧
      ∀ z, (k.pcSlot z).e = (h.pcSlot z).e ∧
        (k.pcSlot z).wait = match (h.pcSlot z).wait.waitc? with
          | some r => .waitcCheck r
          | none => (h.pcSlot z).wait)

/-- 21 R421 to R428: health, trust, resets and power. A core with 8 alarms or 64 corrected errors within 2^40 cycles leaves service and its blocks are pre-empted; once they are gone it moves to the next bin, where one in bin 2 stays,
and its self-test begins (log 118); after that it serves again, goes to the next bin if it fails (log 19), or is retired if it fails in bin 2. F6 accepts
an image only with its magic number, digest (SHA-256, log 18, its bytes in order, log 72), signature and version, and measures it, in the order of KIND; a part in recovery takes images until it has one of
every kind, and then brings the rest up. A report carries the nonce, the registers and the serial number under a signature. A cold reset empties the machine and starts the images in order; a failed check
leaves it in recovery, else HBM is zero, host memory is kept (log 3), the self-test sets the bins, M2 takes its digest and the chips of the domain, this one's number among them, are free (log 14, 119).
A device reset tears every context down, and once none is left (log 119) keeps firmware, bins and splits and zeroes device memory and M3; a function reset begins the teardown of the contexts of its function. The cap lies between 1,800 and 3,600 W, and a throttle step leaves the counts alone. -/
def Obligations.Hours : Prop := ∀ (s : State),
  let rest := fun (u t : State) => (∀ a, t.ms.mem.byte a = if a < 2 ^ 51 then 0 else u.ms.mem.byte a) ∧ t.ms.cc = [] ∧
    t.fw = { u.fw with m2 := extend u.fw.m2 (digestBytes (Config.bringUp u.free)), recovery := false, linkReady := true } ∧
    (∀ cl < 96, ∀ co < 8, (t.core cl co).bin = Config.testBin u.free (8 * cl + co) % 3) ∧
    t.fab.chip = u.fab.chip ∧ t.fab.chips.contains u.fab.chip = true ∧ t.fab.chips.Nodup ∧ (u.fab.chip < 64 → ∀ c ∈ t.fab.chips, c < 64)
  let done := fun (t : State) => t.qs.hostEvents = s.qs.hostEvents ++ [.cmdDone]
  (∀ cl co, cl < 96 → co < 8 → (s.core cl co).service = .serving → s.testing cl = false →
    KMap.sorted s.blocks = true →
    let x := s.core cl co
    let marginal := 8 ≤ (x.alarms.filter fun c => s.clk cl < c + 2 ^ 40).length ∨ 64 ≤ (x.corrected.filter fun c => s.clk cl < c + 2 ^ 40).length
    (¬ marginal → exec (.coreMarginal cl co) s = .next s) ∧ (marginal →
    ∃ t, exec (.coreMarginal cl co) s = .next t ∧ (t.core cl co).service = .leaving ∧ (t.core cl co).bin = x.bin ∧
      ∀ id b, id ∈ s.blocksOnCore cl co → s.blocks.get? id = some b → b.spec = none → b.stopping = .none →
        ∃ b', t.blocks.get? id = some b' ∧ b'.stopping = .preempt none ∧ b'.st = b.st)) ∧
  (∀ cl co, (s.core cl co).service = .leaving → s.blocksOnCore cl co = [] →
    s.beginBist cl co = s.setCore cl co { s.core cl co with service := .out (s.clk cl), bin := min 2 ((s.core cl co).bin + 1) }) ∧
  (∀ cl co c0, (s.core cl co).service = .out c0 → c0 + 2 ^ 24 ≤ s.clk cl → s.blocksOnCore cl co = [] → (s.core cl co).zeroing = Load.zero →
    (∃ t, exec (.bistEnd cl co true) s = .next t ∧ (t.core cl co).service = .serving ∧ (t.core cl co).bin = (s.core cl co).bin ∧
      (t.core cl co).alarms = [] ∧ (t.core cl co).corrected = []) ∧
    ((s.core cl co).bin ≠ 2 → ∃ t, exec (.bistEnd cl co false) s = .next t ∧ (t.core cl co).service = .out (s.clk cl) ∧
      (t.core cl co).bin = (s.core cl co).bin + 1) ∧
    ((s.core cl co).bin = 2 → ∃ t, exec (.bistEnd cl co false) s = .next t ∧ (t.core cl co).service = .retired)) ∧
  (∀ x, s.fw.accepts x = true → recW x.header 0 = 0x58485254 ∧ imgKind x ≤ 7 ∧ (recW x.header 2).toNat = x.body.length ∧
    sha256 x.body = imgDigest x ∧ (s.fw.fuses.getD (imgKind x) 0).toNat ≤ (imgVersion x).toNat ∧
    Config.sigOk ((recW x.header 15).extractLsb' 0 8).toNat (hdrBytes x.header 0 7) (hdrBytes x.header 7 4) (hdrBytes x.header 11 4) = true) ∧
  (∀ x, (s.fw.recovery = false ∨ s.fw.accepts x = false → exec (.recoveryImageLoad x) s = .next s) ∧
    (s.fw.recovery = true → s.fw.accepts x = true →
      let f := ({ s.fw with waiting := x :: s.fw.waiting.filter fun y => imgKind y != imgKind x } : Firmware).measureDue 8
      (f.loaded.length ≠ 8 → exec (.recoveryImageLoad x) s = .next { s with fw := f }) ∧
      (f.loaded.length = 8 → ∃ t, exec (.recoveryImageLoad x) s = .next t ∧ rest { s with fw := f } t ∧
        t.blocks = s.blocks ∧ t.ctxs = s.ctxs ∧ t.qs = s.qs))) ∧
  (∀ (f : Firmware) n, ((∀ y ∈ f.waiting, imgKind y ≠ f.loaded.length) → f.measureDue n = f) ∧
    ∀ y, (f.waiting.find? fun z => imgKind z == f.loaded.length) = some y →
      f.measureDue (n + 1) = ({ f.measure y with waiting := f.waiting.erase y } : Firmware).measureDue n) ∧
  (∀ (f : Firmware) x, imgKind x ≤ 7 → let g := f.measure x
    g.m0 = (if imgKind x = 0 then extend f.m0 (imgDigest x) else f.m0) ∧ g.m1 = (if imgKind x = 0 then f.m1 else extend f.m1 (imgDigest x)) ∧
    g.versions.getD (imgKind x) 0 = imgVersion x ∧ (∀ k < 8, k ≠ imgKind x → g.versions.getD k 0 = f.versions.getD k 0) ∧
    imgKind x ∈ g.loaded ∧ (∀ k, k ≠ imgKind x → (k ∈ g.loaded ↔ k ∈ f.loaded)) ∧
    { g with m0 := f.m0, m1 := f.m1, versions := f.versions, loaded := f.loaded } = f) ∧
  (∀ nonce, (nonce.length ≠ 32 → exec (.attestationRequest nonce) s = .next (s.post .cmdError)) ∧
    (nonce.length = 32 → ∃ r sig, exec (.attestationRequest nonce) s = .next (s.post (.attestation (r ++ sig))) ∧ r.length = 200 ∧
      sig = Config.sign r ∧ r.take 32 = nonce ∧ (r.drop 32).take 32 = digestBytes s.fw.m0 ∧ (r.drop 64).take 32 = digestBytes s.fw.m1 ∧
      (r.drop 96).take 32 = digestBytes s.fw.m2 ∧ (r.drop 128).take 32 = digestBytes s.fw.m3 ∧
      (∀ k < 8, ((r.drop (160 + 4 * k)).take 4) = leBytes (s.fw.versions.getD k 0).toNat 4) ∧ r.drop 192 = leBytes s.fw.serial.toNat 8)) ∧
  (∀ table, ∃ t, exec (.configTableLoad table) s = .next t ∧ done t ∧ t.fw = { s.fw with m3 := extend s.fw.m3 (sha256 table) }) ∧
  (∀ images, ∃ t f, exec (.coldReset images) s = .next t ∧ t.blocks = [] ∧ t.ctxs = [] ∧ t.qs.queues = [] ∧ t.ms.cc = [] ∧
    f.m0 = 0 ∧ f.m1 = 0 ∧ f.m2 = 0 ∧ f.m3 = 0 ∧ f.loaded = [] ∧ f.fuses = s.fw.fuses ∧
    (let g := bringUp images (List.range 8) f
     (g.recovery = true → t.fw = g ∧ (∀ a, t.ms.mem.byte a = s.ms.mem.byte a) ∧ t.fab.chips = [s.fab.chip] ∧ t.cores = []) ∧
     (g.recovery = false → ∃ u, u.fw = g ∧ u.ms.mem = s.ms.mem ∧ u.free = s.free ∧ u.fab.chip = s.fab.chip ∧ rest u t)) ∧
    t.fab.chip = s.fab.chip ∧
    ((∀ x ∈ images, imgKind x ≠ 0) → t.fw.recovery = true ∧ t.fw.linkReady = false) ∧
    (t.fw.linkReady = true → ∀ k < 8, ∃ x ∈ images, imgKind x = k ∧ (∃ h : Firmware, h.fuses = s.fw.fuses ∧ h.accepts x = true))) ∧
  (KMap.sorted s.ctxs = true → ∃ t, exec .deviceReset s = .next t ∧ t.fw = { s.fw with resetting := true } ∧
    ∀ a c, s.ctxs.get? a = some c → ∃ c', t.ctxs.get? a = some c' ∧ c'.tearing = true) ∧
  (s.fw.resetting = false ∨ s.ctxs ≠ [] → s.endReset = s) ∧
  (s.fw.resetting = true → s.ctxs = [] → let t := s.endReset
    t.blocks = [] ∧ t.ctxs = [] ∧ t.qs.queues = [] ∧ t.qs.launches = [] ∧ t.ms.cc = [] ∧ t.ms.tlb = [] ∧
    (∀ a, t.ms.mem.byte a = if a < 2 ^ 51 then 0 else s.ms.mem.byte a) ∧ t.fw = { s.fw with m3 := 0, resetting := false } ∧
    t.fab.retry = s.fab.retry ∧ t.fab.outSeq = s.fab.outSeq ∧
    ∀ cl co, (t.core cl co).bin = (s.core cl co).bin ∧ (t.core cl co).split = (s.core cl co).split ∧
      (t.core cl co).service = (s.core cl co).service ∧ (t.core cl co).held = []) ∧
  (∀ fn, KMap.sorted s.ctxs = true → ∃ t, exec (.functionReset fn) s = .next t ∧ ∀ a c, s.ctxs.get? a = some c → ∃ c', t.ctxs.get? a = some c' ∧
    (c.fn = fn → c'.tearing = true) ∧ (c.fn ≠ fn → c' = c)) ∧
  (∀ w, (1800 ≤ w → w ≤ 3600 → ∃ t, exec (.powerCapSet w) s = .next t ∧ done t ∧ t.power.cap = w) ∧
    ((w < 1800 ∨ 3600 < w) → exec (.powerCapSet w) s = .next (s.post .cmdError))) ∧
  ∀ cl down, cl < 96 → ∃ t, exec (.throttleStep cl down) s = .next t ∧ t.qs.hostEvents = s.qs.hostEvents ++ [.throttle cl down] ∧
    t.cluster cl = { s.cluster cl with steps := if down then (s.cluster cl).steps + 1 else (s.cluster cl).steps - 1 } ∧
    t.blocks = s.blocks ∧ t.ms = s.ms
/-! ### Words -/

/-- 02 R34, R37, R40, R45, R49 to R62, with the worked words of 02: words written out field by field decode to what they
stand for; the fields of a full word stand in the order MAJ, MIN, GA NA, GB NB, DST, NWB, SA, MODA, SB, MODB, SC, MODC, CH, STALL, YLD,
TYPE after bit 63. An unassigned MAJ and a read-only special register are ILLEGAL_INSTR even beside a bad reserved field, and the latter
alone is RESERVED_FIELD. -/
def Obligations.DecodeSamples : Prop :=
  let u : Ctl := ⟨7, false, 7, false, 0, false⟩
  let r := fun (n : Nat) => (⟨.reg (BitVec.ofNat 6 n), .whole⟩ : Opnd)
  decodeTableWord 64 0x041DC28199C00011 =
    some (.add { u with stall := 1 } ⟨⟨5, false⟩, r 3, ⟨.imm ⟨23, by decide⟩, .whole⟩, .i32x2⟩) ∧
  decodeTableWord 64 0x020D60001FFFE000 = some (.bra ⟨3, false, 5, true, 0, false⟩ 0x3FFFC) ∧
  decodeTableWord 64 0x821027803C640E21 =
    some (.slotAdd 1 ⟨⟨4, false⟩, .reg 9, .whole, 7, false, .i64⟩ (.flt .fmul ⟨⟨6, false⟩, .latch 0, .whole, 7, false, .f32x2⟩)) ∧
  decodeTableWord 64 0b0_000100_1000_010_1_111_0_001010_1_1000100_11_0011111_00_0000000_00_00_00011_1_010 =
    some (.sar ⟨2, true, 7, false, 3, true⟩ ⟨⟨10, true⟩, ⟨.zero, .sw⟩, r 31, .i16x4⟩) ∧
  decodeTableWord 64 0b0_000010_1111_111_0_111_0_000010_0_0000011_00_000000000111111111_00_00000_0_000 =
    some (.movhi u ⟨⟨2, false⟩, .j3, 511⟩) ∧
  decodeTableWord 64 0b0_000101_0010_111_0_111_0_000110_0_0000001_01_1010000_10_0000110_00_00_00000_0_010 =
    some (.fcmp u ⟨6, ⟨.reg 1, .lo⟩, ⟨.imm ⟨0, by decide⟩, .hi⟩, .un, .bf16x4⟩) ∧
  decodeTableWord 64 0b0_001010_0000_111_0_111_0_001000_0_0000100_00_111111111111111111_10_00000_0_100 =
    some (.ld u ⟨⟨8, false⟩, .reg 4, 0x3FFFF, .b16, .retain⟩) ∧
  decodeTableWord 64 0b0_001011_0001_111_0_111_0_001000_0_0000100_00_0000000000101_011_10_00_00000_0_011 =
    some (.stl u ⟨8, .reg 4, 5, .dev, .g, .b8⟩) ∧
  decodeTableWord 64 0b0_001100_1010_111_0_111_0_000111_0_0000001_11_0000010_11_0000011_011_0_00000_0_010 =
    some (.atomCas u ⟨⟨7, false⟩, .reg 1, .reg 2, .reg 3, .ar, .dev, .sg, .b4⟩) ∧
  decodeTableWord 64 0b0_001110_0000_111_0_111_0_000111_0_0000001_10_0000010_10_0000011_101_0_00000_0_011 =
    some (.casc u ⟨⟨7, false⟩, .reg 1, .reg 2, 3, .p4, .sys, .g⟩) ∧
  decodeTableWord 64 0b0_001111_0010_111_0_111_0_000111_0_0000001_01_0000010_01_0001011_001_0_00000_0_011 =
    some (.waitc u ⟨⟨7, false⟩, .reg 1, .reg 2, .geu, true, .blk, .s, .b8⟩) ∧
  decodeTableWord 64 0b0_010000_0001_111_0_111_0_000111_0_0000001_00_0000010_00_0000011_00_01_00000_0_000 =
    some (.copym u ⟨7, r 1, r 2, 3, .stream⟩) ∧
  decodeTableWord 64 0b0_010001_1000_111_0_111_0_001100_0_0000001_11_0000010_01_0000011_00_00_00000_0_000 =
    some (.mmaQc4 u ⟨12, .reg 1, .reg 2, 3, .fp16, true, false⟩) ∧
  decodeTableWord 64 0b0_010100_0011_111_0_111_0_000101_0_0000001_01_0000010_00_0000000_00_00_00000_0_000 =
    some (.unify u ⟨5, .reg 1, true, r 2⟩) ∧
  decodeTableWord 64 0b0_010101_0000_111_0_111_0_000000_0_0000001_00_000000000000000111_00_00000_0_000 = some (.tryM u ⟨1, 7⟩) ∧
  decodeBytes (wordBytes 0b0_010110_0000_111_0_111_0_000000_0_0000000_00_000000000000000000_11_00000_0_000) = .error .illegalInstr ∧
  decodeBytes (wordBytes 0b0_000000_0110_111_0_111_0_000001_0_0000000_00_000000000000000000_00_00000_0_000) = .error .illegalInstr ∧
  decodeBytes (wordBytes 0b0_000000_0000_111_0_111_0_000001_0_0000000_00_000000000000000000_00_00000_0_000) = .error .reservedField

/-- 02 R32, R35, R42, R44, R64, 09 R266, R268, 21 R413: a step with a word in focus runs the instruction that the eight bytes at its PC, in the cluster's instruction
cache, decode to, between the start and the end of its issue; a decode fault or poison is taken instead, in the lowest lane of the entry,
register and span checks before pairing; a line that is not there ends the turn of the word. The start of issue counts the word and keeps the block's state in the
core's journal; the end of a word that issues sets STALL and YLD and passes the turn on, with which acts that cross a pair are let go 160 cycles after them, and one that goes on after a wait takes no turn; neither changes memory or a register. What is
read ahead (log 113) goes where the word may know of others' stores. With no word in focus the event chosen
happens, or the outside acts if it may. That one event or input happens at a time is the model's choice (log 2). -/
def Obligations.StepRunsWord : Prop := ∀ s : State,
  (∀ (f : Focus) (q : Cur), s.focus = some f → s.curOf f = some q →
    (s.ms.icache.get? (icKey q.blk.cl q.blk.asid q.pc) = none → step s = .next { s with focus := none }) ∧
    ∀ ws bad, s.ms.icache.get? (icKey q.blk.cl q.blk.asid q.pc) = some (ws, bad) →
      let w := ws.getD (q.pc.toNat % 256 / 8) 0
      let d := decodeBytes (wordBytes w)
      let ends := fun (x : FaultInfo) => step s = .next (((s.beginWord q).faultWord f x).endWord f q.blk.cl q.issues w)
      (bad.getLsbD (q.pc.toNat % 256 / 64) = false → (∀ i, d = .ok i →
          (i.regsBelow q.blk.nregs = true → i.spansAligned = true → i.pairOk = true →
            step s = afterWord (exec i (s.beginWord q)) fun t => t.endWord f q.blk.cl q.issues w) ∧
          ∀ low, q.grp.inEntry q.slot low = true → (∀ k < low, q.grp.inEntry q.slot k = false) → low < 32 →
            (i.regsBelow q.blk.nregs = false ∨ i.spansAligned = false → ends { code := .illegalInstr, lane := low }) ∧
            (i.regsBelow q.blk.nregs = true → i.spansAligned = true → i.pairOk = false → ends { code := .illegalPair, lane := low })) ∧
        ∀ low, q.grp.inEntry q.slot low = true → (∀ k < low, q.grp.inEntry q.slot k = false) → low < 32 →
          (d = .error .illegalInstr → ends { code := .illegalInstr, lane := low }) ∧
          (d = .error .reservedField → ends { code := .reservedField, lane := low })) ∧
      (∀ low, q.grp.inEntry q.slot low = true → (∀ k < low, q.grp.inEntry q.slot k = false) → low < 32 →
        bad.getLsbD (q.pc.toNat % 256 / 64) = true → ends { code := .poisonConsumed, lane := low, ea := q.pc.setWidth 64 }) ∧
      (∃ b g, (s.beginWord q).curOf f = some { q with blk := b, grp := g } ∧
        { g with perfIssued := q.grp.perfIssued, slot0 := q.grp.slot0, slot1 := q.grp.slot1 } = q.grp ∧
        g.perfIssued = q.grp.perfIssued + (if q.issues then 1 else 0) ∧
        (∀ z, g.pcSlot z = { q.grp.pcSlot z with
          began := if z = q.slot ∧ q.issues = true then s.clk q.blk.cl else (q.grp.pcSlot z).began }) ∧
        { b with st := { b.st with groups := q.blk.st.groups } } = q.blk ∧ ∀ j, j ≠ q.gi → b.st.groups[j]? = q.blk.st.groups[j]?) ∧
      { s.beginWord q with blocks := s.blocks, cores := s.cores } = s ∧
      (∀ id, id ≠ q.id → (s.beginWord q).blocks.get? id = s.blocks.get? id) ∧
      let c := s.core q.blk.cl q.co
      CoreOnly s (s.beginWord q) q.blk.cl q.co { c with
        journal := (c.journal.filter fun e => decide (s.clk q.blk.cl ≤ e.cycle + 320)) ++ [⟨s.clk q.blk.cl, q.id, q.blk.st, q.blk.prot⟩] }) ∧
  (∀ f cl issued w, let t := s.endWord f cl issued w
    t.focus = none ∧ t.cluster cl = (if issued then (s.cluster cl).nextTurn else s.cluster cl) ∧ (∀ k, k ≠ cl → t.cluster k = s.cluster k) ∧
    { t with focus := s.focus, blocks := s.blocks, clusters := s.clusters, qs := { t.qs with launches := s.qs.launches } } = s ∧
    (issued = true → KMap.sorted s.blocks = true → ∀ id b, s.blocks.get? id = some b → b.cl = cl → ∃ c, t.blocks.get? id = some c ∧
      ∀ x, x ∈ c.st.crossing ↔ x ∈ b.st.crossing ∧ (s.cluster cl).nextTurn.clk < x.cycle + 160) ∧
    let quiet := issued = false ∨ ∀ p ∈ s.blocks, p.2.cl = cl → ∀ x ∈ p.2.st.crossing, (s.cluster cl).nextTurn.clk < x.cycle + 160
    (quiet → ∀ id, id ≠ f.blk → t.blocks.get? id = s.blocks.get? id) ∧
    ∀ q, quiet → s.curOf f = some q → ∃ b g, t.curOf f = some { q with blk := b, grp := g } ∧
      { b with st := { b.st with groups := q.blk.st.groups, track := q.blk.st.track }, prot := q.blk.prot } = q.blk ∧
      let knows := acquires w = true ∧ (q.grp.pcSlot q.slot).wait = .none
      (∀ j h, j ≠ q.gi → q.blk.st.groups[j]? = some h →
        (knows → b.st.groups[j]? = some { h with acqAt := s.clk cl, ahead := [] }) ∧ (¬ knows → b.st.groups[j]? = some h)) ∧
      { g with ready := q.grp.ready, stallUntil := q.grp.stallUntil, demotedAt := q.grp.demotedAt, acqAt := q.grp.acqAt, ahead := q.grp.ahead } =
        q.grp ∧
      (knows → g.acqAt = s.clk cl ∧ g.ahead = []) ∧ (¬ knows → g.acqAt = q.grp.acqAt ∧ ∀ e ∈ g.ahead, e ∈ q.grp.ahead) ∧
      (issued = true → g.stallUntil = s.clk cl + stallOf w ∧ (yldOf w = true ∨ q.grp.yielded = true → g.demotedAt = s.clk cl + 1)) ∧
      (issued = false → g.stallUntil = q.grp.stallUntil ∧ g.demotedAt = q.grp.demotedAt)) ∧
  (s.focus = none →
    (∀ e, s.ownEvent = some e → step s = e s.ticked) ∧
    (s.ownEvent = none → (∀ i, s.input = some i → step s = exec i s.ticked.dropInput) ∧ (s.input = none → step s = .next s.ticked.dropInput)))

/-- 21 R421, R424, R426, R428, 09 R259, 19 R393: what holds right after reset. Memory is canonical and every byte of it zero, nothing is poisoned, every cache, TLB and
instruction cache is empty; no context, queue, launch, block or task exists and no fault waits; every core serves, in bin 0; every cluster counts from 0, at its
nominal clock; the measurement registers are zero; every port has its eight lanes. The model's choices are that host memory is zero too (log
3), the SRAM split of 768 (log 13), chip number 0 (log 14), the firmware values (log 15), bin 0 (log 68) and the power cap of 3,600 W (log 82). -/
def Obligations.ResetValues : Prop :=
  let s := State.reset
  s.ms.mem.wf = true ∧ (∀ a, s.ms.mem.byte a = 0) ∧ s.ms.poison = [] ∧ s.ms.cc = [] ∧ s.ms.tlb = [] ∧ s.ms.wcache = [] ∧ s.ms.icache = [] ∧ s.ms.copies = [] ∧
  s.focus = none ∧ s.blocks = [] ∧ s.ctxs = [] ∧ s.faultQ = [] ∧ s.saved = [] ∧ s.qs.queues = [] ∧ s.qs.launches = [] ∧ s.qs.specs = [] ∧
  s.qs.slots = [] ∧ s.fifos = [] ∧
  (∀ cl co, (s.core cl co).service = .serving ∧ (s.core cl co).bin = 0 ∧ (s.core cl co).split = 768 ∧ (s.core cl co).held = [] ∧
    (s.core cl co).utlb = [] ∧ (s.core cl co).zeroing = Load.zero) ∧
  (∀ cl, s.clk cl = 0 ∧ (s.cluster cl).steps = 0 ∧ (s.cluster cl).budgets = []) ∧
  s.fw.m0 = 0 ∧ s.fw.m1 = 0 ∧ s.fw.m2 = 0 ∧ s.fw.m3 = 0 ∧ s.fw.recovery = false ∧ s.fw.loaded = [] ∧
  (∀ n, (s.port n).lanes = 8 ∧ (s.port n).up = true) ∧ s.power.cap = 3600 ∧ s.fab.chip = 0 ∧ s.inputs = []

/-- 02 R34, R37 to R41, R45, R49 to R64: every instruction that the decode checks of fields accept is what its encoding decodes to, with every
operand at every value; and every word that decodes, but a HALT or ERET, whose other fields nothing checks, is the encoding of what it decodes
to, and no field of it fails a check. Bytes in memory are the word, little-endian. -/
def Obligations.DecodeEncode : Prop :=
  (∀ i w, i.fieldsOk = true → encode i = some w → decode w = .ok i) ∧
  (∀ w i, decode w = .ok i → (∃ c, i = .halt c ∨ i = .eret c) ∨ (encode i = some w ∧ i.fieldsOk = true)) ∧
  (∀ w, decodeBytes (wordBytes w) = decode w)

/-- 00 R3 and the canonical form of memory (log 3): whatever a step does, the bytes of memory stay listed by rising address with no zero among them, so
that equal memories are equal data. -/
def Obligations.MemoryCanonical : Prop := ∀ s t : State, s.ms.mem.wf = true → step s = .next t → t.ms.mem.wf = true
end

