-- ==== Sys2Proof/Laws/Maps.lean ====
section
/-! SUPPORT. Laws of finite maps and of byte memory: what a read gives after a write, and that every operation keeps the
canonical form. -/

namespace Sys2Proof.Machine

/-! ### Finite maps -/

@[simp] theorem KMap.get?_nil {α : Type} (k : Nat) : KMap.get? ([] : KMap α) k = none := rfl

theorem KMap.get?_cons {α : Type} (j : Nat) (w : α) (m : KMap α) (k : Nat) :
    KMap.get? ((j, w) :: m) k = if j = k then some w else KMap.get? m k := rfl

theorem KMap.put_nil {α : Type} (k : Nat) (v : α) : KMap.put ([] : KMap α) k v = [(k, v)] := rfl

theorem KMap.put_cons {α : Type} (j : Nat) (w : α) (m : KMap α) (k : Nat) (v : α) :
    KMap.put ((j, w) :: m) k v =
      if k < j then (k, v) :: (j, w) :: m else if k = j then (k, v) :: m else (j, w) :: KMap.put m k v := rfl

theorem KMap.del_cons {α : Type} (j : Nat) (w : α) (m : KMap α) (k : Nat) :
    KMap.del ((j, w) :: m) k = if j = k then KMap.del m k else (j, w) :: KMap.del m k := rfl

/-- A key just put reads as what was put. -/
@[simp] theorem KMap.get?_put_self {α : Type} (m : KMap α) (k : Nat) (v : α) : (KMap.put m k v).get? k = some v := by
  induction m with
  | nil => simp [KMap.put, KMap.get?]
  | cons p m ih =>
    obtain ⟨j, w⟩ := p
    rw [KMap.put_cons]
    split
    · simp [KMap.get?]
    · split
      · simp [KMap.get?]
      · rw [KMap.get?_cons, if_neg (by omega), ih]

/-- Another key reads as before. -/
theorem KMap.get?_put_ne {α : Type} (m : KMap α) (k x : Nat) (v : α) (h : x ≠ k) : (KMap.put m k v).get? x = m.get? x := by
  induction m with
  | nil => simp [KMap.put, KMap.get?, Ne.symm h]
  | cons p m ih =>
    obtain ⟨j, w⟩ := p
    rw [KMap.put_cons]
    split
    · rw [KMap.get?_cons, if_neg (Ne.symm h)]
    · split
      · subst_vars
        rw [KMap.get?_cons, if_neg (Ne.symm h), KMap.get?_cons, if_neg (Ne.symm h)]
      · rw [KMap.get?_cons, KMap.get?_cons, ih]

/-- A read after a put. -/
theorem KMap.get?_put {α : Type} (m : KMap α) (k x : Nat) (v : α) :
    (KMap.put m k v).get? x = if x = k then some v else m.get? x := by
  split
  · next h => subst h; simp
  · next h => exact KMap.get?_put_ne m k x v h

/-- A deleted key is gone. -/
@[simp] theorem KMap.get?_del_self {α : Type} (m : KMap α) (k : Nat) : (KMap.del m k).get? k = none := by
  induction m with
  | nil => rfl
  | cons p m ih =>
    obtain ⟨j, w⟩ := p
    rw [KMap.del_cons]
    split
    · exact ih
    · next h => rw [KMap.get?_cons, if_neg h, ih]

/-- Another key stays. -/
theorem KMap.get?_del_ne {α : Type} (m : KMap α) (k x : Nat) (h : x ≠ k) : (KMap.del m k).get? x = m.get? x := by
  induction m with
  | nil => rfl
  | cons p m ih =>
    obtain ⟨j, w⟩ := p
    rw [KMap.del_cons]
    split
    · next e => subst e; rw [ih, KMap.get?_cons, if_neg (Ne.symm h)]
    · rw [KMap.get?_cons, KMap.get?_cons, ih]

@[simp] theorem KMap.getD_put_self {α : Type} (m : KMap α) (k : Nat) (v d : α) : KMap.getD (KMap.put m k v) k d = v := by
  simp [KMap.getD]

theorem KMap.getD_put_ne {α : Type} (m : KMap α) (k x : Nat) (v d : α) (h : x ≠ k) :
    KMap.getD (KMap.put m k v) x d = KMap.getD m x d := by
  simp [KMap.getD, KMap.get?_put_ne m k x v h]

/-- A map that lists no default: a key just put reads as what was put. -/
@[simp] theorem KMap.getD_putD_self {α : Type} [DecidableEq α] (d : α) (m : KMap α) (k : Nat) (v : α) :
    KMap.getD (KMap.putD d m k v) k d = v := by
  unfold KMap.putD
  split
  · next h => simp [KMap.getD, h]
  · simp

theorem KMap.getD_putD_ne {α : Type} [DecidableEq α] (d : α) (m : KMap α) (k x : Nat) (v : α) (h : x ≠ k) :
    KMap.getD (KMap.putD d m k v) x d = KMap.getD m x d := by
  unfold KMap.putD
  split
  · simp [KMap.getD, KMap.get?_del_ne m k x h]
  · exact KMap.getD_put_ne m k x v d h

/-! ### Rising keys -/

/-- Every key is above a bound. -/
def KMap.above {α : Type} (m : KMap α) (b : Nat) : Prop := ∀ p ∈ m, b < p.1

theorem KMap.sorted_cons {α : Type} (p : Nat × α) (m : KMap α) : KMap.sorted (p :: m) = true ↔ KMap.above m p.1 ∧ KMap.sorted m = true := by
  induction m generalizing p with
  | nil => simp [KMap.sorted, KMap.above]
  | cons q m ih =>
    obtain ⟨j, w⟩ := p
    obtain ⟨k, v⟩ := q
    simp only [KMap.sorted, Bool.and_eq_true, decide_eq_true_eq]
    constructor
    · rintro ⟨h, hs⟩
      refine ⟨?_, hs⟩
      intro x hx
      rcases List.mem_cons.mp hx with rfl | hx
      · exact h
      · exact lt_trans h (((ih (k, v)).mp hs).1 x hx)
    · rintro ⟨h, hs⟩
      exact ⟨h (k, v) (by simp), hs⟩

theorem KMap.mem_put {α : Type} {m : KMap α} {k : Nat} {v : α} {p : Nat × α} (h : p ∈ KMap.put m k v) : p = (k, v) ∨ p ∈ m := by
  induction m with
  | nil => simpa [KMap.put] using h
  | cons q m ih =>
    obtain ⟨j, w⟩ := q
    rw [KMap.put_cons] at h
    split at h
    · rcases List.mem_cons.mp h with h | h
      · exact .inl h
      · exact .inr h
    · split at h
      · rcases List.mem_cons.mp h with h | h
        · exact .inl h
        · exact .inr (List.mem_cons_of_mem _ h)
      · rcases List.mem_cons.mp h with h | h
        · exact .inr (h ▸ List.mem_cons_self ..)
        · rcases ih h with h | h
          · exact .inl h
          · exact .inr (List.mem_cons_of_mem _ h)

/-- Putting keeps the keys rising. -/
theorem KMap.sorted_put {α : Type} (m : KMap α) (k : Nat) (v : α) (h : KMap.sorted m = true) : KMap.sorted (KMap.put m k v) = true := by
  induction m with
  | nil => rfl
  | cons q m ih =>
    obtain ⟨j, w⟩ := q
    have hq := (KMap.sorted_cons (j, w) m).mp h
    rw [KMap.put_cons]
    split
    · next hk =>
      rw [KMap.sorted_cons]
      refine ⟨?_, h⟩
      intro x hx
      rcases List.mem_cons.mp hx with rfl | hx
      · exact hk
      · exact lt_trans hk (hq.1 x hx)
    · split
      · next _ hk =>
        rw [KMap.sorted_cons]
        exact ⟨fun x hx => by have := hq.1 x hx; simp only at this ⊢; omega, hq.2⟩
      · next h1 h2 =>
        rw [KMap.sorted_cons]
        refine ⟨?_, ih hq.2⟩
        intro x hx
        rcases KMap.mem_put hx with rfl | hx
        · simp only; omega
        · exact hq.1 x hx

/-- A part of a map, in its order, keeps the keys rising. -/
theorem KMap.sorted_filter {α : Type} (m : KMap α) (p : Nat × α → Bool) (h : KMap.sorted m = true) :
    KMap.sorted (m.filter p) = true := by
  induction m with
  | nil => rfl
  | cons q m ih =>
    have hq := (KMap.sorted_cons q m).mp h
    rw [List.filter_cons]
    split
    · rw [KMap.sorted_cons]
      exact ⟨fun x hx => hq.1 x (List.mem_filter.mp hx).1, ih hq.2⟩
    · exact ih hq.2

theorem KMap.del_eq_filter {α : Type} (m : KMap α) (k : Nat) : KMap.del m k = m.filter fun p => p.1 != k := by
  induction m with
  | nil => rfl
  | cons q m ih =>
    obtain ⟨j, w⟩ := q
    rw [KMap.del_cons, List.filter_cons, ih]
    by_cases h : j = k <;> simp [h]

/-- Deleting keeps the keys rising. -/
theorem KMap.sorted_del {α : Type} (m : KMap α) (k : Nat) (h : KMap.sorted m = true) : KMap.sorted (KMap.del m k) = true := by
  rw [KMap.del_eq_filter]
  exact KMap.sorted_filter m _ h

theorem KMap.sorted_putD {α : Type} [DecidableEq α] (d : α) (m : KMap α) (k : Nat) (v : α) (h : KMap.sorted m = true) :
    KMap.sorted (KMap.putD d m k v) = true := by
  unfold KMap.putD
  split
  · exact KMap.sorted_del m k h
  · exact KMap.sorted_put m k v h

/-- Changing the values keeps the keys rising. -/
theorem KMap.sorted_mapV {α β : Type} (f : Nat → α → β) (m : KMap α) (h : KMap.sorted m = true) :
    KMap.sorted (KMap.mapV f m) = true := by
  induction m with
  | nil => rfl
  | cons q m ih =>
    have hq := (KMap.sorted_cons q m).mp h
    show KMap.sorted ((q.1, f q.1 q.2) :: KMap.mapV f m) = true
    rw [KMap.sorted_cons]
    refine ⟨?_, ih hq.2⟩
    intro x hx
    obtain ⟨y, hy, rfl⟩ := List.mem_map.mp hx
    exact hq.1 y hy

@[simp] theorem KMap.get?_mapV {α β : Type} (f : Nat → α → β) (m : KMap α) (k : Nat) :
    (KMap.mapV f m).get? k = (m.get? k).map (f k) := by
  induction m with
  | nil => rfl
  | cons q m ih =>
    obtain ⟨j, w⟩ := q
    show KMap.get? ((j, f j w) :: KMap.mapV f m) k = _
    rw [KMap.get?_cons, KMap.get?_cons, ih]
    split
    · next h => subst h; rfl
    · rfl

/-- A fresh key is unused. -/
theorem KMap.lt_fresh {α : Type} (m : KMap α) (p : Nat × α) (h : p ∈ m) : p.1 < m.fresh := by
  have grow : ∀ (l : KMap α) (n : Nat), n ≤ l.foldl (fun n p => max n (p.1 + 1)) n := by
    intro l
    induction l with
    | nil => exact fun n => le_refl n
    | cons q l ih => exact fun n => le_trans (le_max_left _ _) (ih _)
  have main : ∀ (l : KMap α) (n : Nat), p ∈ l → p.1 < l.foldl (fun n p => max n (p.1 + 1)) n := by
    intro l
    induction l with
    | nil => intro n hp; cases hp
    | cons q l ih =>
      intro n hp
      rcases List.mem_cons.mp hp with rfl | hp
      · exact lt_of_lt_of_le (Nat.lt_succ_self p.1) (le_trans (le_max_right n (p.1 + 1)) (grow l _))
      · exact ih _ hp
  exact main m 0 h

/-! ### Byte memory -/

/-- The canonical form is rising keys and no listed zero. -/
theorem Mem.wf_iff (m : Mem) : Mem.wf m = true ↔ KMap.sorted m = true ∧ ∀ c ∈ m, c.2 ≠ 0 := by
  simp [Mem.wf, List.all_eq_true]

theorem Mem.wf_nil : Mem.wf [] = true := rfl

/-- Storing a byte keeps the canonical form. -/
theorem Mem.wf_setByte (m : Mem) (a : Nat) (b : Byte) (h : Mem.wf m = true) : Mem.wf (m.setByte a b) = true := by
  rw [Mem.wf_iff] at h ⊢
  refine ⟨KMap.sorted_putD 0 m a b h.1, ?_⟩
  intro c hc
  unfold Mem.setByte KMap.putD at hc
  split at hc
  · rw [KMap.del_eq_filter] at hc
    exact h.2 c (List.mem_filter.mp hc).1
  · next hb =>
    rcases KMap.mem_put hc with rfl | hc
    · exact hb
    · exact h.2 c hc

/-- Storing bytes keeps the canonical form. -/
theorem Mem.wf_setBytes (l : List Byte) (m : Mem) (a : Nat) (h : Mem.wf m = true) : Mem.wf (m.setBytes a l) = true := by
  induction l generalizing m a with
  | nil => exact h
  | cons b l ih => exact ih _ _ (Mem.wf_setByte m a b h)

theorem Mem.wf_setWord (m : Mem) (a : Nat) (w : W64) (h : Mem.wf m = true) : Mem.wf (m.setWord a w) = true :=
  Mem.wf_setBytes _ _ _ h

/-- A part of memory keeps the canonical form. -/
theorem Mem.wf_filter (m : Mem) (p : Host.Cell → Bool) (h : Mem.wf m = true) : Mem.wf (m.filter p) = true := by
  rw [Mem.wf_iff] at h ⊢
  exact ⟨KMap.sorted_filter m p h.1, fun c hc => h.2 c (List.mem_filter.mp hc).1⟩

/-- A byte just stored reads as it was stored. -/
@[simp] theorem Mem.byte_setByte_self (m : Mem) (a : Nat) (b : Byte) : (m.setByte a b).byte a = b := KMap.getD_putD_self 0 m a b

/-- Every other byte reads as before. -/
theorem Mem.byte_setByte_ne (m : Mem) (a x : Nat) (b : Byte) (h : x ≠ a) : (m.setByte a b).byte x = m.byte x :=
  KMap.getD_putD_ne 0 m a x b h

/-- A store of bytes leaves every byte outside them alone. -/
theorem Mem.byte_setBytes_out (l : List Byte) (m : Mem) (a x : Nat) (h : x < a ∨ a + l.length ≤ x) :
    (m.setBytes a l).byte x = m.byte x := by
  induction l generalizing m a with
  | nil => rfl
  | cons b l ih =>
    simp only [List.length_cons] at h
    show ((m.setByte a b).setBytes (a + 1) l).byte x = m.byte x
    rw [ih _ _ (by omega), Mem.byte_setByte_ne m a x b (by omega)]

/-- A store of bytes, read back. -/
theorem Mem.byte_setBytes_in (l : List Byte) (m : Mem) (a i : Nat) (h : i < l.length) :
    (m.setBytes a l).byte (a + i) = l[i] := by
  induction l generalizing m a i with
  | nil => cases h
  | cons b l ih =>
    show ((m.setByte a b).setBytes (a + 1) l).byte (a + i) = (b :: l)[i]
    cases i with
    | zero =>
      rw [Mem.byte_setBytes_out _ _ _ _ (by omega)]
      simp
    | succ i =>
      have := ih (m.setByte a b) (a + 1) i (by simpa using h)
      rw [show a + (i + 1) = a + 1 + i by omega, this]
      simp

@[simp] theorem Mem.length_bytes (m : Mem) (a n : Nat) : (m.bytes a n).length = n := by
  induction n generalizing a with
  | zero => rfl
  | succ n ih => simp [Mem.bytes, ih]

theorem Mem.getElem_bytes (m : Mem) (a n i : Nat) (h : i < (m.bytes a n).length) : (m.bytes a n)[i] = m.byte (a + i) := by
  induction n generalizing a i with
  | zero => simp at h
  | succ n ih =>
    cases i with
    | zero => rfl
    | succ i =>
      simp only [Mem.bytes, List.getElem_cons_succ]
      rw [ih]
      congr 1
      omega

@[simp] theorem length_leBytes (v n : Nat) : (leBytes v n).length = n := by
  induction n generalizing v with
  | zero => rfl
  | succ n ih => simp [leBytes, ih]

/-- Equal bytes at every address of two canonical memories make them equal. -/
theorem KMap.get?_eq_none_of_above {α : Type} (m : KMap α) (b : Nat) (h : KMap.above m b) : KMap.get? m b = none := by
  induction m with
  | nil => rfl
  | cons p m ih =>
    obtain ⟨j, w⟩ := p
    have := h (j, w) (by simp)
    rw [KMap.get?_cons, if_neg (by simp only at this; omega)]
    exact ih fun x hx => h x (List.mem_cons_of_mem _ hx)

end Sys2Proof.Machine
end

