-- ==== Sys2Proof/Laws/State.lean ====
section
/-! SUPPORT. What each plain update of the state leaves in each field: one lemma per field per update, each by rfl. -/

namespace Sys2Proof.Machine

/-! ### setCluster -/

@[simp] theorem State.setCluster_focus (s : State) (cl : Nat) (c : ClusterState) : (s.setCluster cl c).focus = s.focus := rfl
@[simp] theorem State.setCluster_blocks (s : State) (cl : Nat) (c : ClusterState) : (s.setCluster cl c).blocks = s.blocks := rfl
@[simp] theorem State.setCluster_clusters (s : State) (cl : Nat) (c : ClusterState) : (s.setCluster cl c).clusters = KMap.putD ClusterState.init s.clusters cl c := rfl
@[simp] theorem State.setCluster_cores (s : State) (cl : Nat) (c : ClusterState) : (s.setCluster cl c).cores = s.cores := rfl
@[simp] theorem State.setCluster_ms (s : State) (cl : Nat) (c : ClusterState) : (s.setCluster cl c).ms = s.ms := rfl
@[simp] theorem State.setCluster_ctxs (s : State) (cl : Nat) (c : ClusterState) : (s.setCluster cl c).ctxs = s.ctxs := rfl
@[simp] theorem State.setCluster_faultQ (s : State) (cl : Nat) (c : ClusterState) : (s.setCluster cl c).faultQ = s.faultQ := rfl
@[simp] theorem State.setCluster_invals (s : State) (cl : Nat) (c : ClusterState) : (s.setCluster cl c).invals = s.invals := rfl
@[simp] theorem State.setCluster_saved (s : State) (cl : Nat) (c : ClusterState) : (s.setCluster cl c).saved = s.saved := rfl
@[simp] theorem State.setCluster_qs (s : State) (cl : Nat) (c : ClusterState) : (s.setCluster cl c).qs = s.qs := rfl
@[simp] theorem State.setCluster_fifos (s : State) (cl : Nat) (c : ClusterState) : (s.setCluster cl c).fifos = s.fifos := rfl
@[simp] theorem State.setCluster_fab (s : State) (cl : Nat) (c : ClusterState) : (s.setCluster cl c).fab = s.fab := rfl
@[simp] theorem State.setCluster_ports (s : State) (cl : Nat) (c : ClusterState) : (s.setCluster cl c).ports = s.ports := rfl
@[simp] theorem State.setCluster_fw (s : State) (cl : Nat) (c : ClusterState) : (s.setCluster cl c).fw = s.fw := rfl
@[simp] theorem State.setCluster_power (s : State) (cl : Nat) (c : ClusterState) : (s.setCluster cl c).power = s.power := rfl
@[simp] theorem State.setCluster_inputs (s : State) (cl : Nat) (c : ClusterState) : (s.setCluster cl c).inputs = s.inputs := rfl
@[simp] theorem State.setCluster_tick (s : State) (cl : Nat) (c : ClusterState) : (s.setCluster cl c).tick = s.tick := rfl
@[simp] theorem State.setCluster_free (s : State) (cl : Nat) (c : ClusterState) : (s.setCluster cl c).free = s.free := rfl

/-! ### setCore -/

@[simp] theorem State.setCore_focus (s : State) (cl co : Nat) (c : CoreState) : (s.setCore cl co c).focus = s.focus := rfl
@[simp] theorem State.setCore_blocks (s : State) (cl co : Nat) (c : CoreState) : (s.setCore cl co c).blocks = s.blocks := rfl
@[simp] theorem State.setCore_clusters (s : State) (cl co : Nat) (c : CoreState) : (s.setCore cl co c).clusters = s.clusters := rfl
@[simp] theorem State.setCore_cores (s : State) (cl co : Nat) (c : CoreState) : (s.setCore cl co c).cores = KMap.putD CoreState.init s.cores (coreKey cl co) c := rfl
@[simp] theorem State.setCore_ms (s : State) (cl co : Nat) (c : CoreState) : (s.setCore cl co c).ms = s.ms := rfl
@[simp] theorem State.setCore_ctxs (s : State) (cl co : Nat) (c : CoreState) : (s.setCore cl co c).ctxs = s.ctxs := rfl
@[simp] theorem State.setCore_faultQ (s : State) (cl co : Nat) (c : CoreState) : (s.setCore cl co c).faultQ = s.faultQ := rfl
@[simp] theorem State.setCore_invals (s : State) (cl co : Nat) (c : CoreState) : (s.setCore cl co c).invals = s.invals := rfl
@[simp] theorem State.setCore_saved (s : State) (cl co : Nat) (c : CoreState) : (s.setCore cl co c).saved = s.saved := rfl
@[simp] theorem State.setCore_qs (s : State) (cl co : Nat) (c : CoreState) : (s.setCore cl co c).qs = s.qs := rfl
@[simp] theorem State.setCore_fifos (s : State) (cl co : Nat) (c : CoreState) : (s.setCore cl co c).fifos = s.fifos := rfl
@[simp] theorem State.setCore_fab (s : State) (cl co : Nat) (c : CoreState) : (s.setCore cl co c).fab = s.fab := rfl
@[simp] theorem State.setCore_ports (s : State) (cl co : Nat) (c : CoreState) : (s.setCore cl co c).ports = s.ports := rfl
@[simp] theorem State.setCore_fw (s : State) (cl co : Nat) (c : CoreState) : (s.setCore cl co c).fw = s.fw := rfl
@[simp] theorem State.setCore_power (s : State) (cl co : Nat) (c : CoreState) : (s.setCore cl co c).power = s.power := rfl
@[simp] theorem State.setCore_inputs (s : State) (cl co : Nat) (c : CoreState) : (s.setCore cl co c).inputs = s.inputs := rfl
@[simp] theorem State.setCore_tick (s : State) (cl co : Nat) (c : CoreState) : (s.setCore cl co c).tick = s.tick := rfl
@[simp] theorem State.setCore_free (s : State) (cl co : Nat) (c : CoreState) : (s.setCore cl co c).free = s.free := rfl

/-! ### setBlock -/

@[simp] theorem State.setBlock_focus (s : State) (id : Nat) (b : Block) : (s.setBlock id b).focus = s.focus := rfl
@[simp] theorem State.setBlock_blocks (s : State) (id : Nat) (b : Block) : (s.setBlock id b).blocks = s.blocks.put id b := rfl
@[simp] theorem State.setBlock_clusters (s : State) (id : Nat) (b : Block) : (s.setBlock id b).clusters = s.clusters := rfl
@[simp] theorem State.setBlock_cores (s : State) (id : Nat) (b : Block) : (s.setBlock id b).cores = s.cores := rfl
@[simp] theorem State.setBlock_ms (s : State) (id : Nat) (b : Block) : (s.setBlock id b).ms = s.ms := rfl
@[simp] theorem State.setBlock_ctxs (s : State) (id : Nat) (b : Block) : (s.setBlock id b).ctxs = s.ctxs := rfl
@[simp] theorem State.setBlock_faultQ (s : State) (id : Nat) (b : Block) : (s.setBlock id b).faultQ = s.faultQ := rfl
@[simp] theorem State.setBlock_invals (s : State) (id : Nat) (b : Block) : (s.setBlock id b).invals = s.invals := rfl
@[simp] theorem State.setBlock_saved (s : State) (id : Nat) (b : Block) : (s.setBlock id b).saved = s.saved := rfl
@[simp] theorem State.setBlock_qs (s : State) (id : Nat) (b : Block) : (s.setBlock id b).qs = s.qs := rfl
@[simp] theorem State.setBlock_fifos (s : State) (id : Nat) (b : Block) : (s.setBlock id b).fifos = s.fifos := rfl
@[simp] theorem State.setBlock_fab (s : State) (id : Nat) (b : Block) : (s.setBlock id b).fab = s.fab := rfl
@[simp] theorem State.setBlock_ports (s : State) (id : Nat) (b : Block) : (s.setBlock id b).ports = s.ports := rfl
@[simp] theorem State.setBlock_fw (s : State) (id : Nat) (b : Block) : (s.setBlock id b).fw = s.fw := rfl
@[simp] theorem State.setBlock_power (s : State) (id : Nat) (b : Block) : (s.setBlock id b).power = s.power := rfl
@[simp] theorem State.setBlock_inputs (s : State) (id : Nat) (b : Block) : (s.setBlock id b).inputs = s.inputs := rfl
@[simp] theorem State.setBlock_tick (s : State) (id : Nat) (b : Block) : (s.setBlock id b).tick = s.tick := rfl
@[simp] theorem State.setBlock_free (s : State) (id : Nat) (b : Block) : (s.setBlock id b).free = s.free := rfl

/-! ### putSt -/

@[simp] theorem State.putSt_focus (s : State) (q : Cur) (st : BlkState) : (s.putSt q st).focus = s.focus := rfl
@[simp] theorem State.putSt_blocks (s : State) (q : Cur) (st : BlkState) : (s.putSt q st).blocks = s.blocks.put q.id { q.blk with st := st } := rfl
@[simp] theorem State.putSt_clusters (s : State) (q : Cur) (st : BlkState) : (s.putSt q st).clusters = s.clusters := rfl
@[simp] theorem State.putSt_cores (s : State) (q : Cur) (st : BlkState) : (s.putSt q st).cores = s.cores := rfl
@[simp] theorem State.putSt_ms (s : State) (q : Cur) (st : BlkState) : (s.putSt q st).ms = s.ms := rfl
@[simp] theorem State.putSt_ctxs (s : State) (q : Cur) (st : BlkState) : (s.putSt q st).ctxs = s.ctxs := rfl
@[simp] theorem State.putSt_faultQ (s : State) (q : Cur) (st : BlkState) : (s.putSt q st).faultQ = s.faultQ := rfl
@[simp] theorem State.putSt_invals (s : State) (q : Cur) (st : BlkState) : (s.putSt q st).invals = s.invals := rfl
@[simp] theorem State.putSt_saved (s : State) (q : Cur) (st : BlkState) : (s.putSt q st).saved = s.saved := rfl
@[simp] theorem State.putSt_qs (s : State) (q : Cur) (st : BlkState) : (s.putSt q st).qs = s.qs := rfl
@[simp] theorem State.putSt_fifos (s : State) (q : Cur) (st : BlkState) : (s.putSt q st).fifos = s.fifos := rfl
@[simp] theorem State.putSt_fab (s : State) (q : Cur) (st : BlkState) : (s.putSt q st).fab = s.fab := rfl
@[simp] theorem State.putSt_ports (s : State) (q : Cur) (st : BlkState) : (s.putSt q st).ports = s.ports := rfl
@[simp] theorem State.putSt_fw (s : State) (q : Cur) (st : BlkState) : (s.putSt q st).fw = s.fw := rfl
@[simp] theorem State.putSt_power (s : State) (q : Cur) (st : BlkState) : (s.putSt q st).power = s.power := rfl
@[simp] theorem State.putSt_inputs (s : State) (q : Cur) (st : BlkState) : (s.putSt q st).inputs = s.inputs := rfl
@[simp] theorem State.putSt_tick (s : State) (q : Cur) (st : BlkState) : (s.putSt q st).tick = s.tick := rfl
@[simp] theorem State.putSt_free (s : State) (q : Cur) (st : BlkState) : (s.putSt q st).free = s.free := rfl

/-! ### putGrp -/

@[simp] theorem State.putGrp_focus (s : State) (q : Cur) (g : Group) : (s.putGrp q g).focus = s.focus := rfl
@[simp] theorem State.putGrp_blocks (s : State) (q : Cur) (g : Group) : (s.putGrp q g).blocks = s.blocks.put q.id { q.blk with st := q.blk.st.setGroup q.gi g } := rfl
@[simp] theorem State.putGrp_clusters (s : State) (q : Cur) (g : Group) : (s.putGrp q g).clusters = s.clusters := rfl
@[simp] theorem State.putGrp_cores (s : State) (q : Cur) (g : Group) : (s.putGrp q g).cores = s.cores := rfl
@[simp] theorem State.putGrp_ms (s : State) (q : Cur) (g : Group) : (s.putGrp q g).ms = s.ms := rfl
@[simp] theorem State.putGrp_ctxs (s : State) (q : Cur) (g : Group) : (s.putGrp q g).ctxs = s.ctxs := rfl
@[simp] theorem State.putGrp_faultQ (s : State) (q : Cur) (g : Group) : (s.putGrp q g).faultQ = s.faultQ := rfl
@[simp] theorem State.putGrp_invals (s : State) (q : Cur) (g : Group) : (s.putGrp q g).invals = s.invals := rfl
@[simp] theorem State.putGrp_saved (s : State) (q : Cur) (g : Group) : (s.putGrp q g).saved = s.saved := rfl
@[simp] theorem State.putGrp_qs (s : State) (q : Cur) (g : Group) : (s.putGrp q g).qs = s.qs := rfl
@[simp] theorem State.putGrp_fifos (s : State) (q : Cur) (g : Group) : (s.putGrp q g).fifos = s.fifos := rfl
@[simp] theorem State.putGrp_fab (s : State) (q : Cur) (g : Group) : (s.putGrp q g).fab = s.fab := rfl
@[simp] theorem State.putGrp_ports (s : State) (q : Cur) (g : Group) : (s.putGrp q g).ports = s.ports := rfl
@[simp] theorem State.putGrp_fw (s : State) (q : Cur) (g : Group) : (s.putGrp q g).fw = s.fw := rfl
@[simp] theorem State.putGrp_power (s : State) (q : Cur) (g : Group) : (s.putGrp q g).power = s.power := rfl
@[simp] theorem State.putGrp_inputs (s : State) (q : Cur) (g : Group) : (s.putGrp q g).inputs = s.inputs := rfl
@[simp] theorem State.putGrp_tick (s : State) (q : Cur) (g : Group) : (s.putGrp q g).tick = s.tick := rfl
@[simp] theorem State.putGrp_free (s : State) (q : Cur) (g : Group) : (s.putGrp q g).free = s.free := rfl

/-! ### finish -/

@[simp] theorem State.finish_focus (s : State) (q : Cur) (st : BlkState) (g : Group) : (s.finish q st g).focus = s.focus := rfl
@[simp] theorem State.finish_blocks (s : State) (q : Cur) (st : BlkState) (g : Group) : (s.finish q st g).blocks = s.blocks.put q.id { q.blk with st := st.setGroup q.gi (settle st (g.advance q.slot)) } := rfl
@[simp] theorem State.finish_clusters (s : State) (q : Cur) (st : BlkState) (g : Group) : (s.finish q st g).clusters = s.clusters := rfl
@[simp] theorem State.finish_cores (s : State) (q : Cur) (st : BlkState) (g : Group) : (s.finish q st g).cores = s.cores := rfl
@[simp] theorem State.finish_ms (s : State) (q : Cur) (st : BlkState) (g : Group) : (s.finish q st g).ms = s.ms := rfl
@[simp] theorem State.finish_ctxs (s : State) (q : Cur) (st : BlkState) (g : Group) : (s.finish q st g).ctxs = s.ctxs := rfl
@[simp] theorem State.finish_faultQ (s : State) (q : Cur) (st : BlkState) (g : Group) : (s.finish q st g).faultQ = s.faultQ := rfl
@[simp] theorem State.finish_invals (s : State) (q : Cur) (st : BlkState) (g : Group) : (s.finish q st g).invals = s.invals := rfl
@[simp] theorem State.finish_saved (s : State) (q : Cur) (st : BlkState) (g : Group) : (s.finish q st g).saved = s.saved := rfl
@[simp] theorem State.finish_qs (s : State) (q : Cur) (st : BlkState) (g : Group) : (s.finish q st g).qs = s.qs := rfl
@[simp] theorem State.finish_fifos (s : State) (q : Cur) (st : BlkState) (g : Group) : (s.finish q st g).fifos = s.fifos := rfl
@[simp] theorem State.finish_fab (s : State) (q : Cur) (st : BlkState) (g : Group) : (s.finish q st g).fab = s.fab := rfl
@[simp] theorem State.finish_ports (s : State) (q : Cur) (st : BlkState) (g : Group) : (s.finish q st g).ports = s.ports := rfl
@[simp] theorem State.finish_fw (s : State) (q : Cur) (st : BlkState) (g : Group) : (s.finish q st g).fw = s.fw := rfl
@[simp] theorem State.finish_power (s : State) (q : Cur) (st : BlkState) (g : Group) : (s.finish q st g).power = s.power := rfl
@[simp] theorem State.finish_inputs (s : State) (q : Cur) (st : BlkState) (g : Group) : (s.finish q st g).inputs = s.inputs := rfl
@[simp] theorem State.finish_tick (s : State) (q : Cur) (st : BlkState) (g : Group) : (s.finish q st g).tick = s.tick := rfl
@[simp] theorem State.finish_free (s : State) (q : Cur) (st : BlkState) (g : Group) : (s.finish q st g).free = s.free := rfl

/-! ### post -/

@[simp] theorem State.post_focus (s : State) (e : HostEvent) : (s.post e).focus = s.focus := rfl
@[simp] theorem State.post_blocks (s : State) (e : HostEvent) : (s.post e).blocks = s.blocks := rfl
@[simp] theorem State.post_clusters (s : State) (e : HostEvent) : (s.post e).clusters = s.clusters := rfl
@[simp] theorem State.post_cores (s : State) (e : HostEvent) : (s.post e).cores = s.cores := rfl
@[simp] theorem State.post_ms (s : State) (e : HostEvent) : (s.post e).ms = s.ms := rfl
@[simp] theorem State.post_ctxs (s : State) (e : HostEvent) : (s.post e).ctxs = s.ctxs := rfl
@[simp] theorem State.post_faultQ (s : State) (e : HostEvent) : (s.post e).faultQ = s.faultQ := rfl
@[simp] theorem State.post_invals (s : State) (e : HostEvent) : (s.post e).invals = s.invals := rfl
@[simp] theorem State.post_saved (s : State) (e : HostEvent) : (s.post e).saved = s.saved := rfl
@[simp] theorem State.post_qs (s : State) (e : HostEvent) : (s.post e).qs = { s.qs with hostEvents := s.qs.hostEvents ++ [e] } := rfl
@[simp] theorem State.post_fifos (s : State) (e : HostEvent) : (s.post e).fifos = s.fifos := rfl
@[simp] theorem State.post_fab (s : State) (e : HostEvent) : (s.post e).fab = s.fab := rfl
@[simp] theorem State.post_ports (s : State) (e : HostEvent) : (s.post e).ports = s.ports := rfl
@[simp] theorem State.post_fw (s : State) (e : HostEvent) : (s.post e).fw = s.fw := rfl
@[simp] theorem State.post_power (s : State) (e : HostEvent) : (s.post e).power = s.power := rfl
@[simp] theorem State.post_inputs (s : State) (e : HostEvent) : (s.post e).inputs = s.inputs := rfl
@[simp] theorem State.post_tick (s : State) (e : HostEvent) : (s.post e).tick = s.tick := rfl
@[simp] theorem State.post_free (s : State) (e : HostEvent) : (s.post e).free = s.free := rfl

/-! ### waitSlot -/

@[simp] theorem State.waitSlot_focus (s : State) (q : Cur) (w : SWait) : (s.waitSlot q w).focus = s.focus := rfl
@[simp] theorem State.waitSlot_clusters (s : State) (q : Cur) (w : SWait) : (s.waitSlot q w).clusters = s.clusters := rfl
@[simp] theorem State.waitSlot_cores (s : State) (q : Cur) (w : SWait) : (s.waitSlot q w).cores = s.cores := rfl
@[simp] theorem State.waitSlot_ms (s : State) (q : Cur) (w : SWait) : (s.waitSlot q w).ms = s.ms := rfl
@[simp] theorem State.waitSlot_ctxs (s : State) (q : Cur) (w : SWait) : (s.waitSlot q w).ctxs = s.ctxs := rfl
@[simp] theorem State.waitSlot_faultQ (s : State) (q : Cur) (w : SWait) : (s.waitSlot q w).faultQ = s.faultQ := rfl
@[simp] theorem State.waitSlot_invals (s : State) (q : Cur) (w : SWait) : (s.waitSlot q w).invals = s.invals := rfl
@[simp] theorem State.waitSlot_saved (s : State) (q : Cur) (w : SWait) : (s.waitSlot q w).saved = s.saved := rfl
@[simp] theorem State.waitSlot_qs (s : State) (q : Cur) (w : SWait) : (s.waitSlot q w).qs = s.qs := rfl
@[simp] theorem State.waitSlot_fifos (s : State) (q : Cur) (w : SWait) : (s.waitSlot q w).fifos = s.fifos := rfl
@[simp] theorem State.waitSlot_fab (s : State) (q : Cur) (w : SWait) : (s.waitSlot q w).fab = s.fab := rfl
@[simp] theorem State.waitSlot_ports (s : State) (q : Cur) (w : SWait) : (s.waitSlot q w).ports = s.ports := rfl
@[simp] theorem State.waitSlot_fw (s : State) (q : Cur) (w : SWait) : (s.waitSlot q w).fw = s.fw := rfl
@[simp] theorem State.waitSlot_power (s : State) (q : Cur) (w : SWait) : (s.waitSlot q w).power = s.power := rfl
@[simp] theorem State.waitSlot_inputs (s : State) (q : Cur) (w : SWait) : (s.waitSlot q w).inputs = s.inputs := rfl
@[simp] theorem State.waitSlot_tick (s : State) (q : Cur) (w : SWait) : (s.waitSlot q w).tick = s.tick := rfl
@[simp] theorem State.waitSlot_free (s : State) (q : Cur) (w : SWait) : (s.waitSlot q w).free = s.free := rfl

/-! ### countCore -/

@[simp] theorem State.countCore_focus (s : State) (cl co asid : Nat) (f : CorePerf → CorePerf) : (s.countCore cl co asid f).focus = s.focus := rfl
@[simp] theorem State.countCore_blocks (s : State) (cl co asid : Nat) (f : CorePerf → CorePerf) : (s.countCore cl co asid f).blocks = s.blocks := rfl
@[simp] theorem State.countCore_clusters (s : State) (cl co asid : Nat) (f : CorePerf → CorePerf) : (s.countCore cl co asid f).clusters = s.clusters := rfl
@[simp] theorem State.countCore_ms (s : State) (cl co asid : Nat) (f : CorePerf → CorePerf) : (s.countCore cl co asid f).ms = s.ms := rfl
@[simp] theorem State.countCore_ctxs (s : State) (cl co asid : Nat) (f : CorePerf → CorePerf) : (s.countCore cl co asid f).ctxs = s.ctxs := rfl
@[simp] theorem State.countCore_faultQ (s : State) (cl co asid : Nat) (f : CorePerf → CorePerf) : (s.countCore cl co asid f).faultQ = s.faultQ := rfl
@[simp] theorem State.countCore_invals (s : State) (cl co asid : Nat) (f : CorePerf → CorePerf) : (s.countCore cl co asid f).invals = s.invals := rfl
@[simp] theorem State.countCore_saved (s : State) (cl co asid : Nat) (f : CorePerf → CorePerf) : (s.countCore cl co asid f).saved = s.saved := rfl
@[simp] theorem State.countCore_qs (s : State) (cl co asid : Nat) (f : CorePerf → CorePerf) : (s.countCore cl co asid f).qs = s.qs := rfl
@[simp] theorem State.countCore_fifos (s : State) (cl co asid : Nat) (f : CorePerf → CorePerf) : (s.countCore cl co asid f).fifos = s.fifos := rfl
@[simp] theorem State.countCore_fab (s : State) (cl co asid : Nat) (f : CorePerf → CorePerf) : (s.countCore cl co asid f).fab = s.fab := rfl
@[simp] theorem State.countCore_ports (s : State) (cl co asid : Nat) (f : CorePerf → CorePerf) : (s.countCore cl co asid f).ports = s.ports := rfl
@[simp] theorem State.countCore_fw (s : State) (cl co asid : Nat) (f : CorePerf → CorePerf) : (s.countCore cl co asid f).fw = s.fw := rfl
@[simp] theorem State.countCore_power (s : State) (cl co asid : Nat) (f : CorePerf → CorePerf) : (s.countCore cl co asid f).power = s.power := rfl
@[simp] theorem State.countCore_inputs (s : State) (cl co asid : Nat) (f : CorePerf → CorePerf) : (s.countCore cl co asid f).inputs = s.inputs := rfl
@[simp] theorem State.countCore_tick (s : State) (cl co asid : Nat) (f : CorePerf → CorePerf) : (s.countCore cl co asid f).tick = s.tick := rfl
@[simp] theorem State.countCore_free (s : State) (cl co asid : Nat) (f : CorePerf → CorePerf) : (s.countCore cl co asid f).free = s.free := rfl

/-! ### rewait -/

@[simp] theorem State.rewait_focus (s : State) (p : Nat → Block → Nat → Bool) (f : SWait → SWait) : (s.rewait p f).focus = s.focus := rfl
@[simp] theorem State.rewait_clusters (s : State) (p : Nat → Block → Nat → Bool) (f : SWait → SWait) : (s.rewait p f).clusters = s.clusters := rfl
@[simp] theorem State.rewait_cores (s : State) (p : Nat → Block → Nat → Bool) (f : SWait → SWait) : (s.rewait p f).cores = s.cores := rfl
@[simp] theorem State.rewait_ms (s : State) (p : Nat → Block → Nat → Bool) (f : SWait → SWait) : (s.rewait p f).ms = s.ms := rfl
@[simp] theorem State.rewait_ctxs (s : State) (p : Nat → Block → Nat → Bool) (f : SWait → SWait) : (s.rewait p f).ctxs = s.ctxs := rfl
@[simp] theorem State.rewait_faultQ (s : State) (p : Nat → Block → Nat → Bool) (f : SWait → SWait) : (s.rewait p f).faultQ = s.faultQ := rfl
@[simp] theorem State.rewait_invals (s : State) (p : Nat → Block → Nat → Bool) (f : SWait → SWait) : (s.rewait p f).invals = s.invals := rfl
@[simp] theorem State.rewait_saved (s : State) (p : Nat → Block → Nat → Bool) (f : SWait → SWait) : (s.rewait p f).saved = s.saved := rfl
@[simp] theorem State.rewait_qs (s : State) (p : Nat → Block → Nat → Bool) (f : SWait → SWait) : (s.rewait p f).qs = s.qs := rfl
@[simp] theorem State.rewait_fifos (s : State) (p : Nat → Block → Nat → Bool) (f : SWait → SWait) : (s.rewait p f).fifos = s.fifos := rfl
@[simp] theorem State.rewait_fab (s : State) (p : Nat → Block → Nat → Bool) (f : SWait → SWait) : (s.rewait p f).fab = s.fab := rfl
@[simp] theorem State.rewait_ports (s : State) (p : Nat → Block → Nat → Bool) (f : SWait → SWait) : (s.rewait p f).ports = s.ports := rfl
@[simp] theorem State.rewait_fw (s : State) (p : Nat → Block → Nat → Bool) (f : SWait → SWait) : (s.rewait p f).fw = s.fw := rfl
@[simp] theorem State.rewait_power (s : State) (p : Nat → Block → Nat → Bool) (f : SWait → SWait) : (s.rewait p f).power = s.power := rfl
@[simp] theorem State.rewait_inputs (s : State) (p : Nat → Block → Nat → Bool) (f : SWait → SWait) : (s.rewait p f).inputs = s.inputs := rfl
@[simp] theorem State.rewait_tick (s : State) (p : Nat → Block → Nat → Bool) (f : SWait → SWait) : (s.rewait p f).tick = s.tick := rfl
@[simp] theorem State.rewait_free (s : State) (p : Nat → Block → Nat → Bool) (f : SWait → SWait) : (s.rewait p f).free = s.free := rfl

/-! ### wakeBlk -/

@[simp] theorem State.wakeBlk_focus (s : State) (id : Nat) (p : SWait → Bool) : (s.wakeBlk id p).focus = s.focus := rfl
@[simp] theorem State.wakeBlk_clusters (s : State) (id : Nat) (p : SWait → Bool) : (s.wakeBlk id p).clusters = s.clusters := rfl
@[simp] theorem State.wakeBlk_cores (s : State) (id : Nat) (p : SWait → Bool) : (s.wakeBlk id p).cores = s.cores := rfl
@[simp] theorem State.wakeBlk_ms (s : State) (id : Nat) (p : SWait → Bool) : (s.wakeBlk id p).ms = s.ms := rfl
@[simp] theorem State.wakeBlk_ctxs (s : State) (id : Nat) (p : SWait → Bool) : (s.wakeBlk id p).ctxs = s.ctxs := rfl
@[simp] theorem State.wakeBlk_faultQ (s : State) (id : Nat) (p : SWait → Bool) : (s.wakeBlk id p).faultQ = s.faultQ := rfl
@[simp] theorem State.wakeBlk_invals (s : State) (id : Nat) (p : SWait → Bool) : (s.wakeBlk id p).invals = s.invals := rfl
@[simp] theorem State.wakeBlk_saved (s : State) (id : Nat) (p : SWait → Bool) : (s.wakeBlk id p).saved = s.saved := rfl
@[simp] theorem State.wakeBlk_qs (s : State) (id : Nat) (p : SWait → Bool) : (s.wakeBlk id p).qs = s.qs := rfl
@[simp] theorem State.wakeBlk_fifos (s : State) (id : Nat) (p : SWait → Bool) : (s.wakeBlk id p).fifos = s.fifos := rfl
@[simp] theorem State.wakeBlk_fab (s : State) (id : Nat) (p : SWait → Bool) : (s.wakeBlk id p).fab = s.fab := rfl
@[simp] theorem State.wakeBlk_ports (s : State) (id : Nat) (p : SWait → Bool) : (s.wakeBlk id p).ports = s.ports := rfl
@[simp] theorem State.wakeBlk_fw (s : State) (id : Nat) (p : SWait → Bool) : (s.wakeBlk id p).fw = s.fw := rfl
@[simp] theorem State.wakeBlk_power (s : State) (id : Nat) (p : SWait → Bool) : (s.wakeBlk id p).power = s.power := rfl
@[simp] theorem State.wakeBlk_inputs (s : State) (id : Nat) (p : SWait → Bool) : (s.wakeBlk id p).inputs = s.inputs := rfl
@[simp] theorem State.wakeBlk_tick (s : State) (id : Nat) (p : SWait → Bool) : (s.wakeBlk id p).tick = s.tick := rfl
@[simp] theorem State.wakeBlk_free (s : State) (id : Nat) (p : SWait → Bool) : (s.wakeBlk id p).free = s.free := rfl

/-! ### ticked -/

@[simp] theorem State.ticked_focus (s : State) : (s.ticked).focus = s.focus := rfl
@[simp] theorem State.ticked_blocks (s : State) : (s.ticked).blocks = s.blocks := rfl
@[simp] theorem State.ticked_clusters (s : State) : (s.ticked).clusters = s.clusters := rfl
@[simp] theorem State.ticked_cores (s : State) : (s.ticked).cores = s.cores := rfl
@[simp] theorem State.ticked_ms (s : State) : (s.ticked).ms = s.ms := rfl
@[simp] theorem State.ticked_ctxs (s : State) : (s.ticked).ctxs = s.ctxs := rfl
@[simp] theorem State.ticked_faultQ (s : State) : (s.ticked).faultQ = s.faultQ := rfl
@[simp] theorem State.ticked_invals (s : State) : (s.ticked).invals = s.invals := rfl
@[simp] theorem State.ticked_saved (s : State) : (s.ticked).saved = s.saved := rfl
@[simp] theorem State.ticked_qs (s : State) : (s.ticked).qs = s.qs := rfl
@[simp] theorem State.ticked_fifos (s : State) : (s.ticked).fifos = s.fifos := rfl
@[simp] theorem State.ticked_fab (s : State) : (s.ticked).fab = s.fab := rfl
@[simp] theorem State.ticked_ports (s : State) : (s.ticked).ports = s.ports := rfl
@[simp] theorem State.ticked_fw (s : State) : (s.ticked).fw = s.fw := rfl
@[simp] theorem State.ticked_power (s : State) : (s.ticked).power = s.power := rfl
@[simp] theorem State.ticked_inputs (s : State) : (s.ticked).inputs = s.inputs := rfl
@[simp] theorem State.ticked_tick (s : State) : (s.ticked).tick = s.tick + 1 := rfl
@[simp] theorem State.ticked_free (s : State) : (s.ticked).free = s.free := rfl

/-! ### dropInput -/

@[simp] theorem State.dropInput_focus (s : State) : (s.dropInput).focus = s.focus := rfl
@[simp] theorem State.dropInput_blocks (s : State) : (s.dropInput).blocks = s.blocks := rfl
@[simp] theorem State.dropInput_clusters (s : State) : (s.dropInput).clusters = s.clusters := rfl
@[simp] theorem State.dropInput_cores (s : State) : (s.dropInput).cores = s.cores := rfl
@[simp] theorem State.dropInput_ms (s : State) : (s.dropInput).ms = s.ms := rfl
@[simp] theorem State.dropInput_ctxs (s : State) : (s.dropInput).ctxs = s.ctxs := rfl
@[simp] theorem State.dropInput_faultQ (s : State) : (s.dropInput).faultQ = s.faultQ := rfl
@[simp] theorem State.dropInput_invals (s : State) : (s.dropInput).invals = s.invals := rfl
@[simp] theorem State.dropInput_saved (s : State) : (s.dropInput).saved = s.saved := rfl
@[simp] theorem State.dropInput_qs (s : State) : (s.dropInput).qs = s.qs := rfl
@[simp] theorem State.dropInput_fifos (s : State) : (s.dropInput).fifos = s.fifos := rfl
@[simp] theorem State.dropInput_fab (s : State) : (s.dropInput).fab = s.fab := rfl
@[simp] theorem State.dropInput_ports (s : State) : (s.dropInput).ports = s.ports := rfl
@[simp] theorem State.dropInput_fw (s : State) : (s.dropInput).fw = s.fw := rfl
@[simp] theorem State.dropInput_power (s : State) : (s.dropInput).power = s.power := rfl
@[simp] theorem State.dropInput_inputs (s : State) : (s.dropInput).inputs = s.inputs.tail := rfl
@[simp] theorem State.dropInput_tick (s : State) : (s.dropInput).tick = s.tick := rfl
@[simp] theorem State.dropInput_free (s : State) : (s.dropInput).free = s.free := rfl

end Sys2Proof.Machine
end

