-- ==== Sys2Proof/Laws/Cur.lean ====
section
/-! SUPPORT. Laws of what issues: the block and the group in focus, after changes of them. -/

namespace Sys2Proof.Machine

/-- The later of two values stands. -/
theorem KMap.put_put {α : Type} (m : KMap α) (k : Nat) (v w : α) : (m.put k v).put k w = m.put k w := by
  induction m with
  | nil => simp [KMap.put_nil, KMap.put_cons]
  | cons p m ih =>
    obtain ⟨j, x⟩ := p
    rw [KMap.put_cons, KMap.put_cons]
    split
    · rw [KMap.put_cons]; simp
    · split
      · rw [KMap.put_cons]; simp
      · rw [KMap.put_cons, ih]; simp_all

/-- What issues is in focus, and is the group that the state holds. -/
theorem cur_spec {s : State} {q : Cur} (h : s.cur? = some q) : s.focus = some ⟨q.id, q.gi, q.slot⟩ ∧ s.blocks.get? q.id = some q.blk ∧ q.blk.st.groups[q.gi]? = some q.grp := by
  unfold State.cur? at h
  cases hf : s.focus with
  | none => rw [hf] at h; cases h
  | some f =>
    rw [hf] at h
    simp only [Option.bind_some, State.curOf] at h
    cases hb : s.blocks.get? f.blk with
    | none => rw [hb] at h; cases h
    | some b =>
      rw [hb] at h
      simp only [Option.bind_some] at h
      cases hg : b.st.groups[f.grp]? with
      | none => rw [hg] at h; cases h
      | some g =>
        rw [hg] at h
        cases h
        exact ⟨rfl, hb, hg⟩

/-- What issues after the block of the group changed. -/
theorem cur_putSt {s : State} {q : Cur} (h : s.cur? = some q) (st : BlkState) (g : Group) (hg : st.groups[q.gi]? = some g) : 
   (s.putSt q st).cur? = some { q with blk := { q.blk with st := st }, grp := g } := by
  obtain ⟨h1, h2, h3⟩ := cur_spec h
  unfold State.cur?
  rw [State.putSt_focus, h1]
  simp only [Option.bind_some, State.curOf, State.putSt_blocks, KMap.get?_put_self, hg, Option.map_some]

/-- What issues after its group changed. -/
theorem cur_putGrp {s : State} {q : Cur} (h : s.cur? = some q) (g : Group) : 
   (s.putGrp q g).cur? = some { q with blk := { q.blk with st := q.blk.st.setGroup q.gi g }, grp := g } := by
  obtain ⟨h1, h2, h3⟩ := cur_spec h
  refine cur_putSt h _ _ ?_
  have : q.gi < q.blk.st.groups.length := by
    by_contra hc
    rw [List.getElem?_eq_none (by omega)] at h3; cases h3
  show (q.blk.st.groups.set q.gi g)[q.gi]? = some g
  simp [this]

/-- The later of two changes of a block stands. -/
theorem putSt_putSt (s : State) (q : Cur) (a b : BlkState) (q' : Cur) (h1 : q'.id = q.id) (h2 : q'.blk = { q.blk with st := a}) : (s.putSt q a).putSt q' b = s.putSt q b := by
  unfold State.putSt State.setBlock
  rw [h1, h2]
  simp only [KMap.put_put]

end Sys2Proof.Machine
end

