-- ==== Sys2Proof/Laws/Elems.lean ====
section
/-! SUPPORT. Laws of sub-elements: what a register packed from sub-elements holds, and what a function on every sub-element
leaves in each. -/

namespace Sys2Proof.Machine

/-- A bit of an OR of shifted fields. -/
theorem getLsbD_orFold (w n : Nat) (f : Nat → BitVec w) (l : List Nat) (a : W64) :
    (l.foldl (fun acc i => acc ||| ((f i).setWidth 64 <<< (w * i))) a).getLsbD n =
      (a.getLsbD n || l.any fun i => (((f i).setWidth 64 : W64) <<< (w * i)).getLsbD n) := by
  induction l generalizing a with
  | nil => simp
  | cons i l ih => rw [List.foldl_cons, ih, BitVec.getLsbD_or, List.any_cons, Bool.or_assoc]

/-- A bit of a packed register is the bit of the sub-element that it lies in. -/
theorem getLsbD_pack (w n : Nat) (hw : 0 < w) (hd : w ∣ 64) (hn : n < 64) (f : Nat → BitVec w) :
    (pack w f).getLsbD n = (f (n / w)).getLsbD (n % w) := by
  obtain ⟨m, hm⟩ := hd
  have hdiv : 64 / w = m := by rw [hm]; exact Nat.mul_div_cancel_left m hw
  have hlt : n / w < m := by
    rw [Nat.div_lt_iff_lt_mul hw, Nat.mul_comm]
    omega
  unfold pack
  rw [getLsbD_orFold, hdiv]
  have h0 : (0 : W64).getLsbD n = false := by simp
  rw [h0, Bool.false_or]
  have key : ∀ i, (((f i).setWidth 64 : W64) <<< (w * i)).getLsbD n = (decide (i = n / w) && (f i).getLsbD (n % w)) := by
    intro i
    rw [BitVec.getLsbD_shiftLeft, BitVec.getLsbD_setWidth]
    have hmod := Nat.mod_add_div n w
    have hml := Nat.mod_lt n hw
    by_cases e : i = n / w
    · subst e
      have h1 : ¬ n < w * (n / w) := by omega
      have h2 : n - w * (n / w) = n % w := by omega
      have h3 : n % w < 64 := by omega
      simp [h1, h2, h3, hn]
    · have hx : n < w * i ∨ w ≤ n - w * i := by
        rcases Nat.lt_or_gt_of_ne e with h | h
        · right
          have : w * (i + 1) ≤ w * (n / w) := Nat.mul_le_mul_left w h
          rw [Nat.mul_add, Nat.mul_one] at this
          omega
        · left
          have : w * (n / w + 1) ≤ w * i := Nat.mul_le_mul_left w h
          rw [Nat.mul_add, Nat.mul_one] at this
          omega
      rcases hx with h | h
      · simp [e, h]
      · simp [e, BitVec.getLsbD_of_ge (f i) _ h]
  rw [Bool.eq_iff_iff, List.any_eq_true]
  constructor
  · rintro ⟨i, -, hi⟩
    rw [key, Bool.and_eq_true, decide_eq_true_eq] at hi
    exact hi.1 ▸ hi.2
  · intro h
    refine ⟨n / w, List.mem_range.mpr hlt, ?_⟩
    rw [key]
    simp [h]

/-- A sub-element of a packed register. -/
theorem sub_pack (w i : Nat) (hd : w ∣ 64) (hi : i < 64 / w) (f : Nat → BitVec w) : sub w i (pack w f) = f i := by
  have hw : 0 < w := by
    rcases Nat.eq_zero_or_pos w with h | h
    · subst h; simp at hi
    · exact h
  have hb : w * (i + 1) ≤ 64 := by
    have := Nat.mul_le_mul_left w (Nat.succ_le_of_lt hi)
    exact le_trans this (Nat.mul_div_le 64 w)
  rw [Nat.mul_add, Nat.mul_one] at hb
  apply BitVec.eq_of_getLsbD_eq
  intro n hn
  have hn' : w * i + n < 64 := by omega
  have h1 : (w * i + n) / w = i := by
    rw [Nat.mul_add_div hw, Nat.div_eq_of_lt hn, Nat.add_zero]
  have h2 : (w * i + n) % w = n := by
    rw [Nat.mul_add_mod, Nat.mod_eq_of_lt hn]
  unfold sub
  rw [BitVec.getLsbD_extractLsb', getLsbD_pack w _ hw hd hn', h1, h2]
  simp [hn]

/-- The width of an integer TYPE divides a register. -/
theorem itype_width_dvd (t : IType) : t.width ∣ 64 := by cases t <;> decide

theorem itype_width_pos (t : IType) : 0 < t.width := by cases t <;> decide

/-- The width of a float TYPE divides a register. -/
theorem ffmt_width_dvd (f : FFmt) : f.width ∣ 64 := by cases f <;> decide

/-- What a function of two operands leaves in a sub-element. -/
theorem sub_map2 (w i : Nat) (hd : w ∣ 64) (hi : i < 64 / w) (f : BitVec w → BitVec w → BitVec w) (a b : W64) :
    sub w i (map2 w f a b) = f (sub w i a) (sub w i b) := sub_pack w i hd hi _

/-- What a function of one operand leaves in a sub-element. -/
theorem sub_map1 (w i : Nat) (hd : w ∣ 64) (hi : i < 64 / w) (f : BitVec w → BitVec w) (a : W64) :
    sub w i (map1 w f a) = f (sub w i a) := sub_pack w i hd hi _

/-- What a function of three operands leaves in a sub-element. -/
theorem sub_map3 (w i : Nat) (hd : w ∣ 64) (hi : i < 64 / w) (f : BitVec w → BitVec w → BitVec w → BitVec w) (a b c : W64) :
    sub w i (map3 w f a b c) = f (sub w i a) (sub w i b) (sub w i c) := sub_pack w i hd hi _

/-- Registers with the same sub-elements are equal. -/
theorem eq_of_sub (w : Nat) (hw : 0 < w) (hd : w ∣ 64) (x y : W64) (h : ∀ i < 64 / w, sub w i x = sub w i y) : x = y := by
  obtain ⟨m, hm⟩ := hd
  have hdiv : 64 / w = m := by rw [hm]; exact Nat.mul_div_cancel_left m hw
  apply BitVec.eq_of_getLsbD_eq
  intro n hn
  have hlt : n / w < 64 / w := by
    rw [hdiv, Nat.div_lt_iff_lt_mul hw, Nat.mul_comm]
    omega
  have := congrArg (fun b : BitVec w => b.getLsbD (n % w)) (h _ hlt)
  simp only [sub, BitVec.getLsbD_extractLsb', Nat.mod_lt n hw, decide_true, Bool.true_and, Nat.div_add_mod] at this
  exact this

/-! ### Sub-elements of bitwise results -/

theorem sub_not (w i : Nat) (a : W64) (h : i < 64 / w) : sub w i (~~~a) = ~~~ sub w i a := by
  have hb := Nat.mul_le_mul_left w (Nat.succ_le_of_lt h)
  have := Nat.mul_div_le 64 w
  rw [Nat.mul_succ] at hb
  apply BitVec.eq_of_getLsbD_eq
  intro n hn
  have : w * i + n < 64 := by omega
  simp [sub, hn, this]

theorem sub_and (w i : Nat) (a b : W64) : sub w i (a &&& b) = sub w i a &&& sub w i b := by
  apply BitVec.eq_of_getLsbD_eq
  intro n hn
  simp [sub, hn]

theorem sub_or (w i : Nat) (a b : W64) : sub w i (a ||| b) = sub w i a ||| sub w i b := by
  apply BitVec.eq_of_getLsbD_eq
  intro n hn
  simp [sub, hn]

theorem sub_xor (w i : Nat) (a b : W64) : sub w i (a ^^^ b) = sub w i a ^^^ sub w i b := by
  apply BitVec.eq_of_getLsbD_eq
  intro n hn
  simp [sub, hn]

/-- A bit of `n` fields put above nothing, over a register `a`. -/
theorem getLsbD_fields (w n i : Nat) (hw : 0 < w) (hi : i < 64) (f : Nat → BitVec w) (a : W64) :
    ((List.range n).foldl (fun acc i => acc ||| ((f i).setWidth 64 <<< (w * i))) a).getLsbD i =
      (a.getLsbD i || (decide (i < w * n) && (f (i / w)).getLsbD (i % w))) := by
  rw [getLsbD_orFold]
  congr 1
  have hmod := Nat.mod_add_div i w
  have hml := Nat.mod_lt i hw
  have key : ∀ k, (((f k).setWidth 64 : W64) <<< (w * k)).getLsbD i = (decide (k = i / w) && (f k).getLsbD (i % w)) := by
    intro k
    rw [BitVec.getLsbD_shiftLeft, BitVec.getLsbD_setWidth]
    by_cases e : k = i / w
    · subst e
      have h1 : ¬ i < w * (i / w) := by omega
      have h2 : i - w * (i / w) = i % w := by omega
      have h3 : i % w < 64 := by omega
      simp [h1, h2, h3, hi]
    · have hx : i < w * k ∨ w ≤ i - w * k := by
        rcases Nat.lt_or_gt_of_ne e with h | h
        · right
          have : w * (k + 1) ≤ w * (i / w) := Nat.mul_le_mul_left w h
          rw [Nat.mul_add, Nat.mul_one] at this
          omega
        · left
          have : w * (i / w + 1) ≤ w * k := Nat.mul_le_mul_left w h
          rw [Nat.mul_add, Nat.mul_one] at this
          omega
      rcases hx with h | h
      · simp [e, h]
      · simp [e, BitVec.getLsbD_of_ge (f k) _ h]
  rw [Bool.eq_iff_iff, List.any_eq_true]
  constructor
  · rintro ⟨k, hk, hb⟩
    rw [key, Bool.and_eq_true, decide_eq_true_eq] at hb
    obtain ⟨rfl, hb⟩ := hb
    rw [List.mem_range, Nat.div_lt_iff_lt_mul hw, Nat.mul_comm] at hk
    simp [hk, hb]
  · intro h
    rw [Bool.and_eq_true, decide_eq_true_eq] at h
    refine ⟨i / w, List.mem_range.mpr (by rw [Nat.div_lt_iff_lt_mul hw, Nat.mul_comm]; exact h.1), ?_⟩
    rw [key]
    simp [h.2]

/-- A field of `n` fields put over a register whose low bits are 0. -/
theorem extract_fields (w n j : Nat) (hw : 0 < w) (hn : w * n ≤ 64) (hj : j < n) (f : Nat → BitVec w) (a : W64)
    (ha : ∀ i < w * n, a.getLsbD i = false) :
    ((List.range n).foldl (fun acc i => acc ||| ((f i).setWidth 64 <<< (w * i))) a).extractLsb' (w * j) w = f j := by
  have hb := Nat.mul_le_mul_left w (Nat.succ_le_of_lt hj)
  rw [Nat.mul_succ] at hb
  apply BitVec.eq_of_getLsbD_eq
  intro m hm
  have h1 : w * j + m < w * n := by omega
  have h2 : (w * j + m) / w = j := by rw [Nat.mul_add_div hw, Nat.div_eq_of_lt hm, Nat.add_zero]
  have h3 : (w * j + m) % w = m := by rw [Nat.mul_add_mod, Nat.mod_eq_of_lt hm]
  rw [BitVec.getLsbD_extractLsb', getLsbD_fields w n _ hw (by omega), ha _ h1, h2, h3]
  simp [hm, h1]

end Sys2Proof.Machine
end

