-- ==== Sys2Proof/Laws/Lanes.lean ====
section
/-! SUPPORT. Laws of lanes and groups: reads after writes of registers and predicates, and what the end of a word can change
in a group. -/

namespace Sys2Proof.Machine

/-! ### Registers -/

@[simp] theorem Lane.reg_setReg_self (l : Lane) (r : Reg) (v : W64) (t : Bool) : (l.setReg r v t).reg r = v := by
  simp [Lane.reg, Lane.setReg]

theorem Lane.reg_setReg_ne (l : Lane) (r x : Reg) (v : W64) (t : Bool) (h : x ≠ r) : (l.setReg r v t).reg x = l.reg x := by
  have : x.toNat ≠ r.toNat := fun e => h (BitVec.eq_of_toNat_eq e)
  simp [Lane.reg, Lane.setReg, KMap.getD_putD_ne _ _ _ _ _ this]

/-- A bit set in a mask of one bit. -/
theorem one_shift_getLsbD (w n k : Nat) (h : k < w) : ((1 : BitVec w) <<< n).getLsbD k = decide (n = k) := by
  have hw : 0 < w := by omega
  rw [BitVec.getLsbD_shiftLeft]
  by_cases e : n = k
  · subst e; simp [h, hw]
  · by_cases l : k < n
    · simp [l, e]
    · have : k - n ≠ 0 := by omega
      simp [e, this]

@[simp] theorem Lane.tnt_setReg_self (l : Lane) (r : Reg) (v : W64) (t : Bool) : (l.setReg r v t).tnt r = t := by
  have h : r.toNat < 64 := r.isLt
  cases t <;> simp [Lane.tnt, Lane.setReg, h]

theorem Lane.tnt_setReg_ne (l : Lane) (r x : Reg) (v : W64) (t : Bool) (h : x ≠ r) : (l.setReg r v t).tnt x = l.tnt x := by
  have hx : x.toNat < 64 := x.isLt
  have hn : r.toNat ≠ x.toNat := fun e => h (BitVec.eq_of_toNat_eq e.symm)
  have hb := one_shift_getLsbD 64 r.toNat x.toNat hx
  rw [decide_eq_false hn] at hb
  cases t
  · show (l.taint &&& ~~~ ((1 : W64) <<< r.toNat)).getLsbD x.toNat = l.taint.getLsbD x.toNat
    rw [BitVec.getLsbD_and, BitVec.getLsbD_not, hb]
    simp [hx]
  · show (l.taint ||| ((1 : W64) <<< r.toNat)).getLsbD x.toNat = l.taint.getLsbD x.toNat
    rw [BitVec.getLsbD_or, hb, Bool.or_false]

/-- What a register write leaves alone in a lane. -/
theorem Lane.setReg_frame (l : Lane) (r : Reg) (v : W64) (t : Bool) :
    (l.setReg r v t).pred = l.pred ∧ (l.setReg r v t).present = l.present ∧ (l.setReg r v t).tt = l.tt ∧ (l.setReg r v t).ht = l.ht ∧
      (l.setReg r v t).mt = l.mt ∧ (l.setReg r v t).upd = l.upd ∧ (l.setReg r v t).sw = l.sw ∧ (l.setReg r v t).wid = l.wid :=
  ⟨rfl, rfl, rfl, rfl, rfl, rfl, rfl, rfl⟩

/-! ### Predicates -/

@[simp] theorem Lane.pr_seven (l : Lane) : l.pr 7 = true := rfl

@[simp] theorem Lane.setPred_seven (l : Lane) (b : Bool) : l.setPred 7 b = l := rfl

theorem Lane.setPred_of_ne (l : Lane) (p : BitVec 3) (b : Bool) (h : p ≠ 7) :
    l.setPred p b = { l with pred := if b then l.pred ||| ((1 : BitVec 7) <<< p.toNat) else l.pred &&& ~~~ ((1 : BitVec 7) <<< p.toNat) } :=
  if_neg h

theorem Lane.pr_of_ne (l : Lane) (p : BitVec 3) (h : p ≠ 7) : l.pr p = l.pred.getLsbD p.toNat := by
  have : (p == 7) = false := beq_eq_false_iff_ne.mpr h
  simp only [Lane.pr, this, Bool.false_or]

theorem Lane.pr_setPred_self (l : Lane) (p : BitVec 3) (b : Bool) (h : p ≠ 7) : (l.setPred p b).pr p = b := by
  have hp : p.toNat < 7 := by
    have := p.isLt
    have : p.toNat ≠ 7 := fun e => h (BitVec.eq_of_toNat_eq e)
    omega
  have hb := one_shift_getLsbD 7 p.toNat p.toNat hp
  rw [Lane.pr_of_ne _ p h, Lane.setPred_of_ne l p b h]
  cases b
  · show (l.pred &&& ~~~ ((1 : BitVec 7) <<< p.toNat)).getLsbD p.toNat = false
    rw [BitVec.getLsbD_and, BitVec.getLsbD_not, hb]
    simp
  · show (l.pred ||| ((1 : BitVec 7) <<< p.toNat)).getLsbD p.toNat = true
    rw [BitVec.getLsbD_or, hb]
    simp

theorem Lane.pr_setPred_ne (l : Lane) (p x : BitVec 3) (b : Bool) (h : x ≠ p) : (l.setPred p b).pr x = l.pr x := by
  by_cases hp : p = 7
  · subst hp; rfl
  by_cases hx : x = 7
  · subst hx; rfl
  have hx7 : x.toNat < 7 := by
    have := x.isLt
    have : x.toNat ≠ 7 := fun e => hx (BitVec.eq_of_toNat_eq e)
    omega
  have hn : p.toNat ≠ x.toNat := fun e => h (BitVec.eq_of_toNat_eq e.symm)
  have hb := one_shift_getLsbD 7 p.toNat x.toNat hx7
  rw [decide_eq_false hn] at hb
  rw [Lane.pr_of_ne _ x hx, Lane.pr_of_ne _ x hx, Lane.setPred_of_ne l p b hp]
  cases b
  · show (l.pred &&& ~~~ ((1 : BitVec 7) <<< p.toNat)).getLsbD x.toNat = _
    rw [BitVec.getLsbD_and, BitVec.getLsbD_not, hb]
    simp [hx7]
  · show (l.pred ||| ((1 : BitVec 7) <<< p.toNat)).getLsbD x.toNat = _
    rw [BitVec.getLsbD_or, hb, Bool.or_false]

theorem Lane.setPred_frame (l : Lane) (p : BitVec 3) (b : Bool) :
    (l.setPred p b).regs = l.regs ∧ (l.setPred p b).taint = l.taint ∧ (l.setPred p b).present = l.present := by
  unfold Lane.setPred
  split <;> exact ⟨rfl, rfl, rfl⟩

/-! ### Groups -/

/-- The lane at a position after every lane changed by its number. -/
theorem Group.lane_mapLanes (g : Group) (f : Nat → Lane → Lane) (k : Nat) (h : k < g.lanes.length) :
    (g.mapLanes f).lane k = f k (g.lane k) := by
  simp [Group.lane, Group.mapLanes, List.getElem?_mapIdx, List.getElem?_eq_getElem h]

/-- A group with other slots, another stack top, and its sweep in another slot: what the end of a word changes beside its own effect. -/
def Group.withFlow (g : Group) (a b : PcSlot) (top : BitVec 32) (w : Option (Bool × List (List W64))) : Group :=
  { g with slot0 := a, slot1 := b, dspTop := top, sweep := w }

/-- A group that differs in nothing but its slots, its stack top and the slot of its sweep. -/
def Group.FlowOf (g h : Group) : Prop :=
  ∃ a b t w, h = g.withFlow a b t w ∧ (w.map fun p => p.2) = g.sweep.map fun p => p.2

theorem Group.FlowOf.refl (g : Group) : g.FlowOf g := ⟨g.slot0, g.slot1, g.dspTop, g.sweep, rfl, rfl⟩

theorem Group.FlowOf.trans {g h k : Group} (x : g.FlowOf h) (y : h.FlowOf k) : g.FlowOf k := by
  obtain ⟨a, b, t, w, rfl, hw⟩ := x
  obtain ⟨a', b', t', w', rfl, hw'⟩ := y
  exact ⟨a', b', t', w', rfl, hw'.trans hw⟩

theorem Group.flowOf_with (g : Group) (a b : PcSlot) (t : BitVec 32) : g.FlowOf { g with slot0 := a, slot1 := b, dspTop := t } :=
  ⟨a, b, t, g.sweep, rfl, rfl⟩

theorem refill_flow (st : BlkState) (n : Nat) (g : Group) : g.FlowOf (refill st n g) := by
  induction n generalizing g with
  | zero => exact .refl g
  | succ n ih =>
    rw [refill]
    by_cases h0 : g.depth = 0
    · rw [if_pos h0]; exact .refl g
    rw [if_neg h0]
    dsimp only
    split
    · exact (Group.flowOf_with g _ _ _).trans (ih _)
    · split
      · exact (Group.flowOf_with g _ _ _).trans (ih _)
      · split
        · exact (Group.flowOf_with g _ _ _).trans (ih _)
        · split
          · exact (Group.flowOf_with g _ _ _).trans (ih _)
          · exact .refl g

/-- Merges and refills change the slots, the stack top and the slot of a sweep, and nothing else. -/
theorem settle_flow (st : BlkState) (g : Group) : g.FlowOf (settle st g) := by
  rw [settle]
  split
  · refine Group.FlowOf.trans ⟨_, _, g.dspTop, _, rfl, ?_⟩ (refill_flow st _ _)
    cases g.sweep <;> rfl
  · exact refill_flow st _ g

theorem advance_flow (g : Group) (slot : Bool) : g.FlowOf (g.advance slot) := by
  cases slot
  · exact g.flowOf_with _ g.slot1 g.dspTop
  · exact g.flowOf_with g.slot0 _ g.dspTop

/-- The end of a word changes the slots, the stack top and the slot of a sweep, and nothing else of the group. -/
theorem finish_flow (st : BlkState) (g : Group) (slot : Bool) : g.FlowOf (settle st (g.advance slot)) :=
  (advance_flow g slot).trans (settle_flow st _)

end Sys2Proof.Machine
end

