-- ==== Sys2Proof/Laws/Words.lean ====
section
/-! SUPPORT. Laws of the words that only compute in lanes: everything that each shared operation of the arithmetic families can
do, said once. -/

namespace Sys2Proof.Machine

theorem Lane.onlyReg_setReg (l : Lane) (d : Reg) (v : W64) (t : Bool) : l.OnlyReg (l.setReg d v t) d v t where
  value := l.reg_setReg_self d v t
  taint := l.tnt_setReg_self d v t
  others r h := ⟨l.reg_setReg_ne d r v t h, l.tnt_setReg_ne d r v t h⟩
  rest := rfl

theorem Lane.onlyPred_setPred (l : Lane) (p : BitVec 3) (b : Bool) : l.OnlyPred (l.setPred p b) p b where
  value h := l.pr_setPred_self p b h
  others r h := l.pr_setPred_ne p r b h
  seven h := by subst h; exact l.setPred_seven b
  rest := by
    unfold Lane.setPred
    split <;> rfl

theorem Group.lane_of_length_le (g : Group) (k : Nat) (h : g.lanes.length ≤ k) : g.lane k = Lane.empty := by
  simp [Group.lane, List.getElem?_eq_none h]

/-- Only a position that exists executes a word. -/
theorem Group.lt_of_runs (g : Group) (slot : Bool) (c : Ctl) (k : Nat) (h : g.runs slot c k = true) : k < g.lanes.length := by
  by_contra e
  have := g.lane_of_length_le k (Nat.le_of_not_lt e)
  simp [Group.runs, Group.inEntry, this, Lane.empty] at h

@[simp] theorem Group.lane_shiftLatch (g : Group) (d : Reg) (k : Nat) : (g.shiftLatch d).lane k = g.lane k := rfl

@[simp] theorem Group.lane_withFlow (g : Group) (a b : PcSlot) (t : BitVec 32) (w : Option (Bool × List (List W64))) (k : Nat) :
    (g.withFlow a b t w).lane k = g.lane k := rfl

/-- A lane after a change of the lanes that execute a word. -/
theorem Group.lane_mapRuns (g : Group) (slot : Bool) (c : Ctl) (f : Nat → Lane → Lane) (k : Nat) :
    (g.mapLanes fun k l => if g.runs slot c k then f k l else l).lane k =
      if g.runs slot c k then f k (g.lane k) else g.lane k := by
  by_cases h : k < g.lanes.length
  · rw [Group.lane_mapLanes _ _ _ h]
  · have hr : g.runs slot c k = false := by
      cases e : g.runs slot c k
      · rfl
      · exact absurd (g.lt_of_runs slot c k e) h
    have hl := Nat.le_of_not_lt h
    rw [hr, if_neg (by simp), g.lane_of_length_le k hl, Group.lane_of_length_le _ k (by simpa [Group.mapLanes] using hl)]

/-- What a register write in the executing lanes leaves, with any scoreboard and flags. -/
theorem regEffect_of (q : Cur) (c : Ctl) (d : Reg) (f : Nat → W64 × Bool) (g : Group) (sb : W64) (fl : Flags)
    (h : ({ q.grp.writeLanes q.slot c d f with sb := sb, flg := fl } : Group).FlowOf g) :
    RegEffect q c d sb fl (fun k => (f k).1) (fun k => (f k).2) g := by
  obtain ⟨a, b, t, w, rfl, hw⟩ := h
  have hl : ∀ k, (({ q.grp.writeLanes q.slot c d f with sb := sb, flg := fl } : Group).withFlow a b t w).lane k =
      if q.grp.runs q.slot c k then (q.grp.lane k).setReg d (f k).1 (f k).2 else q.grp.lane k :=
    fun k => q.grp.lane_mapRuns q.slot c (fun k l => l.setReg d (f k).1 (f k).2) k
  refine ⟨⟨rfl, hw⟩, ⟨rfl, rfl, rfl, rfl⟩, ?_, fun k hk => ?_, fun k hk => ?_⟩
  · show (List.mapIdx _ q.grp.lanes).length = _
    simp
  · rw [hl, hk, if_neg (by simp)]
  · rw [hl, hk, if_pos rfl]
    exact Lane.onlyReg_setReg _ _ _ _

/-- What a predicate write in the executing lanes leaves. -/
theorem predEffect_of (q : Cur) (c : Ctl) (p : BitVec 3) (f : Nat → Bool) (g : Group) (fl : Flags)
    (h : ({ (q.grp.mapLanes fun k l => if q.grp.runs q.slot c k then l.setPred p (f k) else l) with flg := fl } : Group).FlowOf g) :
    PredEffect q c p fl f g := by
  obtain ⟨a, b, t, w, rfl, hw⟩ := h
  have hl : ∀ k, (({ (q.grp.mapLanes fun k l => if q.grp.runs q.slot c k then l.setPred p (f k) else l) with flg := fl } : Group).withFlow
      a b t w).lane k = if q.grp.runs q.slot c k then (q.grp.lane k).setPred p (f k) else q.grp.lane k :=
    fun k => q.grp.lane_mapRuns q.slot c (fun k l => l.setPred p (f k)) k
  refine ⟨⟨rfl, hw⟩, ⟨rfl, rfl, rfl, rfl⟩, ?_, fun k hk => ?_, fun k hk => ?_⟩
  · show (List.mapIdx _ q.grp.lanes).length = _
    simp
  · rw [hl, hk, if_neg (by simp)]
  · rw [hl, hk, if_pos rfl]
    exact Lane.onlyPred_setPred _ _ _

/-- Everything a lane word can do. -/
theorem laneWord_next (s : State) (q : Cur) (c : Ctl) (d : Dst) (f : Group → Nat → W64 × Bool) (h : s.cur? = some q) :
    ∃ g, laneWord s c d f = .next (s.putGrp q g) ∧
      RegEffect q c d.r q.grp.sb q.grp.flg (fun k => (f q.grp k).1) (fun k => (f q.grp k).2) g := by
  refine ⟨settle q.blk.st ((q.grp.writeLanes q.slot c d.r (f q.grp)).advance q.slot), ?_, ?_⟩
  · unfold laneWord withCur
    rw [h]
    rfl
  · exact regEffect_of q c d.r (f q.grp) _ _ _ (finish_flow _ _ _)

/-- Everything a lane word of variable latency can do. -/
theorem laneWordVar_next (s : State) (q : Cur) (c : Ctl) (d : Dst) (f : Group → Nat → W64 × Bool) (h : s.cur? = some q) :
    ∃ g, laneWordVar s c d f = .next (s.putGrp q g) ∧
      RegEffect q c d.r (q.grp.sb ||| ((1 : W64) <<< d.r.toNat)) q.grp.flg (fun k => (f q.grp k).1) (fun k => (f q.grp k).2) g := by
  refine ⟨settle q.blk.st ((({ q.grp.writeLanes q.slot c d.r (f q.grp) with
    sb := q.grp.sb ||| ((1 : W64) <<< d.r.toNat) } : Group)).advance q.slot), ?_, ?_⟩
  · unfold laneWordVar withCur
    rw [h]
    rfl
  · exact regEffect_of q c d.r (f q.grp) _ _ _ (finish_flow _ _ _)

/-- Everything a word that writes a predicate can do. -/
theorem predWord_next (s : State) (q : Cur) (c : Ctl) (p : BitVec 3) (f : Group → Nat → Bool) (h : s.cur? = some q) :
    ∃ g, predWord s c p f = .next (s.putGrp q g) ∧ PredEffect q c p q.grp.flg (f q.grp) g := by
  refine ⟨settle q.blk.st ((q.grp.mapLanes fun k l => if q.grp.runs q.slot c k then l.setPred p (f q.grp k) else l).advance q.slot),
    ?_, ?_⟩
  · unfold predWord withCur
    rw [h]
    rfl
  · exact predEffect_of q c p (f q.grp) _ _ (finish_flow _ _ _)

/-- Everything a float word can do. -/
theorem floatWord_next (s : State) (q : Cur) (c : Ctl) (d : Dst) (var : Bool) (f : Bool → Group → Nat → LaneRes)
    (h : s.cur? = some q) :
    ∃ g, floatWord s c d var f = .next ((s.putGrp q g).assistIf q (anyAssist (q.active c) (f q.blk.ftz q.grp))) ∧
      RegEffect q c d.r (if var then q.grp.sb ||| ((1 : W64) <<< d.r.toNat) else q.grp.sb)
        (q.grp.flg ||| orFlags (q.active c) (f q.blk.ftz q.grp))
        (fun k => (f q.blk.ftz q.grp k).v) (fun k => (f q.blk.ftz q.grp k).t) g := by
  cases var
  · refine ⟨settle q.blk.st (((q.grp.writeLanes q.slot c d.r fun k => ((f q.blk.ftz q.grp k).v, (f q.blk.ftz q.grp k).t)).addFlags
      (orFlags (q.active c) (f q.blk.ftz q.grp))).advance q.slot), ?_, ?_⟩
    · unfold floatWord withCur
      rw [h]
      rfl
    · exact regEffect_of q c d.r (fun k => ((f q.blk.ftz q.grp k).v, (f q.blk.ftz q.grp k).t)) _ _ _ (finish_flow _ _ _)
  · refine ⟨settle q.blk.st ((({ (q.grp.writeLanes q.slot c d.r fun k => ((f q.blk.ftz q.grp k).v, (f q.blk.ftz q.grp k).t)).addFlags
      (orFlags (q.active c) (f q.blk.ftz q.grp)) with sb := q.grp.sb ||| ((1 : W64) <<< d.r.toNat) } : Group)).advance q.slot), ?_, ?_⟩
    · unfold floatWord withCur
      rw [h]
      rfl
    · exact regEffect_of q c d.r (fun k => ((f q.blk.ftz q.grp k).v, (f q.blk.ftz q.grp k).t)) _ _ _ (finish_flow _ _ _)

/-! ### From a shared operation to a statement -/

section
variable {s : State} {q : Cur} {c : Ctl} {i : Instr} {t : Nat → Bool} {P : Nat → W64 → Prop}

/-- A word whose meaning is a lane word computes. -/
theorem computes_laneWord {d : Dst} {f : Group → Nat → W64 × Bool} (e : exec i s = laneWord s c d f) (h : s.cur? = some q)
    (ht : ∀ k, t k = (f q.grp k).2) (hP : ∀ k, q.grp.runs q.slot c k = true → P k (f q.grp k).1) : Computes s i q c d.r t P := by
  obtain ⟨g, h1, h2⟩ := laneWord_next s q c d f h
  have : t = fun k => (f q.grp k).2 := funext ht
  exact ⟨g, _, e.trans h1, this ▸ h2, hP⟩

theorem computesVar_laneWordVar {d : Dst} {f : Group → Nat → W64 × Bool} (e : exec i s = laneWordVar s c d f)
    (h : s.cur? = some q) (ht : ∀ k, t k = (f q.grp k).2) (hP : ∀ k, q.grp.runs q.slot c k = true → P k (f q.grp k).1) :
    ComputesVar s i q c d.r t P := by
  obtain ⟨g, h1, h2⟩ := laneWordVar_next s q c d f h
  have : t = fun k => (f q.grp k).2 := funext ht
  exact ⟨g, _, e.trans h1, this ▸ h2, hP⟩

theorem decides_predWord {p : BitVec 3} {f : Group → Nat → Bool} {P : Nat → Bool → Prop} (e : exec i s = predWord s c p f)
    (h : s.cur? = some q) (hP : ∀ k, q.grp.runs q.slot c k = true → P k (f q.grp k)) : Decides s i q c p P := by
  obtain ⟨g, h1, h2⟩ := predWord_next s q c p f h
  exact ⟨g, _, e.trans h1, h2, hP⟩

theorem computesF_floatWord {d : Dst} {var : Bool} {f : Bool → Group → Nat → LaneRes} {r : Nat → LaneRes}
    (e : exec i s = floatWord s c d var f) (h : s.cur? = some q) (hr : ∀ k, r k = f q.blk.ftz q.grp k) :
    ComputesF s i q c d.r var r := by
  obtain ⟨g, h1, h2⟩ := floatWord_next s q c d var f h
  have : r = f q.blk.ftz q.grp := funext hr
  subst this
  exact ⟨g, e.trans h1, h2⟩

/-- A function of one operand on each sub-element. -/
theorem computes_int1 {o : R1 IType} {sx : Bool} {f : (w : Nat) → BitVec w → BitVec w} (e : exec i s = int1 s c o sx f)
    (h : s.cur? = some q)
    (hP : ∀ k v, (∀ j < 64 / o.t.width, sub o.t.width j v = f o.t.width (sub o.t.width j (q.grp.opnd (.int o.t sx) o.a k))) → P k v) :
    Computes s i q c o.d.r (fun k => q.grp.opndTaint o.a k) P := by
  unfold int1 at e
  exact computes_laneWord e h (fun _ => rfl) fun k _ => hP k _ fun j hj => sub_map1 _ _ (itype_width_dvd _) hj _ _

/-- A function of two operands on each sub-element. -/
theorem computes_int2 {o : R2 IType} {sx : Bool} {f : (w : Nat) → BitVec w → BitVec w → BitVec w}
    (e : exec i s = int2 s c o sx f) (h : s.cur? = some q)
    (hP : ∀ k v, (∀ j < 64 / o.t.width, sub o.t.width j v =
      f o.t.width (sub o.t.width j (q.grp.opnd (.int o.t sx) o.a k)) (sub o.t.width j (q.grp.opnd (.int o.t sx) o.b k))) → P k v) :
    Computes s i q c o.d.r (fun k => q.grp.opndTaint o.a k || q.grp.opndTaint o.b k) P := by
  unfold int2 at e
  exact computes_laneWord e h (fun _ => rfl) fun k _ => hP k _ fun j hj => sub_map2 _ _ (itype_width_dvd _) hj _ _ _

theorem computesVar_int2 {o : R2 IType} {sx : Bool} {f : (w : Nat) → BitVec w → BitVec w → BitVec w}
    (e : exec i s = int2Var s c o sx f) (h : s.cur? = some q)
    (hP : ∀ k v, (∀ j < 64 / o.t.width, sub o.t.width j v =
      f o.t.width (sub o.t.width j (q.grp.opnd (.int o.t sx) o.a k)) (sub o.t.width j (q.grp.opnd (.int o.t sx) o.b k))) → P k v) :
    ComputesVar s i q c o.d.r (fun k => q.grp.opndTaint o.a k || q.grp.opndTaint o.b k) P := by
  unfold int2Var at e
  exact computesVar_laneWordVar e h (fun _ => rfl) fun k _ => hP k _ fun j hj => sub_map2 _ _ (itype_width_dvd _) hj _ _ _

/-- A function of three operands on each sub-element. -/
theorem computes_int3 {o : R3 IType} {sx : Bool} {f : (w : Nat) → BitVec w → BitVec w → BitVec w → BitVec w}
    (e : exec i s = int3 s c o sx f) (h : s.cur? = some q)
    (hP : ∀ k v, (∀ j < 64 / o.t.width, sub o.t.width j v =
      f o.t.width (sub o.t.width j (q.grp.opnd (.int o.t sx) o.a k)) (sub o.t.width j (q.grp.opnd (.int o.t sx) o.b k))
        (sub o.t.width j (q.grp.opnd (.int o.t sx) o.c k))) → P k v) :
    Computes s i q c o.d.r (fun k => q.grp.opndTaint o.a k || q.grp.opndTaint o.b k || q.grp.opndTaint o.c k) P := by
  unfold int3 at e
  exact computes_laneWord e h (fun _ => rfl) fun k _ => hP k _ fun j hj => sub_map3 _ _ (itype_width_dvd _) hj _ _ _ _

end

end Sys2Proof.Machine
end

