-- ==== Sys2Proof/Laws/Entries.lean ====
section
/-! SUPPORT. Laws of entries: the divergence stack in scratch, and where the lanes of a group stand after a split, a merge and a refill (08 R217,
R218). -/

namespace Sys2Proof.Machine

/-- The number of the bytes of a number. -/
theorem leNat_leBytes (n v : Nat) : leNat (leBytes v n) = v % 256 ^ n := by
  induction n generalizing v with
  | zero => simp [leBytes, leNat, Nat.mod_one]
  | succ n ih =>
    have : 256 ^ (n + 1) = 256 * 256 ^ n := by rw [Nat.pow_succ, Nat.mul_comm]
    rw [leBytes, leNat, ih, BitVec.toNat_ofNat, this, Nat.mod_mul]

/-- A store read back whole. -/
theorem bytes_setBytes (m : Mem) (a : Nat) (l : List Byte) : (m.setBytes a l).bytes a l.length = l := by
  apply List.ext_getElem (by simp)
  intro i h1 h2
  rw [Mem.getElem_bytes, Mem.byte_setBytes_in _ _ _ _ h2]

/-- Part of a store read back. -/
theorem bytes_setBytes_at (m : Mem) (a o n : Nat) (l : List Byte) (h : o + n ≤ l.length) : (m.setBytes a l).bytes (a + o) n = (l.drop o).take n := by
  apply List.ext_getElem (by simp; omega)
  intro i h1 h2
  have : o + i < l.length := by simp at h1; omega
  rw [Mem.getElem_bytes, Nat.add_assoc, Mem.byte_setBytes_in _ _ _ _ this]
  simp

/-- A read outside a store. -/
theorem bytes_setBytes_out (m : Mem) (a b n : Nat) (l : List Byte) (h : b + n ≤ a ∨ a + l.length ≤ b) : (m.setBytes a l).bytes b n = m.bytes b n := by
  apply List.ext_getElem (by simp)
  intro i h1 h2
  rw [Mem.length_bytes] at h1
  rw [Mem.getElem_bytes, Mem.getElem_bytes, Mem.byte_setBytes_out _ _ _ _ (by omega)]

/-- A word of a store read back. -/
theorem word_setBytes (m : Mem) (a o : Nat) (l : List Byte) (v : Nat) (h : o + 8 ≤ l.length) (e : (l.drop o).take 8 = leBytes v 8) : (m.setBytes a l).word (a + o) = BitVec.ofNat 64 v := by
  unfold Mem.word
  rw [bytes_setBytes_at _ _ _ _ _ h, e, leNat_leBytes]
  apply BitVec.eq_of_toNat_eq; simp

/-- The PC of a stored entry, rebuilt. -/
theorem entry_lo (pc : BitVec 57) (h : pc.extractLsb' 0 3 = 0) : (((BitVec.ofNat 64 pc.toNat).extractLsb' 3 54) ++ (0 : BitVec 3)) = pc := by
  apply BitVec.eq_of_getLsbD_eq; intro i hi
  rw [BitVec.getLsbD_append]
  by_cases c : i < 3
  · have := congrArg (fun x => x.getLsbD i) h
    simp [c] at this
    simp [c, this]
  · have h2 : i - 3 < 54 := by omega
    have h3 : 3 + (i - 3) = i := by omega
    have h4 : i < 64 := by omega
    simp [c, h2, h3, h4]

/-- An entry read back. -/
theorem entryAt_putEntry (st : BlkState) (off : Nat) (e : Entry) (h : e.pc.extractLsb' 0 3 = 0) : (st.putEntry off e).entryAt off = e := by
  have l1 := word_setBytes st.scratch off 0 (leBytes e.pc.toNat 8 ++ leBytes e.mask.toNat 8) e.pc.toNat (by simp) (by simp)
  have l2 := word_setBytes st.scratch off 8 (leBytes e.pc.toNat 8 ++ leBytes e.mask.toNat 8) e.mask.toNat (by simp) (by simp)
  show Entry.mk ((((st.scratch.setBytes off _).word off).extractLsb' 3 54) ++ (0 : BitVec 3)) (((st.scratch.setBytes off _).word (off + 8)).setWidth 32) = e
  rw [Nat.add_zero] at l1
  rw [l1, l2, entry_lo _ h]
  cases e
  simp

/-- Another entry read back. -/
theorem entryAt_putEntry_ne (st : BlkState) (off x : Nat) (e : Entry) (h : x + 16 ≤ off ∨ off + 16 ≤ x) : (st.putEntry off e).entryAt x = st.entryAt x := by
  have l1 := bytes_setBytes_out st.scratch off x 8 (leBytes e.pc.toNat 8 ++ leBytes e.mask.toNat 8) (by simp; omega)
  have l2 := bytes_setBytes_out st.scratch off (x+8) 8 (leBytes e.pc.toNat 8 ++ leBytes e.mask.toNat 8) (by simp; omega)
  simp only [BlkState.entryAt, BlkState.putEntry, BlkState.writeScratch, BlkState.sword, Mem.word, l1, l2]

/-- The top of a stack that is not empty. -/
theorem stack_cons (st : BlkState) (g : Group) (h : g.depth ≠ 0) : st.stack g = st.entryAt g.dspTop.toNat :: st.stack { g with dspTop := g.dspTop + 16 } := by
  have h1 : (g.dspTop + 16).toNat = g.dspTop.toNat + 16 := by
    rw [BitVec.toNat_add]; apply Nat.mod_eq_of_lt
    have := g.dspCeil.isLt
    have : 16 ≤ g.dspCeil.toNat - g.dspTop.toNat := by
      unfold Group.depth at h; by_contra hc; exact h (Nat.div_eq_of_lt (by omega))
    simp; omega
  have h2 : g.depth = (({ g with dspTop := g.dspTop + 16 } : Group)).depth + 1 := by
    unfold Group.depth at h ⊢; dsimp only; rw [h1]; omega
  unfold BlkState.stack
  rw [h2, List.range_succ_eq_map, List.map_cons, List.map_map]
  refine congrArg₂ List.cons rfl (List.map_congr_left fun a _ => ?_)
  show st.entryAt (g.dspTop.toNat + 16 * (a + 1)) = st.entryAt ((g.dspTop + 16).toNat + 16 * a)
  rw [h1]; congr 1; omega

/-- A lane stands at a PC in a slot. -/
def Stands (p : PcSlot) (k : Nat) (pc : BitVec 57) : Prop := p.e.mask.getLsbD k = true ∧ p.e.pc = pc

/-- The lanes of two entries made one. -/
theorem stands_merge (a b : PcSlot) (k : Nat) (pc : BitVec 57) (h : a.e.pc = b.e.pc) : Stands (a.merge b) k pc ↔ Stands a k pc ∨ Stands b k pc := by
  show ((a.e.mask ||| b.e.mask).getLsbD k = true ∧ a.e.pc = pc) ↔ _
  unfold Stands
  rw [BitVec.getLsbD_or, ← h]
  cases a.e.mask.getLsbD k <;> cases b.e.mask.getLsbD k <;> simp

/-- No lane stands in an empty entry. -/
theorem stands_zero (a : PcSlot) (k : Nat) (pc : BitVec 57) (h : a.e.mask = 0) : ¬ Stands a k pc := by
  unfold Stands; rw [h]; simp

/-- A lane stands at a PC on the stack. -/
def Rest (st : BlkState) (g : Group) (k : Nat) (pc : BitVec 57) : Prop := ∃ e ∈ st.stack g, e.mask.getLsbD k = true ∧ e.pc = pc

/-- Where a lane of a group can stand. -/
theorem at_iff (st : BlkState) (g : Group) (k : Nat) (pc : BitVec 57) : g.At st k pc ↔ Stands g.slot0 k pc ∨ Stands g.slot1 k pc ∨ Rest st g k pc := Iff.rfl

/-- A group whose top entry is popped. -/
def popTop (g : Group) : Group := { g with dspTop := g.dspTop + 16 }

/-- Where a lane of a stack that is not empty can stand. -/
theorem rest_cons (st : BlkState) (g : Group) (k : Nat) (pc : BitVec 57) (h : g.depth ≠ 0) : Rest st g k pc ↔ Stands (slotAt (st.entryAt g.dspTop.toNat)) k pc ∨ Rest st (popTop g) k pc := by
  unfold Rest; rw [stack_cons st g h]; simp only [List.mem_cons, exists_eq_or_imp]; rfl

/-- Refills move no lane. -/
theorem refill_at (st : BlkState) (n : Nat) (g : Group) (k : Nat) (pc : BitVec 57) : (refill st n g).At st k pc ↔ g.At st k pc := by
  induction n generalizing g with
  | zero => rfl
  | succ n ih =>
    rw [refill]
    by_cases h0 : g.depth = 0
    · rw [if_pos h0]
    rw [if_neg h0]
    have r0 : ∀ a, ({ popTop g with slot0 := a } : Group).At st k pc ↔ Stands a k pc ∨ Stands g.slot1 k pc ∨ Rest st (popTop g) k pc := fun _ => Iff.rfl
    have r1 : ∀ a, ({ popTop g with slot1 := a } : Group).At st k pc ↔ Stands g.slot0 k pc ∨ Stands a k pc ∨ Rest st (popTop g) k pc := fun _ => Iff.rfl
    dsimp only
    refine Iff.trans ?_ (Iff.trans (Iff.rfl : Stands g.slot0 k pc ∨ Stands g.slot1 k pc ∨ Rest st g k pc ↔ _) (at_iff st g k pc).symm)
    rw [rest_cons _ _ _ _ h0]
    split
    · rename_i hc
      refine (ih _).trans ((r0 _).trans ?_)
      rw [stands_merge _ _ _ _ hc.2]; generalize Stands g.slot0 k pc = A; generalize Stands g.slot1 k pc = B; generalize Stands (slotAt (st.entryAt g.dspTop.toNat)) k pc = C; generalize Rest st (popTop g) k pc = D; tauto
    · split
      · rename_i hc
        refine (ih _).trans ((r1 _).trans ?_)
        rw [stands_merge _ _ _ _ hc.2]; generalize Stands g.slot0 k pc = A; generalize Stands g.slot1 k pc = B; generalize Stands (slotAt (st.entryAt g.dspTop.toNat)) k pc = C; generalize Rest st (popTop g) k pc = D; tauto
      · split
        · rename_i hc
          refine (ih _).trans ((r0 _).trans ?_)
          have := stands_zero _ k pc hc
          revert this; generalize Stands g.slot0 k pc = A; generalize Stands g.slot1 k pc = B; generalize Stands (slotAt (st.entryAt g.dspTop.toNat)) k pc = C; generalize Rest st (popTop g) k pc = D; intro this; tauto
        · split
          · rename_i hc
            refine (ih _).trans ((r1 _).trans ?_)
            have := stands_zero _ k pc hc
            revert this; generalize Stands g.slot0 k pc = A; generalize Stands g.slot1 k pc = B; generalize Stands (slotAt (st.entryAt g.dspTop.toNat)) k pc = C; generalize Rest st (popTop g) k pc = D; intro this; tauto
          · exact Iff.trans (at_iff st g k pc) (by rw [rest_cons _ _ _ _ h0])

/-- Merges and refills move no lane (08 R218). -/
theorem settle_at (st : BlkState) (g : Group) (k : Nat) (pc : BitVec 57) : (settle st g).At st k pc ↔ g.At st k pc := by
  rw [settle]
  split
  · rename_i hc
    rw [refill_at]
    show ((g.slot0.merge g.slot1).e.mask.getLsbD k = true ∧ _) ∨ (PcSlot.empty.e.mask.getLsbD k = true ∧ _) ∨ (∃ e ∈ st.stack g, _) ↔ _
    have : (g.slot0.merge g.slot1).e = ⟨g.slot0.e.pc, g.slot0.e.mask ||| g.slot1.e.mask⟩ := rfl
    rw [this]; unfold Group.At; dsimp only; rw [BitVec.getLsbD_or, ← hc.2.2]
    have : PcSlot.empty.e.mask.getLsbD k = false := by simp [PcSlot.empty, slotAt]
    rw [this]
    cases g.slot0.e.mask.getLsbD k <;> cases g.slot1.e.mask.getLsbD k <;> simp
  · rw [refill_at]

/-- A stack that is not empty has room for its entries. -/
theorem depth_pos (g : Group) (h : g.depth ≠ 0) : g.dspTop.toNat + 16 * g.depth ≤ g.dspCeil.toNat ∧ g.dspTop.toNat + 16 ≤ g.dspCeil.toNat := by
  unfold Group.depth at *
  omega

/-- Everything that a push can do (08 R217). -/
theorem pushEntry_spec (st : BlkState) (g : Group) (e : Entry) (he : e.pc.extractLsb' 0 3 = 0) (ok : g.StackOk) (r : BlkState × Group) (h : pushEntry st g e = some r) :
   r.2.StackOk ∧ r.2.dspFloor = g.dspFloor ∧ r.2.dspCeil = g.dspCeil ∧ (∃ top, r.2 = { g with dspTop := top }) ∧ g.dspTop.toNat - 16 ≤ r.2.dspTop.toNat ∧ 
   { r.1 with scratch := st.scratch, sectors := st.sectors } = st ∧ 
   (∀ i, i < g.dspFloor.toNat ∨ g.dspCeil.toNat ≤ i → r.1.scratch.byte i = st.scratch.byte i) ∧
   ∀ k pc, (∃ f ∈ r.1.stack r.2, f.mask.getLsbD k = true ∧ f.pc = pc) ↔ (e.mask.getLsbD k = true ∧ e.pc = pc) ∨ ∃ f ∈ st.stack g, f.mask.getLsbD k = true ∧ f.pc = pc := by
  unfold pushEntry at h
  obtain ⟨o1, o2⟩ := ok
  have rest_ : ∀ off e, { st.putEntry off e with scratch := st.scratch, sectors := st.sectors } = st := by
    intro off e
    simp only [BlkState.putEntry, BlkState.writeScratch]
    rw [if_neg]; simp
  have out_ : ∀ off e i, i < off ∨ off + 16 ≤ i → (st.putEntry off e).scratch.byte i = st.scratch.byte i := by
    intro off e i hi
    exact Mem.byte_setBytes_out _ _ _ _ (by simpa using hi)
  dsimp only at h
  split at h
  · rename_i hc
    cases h
    obtain ⟨d1, d2⟩ := depth_pos g hc.1
    refine ⟨⟨o1, o2⟩, rfl, rfl, ⟨g.dspTop, rfl⟩, Nat.sub_le _ _, rest_ _ _, fun i hi => out_ _ _ i (by omega), fun k pc => ?_⟩
    rw [stack_cons _ _ hc.1, stack_cons st g hc.1, entryAt_putEntry _ _ _ (by rw [hc.2]; exact he)]
    have : (st.putEntry g.dspTop.toNat { st.entryAt g.dspTop.toNat with mask := (st.entryAt g.dspTop.toNat).mask ||| e.mask }).stack { g with dspTop := g.dspTop + 16 } = st.stack { g with dspTop := g.dspTop + 16 } := by
      apply List.map_congr_left; intro i hi
      apply entryAt_putEntry_ne
      right
      show _ ≤ (g.dspTop + 16).toNat + 16 * i
      have : (g.dspTop + 16).toNat = g.dspTop.toNat + 16 := by
        rw [BitVec.toNat_add]; apply Nat.mod_eq_of_lt
        have := g.dspCeil.isLt
        simp; omega
      omega
    rw [this]
    simp only [List.mem_cons, exists_eq_or_imp, BitVec.getLsbD_or, hc.2]
    cases (st.entryAt g.dspTop.toNat).mask.getLsbD k <;> cases e.mask.getLsbD k <;> simp
  · split at h
    · cases h
    · rename_i hc hf
      cases h
      have ht : (g.dspTop - 16).toNat = g.dspTop.toNat - 16 := by
        rw [BitVec.toNat_sub]
        have := g.dspTop.isLt
        simp; omega
      refine ⟨⟨?_, ?_⟩, rfl, rfl, ⟨_, rfl⟩, ?_, rest_ _ _, fun i hi => out_ _ _ i (by omega), fun k pc => ?_⟩
      · show g.dspFloor.toNat ≤ (g.dspTop - 16).toNat; omega
      · show (g.dspTop - 16).toNat ≤ g.dspCeil.toNat; omega
      · show _ ≤ (g.dspTop - 16).toNat; omega
      have hd : ({ g with dspTop := g.dspTop - 16 } : Group).depth ≠ 0 := by
        unfold Group.depth; dsimp only; rw [ht]; omega
      rw [stack_cons _ _ hd]
      have hback : ({ g with dspTop := g.dspTop - 16 + 16 } : Group) = g := by
        rw [BitVec.sub_add_cancel]
      show (∃ f ∈ _ :: (st.putEntry (g.dspTop.toNat - 16) e).stack { g with dspTop := g.dspTop - 16 + 16 }, _) ↔ _
      rw [hback]
      have : (st.putEntry (g.dspTop.toNat - 16) e).stack g = st.stack g := by
        apply List.map_congr_left; intro i hi
        apply entryAt_putEntry_ne
        right; omega
      rw [this]
      show (∃ f ∈ (st.putEntry (g.dspTop.toNat - 16) e).entryAt (g.dspTop - 16).toNat :: st.stack g, _) ↔ _
      rw [ht, entryAt_putEntry _ _ _ he]
      simp only [List.mem_cons, exists_eq_or_imp]

/-- Everything that pushes can do. -/
theorem pushAll_spec (l : List Entry) : ∀ (st : BlkState) (g : Group) (he : ∀ e ∈ l, e.pc.extractLsb' 0 3 = 0) (ok : g.StackOk) (r : BlkState × Group) (h : pushAll st g l = some r),
   r.2.StackOk ∧ r.2.dspFloor = g.dspFloor ∧ r.2.dspCeil = g.dspCeil ∧ (∃ top, r.2 = { g with dspTop := top }) ∧ 
   { r.1 with scratch := st.scratch, sectors := st.sectors } = st ∧ 
   (∀ i, i < g.dspFloor.toNat ∨ g.dspCeil.toNat ≤ i → r.1.scratch.byte i = st.scratch.byte i) ∧
   ∀ k pc, (∃ f ∈ r.1.stack r.2, f.mask.getLsbD k = true ∧ f.pc = pc) ↔ (∃ e ∈ l, e.mask.getLsbD k = true ∧ e.pc = pc) ∨ ∃ f ∈ st.stack g, f.mask.getLsbD k = true ∧ f.pc = pc := by
  induction l with
  | nil =>
    intro st g he ok r h
    cases h
    exact ⟨ok, rfl, rfl, ⟨g.dspTop, rfl⟩, rfl, fun _ _ => rfl, fun k pc => by simp⟩
  | cons e l ih =>
    intro st g he ok r h
    unfold pushAll at h
    cases hp : pushEntry st g e with
    | none => rw [hp] at h; cases h
    | some p =>
      rw [hp] at h
      obtain ⟨a1, a2, a3, ⟨t, a4⟩, a5, a6, a7, a8⟩ := pushEntry_spec st g e (he e (by simp)) ok p hp
      obtain ⟨b1, b2, b3, ⟨t', b4⟩, b6, b7, b8⟩ := ih p.1 p.2 (fun e h => he e (by simp [h])) a1 r h
      refine ⟨b1, b2.trans a2, b3.trans a3, ⟨t', by rw [b4, a4]⟩, ?_, fun i hi => ?_, fun k pc => ?_⟩
      · rw [← b6] at a6; rw [← a6]
      · rw [b7 i (by rw [a2, a3]; exact hi), a7 i hi]
      · rw [b8, a8]; simp only [List.mem_cons, exists_eq_or_imp]
        generalize (∃ f ∈ st.stack g, _) = X
        generalize (∃ f ∈ l, _) = Y
        tauto

/-- Pushes with room succeed. -/
theorem pushAll_room (l : List Entry) : ∀ (st : BlkState) (g : Group) (he : ∀ e ∈ l, e.pc.extractLsb' 0 3 = 0) (ok : g.StackOk) (room : g.dspFloor.toNat + 16 * l.length ≤ g.dspTop.toNat),
   (pushAll st g l).isSome := by
  induction l with
  | nil => intros; rfl
  | cons e l ih =>
    intro st g he ok room
    unfold pushAll
    simp only [List.length_cons] at room
    cases hp : pushEntry st g e with
    | none =>
      unfold pushEntry at hp; dsimp only at hp
      split at hp
      · cases hp
      · split at hp
        · omega
        · cases hp
    | some p =>
      obtain ⟨a1, a2, a3, ⟨t, a4⟩, a5, a6, a7, a8⟩ := pushEntry_spec st g e (he e (by simp)) ok p hp
      exact ih p.1 p.2 (fun e h => he e (by simp [h])) a1 (by rw [a2]; omega)

/-- A lane stands at a PC in a list of entries. -/
def Has (l : List Entry) (j : Nat) (x : BitVec 57) : Prop := ∃ e ∈ l, e.mask.getLsbD j = true ∧ e.pc = x

/-- No lane stands in no entry. -/
theorem has_nil (j x) : Has [] j x ↔ False := by simp [Has]
/-- A lane of a list of entries. -/
theorem has_cons (e : Entry) (l j x) : Has (e :: l) j x ↔ (e.mask.getLsbD j = true ∧ e.pc = x) ∨ Has l j x := by
  simp only [Has, List.mem_cons, exists_eq_or_imp]

/-- The lanes of a list of targets with one more. -/
theorem addTarget_at (pc : BitVec 57) (k : Nat) (hk : k < 32) (l : List Entry) (j : Nat) (x : BitVec 57) : 
   Has (addTarget pc k l) j x ↔ (j = k ∧ pc = x) ∨ Has l j x := by
  have one : ((1 : Mask) <<< k).getLsbD j = true ↔ j = k := by
    by_cases hj : j < 32
    · rw [one_shift_getLsbD _ _ _ hj]; simp; exact eq_comm
    · rw [BitVec.getLsbD_of_ge _ _ (by omega)]; simp; omega
  induction l with
  | nil => simp only [addTarget, has_cons, has_nil, one]
  | cons e l ih =>
    rw [addTarget]
    split
    · simp only [has_cons, one]
    · split
      · rename_i h; subst h
        simp only [has_cons, BitVec.getLsbD_or, Bool.or_eq_true, one]; tauto
      · simp only [has_cons]; have ih' : Has (addTarget pc k l) j x ↔ _ := ih; simp only [ih']; tauto

/-- The PCs of a list of targets with one more. -/
theorem addTarget_pc (pc : BitVec 57) (k : Nat) (l : List Entry) (e : Entry) (h : e ∈ addTarget pc k l) : e.pc = pc ∨ ∃ f ∈ l, e.pc = f.pc := by
  induction l with
  | nil => simp [addTarget] at h; left; rw [h]
  | cons f l ih =>
    rw [addTarget] at h
    split at h
    · rcases List.mem_cons.mp h with h | h
      · left; rw [h]
      · right; exact ⟨e, h, rfl⟩
    · split at h
      · rcases List.mem_cons.mp h with h | h
        · right; exact ⟨f, by simp, by rw [h]⟩
        · right; exact ⟨e, by simp [h], rfl⟩
      · rcases List.mem_cons.mp h with h | h
        · right; exact ⟨f, by simp, by rw [h]⟩
        · rcases ih h with h | ⟨f', h1, h2⟩
          · exact .inl h
          · exact .inr ⟨f', by simp [h1], h2⟩

/-- The lanes of the targets stand where they are sent (08 R217). -/
theorem targets_at (mask : Mask) (next : Nat → Option (BitVec 57)) (j : Nat) (x : BitVec 57) : 
   Has (targets mask next) j x ↔ (mask.getLsbD j = true ∧ next j = some x) := by
  have : ∀ (l : List Nat) (a : List Entry), (∀ k ∈ l, k < 32) → (Has (l.foldl (fun l k =>
    if mask.getLsbD k then
      match next k with
      | some pc => addTarget pc k l
      | none => l
    else l) a) j x ↔ (j ∈ l ∧ mask.getLsbD j = true ∧ next j = some x) ∨ Has a j x) := by
    intro l
    induction l with
    | nil => intro a _; simp
    | cons y l ih =>
      intro a hl
      rw [List.foldl_cons, ih _ (fun k h => hl k (by simp [h]))]
      simp only [List.mem_cons]
      by_cases hm : mask.getLsbD y = true
      · rw [if_pos hm]
        cases hn : next y with
        | none =>
          constructor
          · rintro (h | h) <;> tauto
          · rintro (⟨h | h, h2⟩ | h)
            · subst h; rw [hn] at h2; cases h2.2
            · tauto
            · tauto
        | some pc =>
          simp only []
          rw [addTarget_at pc y (hl y (by simp))]
          constructor
          · rintro (h | ⟨h1, h2⟩ | h)
            · tauto
            · subst h1; subst h2; exact .inl ⟨.inl rfl, hm, hn⟩
            · tauto
          · rintro (⟨h | h, h2⟩ | h)
            · subst h; rw [hn] at h2; exact .inr (.inl ⟨rfl, Option.some.inj h2.2⟩)
            · tauto
            · tauto
      · rw [if_neg hm]
        constructor
        · rintro (h | h) <;> tauto
        · rintro (⟨h | h, h2⟩ | h)
          · subst h; exact absurd h2.1 hm
          · tauto
          · tauto
  have := this (List.range 32) [] (by intro k h; simpa using h)
  refine Iff.trans this ?_
  simp only [List.mem_range, has_nil, or_false]
  constructor
  · tauto
  · intro h
    refine ⟨?_, h⟩
    by_contra hc
    rw [BitVec.getLsbD_of_ge _ _ (by omega)] at h; simp at h

/-- What holds of every next PC holds of every target. -/
theorem targets_pc (mask : Mask) (next : Nat → Option (BitVec 57)) (P : BitVec 57 → Prop) (h : ∀ k pc, next k = some pc → P pc) : ∀ e ∈ targets mask next, P e.pc := by
  have : ∀ (l : List Nat) (a : List Entry), (∀ e ∈ a, P e.pc) → ∀ e ∈ l.foldl (fun l k =>
    if mask.getLsbD k then
      match next k with
      | some pc => addTarget pc k l
      | none => l
    else l) a, P e.pc := by
    intro l
    induction l with
    | nil => intro a ha; exact ha
    | cons y l ih =>
      intro a ha
      rw [List.foldl_cons]
      apply ih
      split
      · split
        · rename_i pc hpc
          intro e he
          rcases addTarget_pc _ _ _ _ he with h1 | ⟨f, h1, h2⟩
          · rw [h1]; exact h _ _ hpc
          · rw [h2]; exact ha f h1
        · exact ha
      · exact ha
  exact this _ [] (by simp)

/-- A slot is no part of the stack. -/
theorem setSlot_stack (st : BlkState) (g : Group) (b : Bool) (p : PcSlot) : st.stack (g.setSlot b p) = st.stack g := by cases b <;> rfl

/-- Where lanes stand after a slot changed. -/
theorem at_setSlot (st : BlkState) (g : Group) (b : Bool) (p : PcSlot) (k : Nat) (pc : BitVec 57) : (g.setSlot b p).At st k pc ↔ 
   (p.e.mask.getLsbD k = true ∧ p.e.pc = pc) ∨ (((g.pcSlot (!b)).e.mask.getLsbD k = true ∧ (g.pcSlot (!b)).e.pc = pc) ∨ ∃ e ∈ st.stack g, e.mask.getLsbD k = true ∧ e.pc = pc) := by
  unfold Group.At
  rw [setSlot_stack]
  cases b <;> simp [Group.setSlot, Group.pcSlot]
  tauto

end Sys2Proof.Machine
end

