-- ==== Sys2Proof/Laws/Ints.lean ====
section
/-! SUPPORT. Laws of the integer functions on a sub-element (05 R106 to R113): what each computes, in numbers and bits. -/

namespace Sys2Proof.Machine

section
variable {w : Nat}

/-- A signed number in range is read back from its bits. -/
theorem toInt_ofInt_of_range (hw : 0 < w) (x : Int) (h1 : -(2 ^ (w - 1) : Int) ≤ x) (h2 : x ≤ 2 ^ (w - 1) - 1) :
    (BitVec.ofInt w x).toInt = x := by
  obtain ⟨n, rfl⟩ : ∃ n, w = n + 1 := ⟨w - 1, by omega⟩
  simp only [Nat.add_sub_cancel] at h1 h2
  rw [BitVec.toInt_ofInt]
  have hp : ((2 ^ (n + 1) : Nat) : Int) = 2 * (2 ^ n : Int) := by push_cast; ring
  exact Int.bmod_eq_of_le (by rw [hp]; omega) (by rw [hp]; omega)

theorem toInt_range (a : BitVec w) : -(2 ^ (w - 1) : Int) ≤ a.toInt ∧ a.toInt ≤ 2 ^ (w - 1) - 1 := by
  have h1 := BitVec.le_toInt a
  have h2 := BitVec.toInt_lt (x := a)
  omega

theorem satS_toInt (hw : 0 < w) (x : Int) : (satS w x).toInt = max (-(2 ^ (w - 1) : Int)) (min (2 ^ (w - 1) - 1) x) := by
  have hp : (0 : Int) < 2 ^ (w - 1) := by positivity
  unfold satS
  rw [toInt_ofInt_of_range hw] <;> omega

theorem eMin_toInt (a b : BitVec w) : (eMin a b).toInt = min a.toInt b.toInt := by
  unfold eMin
  rw [BitVec.slt_eq_decide]
  by_cases h : b.toInt < a.toInt
  · rw [decide_eq_true h, if_pos rfl]; omega
  · rw [decide_eq_false h, if_neg (by simp)]; omega

theorem eMax_toInt (a b : BitVec w) : (eMax a b).toInt = max a.toInt b.toInt := by
  unfold eMax
  rw [BitVec.slt_eq_decide]
  by_cases h : a.toInt < b.toInt
  · rw [decide_eq_true h, if_pos rfl]; omega
  · rw [decide_eq_false h, if_neg (by simp)]; omega

theorem eUmin_toNat (a b : BitVec w) : (eUmin a b).toNat = min a.toNat b.toNat := by
  unfold eUmin
  rw [BitVec.ult_eq_decide]
  by_cases h : b.toNat < a.toNat
  · rw [decide_eq_true h, if_pos rfl]; omega
  · rw [decide_eq_false h, if_neg (by simp)]; omega

theorem eUmax_toNat (a b : BitVec w) : (eUmax a b).toNat = max a.toNat b.toNat := by
  unfold eUmax
  rw [BitVec.ult_eq_decide]
  by_cases h : a.toNat < b.toNat
  · rw [decide_eq_true h, if_pos rfl]; omega
  · rw [decide_eq_false h, if_neg (by simp)]; omega

theorem eAbs_eq (a : BitVec w) : eAbs a = if a.toInt < 0 then -a else a := by
  unfold eAbs
  rw [BitVec.msb_eq_toInt]
  by_cases h : a.toInt < 0 <;> simp [h]

theorem eAvg_toInt (hw : 0 < w) (a b : BitVec w) : (eAvg a b).toInt = (a.toInt + b.toInt + 1) / 2 := by
  have ha := toInt_range a
  have hb := toInt_range b
  unfold eAvg
  rw [toInt_ofInt_of_range hw] <;> omega

theorem eMulh_toInt (hw : 0 < w) (a b : BitVec w) : (eMulh a b).toInt = a.toInt * b.toInt / 2 ^ w := by
  have ha := toInt_range a
  have hb := toInt_range b
  obtain ⟨n, rfl⟩ : ∃ n, w = n + 1 := ⟨w - 1, by omega⟩
  simp only [Nat.add_sub_cancel] at ha hb
  have hp : (0 : Int) < 2 ^ n := by positivity
  have h2 : (2 ^ (n + 1) : Int) = 2 * 2 ^ n := by ring
  unfold eMulh
  rw [toInt_ofInt_of_range hw]
  · simp only [Nat.add_sub_cancel]
    rw [Int.le_ediv_iff_mul_le (by positivity), h2]
    nlinarith
  · simp only [Nat.add_sub_cancel]
    have : a.toInt * b.toInt < (2 ^ n) * 2 ^ (n + 1) := by
      rw [h2]
      nlinarith
    have := (Int.ediv_lt_iff_lt_mul (c := 2 ^ (n + 1)) (by positivity)).mpr this
    omega

theorem eUmulh_toNat (a b : BitVec w) : (eUmulh a b).toNat = a.toNat * b.toNat / 2 ^ w := by
  unfold eUmulh
  rw [BitVec.toNat_ofNat, Nat.mod_eq_of_lt]
  have ha := a.isLt
  have hb := b.isLt
  rw [Nat.div_lt_iff_lt_mul (by positivity)]
  nlinarith

theorem eDiv_of_ne (a b : BitVec w) (h : b ≠ 0) : eDiv a b = BitVec.ofInt w (a.toInt.tdiv b.toInt) := by
  unfold eDiv
  rw [if_neg h]
  apply BitVec.eq_of_toInt_eq
  rw [BitVec.toInt_sdiv, BitVec.toInt_ofInt]

theorem eRem_of_ne (a b : BitVec w) (h : b ≠ 0) : (eRem a b).toInt = a.toInt.tmod b.toInt := by
  unfold eRem
  rw [if_neg h, BitVec.toInt_srem]

theorem eUdiv_of_ne (a b : BitVec w) (h : b ≠ 0) : (eUdiv a b).toNat = a.toNat / b.toNat := by
  unfold eUdiv
  rw [if_neg h, BitVec.toNat_udiv]

theorem eUrem_of_ne (a b : BitVec w) (h : b ≠ 0) : (eUrem a b).toNat = a.toNat % b.toNat := by
  unfold eUrem
  rw [if_neg h, BitVec.toNat_umod]

/-- Counting in the order of the bits. -/
theorem onesBelow_eq (a : BitVec w) (n : Nat) : onesBelow a n = (List.range n).countP fun i => a.getLsbD i := by
  induction n with
  | zero => rfl
  | succ n ih => rw [onesBelow, ih, List.range_succ, List.countP_append]; simp [List.countP_cons]

theorem ePopc_toNat (a : BitVec w) : (ePopc a).toNat = (List.range w).countP fun i => a.getLsbD i := by
  unfold ePopc
  rw [onesBelow_eq, BitVec.toNat_ofNat, Nat.mod_eq_of_lt]
  have := List.countP_le_length (p := fun i => a.getLsbD i) (l := List.range w)
  rw [List.length_range] at this
  exact lt_of_le_of_lt this Nat.lt_two_pow_self

theorem zerosFrom_spec (a : BitVec w) (n : Nat) :
    zerosFrom a n ≤ n ∧ (∀ i, n - zerosFrom a n ≤ i → i < n → a.getLsbD i = false) ∧
      (zerosFrom a n < n → a.getLsbD (n - 1 - zerosFrom a n) = true) := by
  induction n with
  | zero => simp [zerosFrom]
  | succ n ih =>
    rw [zerosFrom]
    cases e : a.getLsbD n
    · obtain ⟨h1, h2, h3⟩ := ih
      refine ⟨by simp; omega, fun i hi hn => ?_, fun h => ?_⟩
      · by_cases c : i = n
        · rw [c, e]
        · exact h2 i (by simp at hi; omega) (by omega)
      · have := h3 (by simp at h; omega)
        simpa [Nat.sub_sub, Nat.add_comm] using this
    · exact ⟨by simp, fun i hi hn => by simp at hi; omega, fun _ => by simpa using e⟩

theorem eClz_spec (a : BitVec w) :
    (eClz a).toNat ≤ w ∧ (∀ i, w - (eClz a).toNat ≤ i → i < w → a.getLsbD i = false) ∧
      ((eClz a).toNat < w → a.getLsbD (w - 1 - (eClz a).toNat) = true) := by
  have h := zerosFrom_spec a w
  have e : (eClz a).toNat = zerosFrom a w := by
    unfold eClz
    rw [BitVec.toNat_ofNat, Nat.mod_eq_of_lt (lt_of_le_of_lt h.1 Nat.lt_two_pow_self)]
  rw [e]
  exact h

/-- A number summed from distinct powers of two shows its bits. -/
theorem sumBits_testBit (f : Nat → Bool) (n : Nat) (i : Nat) :
    ((List.range n).foldl (fun acc k => acc + (if f k then 2 ^ k else 0)) 0).testBit i = (decide (i < n) && f i) ∧
      (List.range n).foldl (fun acc k => acc + (if f k then 2 ^ k else 0)) 0 < 2 ^ n := by
  induction n with
  | zero => simp
  | succ n ih =>
    rw [List.range_succ, List.foldl_append, List.foldl_cons, List.foldl_nil]
    obtain ⟨h1, h2⟩ := ih
    generalize (List.range n).foldl (fun acc k => acc + (if f k then 2 ^ k else 0)) 0 = x at h1 h2
    cases e : f n
    · refine ⟨?_, by simp; rw [Nat.pow_succ]; omega⟩
      simp only [Bool.false_eq_true, if_false, Nat.add_zero, h1]
      by_cases c : i = n
      · subst c; simp [e]
      · have : decide (i < n + 1) = decide (i < n) := by simp; omega
        rw [this]
    · refine ⟨?_, by simp; rw [Nat.pow_succ]; omega⟩
      simp only [if_true]
      have hx : x.testBit n = false := Nat.testBit_lt_two_pow h2
      rw [Nat.add_comm]
      rcases Nat.lt_trichotomy i n with c | c | c
      · rw [Nat.testBit_two_pow_add_gt c, h1]
        simp [c, Nat.lt_succ_of_lt c]
      · subst c
        rw [Nat.testBit_two_pow_add_eq, hx]
        simp [e]
      · have : 2 ^ n + x < 2 ^ i := by
          have := Nat.pow_le_pow_right (n := 2) (by omega) (Nat.succ_le_of_lt c)
          rw [Nat.pow_succ] at this
          omega
        rw [Nat.testBit_lt_two_pow this]
        have : ¬ i < n + 1 := by omega
        simp [this]

theorem eBrev_bit (a : BitVec w) (i : Nat) (h : i < w) : (eBrev a).getLsbD i = a.getLsbD (w - 1 - i) := by
  unfold eBrev
  rw [BitVec.getLsbD_reverse, BitVec.getMsbD_eq_getLsbD]
  simp [h]

theorem eCtz_spec (a : BitVec w) :
    (eCtz a).toNat ≤ w ∧ (∀ i, i < (eCtz a).toNat → a.getLsbD i = false) ∧
      ((eCtz a).toNat < w → a.getLsbD (eCtz a).toNat = true) := by
  obtain ⟨h1, h2, h3⟩ := eClz_spec (eBrev a)
  refine ⟨h1, fun i hi => ?_, fun h => ?_⟩
  · have hi' : i < (eClz (eBrev a)).toNat := hi
    have := h2 (w - 1 - i) (by omega) (by omega)
    rw [eBrev_bit a _ (by omega)] at this
    have e : w - 1 - (w - 1 - i) = i := by omega
    rwa [e] at this
  · have h' : (eClz (eBrev a)).toNat < w := h
    have := h3 h'
    rw [eBrev_bit a _ (by omega)] at this
    have e : w - 1 - (w - 1 - (eClz (eBrev a)).toNat) = (eClz (eBrev a)).toNat := by omega
    rwa [e] at this

/-! ### Shifts and fields -/

theorem eShl_eq (a b : BitVec w) : eShl a b = a <<< b.toNat := by
  unfold eShl
  split
  · exact (BitVec.shiftLeft_eq_zero ‹_›).symm
  · rfl

theorem eShr_eq (a b : BitVec w) : eShr a b = a >>> b.toNat := by
  unfold eShr
  split
  · exact (BitVec.ushiftRight_eq_zero ‹_›).symm
  · rfl

theorem eSar_eq (a b : BitVec w) : eSar a b = a.sshiftRight b.toNat := by
  unfold eSar
  split
  · rename_i h
    apply BitVec.eq_of_getLsbD_eq
    intro i hi
    rw [BitVec.getLsbD_sshiftRight]
    cases e : a.msb
    · have : ¬ b.toNat + i < w := by omega
      simp [this, hi]
    · have : ¬ b.toNat + i < w := by omega
      simp [this, hi]
  · rfl

theorem eSar_toInt (a b : BitVec w) : (eSar a b).toInt = a.toInt / 2 ^ b.toNat := by
  rw [eSar_eq, BitVec.toInt_sshiftRight, Int.shiftRight_eq_div_pow]
  norm_num

theorem eRot_bit (a b : BitVec w) (i : Nat) (h : i < w) : (eRot a b).getLsbD ((i + b.toNat) % w) = a.getLsbD i := by
  have hr : b.toNat % w < w := Nat.mod_lt _ (by omega)
  have hm : (i + b.toNat) % w = (i + b.toNat % w) % w := by rw [Nat.add_mod_mod]
  unfold eRot
  rw [hm, BitVec.getLsbD_rotateLeft_of_le hr]
  by_cases c : i + b.toNat % w < w
  · rw [Nat.mod_eq_of_lt c]
    have h1 : ¬ i + b.toNat % w < b.toNat % w := by omega
    simp [h1, c]
  · have e : (i + b.toNat % w) % w = i + b.toNat % w - w := by
      rw [Nat.mod_eq_sub_mod (by omega), Nat.mod_eq_of_lt (by omega)]
    rw [e]
    have h1 : i + b.toNat % w - w < b.toNat % w := by omega
    have e2 : w - b.toNat % w + (i + b.toNat % w - w) = i := by omega
    simp [h1, e2]

theorem fieldLen_le (b c : BitVec w) : fieldLen b c ≠ 0 → b.toNat % 256 + fieldLen b c ≤ w := by
  unfold fieldLen
  dsimp only
  split
  · simp
  · omega

theorem ones_bit (n i : Nat) (hi : i < w) : (BitVec.ofNat w (2 ^ n - 1)).getLsbD i = decide (i < n) := by
  rw [BitVec.getLsbD_ofNat, Nat.testBit_two_pow_sub_one]
  simp [hi]

theorem eUbfx_bit (a b c : BitVec w) (i : Nat) (hi : i < w) :
    (eUbfx a b c).getLsbD i = (decide (i < fieldLen b c) && a.getLsbD (b.toNat % 256 + i)) := by
  unfold eUbfx
  dsimp only
  by_cases h : fieldLen b c = 0
  · simp [h]
  · have hl := fieldLen_le b c h
    rw [if_neg h, BitVec.getLsbD_and, BitVec.getLsbD_ushiftRight, ones_bit _ _ hi, Bool.and_comm]

theorem eBfx_bit (a b c : BitVec w) (i : Nat) (hi : i < w) :
    (eBfx a b c).getLsbD i = (decide (fieldLen b c ≠ 0) && a.getLsbD (b.toNat % 256 + min i (fieldLen b c - 1))) := by
  unfold eBfx
  dsimp only
  by_cases h : fieldLen b c = 0
  · simp [h]
  · have hl := fieldLen_le b c h
    rw [if_neg h]
    have hs := eUbfx_bit a b c (fieldLen b c - 1) (by omega)
    have hd : decide (fieldLen b c - 1 < fieldLen b c) = true := by simp; omega
    rw [hd, Bool.true_and] at hs
    by_cases c1 : i < fieldLen b c
    · have hm : min i (fieldLen b c - 1) = i := by omega
      rw [hm]
      split
      · rw [BitVec.getLsbD_or, BitVec.getLsbD_not, ones_bit _ _ hi, eUbfx_bit a b c i hi]
        simp [c1, hi, h]
      · rw [eUbfx_bit a b c i hi]
        simp [c1, h]
    · have hm : min i (fieldLen b c - 1) = fieldLen b c - 1 := by omega
      rw [hm, ← hs]
      split
      · rename_i e
        rw [e, BitVec.getLsbD_or, BitVec.getLsbD_not, ones_bit _ _ hi]
        simp [c1, hi, h]
      · rename_i e
        rw [Bool.not_eq_true] at e
        rw [e, eUbfx_bit a b c i hi]
        simp [c1]

theorem eBfi_bit (d a b c : BitVec w) (i : Nat) (hi : i < w) :
    (eBfi d a b c).getLsbD i =
      if b.toNat % 256 ≤ i ∧ i < b.toNat % 256 + fieldLen b c then a.getLsbD (i - b.toNat % 256) else d.getLsbD i := by
  unfold eBfi
  dsimp only
  by_cases h : fieldLen b c = 0
  · rw [if_pos h, if_neg (by omega)]
  · have hl := fieldLen_le b c h
    rw [if_neg h, BitVec.getLsbD_or, BitVec.getLsbD_and, BitVec.getLsbD_and, BitVec.getLsbD_not, BitVec.getLsbD_shiftLeft,
      BitVec.getLsbD_shiftLeft]
    by_cases c1 : i < b.toNat % 256
    · have : ¬ (b.toNat % 256 ≤ i ∧ i < b.toNat % 256 + fieldLen b c) := by omega
      rw [if_neg this]
      simp [c1, hi]
    · rw [ones_bit _ _ (by omega)]
      by_cases c2 : i < b.toNat % 256 + fieldLen b c
      · rw [if_pos (by omega)]
        have c3 : i - b.toNat % 256 < fieldLen b c := by omega
        simp [c1, hi, c3]
      · rw [if_neg (by omega)]
        have c3 : ¬ i - b.toNat % 256 < fieldLen b c := by omega
        simp [c1, hi, c3]

end

end Sys2Proof.Machine
end

