-- ==== Sys2Proof/Laws/Memory.lean ====
section
/-! SUPPORT. Laws of the operations over byte memory: each keeps the canonical form, what a read gives after it, and what a save
image leaves and gives back. -/

namespace Sys2Proof.Machine

/-! ### The canonical form -/

theorem Mem.wf_putBytes (l : List (Option Byte)) (m : Mem) (a : Nat) (h : Mem.wf m = true) : Mem.wf (m.putBytes a l) = true := by
  induction l generalizing m a with
  | nil => exact h
  | cons b l ih =>
    cases b with
    | none => exact ih m _ h
    | some b => exact ih _ _ (Mem.wf_setByte m a b h)

theorem MemSys.wf_homeWrite (ms : MemSys) (pa : Nat) (l : List Byte) (h : Mem.wf ms.mem = true) :
    Mem.wf (ms.homeWrite pa l).mem = true := Mem.wf_setBytes l ms.mem pa h

theorem MemSys.wf_homePut (ms : MemSys) (pa : Nat) (l : List (Option Byte)) (h : Mem.wf ms.mem = true) :
    Mem.wf (ms.homePut pa l).mem = true := Mem.wf_putBytes l ms.mem pa h

theorem MemSys.wf_zeroRange (ms : MemSys) (r : Nat × Nat) (h : Mem.wf ms.mem = true) : Mem.wf (ms.zeroRange r).mem = true :=
  Mem.wf_filter ms.mem _ h

/-- Words and bytes stored one after another keep the canonical form. -/
theorem Mem.wf_foldl {α : Type} (f : Mem → α → Mem) (hf : ∀ m x, Mem.wf m = true → Mem.wf (f m x) = true) (l : List α) (m : Mem)
    (h : Mem.wf m = true) : Mem.wf (l.foldl f m) = true := by
  induction l generalizing m with
  | nil => exact h
  | cons x l ih => exact ih _ (hf m x h)

theorem Mem.wf_putImage (m : Mem) (b : Block) (a : Nat) (h : Mem.wf m = true) : Mem.wf (m.putImage b a) = true := by
  unfold Mem.putImage
  refine Mem.wf_foldl _ ?_ _ _ (Mem.wf_foldl _ ?_ _ _ (Mem.wf_filter m _ h))
  · intro m p hm
    exact Mem.wf_setBytes p.2 m _ hm
  · intro m p hm
    exact Mem.wf_setWord m _ p.2 hm

/-! ### Reads after a store -/

/-- A store of some bytes leaves every byte outside its range, and every byte that it does not name. -/
theorem Mem.byte_putBytes (l : List (Option Byte)) (m : Mem) (a x : Nat) :
    (m.putBytes a l).byte x = if a ≤ x then ((l.getD (x - a) none).getD (m.byte x)) else m.byte x := by
  induction l generalizing m a with
  | nil => simp [Mem.putBytes]
  | cons b l ih =>
    rcases Nat.lt_trichotomy x a with h | rfl | h
    · cases b <;> simp only [Mem.putBytes, ih] <;> rw [if_neg (by omega), if_neg (by omega)]
      exact Mem.byte_setByte_ne _ _ _ _ (by omega)
    · cases b <;> simp [Mem.putBytes, ih]
    · obtain ⟨k, hk⟩ : ∃ k, x - a = k + 1 := ⟨x - a - 1, by omega⟩
      have hk' : x - (a + 1) = k := by omega
      cases b <;> simp only [Mem.putBytes, ih, hk, hk', List.getD_cons_succ] <;> rw [if_pos (by omega), if_pos (by omega)]
      rw [Mem.byte_setByte_ne _ _ _ _ (by omega)]

theorem KMap.get?_filter_key {α : Type} (m : KMap α) (p : Nat → Bool) (k : Nat) :
    KMap.get? (m.filter fun c => p c.1) k = if p k then m.get? k else none := by
  induction m with
  | nil => simp
  | cons c m ih =>
    obtain ⟨j, w⟩ := c
    by_cases hj : p j = true
    · rw [List.filter_cons_of_pos (by simpa using hj), KMap.get?_cons, KMap.get?_cons, ih]
      by_cases e : j = k
      · subst e; simp [hj]
      · simp [e]
    · rw [List.filter_cons_of_neg (by simpa using hj), ih, KMap.get?_cons]
      by_cases e : j = k
      · subst e; simp [hj]
      · simp [e]

/-- A part of memory reads as the whole within it, and as zero outside. -/
theorem Mem.byte_filter_key (m : Mem) (p : Nat → Bool) (a : Nat) : Mem.byte (m.filter fun c => p c.1) a = if p a then m.byte a else 0 := by
  unfold Mem.byte KMap.getD
  rw [KMap.get?_filter_key]
  split <;> rfl

/-- Zeroing leaves zero in the range, and every other byte as it was. -/
theorem MemSys.byte_zeroRange (ms : MemSys) (r : Nat × Nat) (a : Nat) :
    (ms.zeroRange r).mem.byte a = if r.1 ≤ a ∧ a < r.1 + r.2 then 0 else ms.mem.byte a := by
  show Mem.byte (ms.mem.filter fun c => !decide (r.1 ≤ c.1 ∧ c.1 < r.1 + r.2)) a = _
  rw [Mem.byte_filter_key ms.mem fun k => !decide (r.1 ≤ k ∧ k < r.1 + r.2)]
  by_cases h : r.1 ≤ a ∧ a < r.1 + r.2 <;> simp [h]

/-- A store leaves alone the part of memory that it does not meet, as data. -/
theorem Mem.filter_setByte_out (m : Mem) (p : Nat → Bool) (a : Nat) (b : Byte) (h : p a = false) :
    (m.setByte a b).filter (fun c => p c.1) = m.filter fun c => p c.1 := by
  unfold Mem.setByte KMap.putD
  split
  · rw [KMap.del_eq_filter, List.filter_filter]
    apply List.filter_congr
    rintro ⟨j, w⟩ -
    by_cases e : j = a
    · subst e; simp [h]
    · simp [e]
  · induction m with
    | nil => simp [KMap.put, h]
    | cons c m ih =>
      obtain ⟨j, w⟩ := c
      rw [KMap.put_cons]
      split
      · simp [h]
      · split
        · next e => subst e; simp [h]
        · rw [List.filter_cons, List.filter_cons, ih]

theorem Mem.filter_setBytes_out (l : List Byte) (m : Mem) (p : Nat → Bool) (a : Nat) (h : ∀ i < l.length, p (a + i) = false) :
    (m.setBytes a l).filter (fun c => p c.1) = m.filter fun c => p c.1 := by
  induction l generalizing m a with
  | nil => rfl
  | cons b l ih =>
    rw [Mem.setBytes, ih _ (a + 1) fun i hi => by
      have := h (i + 1) (by simpa using hi)
      rwa [show a + 1 + i = a + (i + 1) by omega]]
    exact Mem.filter_setByte_out m p a b (h 0 (by simp))

theorem Mem.filter_setWord_out (m : Mem) (p : Nat → Bool) (a : Nat) (w : W64) (h : ∀ i < 8, p (a + i) = false) :
    (m.setWord a w).filter (fun c => p c.1) = m.filter fun c => p c.1 :=
  Mem.filter_setBytes_out _ m p a fun i hi => h i (by simpa using hi)

/-- Two memories that agree on a byte agree on it after the same store. -/
theorem Mem.byte_setBytes_congr (l : List Byte) (m m' : Mem) (a x : Nat) (h : m.byte x = m'.byte x) :
    (m.setBytes a l).byte x = (m'.setBytes a l).byte x := by
  by_cases e : x < a ∨ a + l.length ≤ x
  · rw [Mem.byte_setBytes_out l m a x e, Mem.byte_setBytes_out l m' a x e, h]
  · obtain ⟨i, rfl⟩ : ∃ i, x = a + i := ⟨x - a, by omega⟩
    rw [Mem.byte_setBytes_in l m a i (by omega), Mem.byte_setBytes_in l m' a i (by omega)]

theorem Mem.bytes_congr (m m' : Mem) (a n : Nat) (h : ∀ x, a ≤ x → m.byte x = m'.byte x) : m.bytes a n = m'.bytes a n := by
  induction n generalizing a with
  | zero => rfl
  | succ n ih => simp only [Mem.bytes, h a (Nat.le_refl a), ih (a + 1) fun x hx => h x (by omega)]

/-! ### Save images (17 R370) -/

/-- Stores of words, one after another. -/
def Mem.setWords (m : Mem) (a : Nat) (l : List (Nat × W64)) : Mem := l.foldl (fun m p => m.setWord (a + p.1) p.2) m

theorem Mem.setWords_append (m : Mem) (a : Nat) (l k : List (Nat × W64)) : m.setWords a (l ++ k) = (m.setWords a l).setWords a k :=
  List.foldl_append

theorem Mem.byte_setWords_congr (l : List (Nat × W64)) (m m' : Mem) (a x : Nat) (h : m.byte x = m'.byte x) :
    (m.setWords a l).byte x = (m'.setWords a l).byte x := by
  induction l generalizing m m' with
  | nil => exact h
  | cons p l ih => exact ih _ _ (Mem.byte_setBytes_congr _ m m' _ x h)

theorem Mem.byte_setWords_out (l : List (Nat × W64)) (m : Mem) (a x : Nat) (h : ∀ p ∈ l, x < a + p.1 ∨ a + p.1 + 8 ≤ x) :
    (m.setWords a l).byte x = m.byte x := by
  induction l generalizing m with
  | nil => rfl
  | cons p l ih =>
    show ((m.setWord (a + p.1) p.2).setWords a l).byte x = _
    rw [ih _ fun q hq => h q (List.mem_cons_of_mem _ hq)]
    exact Mem.byte_setBytes_out _ _ _ _ (by simpa using h p (by simp))

theorem Mem.filter_setWords_out (l : List (Nat × W64)) (m : Mem) (p : Nat → Bool) (a : Nat) (h : ∀ q ∈ l, ∀ i < 8, p (a + q.1 + i) = false) :
    (m.setWords a l).filter (fun c => p c.1) = m.filter fun c => p c.1 := by
  induction l generalizing m with
  | nil => rfl
  | cons q l ih =>
    show ((m.setWord (a + q.1) q.2).setWords a l).filter _ = _
    rw [ih _ fun x hx => h x (List.mem_cons_of_mem _ hx)]
    exact Mem.filter_setWord_out m p _ _ (h q (by simp))

/-- What an image gives back depends on its lane records and registers byte by byte, and on its scratch and accumulators. -/
theorem Block.fromImage_congr (b : Block) (m m' : Mem) (a : Nat) (h : ∀ x, a + 256 ≤ x → m.byte x = m'.byte x)
    (hs : (m.filter fun c => decide (a + b.sections.2.2.1 ≤ c.1 ∧ c.1 < a + b.sections.2.2.2)) =
      m'.filter fun c => decide (a + b.sections.2.2.1 ≤ c.1 ∧ c.1 < a + b.sections.2.2.2))
    (hc : ∀ o n, m.cells (a + b.sections.2.2.2 + o) n = m'.cells (a + b.sections.2.2.2 + o) n) : b.fromImage m a = b.fromImage m' a := by
  have hw : ∀ x, a + 256 ≤ x → m.word x = m'.word x := fun x hx => by
    simp only [Mem.word, Mem.bytes_congr m m' x 8 fun y hy => h y (by omega)]
  have hl : ∀ o r l, 256 ≤ o → 256 ≤ r → Lane.fromImage l m b.nregs (a + o) (a + r) = Lane.fromImage l m' b.nregs (a + o) (a + r) := by
    intro o r l ho hr
    have h1 : (fun (x : KMap W64) k => KMap.putD 0 x k (m.word (a + r + 8 * k))) = fun x k => KMap.putD 0 x k (m'.word (a + r + 8 * k)) := by
      funext x k
      rw [hw _ (by omega)]
    simp only [Lane.fromImage, h1, hw (a + o) (by omega), hw (a + o + 8) (by omega)]
  have hg : (fun (gi k : Nat) (l : Lane) => l.fromImage m b.nregs (a + b.sections.1 + 192 * (32 * gi + k)) (a + b.sections.2.1 + 8 * b.nregs * (32 * gi + k))) =
      fun gi k l => l.fromImage m' b.nregs (a + b.sections.1 + 192 * (32 * gi + k)) (a + b.sections.2.1 + 8 * b.nregs * (32 * gi + k)) := by
    funext gi k l
    rw [Nat.add_assoc, Nat.add_assoc]
    exact hl _ _ l (by simp only [Block.sections]; omega) (by simp only [Block.sections]; omega)
  have h0 := hc 0
  rw [Nat.add_zero] at h0
  unfold Block.fromImage
  extract_lets x rows lane group _ lane' group'
  have hlane : lane = lane' := hg
  have e2 : group = group' := by simp only [group, group', hlane]
  rw [e2, hs, h0, hc]

/-! ### Messages (19 R394) -/

/-- With nothing in the retry buffers a stream has room for as many messages as it may ever hold. -/
theorem State.streamRoom_empty (s : State) (chip vc n bytes : Nat) (h : s.fab.retry = []) (hn : n ≤ 1024) :
    s.streamRoom chip vc n bytes = true := by
  have : n * retryCost bytes ≤ 1024 * 16384 := Nat.mul_le_mul hn (Nat.min_le_right _ _)
  simp only [State.streamRoom, h, List.countP_nil, List.map_nil, List.sum_nil, Bool.and_eq_true, decide_eq_true_eq]
  omega

end Sys2Proof.Machine
end

