-- ==== Sys2Proof/Tests/Slice0.lean ====
section
/-! SUPPORT. Own tests: terms that the checks refuse, words written out field by field, single steps, and states that meet the
premises of the statements. -/

open Sys2Proof
open Sys2Proof.Machine

namespace Sys2Proof.Tests

/-- No guard, STALL 0, no YLD. -/
def tu : Ctl := ⟨7, false, 7, false, 0, false⟩
/-- A register destination. -/
def td (n : Nat) : Dst := ⟨BitVec.ofNat 6 n, false⟩
/-- A register operand, whole. -/
def tr (n : Nat) : Opnd := ⟨.reg (BitVec.ofNat 6 n), .whole⟩
/-- An inline constant, whole. -/
def tk (n : Fin 48) : Opnd := ⟨.imm n, .whole⟩

/-! ### Ill-formed terms (02 R40, R48, R54, R60, R61, R64) -/

theorem test_wf_join_guard : (Instr.join { tu with ga := 3 } 0).fieldsOk = false := by decide
theorem test_wf_wid_field : (Instr.widW tu (td 1) 6).fieldsOk = false := by decide
theorem test_wf_movhi_top : (Instr.movhi tu ⟨td 1, .j3, 0x400⟩).fieldsOk = false := by decide
theorem test_wf_bfx_type : (Instr.bfx tu ⟨td 1, tr 2, tr 3, tr 4, .i16x4⟩).fieldsOk = false := by decide
theorem test_wf_pack_type : (Instr.pack tu ⟨td 1, tr 2, tr 3, .i4x16⟩).fieldsOk = false := by decide
theorem test_wf_unpk_type : (Instr.unpk tu ⟨td 1, tr 2, .lz, .i4x16⟩).fieldsOk = false := by decide
theorem test_wf_frcp_type : (Instr.frcp tu ⟨td 1, tr 2, .f64⟩).fieldsOk = false := by decide
theorem test_wf_fdiv_type : (Instr.fdiv tu ⟨td 1, tr 2, tr 3, .f8e4x8⟩).fieldsOk = false := by decide
theorem test_wf_qpack_type : (Instr.qpack tu ⟨td 1, tr 2, tr 3, .f64⟩).fieldsOk = false := by decide
theorem test_wf_qunpk_group : (Instr.qunpk tu ⟨td 1, tr 2, 4, .bf16x4⟩).fieldsOk = false := by decide
theorem test_wf_plane_bit : (Instr.plane tu ⟨td 1, tr 2, 8, .i8x8⟩).fieldsOk = false := by decide
theorem test_wf_unplane_bit : (Instr.unplane tu ⟨td 1, tr 2, 64, .i64⟩).fieldsOk = false := by decide
theorem test_wf_redl_excl : (Instr.redl tu ⟨td 1, tr 2, .int .add .i64, true⟩).fieldsOk = false := by decide
theorem test_wf_lda_size : (Instr.lda tu ⟨td 2, .reg 4, 0, .dev, .g, .b16⟩).fieldsOk = false := by decide
theorem test_wf_stl_size : (Instr.stl tu ⟨2, .reg 4, 0, .dev, .g, .b32⟩).fieldsOk = false := by decide
theorem test_wf_atom_size : (Instr.atomAdd tu ⟨td 2, .reg 4, .reg 5, .rlx, .dev, .g, .b2⟩).fieldsOk = false := by decide
theorem test_wf_red_size : (Instr.redAdd tu ⟨.reg 4, .reg 5, .rlx, .dev, .g, .b16⟩).fieldsOk = false := by decide
theorem test_wf_casc_scope : (Instr.casc tu ⟨td 2, .reg 4, .reg 5, 6, .p0, .clu, .g⟩).fieldsOk = false := by decide
theorem test_wf_decc_storage : (Instr.decc tu ⟨td 2, .reg 4, .reg 5, .reg 6, .p0, .dev, .s⟩).fieldsOk = false := by decide
theorem test_wf_fence_order : (Instr.fence tu ⟨.rlx, .dev, .g⟩).fieldsOk = false := by decide
theorem test_wf_waitc_size : (Instr.waitc tu ⟨td 2, .reg 4, .reg 5, .eq, true, .dev, .g, .b1⟩).fieldsOk = false := by decide
theorem test_wf_tsweep_source : (Instr.tsweep tu ⟨.mov, tr 1, tr 2, tr 3⟩).fieldsOk = false := by decide
theorem test_wf_register_count : (Instr.add tu ⟨td 32, tr 2, tr 3, .i64⟩).wfAt 32 = false := by decide
theorem test_wf_span_alignment : (Instr.ld tu ⟨td 3, .reg 4, 0, .b16, .normal⟩).wf = false := by decide
theorem test_wf_span_end : (Instr.tryM tu ⟨60, 1⟩).wf = false := by decide
theorem test_wf_pair_banks :
    (Instr.slotAdd 0 ⟨td 4, .reg 8, .whole, 7, false, .i64⟩ (.int .sub ⟨td 5, .reg 12, .whole, 7, false, .i64⟩)).wf = false := by decide
theorem test_wf_pair_destinations :
    (Instr.slotMov 0 ⟨td 4, .zero, .whole, 7, false, .i64⟩ (.int .mov ⟨td 4, .ones, .whole, 7, false, .i64⟩)).wf = false := by decide
theorem test_wf_good :
    (Instr.slotAdd 0 ⟨td 4, .reg 9, .whole, 7, false, .i64⟩ (.flt .fmul ⟨td 6, .latch 0, .whole, 7, false, .f32x2⟩)).wf = true := by decide

/-! ### Words, field by field: FM MAJ MIN GA NA GB NB DST NWB SA MODA SB MODB SC MODC CH STALL YLD TYPE (02 R34, R49 to R62) -/

theorem test_decode_sys :
    decodeTableWord 64 0b0_000000_0001_111_0_111_0_000000_0_0000000_00_000000000000000101_00_00000_0_000 = some (.trap tu 5) ∧
    decodeTableWord 64 0b0_000000_0101_111_0_111_0_001001_1_0000000_00_000000000000011100_00_00000_0_000 =
      some (.rdsr tu ⟨9, true⟩ .flg) := ⟨by rfl, by rfl⟩
theorem test_decode_flow :
    decodeTableWord 64 0b0_000001_0010_101_1_111_0_000111_0_0000000_00_111111111111111110_00_00011_1_000 =
      some (.call ⟨5, true, 7, false, 3, true⟩ (td 7) 0x3FFFE) ∧
    decodeTableWord 64 0b0_000001_1000_111_0_111_0_000010_0_0000101_00_0000110_01_0000000_00_00_00000_0_000 =
      some (.enq tu ⟨2, tr 5, ⟨.reg 6, .lo⟩⟩) := ⟨by rfl, by rfl⟩
theorem test_decode_ialu :
    decodeTableWord 64 0b0_000010_1100_111_0_111_0_000001_0_0000010_00_1010000_00_0001011_00_00_00000_0_011 =
      some (.sel tu ⟨td 1, tr 2, tk 0, ⟨3, true⟩, .i8x8⟩) := by rfl
theorem test_decode_imul :
    decodeTableWord 64 0b0_000011_0011_111_0_111_0_000001_0_0000010_01_0000011_10_0000100_11_00_00000_0_000 =
      some (.mad tu ⟨td 1, ⟨.reg 2, .lo⟩, ⟨.reg 3, .hi⟩, ⟨.reg 4, .sw⟩, .i64⟩) := by rfl
theorem test_decode_logic :
    decodeTableWord 64 0b0_000100_1100_111_0_111_0_000001_0_1000011_00_1000101_00_1000110_00_00_00000_0_001 =
      some (.bfi tu ⟨td 1, ⟨.latch 3, .whole⟩, ⟨.lane, .whole⟩, ⟨.ones, .whole⟩, .i32x2⟩) := by rfl
theorem test_decode_pred :
    decodeTableWord 64 0b0_000101_0011_111_0_111_0_000010_0_0001001_00_0000110_00_0000000_00_00_00000_0_000 =
      some (.pand tu ⟨2, ⟨1, true⟩, ⟨6, false⟩⟩) := by rfl
theorem test_decode_falu :
    decodeTableWord 64 0b0_000110_1001_111_0_111_0_000001_0_0000010_00_0000000_00_0000000_10_00_00000_0_011 =
      some (.fround tu ⟨td 1, tr 2, .ru, .f16x4⟩) := by rfl
theorem test_decode_fsfu :
    decodeTableWord 64 0b0_000111_0011_111_0_111_0_000001_0_0000010_00_0000011_00_0000000_00_00_00000_0_000 =
      some (.fdiv tu ⟨td 1, tr 2, tr 3, .f64⟩) := by rfl
theorem test_decode_conv :
    decodeTableWord 64 0b0_001000_0000_111_0_111_0_000001_0_0000010_00_0001111_00_0000100_01_00_00000_0_000 =
      some (.cvt tu ⟨td 1, tr 2, .u8, .e4m3, .rz⟩) := by rfl
theorem test_decode_xlane :
    decodeTableWord 64 0b0_001001_0101_111_0_111_0_000001_0_0000010_00_0000000_00_0011000_00_00_00000_0_001 =
      some (.scanl tu ⟨td 1, tr 2, .flt .fadd .f32x2, true⟩) := by rfl
theorem test_decode_load :
    decodeTableWord 64 0b0_001010_0011_111_0_111_0_000001_0_0000010_00_1111111111111_100_11_00_00000_0_010 =
      some (.lda tu ⟨td 1, .reg 2, 0x1FFF, .fab, .sg, .b4⟩) ∧
    decodeTableWord 64 0b0_001010_0100_111_0_111_0_000010_0_0000010_00_000000000000000001_11_00000_0_000 =
      some (.pref tu ⟨.icache, .reg 2, 1, .noalloc⟩) := ⟨by rfl, by rfl⟩
theorem test_decode_store :
    decodeTableWord 64 0b0_001011_0010_111_0_111_0_001000_0_0000010_00_000000000000000011_01_00000_0_101 =
      some (.stnt tu ⟨8, .reg 2, 3, .b32, .stream⟩) := by rfl
theorem test_decode_atom :
    decodeTableWord 64 0b0_001100_1011_111_0_111_0_000001_0_0000010_01_0000011_01_0000000_000_0_00000_0_010 =
      some (.atomIncw tu ⟨td 1, .reg 2, .reg 3, .acq, .grp, .s, .b4⟩) := by rfl
theorem test_decode_red :
    decodeTableWord 64 0b0_001101_0001_111_0_111_0_000000_0_0000010_10_0000011_10_0000000_101_0_00000_0_011 =
      some (.redFadd tu ⟨.reg 2, .reg 3, .rel, .sys, .g, .b8⟩) := by rfl
theorem test_decode_atomc :
    decodeTableWord 64 0b0_001110_0001_111_0_111_0_000001_0_0000010_01_0000011_11_0000100_011_0_00000_0_011 =
      some (.decc tu ⟨td 1, .reg 2, .reg 3, .reg 4, .p2, .dev, .sg⟩) := by rfl
theorem test_decode_sync :
    decodeTableWord 64 0b0_001111_0000_111_0_111_0_000000_0_0000000_11_0000000000000_010_01_00_00000_0_000 =
      some (.fence tu ⟨.ar, .clu, .s⟩) ∧
    decodeTableWord 64 0b0_001111_0001_111_0_111_0_000000_0_0000000_00_000000000000000110_00_00000_0_000 = some (.bar tu 6) :=
  ⟨by rfl, by rfl⟩
theorem test_decode_copy :
    decodeTableWord 64 0b0_010000_0011_111_0_111_0_000001_0_0000010_00_0000011_00_0000100_00_10_00000_0_000 =
      some (.copyg tu ⟨1, tr 2, tr 3, tr 4, .retain⟩) := by rfl
theorem test_decode_mma :
    decodeTableWord 64 0b0_010001_0100_111_0_111_0_001111_0_0000010_00_0000011_10_0000000_00_00_00000_0_000 =
      some (.mmaI8 tu ⟨15, .reg 2, .reg 3, true⟩) := by rfl
theorem test_decode_macc :
    decodeTableWord 64 0b0_010010_0001_111_0_111_0_000011_0_0000010_00_0000000_00_0000000_00_00_00000_0_101 =
      some (.mload tu ⟨3, tr 2, .e5m2⟩) := by rfl
theorem test_decode_tsw :
    decodeTableWord 64 0b0_010011_0000_111_0_111_0_000101_0_0000001_00_0000010_00_0000011_00_00_00000_0_000 =
      some (.tsweep tu ⟨.max, tr 1, tr 2, tr 3⟩) ∧
    decodeTableWord 64 0b0_010011_0001_111_0_111_0_000011_0_0000001_00_0000010_00_1100011_00_00_00000_0_000 =
      some (.tsred tu ⟨.addsq, tr 1, tr 2, tk 19⟩) := ⟨by rfl, by rfl⟩
theorem test_decode_term :
    decodeTableWord 64 0b0_010100_0001_111_0_111_0_000001_0_0000010_00_1100011_00_0000000_00_00_00000_0_000 =
      some (.mkt tu ⟨td 1, tr 2, tk 19⟩) := by rfl
theorem test_decode_search :
    decodeTableWord 64 0b0_010101_0101_111_0_111_0_000110_0_0000000_00_0000000_00_0000000_00_00_00000_0_000 = some (.adopt tu 6) := by rfl
theorem test_decode_dual :
    decodeTableWord 64 0b1_0001001_000011_1_1011111_010_1_010_11_0000000_000000_0_0000000_000_0_000_00_101 =
      some (.slotSar 5 ⟨⟨3, true⟩, .imm 15, .sw, 2, true, .i16x4⟩ .nop) := by rfl
/-- A word of fewer bits than the table's row has zeros above them: the all-zero word is a NOP guarded by p0. -/
theorem test_decode_zero : decodeTableWord 8 0 = some (.nop ⟨0, false, 0, false, 0, false⟩) := by rfl
/-- OP 0x13 is no slot operation, in slot Y too (02 R47, R64). -/
theorem test_decode_bad_slot :
    decodeBytes (wordBytes 0b1_0000000_000000_0_0000000_000_0_000_00_0010011_000000_0_0000000_000_0_000_00_000) = .error .illegalInstr := by rfl
/-- Source code 0x47 is reserved (02 R37). -/
theorem test_decode_bad_source :
    decodeBytes (wordBytes 0b0_000010_0000_111_0_111_0_000001_0_1000111_00_0000011_00_0000000_00_00_00000_0_000) = .error .reservedField := by
  rfl

/-! ### One step on a small state -/

/-- One block of one group of 32 lanes at PC 0, with a word in focus. -/
def st0 : State := State.reset.withFetchWord 64 0

/-- The group in focus changed by `f`. -/
def onGrp (s : State) (f : Group → Group) : State :=
  match s.cur? with
  | some q => s.putGrp q (f q.grp)
  | none => s

/-- Registers set in every lane. -/
def withRegs (s : State) (f : Nat → List (Nat × W64)) : State :=
  onGrp s fun g => g.mapLanes fun k l => (f k).foldl (fun l p => l.setReg (BitVec.ofNat 6 p.1) p.2 false) l

/-- The same registers in every lane of the placed block. -/
def regs (l : List (Nat × W64)) : State := withRegs st0 fun _ => l

/-- A register of a lane after a word, where it answers a next state. -/
def regOf (o : Out) (k : Nat) (r : Reg) : Option W64 :=
  match o with
  | .next t => t.cur?.map fun q => (q.grp.lane k).reg r
  | _ => none

/-- A predicate of a lane after a word. -/
def predOf (o : Out) (k : Nat) (p : BitVec 3) : Option Bool :=
  match o with
  | .next t => t.cur?.map fun q => (q.grp.lane k).pr p
  | _ => none

/-- Something of the group in focus after a word. -/
def grpOf {α : Type} (o : Out) (f : Group → α) : Option α :=
  match o with
  | .next t => t.cur?.map fun q => f q.grp
  | _ => none

/-- The fault code on its way for the group in focus, and its lane. -/
def stopOf (o : Out) : Option (FaultCode × Nat) :=
  (grpOf o fun g => g.park).bind fun p =>
    match p with
    | .fault _ _ f => some (f.code, f.lane)
    | _ => none

/-- A scratch byte of the block in focus after a word. -/
def scratchByte (o : Out) (a : Nat) : Option Byte :=
  match o with
  | .next t => t.cur?.map fun q => q.blk.st.scratch.byte a
  | _ => none

/-- The first byte of the scratch window (06 R140). -/
def win : W64 := 0x1FFFFE00000

/-- The sub-elements do not carry into each other (05 R106). -/
theorem test_add_wraps :
    regOf (exec (.add tu ⟨td 3, tr 1, tr 2, .i32x2⟩) (regs [(1, 0xFFFFFFFF00000001), (2, 0x0000000100000002)])) 31 3 = some 3 := by decide
/-- 127 + 1 stays 127, -128 + -1 stays -128 (05 R106). -/
theorem test_adds_clamps :
    regOf (exec (.adds tu ⟨td 3, tr 1, tr 2, .i8x8⟩) (regs [(1, 0x7F80), (2, 0x01FF)])) 0 3 = some 0x7F80 := by decide
/-- A source that is also the destination is read before it is written (02 R36). -/
theorem test_sub_same_register :
    regOf (exec (.sub tu ⟨td 1, tr 2, tr 1, .i64⟩) (regs [(1, 5), (2, 3)])) 0 1 = some 0xFFFFFFFFFFFFFFFE := by decide
/-- -1 and -2 average to floor(-2 / 2) (05 R106). -/
theorem test_avg_floor :
    regOf (exec (.avg tu ⟨td 3, tk 15, tk 14, .i64⟩) st0) 0 3 = some 0xFFFFFFFFFFFFFFFF := by decide
/-- The inline constant 31 fills every nibble as -1 (02 R38). -/
theorem test_constant_fill : regOf (exec (.mov tu ⟨td 3, tk 47, .i4x16⟩) st0) 0 3 = some 0xFFFFFFFFFFFFFFFF := by decide
/-- A slice of 18 bits, the rest kept (05 R108). -/
theorem test_movhi_keeps :
    regOf (exec (.movhi tu ⟨td 3, .j1, 0x2BEEF⟩) (regs [(3, 0xFFFFFFFFFFFFFFFF)])) 0 3 = some 0xFFFFFFFAFBBFFFFF := by decide
theorem test_movi_sign : regOf (exec (.movi tu ⟨td 3, 0x3FFFE⟩) st0) 0 3 = some 0xFFFFFFFFFFFFFFFE := by decide
/-- A latch reads through to the register of the last word (01 R20). -/
theorem test_latch :
    regOf (exec (.add tu ⟨td 3, ⟨.latch 0, .whole⟩, tk 17, .i64⟩) (onGrp (regs [(5, 41)]) fun g => { g with l0 := some 5 })) 0 3 = some 42 := by
  decide
/-- Division by 0 gives all ones, and the remainder the dividend (05 R110). -/
theorem test_div_zero :
    regOf (exec (.div tu ⟨td 3, tr 1, ⟨.zero, .whole⟩, .i64⟩) (regs [(1, 7)])) 0 3 = some 0xFFFFFFFFFFFFFFFF ∧
    regOf (exec (.rem tu ⟨td 3, tr 1, ⟨.zero, .whole⟩, .i64⟩) (regs [(1, 7)])) 0 3 = some 7 := by decide
/-- The remainder has the sign of the dividend (05 R110). -/
theorem test_rem_sign : regOf (exec (.rem tu ⟨td 3, tk 9, tk 19, .i64⟩) st0) 0 3 = some 0xFFFFFFFFFFFFFFFF := by decide
theorem test_mulh_sign : regOf (exec (.mulh tu ⟨td 3, tk 15, tk 17, .i64⟩) st0) 0 3 = some 0xFFFFFFFFFFFFFFFF := by decide
/-- A count of the width gives 0, or the sign (05 R111). -/
theorem test_shift_width :
    regOf (exec (.shl tu ⟨td 3, tk 17, tk 32, .i16x4⟩) st0) 0 3 = some 0 ∧
    regOf (exec (.sar tu ⟨td 3, tr 1, tr 2, .i64⟩) (regs [(1, 0x8000000000000000), (2, 64)])) 0 3 = some 0xFFFFFFFFFFFFFFFF := by decide
/-- A field that passes the end of the sub-element is cut there (05 R112). -/
theorem test_bfx_end :
    regOf (exec (.bfx tu ⟨td 3, tr 1, tr 2, tk 24, .i64⟩) (regs [(1, 0xA000000000000000), (2, 60)])) 0 3 = some 0xFFFFFFFFFFFFFFFA := by decide
theorem test_pack_order :
    regOf (exec (.pack tu ⟨td 3, tr 1, tr 2, .i32x2⟩) (regs [(1, 0x0002AAAA0001BBBB), (2, 0x0004CCCC0003DDDD)])) 0 3 =
      some 0xCCCCDDDDAAAABBBB := by decide
/-- A condition must hold in every sub-element (05 R114). -/
theorem test_cmp_all :
    predOf (exec (.cmp tu ⟨2, tr 1, tr 2, .lt, .i32x2⟩) (regs [(1, 0xFFFFFFFF00000001), (2, 0x0000000000000001)])) 0 2 = some false ∧
    predOf (exec (.cmp tu ⟨2, tr 1, tr 2, .le, .i32x2⟩) (regs [(1, 0xFFFFFFFF00000001), (2, 0x0000000000000001)])) 0 2 = some true := by decide
/-- p7 shows a 1, the others start at 0 (05 R117). -/
theorem test_pget : regOf (exec (.pget tu (td 3)) st0) 0 3 = some 0x80 := by decide
theorem test_elect : predOf (exec (.elect tu 1) st0) 0 1 = some true ∧ predOf (exec (.elect tu 1) st0) 1 1 = some false := by decide
/-- 1 + 1 = 2 in both halves (03, 05 R118). -/
theorem test_fadd :
    regOf (exec (.fadd tu ⟨td 3, tr 1, tr 1, .f32x2⟩) (regs [(1, 0x3F8000003F800000)])) 0 3 = some 0x4000000040000000 := by decide
/-- 1 / 0 is an infinity and sets DZ alone (03, 05 R124). -/
theorem test_fdiv_zero :
    regOf (exec (.fdiv tu ⟨td 3, tr 1, ⟨.zero, .whole⟩, .f64⟩) (regs [(1, 0x3FF0000000000000)])) 0 3 = some 0x7FF0000000000000 ∧
    grpOf (exec (.fdiv tu ⟨td 3, tr 1, ⟨.zero, .whole⟩, .f64⟩) (regs [(1, 0x3FF0000000000000)])) (fun g => g.flg) = some flDZ := by decide
/-- 2.5 rounds to the even neighbour, and upward to 3 (03 R69, 05 R122). -/
theorem test_fround_ties :
    regOf (exec (.fround tu ⟨td 3, tr 1, .rne, .f64⟩) (regs [(1, 0x4004000000000000)])) 0 3 = some 0x4000000000000000 ∧
    regOf (exec (.fround tu ⟨td 3, tr 1, .ru, .f64⟩) (regs [(1, 0x4004000000000000)])) 0 3 = some 0x4008000000000000 := by decide
/-- 200.0 as s8 is 127 (03 R72). -/
theorem test_cvt_clamps :
    regOf (exec (.cvt tu ⟨td 3, tr 1, .s8, .f64, .rne⟩) (regs [(1, 0x4069000000000000)])) 0 3 = some 0x7F := by decide
/-- REDL.add over the 32 lane numbers is 496 in every lane; SCANL.excl of the ones is the lane number (05 R135). -/
theorem test_lane_sums :
    regOf (exec (.redl tu ⟨td 3, ⟨.lane, .whole⟩, .int .add .i64, false⟩) st0) 7 3 = some 496 ∧
    regOf (exec (.scanl tu ⟨td 3, tk 17, .int .add .i64, true⟩) st0) 7 3 = some 7 := by decide
theorem test_shfl : regOf (exec (.shfl tu ⟨td 3, ⟨.lane, .whole⟩, tk 19, .i64⟩) st0) 9 3 = some 3 := by decide
/-- Both slots read before either writes: the registers change places (02 R46). -/
theorem test_dual_swap :
    regOf (exec (.slotMov 0 ⟨td 1, .reg 2, .whole, 7, false, .i64⟩ (.int .mov ⟨td 2, .reg 1, .whole, 7, false, .i64⟩)) (regs [(1, 11), (2, 22)])) 0 1 =
      some 22 ∧
    regOf (exec (.slotMov 0 ⟨td 1, .reg 2, .whole, 7, false, .i64⟩ (.int .mov ⟨td 2, .reg 1, .whole, 7, false, .i64⟩)) (regs [(1, 11), (2, 22)])) 0 2 =
      some 11 := by decide
theorem test_rdsr : regOf (exec (.rdsr tu (td 3) .lane) st0) 9 3 = some 9 := by decide
/-- CALL leaves the address of the next word and goes to its target (08 R221). -/
theorem test_call :
    regOf (exec (.call tu (td 3) 4) st0) 0 3 = some 8 ∧ grpOf (exec (.call tu (td 3) 4) st0) (fun g => g.slot0.e.pc) = some 32 := by decide
/-- A branch that every lane takes moves the entry; offset -1 wraps below PC 0 within 57 bits (08 R222). -/
theorem test_bra : grpOf (exec (.bra tu 2) st0) (fun g => (g.slot0.e.pc, g.slot0.e.mask)) = some (16, 0xFFFFFFFF) := by decide
theorem test_bra_split :
    grpOf (exec (.bra ⟨1, false, 7, false, 0, false⟩ 2)
      (onGrp st0 fun g => g.mapLanes fun k l => l.setPred 1 (decide (k < 4)))) (fun g => (g.slot0.e, g.slot1.e)) =
      some (⟨8, 0xFFFFFFF0⟩, ⟨16, 0xF⟩) := by decide
/-- A target that is no multiple of 8 faults in the lowest lane (08 R223). -/
theorem test_jmpi_misaligned : stopOf (exec (.jmpi tu (tr 1)) (regs [(1, 12)])) = some (.misaligned, 0) := by decide
theorem test_halt_illegal : stopOf (exec (.halt tu) st0) = some (.illegalInstr, 0) := by decide
theorem test_trap : stopOf (exec (.trap tu 5) st0) = some (.trapInstr, 0) := by decide
/-- The highest lane's bytes stay where lanes meet in scratch, little-endian (06 R154, 00 R3). -/
theorem test_store_scratch :
    scratchByte (exec (.st tu ⟨2, .reg 1, 1, .b2, .normal⟩) (withRegs st0 fun k => [(1, win), (2, BitVec.ofNat 64 (0x100 + k))])) 2 = some 31 ∧
    scratchByte (exec (.st tu ⟨2, .reg 1, 1, .b2, .normal⟩) (withRegs st0 fun k => [(1, win), (2, BitVec.ofNat 64 (0x100 + k))])) 3 = some 1 := by decide +kernel
theorem test_store_misaligned : stopOf (exec (.st tu ⟨2, .reg 1, 0, .b4, .normal⟩) (regs [(1, win + 2)])) = some (.misaligned, 0) := by decide
/-- 16,384 bytes of scratch: the access at their end faults (06 R140). -/
theorem test_load_range : stopOf (exec (.ld tu ⟨td 2, .reg 1, 0, .b8, .normal⟩) (regs [(1, win + 16384)])) = some (.scratchRange, 0) := by decide
/-- Lanes act in ascending order on one location: each has the sum of the lanes below it (06 R159). -/
theorem test_atom_scratch :
    regOf (exec (.atomAdd tu ⟨td 2, .reg 1, .lane, .rlx, .blk, .s, .b4⟩) (regs [(1, win)])) 4 2 = some 6 ∧
    scratchByte (exec (.atomAdd tu ⟨td 2, .reg 1, .lane, .rlx, .blk, .s, .b4⟩) (regs [(1, win)])) 0 = some 0xF0 := by decide +kernel
/-- MKT keeps the low 60 bits of its payload under the tag; a tag of 0xC is refused (08 R236). -/
theorem test_mkt :
    regOf (exec (.mkt tu ⟨td 2, tr 1, tk 19⟩) (regs [(1, 0xF000000000000008)])) 0 2 = some 0x3000000000000008 ∧
    stopOf (exec (.mkt tu ⟨td 2, tr 1, tk 28⟩) st0) = some (.termTag, 0) := by decide +kernel
/-- MZERO outside the window [ACB, ACL) faults, inside it joins batch 0 (07 R200, R204). -/
theorem test_mzero :
    stopOf (exec (.mzero tu 0) st0) = some (.accWindow, 0) ∧
    grpOf (exec (.mzero tu 0) (onGrp st0 fun g => { g with acl := 64 })) (fun g => g.batches.map fun t => (t.num, t.closed, t.ops.length)) =
      some [(0, false, 1)] := by decide +kernel
/-- A barrier slot of a block of one group: the only arrival flips the phase, and the lanes go on (06 R171). -/
theorem test_bar :
    grpOf (exec (.bar tu 3) st0) (fun g => (g.slot0.e.pc, g.waiting 3)) = some (8, 0) := by decide +kernel
/-- TRAP inside a false guard only ends (08 R251). -/
theorem test_trap_guard : grpOf (exec (.trap { tu with ga := 0 } 5) st0) (fun g => (g.park, g.slot0.e.pc)) = some (.none, 8) := by decide
/-- A whole step: fetch, decode, ADD.i32x2 v5, v3, #7 of chapter 02. -/
theorem test_step_add :
    (match step (withRegs (State.reset.withFetchWord 64 0x041DC28199C00011) fun _ => [(3, 0xFFFFFFFF00000001)]) with
      | .next t => (t.curOf ⟨0, 0, false⟩).map fun q => ((q.grp.lane 0).reg 5, q.grp.slot0.e.pc, q.grp.stallUntil, t.focus)
      | _ => none) = some (0x0000000600000008, 8, 1, none) := by decide

/-! ### Premises that can be met: the words

A witness for each statement that has premises: concrete states that meet them together, clause by clause. A premise over every lane
is shown for the 32 positions; `runs_lt` says that no other position executes. -/

/-- The group in focus. -/
def theCur (s : State) : Cur := s.cur?.getD ⟨0, Block.placed, 0, Group.fresh 16384 0 0 0 [], false⟩

/-- The placed block with the entry narrowed to the lanes of a mask. -/
def lanesOf (m : Mask) (s : State) : State := onGrp s fun g => { g with slot0 := { g.slot0 with e := { g.slot0.e with mask := m } } }

/-- A leaf entry of HBM page 0 with R, W and X (17 R356). -/
def leaf0 : W64 := 0xC070000000000000

/-- The micro-TLB of core 0 holds an entry for the page at address 0 of ASID 0. -/
def mappedAs (leaf : W64) (s : State) : State := s.setCore 0 0 { s.core 0 0 with utlb := [(trKey 0 0 false, leaf)] }

/-- The page at address 0 stands at the start of HBM. -/
def mapped : State → State := mappedAs leaf0

/-- The block in focus changed. -/
def onBlk (s : State) (f : Block → Block) : State :=
  match s.cur? with
  | some q => s.setBlock q.id (f q.blk)
  | none => s

theorem runs_lt {g : Group} {z : Bool} {c : Ctl} {k : Nat} (h : g.runs z c k = true) : k < 32 := by
  simp only [Group.runs, Group.inEntry, Bool.and_eq_true] at h
  exact BitVec.lt_of_getLsbD h.1.1

theorem reaches_of {s : State} {c : Ctl} {req : Nat → Req} {past : Nat → Bool} {later : Bool} (h : s.cur? = some (theCur s))
    (h0 : (theCur s).blk.spec = none)
    (hk : ∀ k < 32, (theCur s).grp.runs (theCur s).slot c k = true → (s.check (theCur s) k (req k)).passed = true ∧
      s.readsPoison (theCur s) (req k) (past k) (s.check (theCur s) k (req k)) = false ∧
      s.accessHeld (theCur s) (req k) (past k) (s.check (theCur s) k (req k)) = false ∧
      s.readWaits (theCur s) k (req k) (s.check (theCur s) k (req k)) = false) : Reaches s (theCur s) c req past later :=
  ⟨h, h0, fun k e => (hk k (runs_lt e) e).1, fun k e _ => (hk k (runs_lt e) e).2.1, fun k e _ => (hk k (runs_lt e) e).2.2.1,
    fun k e _ => (hk k (runs_lt e) e).2.2.2⟩

/-- A word in focus, with 32 lanes that execute it: all that IntegerArithmetic, IntegerProducts, BitWords, Comparisons, FloatWords,
LaneWords and SpecialReads ask. -/
theorem witness_issuing : st0.cur? = some (theCur st0) ∧ (theCur st0).active tu = List.range 32 := ⟨rfl, by decide⟩

theorem witness_FloatRounding : (0 : Int) < 1 ∧ FFmt.f16 ≠ .e4m3 := by decide

theorem witness_ConversionWords : st0.cur? = some (theCur st0) ∧ (3 : BitVec 7).toNat < IType.i4x16.width := ⟨rfl, by decide⟩

theorem witness_DualWords :
    let i := Instr.slotNop 0 (.int .not ⟨td 1, .reg 2, .whole, 7, false, .i64⟩)
    st0.cur? = some (theCur st0) ∧ i.slotX?.isSome = true ∧ i.slotY?.isSome = true := ⟨rfl, by decide⟩

/-- No lane executes under a false guard; DSP misaligned, beyond SIZE, and at its least. -/
theorem witness_SpecialWrites :
    (theCur st0).active { tu with ga := 0 } = [] ∧ ∃ l, (theCur st0).active tu = 0 :: l ∧
    (∃ v : W64, (v.extractLsb' 0 32).toNat % 16 ≠ 0) ∧
    (∃ v : W64, (v.extractLsb' 32 32).toNat % 16 = 0 ∧ (v.extractLsb' 0 32).toNat % 16 = 0 ∧ 16384 < (v.extractLsb' 0 32).toNat) ∧
    16 * (theCur st0).grp.depth ≤ (theCur st0).blk.scratchSize :=
  ⟨by decide, (List.range 32).tail, by decide, ⟨8, by decide⟩, ⟨16400, by decide⟩, by decide⟩

/-- The even lanes go to 0x100: two entries, placed without the stack. -/
theorem witness_Splits :
    let q := theCur st0
    let next := fun k => some (if k % 2 = 0 then (0x100 : BitVec 57) else 8)
    q.grp.StackOk ∧ (∀ k pc, next k = some pc → pc.extractLsb' 0 3 = 0) ∧
      q.grp.dspFloor.toNat + 16 * ((targets q.mask next).length - 1) ≤ q.grp.dspTop.toNat ∧
      (placeEntries q.blk.st q.grp q.slot (targets q.mask next)).isSome = true := by
  refine ⟨by unfold Group.StackOk; decide, ?_, by decide, by decide⟩
  intro k pc h
  have : pc = 0x100 ∨ pc = 8 := by
    by_cases e : k % 2 = 0
    · left; simpa [e] using h.symm
    · right; simpa [e] using h.symm
  rcases this with rfl | rfl <;> decide

/-- A stack with room; one without, for three targets; a misaligned target, and one beyond the address space. -/
theorem witness_Branches :
    let s1 := withRegs st0 fun k => [(1, BitVec.ofNat 64 (8 * k)), (2, 12), (3, 0x0200000000000000)]
    let s2 := onGrp s1 fun g => { g with dspFloor := g.dspTop }
    let next := fun (q : Cur) k => if q.grp.runs q.slot tu k then some ((q.grp.opnd (.int .i64 false) (tr 1) k).extractLsb' 0 57) else q.stay
    s1.cur? = some (theCur s1) ∧ (theCur s1).grp.StackOk ∧ (theCur s1).pc.extractLsb' 0 3 = 0 ∧ Fits (theCur s1) (theCur s1).grp (next (theCur s1)) ∧
      s2.cur? = some (theCur s2) ∧ (theCur s2).grp.StackOk ∧ ¬ Fits (theCur s2) (theCur s2).grp (next (theCur s2)) ∧
      ((theCur s1).grp.opnd (.int .i64 false) (tr 2) 0).extractLsb' 0 3 ≠ 0 ∧
      ((theCur s1).grp.opnd (.int .i64 false) (tr 3) 0).extractLsb' 57 7 ≠ 0 := by
  unfold Group.StackOk Fits
  exact ⟨rfl, by decide +kernel, by decide +kernel, by decide +kernel, rfl, by decide +kernel, by decide +kernel, by decide +kernel, by decide +kernel⟩

/-- The entry alone, and with another at a smaller PC; no marker, so none is BUSY; a group of which one lane leaves, or all. -/
theorem witness_FlowWords :
    let q := theCur st0
    let s1 := onGrp st0 fun g => { g with slot0 := slotAt ⟨64, 0xF⟩, slot1 := slotAt ⟨8, 0xF0⟩ }
    (q.grp.pcSlot !q.slot).e.mask = 0 ∧ q.blk.st.stack q.grp = [] ∧
      ((theCur s1).grp.pcSlot !(theCur s1).slot).e.mask ≠ 0 ∧ ¬ (theCur s1).pc ≤ ((theCur s1).grp.pcSlot !(theCur s1).slot).e.pc ∧
      (∀ k < 32, (q.grp.lane k).markers = []) ∧ q.grp.runs q.slot tu 0 = true ∧
      (∃ k < 32, ((q.grp.lane k).present && !(1 : Mask).getLsbD k) = true) ∧
      (∀ k < 32, ((q.grp.lane k).present && !(0xFFFFFFFF : Mask).getLsbD k) = false) ∧ q.grp.retired = false ∧ q.blk.st.bars.length = 8 := by
  decide +kernel

/-- Two contexts, one under DEBUG, and the block as a speculation. -/
theorem witness_Traps :
    let s1 : State := { st0 with ctxs := st0.ctxs.put 0 ⟨0x10000, true, 0, 0, [], 0, 0, [], 8, [], [], false, false⟩ }
    let s2 := onBlk st0 fun b => { b with spec := some 3 }
    (theCur st0).grp.inEntry (theCur st0).slot 0 = true ∧ s1.cur? = some (theCur s1) ∧ (theCur s1).blk.spec = none ∧
      ((s1.ctxs.get? (theCur s1).blk.asid).map fun c => c.debug) = some true ∧ s2.cur? = some (theCur s2) ∧ (theCur s2).blk.spec = some 3 :=
  ⟨by decide, rfl, by decide, by decide, rfl, by decide⟩

/-- A root table that maps the first 2 GiB onto themselves (17 R355, R356). -/
def withTable (s : State) : State :=
  { s with
    ctxs := s.ctxs.put 0 ⟨0x10000, false, 0, 0x2000, [], 0, 0, [], 8, [], [], false, false⟩
    ms := { s.ms with mem := (s.ms.mem.setWord 0x10000 0x8000000000000002).setWord 0x20000 0xC070000000000000 } }

/-- A fault whose page a walk finds, and one whose page it does not. -/
theorem witness_PageFaults :
    let f : FaultInfo := { code := .pageFaultRead, ea := 0x40000 }
    f.code ∈ [FaultCode.pageFaultRead, .pageFaultWrite, .permission] ∧ f.atOnce = false ∧
      (withTable st0).ms.walkRaw ((withTable st0).root 0) f.ea = some (leaf0, true) ∧ pteR leaf0 = true ∧ pteW leaf0 = true ∧
      st0.ms.walkRaw (st0.root 0) f.ea = none ∧ st0.cur? = some (theCur st0) ∧ (theCur st0).blk.spec = none := by decide +kernel

/-- Every answer of the checks, at the edges of the window and of the address space. -/
theorem witness_AccessChecks :
    let b := theCur st0
    let r := fun (a : W64) (w : Bool) => (⟨a, 8, w, !w, w, .any, false, false⟩ : Req)
    let ro := mappedAs 0xC040000000000000 st0
    let far := mappedAs 0xC070000000800000 st0
    st0.check b 0 (r 4 false) = .fault { code := .misaligned, lane := 0, ea := 4 } ∧
    st0.check b 0 (r (win + 16376) false) = .scratch 16376 ∧
    st0.check b 0 (r (win + 16384) false) = .fault { code := .scratchRange, lane := 0, ea := win + 16384 } ∧
    st0.check b 0 { r 8 false with side := .scratch } = .fault { code := .scratchRange, lane := 0, ea := 8 } ∧
    st0.check b 0 { r 0x0200000000000000 false with side := .scratch } =
      .fault { code := .pageFaultRead, lane := 0, ea := 0x0200000000000000, atOnce := true } ∧
    st0.check b 0 (r 0x0200000000000000 true) = .fault { code := .pageFaultWrite, lane := 0, ea := 0x0200000000000000, atOnce := true } ∧
    st0.check b 0 (r 0x01FFFFFFFFFFFFF8 false) = .walk 0x01FFFFFFFFFFFFF8 ∧
    (mapped st0).check b 0 (r 0x3FFF8 true) = .global leaf0 0x3FFF8 ∧
    (∃ x, ro.check b 0 (r 8 true) = .fault { code := .permission, lane := 0, ea := 8, arg := x }) ∧
    (mapped st0).check b 0 { r 8 false with ms := true } = .fault { code := .permission, lane := 0, ea := 8, atOnce := true } ∧
    far.check b 0 (r 8 false) = .fault { code := .pageFaultRead, lane := 0, ea := 8, atOnce := true } :=
  ⟨by decide, by decide, by decide, by decide, by decide, by decide, by decide, by decide +kernel, ⟨_, rfl⟩, by decide +kernel, by decide +kernel⟩

/-- Every lane addresses scratch, and a page that the cluster holds. -/
def near : State := regs [(1, win), (2, 5), (3, win + 64), (4, 1)]
def global : State := withRegs (mapped st0) fun k => [(1, BitVec.ofNat 64 (64 * k)), (2, 5), (3, 64), (4, 1)]

theorem witness_Loads :
    Reaches near (theCur near) tu (loadReq (fun g k => eaM g (.reg 1) 1 8 k) 8 (theCur near)) (fun _ => true) true ∧
    Reaches global (theCur global) tu (loadReq (fun g k => eaM g (.reg 1) 1 8 k) 8 (theCur global)) (fun k => (theCur global).grp.srcTaint (.reg 1) k) true ∧
    Reaches global (theCur global) tu (loadReq (fun g k => eaO g (.reg 1) 1 8 k) 8 (theCur global)) (fun _ => true) false :=
  ⟨reaches_of rfl rfl (by decide +kernel), reaches_of rfl rfl (by decide +kernel), reaches_of rfl rfl (by decide +kernel)⟩

theorem witness_Stores :
    Reaches near (theCur near) tu (storeReq (fun g k => eaM g (.reg 1) 1 8 k) 8 (theCur near)) (fun _ => false) false ∧
    near.drainDone (theCur near).blk 0 0 0 .results = true ∧
    Reaches global (theCur global) tu (storeReq (fun g k => eaO g (.reg 1) 1 8 k) 8 (theCur global)) (fun _ => false) false :=
  ⟨reaches_of rfl rfl (by decide +kernel), by decide, reaches_of rfl rfl (by decide +kernel)⟩

theorem witness_CacheWords :
    Reaches global (theCur global) tu (storeReq (fun g k => eaM g (.reg 1) 1 1 k) 1 (theCur global)) (fun _ => false) false ∧
    (∀ a ∈ [Acks.reads, .results, .group, .chip], global.drainDone (theCur global).blk 0 0 0 a = true) ∧ (theCur global).active tu ≠ [] ∧
    (theCur global).blk.spec = none :=
  ⟨reaches_of rfl rfl (by decide +kernel), by decide +kernel, by decide, by decide⟩

theorem witness_Atomics :
    Reaches near (theCur near) tu (atomReq (.reg 1) 8 (theCur near)) (fun _ => false) false ∧
    Reaches global (theCur global) tu (atomReq (.reg 1) 4 (theCur global)) (fun _ => true) false ∧ near.ms.copies = [] ∧
    near.drainDone (theCur near).blk 0 0 0 .results = true :=
  ⟨reaches_of rfl rfl (by decide +kernel), reaches_of rfl rfl (by decide +kernel), rfl, by decide⟩

/-- ATOMC asks for a memory-side page. -/
theorem witness_ContinuationAtomics :
    let s := mappedAs 0xC078000000000000 global
    Reaches s (theCur s) tu (atomcReq (.reg 1) (theCur s)) (fun _ => true) false := reaches_of rfl rfl (by decide +kernel)

/-- An object that no copy names, and one that a copy names; a token of the present phase, of the one before, and of one to come. -/
theorem witness_ObjectWords :
    let c : CopyOp := ⟨.load, 0, 0, 0, 0, 0, 0, [0], 0, 256, [], [], 0, 0, 64, 0, [], [], [], [], false, true, false⟩
    let busy : State := { near with ms := { near.ms with copies := [(0, c)] } }
    let ahead := fun (v : BitVec 16) => (((theCur near).blk.st.obj 0).phase - v).toNat
    Reaches near (theCur near) tu (objReq (tr 1) (theCur near)) (fun _ => false) false ∧
    Reaches busy (theCur busy) tu (objReq (tr 1) (theCur busy)) (fun _ => false) false ∧
    (∃ p ∈ busy.ms.copies, p.2.objs.contains 0 = true ∧ p.2.objOff = 0) ∧ busy.check (theCur busy) 0 (objReq (tr 1) (theCur busy) 0) = .scratch 0 ∧
    near.drainDone (theCur near).blk 0 0 0 .results = true ∧ ahead 0 = 0 ∧ ahead 0xFFFF = 1 ∧ 2 ^ 15 ≤ ahead 1 :=
  ⟨reaches_of rfl rfl (by decide +kernel), reaches_of rfl rfl (by decide +kernel), by decide, by decide +kernel, by decide, by decide, by decide, by decide⟩

/-- On scratch the value read is 0: equal to v9, not to v2. -/
theorem witness_WaitWord :
    Reaches near (theCur near) tu (fun k => ⟨(theCur near).grp.src (.int .i64 false) (.reg 1) k, 8, false, true, false, .any, false, false⟩) (fun _ => true) false ∧
    ((theCur near).grp.pcSlot (theCur near).slot).wait = .none ∧
    near.clk (theCur near).blk.cl < ((theCur near).grp.pcSlot (theCur near).slot).began + 65536 ∧ remoteChk near.fab.chip (.scratch 0) = false ∧
    WCondIs .eq (0 : W64) ((theCur near).grp.src (.int .i64 false) (.reg 9) 0) ∧ ¬ WCondIs .eq (0 : W64) ((theCur near).grp.src (.int .i64 false) (.reg 2) 0) :=
  ⟨reaches_of rfl rfl (by decide +kernel), rfl, by decide, rfl, by unfold WCondIs; decide, by unfold WCondIs; decide⟩

/-- Lanes wait at slot 2 and the rest goes on; a group whose 32 lanes wait, the last that is expected, protected or not. -/
theorem witness_Barriers :
    let q := theCur st0
    let next := fun k => if q.grp.runs q.slot tu k then some q.pc else q.stay
    let all := onGrp st0 fun g => { g with barWait := g.barWait.set 2 0xFFFFFFFF }
    q.grp.StackOk ∧ q.pc.extractLsb' 0 3 = 0 ∧ st0.drainDone q.blk 0 0 0 .results = true ∧ Fits q q.grp next ∧ 2 < q.grp.barWait.length ∧
    2 < q.blk.st.bars.length ∧ (theCur all).grp.live ≠ 0 ∧
    (∀ l < 32, (theCur all).grp.live.getLsbD l = true → ((theCur all).grp.waiting 2).getLsbD l = true) ∧ (theCur all).grp.barCounted.getLsbD 2 = false ∧
    ((theCur all).blk.st.bar 2).arrived + 1 = ((theCur all).blk.st.bar 2).expected ∧ (theCur all).blk.protect = false ∧
    (theCur all).grp.slot0.e.mask &&& ~~~(theCur all).grp.waiting 2 = 0 ∧ (theCur all).blk.st.stack (theCur all).grp = [] := by
  unfold Group.StackOk Fits
  decide +kernel

/-- Another group of the core, not yet at its REGROUP; a group alone. -/
theorem witness_Regroup :
    let two := onBlk st0 fun b => { b with st := { b.st with groups := b.st.groups ++ b.st.groups } }
    let q := theCur two
    let next := fun k => if q.grp.runs q.slot tu k then some q.pc else q.stay
    let p := theCur st0
    two.cur? = some q ∧ q.grp.StackOk ∧ q.active tu ≠ [] ∧ Fits q q.grp next ∧
    ((q.blk.st.groups[1]?).any fun g => q.blk.coreOf 1 == q.co && !g.retired && g.atRegroup.isNone) = true ∧
    p.grp.retired = false ∧ p.grp.live = p.mask ∧ (∀ k < 32, p.grp.runs p.slot tu k = true) ∧ (p.grp.pcSlot !p.slot).e.mask = 0 ∧ p.grp.depth = 0 ∧
    p.blk.st.groups.length = 1 := by
  unfold Group.StackOk Fits
  exact ⟨rfl, by decide +kernel⟩

/-! ### Premises that can be met: queues, engines, terms -/

/-- Words at an address of memory. -/
def poke (s : State) (a : Nat) : List W64 → State
  | [] => s
  | w :: l => poke { s with ms := { s.ms with mem := s.ms.mem.setWord a w } } (a + 8) l

/-- Words at an offset of the scratchpad in focus. -/
def pokeScratch (s : State) (a : Nat) (l : List W64) : State :=
  onBlk s fun b => { b with st := { b.st with scratch := (l.zipIdx).foldl (fun m p => m.setWord (a + 8 * p.2) p.1) b.st.scratch } }

/-- A queue of 16 entries, mapped in slot 0: its control block at 0x8000, its ring at 0x9000. -/
def tq : Queue := ⟨0, 0x8000, 0x8000, 0x9000, 0, 0xFFFF, 0, 4, .mapped, false, false, 0, 0, 0, 0, 0, none, false, .none, 0, false, none, 0, [], .none⟩

/-- A LAUNCH packet: one block of one group, 16 KiB of scratch, descriptor at 0xA000, no signal. -/
def tw : List W64 := [0x1B03, 0xA000, 0x2000000005, 0, 0, 0x200040, 0, 0, 0, 0, 0, 0, 0, 0, 0, 0]

/-- Its descriptor: entry at 0xB000. -/
def tdesc : List W64 := [0xB000, 0x200040, 0x2000000005, 0, 0, 0, 0, 0]

/-- The launch of that packet. -/
def tl : Launch := ⟨0, 0, 0, tw, tdesc, 1, 0, none, [], 0, false, 0, false, 0, [], false, false, none⟩

/-- Context 0 with its table, and the queue in slot 0. -/
def queued (s : State) (x : Queue) : State :=
  let t := withTable s
  { t with qs := { t.qs with
      queues := [(0, x)]
      slots := [(0, { SlotState.free with q := some 0, woken := true })] } }

/-- The same, with a packet at position 0 and the descriptor. -/
def packet (w : List W64) : State := poke (poke (queued State.reset tq) 0x9000 w) 0xA000 tdesc

/-- The same, with a launch. -/
def launched (s : State) (x : Launch) : State :=
  let t := queued s tq
  { t with qs := { t.qs with launches := [(0, x)] } }

/-- Cluster 0 at a local cycle. -/
def atClk (n : Nat) (s : State) : State := s.setCluster 0 { s.cluster 0 with clk := n }

/-- Core 0 of cluster 0 changed. -/
def onCore (s : State) (f : CoreState → CoreState) : State := s.setCore 0 0 (f (s.core 0 0))

/-- The entry in focus waits. -/
def inWait (w : SWait) : State := onGrp st0 fun g => { g with slot0 := { g.slot0 with wait := w } }

theorem witness_ErrorDelivery :
    let s := launched st0 tl
    let f : FaultInfo := { code := .misaligned }
    s.cur? = some (theCur s) ∧ (theCur s).blk.spec = none ∧ f.replayable = false ∧ f.code ≠ .poisonConsumed ∧
      s.qs.launches.get? (theCur s).blk.launch = some tl ∧ s.qs.queues.get? tl.q = some tq := ⟨rfl, by decide, by decide, by decide, rfl, rfl⟩

/-- A handle and a body that are misaligned; a handle that names no queue; and one lane whose handle names the queue. -/
theorem witness_Enqueue :
    let s := lanesOf 1 (withRegs (mapped (queued st0 tq)) fun _ => [(1, 0x8000), (2, 0xC000), (3, 0x8008), (4, 0x8100)])
    let q := theCur s
    s.cur? = some q ∧ q.active tu = [0] ∧ q.blk.spec = none ∧ (q.grp.opnd (.int .i64 false) (tr 3) 0).toNat % 256 ≠ 0 ∧
      (planEnqs (s.planEnq q ⟨0, tr 1, tr 3⟩) (q.active tu) s.ms).isOk = false ∧
      (planEnqs (s.planEnq q ⟨0, tr 4, tr 2⟩) (q.active tu) s.ms).isOk = false ∧
      (planEnqs (s.planEnq q ⟨0, tr 1, tr 2⟩) (q.active tu) s.ms).isOk = true :=
  ⟨rfl, by decide +kernel, by decide +kernel, by decide +kernel, by decide +kernel, by decide +kernel, by decide +kernel⟩

/-- A record of two FP32 elements at an address. -/
def trec (base : W64) : List W64 := [base, 0x38, 2, 0, 0x200000000, 0, 0, 0]

/-- Records at the start of scratch; the object of a copy at 1024, its scratch side at 2048. -/
def tensors : State :=
  pokeScratch (lanesOf 1 (withRegs (mapped st0) fun _ =>
    [(1, win), (2, win + 64), (5, win + 1024), (6, win + 2048), (10, win + 8), (11, win + 16384), (12, 262160), (13, 16)])) 0
    (trec 0x400 ++ trec (win + 256))

/-- A copy that passes its checks and is not empty, with slots free and with none; a record, or a scratch side, that is misaligned, out of range, on the object or not
valid; an object misaligned and out of range; a COPYG of more than 256 KiB. -/
theorem witness_CopyWords :
    let s := tensors
    let q := theCur s
    let o : CBox := ⟨5, tr 6, tr 1, 7, .normal⟩
    let c : CopyOp := ⟨.load, 0, 0, 0, 0, 0, 0, [0], 0, 256, [], [], 0, 0, 64, 0, [], [], [], [], false, true, false⟩
    let full : State := { s with ms := { s.ms with copies := (List.range 16).map fun i => (i, c) } }
    s.cur? = some q ∧ q.done = 0 ∧ (q.grp.pcSlot q.slot).plans = [] ∧ q.active tu = [0] ∧
      (planAll (s.planBox q o .load) [0] s.ms).toOption.map (fun r => r.1.map CopyOp.empty) = some [false] ∧
      (win + 8).toNat % 64 ≠ 0 ∧ (s.readRecord q s.ms 0 (win + 128)).isOk = true ∧
      recordValid ((List.range 8).map fun _ => (0 : W64)) (coordsOf (q.grp.lane 0) 7) true = false ∧
      (planAll (s.planBox q { o with a := tr 10 } .load) [0] s.ms).isOk = false ∧ (planAll (s.planBox q { o with a := tr 11 } .load) [0] s.ms).isOk = false ∧
      s.ms.slotsUsed q.blk.cl q.co + 1 ≤ 16 ∧ 16 ≤ full.ms.slotsUsed q.blk.cl q.co ∧
      (planAll (full.planBox (theCur full) o .load) [0] full.ms).isOk = true ∧
      (planAll (s.planBox q { o with o := 10 } .store) [0] s.ms).isOk = false ∧ (planAll (s.planBox q { o with o := 11 } .store) [0] s.ms).isOk = false ∧
      (planAll (s.planBox q { o with a := tr 5 } .load) [0] s.ms).isOk = false ∧
      (planAll (s.planGlobal q ⟨5, tr 0, tr 0, tr 12, .normal⟩) [0] s.ms).isOk = false ∧
      (planAll (s.planGlobal q ⟨5, tr 0, tr 0, tr 13, .normal⟩) [0] s.ms).isOk = true := by
  refine ⟨rfl, ?_⟩
  decide +kernel

/-- The window [0, 64) and tile 0; tile 1, outside; operands at 0 and 4096 of scratch, misaligned, out of range, and a range held by a closed batch. -/
theorem witness_MatrixMultiply :
    let s := onGrp tensors fun g => { g with acl := 64 }
    let q := theCur s
    let held := onGrp s fun g => { g with batches := [⟨0, true, 0, 0, [], [(0, 6144, true)], []⟩] }
    s.cur? = some q ∧ q.active tu = [0] ∧ q.grp.acb.toNat + 64 ≤ q.grp.acl.toNat ∧ ¬ q.grp.acb.toNat + 128 ≤ q.grp.acl.toNat ∧ q.blk.pair = false ∧
      (q.grp.src (.int .i64 false) (.reg 1) 0).toNat % 16 = 0 ∧ 4096 ≤ q.blk.scratchSize ∧ (q.grp.src (.int .i64 false) (.reg 10) 0).toNat % 16 ≠ 0 ∧
      ¬ (q.grp.src (.int .i64 false) (.reg 11) 0).toNat - 0x1FFFFE00000 + 2048 ≤ q.blk.scratchSize ∧
      s.operandHeld q 0 2048 false = false ∧ held.operandHeld (theCur held) 0 2048 false = true := by
  refine ⟨rfl, ?_⟩
  decide +kernel

theorem witness_MatrixCells : (95 : Nat) < 96 ∧ (1 : Nat) ∈ [1, 2, 4, 8] ∧ inWindow win = true ∧ inWindow 0x1FFFFFFFFFF = true := by decide

/-- Tiles in the window and outside; batch 0 not issued, issued and retired, issued and closed; a window that is allowed and one that is not; another group. -/
theorem witness_MatrixWords :
    let s := onBlk (onGrp (lanesOf 1 (regs [(1, win), (2, win + 32), (3, 0x40), (4, 64), (5, 256), (6, 320), (7, 1)])) fun g => { g with acl := 64, bcnt := 1 })
      fun b => { b with st := { b.st with groups := b.st.groups ++ b.st.groups } }
    let q := theCur s
    let v := fun (x : Opnd) => q.grp.opnd (.int .i64 false) x 0
    let closed := onGrp s fun g => { g with batches := [⟨0, true, 0, 0, [], [(0, 24576, true)], []⟩] }
    let paged := mapped s
    s.cur? = some q ∧ q.active tu = [0] ∧ q.active { tu with ga := 0 } = [] ∧ q.grp.acb.toNat + 64 ≤ q.grp.acl.toNat ∧
      ¬ q.grp.acb.toNat + 128 ≤ q.grp.acl.toNat ∧ (v (tr 2)).toNat % 64 ≠ 0 ∧ (v (tr 1)).toNat % 64 = 0 ∧
      s.operandHeld q 0 6144 true = false ∧ (s.tilePages q 0 true (tileVas (v (tr 3)) 6144) []).isOk = false ∧
      (paged.tilePages (theCur paged) 0 true (tileVas (v (tr 3)) 6144) []).isOk = true ∧ (s.core q.blk.cl q.co).held = [] ∧
      ((v (tr 8)).extractLsb' 0 32 ≠ q.grp.bcnt ∧ (q.grp.bcnt - (v (tr 8)).extractLsb' 0 32).toNat ≤ 2 ^ 31) ∧ (v (tr 7)).extractLsb' 0 32 = q.grp.bcnt ∧
      (∃ t ∈ (theCur closed).grp.batches, t.closed = true ∧ t.num = 0) ∧
      ((v (tr 4)).toNat % 64 = 0 ∧ (v (tr 5)).toNat ≤ 64 * q.blk.tiles ∧ ¬ (v (tr 6)).toNat ≤ 64 * q.blk.tiles) ∧
      (q.blk.st.groups[1]?).isSome = true ∧ q.blk.st.groups[2]? = none := by
  refine ⟨rfl, ?_⟩
  decide +kernel

/-- Records in scratch: a sweep of two elements at its first, and past its last; a mask of dim 0 asks for a destination of one element. -/
theorem witness_Sweeps :
    let s := pokeScratch tensors 0 (trec (win + 512))
    let q := theCur s
    let d := Box.ofWords (trec (win + 512))
    s.cur? = some q ∧ q.active tu = [0] ∧ q.blk.spec = none ∧ ((s.sweepRecords q 0 [win, win + 64]).toOption.map fun x => x.1) = some [trec (win + 512), trec (win + 256)] ∧
      d.number q.grp.tix = some 0 ∧ d.number [2, 0, 0, 0, 0] = none ∧ (s.sweepLoad q s.ms 0 (Box.ofWords (trec (win + 256))) q.grp.tix).isOk = true ∧
      (s.sweepStore q 0 d q.grp.tix (FFmt.f32.zero false)).isOk = true ∧ storeAssist d false (FFmt.f32.zero false) = false ∧
      redMatches d d 0 = true ∧ redMatches d d 1 = false ∧ (s.sweepRecords q 0 [win + 8]).isOk = false ∧
      (s.reduceLoop q 0 .add d (maskedIndices d 0 q.grp.tix) none s.ms).isOk = true := by
  refine ⟨rfl, ?_⟩
  decide +kernel

/-- The same record of destination and source, 64-byte aligned in scratch, and their elements there: a TSWEEP of one source and a TSRED complete an element. -/
theorem witness_SweepElements :
    let s := pokeScratch tensors 0 (trec (win + 512))
    let q := theCur s
    let near := fun (ea : W64) (n : Nat) => ea.toNat % n = 0 ∧ inWindow ea = true ∧ scratchOf ea + n ≤ q.blk.scratchSize ∧
      s.rangeHeld q (scratchOf ea) n true = false ∧ q.blk.st.poisoned (scratchOf ea) n = false
    let d := Box.ofWords (trec (win + 512))
    let x := Box.ofWords (trec (win + 256))
    let y := sweepFn .mov q.blk.ftz (.fin false 0 0) (.fin false 0 0)
    q.grp.sweep = none ∧ near win 64 ∧ near (win + 64) 64 ∧ sweepRecord (trec (win + 512)) = true ∧ sweepRecord (trec (win + 256)) = true ∧
      ((List.range 8).map fun j => q.blk.st.sword (0 + 8 * j)) = trec (win + 512) ∧ ((List.range 8).map fun j => q.blk.st.sword (64 + 8 * j)) = trec (win + 256) ∧
      (x.rank = d.rank ∧ ∀ j < d.rank, x.ext j = d.ext j) ∧ near (x.elemVa noCoord q.grp.tix).1 x.elemBytes ∧ near (d.elemVa noCoord q.grp.tix).1 d.elemBytes ∧
      y.assist = false ∧ storeAssist d q.blk.ftz y = false ∧ d.number q.grp.tix = some 0 ∧ redMatches d x 0 = true ∧ 1 < d.count := by
  decide +kernel

/-- A variable of the lane's own scratch, unbound, at 512; its trail at 1024; its markers at 4096, its heap of 8 cells at 0x100. -/
def terms : State :=
  pokeScratch (onGrp (lanesOf 1 (regs [(1, 0x7000000000000000 ||| (win + 512)), (2, 0x1000000000000005), (3, 0xC000000000000000), (4, 9), (5, 12), (6, win + 4096)]))
    fun g => g.mapLanes fun _ l => { l with
      tt := win + 1024
      mt := win + 4096
      ht := 0x100
      sw := { l.sw with trailB := win + 1024, trailL := win + 2048, markB := win + 4096, markL := win + 8192, heapB := 0x100, heapL := 0x140, pdlB := win + 8192, pdlL := win + 8448 } })
    512 [0x7000000000000000 ||| (win + 512)]

theorem cell_of {s : State} (a : W64) (h : a.toNat % 8 = 0 ∧ 0x1FFFFE00000 ≤ a.toNat ∧ a.toNat ≤ 0x1FFFFFFFFFF ∧
    scratchOf a + 8 ≤ (theCur s).blk.scratchSize ∧ s.rangeHeld (theCur s) (scratchOf a) 8 true = false ∧
    (theCur s).blk.st.poisoned (scratchOf a) 8 = false) : s.Cell (theCur s) a := ⟨h.1, h.2.1, h.2.2.1, h.2.2.2.1, h.2.2.2.2.1, h.2.2.2.2.2⟩

theorem witness_TermWords :
    let s := terms
    let q := theCur s
    let v := fun (x : Opnd) => q.grp.opnd (.int .i64 false) x 0
    s.cur? = some q ∧ q.active tu = [0] ∧ q.blk.spec = none ∧ s.NoObject q ∧ s.Cell q (ptrOf (v (tr 1))) ∧ s.Cell q (q.grp.lane 0).tt ∧
      (tagOf (v (tr 1)) = 7 ∧ tagOf (v (tr 2)) < 12 ∧ tagOf (v (tr 2)) ∉ [6, 7, 8] ∧ 12 ≤ tagOf (v (tr 3)) ∧ 12 ≤ ((v (tr 5)).extractLsb' 0 4).toNat ∧
        q.blk.st.sword (scratchOf (ptrOf (v (tr 1)))) = v (tr 1) ∧ (q.grp.lane 0).tt.toNat + 8 ≤ (q.grp.lane 0).sw.trailL.toNat ∧
        (q.grp.lane 0).tt ≠ ptrOf (v (tr 1)) ∧ s.drainDone q.blk 0 0 0 .results = true ∧ q.farBytes = [] ∧
        (q.grp.lane 0).ht.toNat + 8 * 8 ≤ (q.grp.lane 0).sw.heapL.toNat ∧ (q.grp.lane 0).sw.heapL.toNat < (q.grp.lane 0).ht.toNat + 8 * 9 ∧
        (((tmLanes (fun k => tmDeref k (v (tr 1))) (q.active tu)).run s).1).isOk = true ∧
        (((tmLanes (fun k => tmDeref k (v (tr 3))) (q.active tu)).run s).1).isOk = false) ∧
      (unifyLanes ⟨0, .reg 2, false, tr 2⟩ (q.active tu) s).2.1 = false := by
  refine ⟨rfl, by decide +kernel, by decide +kernel, ?_, cell_of _ (by decide +kernel), cell_of _ (by decide +kernel), by decide +kernel, by decide +kernel⟩
  intro p hp
  cases hp

/-- A list at 512, a structure at 528, a functor with one argument: GETARG of each; UNIFY of two equal constants with an empty list of two cells. -/
theorem witness_TermCells :
    let s := pokeScratch terms 512 [0x1000000000000005, 0x1000000000000006, 0x2000000100000007, 0x1000000000000008]
    let q := theCur s
    let l := q.grp.lane 0
    s.cur? = some q ∧ q.active tu = [0] ∧ (∀ i < 4, s.Cell q (win + 512 + BitVec.ofNat 64 (8 * i))) ∧ s.Cell q l.sw.pdlB ∧ s.Cell q (l.sw.pdlB + 8) ∧
      (tagOf (0x4000000000000000 ||| (win + 512)) = 4 ∧ ptrOf (0x4000000000000000 ||| (win + 512)) = win + 512 ∧
        tagOf (q.blk.st.sword 512) = 1 ∧ tagOf (q.blk.st.sword 520) = 1 ∧ tagOf (0x3000000000000000 ||| (win + 528)) = 3 ∧
        tagOf (q.blk.st.sword 528) = 2 ∧ 1 ≤ ((q.blk.st.sword 528).extractLsb' 32 16).toNat ∧ tagOf (q.blk.st.sword 536) = 1) ∧
      q.done = 0 ∧ (q.grp.pcSlot q.slot).bad = 0 ∧ l.upd = 0 ∧ l.sw.pdlB.toNat + 16 ≤ l.sw.pdlL.toNat ∧ q.blk.spec = none := by
  refine ⟨rfl, by decide +kernel, fun i hi => cell_of _ ?_, cell_of _ (by decide +kernel), cell_of _ (by decide +kernel), by decide +kernel⟩
  revert i
  decide +kernel

/-- The lane of `terms` after its first OVLCFG: an overlay of 16 entries at 8704; a marker whose first word is `w0` at 4096, if one is given. -/
def searching (w0 : Option W64) : State :=
  let s := onGrp terms fun g => g.mapLanes fun _ l => { l with
    mt := if w0.isSome then win + 4160 else win + 4096
    sw := { l.sw with w1 := 4, ovl := win + 8704 } }
  pokeScratch s 4096 [w0.getD 0]

/-- A stack of no marker and of one: free, BUSY, and offered; an offer of another lane on the board; an exit that must wait for a marker; a descriptor. -/
theorem witness_SearchStacks :
    let s0 := searching none
    let q0 := theCur s0
    let l0 := q0.grp.lane 0
    let desc := pokeScratch s0 9216 [win + 8704, 4, win + 1024, win + 2048, win + 4096, win + 8192, 0x100, 0x140, win + 8192, win + 8448]
    let tops : List W64 := [0, 0x400000000, 0x200000000]
    let posted := onBlk (searching (some 0x200000000)) fun b => { b with st := { b.st with board := [⟨0, 1, 4096⟩] } }
    s0.cur? = some q0 ∧ q0.grp.StackOk ∧ q0.pc.extractLsb' 0 3 = 0 ∧ q0.active tu = [0] ∧ s0.NoObject q0 ∧
      (l0.sw.w1.extractLsb' 0 4 ≠ 0 ∧ l0.mt = l0.sw.markB ∧ l0.tt = l0.sw.trailB ∧ q0.grp.fex >>> 3 = 0 ∧ Fits q0 q0.grp (fun k => if q0.grp.runs q0.slot tu k then none else q0.stay)) ∧
      (∀ i < 32, s0.Cell q0 (l0.sw.ovl + BitVec.ofNat 64 (8 * i))) ∧
      (∀ j < 3, let w0 := tops.getD j 0
        let q := theCur (searching (some w0))
        let l := q.grp.lane 0
        (searching (some w0)).cur? = some q ∧ q.active tu = [0] ∧ l.mt ≠ l.sw.markB ∧ l.mt.toNat = l.sw.markB.toNat + 64 ∧ q.blk.st.sword 4096 = w0 ∧
          l.sw.w1.extractLsb' 0 4 ≠ 0 ∧ inWindow l.sw.markB = true ∧ l.sw.markL.toNat ≤ 0x20000000000 ∧ q.blk.st.board = [] ∧
          l.tt = l.sw.trailB + ((q.blk.st.sword 4104).extractLsb' 0 32).setWidth 64 ∧ win + 4096 ∈ l.markers ∧
          Fits q q.grp fun j => if j = 0 then some (q.blk.entry) else q.stay) ∧
      (∀ j < 3, ∀ i < 8, let w0 := tops.getD j 0
        (searching (some w0)).Cell (theCur (searching (some w0))) (win + 4096 + BitVec.ofNat 64 (8 * i))) ∧
      ((0 : W64).extractLsb' 32 3 = 0 ∧ (0x400000000 : W64).getLsbD 34 = true ∧ (0x200000000 : W64).extractLsb' 32 3 = 2) ∧
      (posted.cur? = some (theCur posted) ∧ (theCur posted).blk.st.board = [⟨0, 1, 4096⟩] ∧ ((theCur posted).blk.st.groups[0]?).isSome = true ∧
        (theCur posted).grp.dspFloor.toNat + 16 ≤ (theCur posted).grp.dspTop.toNat ∧ (theCur posted).active tu = [0]) ∧
      desc.cur? = some (theCur desc) ∧ (∀ i < 10, desc.Cell (theCur desc) (win + 9216 + BitVec.ofNat 64 (8 * i))) ∧
      (∀ i < 32, desc.Cell (theCur desc) (win + 8704 + BitVec.ofNat 64 (8 * i))) ∧ (win + 8704).toNat % 16 = 0 ∧ (win + 8192).toNat % 64 = 0 := by
  refine ⟨rfl, by unfold Group.StackOk; decide +kernel, by decide +kernel, by decide +kernel, (fun p hp => by cases hp), by unfold Fits; decide +kernel,
    fun i hi => cell_of _ ?_, by unfold Fits; decide +kernel, fun j hj i hi => cell_of _ ?_, by decide, by decide +kernel, rfl, fun i hi => cell_of _ ?_,
    fun i hi => cell_of _ ?_, by decide, by decide⟩
  · revert i
    decide +kernel
  · revert i
    revert j
    decide +kernel
  · revert i
    decide +kernel
  · revert i
    decide +kernel

/-- No marker yet: MT at the base; eight cells for a marker; a level that is misaligned, and one above MT; FEX not set. -/
theorem witness_SearchWords :
    let s := terms
    let q := theCur s
    let l := q.grp.lane 0
    let one := pokeScratch (onGrp s fun g => g.mapLanes fun _ l => { l with mt := win + 4160 }) 4096 [0x400000000]
    s.cur? = some q ∧ q.grp.StackOk ∧ q.active tu = [0] ∧ s.NoObject q ∧ (∀ i < 8, s.Cell q (l.mt + BitVec.ofNat 64 (8 * i))) ∧
      one.Cell (theCur one) ((theCur one).grp.lane 0).mt ∧
      (q.pc.extractLsb' 0 3 = 0 ∧ l.mt = l.sw.markB ∧ l.tt = l.sw.trailB ∧ l.sw.w1.extractLsb' 0 4 = 0 ∧ l.mt.toNat + 64 ≤ l.sw.markL.toNat ∧
        ((0 : Int) ≤ (q.pc.toNat : Int) + 8 * (1 : BitVec 18).toInt - (q.blk.entry.toNat : Int)) ∧ q.grp.fex = 0 ∧ q.blk.st.board = [] ∧
        (q.grp.opnd (.int .i64 false) (tr 4) 0).toNat % 64 ≠ 0 ∧ q.grp.opnd (.int .i64 false) (tr 6) 0 = l.mt ∧
        ((theCur one).grp.lane 0).mt ≠ ((theCur one).grp.lane 0).sw.markB ∧ ((theCur one).blk.st.sword 4096).getLsbD 34 = true ∧
        (((tmLanes (fun k => tmTry q 1 1 k) (q.active tu)).run s).1).isOk = true) := by
  refine ⟨rfl, by unfold Group.StackOk; decide +kernel, by decide +kernel, ?_, fun i hi => cell_of _ ?_, cell_of _ (by decide +kernel), by decide +kernel⟩
  · intro p hp
    cases hp
  · revert i
    decide +kernel

/-! ### Premises that can be met: events -/

/-- Cluster 0 holds the translation of the page at address 0 for ASID 0. -/
def mapTlb (s : State) : State := { s with ms := { s.ms with tlb := [(tlbKey 0 0 0 false, leaf0)] } }

theorem witness_GroupEvents :
    let w : WaitcRec := ⟨0, 0, [], [], true⟩
    let a := atClk 65536 (inWait (.waitc w))
    let fired : State := { a with ms := { a.ms with fired := [(0, 0)] } }
    let walk := fun (going : Bool) => withTable (inWait (.walk 0 0x40000 false going))
    let hit : State := { walk false with ms := { (walk false).ms with tlb := [(tlbKey 0 0 0x40000 false, leaf0)] } }
    let r : Ret := ⟨31, some 3, false, none, none⟩
    let h : Held := ⟨0, 0, 0, 31, 0, 0x400, none, none, .load .l2 false true 0x400 8 r⟩
    let load := onCore (onGrp st0 fun g => { g with sb := 8 }) fun c => { c with held := [h] }
    let parked := fun (p : Park) => withTable (onGrp st0 fun g => { g with park := p })
    let faulted : State := { launched (parked (.fault false 0 { code := .pageFaultRead })) tl with faultQ := [⟨0, 0, .pageFaultRead, .group 0 0⟩] }
    let prot := onBlk st0 fun b => { b with protect := true, prot := { b.prot with on := true, pending := [2] } }
    (a.blocks.get? 0 = some (theCur a).blk ∧ (theCur a).blk.st.groups[0]? = some (theCur a).grp) ∧
    ((theCur a).grp.pcSlot false).wait = .waitc w ∧ ((theCur a).grp.pcSlot true).wait.waitc? = none ∧ fired.ms.fired.contains (0, 0) = true ∧
      a.waitcOut (theCur a).blk 0 0 = false ∧ w.slept + 1024 ≤ a.clk 0 ∧ w.issued + 65536 ≤ a.clk 0 ∧
    ((theCur (inWait .copySlot)).grp.pcSlot false).wait = .copySlot ∧ ((theCur (inWait .copySlot)).grp.pcSlot true).wait ≠ .copySlot ∧
      st0.ms.slotsUsed 0 0 < 16 ∧
    st0.resultPending (theCur st0).blk 0 0 63 = false ∧ (theCur (parked .assist)).grp.park = .assist ∧
    (load.loadDue 0 0 0 3 [] (load.core 0 0).held = some ([], h, []) ∧ 31 < (theCur load).grp.lanes.length ∧ (theCur load).grp.retired = false ∧
      (theCur load).blk.spec = none ∧ (theCur load).grp.sb.getLsbD 3 = true ∧ load.ms.readPoison 0 none 0x400 8 .l2 false = false) ∧
    (∀ going, ((theCur (walk going)).grp.pcSlot false).wait = .walk 0 0x40000 false going) ∧ (walk true).ms.tlbGet 0 0 0x40000 = none ∧
      hit.ms.tlbGet 0 0 0x40000 = some leaf0 ∧ ((walk true).walkFor 0 0 0x40000).2.isSome = true ∧
      ((inWait (.walk 0 0x40000 false true)).walkFor 0 0 0x40000).2 = none ∧
      (inWait (.walk 0 0x40000 false true)).merged (0 / 24) 0 (pageOf 0x40000) = [⟨0, 0, false⟩] ∧
    (theCur (parked (.icache 0))).grp.park = .icache 0 ∧
      (mapTlb (parked (.icache 0))).ms.tlbGet 0 0 ((0 : BitVec 57).setWidth 64) = some leaf0 ∧ pteX leaf0 = true ∧ pteRem leaf0 = false ∧
    (theCur faulted).grp.park = .fault false 0 { code := .pageFaultRead } ∧
      (faulted.faultQ.filter fun p => p.asid == 0 && p.page == 0) = [⟨0, 0, .pageFaultRead, .group 0 0⟩] ∧
      faulted.qs.launches.get? (theCur faulted).blk.launch = some tl ∧ faulted.qs.queues.get? tl.q = some tq ∧
    ((theCur prot).blk.protect = true ∧ (theCur prot).blk.prot.pending ≠ [] ∧ (theCur prot).blk.stopping = .none ∧ prot.copiesOf 0 = false ∧
      (theCur prot).grp.batches = []) := by
  refine ⟨⟨rfl, rfl⟩, ?_⟩
  decide +kernel

/-- An act issued 160 cycles ago: a store to the L2, one to the cluster cache, an atomic. -/
def holding (a : Act) : State := atClk 160 (onCore st0 fun c => { c with held := [⟨0, 0, 0, 0, 0, 0x400, none, none, a⟩] })

theorem witness_StoreQueue :
    let st := holding (.store .l2 .through 0x400 [1, 2])
    let cc := holding (.store .cache .back 0x43E [1, 2])
    let at_ := holding (.atom .add .l2 0x400 true 1 0 (some ⟨31, some 3, false, none, none⟩))
    let one : Held := ⟨0, 0, 0, 0, 0, 0x400, none, none, .atom .add .l2 0x400 true 1 0 none⟩
    let two : Held := ⟨0, 0, 0, 1, 0, 0x400, none, none, .atom .add .l2 0x400 true 2 0 none⟩
    let both := onCore at_ fun c => { c with held := [one, two] }
    st.leaver 0 0 = some (⟨0, 0, 0, 0, 0, 0x400, none, none, .store .l2 .through 0x400 [1, 2]⟩, []) ∧
    cc.leaver 0 0 = some (⟨0, 0, 0, 0, 0, 0x400, none, none, .store .cache .back 0x43E [1, 2]⟩, []) ∧ 0x43E % 64 + 2 ≤ 64 ∧
    at_.leaver 0 0 = some (⟨0, 0, 0, 0, 0, 0x400, none, none, .atom .add .l2 0x400 true 1 0 (some ⟨31, some 3, false, none, none⟩)⟩, []) ∧
    at_.ms.cc.get? (ccKey 0 (0x400 / 64)) = none ∧ at_.ms.poison = [] ∧ st.blocks.get? 0 = some (theCur st).blk ∧ (theCur st).blk.spec = none ∧
    (theCur at_).blk.st.groups[0]? = some (theCur at_).grp ∧ 31 < (theCur at_).grp.lanes.length ∧ (theCur at_).grp.retired = false ∧
    both.leaver 0 0 = some (one, [two]) ∧ [two].find? one.follows = some two ∧ ([two].erase two).find? one.follows = none := by
  decide +kernel

/-- A COPY of eight bytes in two deliveries; an operation before and after its cycles; a closed batch with an MSTORE to scratch and without. -/
theorem witness_EngineEvents :
    let c : CopyOp := ⟨.load, 0, 0, 0, 0, 0, 0, [0], 1024, 2048, trec 0x400, [0], 0, 0, 8, 0, [(0, leaf0)], [(0, 4), (4, 4)], [], [], false, true, false⟩
    let s : State := { st0 with ms := { st0.ms with copies := [(7, c)] } }
    let batch := fun (t : Batch) (n : Nat) => atClk n (onGrp st0 fun g => { g with batches := [t] })
    let run : Batch := ⟨0, true, 0, 0, [(0, 0, .mzero 0)], [], []⟩
    let out : Batch := ⟨0, true, 0, 0, [], [], [(win + 64, [], List.replicate 6144 1)]⟩
    (s.ms.copies.get? 7 = some c ∧ s.blocks.get? c.blk = some (theCur s).blk ∧ c.todo[1]? = some (4, 4) ∧ c.kind = .load ∧ c.handed = true ∧
      (theCur s).blk.spec = none ∧ c.objs = [c.blk] ∧ c.objStored = false ∧ c.ready s.fab.chip (c.sources 4 4) = true ∧
      batchHolds (theCur s).blk.st 2052 4 = false ∧ c.objOff + 16 ≤ c.sofs + 4) ∧
    (theCur (batch run 0)).grp.batches = [run] ∧ (batch run 0).clk 0 < 0 + mopCycles (.mzero 0) ∧ 0 + mopCycles (.mzero 0) ≤ (batch run 65536).clk 0 ∧
    mopPoison (theCur st0).blk.st st0.ms 0 none (.mzero 0) = false ∧
    (batch run 65536).mopWaits (theCur st0).blk 0 0 (.mzero 0) = false ∧ mloadSectors (.mzero 0) = [] ∧ out.closed = true ∧ out.ops = [] ∧ inWindow (win + 64) = true ∧
    (List.replicate 6144 (1 : Byte)).length % 64 = 0 := by
  refine ⟨⟨rfl, rfl, rfl, rfl, rfl, rfl, rfl, rfl, by decide +kernel, by decide +kernel, by decide +kernel⟩, rfl, by decide +kernel, by decide +kernel, rfl, rfl, rfl, rfl, rfl, by decide, ?_⟩
  rw [List.length_replicate]

/-- A sector of cluster 3; memory that no engine owns; a task at the head of a slice for a queue with room, for one without, for one in ERROR. -/
theorem witness_MemoryEvents :
    let e : ContEnt := ⟨0x2000000005, false, false, false, 0x8000, 0x200040, 0xA000⟩
    let u : Task := ⟨0, e, 1, 0x400, 5, 0, true⟩
    let s := fun (x : Queue) (w : W64) => (poke { queued State.reset x with fifos := [(0, [u])] } 0x8010 [w])
    let x : Sector := ⟨5, 1, false, []⟩
    let dirty : State := { State.reset with ms := { State.reset.ms with cc := [(ccKey 3 16, x)] } }
    dirty.ms.cc.get? (ccKey 3 16) = some x ∧ (0x400 + 8 ≤ 2 ^ 39 ∧ ∀ x ∈ sectorsOf 0x400 8, x ∉ State.reset.ms.owned) ∧
    State.reset.ms.poisoned 0x400 8 = false ∧ ((s tq 0).fifos.getD 0 [])[0]? = some u ∧
    (s tq 0).queueOf 0 0x8000 = some (0, tq) ∧ ((s tq 0).reserve tq false).isSome = true ∧
    ((s tq (qWord2 0 16 0)).reserve tq false) = none ∧ (s { tq with st := .error } 0).queueOf 0 0x8000 = some (0, { tq with st := .error }) ∧ u.chip < 64 := by
  decide +kernel

/-- A cluster whose period starts; a core that is out of service; one without a group; one with a ready group of a context that has slots. -/
theorem witness_IssueChoice :
    let ready : State := { st0 with focus := none, clusters := [(0, { ClusterState.init with budgets := [(0, ⟨0, 4, 2, 0⟩)] })] }
    let due := atClk 65536 ready
    let out : State := onCore ready fun c => { c with service := .retired }
    let bin : State := onCore ready fun c => { c with bin := 2, binTurn := 11 }
    let none_ : State := { ready with blocks := [] }
    let r := ready.readyCore 0 0
    (due.cluster 0).periodDue = true ∧ KMap.sorted (due.cluster 0).budgets = true ∧ due.residentIn 0 0 = true ∧ (due.cluster 0).budgets.get? 0 = some ⟨0, 4, 2, 0⟩ ∧
    ready.focus = none ∧ (ready.cluster 0).turn < 8 ∧ (ready.cluster 0).periodDue = false ∧ (out.core 0 0).service ≠ .serving ∧
    ((bin.core 0 0).bin = 2 ∧ ¬ (bin.core 0 0).binTurn < 11) ∧ (none_.readyCore 0 0).choose 0 ((none_.readyCore 0 0).cands 0 0) = none ∧
    r.goingOn 0 0 = none ∧ ((inWait .resume).readyCore 0 0).goingOn 0 0 = some ⟨0, 0, false⟩ ∧
    (r.choose 0 (r.cands 0 0)).isSome = true ∧ (r.choose 0 (r.cands 0 0)).all (fun d => d.spec.isNone) = true := by
  decide +kernel

/-- A launch of 200 blocks that hands out its first chunk to cluster 0; one whose chunk waits in cluster 0; a COOP launch; two pending blocks
that cluster 5 may take. -/
theorem witness_Placement :
    let s := fun (x : Launch) => launched State.reset x
    let many := { tl with total := 200 }
    let chunk := { tl with total := 2, handed := 2, chunks := [(0, [[0, 1]])] }
    let coop := { tl with coop := true, w := [0x11B03] ++ tw.tail }
    (∀ x ∈ [many, chunk, coop], (s x).qs.launches.get? 0 = some x ∧ x.terminated = false ∧ (s x).mappedLaunch x = true) ∧
    (many.coop = false ∧ many.handed < many.total ∧ (many.chunksAt (0 % 96)).length < 2 ∧ many.lastCl = none) ∧
    (∀ p ∈ (s many).qs.launches, ((s many).slotOf p.2.q).getD 0 < 256 ∧ p.2 = many) ∧
    (∀ p ∈ (s coop).qs.launches, ((s coop).slotOf p.2.q).getD 0 < 256 ∧ p.2 = coop) ∧
    chunk.chunksAt 0 = [[0, 1]] ∧ (s chunk).chooseCore 0 ((s chunk).readyBlock 0 chunk 0) = some 0 ∧ (s chunk).specsOn 0 0 false = [] ∧
    coop.coop = true ∧ coop.handed = 0 ∧ (((s coop).coopFits 0 coop).map fun r => r.2) = some [] ∧
    (∀ p ∈ (s chunk).qs.launches, p.2.chunksAt 5 = []) ∧ ((s chunk).chooseCore 5 ((s chunk).readyBlock 0 chunk 0)).isSome = true ∧
    KMap.sorted chunk.chunks = true ∧ (chunk.chunksAt 0).flatten.Nodup ∧ 2 ≤ (chunk.chunksAt 0).flatten.length ∧
    ∀ u < 96, (chunk.chunksAt u).flatten.length < (chunk.chunksAt 0).flatten.length ∨ u = 0 := by
  decide +kernel

/-- An empty cluster takes the block on core 0; a cluster whose cores are all retired takes none. -/
theorem witness_CoreChoice :
    let b := (theCur st0).blk
    let gone : State := { State.reset with cores := (List.range 8).map fun k => (k, { CoreState.init with service := .retired }) }
    b.pair = false ∧ b.spec = none ∧ State.reset.chooseCore 0 b = some 0 ∧ gone.chooseCore 0 b = none := by decide +kernel

/-- A drained block whose group has retired, or not; a block that a fault terminated; a launch whose blocks have all ended, with a signal and without. -/
theorem witness_Endings :
    let s := launched st0 tl
    let done := onGrp s fun g => { g with retired := true }
    let bad := onBlk s fun b => { b with stopping := .terminate (some (0, 0x40, { code := .misaligned })) }
    let ended_ := fun (va : W64) => { tl with ended := 1, handed := 1, w := [0x1B03, 0xA000, 0x2000000005, 0, 0, 0x200040, va] }
    let s1 := (launched State.reset (ended_ 0xD000)).releaseAll (hdrRel (recW (ended_ 0xD000).w 0))
    s.blocks.get? 0 = some (theCur s).blk ∧ s.drained 0 (theCur s).blk = true ∧ s.qs.launches.get? (theCur s).blk.launch = some tl ∧
    (theCur s).blk.pair = false ∧ (theCur s).blk.stopping = .none ∧ (∀ g ∈ (theCur done).blk.st.groups, g.retired = true) ∧
    done.drained 0 (theCur done).blk = true ∧ (∃ g ∈ (theCur s).blk.st.groups, g.retired = false) ∧
    (theCur bad).blk.stopping = .terminate (some (0, 0x40, { code := .misaligned })) ∧ bad.drained 0 (theCur bad).blk = true ∧
    ((bad.ctxs.get? 0).map fun c => decide ((c.ring.drop (min c.ring.length
      (bad.ms.mem.word (c.ringAt + Config.ringRead) - BitVec.ofNat 64 c.ringRead).toNat)).length < 64)) = some true ∧
    (∀ x ∈ [ended_ 0, ended_ 0xD000], x.spec = none ∧ x.ended = x.total ∧ x.handed = x.total ∧ x.children = 0) ∧
    recW (ended_ 0).w 6 = 0 ∧ recW (ended_ 0xD000).w 6 ≠ 0 ∧ (s1.fe 0 0xD000 true).toOption = some (leaf0, 0xD000) ∧ pteRem leaf0 = false := by
  decide +kernel

/-- A block of 16 registers, with one group of one lane. -/
def small : Block :=
  let b := (theCur st0).blk
  { b with nregs := 16, st := { b.st with groups := b.st.groups.map fun g => { g with lanes := g.lanes.take 1 } } }

/-- The words of the header of an image. -/
def headerOf (b : Block) : List (Nat × W64) :=
  (((List.range 32).map fun i => headerWord b.header i).zipIdx.map fun p => (0 + 8 * p.2, p.1)).filter fun p => p.2 != 0

/-- The other words of the image of the placed block. -/
def restOf (b : Block) : List (Nat × W64) :=
  (b.st.groups.zipIdx.flatMap fun g => (g.1.imageWords.zipIdx.map fun p => (768 + 512 * g.2 + 8 * p.2, p.1)) ++
    g.1.lanes.zipIdx.flatMap fun l => (l.1.imageWords.zipIdx.map fun p => (b.sections.1 + 192 * (32 * g.2 + l.2) + 8 * p.2, p.1)) ++
      l.1.regs.map fun r => (b.sections.2.1 + 8 * b.nregs * (32 * g.2 + l.2) + 8 * r.1, r.2)).filter fun p => p.2 != 0

theorem words_eq : small.wordsOf = headerOf small ++ restOf small := by
  show List.filter _ ((_ ++ []) ++ _) = _
  rw [List.append_nil, List.filter_append]
  rfl

theorem header_lt : ∀ p ∈ headerOf small, p.1 + 8 ≤ 256 := by
  intro p hp
  have h := List.mem_map_of_mem (f := Prod.fst) (List.mem_of_mem_filter hp)
  have e : ∀ x ∈ (((List.range 32).map fun i => headerWord small.header i).zipIdx.map fun p => (0 + 8 * p.2, p.1)).map Prod.fst,
      x + 8 ≤ 256 := by decide
  exact e _ h

theorem rest_between : ∀ p ∈ restOf small, 768 ≤ p.1 ∧ p.1 + 8 ≤ small.sections.2.2.1 := by decide +kernel

theorem words_lt : ∀ p ∈ small.wordsOf, p.1 + 8 ≤ small.sections.2.2.1 := by
  intro p hp
  rw [words_eq, List.mem_append] at hp
  rcases hp with hp | hp
  · exact Nat.le_trans (header_lt p hp) (by decide)
  · exact (rest_between p hp).2

theorem scratch_of_words (l : List (Nat × W64)) (a : Nat) (p : Nat → Bool) (h : ∀ q ∈ l, q.1 + 8 ≤ small.sections.2.2.1)
    (hp : ∀ k, p k = true → a + small.sections.2.2.1 ≤ k) : (Mem.setWords [] a l).filter (fun c => p c.1) = [] :=
  Mem.filter_setWords_out l [] p a fun q hq i hi => by
    by_contra e
    have := hp _ (by simpa using e)
    have := h q hq
    omega

/-- The image of the placed block gives the block back. -/
theorem image_back : small.fromImage (Mem.setWords [] 0x100000 small.wordsOf) 0x100000 = small := by
  have hz : small.sections.2.2.1 ≤ small.sections.2.2.2 := by decide
  rw [Block.fromImage_congr _ _ (Mem.setWords [] 0x100000 (restOf small))]
  · decide +kernel
  · intro x hx
    rw [words_eq, Mem.setWords_append]
    refine Mem.byte_setWords_congr _ _ _ _ _ (Mem.byte_setWords_out _ _ _ _ fun p hp => ?_)
    have := header_lt p hp
    omega
  · rw [scratch_of_words _ _ (fun k => decide (0x100000 + small.sections.2.2.1 ≤ k ∧ k < 0x100000 + small.sections.2.2.2)) words_lt
      (fun k h => by simp only [decide_eq_true_eq] at h; exact h.1),
      scratch_of_words _ _ (fun k => decide (0x100000 + small.sections.2.2.1 ≤ k ∧ k < 0x100000 + small.sections.2.2.2))
      (fun q hq => (rest_between q hq).2) (fun k h => by simp only [decide_eq_true_eq] at h; exact h.1)]
  · intro o n
    unfold Mem.cells
    rw [scratch_of_words _ _ (fun k => decide (0x100000 + small.sections.2.2.2 + o ≤ k ∧ k < 0x100000 + small.sections.2.2.2 + o + n)) words_lt
      (fun k h => by simp only [decide_eq_true_eq] at h; omega),
      scratch_of_words _ _ (fun k => decide (0x100000 + small.sections.2.2.2 + o ≤ k ∧ k < 0x100000 + small.sections.2.2.2 + o + n))
      (fun q hq => (rest_between q hq).2) (fun k h => by simp only [decide_eq_true_eq] at h; omega)]
    rfl

/-- An image that the host has not touched is what its block would be written as. -/
theorem image_kept : let b := small
    let m := Mem.setWords [] 0x100000 b.wordsOf
    m.putImage (b.fromImage m 0x100000) 0x100000 = m := by
  intro b m
  have h : b.fromImage m 0x100000 = b := image_back
  rw [h]
  show Mem.setWords (m.filter fun c => !decide (0x100000 ≤ c.1 ∧ c.1 < 0x100000 + b.imageSize)) 0x100000 b.wordsOf = m
  rw [Mem.filter_setWords_out _ [] (fun k => !decide (0x100000 ≤ k ∧ k < 0x100000 + b.imageSize)) _ fun q hq i hi => ?_]
  · rfl
  · have := words_lt q hq
    have : small.sections.2.2.1 ≤ b.imageSize := by decide
    simp only [Bool.not_eq_false', decide_eq_true_eq]
    omega

/-- A block whose queue is being unmapped; a block stopped and drained; an image that resumes in its cluster, and one that does not find a core there; a
block that trapped. -/
theorem witness_Preemption :
    let un := { tq with step := 1 }
    let s : State := { launched st0 tl with qs := { (launched st0 tl).qs with queues := [(0, un)] } }
    let stop := onBlk (launched st0 tl) fun b => { b with stopping := .preempt none }
    let busy := onCore stop fun c => { c with held := [⟨0, 0, 0, 0, 0, 0, none, none, .rload 1 0 8 []⟩] }
    let img : SaveImg := ⟨(theCur st0).blk, 0, 0x100000, none, true⟩
    let sv : State := { launched State.reset tl with saved := [(4, img)] }
    let off : State := { sv with cores := (List.range 8).map fun k => (k, { CoreState.init with service := .retired }) }
    let trap : SaveImg := ⟨small, 0, 0x100000, some 0, false⟩
    let m := Mem.setWords [] 0x100000 trap.blk.wordsOf
    s.blocks.get? 0 = some (theCur s).blk ∧ (theCur s).blk.spec = none ∧ s.mustLeave (theCur s).blk = true ∧
    (theCur stop).blk.stopping = .preempt none ∧ stop.drained 0 (theCur stop).blk = true ∧ busy.drained 0 (theCur busy).blk = false ∧
    (theCur stop).blk.st.mustEnd = false ∧ (theCur (inWait .drained)).blk.st.mustEnd = true ∧
    m.putImage (trap.blk.fromImage m trap.addr) trap.addr = m ∧
    sv.saved.get? 4 = some img ∧ sv.qs.launches.get? img.blk.launch = some tl ∧ tl.terminated = false ∧ tl.coop = false ∧ sv.mappedLaunch tl = true ∧
    sv.resumeAt img.blk = some (0, 0) ∧ off.resumeAt img.blk = some (1, 0) ∧ sv.specsOn 0 0 img.blk.pair = [] ∧ trap.trap = some 0 ∧ trap.resume = false ∧
    .other ∉ [Edit.reg 0 0 15 5] ∧ .other ∈ [Edit.other] ∧ (trap.blk.st.groups[0]?).isSome = true ∧ (15 : Reg).toNat < trap.blk.nregs ∧
    sv.qs.queues.get? tl.q = some tq := by
  refine ⟨?_, ?_, ?_, ?_, ?_, ?_, ?_, ?_, image_kept, ?_⟩ <;> decide +kernel

/-- A timeslice past; a queue that is mapped and idle; a queue that is ready and a free slot for it; an unmap whose probe returns. -/
theorem witness_Decisions :
    let late := atClk 1048576 State.reset
    let idle : State := { queued State.reset tq with qs := { (queued State.reset tq).qs with wantDecision := true } }
    let r := { tq with st := .ready, slot := 0 }
    let ready : State := { idle with qs := { idle.qs with queues := [(0, r)], slots := [] } }
    let un : State := { queued State.reset { tq with step := 2 } with blocks := [] }
    let held : State := { launched st0 tl with qs := { (launched st0 tl).qs with queues := [(0, { tq with step := 2 })] } }
    let torn : State := { un with ctxs := [(0, ⟨0x10000, false, 0, 0x2000, [], 0, 0, [], 8, [], [], true, false⟩)] }
    late.qs.slices < late.clk 0 / 1048576 ∧ idle.qs.wantDecision = true ∧ KMap.sorted idle.qs.queues = true ∧ KMap.sorted idle.qs.slots = true ∧
    tq.gang = 0 ∧ tq.st = .mapped ∧ idle.slotOf 0 = some 0 ∧ tq.step = 0 ∧ idle.queueIdle 0 tq = true ∧ ready.qs.wantDecision = true ∧
    ready.qs.queues.length ≤ ready.freeSlots ∧ ready.qs.queues.get? 0 = some r ∧ r.st = .ready ∧ ready.gangMapped (ready.gang 0) = false ∧
    ((un.qs.slots.get? 0).bind fun z => z.q) = some 0 ∧ un.qs.queues.get? 0 = some { tq with step := 2 } ∧ un.blocks = [] ∧
    un.qs.pendW = [] ∧ un.qs.launches = [] ∧ un.tearingDown 0 = false ∧ torn.tearingDown 0 = true ∧ un.saved = [] ∧ un.head? { tq with step := 2 } = none ∧
    (un.qs.slots.get? 0).map (fun z => z.pending) = some false ∧
    (held.blocks.get? 0).map (fun b => (b.spec, held.launchQueue b.launch)) = some (none, some 0) := by
  decide +kernel

/-- A slot whose history predicts the launch of `tw` with full confidence, all of it constant; a speculation that has run out, one that has not, one
that is spoiled. -/
theorem witness_Speculations :
    let desc := [0xB000, 0x200040, 0x2000000005, 1, 0, 0, 0, 0]
    let e : Succ := ⟨1, 2, 0xA000, 3, List.replicate 24 (1, 0), 0⟩
    let z : SlotState := { SlotState.free with q := some 0, hist := List.replicate 3 (tw ++ desc), succ := [e], key1 := 1, key2 := 2 }
    let s : State := { queued State.reset tq with qs := { (queued State.reset tq).qs with slots := [(0, z)] } }
    let v := (z.predict e).map fun o => o.getD 0
    let sp : Spec := ⟨0, 0, [], 0, [], some 0⟩
    let t := fun (n : Nat) (b : Bool) => (atClk n { State.reset with
      qs := { State.reset.qs with specs := [(0, sp)] }
      ms := { State.reset.ms with cocoons := [(0, ⟨[], [], [], b, []⟩)] } } : State)
    s.qs.slots.get? 0 = some z ∧ z.q = some 0 ∧ z.entry = some e ∧ s.qs.queues.get? 0 = some tq ∧ tq.fetch = .none ∧ tq.waiting = false ∧ s.slotEmpty tq = true ∧ tq.step = 0 ∧
    s.qs.launches = [] ∧ s.qs.specs = [] ∧ mayPredict e (z.predict e) = true ∧ (s.coreLoad 95 7 fun _ => true).blocks = 0 ∧
    (s.checkLaunch 0 tq (v.take 16) (some (v.drop 16)) false).isOk = true ∧ hdrCoop (recW v 0) = false ∧
    (t 0 false).qs.specs.get? 0 = some sp ∧ 0 + 64 * 65536 ≤ (t (64 * 65536) false).clk 0 ∧ (t 0 false).clk 0 < 0 + 64 * 65536 ∧
    ((t 0 false).ms.cocoon 0).spoiled = false ∧ (t 0 false).ms.cocoonFull 0 = false ∧ ((t 0 true).ms.cocoon 0).spoiled = true := by
  decide +kernel

/-- Each state of a queue; a packet whose class the queue does not take, and one of a type that there is not; a queue in ERROR with nothing under way. -/
theorem witness_QueueStates :
    let e := { tq with st := .error, err := 5 }
    let bad := packet (tw.set 1 0xA020)
    let odd := packet (tw.set 0 0x1B0F)
    let hit : State := { queued State.reset tq with ms := { (queued State.reset tq).ms with sigHit := [0] } }
    let busy := launched State.reset { tl with ended := 0 }
    (∀ st ∈ [QState.mapped, .unmapping, .idle, .ready, .error, .dead], (queued State.reset { tq with st := st }).qs.queues.get? 0 = some { tq with st := st }) ∧
    ((packet tw).head? tq).isSome = true ∧ 0 ∈ hit.ms.sigHit ∧ busy.inFlight 0 = true ∧ bad.fetching 0 = some (0, tq) ∧ bad.readHead tq = .packet 0 (tw.set 1 0xA020) ∧
    (bad.checkLaunch 0 tq (tw.set 1 0xA020) none false).isOk = false ∧ recW (tw.set 1 0xA020) 6 = 0 ∧ hdrType (recW (tw.set 1 0xA020) 0) = 1 ∧
    odd.readHead tq = .packet 0 (tw.set 0 0x1B0F) ∧ 7 ≤ hdrType (recW (tw.set 0 0x1B0F) 0) ∧
    e.st = .error ∧ (queued State.reset e).inFlight 0 = false ∧ (queued State.reset e).blocks = [] ∧ (queued State.reset e).saved = [] := by
  decide +kernel

theorem next_of {s : State} {n k : Nat} {x : Queue} {pos : Nat} {w : List W64}
    (h : s.fetching n = some (k, x) ∧ s.readHead x = .packet pos w ∧ s.barred k w = false) : s.Next n k x pos w := ⟨h.1, h.2.1, h.2.2⟩

/-- A packet of each type that passes its checks; a launch that waits for admission, behind a barrier or not; a WAITSIG whose word is 7; a SIGNAL and a
NOP that are due; a CONTREG. -/
theorem witness_Packets :
    let ws : List W64 := [0x1B07, 0xC000, 7, 0, 0, 0, 0, 0, 0, 0, 0, 0, 0, 0, 0, 0]
    let sg : List W64 := [0x1B09, 0xC000, 7, 2, 0, 0, 0, 0, 0, 0, 0, 0, 0, 0, 0, 0]
    let np : List W64 := [0x1B0B, 0, 0, 0, 0, 0, 0xC000, 0, 0, 0, 0, 0, 0, 0, 0, 0]
    let cr : List W64 := [0x1B0D, 0xA000, 0, 0, 0, 0x200040, 0, 0x8000, 255, 0, 0, 0, 0, 0, 0, 0]
    let ad := { tq with fetch := .launch 0 tw tdesc false }
    let bar := { tq with fetch := .launch 0 (tw.set 0 0x101B03) tdesc false }
    let wt := { tq with fetch := .waitsig 0 0xC000 7 .eq .dev none }
    let pend := fun (k : PendKind) => ({ queued State.reset tq with qs := { (queued State.reset tq).qs with
      pendW := [(9, ⟨k, [], [], 0, 0, 0xC000, 2, 7, some .dev⟩)] } } : State)
    (packet tw).Next 0 0 tq 0 tw ∧ (packet ws).Next 0 0 tq 0 ws ∧ (packet sg).Next 0 0 tq 0 sg ∧ (packet np).Next 0 0 tq 0 np ∧
    (packet cr).Next 0 0 tq 0 cr ∧
    ((packet tw).checkLaunch 0 tq tw none false).isOk = true ∧ hdrType (recW tw 0) = 1 ∧
    ((packet ws).checkWaitsig tq ws).isOk = true ∧ hdrType (recW ws 0) = 3 ∧ ((packet sg).checkSignal tq sg).isOk = true ∧ hdrType (recW sg 0) = 4 ∧
    ((packet np).checkNop tq np).isOk = true ∧ hdrType (recW np 0) = 5 ∧ ((packet cr).checkContreg tq cr).isOk = true ∧ hdrType (recW cr 0) = 6 ∧
    (packet sg).pendDue 0 .signal = none ∧ (packet np).pendDue 0 .nop = none ∧
    (queued State.reset ad).qs.queues.get? 0 = some ad ∧ (queued State.reset ad).barred 0 tw = false ∧ resChild (recW tw 5) = 0 ∧
    ({ queued State.reset bar with qs := { (queued State.reset bar).qs with launches := [(0, tl)] } } : State).barred 0 (tw.set 0 0x101B03) = true ∧
    (queued State.reset wt).qs.queues.get? 0 = some wt ∧ ((queued State.reset wt).fe 0 0xC000 false).toOption = some (leaf0, 0xC000) ∧
    wcondAt .eq true ((queued State.reset wt).ms.mem.word 0xC000) 7 = false ∧ wcondAt .eq true ((poke (queued State.reset wt) 0xC000 [7]).ms.mem.word 0xC000) 7 = true ∧
    (pend .signal).pendDue 0 .signal = some 9 ∧ (pend .nop).pendDue 0 .nop = some 9 ∧ (pend .signal).faultQ = [] ∧ ((pend .signal).ctxs.get? 0).isSome = true := by
  refine ⟨next_of ?_, next_of ?_, next_of ?_, next_of ?_, next_of ?_, ?_⟩ <;> decide +kernel

/-- Chip 1 of the domain, its import range of 64 KiB for ASID 3, and its next message on each channel; one that comes early, and one that came before. -/
theorem witness_FabricMessages :
    let s : State := { State.reset with fab := { State.reset.fab with chips := [0, 1], imports := [⟨1, 3, 0, 0x10000, 0⟩] } }
    let m := fun (seq : BitVec 32) (op : RemoteOp) => (⟨1, 0, vcOf op, seq, false, 3, op, 0⟩ : Msg)
    let done : State := { s with fab := { s.fab with ins := [(8, ⟨1, [], [], [⟨1, 0, 0, 0, .ack, false⟩]⟩)] } }
    let u : OutMsg := ⟨{ m 0 (.load 0x400 8) with src := 0, dst := 1 }, some 0, 0, 31, 8, 0x400, [⟨31, some 3, true, none, none⟩], none, 0⟩
    let r : State := { st0 with fab := { st0.fab with chips := [0, 1], retry := [u], acks := [(8 * 1 + answerVc u.m.vc, ⟨0, [], []⟩)] } }
    (∀ x ∈ [m 0 (.store 0xFFF8 [1, 2, 3, 4, 5, 6, 7, 8]), m 1023 (.store 0 [1]), m 0 (.atom 0 0x400 true 1 0), m 0 (.load 0x400 8)],
      x.dst = s.fab.chip ∧ x.src ≠ s.fab.chip ∧ s.fab.chips.contains x.src = true ∧ vcOf x.op = x.vc) ∧
    ((0 - (s.inStream 8).next : BitVec 32).toNat = 0 ∧ 0 < (1023 - (s.inStream 8).next : BitVec 32).toNat ∧ (1023 - (s.inStream 8).next : BitVec 32).toNat < 1024) ∧
    (s.inStream 8).held = [] ∧ (s.inStream 8).done = [] ∧ s.ms.owned = [] ∧ s.importOf 1 3 0xFFF8 8 = some 0 ∧ s.importOf 1 3 0xFFF9 8 = none ∧
    s.ms.poisoned 0x400 8 = false ∧ 2 ^ 31 ≤ (0 - (done.inStream 8).next : BitVec 32).toNat ∧
    ((done.inStream 8).results.find? fun r => r.seq == 0) = some ⟨1, 0, 0, 0, .ack, false⟩ ∧
    u.m.dst ≠ r.fab.chip ∧ r.fab.chips.contains u.m.dst = true ∧ u.m.vc < 8 ∧ r.ackStream (8 * u.m.dst + answerVc u.m.vc) = ⟨0, [], []⟩ ∧
    answerVc (vcOf (.store 0 [1])) = 1 ∧ (theCur r).grp.retired = false ∧ u.acq = none ∧
    (r.fab.retry.find? fun y => y.m.dst == u.m.dst && y.m.vc == u.m.vc && y.m.seq == u.m.seq) = some u ∧ r.blocks.get? 0 = some (theCur r).blk ∧
    (theCur r).blk.st.groups[0]? = some (theCur r).grp ∧ 31 < (theCur r).grp.lanes.length ∧ (theCur r).blk.stopping = .none := by
  decide +kernel

/-- A stream to chip 1 with a probe under way, or free to take one; a drain; a chip to which nothing is under way; a live context. -/
theorem witness_FabricDrain :
    let s : State := { State.reset with fab := { State.reset.fab with chips := [0, 1], outSeq := [(8, 5)] } }
    let d := fun (l : List DrainWhy) (probes : List Nat) => ({ withTable s with fab := { s.fab with drains := l, probes := probes } } : State)
    (d [.quiesce] [8]).fab.probes.contains (8 * 1 + 0) = true ∧ (d [.quiesce] [8]).fab.probes ≠ [] ∧ (d [.quiesce] [8]).fab.f4 = [] ∧
    (d [.quiesce] []).fab.drains ≠ [] ∧ s.fab.chips.contains 1 = true ∧ 1 ∉ s.fab.quiet ∧ s.fab.drains = [] ∧
    s.fab.repair.get? 8 = none ∧ (∀ l ∈ [[DrainWhy.quiesce], [.leave 1], [.teardown 0]], (d l []).fab.drains = l ∧ (d l []).fab.probes = [] ∧ (d l []).fab.repair = []) ∧ 1 ≠ s.fab.chip ∧ s.fab.retry = [] ∧
    (d [.leave 1] []).chipQuiet 1 = true ∧ ((d [.teardown 0] []).ctxs.get? 0).isSome = true ∧ s.fab.ins = [] ∧
    s.liveCtx 0 = none ∧ ((withTable s).liveCtx 0).isSome = true := by
  decide +kernel

/-- A LAUNCHX for chips 0 and 1 at the head of fabric queue 6; its replica waiting for admission, and admitted; a joint launch that waits for chip 1, with
its time run out, started, given up. -/
theorem witness_JointLaunch :
    let w := (tw.set 0 0x1B05).set 7 3
    let x := { tq with dq := some 6 }
    let dom := fun (s : State) => ({ s with fab := { s.fab with chips := [0, 1] } } : State)
    let s := dom (poke (poke (poke (queued State.reset x) 0x9000 w) 0xA000 tdesc) 0x8010 [qWord2 0 1 0])
    let y := { x with fetch := .launch 0 w tdesc false, replicas := [⟨0, 1, 4, false⟩] }
    let gone := { x with fetch := .launch 0 w tdesc false, replicas := [⟨0, 1, 4, true⟩] }
    let z := { y with fetch := .launch 0 w tdesc true }
    let j : Join := ⟨6, 4, 3, [0], false, false, 0, 100⟩
    let joins := fun (l : List Join) (t : State) => ({ t with fab := { t.fab with joins := l } } : State)
    s.Next 0 0 x 0 w ∧ hdrType (recW w 0) = 2 ∧ x.replicaAt 0 = none ∧ (s.checkLaunch 0 x w none false).isOk = true ∧
    (∀ c ∈ maskChips (recW w 7), c ≠ s.fab.chip → s.streamRoom c 2 1 136 = true) ∧
    0 < qUsed (s.q2 x) ∧ qUsed (s.q2 x) + qHeld (s.q2 x) ≤ x.size ∧ recW w 6 = 0 ∧
    (queued State.reset y).qs.queues.get? 0 = some y ∧ (queued State.reset y).barred 0 w = false ∧ y.replicaAt 0 = some ⟨0, 1, 4, false⟩ ∧
    gone.replicaAt 0 = some ⟨0, 1, 4, true⟩ ∧ (queued State.reset gone).barred 0 w = false ∧ (queued State.reset y).fabricQueue 6 = some (0, y) ∧
    y.joinedReplica = none ∧ ⟨qCons ((queued State.reset y).q2 y), 1, 4, false⟩ ∈ y.replicas ∧ z.replicaAt 0 = some ⟨0, 1, 4, false⟩ ∧
    (queued State.reset y).joinOf 6 4 = none ∧
    (joins [j] State.reset).joinOf 6 4 = some j ∧ 1 ∉ j.joined ∧ (maskChips j.mask).contains 1 = true ∧ 1 ≠ State.reset.fab.chip ∧
    j.joined.length + 1 = (maskChips j.mask).length ∧ j.since + j.limit ≤ (atClk 100 (joins [j] State.reset)).clk 0 ∧
    (queued State.reset z).fabricQueue 6 = some (0, z) ∧ (queued State.reset z).joinOf 6 4 = none ∧ 0 = qCons ((queued State.reset z).q2 z) := by
  refine ⟨next_of ?_, ?_, ?_, ?_, fun c _ _ => State.streamRoom_empty _ _ _ _ _ rfl (by decide), ?_⟩ <;> decide +kernel

/-- A port at its limits; a watchdog that has run out, and one that has not; a repair that has lasted 2^26 cycles. -/
theorem witness_PortsAndWatchdog :
    let s := fun (x : Port) => atClk 1048576 { State.reset with ports := [(23, x)] }
    let up : Port := ⟨8, true, 32, 0, 0⟩
    let down : Port := ⟨8, false, 0, 0, 0⟩
    let out := { tl with wdog := 2 ^ 20 * 255, excused := [(8, 0, 2 ^ 26)] }
    let fix : State := { launched st0 out with fab := { st0.fab with repair := [(8, 0)] } }
    ((s up).port 23).up = true ∧ 32 ≤ ((s up).port 23).retries ∧ ((s { up with retries := 31 }).port 23).retries < 32 ∧
    ((s up).port 23).lastFlit + 4096 ≤ (s up).clk 0 ∧ State.reset.clk 0 < (State.reset.port 23).lastFlit + 4096 ∧
    ((s down).port 23).up = false ∧ ((s down).port 23).goodSince + 2 ^ 20 ≤ (s down).clk 0 ∧
    (launched st0 out).qs.launches.get? 0 = some out ∧ out.spec = none ∧ out.terminated = false ∧ (launched st0 out).qs.queues.get? out.q = some tq ∧
    2 ^ 20 * resWdog (recW out.w 5) ≤ out.wdog ∧ tl.wdog < 2 ^ 20 * resWdog (recW tl.w 5) ∧ (∃ e ∈ out.excused, 2 ^ 26 ≤ e.2.2 ∧ fix.fab.repair.get? e.1 = some e.2.1) ∧ tl.excused = [] ∧
    ((launched st0 out).blocks.find? fun p => p.2.launch == 0).isSome = true ∧ ((launched st0 out).ctxs.get? 0).isSome = true := by
  decide +kernel

/-- Each bound of a command, met and missed; an invalidate that is new, waiting and done; a context with a block and with none. -/
theorem witness_HostCommands :
    let s := withTable State.reset
    let n : QcbNew := ⟨0, 0x8000, 0x9000, 0, 0xFFFF, 7, 4⟩
    let inv : Inval := ⟨0, 0, 262144, [], [], [], [], []⟩
    let wait : Inval := ⟨0, 0, 262144, [], [], [7], [], []⟩
    let torn := fun (d : Bool) (chips : List Nat) => ({ State.reset with
      ctxs := [(0, ⟨0x10000, false, 0, 0x2000, [], 0, 0, [], 8, [], [], true, d⟩)], fab := { State.reset.fab with chips := chips } } : State)
    let busy : State := { State.reset with
      invals := [wait]
      ms := { State.reset.ms with copies := [(7, ⟨.load, 0, 0, 0, 0, 0, 0, [0], 0, 256, [], [], 0, 0, 64, 0, [], [], [], [], false, true, false⟩)] } }
    s.ctxs.get? 1023 = none ∧ 0x10000 % 65536 = 0 ∧ (s.ctxs.get? 0).isSome = true ∧ s.liveCtx 5 = none ∧ (s.liveCtx 0).isSome = true ∧
    s.translate n.asid n.handle = some (leaf0, 0x8000) ∧ pteRem leaf0 = false ∧ beyondHbm 0x8000 = false ∧ n.handle.toNat % 256 = 0 ∧
    n.base.toNat % 4096 = 0 ∧ s.queueOf 0 0x8000 = none ∧ s.queueAt 0x8000 = none ∧ s.fabricQueue 6 = none ∧
    (launched State.reset tl).unfinished 0 = true ∧ (queued State.reset tq).unfinished 0 = false ∧ s.invals = [] ∧ beyondHbm 0x2000 = false ∧
    (∀ d, ∀ chips ∈ [[0], [0, 1]], (torn d chips).ctxs.get? 0 = some ⟨0x10000, false, 0, 0x2000, [], 0, 0, [], 8, [], [], true, d⟩ ∧ (torn d chips).saved = [] ∧
      (torn d chips).blocks = [] ∧ (torn d chips).qs.queues = [] ∧ KMap.sorted (torn d chips).qs.launches = true) ∧
    1 < (torn false [0, 1]).fab.chips.length ∧ (queued State.reset tq).slotOf 0 = some 0 ∧
    ({ queued State.reset tq with qs := { (queued State.reset tq).qs with slots := [] } } : State).slotOf 0 = none ∧
    (busy.invals.find? fun x => x.asid == 0 && x.va == 0 && x.size == 262144) = some wait ∧ busy.invalDone wait = false ∧ busy.invalDone inv = true ∧
    ((s.ctxs.get? 0).map fun c => c.tearing) = some false ∧ (∀ p ∈ s.blocks, p.2.asid ≠ 0) ∧ (∀ p ∈ s.qs.queues, p.2.asid ≠ 0) ∧
    KMap.sorted (withTable st0).blocks = true ∧ ((withTable st0).blocks.get? 0).isSome = true ∧ 896 ∈ [512, 768, 896] ∧ 600 ∉ [512, 768, 896] ∧
    s.blocksOnCore 95 7 = [] ∧ (s.core 95 7).zeroing = Load.zero := by
  decide +kernel

/-- A core with one block and a journal of two words, of which the first is 160 cycles before the target. -/
theorem witness_Strikes :
    let b := (theCur st0).blk
    let e : JEntry := ⟨900, 0, b.st, b.prot⟩
    let s := atClk 1000 (onCore st0 fun c => { c with journal := [⟨500, 0, b.st, b.prot⟩, e] })
    1000 ≤ s.clk 0 ∧ (∀ j < 8, (1 : BitVec 8).getLsbD j = decide (j = 0)) ∧ s.blocksOnCore 0 0 = [0] ∧ s.blocks.get? 0 = some b ∧ b.spec = none ∧ b.pair = false ∧
    b.cl = 0 ∧ b.co = 0 ∧ (s.core 0 0).lastStrike = none ∧ (∀ g ∈ b.st.groups, g.park ≠ .assist) ∧
    (∀ f ∈ (s.core 0 0).journal, ∀ g ∈ f.st.groups, g.park ≠ .assist) ∧ e ∈ (s.core 0 0).journal ∧ 1000 - 160 < e.cycle ∧
    ∀ f ∈ (s.core 0 0).journal, f.blk = 0 → f ≠ e → 1000 - 160 < f.cycle → e.cycle < f.cycle := by
  decide +kernel

/-- A core that serves, with a block; one that has been out for 2^24 cycles; an image that is not accepted, and a part in recovery. That some image is
accepted cannot be shown: whether a signature is right is left open (log 10). -/
theorem witness_Hours :
    let out := atClk 16777216 (onCore State.reset fun c => { c with service := .out 0, bin := 2 })
    let rec_ : State := { State.reset with fw := { State.reset.fw with recovery := true } }
    (st0.core 0 0).service = .serving ∧ st0.testing 0 = false ∧ KMap.sorted st0.blocks = true ∧ 0 ∈ st0.blocksOnCore 0 0 ∧
    (out.core 0 0).service = .out 0 ∧ 0 + 2 ^ 24 ≤ out.clk 0 ∧ out.blocksOnCore 0 0 = [] ∧ (out.core 0 0).zeroing = Load.zero ∧ (out.core 0 0).bin = 2 ∧
    rec_.fw.accepts ⟨[], []⟩ = false ∧ rec_.fw.recovery = true ∧ (List.replicate 32 (0 : Byte)).length = 32 ∧ KMap.sorted (withTable st0).ctxs = true ∧
    ((withTable st0).ctxs.get? 0).isSome = true := by
  decide +kernel

/-- A word in focus with its line, without it, with poison in it, and beside a smaller register count; no word in focus, an input, no input. -/
theorem witness_StepRunsWord :
    let s := State.reset.withFetchWord 64 0x041DC28199C00011
    let cold : State := { s with ms := { s.ms with icache := [] } }
    let few := onBlk (State.reset.withFetchWord 64 0b0_000010_0000_111_0_111_0_100000_0_0000001_00_0000010_00_0000000_00_00_00000_0_000) fun b => { b with nregs := 16 }
    let inp : State := { State.reset with inputs := [.createContext 0 0 false ⟨0, 0x2000⟩] }
    s.focus = some ⟨0, 0, false⟩ ∧ s.curOf ⟨0, 0, false⟩ = some (theCur s) ∧ ((s.ms.icache.get? (icKey 0 0 0)).map fun x => x.2) = some 0 ∧
    cold.ms.icache.get? (icKey 0 0 0) = none ∧ (theCur s).grp.inEntry false 0 = true ∧
    (decodeBytes (wordBytes 0x041DC28199C00011)).toOption.any (fun i => i.regsBelow 64 && i.spansAligned && i.pairOk) = true ∧
    (theCur few).blk.nregs = 16 ∧ (decodeTableWord 64 0b0_000010_0000_111_0_111_0_100000_0_0000001_00_0000010_00_0000000_00_00_00000_0_000).any
      (fun i => i.regsBelow 16) = false ∧
    State.reset.focus = none ∧ State.reset.inputs = [] ∧ inp.inputs ≠ [] := by
  decide +kernel

/-- An instruction that the checks accept and that has an encoding. -/
theorem witness_DecodeEncode :
    (Instr.add tu ⟨td 3, tr 1, tr 2, .i64⟩).fieldsOk = true ∧ (encode (.add tu ⟨td 3, tr 1, tr 2, .i64⟩)).isSome = true := by decide

/-- The state after reset, one with a word in memory, and a step that answers a next state. -/
theorem witness_MemoryCanonical :
    State.reset.ms.mem.wf = true ∧ (withTable st0).ms.mem.wf = true ∧ ∃ t, step st0 = .next t := ⟨rfl, by decide +kernel, _, rfl⟩

/-! ### Premises that can be met: the further clauses of statements -/

/-- An act of a lane of the placed block. -/
def contAct (a : Act) : Held := ⟨0, 0, 0, 0, 0, 0x400, none, none, a⟩
/-- An entry of a continuation table. -/
def contEnt : ContEnt := ⟨0x2000000005, false, false, false, 0x8000, 0x200040, 0xA000⟩
/-- The context of the placed block with one entry of its table, for every slice, and a quota. -/
def withConts (quota : Nat) (s : State) : State :=
  { s with ctxs := s.ctxs.put 0 ⟨0x10000, false, 0, 0x2000, [], 0, 0, [], quota, (List.range 8).map fun k => (256 * k + 5, contEnt), [], false, false⟩ }

/-- A CASC whose old value is its comparand, with room, without an entry, and with the quota used. -/
theorem witness_ContinuationActs :
    let r : Ret := ⟨31, some 3, true, some .p2, none⟩
    let s := withConts 8 st0
    s.blocks.get? 0 = some (theCur s).blk ∧ (theCur s).blk.st.groups[0]? = some (theCur s).grp ∧ (theCur s).grp.retired = false ∧
    r.lane < (theCur s).grp.lanes.length ∧ Place.slice.chip? = none ∧ s.ms.atomPoison 0 none 0x400 .slice = false ∧
    (contAct (.casc .slice 0x400 0x400 0 7 5 r)).rel = none ∧ s.fifos.getD (sliceOf 0x400) [] = [] ∧
    ((s.ctxs.get? 0).bind fun c => c.conts.get? (256 * sliceOf 0x400 + (5 : W64).toNat % 256)) = some contEnt ∧
    ((s.ctxs.get? 0).bind fun c => c.conts.get? (256 * sliceOf 0x400 + (6 : W64).toNat % 256)) = none ∧
    ((withConts 0 st0).ctxs.get? 0).map (fun c => decide (c.quota ≤ 0)) = some true ∧ s.ms.mem.word 0x400 = 0 := by
  decide +kernel

/-- WAITC that looks again, and one that leaves; the same at its end of time. -/
theorem witness_WaitWordAgain :
    let w : WaitcRec := ⟨0, 0, [(0, 5)], [], true⟩
    let chk := inWait (.waitcCheck w)
    let leave := inWait (.waitcLeave w)
    let wait := fun (s : State) => ((theCur s).grp.pcSlot (theCur s).slot).wait
    wait chk = .waitcCheck w ∧ w.got = [] ∧ wait leave = .waitcLeave w ∧ w.issued + 65536 ≤ (atClk 65536 chk).clk 0 ∧ chk.clk 0 < w.issued + 65536 ∧
    (theCur leave).active tu ≠ [] := by
  decide +kernel

/-- Two groups of 16 lanes pair and a third waits for none; the lanes of one move to the other. -/
theorem witness_RegroupMoves :
    let b := (theCur st0).blk
    let r := { (theCur st0).grp with lanes := ((theCur st0).grp.lanes.take 16) ++ ((theCur st0).grp.lanes.drop 16).map fun l => { l with present := false } }
    let st := { b.st with groups := [r, r] }
    let waits := { b.st with groups := [{ r with regWait := 0xFFFFFFFF, slot0 := { r.slot0 with e := ⟨8, 0xFFFF⟩ } }] }
    ([(0, 16), (1, 16), (2, 20)] : List (Nat × Nat)).Pairwise (fun x y => x.1 < y.1) ∧ (∀ x ∈ ([(0, 16), (1, 16), (2, 20)] : List (Nat × Nat)), x.2 ≤ 32) ∧
    regroupPairs 3 [(0, 16), (1, 16), (2, 20)] = [(0, 1)] ∧ st.groups[0]? = some r ∧ st.groups[1]? = some r ∧ r.lanes.length = 32 ∧
    ((List.range 32).filter fun k => (r.lane k).present).length ≤ ((List.range 32).filter fun k => !(r.lane k).present).length ∧
    ((waits.groups[0]?).any fun g => decide (g.slot0.e.mask ≠ 0 ∧ g.slot0.e.mask &&& ~~~g.regWait = 0 ∧ g.slot1.e.mask = 0)) = true := by
  decide +kernel

/-- The cells of a lane's own scratch that its words may use, at every 8 bytes from an offset. -/
theorem cells_of {s : State} (a : W64) (n : Nat) (h : ∀ i < n, let b := a + BitVec.ofNat 64 (8 * i)
    b.toNat % 8 = 0 ∧ 0x1FFFFE00000 ≤ b.toNat ∧ b.toNat ≤ 0x1FFFFFFFFFF ∧ scratchOf b + 8 ≤ (theCur s).blk.scratchSize ∧
    s.rangeHeld (theCur s) (scratchOf b) 8 true = false ∧ (theCur s).blk.st.poisoned (scratchOf b) 8 = false) :
    ∀ i < n, s.Cell (theCur s) (a + BitVec.ofNat 64 (8 * i)) := fun i hi => cell_of _ (h i hi)

/-- A lane with a variable of its own, two constants, two equal lists and two equal structures; its list has room for eight cells; with FEX set a
failing UNIFY.f goes there. -/
theorem witness_UnifyWords :
    let s := pokeScratch (searching none) 2048 [0x1000000000000005, 0x1000000000000006, 0x1000000000000005, 0x1000000000000006,
      0x2000000100000007, 0x1000000000000008, 0x2000000100000007, 0x1000000000000008, 0x2000000100000009]
    let fails := onGrp (searching none) fun g => { g with fex := 16 }
    let q := theCur s
    let l := q.grp.lane 0
    let cell := fun (a : W64) => q.blk.st.sword (scratchOf a)
    s.cur? = some q ∧ q.active tu = [0] ∧ (∀ i < 8, s.Cell q (l.sw.pdlB + BitVec.ofNat 64 (8 * i))) ∧
    (∀ i < 9, s.Cell q (win + 2048 + BitVec.ofNat 64 (8 * i))) ∧ s.Cell q (win + 512) ∧ s.Cell q l.tt ∧
    q.done = 0 ∧ (q.grp.pcSlot q.slot).bad = 0 ∧ l.upd = 0 ∧ l.sw.pdlB.toNat + 64 ≤ l.sw.pdlL.toNat ∧ scratchOf (win + 2048) + 72 ≤ scratchOf l.sw.pdlB ∧
    cell (win + 512) = 0x7000000000000000 ||| (win + 512) ∧ l.tt.toNat + 8 ≤ l.sw.trailL.toNat ∧ l.tt ≠ win + 512 ∧
    cell (win + 2048) = cell (win + 2064) ∧ cell (win + 2056) = cell (win + 2072) ∧ tagOf (cell (win + 2048)) = 1 ∧
    cell (win + 2080) = cell (win + 2096) ∧ cell (win + 2088) = cell (win + 2104) ∧ tagOf (cell (win + 2080)) = 2 ∧
    (cell (win + 2080)).extractLsb' 32 16 = 1 ∧ cell (win + 2080) ≠ cell (win + 2112) ∧ tagOf (cell (win + 2112)) = 2 ∧
    ((theCur fails).grp.fex >>> 3 ≠ 0 ∧ l.mt = l.sw.markB ∧ l.tt = l.sw.trailB ∧ l.sw.w1.extractLsb' 0 4 ≠ 0 ∧
      (theCur fails).grp.dspFloor.toNat + 16 ≤ (theCur fails).grp.dspTop.toNat) := by
  refine ⟨rfl, by decide +kernel, cells_of _ _ (by decide +kernel), cells_of _ _ (by decide +kernel), cell_of _ (by decide +kernel), cell_of _ (by decide +kernel), ?_⟩
  decide +kernel

/-- A shared variable that is unbound: in the block's scratch, and on a page of memory of this chip. -/
theorem witness_CommitWords :
    let x : W64 := 0x8000000000000000 ||| (win + 512)
    let s := pokeScratch terms 512 [x]
    let y : W64 := 0x8000000000000400
    let g := poke (withRegs (mapped terms) fun _ => [(1, y)]) 0x400 [y]
    let q := theCur s
    s.cur? = some q ∧ q.active tu = [0] ∧ tagOf x = 8 ∧ s.Cell q (ptrOf x) ∧ q.blk.st.sword (scratchOf (ptrOf x)) = x ∧
    g.cur? = some (theCur g) ∧ (theCur g).active tu = [0] ∧ tagOf y = 8 ∧ ptrOf y = 0x400 ∧
    (g.readVa (theCur g) [] g.ms 0 ⟨0x400, 8, false, true, false, .any, false, false⟩ true).toOption.map (fun r => r.1) = some (leBytes y.toNat 8) ∧
    g.check (theCur g) 0 ⟨0x400, 8, true, true, true, .any, false, false⟩ = .global leaf0 0x400 ∧ q.farBytes = [] ∧
    s.drainDone q.blk 0 0 0 .results = true := by
  refine ⟨rfl, by decide +kernel, by decide, cell_of _ (by decide +kernel), ?_⟩
  decide +kernel

/-- An act behind a release, alone in its queue: an ATOMC with an entry, an ENQ to a queue with room and to one without. A hand-off; a store that goes
around the cluster cache. -/
theorem witness_StoreQueueMore :
    let r : Ret := ⟨31, some 3, true, some .p2, none⟩
    let p : Ret := ⟨31, none, false, none, some 2⟩
    let one := fun (s : State) (a : Act) (rel : Option (AScope × SScope)) =>
      (atClk 160 (onCore s fun c => { c with held := [⟨0, 0, 0, 0, 0, 0x400, rel, none, a⟩] }) : State)
    let at_ := one ({ st0 with ctxs := st0.ctxs.put 0 ⟨0x10000, false, 0, 0x2000, [], 0, 0, [], 8, (List.range 8).map fun k => (256 * k + 5, ⟨0x2000000005, false, false, false, 0x8000, 0x200040, 0xA000⟩), [], false, false⟩ }) (.casc .slice 0x400 0x400 0 7 5 r) (some (.clu, .sg))
    let q := launched st0 tl
    let en := one q (.enq 0x8000 tw p) (some (.dev, .sg))
    let full := one (poke q 0x8010 [qWord2 0 16 0]) (.enq 0x8000 tw p) (some (.dev, .sg))
    let copy : CopyOp := ⟨.store, 0, 0, 0, 0, 0, 0, [0], 1024, 2048, trec 0x400, [0], 0, 0, 8, 0, [(0, leaf0)], [(0, 4), (4, 4)], [], [], false, false, false⟩
    let ho := one { st0 with ms := { st0.ms with copies := [(7, copy)] } } (.handoff 7) none
    let round := one st0 (.store .cache .around 0x43E [1, 2]) none
    (at_.leaver 0 0).isSome = true ∧ (en.leaver 0 0).isSome = true ∧ (full.leaver 0 0).isSome = true ∧ (ho.leaver 0 0).isSome = true ∧
    (round.leaver 0 0).isSome = true ∧
    (let s0 := (en.setCore 0 0 { en.core 0 0 with held := [] }).releaseAct 0 .dev .sg
     s0.queueAt 0x8000 = some (0, tq) ∧ s0.slotBeyond tq = false ∧ (s0.reserve tq false).isSome = true) ∧
    ((full.setCore 0 0 { full.core 0 0 with held := [] }).releaseAct 0 .dev .sg).reserve tq false = none ∧
    (en.qs.launches.get? (theCur en).blk.launch).map (fun y => y.children) = some 0 ∧
    ho.ms.copies.get? 7 = some copy ∧ (∀ k ∈ copy.objs, k = 0) ∧ KMap.sorted ho.ms.cc = true := by
  decide +kernel

/-- A candidate that yielded beside one that did not; a word that goes on though its core is out of service; a result in a predicate that has come; the
array of the second core of a pair, taken by the first. -/
theorem witness_CoresMore :
    let g := theCur st0
    let c : Cand := ⟨0, 0, false, 0, 0, 0, false, true, none⟩
    let out : State := { onCore (inWait .resume) fun c => { c with service := .leaving } with focus := none }
    let paired : Batch := ⟨0, true, 0, 1, [(0, 0, .mmaI 8 0 0 0 true)], [], []⟩
    let two := onBlk st0 fun b => { b with pair := true, st := { b.st with groups := [{ g.grp with batches := [paired] }, { g.grp with batches := [paired] }] } }
    notYielded [c, { c with gi := 1, yielded := false }] = [{ c with gi := 1, yielded := false }] ∧ notYielded [c] = [c] ∧
    (out.core 0 0).service ≠ .serving ∧ (out.readyCore 0 0).goingOn 0 0 = some ⟨0, 0, false⟩ ∧
    (onGrp st0 fun g => { g with psb := 4 }).resultPending g.blk 0 0 66 = false ∧
    two.arrayTaken 0 1 = true ∧ two.arrayTaken 0 0 = false ∧ st0.arrayTaken 0 0 = false := by
  decide +kernel

/-- A launch with a release at SYS, and a write to another chip that is outstanding. A word that must end before its block is saved, one that need not, and a
sweep between elements. -/
theorem witness_EndingsMore :
    let m : Msg := ⟨0, 1, 0, 0, false, 0, .store 0x400 [1], 0⟩
    let out : OutMsg := ⟨m, none, 0, 0, 0, 0, [], none, 0⟩
    let sys := { tl with ended := 1, handed := 1, w := [0x2B03, 0xA000, 0x2000000005, 0, 0, 0x200040, 0] }
    let s : State := { launched State.reset sys with fab := { State.reset.fab with chips := [0, 1], retry := [out] } }
    (hdrRel (recW sys.w 0) = .fab ∨ hdrRel (recW sys.w 0) = .sys) ∧ out.writes = true ∧ s.qs.launches.get? 0 = some sys ∧ sys.children = 0 ∧
    (∀ w ∈ [SWait.coinit, .resume, .drain 0 .results, .walk 0 0x40000 false true],
      ((theCur (inWait w)).grp.pcSlot false).plans = [] ∧ (theCur (inWait w)).grp.sweeps false = false ∧ (theCur (inWait w)).blk.st.mustEnd = true) ∧
    ∀ w ∈ [SWait.waitph, .copySlot, .batch, .between], (theCur (inWait w)).blk.st.mustEnd = false := by
  decide +kernel

/-- Three mapped gangs and one of higher priority that waits, with no slot free: one of them makes room. -/
theorem witness_Displacement :
    let q := fun (n b : Nat) (st : QState) => { tq with handle := BitVec.ofNat 64 (0x8000 + 256 * n), pa := 0x8000 + 256 * n, bpri := b, st := st, slot := n, fetch := .launch 0 tw tdesc false }
    let qs := [(0, q 0 1 .mapped), (1, q 1 2 .mapped), (2, q 2 7 .ready)]
    let s := queued State.reset tq
    let t : State := { s with qs := { s.qs with queues := qs, wantDecision := true, slots := [(0, { SlotState.free with q := some 0 }), (1, { SlotState.free with q := some 1 })] } }
    gangBefore [(2, q 2 7 .ready)] [(0, q 0 1 .mapped)] = true ∧ gangPrio [(2, q 2 7 .ready)] = 7 ∧ gangPrio [(0, { q 0 1 .mapped with age := 64 })] = 7 ∧
    gangPrio [(0, q 0 5 .error)] = 0 ∧ (∀ g ∈ t.gangs, t.gangIdle g = false) ∧
    (t.gangs.filter fun g => !t.gangMapped g && t.gangEligible g) = [[(2, q 2 7 .ready)]] ∧
    coverWith t 1 7 0 (sortGangs (fun a b => gangBefore b a) (t.gangs.filter fun g => t.gangMapped g && !gangLeaving g)) = some [[(0, q 0 1 .mapped)]] ∧
    coverWith t 3 7 0 [[(0, q 0 1 .mapped)], [(1, q 1 2 .mapped)]] = none := by
  decide +kernel

/-- A speculation of the launch of `tw`, complete, that has written nothing; the packet that claims it, and one that differs. -/
theorem witness_Claim :
    let sp : Spec := ⟨0, 0, (histOf tw tdesc).map some, 0x9000, [(0, 3)], some 0⟩
    let x := { tq with fetch := .launch 0 tw tdesc false }
    let y := { tl with spec := some 0, q := 0 }
    let s0 := queued State.reset x
    let s : State := { s0 with
      qs := { s0.qs with specs := [(0, sp)], launches := [(0, y)] }
      ms := { s0.ms with cocoons := [(0, ⟨[], [], [4], false, []⟩)] } }
    s.specOf 0 = some (0, sp) ∧ sp.fields.length = 24 ∧ (∀ f < 24, sp.fields[f]? = some ((histOf tw tdesc)[f]?)) ∧
    (histOf (tw.set 2 7) tdesc)[2]? ≠ (histOf tw tdesc)[2]? ∧
    (s.ms.cocoon 0).spoiled = false ∧ s.ms.cocoonFull 0 = false ∧ s.clk 0 < 0 + 64 * 65536 ∧ s.qs.launches.get? sp.launch = some y ∧
    KMap.sorted (s.ms.cocoon 0).lines = true ∧ KMap.sorted sp.charge = true ∧ s.barred 0 tw = false ∧ resChild (recW tw 5) = 0 ∧
    x.pa % 256 = 0 ∧ (s.ms.cocoon 0).lines.get? (x.pa / 256) = none := by
  refine ⟨?_, ?_, ?_, ?_, ?_, ?_, ?_, ?_, ?_, ?_, ?_, ?_, ?_, ?_⟩ <;> decide +kernel

/-- A launch that asks for four slots in the queue of its children, which has room for them, and has not. -/
theorem witness_Children :
    let w := (tw.set 5 0x80200040).set 7 0x8100
    let x := { tq with fetch := .launch 0 w tdesc false }
    let y := { tq with handle := 0x8100, pa := 0x8100, base := 0xB000 }
    let s := fun (v : W64) => let t := poke (queued State.reset x) 0x8110 [v]
      ({ t with qs := { t.qs with queues := [(0, x), (1, y)] } } : State)
    resChild (recW w 5) ≠ 0 ∧ (s 0).queueOf 0 (recW w 7) = some (1, y) ∧ y.log2n ≤ 20 ∧ x.pa + 256 ≤ y.pa ∧ (s 0).barred 0 w = false ∧
    qUsed ((s 0).q2 y) + qHeld ((s 0).q2 y) + resChild (recW w 5) ≤ 2 ^ y.log2n ∧
    2 ^ y.log2n < qUsed ((s (qWord2 0 16 0)).q2 y) + qHeld ((s (qWord2 0 16 0)).q2 y) + resChild (recW w 5) := by
  decide +kernel

/-- A phase that another chip drains: before this chip has joined it, after, and with a message of the old tag outstanding; an own drain that waits for that
message. A replica that waits behind another, and one whose header asks for a release at SYS while a write is outstanding. -/
theorem witness_PhasesMore :
    let m : Msg := ⟨0, 1, 0, 0, true, 0, .store 0x400 [1], 0⟩
    let out : OutMsg := ⟨m, none, 0, 0, 0, 0, [], none, 0⟩
    let f := fun (joined : Bool) (drains : List DrainWhy) (retry : List OutMsg) =>
      ({ State.reset with fab := { State.reset.fab with chips := [0, 1], joined := joined, drains := drains, retry := retry } } : State)
    let w := (tw.set 0 0x1C05).set 7 3
    let x := { tq with dq := some 6, fetch := .launch 0 w tdesc true, replicas := [⟨0, 1, 4, false⟩, ⟨1, 1, 5, false⟩] }
    (f false [] []).fab.drains = [] ∧ (f false [] []).fab.chips.contains 0 = true ∧ (f true [] []).fab.joined = true ∧ (f true [] []).fab.retry = [] ∧
    (f true [] []).fab.acks = [] ∧ (∃ y ∈ (f true [] [out]).fab.retry, y.m.tag ≠ (f true [] [out]).fab.tag) ∧ (f false [.quiesce] [out]).fab.drains ≠ [] ∧
    (x.joinedReplica.map fun r => r.1.gen) = some 4 ∧ ⟨1, 1, 5, false⟩ ∈ x.replicas ∧ out.writes = true ∧
    (hdrAcq (recW w 0) = .fab ∨ hdrAcq (recW w 0) = .sys) ∧
    ((packet tw).advanceCons 0).slotBeyond tq = false := by
  decide +kernel

/-- A ring slot beyond the installed HBM. -/
theorem witness_Beyond :
    let s := queued State.reset tq
    let far : State := { s with ms := { s.ms with mem := s.ms.mem.setWord 0x20000 0xC070000000800000 } }
    ((s.ms.walk (s.root 0) 0x9000).isSome = true) ∧ s.slotBeyond tq = false ∧ far.slotBeyond tq = true := by
  decide +kernel

/-- A core with eight alarms, one without, one that its blocks have left; a core that fails its test in bin 0; a part in reset with its contexts gone, and with one. An
image that is next in turn, and one that must wait. -/
theorem witness_HoursMore :
    let bad := onCore st0 fun c => { c with alarms := List.replicate 8 0 }
    let left_ := onCore State.reset fun c => { c with service := .leaving }
    let rs := fun (s : State) => ({ s with fw := { s.fw with resetting := true } } : State)
    let img := fun (k : W64) => (⟨[0x58485254, k], []⟩ : Image)
    let f := fun (l : List Image) => ({ Firmware.init with recovery := true, waiting := l } : Firmware)
    8 ≤ ((bad.core 0 0).alarms.filter fun c => bad.clk 0 < c + 2 ^ 40).length ∧ (bad.core 0 0).service = .serving ∧ bad.testing 0 = false ∧
    ((st0.core 0 0).alarms.filter fun c => st0.clk 0 < c + 2 ^ 40).length < 8 ∧ ((st0.core 0 0).corrected.filter fun c => st0.clk 0 < c + 2 ^ 40).length < 64 ∧
    (left_.core 0 0).service = .leaving ∧ left_.blocksOnCore 0 0 = [] ∧ (State.reset.core 0 0).bin ≠ 2 ∧
    (rs State.reset).fw.resetting = true ∧ (rs State.reset).ctxs = [] ∧ (rs (withTable State.reset)).ctxs ≠ [] ∧
    ((f [img 0]).waiting.find? fun z => imgKind z == (f [img 0]).loaded.length) = some (img 0) ∧
    (∀ y ∈ (f [img 3]).waiting, imgKind y ≠ (f [img 3]).loaded.length) ∧ imgKind (img 7) ≤ 7 := by
  decide +kernel

/-- A copy of a word that waits for a slot holds an invalidate back. -/
theorem witness_WaitingPlan :
    let c : CopyOp := ⟨.load, 0, 0, 0, 0, 0, 0, [0], 0, 256, [], [], 0, 0, 64, 0, [], [], [], [], false, true, false⟩
    let x : Inval := ⟨0, 0, 262144, [], [], [], [(0, 0, 0)], []⟩
    let s := onGrp st0 fun g => { g with slot0 := { g.slot0 with plans := [c] } }
    (∃ p ∈ x.plans, ∃ b g, s.blocks.get? p.1 = some b ∧ b.st.groups[p.2.1]? = some g ∧ ∃ y ∈ g.slot0.plans ++ g.slot1.plans, y.lane = p.2.2) ∧
    s.invalDone x = false ∧ st0.invalDone x = true := by
  refine ⟨⟨_, .head _, _, _, rfl, rfl, _, .head _, rfl⟩, ?_⟩
  decide +kernel

/-- A pair with an act that crosses, due at the end of the turn and not due; a word that may know of others' stores. -/
theorem witness_EndOfWord :
    let s := onBlk st0 fun b => { b with pair := true, st := { b.st with crossing := [⟨0, 0, .bar 2⟩] } }
    let due := atClk 160 s
    KMap.sorted s.blocks = true ∧ (∀ p ∈ s.blocks, p.2.cl = 0 → ∀ x ∈ p.2.st.crossing, (s.cluster 0).nextTurn.clk < x.cycle + 160) ∧
    (∃ p ∈ due.blocks, ∃ x ∈ p.2.st.crossing, x.cycle + 160 ≤ (due.cluster 0).nextTurn.clk) ∧
    acquires 0b0_001010_0011_111_0_111_0_000011_0_0000001_00_0000000_00_0000000_00_00_00000_0_000 = true ∧
    acquires 0x041DC28199C00011 = false ∧ ((theCur st0).grp.pcSlot false).wait = .none := by
  decide +kernel

end Sys2Proof.Tests
end

section
/-! PROOF of O60, that memory keeps its canonical form. What leaves memory at its home alone is said once for each operation; what writes it keeps
the form; and from there the proof follows the model: computations that may stop, computations of a lane, words, events, and the step. -/

namespace Sys2Proof.Machine

/-! ### States that hold the same memory -/

/-- A choice between two states that hold the same memory as a third. -/
@[simp] theorem State.ite_mem (c : Prop) [Decidable c] (a b : State) :
    (if c then a else b).ms.mem = if c then a.ms.mem else b.ms.mem := by split <;> rfl

@[simp] theorem State.foldl_mem {α : Type} (f : State → α → State) (hf : ∀ s x, (f s x).ms.mem = s.ms.mem) (l : List α) (s : State) :
    (l.foldl f s).ms.mem = s.ms.mem := by
  induction l generalizing s with
  | nil => rfl
  | cons x l ih => rw [List.foldl_cons, ih, hf]

/-! ### What leaves memory at its home alone -/

@[simp] theorem MemSys.fire_mem (ms : MemSys) (p : Monitor → Bool) : (ms.fire p).mem = ms.mem := rfl

@[simp] theorem MemSys.spoil_mem (ms : MemSys) (pa n : Nat) : (ms.spoil pa n).mem = ms.mem := rfl

@[simp] theorem MemSys.unwatch_mem (ms : MemSys) (q : Nat) : (ms.unwatch q).mem = ms.mem := rfl

@[simp] theorem MemSys.setPoison_mem (ms : MemSys) (sector : Nat) : (ms.setPoison sector).mem = ms.mem := rfl

@[simp] theorem MemSys.setOwned_mem (ms : MemSys) (spec : Option Nat) (l : List Nat) : (ms.setOwned spec l).mem = ms.mem := by
  unfold MemSys.setOwned
  split <;> rfl

@[simp] theorem MemSys.giveBack_mem (ms : MemSys) (spec : Option Nat) (sector : Nat) : (ms.giveBack spec sector).mem = ms.mem := by
  unfold MemSys.giveBack
  simp

@[simp] theorem MemSys.specWrite_mem (ms : MemSys) (n pa : Nat) (bytes : List Byte) : (ms.specWrite n pa bytes).mem = ms.mem := rfl

@[simp] theorem MemSys.specPoison_mem (ms : MemSys) (n sector : Nat) : (ms.specPoison n sector).mem = ms.mem := rfl

@[simp] theorem MemSys.ccPut_mem (ms : MemSys) (cl sector : Nat) (x : Sector) : (ms.ccPut cl sector x).mem = ms.mem := rfl

@[simp] theorem MemSys.ccDrop_mem (ms : MemSys) (cl sector : Nat) : (ms.ccDrop cl sector).mem = ms.mem := rfl

@[simp] theorem MemSys.acquireDev_mem (ms : MemSys) (cl : Nat) : (ms.acquireDev cl).mem = ms.mem := rfl

@[simp] theorem MemSys.ccWrite_mem (ms : MemSys) (cl pa : Nat) (bytes : List Byte) (who : Nat × Nat × Nat) :
    (ms.ccWrite cl pa bytes who).mem = ms.mem := rfl

@[simp] theorem MemSys.tlbPut_mem (ms : MemSys) (cl asid n : Nat) (va e : W64) (big : Bool) : (ms.tlbPut cl asid n va e big).mem = ms.mem := rfl

@[simp] theorem State.updBlk_mem (s : State) (id : Nat) (f : BlkState → BlkState) : (s.updBlk id f).ms.mem = s.ms.mem := by
  unfold State.updBlk
  split <;> simp

@[simp] theorem State.updGrp_mem (s : State) (id gi : Nat) (f : Group → Group) : (s.updGrp id gi f).ms.mem = s.ms.mem := by
  unfold State.updGrp
  simp

@[simp] theorem State.movePerf_mem (s : State) (n : Nat) (dest : Option Nat) : (s.movePerf n dest).ms.mem = s.ms.mem := rfl

@[simp] theorem State.tallied_mem (s : State) (id gi : Nat) (t : Tally) : (s.tallied id gi t).ms.mem = s.ms.mem := by
  unfold State.tallied
  (repeat' split) <;> rfl

@[simp] theorem State.launchActive_mem (s : State) (l : Nat) : (s.launchActive l).ms.mem = s.ms.mem := by
  unfold State.launchActive
  split <;> rfl

@[simp] theorem State.zeroLater_mem (s : State) (cl co : Nat) (x : Load) : (s.zeroLater cl co x).ms.mem = s.ms.mem := rfl

@[simp] theorem State.freeBlock_mem (s : State) (b : Block) : (s.freeBlock b).ms.mem = s.ms.mem := by
  unfold State.freeBlock
  split <;> rfl

@[simp] theorem State.removeBlock_mem (s : State) (id : Nat) : (s.removeBlock id).ms.mem = s.ms.mem := by
  unfold State.removeBlock
  split <;> simp

@[simp] theorem State.updTele_mem (s : State) (slot : Nat) (f : Tele → Tele) : (s.updTele slot f).ms.mem = s.ms.mem := rfl

@[simp] theorem State.discardSpec_mem (s : State) (n : Nat) (cause : SpecEnd) : (s.discardSpec n cause).ms.mem = s.ms.mem := by
  unfold State.discardSpec
  split <;> simp

@[simp] theorem State.dropFull_mem (s : State) (spec : Option Nat) : (s.dropFull spec).ms.mem = s.ms.mem := by
  unfold State.dropFull
  split <;> simp

@[simp] theorem MemSys.reown_mem (ms : MemSys) (spec : Option Nat) (old new : List Nat) : (ms.reown spec old new).mem = ms.mem := by
  unfold MemSys.reown
  simp

@[simp] theorem State.icFill_mem (s : State) (cl asid : Nat) (pc : BitVec 57) (pa : Nat) : (s.icFill cl asid pc pa).ms.mem = s.ms.mem := rfl

@[simp] theorem State.reached_mem (s : State) (asid : Nat) (va e : W64) (big : Bool) : (s.reached asid va e big).ms.mem = s.ms.mem := by
  unfold State.reached
  (repeat' split) <;> simp

@[simp] theorem State.keepTr_mem (s : State) (cl co asid : Nat) (va e : W64) (big : Bool) : (s.keepTr cl co asid va e big).ms.mem = s.ms.mem := by
  unfold State.keepTr
  simp

@[simp] theorem State.postFault_mem (s : State) (x : Posted) : (s.postFault x).ms.mem = s.ms.mem := by
  unfold State.postFault
  split <;> rfl

@[simp] theorem State.trapStop_mem (s : State) (q : Cur) : (s.trapStop q).ms.mem = s.ms.mem := rfl

@[simp] theorem State.assistIf_mem (s : State) (q : Cur) (b : Bool) : (s.assistIf q b).ms.mem = s.ms.mem := by
  unfold State.assistIf
  simp

@[simp] theorem State.pushHeld_mem (s : State) (q : Cur) (acts : List Held) : (s.pushHeld q acts).ms.mem = s.ms.mem := rfl

@[simp] theorem State.wakeDrains_mem (s : State) : (s.wakeDrains).ms.mem = s.ms.mem := rfl

@[simp] theorem State.acquireAct_mem (s : State) (cl : Nat) (a : AScope) (t : SScope) : (s.acquireAct cl a t).ms.mem = s.ms.mem := by
  unfold State.acquireAct
  split <;> rfl

@[simp] theorem State.sealBlk_mem (s : State) (id : Nat) : (s.sealBlk id).ms.mem = s.ms.mem := by
  unfold State.sealBlk
  split <;> simp

@[simp] theorem State.checkShare_mem (s : State) (id : Nat) : (s.checkShare id).ms.mem = s.ms.mem := by
  unfold State.checkShare
  split <;> simp

@[simp] theorem State.scratchStore_mem (s : State) (id off : Nat) (bytes : List Byte) : (s.scratchStore id off bytes).ms.mem = s.ms.mem := by
  unfold State.scratchStore
  split <;> rfl

@[simp] theorem State.crosses_mem (s : State) (q : Cur) (a : PairAct) : (s.crosses q a).ms.mem = s.ms.mem := by
  unfold State.crosses
  split <;> rfl

@[simp] theorem State.scratchPut_mem (s : State) (q : Cur) (off : Nat) (bytes : List Byte) : (s.scratchPut q off bytes).ms.mem = s.ms.mem := by
  unfold State.scratchPut
  simp

@[simp] theorem State.meetNow_mem (s : State) (id k : Nat) : (s.meetNow id k).ms.mem = s.ms.mem := by
  unfold State.meetNow
  split <;> simp

@[simp] theorem State.meetSlot_mem (s : State) (id k : Nat) : (s.meetSlot id k).ms.mem = s.ms.mem := by
  unfold State.meetSlot
  split <;> simp

@[simp] theorem State.letCross_mem (s : State) (id : Nat) : (s.letCross id).ms.mem = s.ms.mem := by
  unfold State.letCross
  split
  · rfl
  · dsimp only
    split
    · rfl
    · rw [State.wakeBlk_ms, State.foldl_mem]
      · rfl
      · intro t x
        split <;> simp

@[simp] theorem State.letCrossAll_mem (s : State) (cl : Nat) : (s.letCrossAll cl).ms.mem = s.ms.mem := by
  unfold State.letCrossAll
  simp

@[simp] theorem State.arrive_mem (s : State) (id gi k : Nat) : (s.arrive id gi k).ms.mem = s.ms.mem := by
  unfold State.arrive
  (repeat' split) <;> simp

@[simp] theorem State.arriveAny_mem (s : State) (id gi : Nat) : (s.arriveAny id gi).ms.mem = s.ms.mem := by
  unfold State.arriveAny
  simp

@[simp] theorem State.retireGroup_mem (s : State) (id gi : Nat) : (s.retireGroup id gi).ms.mem = s.ms.mem := by
  unfold State.retireGroup
  (repeat' split) <;> simp

@[simp] theorem State.retireLanes_mem (s : State) (id gi : Nat) (m : Mask) : (s.retireLanes id gi m).ms.mem = s.ms.mem := by
  unfold State.retireLanes
  (repeat' split) <;> simp

@[simp] theorem State.updObj_mem (s : State) (q : Cur) (off : Nat) (f : Obj → Obj) : (s.updObj q off f).ms.mem = s.ms.mem := by
  unfold State.updObj
  split <;> simp

@[simp] theorem State.updSlot_mem (s : State) (k : Nat) (f : SlotState → SlotState) : (s.updSlot k f).ms.mem = s.ms.mem := rfl

@[simp] theorem State.send_mem (s : State) (chip asid : Nat) (op : RemoteOp) (info : Msg → OutMsg) :
    (s.send chip asid op info).ms.mem = s.ms.mem := rfl

@[simp] theorem State.engineObj_mem (s : State) (id : Nat) (c : CopyOp) (f : Obj → Obj) : (s.engineObj id c f).ms.mem = s.ms.mem := by
  unfold State.engineObj
  simp

@[simp] theorem countCopy_mem (s : State) (c : CopyOp) (key : Nat) : (countCopy s c key).ms.mem = s.ms.mem := rfl

@[simp] theorem State.countDelivery_mem (s : State) (id : Nat) (c : CopyOp) (n : Nat) (err : Bool) :
    (s.countDelivery id c n err).ms.mem = s.ms.mem := by
  unfold State.countDelivery
  simp

@[simp] theorem State.engineScratch_mem (s : State) (id off : Nat) (bytes : List Byte) (bad : Bool) :
    (s.engineScratch id off bytes bad).ms.mem = s.ms.mem := by
  unfold State.engineScratch
  simp

@[simp] theorem State.askFar_mem (s : State) (id asid : Nat) (dest : Bool) (p : Nat × Nat) : (s.askFar id asid dest p).ms.mem = s.ms.mem := by
  unfold State.askFar
  simp

@[simp] theorem State.fetchFar_mem (s : State) (id asid : Nat) (l : List (Nat × Nat)) : (s.fetchFar id asid l).ms.mem = s.ms.mem := by
  unfold State.fetchFar
  simp

@[simp] theorem State.acquireHeld_mem (s : State) (h : Held) (cl : Nat) : (s.acquireHeld h cl).ms.mem = s.ms.mem := by
  unfold State.acquireHeld
  split <;> simp

@[simp] theorem State.gotSource_mem (s : State) (id key : Nat) (bytes : List Byte) (bad : Bool) :
    (s.gotSource id key bytes bad).ms.mem = s.ms.mem := by
  unfold State.gotSource
  split <;> rfl

@[simp] theorem State.gotAck_mem (s : State) (id : Nat) (chunk : Nat × Nat) (err : Bool) : (s.gotAck id chunk err).ms.mem = s.ms.mem := by
  unfold State.gotAck
  split <;> simp

@[simp] theorem State.issueCopy_mem (s : State) (q : Cur) (c : CopyOp) : (s.issueCopy q c).ms.mem = s.ms.mem := by
  unfold State.issueCopy
  simp

@[simp] theorem State.planIssued_mem (s : State) (q : Cur) (lane copy : Nat) : (s.planIssued q lane copy).ms.mem = s.ms.mem := rfl

@[simp] theorem State.issueCopies_mem (s : State) (q : Cur) (done : Mask) (l : List CopyOp) : (s.issueCopies q done l).1.ms.mem = s.ms.mem := by
  induction l generalizing s done with
  | nil => rfl
  | cons c l ih =>
    unfold State.issueCopies
    split
    · simp [ih]
    · rfl

@[simp] theorem State.renameLanes_mem (s : State) (id : Nat) (b : Block) (co : Nat) (f : Nat × Nat → Nat × Nat) :
    (s.renameLanes id b co f).ms.mem = s.ms.mem := rfl

@[simp] theorem State.regroupNow_mem (s : State) (id co : Nat) : (s.regroupNow id co).ms.mem = s.ms.mem := by
  unfold State.regroupNow
  split <;> simp

@[simp] theorem State.updCur_mem (s : State) (f : Group → Group) : (s.updCur f).ms.mem = s.ms.mem := by
  unfold State.updCur
  split <;> rfl

@[simp] theorem State.mapGroup_mem (s : State) (id gi : Nat) (f : BlkState → Group → BlkState × Group) : (s.mapGroup id gi f).ms.mem = s.ms.mem := by
  unfold State.mapGroup
  (repeat' split) <;> rfl

@[simp] theorem State.countSlip_mem (s : State) (id : Nat) (gi : Nat) (g : Group) (slot : Bool) : (s.countSlip id gi g slot).ms.mem = s.ms.mem := by
  unfold State.countSlip
  simp

@[simp] theorem State.icMissed_mem (s : State) (id : Nat) (b : Block) (gi : Nat) (g : Group) (slot : Bool) :
    (s.icMissed id b gi g slot).ms.mem = s.ms.mem := by
  unfold State.icMissed
  simp

@[simp] theorem State.readyCore_mem (s : State) (cl co : Nat) : (s.readyCore cl co).ms.mem = s.ms.mem := by
  unfold State.readyCore
  extract_lets s0
  have h0 : s0.ms.mem = s.ms.mem := by simp [s0]
  rw [State.foldl_mem, h0]
  intro t x
  dsimp only
  split
  · split <;> simp
  · simp

@[simp] theorem State.chargeSlot_mem (s : State) (cl : Nat) (c : Cand) : (s.chargeSlot cl c).ms.mem = s.ms.mem := by
  unfold State.chargeSlot
  (repeat' split) <;> rfl

@[simp] theorem State.launchIssued_mem (s : State) (l : Nat) : (s.launchIssued l).ms.mem = s.ms.mem := by
  unfold State.launchIssued
  split <;> rfl

@[simp] theorem State.takeSlot_mem (s : State) (cl co : Nat) : (s.takeSlot cl co).ms.mem = s.ms.mem := by
  unfold State.takeSlot
  dsimp only
  split <;> simp

@[simp] theorem State.tickWdog_mem (s : State) (cl : Nat) : (s.tickWdog cl).ms.mem = s.ms.mem := rfl

@[simp] theorem State.endTurn_mem (s : State) (cl : Nat) : (s.endTurn cl).ms.mem = s.ms.mem := by
  unfold State.endTurn
  simp

@[simp] theorem State.beginWord_mem (s : State) (q : Cur) : (s.beginWord q).ms.mem = s.ms.mem := by
  unfold State.beginWord
  split <;> rfl

@[simp] theorem State.endAhead_mem (s : State) (f : Focus) (clk : Nat) (w : W64) : (s.endAhead f clk w).ms.mem = s.ms.mem := by
  unfold State.endAhead
  split <;> simp

@[simp] theorem State.endWord_mem (s : State) (f : Focus) (cl : Nat) (issued : Bool) (w : W64) : (s.endWord f cl issued w).ms.mem = s.ms.mem := by
  unfold State.endWord
  simp

@[simp] theorem State.renewBudgets_mem (s : State) (cl : Nat) : (s.renewBudgets cl).ms.mem = s.ms.mem := by
  unfold State.renewBudgets
  dsimp only
  rw [State.foldl_mem, State.foldl_mem] <;> exact fun _ _ => rfl

@[simp] theorem State.putOn_mem (s : State) (b : Block) (id : Option Nat) (cls cl co : Nat) : (s.putOn b id cls cl co).ms.mem = s.ms.mem := by
  unfold State.putOn
  split <;> rfl

theorem coopAll_mem {cls : Nat} (l : List (Option Nat × Block)) {x y : State × List Nat} (e : coopAll cls l x = some y) :
    y.1.ms.mem = x.1.ms.mem := by
  induction l generalizing x with
  | nil => cases e; rfl
  | cons p l ih =>
    unfold coopAll at e
    split at e
    · cases e
    · split at e
      · cases e
      · rw [ih e, State.putOn_mem]

theorem State.coopFits_mem {s t : State} {l : Nat} {x : Launch} {specs : List Nat} (e : s.coopFits l x = some (t, specs)) :
    t.ms.mem = s.ms.mem := by
  unfold State.coopFits at e
  split at e
  · exact coopAll_mem _ e
  · cases e

@[simp] theorem State.countEnd_mem (s : State) (l n : Nat) : (s.countEnd l n).ms.mem = s.ms.mem := by
  unfold State.countEnd
  (repeat' split) <;> simp

@[simp] theorem State.acquireAll_mem (s : State) (a : AScope) : (s.acquireAll a).ms.mem = s.ms.mem := by
  unfold State.acquireAll
  simp

@[simp] theorem State.fePost_mem (s : State) (asid : Nat) (code : FaultCode) (va : W64) (who : Waiter) :
    (s.fePost asid code va who).ms.mem = s.ms.mem := by
  unfold State.fePost
  simp

@[simp] theorem State.noteIdle_mem (s before : State) (k : Nat) : (s.noteIdle before k).ms.mem = s.ms.mem := by
  unfold State.noteIdle
  split <;> rfl

@[simp] theorem State.dropPend_mem (s : State) (i : Nat) : (s.dropPend i).ms.mem = s.ms.mem := rfl

@[simp] theorem State.addPend_mem (s : State) (kind : PendKind) (k pos : Nat) (va : W64) (op : Nat) (v : W64) (rel : Option AScope) (wait : Bool) :
    (s.addPend kind k pos va op v rel wait).1.ms.mem = s.ms.mem := rfl

@[simp] theorem State.moveSpecs_mem (s : State) (k : Nat) (va : W64) : (s.moveSpecs k va).ms.mem = s.ms.mem := rfl

@[simp] theorem State.chargeClaim_mem (s : State) (asid : Nat) (charge : KMap Nat) : (s.chargeClaim asid charge).ms.mem = s.ms.mem := by
  unfold State.chargeClaim
  rw [State.foldl_mem]
  exact fun _ _ => rfl

@[simp] theorem State.prefetch_mem (s : State) (q : Cur) (tg : PrefTarget) (keep : Bool) (ea : W64) :
    (s.prefetch q tg keep ea).ms.mem = s.ms.mem := by
  unfold State.prefetch
  (repeat' split) <;> simp

@[simp] theorem waitcEnd_mem (s : State) (q : Cur) (c : Ctl) (o : AWaitc) (secs : List Nat) (vals : List (Nat × W64)) :
    (waitcEnd s q c o secs vals).ms.mem = s.ms.mem := by
  unfold waitcEnd
  simp

@[simp] theorem State.wakeWaitc_mem (s : State) (id gi : Nat) (f : WaitcRec → SWait) : (s.wakeWaitc id gi f).ms.mem = s.ms.mem := by
  unfold State.wakeWaitc
  simp

@[simp] theorem State.waitcEvent_mem (s : State) (blk grp : Nat) (test : Nat → WaitcRec → Bool) (f : WaitcRec → SWait) :
    (s.waitcEvent blk grp test f).ms.mem = s.ms.mem := by
  unfold State.waitcEvent
  (repeat' split) <;> simp

@[simp] theorem State.sendF4_mem (s : State) (chip asid : Nat) (op : RemoteOp) : (s.sendF4 chip asid op).ms.mem = s.ms.mem := by
  unfold State.sendF4
  split <;> rfl

@[simp] theorem State.flushF4_mem (s : State) : (s.flushF4).ms.mem = s.ms.mem := by
  unfold State.flushF4
  split <;> rfl

@[simp] theorem State.updJoin_mem (s : State) (dq gen : Nat) (f : Join → Join) : (s.updJoin dq gen f).ms.mem = s.ms.mem := rfl

@[simp] theorem State.abortAll_mem (s : State) (dq gen : Nat) : (s.abortAll dq gen).ms.mem = s.ms.mem := by
  unfold State.abortAll
  split <;> simp

@[simp] theorem State.chipJoined_mem (s : State) (dq gen chip : Nat) : (s.chipJoined dq gen chip).ms.mem = s.ms.mem := by
  unfold State.chipJoined
  split <;> simp

@[simp] theorem State.replicaFails_mem (s : State) (x : Queue) (pos : Nat) : (s.replicaFails x pos).ms.mem = s.ms.mem := by
  unfold State.replicaFails
  split <;> simp

@[simp] theorem State.setCont_mem (s : State) (asid idx : Nat) (e : Option ContEnt) (test : Nat → Bool) :
    (s.setCont asid idx e test).ms.mem = s.ms.mem := by
  unfold State.setCont
  split <;> rfl

@[simp] theorem State.orderPreempt_mem (s : State) (id : Nat) : (s.orderPreempt id).ms.mem = s.ms.mem := by
  unfold State.orderPreempt
  (repeat' split) <;> simp

@[simp] theorem State.cmdDone_mem (s : State) : (s.cmdDone).ms.mem = s.ms.mem := rfl

@[simp] theorem State.cmdError_mem (s : State) : (s.cmdError).ms.mem = s.ms.mem := rfl

@[simp] theorem State.invalidate_mem (s : State) (asid va size : Nat) : (s.invalidate asid va size).ms.mem = s.ms.mem := rfl

@[simp] theorem State.probeStream_mem (s : State) (key : Nat) : (s.probeStream key).ms.mem = s.ms.mem := by
  unfold State.probeStream
  simp

@[simp] theorem State.startDrain_mem (s : State) : (s.startDrain).ms.mem = s.ms.mem := by
  unfold State.startDrain
  simp

@[simp] theorem State.askDrain_mem (s : State) (why : DrainWhy) : (s.askDrain why).ms.mem = s.ms.mem := by
  unfold State.askDrain
  simp

@[simp] theorem State.setInStream_mem (s : State) (key : Nat) (x : InStream) : (s.setInStream key x).ms.mem = s.ms.mem := rfl

@[simp] theorem State.answer_mem (s : State) (m : Msg) (r : RemoteReply) : (s.answer m r).ms.mem = s.ms.mem := rfl

@[simp] theorem State.answerAgain_mem (s : State) (m : Msg) : (s.answerAgain m).ms.mem = s.ms.mem := by
  unfold State.answerAgain
  split <;> rfl

@[simp] theorem State.flitCame_mem (s : State) : (s.flitCame).ms.mem = s.ms.mem := rfl

@[simp] theorem State.gotFar_mem (s : State) (id gi chip pa : Nat) (bytes : List Byte) : (s.gotFar id gi chip pa bytes).ms.mem = s.ms.mem := by
  unfold State.gotFar
  split <;> simp

@[simp] theorem State.acquireMsg_mem (s : State) (id gi cl : Nat) (m : OutMsg) : (s.acquireMsg id gi cl m).ms.mem = s.ms.mem := by
  unfold State.acquireMsg
  split <;> simp

@[simp] theorem State.gotWaitc_mem (s : State) (id gi lane : Nat) (bytes : List Byte) : (s.gotWaitc id gi lane bytes).ms.mem = s.ms.mem := by
  unfold State.gotWaitc
  split <;> simp

@[simp] theorem State.setAckStream_mem (s : State) (key : Nat) (x : AckStream) : (s.setAckStream key x).ms.mem = s.ms.mem := rfl

@[simp] theorem State.stepDrain_mem (s : State) : (s.stepDrain).ms.mem = s.ms.mem := by
  unfold State.stepDrain
  split
  · rfl
  · extract_lets done _ s1 s2
    have h2 : s2.ms.mem = s.ms.mem := by
      unfold s2
      split
      · rfl
      · split <;> rfl
      · rfl
    split
    · rfl
    · simp [h2]

@[simp] theorem State.setPort_mem (s : State) (p : Nat) (x : Port) : (s.setPort p x).ms.mem = s.ms.mem := rfl

@[simp] theorem State.backTally_mem (s : State) (b : Block) (old new : BlkState) : (s.backTally b old new).ms.mem = s.ms.mem := by
  unfold State.backTally
  rw [State.foldl_mem]
  exact fun _ _ => rfl

@[simp] theorem State.rewindBlock_mem (s : State) (target id : Nat) : (s.rewindBlock target id).ms.mem = s.ms.mem := by
  unfold State.rewindBlock
  (repeat' split) <;> simp

@[simp] theorem State.finishAssist_mem (s : State) (id : Nat) : (s.finishAssist id).ms.mem = s.ms.mem := by
  unfold State.finishAssist
  simp

@[simp] theorem State.rewindCore_mem (s : State) (cl co t : Nat) : (s.rewindCore cl co t).ms.mem = s.ms.mem := by
  unfold State.rewindCore
  extract_lets ids c clk target s1 asids s2 c2 s3 gone
  have h1 : s1.ms.mem = s.ms.mem := by simp [s1]
  have h2 : s2.ms.mem = s1.ms.mem := State.foldl_mem _ (fun _ _ => by rfl) _ _
  split <;> exact h2.trans h1

@[simp] theorem State.occupancy_mem (s : State) (cl : Nat) : (s.occupancy cl).ms.mem = s.ms.mem := rfl

@[simp] theorem State.wear_mem (s : State) : (s.wear).ms.mem = s.ms.mem := rfl

@[simp] theorem State.beginBist_mem (s : State) (cl co : Nat) : (s.beginBist cl co).ms.mem = s.ms.mem := by
  unfold State.beginBist
  simp

@[simp] theorem State.joined_mem (s : State) (q : Cur) (k : Nat) (mma : Bool) (op : MOp) (ranges : List (Nat × Nat × Bool)) :
    (s.joined q k mma op ranges).ms.mem = s.ms.mem := rfl
/-! ### The invariant -/

/-- Memory at its home is in its canonical form (log 3). -/
def MemSys.Canonical (ms : MemSys) : Prop := Mem.wf ms.mem = true

/-- The memory of the part is in its canonical form. -/
def State.Canonical (s : State) : Prop := s.ms.Canonical

/-- A next state that a meaning answers has its memory in canonical form. -/
def Out.Canonical (r : Out) : Prop := ∀ t, r = .next t → t.Canonical

theorem MemSys.Canonical.of_mem {a b : MemSys} (h : a.Canonical) (e : b.mem = a.mem) : b.Canonical := by
  unfold MemSys.Canonical
  rwa [e]

@[simp] theorem MemSys.canonical_iff (ms : MemSys) : ms.Canonical ↔ Mem.wf ms.mem = true := Iff.rfl

@[simp] theorem State.canonical_iff (s : State) : s.Canonical ↔ Mem.wf s.ms.mem = true := Iff.rfl

theorem State.Canonical.of_mem {s t : State} (h : s.Canonical) (e : t.ms.mem = s.ms.mem) : t.Canonical :=
  MemSys.Canonical.of_mem h e

/-- A state that takes over a memory system. -/
theorem MemSys.Canonical.state {ms : MemSys} {t : State} (h : ms.Canonical) (e : t.ms.mem = ms.mem) : t.Canonical :=
  h.of_mem e

theorem MemSys.Canonical.foldl {α : Type} {f : MemSys → α → MemSys} {ms : MemSys} (h : ms.Canonical) (l : List α)
    (hf : ∀ m x, m.Canonical → (f m x).Canonical) : (l.foldl f ms).Canonical :=
  List.foldlRecOn l f h fun m hm x _ => hf m x hm

theorem State.Canonical.foldl {α : Type} {f : State → α → State} {s : State} (h : s.Canonical) (l : List α)
    (hf : ∀ t x, t.Canonical → (f t x).Canonical) : (l.foldl f s).Canonical :=
  List.foldlRecOn l f h fun t ht x _ => hf t x ht

theorem MemSys.Canonical.ite {c : Prop} [Decidable c] {a b : MemSys} (ha : a.Canonical) (hb : b.Canonical) :
    MemSys.Canonical (if c then a else b) := by
  split <;> assumption

theorem State.Canonical.ite {c : Prop} [Decidable c] {s t : State} (hs : s.Canonical) (ht : t.Canonical) :
    State.Canonical (if c then s else t) := by
  split <;> assumption

/-! ### The operations over the memory system -/

theorem MemSys.Canonical.homeWrite {ms : MemSys} (h : ms.Canonical) (pa : Nat) (l : List Byte) : (ms.homeWrite pa l).Canonical :=
  MemSys.wf_homeWrite ms pa l h

theorem MemSys.Canonical.homePut {ms : MemSys} (h : ms.Canonical) (pa : Nat) (l : List (Option Byte)) : (ms.homePut pa l).Canonical :=
  MemSys.wf_homePut ms pa l h

theorem MemSys.Canonical.zeroRange {ms : MemSys} (h : ms.Canonical) (r : Nat × Nat) : (ms.zeroRange r).Canonical :=
  MemSys.wf_zeroRange ms r h

theorem MemSys.Canonical.mergeDirty {ms : MemSys} (h : ms.Canonical) (sector : Nat) (x : Sector) : (ms.mergeDirty sector x).Canonical := by
  unfold MemSys.mergeDirty
  split
  · simpa using h.homePut _ _
  · exact h.homePut _ _

theorem MemSys.Canonical.writeBack {ms : MemSys} (h : ms.Canonical) (cl sector : Nat) : (ms.writeBack cl sector).Canonical := by
  unfold MemSys.writeBack
  split
  · exact h
  · split
    · exact h
    · simpa using h.mergeDirty _ _

theorem MemSys.Canonical.writeBackDrop {ms : MemSys} (h : ms.Canonical) (cl sector : Nat) : (ms.writeBackDrop cl sector).Canonical :=
  (h.writeBack cl sector).of_mem (by simp [MemSys.writeBackDrop])

theorem MemSys.Canonical.specRead {ms : MemSys} (h : ms.Canonical) (cl n pa k : Nat) : (ms.specRead cl n pa k).2.Canonical := by
  unfold MemSys.specRead
  split
  · exact h
  · exact (h.foldl _ fun m x hm => hm.writeBackDrop cl x).of_mem rfl

theorem MemSys.Canonical.releaseDev {ms : MemSys} (h : ms.Canonical) (cl : Nat) : (ms.releaseDev cl).Canonical :=
  h.foldl _ fun _ x hm => hm.writeBack cl x.1

theorem MemSys.Canonical.walkVia {ms : MemSys} (h : ms.Canonical) (cl die asid n : Nat) (va : W64) (fuel level table : Nat) :
    (MemSys.walkVia cl die asid n va fuel level table ms).1.Canonical := by
  induction fuel generalizing level table ms with
  | zero => exact h
  | succ fuel ih =>
    unfold MemSys.walkVia
    extract_lets at_ hit m e m1
    have hm : m.Canonical := by
      clear_value hit
      cases hit with
      | none => exact h.writeBackDrop _ _
      | some _ => exact h
    have hm1 : m1.Canonical := hm.of_mem (by unfold m1; split <;> rfl)
    split
    · exact hm
    · split
      · exact hm1
      · exact ih hm1 _ _

theorem MemSys.Canonical.tileBytes {ms : MemSys} (h : ms.Canonical) (st : BlkState) (cl : Nat) (spec : Option Nat)
    (see : W64 → Nat → List Byte → List Byte) (va : W64) (pages : KMap W64) (n : Nat) :
    (tileBytes st ms cl spec see va pages n).2.Canonical := by
  unfold Machine.tileBytes
  split
  · exact h
  · refine List.foldlRecOn (motive := fun r : List Byte × MemSys => r.2.Canonical) _ _ h fun r hr i _ => ?_
    cases spec with
    | some k => exact hr.specRead _ _ _ _
    | none => exact hr.writeBackDrop _ _

theorem MemSys.Canonical.runMOp {ms : MemSys} (h : ms.Canonical) (st : BlkState) (cl : Nat) (spec : Option Nat)
    (see : W64 → Nat → List Byte → List Byte) (ftz follower : Bool) (op : MOp) :
    (runMOp st ms cl spec see ftz follower op).2.1.Canonical := by
  cases op with
  | mmaF bf af row a b pair => cases pair <;> exact h
  | mmaQ af row a b pair scales => cases pair <;> exact h
  | mmaI bits row a b pair => cases pair <;> exact h
  | mzero row => exact h
  | mload fmt row va pages => exact h.tileBytes _ _ _ _ _ _ _
  | mstore fmt row va pages => exact h

theorem MemSys.Canonical.writeOut {ms : MemSys} (h : ms.Canonical) (st : BlkState) (spec : Option Nat) (o : W64 × KMap W64 × List Byte) :
    (writeOut st ms spec o).2.Canonical := by
  unfold Machine.writeOut
  split
  · exact h
  · refine h.foldl _ fun m i hm => ?_
    cases spec with
    | some k => exact hm.of_mem (by simp)
    | none => simpa using hm.homeWrite _ _

theorem MemSys.Canonical.drainOp {ms : MemSys} (h : ms.Canonical) (b : Block) (gi : Nat) (see : W64 → Nat → List Byte → List Byte) (st : BlkState)
    (r : List (W64 × KMap W64 × List Byte) × BitVec 64) (op : MOp) : (drainOp b gi see (st, ms, r) op).2.1.Canonical := by
  unfold Machine.drainOp
  split
  · exact h
  · exact h.runMOp _ _ _ _ _ _ _

theorem MemSys.Canonical.drainGroup {ms : MemSys} (h : ms.Canonical) (b : Block) (gi : Nat) (see : W64 → Nat → List Byte → List Byte)
    (l : List Batch) (st : BlkState) (n : Tally) : (drainGroup b gi see l (st, ms, n)).2.1.Canonical := by
  induction l generalizing st ms n with
  | nil => exact h
  | cons t l ih =>
    unfold Machine.drainGroup
    split
    · refine ih ?_ _ _
      refine List.foldlRecOn (motive := fun r : BlkState × MemSys => r.2.Canonical) _ _ ?_ fun r hr o _ => hr.writeOut _ _ _
      exact List.foldlRecOn (motive := fun r : BlkState × MemSys × List (W64 × KMap W64 × List Byte) × BitVec 64 => r.2.1.Canonical) _ _ h
        fun r hr o _ => hr.drainOp _ _ _ _ _ _
    · exact h

theorem MemSys.Canonical.readAt {ms : MemSys} (h : ms.Canonical) (cl : Nat) (spec : Option Nat) (p : Place) (ldb keep : Bool) (pa n : Nat) :
    (ms.readAt cl spec p ldb keep pa n).2.Canonical := by
  unfold MemSys.readAt
  split
  · exact h.specRead _ _ _ _
  · split
    · split
      · exact h.writeBackDrop _ _
      · exact h.of_mem (by dsimp only; split <;> rfl)
    all_goals exact h

theorem MemSys.Canonical.writeThrough {ms : MemSys} (h : ms.Canonical) (cl pa : Nat) (l : List Byte) : (ms.writeThrough cl pa l).Canonical := by
  have hm := (h.writeBack cl (pa / 64)).homeWrite pa l
  unfold MemSys.writeThrough
  dsimp only
  split
  · exact hm.of_mem (by simp)
  · exact hm

theorem MemSys.Canonical.writeAt {ms : MemSys} (h : ms.Canonical) (cl : Nat) (spec : Option Nat) (p : Place) (way : WriteWay) (pa : Nat)
    (l : List Byte) (who : Nat × Nat × Nat) : (ms.writeAt cl spec p way pa l who).Canonical := by
  unfold MemSys.writeAt
  split
  · exact h.of_mem (by simp)
  · split
    · split
      · exact h.writeThrough _ _ _
      · exact h.of_mem (by simp)
    · exact h.homeWrite _ _
    · exact h.homeWrite _ _
    · exact h

theorem MemSys.Canonical.atomRead {ms : MemSys} (h : ms.Canonical) (cl : Nat) (spec : Option Nat) (p : Place) (pa : Nat) (wide : Bool) :
    (ms.atomRead cl spec p pa wide).2.Canonical := by
  unfold MemSys.atomRead
  dsimp only
  split
  · exact h.specRead _ _ _ _
  · split
    · exact h.of_mem (by simp)
    · exact h.writeBackDrop _ _

theorem MemSys.Canonical.engineWrite {ms : MemSys} (h : ms.Canonical) (spec : Option Nat) (sector : Nat) (l : List (Option Byte)) (bad : Bool) :
    (ms.engineWrite spec sector l bad).Canonical := by
  unfold MemSys.engineWrite
  split
  · extract_lets m
    have hm : m.Canonical := by
      unfold m
      split
      · exact h.of_mem rfl
      · refine h.foldl _ fun m x hm => ?_
        split
        · exact hm.of_mem rfl
        · exact hm
    cases bad <;> exact hm.of_mem (by simp)
  · cases bad <;> simpa using h.homePut _ _

theorem MemSys.Canonical.own {ms : MemSys} (h : ms.Canonical) (cl : Nat) (spec : Option Nat) (l : List Nat) : (ms.own cl spec l).Canonical := by
  refine h.foldl _ fun m x hm => ?_
  dsimp only
  split
  · exact hm.of_mem (by simp)
  · exact (hm.writeBackDrop cl x).of_mem (by simp)

theorem MemSys.Canonical.convert {ms : MemSys} (h : ms.Canonical) (n : Nat) : (ms.convert n).Canonical := by
  unfold MemSys.convert
  extract_lets c m0 m m1
  have hm0 : m0.Canonical := h.of_mem rfl
  have hm : m.Canonical := hm0.foldl _ fun _ _ hx => hx.writeBackDrop _ _
  have hm1 : m1.Canonical := hm.foldl _ fun _ _ hx => (hx.homePut _ _).foldl _ fun _ _ hy => hy.writeBackDrop _ _
  exact hm1.foldl _ fun _ _ hx => hx.of_mem rfl

theorem MemSys.Canonical.cxlRun {ms : MemSys} (h : ms.Canonical) (op : CxlOp) (pa : Nat) : (cxlRun op ms pa).2.Canonical := by
  cases op with
  | read n => exact h
  | write bytes => exact h.homeWrite _ _
  | cas old new => exact h.homeWrite _ _
  | or v => exact h.homeWrite _ _
  | add v => exact h.homeWrite _ _

theorem MemSys.Canonical.fetchSources {ms : MemSys} (h : ms.Canonical) (chip : Nat) (spec : Option Nat)
    (packet : W64 → Option (Option (List Byte))) (l : List W64) (c : CopyOp) : (fetchSources chip spec packet l (c, ms)).2.Canonical := by
  induction l generalizing c ms with
  | nil => exact h
  | cons va l ih =>
    unfold Machine.fetchSources
    dsimp only
    split
    · exact ih h c
    · refine ih ?_ _
      split
      · exact h
      · split
        · exact h.specRead _ _ _ _
        · exact h

/-! ### Faults -/

theorem State.Canonical.record {s : State} (h : s.Canonical) (asid : Nat) (r : List W64) : (s.record asid r).Canonical := by
  unfold State.record
  split
  · exact h
  · dsimp only
    split
    · exact MemSys.Canonical.homeWrite h _ _
    · exact MemSys.Canonical.homeWrite h _ _

theorem State.Canonical.setQueue {s : State} (h : s.Canonical) (k : Nat) (x : Queue) : (s.setQueue k x).Canonical :=
  (MemSys.Canonical.homeWrite h _ _).homeWrite _ _

theorem State.Canonical.queueError {s : State} (h : s.Canonical) (k err pos : Nat) : (s.queueError k err pos).Canonical := by
  unfold State.queueError
  split
  · exact h
  · exact State.Canonical.setQueue (h.of_mem (by simp)) _ _

theorem State.Canonical.terminateLaunch {s : State} (h : s.Canonical) (l : Nat) : (s.terminateLaunch l).Canonical :=
  MemSys.Canonical.foldl h _ fun _ _ hm => hm.zeroRange _

theorem State.Canonical.deliverErrorAt {s : State} (h : s.Canonical) (q : Cur) (pc : BitVec 57) (f : FaultInfo) :
    (s.deliverErrorAt q pc f).Canonical := by
  unfold State.deliverErrorAt
  extract_lets _ s1 s2 s3
  have h1 : s1.Canonical := h.of_mem (by simp [s1])
  have h2 : s2.Canonical := h1.terminateLaunch _
  have h3 : s3.Canonical := h2.of_mem (by unfold s3; split <;> simp)
  split
  · simpa using h3.queueError _ _ _
  · exact h3

theorem State.Canonical.rollback {s : State} (h : s.Canonical) (id : Nat) (b : Block) (ck : BlkState) : (s.rollback id b ck).Canonical := by
  unfold State.rollback
  extract_lets d open_ written groups _ b1 clear ms s1 s2
  have hd : d.2.1.Canonical := by
    refine List.foldlRecOn (motive := fun x : BlkState × MemSys × List (Nat × Tally) => x.2.1.Canonical) _ _ h fun x hx gi _ => ?_
    split
    · exact hx.drainGroup _ _ _ _ _ _
    · exact hx
  have h1 : s1.Canonical := hd.state (by simp [s1, clear, ms])
  have h2 : s2.Canonical := h1.of_mem (by simp [s2, clear])
  exact h2.foldl _ fun _ _ ht => ht.of_mem (by simp)

theorem State.Canonical.consumePoison {s : State} (h : s.Canonical) (q : Cur) (pc : BitVec 57) (lane : Nat) (ea : W64) :
    (s.consumePoison q pc lane ea).Canonical := by
  unfold State.consumePoison
  extract_lets f
  split
  · split
    · exact (h.record _ _).rollback _ _ _
    · exact h.deliverErrorAt _ _ _
  · exact h.deliverErrorAt _ _ _

theorem State.Canonical.takeTrap {s : State} (h : s.Canonical) (q : Cur) (f : FaultInfo) : (s.takeTrap q f).Canonical := by
  unfold State.takeTrap
  refine .ite ?_ (h.deliverErrorAt _ _ _)
  simpa using h.record _ _

theorem State.Canonical.takeFault {s : State} (h : s.Canonical) (q : Cur) (f : FaultInfo) : (s.takeFault q f).Canonical := by
  unfold State.takeFault
  split
  · exact h.of_mem (by simp)
  · split
    · exact h.consumePoison _ _ _ _
    · exact h.takeTrap _ _
    · exact h.takeTrap _ _
    · split
      · dsimp only
        split <;> exact h.of_mem (by simp)
      · exact h.deliverErrorAt _ _ _

/-! ### Walks and reads -/

theorem State.Canonical.walkFor {s : State} (h : s.Canonical) (cl asid : Nat) (va : W64) : (s.walkFor cl asid va).1.Canonical := by
  unfold State.walkFor
  split
  · exact h
  · exact MemSys.Canonical.walkVia h _ _ _ _ _ _ _ _

theorem State.Canonical.fetchTr {s : State} (h : s.Canonical) (cl co asid : Nat) (va : W64) : (s.fetchTr cl co asid va).1.Canonical := by
  have hw := h.walkFor cl asid va
  unfold State.fetchTr
  split
  · exact h
  · split
    · simp_all
    · simp_all

theorem State.Canonical.releaseAct {s : State} (h : s.Canonical) (cl : Nat) (a : AScope) (t : SScope) : (s.releaseAct cl a t).Canonical := by
  unfold State.releaseAct
  split
  · exact MemSys.Canonical.releaseDev h _
  · exact h

theorem State.Canonical.releaseAll {s : State} (h : s.Canonical) (a : AScope) : (s.releaseAll a).Canonical :=
  h.foldl _ fun _ cl ht => ht.releaseAct cl a .sg

/-! ### Queues, packets and signals -/

theorem State.Canonical.setQ2 {s : State} (h : s.Canonical) (x : Queue) (w : W64) : (s.setQ2 x w).Canonical :=
  MemSys.Canonical.homeWrite h _ _

theorem State.Canonical.homeStore {s : State} (h : s.Canonical) (asid : Nat) (va : W64) (l : List Byte) : (s.homeStore asid va l).Canonical := by
  unfold State.homeStore
  split
  · exact MemSys.Canonical.homeWrite h _ _
  · exact h

theorem State.Canonical.kickQueue {s : State} (h : s.Canonical) (k : Nat) : (s.kickQueue k).Canonical := by
  unfold State.kickQueue
  split
  · exact h
  · split
    · exact h
    · exact h
    · exact (h.setQueue k _).of_mem rfl
    · exact h.setQueue _ _
    · exact h
    · exact h

theorem State.Canonical.reserve {s : State} (h : s.Canonical) {x : Queue} {child : Bool} {r : Nat × State} (e : s.reserve x child = some r) :
    r.2.Canonical := by
  simp only [State.reserve, Option.ite_none_right_eq_some, Option.some.injEq] at e
  obtain ⟨-, rfl⟩ := e
  exact h.setQ2 _ _

theorem State.Canonical.putPacket {s : State} (h : s.Canonical) (k : Nat) (x : Queue) (pos : Nat) (words : List W64) :
    (s.putPacket k x pos words).Canonical :=
  ((h.foldl _ fun _ _ ht => ht.homeStore _ _ _).homeStore _ _ _).kickQueue _

theorem State.Canonical.enqueue {s : State} (h : s.Canonical) (k : Nat) (x : Queue) (launch : Nat) (body : List W64) :
    (s.enqueue k x launch body).2.Canonical := by
  unfold State.enqueue
  extract_lets child
  split
  · exact h
  · next pos s1 e =>
    have h1 : s1.Canonical := h.reserve e
    refine State.Canonical.putPacket (h1.of_mem ?_) _ _ _ _
    simp only [State.ite_mem]
    split
    · split <;> rfl
    · rfl

/-! ### Computations that may stop -/

/-- What every value that a computation gives satisfies. -/
def Chkd.All {α : Type} (P : α → Prop) (r : Chkd α) : Prop := ∀ a, r = .ok a → P a

theorem Chkd.All.ok {α : Type} {P : α → Prop} {a : α} (h : P a) : Chkd.All P (.ok a) := by
  rintro _ ⟨⟩
  exact h

theorem Chkd.All.error {α : Type} {P : α → Prop} {x : Stop} : Chkd.All P (.error x) := nofun

theorem Chkd.All.bind {α β : Type} {Q : α → Prop} {P : β → Prop} {r : Chkd α} {f : α → Chkd β} (hr : Chkd.All Q r)
    (hf : ∀ a, Q a → Chkd.All P (f a)) : Chkd.All P (r >>= f) := by
  cases r with
  | ok a => exact hf a (hr a rfl)
  | error x => nofun

/-- A step whose value does not matter. -/
theorem Chkd.All.andThen {α β : Type} {P : β → Prop} {r : Chkd α} {f : α → Chkd β} (hf : ∀ a, Chkd.All P (f a)) : Chkd.All P (r >>= f) :=
  Chkd.All.bind (Q := fun _ => True) (fun _ _ => trivial) fun a _ => hf a

theorem Chkd.All.ite {α : Type} {P : α → Prop} {c : Prop} [Decidable c] {r t : Chkd α} (hr : Chkd.All P r) (ht : Chkd.All P t) :
    Chkd.All P (if c then r else t) := by
  split <;> assumption

theorem Chkd.All.foldlM {α β : Type} {P : β → Prop} {f : β → α → Chkd β} (l : List α) {b : β} (h : P b)
    (hf : ∀ b a, P b → Chkd.All P (f b a)) : Chkd.All P (l.foldlM f b) := by
  induction l generalizing b with
  | nil => exact .ok h
  | cons a l ih => exact (hf b a h).bind fun _ hc => ih hc

/-- A computation that gives a memory system beside its value keeps the canonical form. -/
abbrev Chkd.Canonical {α : Type} (r : Chkd (α × MemSys)) : Prop := Chkd.All (fun x => x.2.Canonical) r

theorem MemSys.Canonical.readVa {ms : MemSys} (h : ms.Canonical) (s : State) (q : Cur) (more : List Held) (k : Nat) (r : Req) (ldb : Bool) :
    Chkd.Canonical (s.readVa q more ms k r ldb) := by
  unfold State.readVa
  refine .andThen fun x => ?_
  dsimp only
  split
  · exact .ite .error (.ite .error (.ok h))
  · split
    · exact .ok h
    · exact .error
    · split
      · split
        · exact .ok h
        · exact .error
      · exact .ite .error (.ite .error (.ite .error (.ok (h.readAt _ _ _ _ _ _ _))))
  · exact .error

theorem MemSys.Canonical.readRecord {ms : MemSys} (h : ms.Canonical) (s : State) (q : Cur) (k : Nat) (ea : W64) :
    Chkd.Canonical (s.readRecord q ms k ea) :=
  .andThen fun _ => (h.readVa s q _ k _ _).bind fun _ hr => .ok hr

theorem MemSys.Canonical.planBox {ms : MemSys} (h : ms.Canonical) (s : State) (q : Cur) (o : CBox) (kind : CopyKind) (k : Nat) :
    Chkd.Canonical (s.planBox q o kind ms k) := by
  unfold State.planBox
  refine .andThen fun _ => .andThen fun _ => (h.readRecord s q k _).bind fun rc hrc => ?_
  refine .andThen fun _ => .andThen fun _ => .andThen fun _ => .andThen fun _ => ?_
  exact .ite (.andThen fun _ => .andThen fun _ => .ok hrc) (.andThen fun _ => .andThen fun _ => .ok hrc)

theorem MemSys.Canonical.planGlobal {ms : MemSys} (h : ms.Canonical) (s : State) (q : Cur) (o : CGlob) (k : Nat) :
    Chkd.Canonical (s.planGlobal q o ms k) :=
  .andThen fun _ => .andThen fun _ => .andThen fun _ => .andThen fun _ => .andThen fun _ => .andThen fun _ => .andThen fun _ =>
    .andThen fun _ => .andThen fun _ => .andThen fun _ => .ok h

theorem MemSys.Canonical.planAll {plan : MemSys → Nat → Chkd (CopyOp × MemSys)} (hp : ∀ m k, m.Canonical → Chkd.Canonical (plan m k))
    (l : List Nat) {ms : MemSys} (h : ms.Canonical) : Chkd.Canonical (planAll plan l ms) := by
  induction l generalizing ms with
  | nil => exact .ok h
  | cons k l ih => exact (hp ms k h).bind fun _ hx => (ih hx).bind fun _ hy => .ok hy

theorem MemSys.Canonical.planEnq {ms : MemSys} (h : ms.Canonical) (s : State) (q : Cur) (o : P2) (k : Nat) :
    Chkd.Canonical (s.planEnq q o ms k) := by
  refine .ite (.andThen fun _ => ?_) ?_
  all_goals
    refine .ite (.andThen fun _ => ?_) ?_
    all_goals
      refine .andThen fun _ => (h.readVa s q _ k _ _).bind fun x hx => (hx.readVa s q _ k _ _).bind fun y hy => ?_
      split
      · exact .error
      · exact .ok hy

theorem MemSys.Canonical.planEnqs {plan : MemSys → Nat → Chkd ((Nat × Nat × List W64) × MemSys)}
    (hp : ∀ m k, m.Canonical → Chkd.Canonical (plan m k)) (l : List Nat) {ms : MemSys} (h : ms.Canonical) :
    Chkd.Canonical (planEnqs plan l ms) := by
  induction l generalizing ms with
  | nil => exact .ok h
  | cons k l ih => exact (hp ms k h).bind fun _ hx => (ih hx).bind fun _ hy => .ok hy

theorem MemSys.Canonical.sweepLoad {ms : MemSys} (h : ms.Canonical) (s : State) (q : Cur) (k : Nat) (b : Box) (i : List Nat) :
    Chkd.Canonical (s.sweepLoad q ms k b i) :=
  (h.readVa s q _ k _ _).bind fun _ hr => .ok hr

theorem MemSys.Canonical.reduceLoop {ms : MemSys} (h : ms.Canonical) (s : State) (q : Cur) (k : Nat) (o : RedOp) (b : Box) (l : List (List Nat))
    (acc : Option FRes) : Chkd.Canonical (s.reduceLoop q k o b l acc ms) := by
  induction l generalizing acc ms with
  | nil => exact .ok h
  | cons i l ih => exact (h.sweepLoad s q k b i).bind fun _ hx => ih hx _

theorem State.Canonical.sweepRecords {s : State} (h : s.Canonical) (q : Cur) (k : Nat) (eas : List W64) :
    Chkd.Canonical (s.sweepRecords q k eas) := by
  unfold State.sweepRecords
  split
  · exact .ok h
  · exact .foldlM eas h fun x ea hx => (hx.readRecord s q k ea).bind fun _ hr => .andThen fun _ => .ok hr

theorem MemSys.Canonical.loadLane {ms : MemSys} (h : ms.Canonical) (s : State) (q : Cur) (m : LdMode) (k : Nat) (r : Req) (chk : Chk) :
    (s.loadLane q ms m k r chk).2.Canonical := by
  unfold State.loadLane
  split
  · exact h
  · split
    · exact h
    · exact h
    · dsimp only
      split
      · split <;> exact h
      · split
        · exact h
        · exact h.readAt _ _ _ _ _ _ _
  · exact h

theorem MemSys.Canonical.loadLanes {ms : MemSys} (h : ms.Canonical) (s : State) (q : Cur) (m : LdMode) (req : Nat → Req) (chk : Nat → Chk)
    (l : List Nat) : (s.loadLanes q m req chk l ms).2.Canonical := by
  induction l generalizing ms with
  | nil => exact h
  | cons k l ih => exact ih (h.loadLane s q m k (req k) (chk k))

/-! ### The shapes of meanings -/

theorem Out.Canonical.next {t : State} (h : t.Canonical) : Out.Canonical (.next t) := by
  rintro _ ⟨⟩
  exact h

theorem Out.Canonical.ite {c : Prop} [Decidable c] {r t : Out} (hr : Out.Canonical r) (ht : Out.Canonical t) :
    Out.Canonical (if c then r else t) := by
  split <;> assumption

theorem Out.Canonical.withCur {s : State} {k : Cur → Out} (hk : ∀ q, Out.Canonical (k q)) : Out.Canonical (withCur s k) := by
  unfold Machine.withCur
  split
  · exact hk _
  · nofun

theorem State.Canonical.afterDrain {s : State} (h : s.Canonical) (q : Cur) (need : Bool) (acks : Acks) {k : Out} (hk : Out.Canonical k) :
    Out.Canonical (afterDrain s q need acks k) :=
  .ite hk (.next (h.of_mem (by simp)))

theorem State.Canonical.stopWord {s : State} (h : s.Canonical) (q : Cur) (x : Stop) : (stopWord s q x).Canonical := by
  cases x with
  | fault f => exact h.takeFault _ _
  | abort => exact h.takeFault _ _
  | _ => exact h.of_mem (by simp [Machine.stopWord])

theorem State.Canonical.withAccess {s : State} (h : s.Canonical) (c : Ctl) (asc : Option AScope) (later : Bool) (ldb : Cur → Nat → Bool)
    (req : Cur → Nat → Req) {k : State → Cur → (Nat → Chk) → Out} (hk : ∀ t q chk, t.Canonical → Out.Canonical (k t q chk)) :
    Out.Canonical (withAccess s c asc later ldb req k) := by
  refine .withCur fun q => ?_
  extract_lets lanes chk now
  split
  · split
    · exact .next (h.of_mem (by simp))
    · exact .next (h.takeFault _ _)
    · exact .next h
    · exact .next h
  · refine .ite (.next (h.takeFault _ _)) ?_
    split
    · exact .next (h.takeFault _ _)
    · refine .ite (.next (h.of_mem (by simp))) (.ite (.next (h.of_mem (by simp))) ?_)
      exact .withCur fun q1 => hk _ q1 chk (.ite (h.of_mem (by simp)) h)

/-! ### Copies -/

theorem State.Canonical.deliverScratch {s : State} (h : s.Canonical) (id : Nat) (c : CopyOp) (b : Block) (off n : Nat) :
    (s.deliverScratch id c b off n).Canonical := by
  unfold State.deliverScratch
  extract_lets vas r bad bytes s1
  have hr : r.2.Canonical := MemSys.Canonical.fetchSources h _ _ _ _ _
  exact hr.state (by simp [s1])

theorem State.Canonical.deliverSector {s : State} (h : s.Canonical) (id : Nat) (c : CopyOp) (va : W64) (w : List (Option Byte)) (chunk : Nat × Nat)
    (spec : Option Nat) (bad : Bool) (asid : Nat) : (s.deliverSector id c va w chunk spec bad asid).Canonical := by
  unfold State.deliverSector
  dsimp only
  split
  · simpa using MemSys.Canonical.engineWrite h _ _ _ _
  · split
    · exact .ite (h.of_mem rfl) (h.of_mem (by simp))
    · exact h.of_mem rfl

theorem State.Canonical.deliverStore {s : State} (h : s.Canonical) (id : Nat) (c : CopyOp) (b : Block) (chunk : Nat × Nat) :
    (s.deliverStore id c b chunk).Canonical :=
  .ite (h.of_mem (by simp)) (.ite (h.of_mem (by simp)) (h.deliverSector _ _ _ _ _ _ _ _))

theorem State.Canonical.handoff {s : State} (h : s.Canonical) (x : Held) (cl id : Nat) : (s.handoff x cl id).Canonical := by
  unfold State.handoff
  split
  · next c b _ _ =>
    extract_lets mine m m1 s1
    have hm : m.Canonical := MemSys.Canonical.foldl h _ fun _ _ hm => hm.writeBack _ _
    have hm1 : m1.Canonical := hm.own _ _ _
    exact hm1.state (by simp [s1])
  · exact h

/-! ### Failures of the fabric -/

theorem State.Canonical.poisonHeld {s : State} (h : s.Canonical) (x : Held) : (s.poisonHeld x).Canonical := by
  unfold State.poisonHeld
  split
  · split
    · exact h.of_mem (by simp)
    · exact h.consumePoison _ _ _ _
  · exact h

theorem State.Canonical.unreachableAt {s : State} (h : s.Canonical) (id gi lane : Nat) (ea : W64) : (s.unreachableAt id gi lane ea).Canonical := by
  unfold State.unreachableAt
  split
  · exact h
  · split
    · exact h
    · exact h.deliverErrorAt _ _ _

theorem State.Canonical.descGot {s : State} (h : s.Canonical) (k chip pa : Nat) (r : Option (List Byte)) : (s.descGot k chip pa r).Canonical := by
  unfold State.descGot
  split
  · exact h
  · exact .ite (h.setQueue _ _) h

theorem State.Canonical.fabricFail {s : State} (h : s.Canonical) (m : OutMsg) : (s.fabricFail m).Canonical := by
  unfold State.fabricFail
  split
  · exact State.Canonical.unreachableAt (h.of_mem (by simp)) _ _ _ _
  · split
    · exact h.descGot _ _ _ _
    · exact h
    · split
      · exact State.Canonical.unreachableAt (h.of_mem (by simp)) _ _ _ _
      · exact State.Canonical.unreachableAt (h.of_mem (by simp)) _ _ _ _
      · exact h

theorem State.Canonical.sendHeld {s : State} (h : s.Canonical) (x : Held) (b : Block) (chip : Nat) (op : RemoteOp) (rets : List Ret) :
    (s.sendHeld x b chip op rets).Canonical :=
  .ite (h.fabricFail _) (h.of_mem (by simp))

/-! ### What leaves a core -/

theorem State.Canonical.atomc {s : State} (h : s.Canonical) (asid pa : Nat) (task ea : W64) (chip : Nat) (decc : Bool)
    (next : W64 → Option W64 × Bool) : (s.atomc asid pa task ea chip decc next).1.Canonical := by
  unfold State.atomc
  extract_lets old slice n s1
  have h1 : s1.Canonical := by
    unfold s1
    split
    · exact MemSys.Canonical.homeWrite h _ _
    · exact h
  split
  · exact h
  · split
    · exact h
    · split
      · exact h
      · exact .ite (h1.of_mem (by rfl)) h1

theorem State.Canonical.performLoad {s : State} (h : s.Canonical) (cl : Nat) (x : Held) (seen : List Held) (p : Place) (ldb keep : Bool)
    (pa n : Nat) (ret : Ret) : (s.performLoad cl x seen p ldb keep pa n ret).Canonical := by
  unfold State.performLoad
  split
  · exact h.of_mem (by simp)
  · refine .ite (h.poisonHeld _) ?_
    simpa using MemSys.Canonical.readAt h _ _ _ _ _ _ _

theorem State.Canonical.readAhead {s : State} (h : s.Canonical) (id gi : Nat) : (s.readAhead id gi).Canonical := by
  unfold State.readAhead
  split
  · exact h
  · refine .ite h ?_
    simpa using MemSys.Canonical.readAt h _ _ _ _ _ _ _

theorem State.Canonical.perform {s : State} (h : s.Canonical) (cl : Nat) (x : Held) : (s.perform cl x).Canonical := by
  unfold State.perform
  split
  · exact h
  · next b _ =>
    extract_lets s0 who
    have h0 : s0.Canonical := by
      unfold s0
      split
      · exact h.releaseAct _ _ _
      · exact h
    split
    · exact h0.sendHeld _ _ _ _ _
    · exact MemSys.Canonical.writeAt h0 _ _ _ _ _ _ _
    · split
      · exact h0.sendHeld _ _ _ _ _
      · exact h0.sendHeld _ _ _ _ _
    · refine .ite (h0.poisonHeld _) ?_
      extract_lets o n s1 s2
      have ho : o.2.Canonical := by
        unfold o
        split
        · exact h0
        · exact MemSys.Canonical.atomRead h0 _ _ _ _ _
      have h1 : s1.Canonical := ho.writeAt _ _ _ _ _ _ _
      have h2 : s2.Canonical := h1.of_mem (by unfold s2; split <;> simp)
      exact h2.of_mem (by simp)
    · exact h0.sendHeld _ _ _ _ _
    · refine .ite (h0.poisonHeld _) ?_
      simpa using h0.atomc _ _ _ _ _ _ _
    · exact h0.sendHeld _ _ _ _ _
    · refine .ite (h0.poisonHeld _) ?_
      simpa using h0.atomc _ _ _ _ _ _ _
    · exact h0
    · exact h0.sendHeld _ _ _ _ _
    · exact h0.sendHeld _ _ _ _ _
    · exact h0.handoff _ _ _
    · split
      · refine .ite ?_ ?_
        · split
          · exact h0.deliverErrorAt _ _ _
          · exact h0
        · simpa using h0.enqueue _ _ _ _
      · exact h0.of_mem (by simp)

theorem State.Canonical.leaveCore {s : State} (h : s.Canonical) (cl co : Nat) (x : Held) (rest : List Held) : (s.leaveCore cl co x rest).Canonical :=
  State.Canonical.perform (h.of_mem (by simp)) _ _

theorem State.Canonical.leaveMore {s : State} (h : s.Canonical) (cl co : Nat) (x : Held) (n : Nat) : (s.leaveMore cl co x n).Canonical := by
  induction n generalizing s with
  | zero => exact h
  | succ n ih =>
    unfold State.leaveMore
    dsimp only
    split
    · exact .ite (ih (h.leaveCore _ _ _ _)) h
    · exact h

/-! ### Packets and the front end -/

theorem State.Canonical.sigWrite {s : State} (h : s.Canonical) (asid : Nat) (leaf : W64) (pa op : Nat) (v : W64) :
    (s.sigWrite asid leaf pa op v).Canonical :=
  .ite (h.of_mem (by simp)) (MemSys.Canonical.homeWrite h _ _)

theorem State.Canonical.failPend {s : State} (h : s.Canonical) (i : Nat) (x : PendWrite) (y : Queue) (code : FaultCode) :
    (s.failPend i x y code).Canonical := by
  simpa [State.failPend] using (h.record _ _).queueError _ _ _

theorem State.Canonical.slotFails {s : State} (h : s.Canonical) (k : Nat) (x : Queue) : (s.slotFails k x).Canonical := by
  simpa [State.slotFails] using (h.record _ _).queueError _ _ _

theorem State.Canonical.runPend {s : State} (h : s.Canonical) (i : Nat) : (s.runPend i).Canonical := by
  unfold State.runPend
  split
  · exact h
  · split
    · exact h.of_mem (by simp)
    · refine .ite h ?_
      split
      · refine .ite h ?_
        extract_lets s1
        have h1 : s1.Canonical := by
          unfold s1
          split
          · exact h.releaseAll _
          · exact h
        simpa using h1.sigWrite _ _ _ _ _
      · exact h.of_mem (by simp)
      · simpa using h.failPend _ _ _ _

theorem State.Canonical.runDue {s : State} (h : s.Canonical) (i : Nat) : (s.runDue i).Canonical := by
  unfold State.runDue
  split
  · exact .ite (h.runPend _) h
  · exact h

theorem State.Canonical.decSignal {s : State} (h : s.Canonical) (k pos : Nat) (va : W64) : (s.decSignal k pos va).Canonical :=
  .ite h (State.Canonical.runPend (h.of_mem (by simp)) _)

theorem State.Canonical.dropLaunch {s : State} (h : s.Canonical) (l : Nat) (x : Launch) : (s.dropLaunch l x).Canonical := by
  unfold State.dropLaunch
  extract_lets s1 after
  have h1 : s1.Canonical := by
    refine .ite h ?_
    split
    · exact h.setQ2 _ _
    · exact h
  exact h1.of_mem rfl

theorem State.Canonical.rejectPacket {s : State} (h : s.Canonical) (k : Nat) (x : Queue) (err : Nat) (w : Option (List W64)) :
    (s.rejectPacket k x err w).Canonical := by
  unfold State.rejectPacket
  extract_lets pos s1 s2
  have h1 : s1.Canonical := by simpa [s1] using h.queueError _ _ _
  have h2 : s2.Canonical := by
    unfold s2
    split
    · exact h1
    · refine .ite ?_ h1
      split
      · exact h1.decSignal _ _ _
      · exact h1
  exact h2.of_mem (by simp)

theorem State.Canonical.feStop {s : State} (h : s.Canonical) (k : Nat) (x : Queue) (w : Option (List W64)) (e : FeStop) :
    (s.feStop k x w e).Canonical := by
  cases e with
  | reject err => exact h.rejectPacket _ _ _ _
  | park code va => simpa [State.feStop] using h.setQueue _ _
  | ask chip pa =>
    refine .ite (h.setQueue _ _) (.ite h ?_)
    simpa using h.setQueue _ _

theorem State.Canonical.advanceCons {s : State} (h : s.Canonical) (k : Nat) : (s.advanceCons k).Canonical := by
  unfold State.advanceCons
  split
  · exact h
  · simpa using (h.setQ2 _ _).setQueue _ _

theorem State.Canonical.startLaunch {s : State} (h : s.Canonical) (k : Nat) (x : Queue) (pos : Nat) (w desc : List W64) :
    (s.startLaunch k x pos w desc).Canonical :=
  State.Canonical.advanceCons (h.of_mem (by rfl)) _

theorem State.Canonical.claim {s : State} (h : s.Canonical) (k : Nat) (x : Queue) (pos : Nat) (w desc : List W64) (n : Nat) (sp : Spec) :
    (s.claim k x pos w desc n sp).Canonical := by
  unfold State.claim
  extract_lets s1 s2
  have h1 : s1.Canonical := h.of_mem (by simp [s1])
  have h2 : s2.Canonical := h1.of_mem (by simp [s2])
  split
  · exact State.Canonical.startLaunch (h1.of_mem (by simp)) _ _ _ _ _
  · exact State.Canonical.startLaunch (h1.of_mem (by simp)) _ _ _ _ _
  · extract_lets s3
    have h3 : s3.Canonical := MemSys.Canonical.convert h2 n
    simpa using h3.advanceCons k

theorem State.Canonical.consultPredictor {s : State} (h : s.Canonical) (slot k : Nat) (x : Queue) (pos : Nat) (w desc : List W64) :
    (s.consultPredictor slot k x pos w desc).Canonical := by
  unfold State.consultPredictor
  extract_lets hist s1
  have h1 : s1.Canonical := h.of_mem (by simp [s1])
  split
  · exact .ite (h1.claim _ _ _ _ _ _ _) (State.Canonical.startLaunch (h1.of_mem (by simp)) _ _ _ _ _)
  · exact State.Canonical.startLaunch (h1.of_mem (by simp)) _ _ _ _ _

theorem State.Canonical.sigMatch {s : State} (h : s.Canonical) (k : Nat) : (s.sigMatch k).Canonical :=
  .ite (State.Canonical.kickQueue (h.of_mem (by rfl)) _) h

theorem State.Canonical.fetchWord {s : State} (h : s.Canonical) (slot : Nat) (want : Nat → Bool) {act : Nat → Queue → Nat → List W64 → State}
    (ha : ∀ k x pos w, (act k x pos w).Canonical) : (fetchWord s slot want act).Canonical := by
  unfold Machine.fetchWord
  split
  · exact h
  · split
    · exact h.of_mem (by simp)
    · exact h.feStop _ _ _ _
    · refine .ite ?_ h
      simpa using ha _ _ _ _

theorem State.Canonical.putReplica {s t : State} (h : s.Canonical) {k : Nat} {x : Queue} {src gen : Nat} {w : List W64}
    (e : s.putReplica k x src gen w = some t) : t.Canonical := by
  unfold State.putReplica at e
  split at e
  · cases e
    exact h.slotFails _ _
  · obtain ⟨r, hr, rfl⟩ := Option.map_eq_some_iff.mp e
    exact ((h.reserve hr).setQueue _ _).putPacket _ _ _ _

theorem State.Canonical.dropReplica {s : State} (h : s.Canonical) (k pos : Nat) : (s.dropReplica k pos).Canonical := by
  unfold State.dropReplica
  split
  · exact h.setQueue _ _
  · exact h

theorem State.Canonical.gotStart {s : State} (h : s.Canonical) (dq gen : Nat) (src : Option Nat) : (s.gotStart dq gen src).Canonical := by
  unfold State.gotStart
  split
  · exact h
  · next k x _ =>
    split
    · refine .ite ?_ h
      have h1 := h.setQueue k { x with fetch := .none }
      exact (State.Canonical.startLaunch (h1.of_mem (by simp)) _ _ _ _ _).dropReplica _ _
    · exact h

theorem State.Canonical.noteAbort {s : State} (h : s.Canonical) (k : Nat) (x : Queue) (gen : Nat) (src : Option Nat) :
    (s.noteAbort k x gen src).Canonical :=
  h.setQueue _ _

theorem State.Canonical.gotAbort {s : State} (h : s.Canonical) (dq gen : Nat) (src : Option Nat) : (s.gotAbort dq gen src).Canonical := by
  unfold State.gotAbort
  split
  · exact h
  · split
    · exact .ite (((h.setQueue _ _).rejectPacket _ _ _ _).dropReplica _ _) (h.noteAbort _ _ _ _)
    · exact h.noteAbort _ _ _ _

/-! ### Computations of a lane (08 R232) -/

/-- From a state with memory in its canonical form, a computation ends in such a state, also where it stops. -/
def TM.Keeps {α : Type} (m : TM α) : Prop := ∀ s : State, s.Canonical → (m.run s).2.Canonical

theorem TM.Keeps.pure {α : Type} (a : α) : TM.Keeps (Pure.pure a) := fun _ h => h

theorem TM.Keeps.throw {α : Type} (x : Stop) : TM.Keeps (MonadExcept.throw x : TM α) := fun _ h => h

theorem TM.Keeps.fault {α : Type} (k : Nat) (code : FaultCode) (ea : W64) : TM.Keeps (tmFault k code ea : TM α) := .throw _

theorem TM.Keeps.bind {α β : Type} {m : TM α} {f : α → TM β} (hm : TM.Keeps m) (hf : ∀ a, TM.Keeps (f a)) : TM.Keeps (m >>= f) := by
  intro s h
  have h1 : ((m : StateM State (Except Stop α)) s).2.Canonical := hm s h
  change ((ExceptT.bindCont f ((m : StateM State (Except Stop α)) s).1) ((m : StateM State (Except Stop α)) s).2).2.Canonical
  cases ((m : StateM State (Except Stop α)) s).1 with
  | ok a => exact hf a _ h1
  | error x => exact h1

theorem TM.Keeps.ite {α : Type} {c : Prop} [Decidable c] {m n : TM α} (hm : TM.Keeps m) (hn : TM.Keeps n) : TM.Keeps (if c then m else n) := by
  split <;> assumption

/-- A step that a computation takes only under a condition. -/
theorem TM.Keeps.when {α : Type} {c : Prop} [Decidable c] {m : TM Unit} {f : Unit → TM α} (hm : TM.Keeps m) (hf : ∀ u, TM.Keeps (f u)) :
    TM.Keeps (if c then m >>= f else f ()) :=
  .ite (.bind hm hf) (hf ())

theorem TM.Keeps.modify {f : State → State} (hf : ∀ s, s.Canonical → (f s).Canonical) : TM.Keeps (modify f : TM Unit) := hf

/-- A computation that reads the state goes on from the state that it read. -/
theorem TM.Keeps.get {α : Type} {f : State → TM α} (hf : ∀ s, s.Canonical → ((f s).run s).2.Canonical) :
    TM.Keeps (MonadState.get >>= f) := hf

/-- A computation with a handler for its stops. What it did before it stopped stays in the state that the handler gets. -/
theorem TM.Keeps.tryCatch {α : Type} {m : TM α} {f : Stop → TM α} (hm : TM.Keeps m) (hf : ∀ x, TM.Keeps (f x)) :
    TM.Keeps (MonadExcept.tryCatch m f) := by
  intro s h
  have h1 : ((m : StateM State (Except Stop α)) s).2.Canonical := hm s h
  simp only [MonadExcept.tryCatch, tryCatchThe, MonadExceptOf.tryCatch, ExceptT.tryCatch, ExceptT.mk, ExceptT.run, Bind.bind, StateT.bind]
  cases e : (m : StateM State (Except Stop α)) s with
  | mk r t =>
    rw [e] at h1
    cases r with
    | ok a => exact h1
    | error x => exact hf x t h1

theorem TM.Keeps.cur : TM.Keeps tmCur := by
  refine .get fun s h => ?_
  split <;> exact h

theorem TM.Keeps.lane (k : Nat) : TM.Keeps (tmLane k) := .bind .cur fun _ => .pure _

theorem TM.Keeps.setLane (k : Nat) (f : Lane → Lane) : TM.Keeps (tmSetLane k f) :=
  .bind .cur fun _ => .modify fun _ h => h.of_mem (by simp)

theorem TM.Keeps.load (k : Nat) (a : W64) : TM.Keeps (tmLoad k a) := by
  refine .bind .cur fun q => .get fun s h => ?_
  have hr := MemSys.Canonical.readVa h s q [] k ⟨a, 8, false, true, false, .any, false, false⟩ true
  split
  · next l ms e => exact hr _ e
  · exact h

theorem TM.Keeps.store (k : Nat) (a v : W64) : TM.Keeps (tmStore k a v) := by
  refine .bind .cur fun q => .get fun s h => ?_
  dsimp only
  split
  · split
    · exact h
    · exact h.of_mem (State.scratchPut_mem _ _ _ _)
  · exact h.of_mem (by
      change (State.pushHeld _ _ _).ms.mem = _
      rw [State.pushHeld_mem]
      split <;> simp)
  · exact h
  · exact h

theorem TM.Keeps.lanes {α : Type} {f : Nat → TM α} (hf : ∀ k, TM.Keeps (f k)) (l : List Nat) : TM.Keeps (tmLanes f l) := by
  induction l with
  | nil => exact .pure _
  | cons k l ih => exact .bind (hf k) fun _ => .bind ih fun _ => .pure _

theorem TM.Keeps.ovProbe (k : Nat) (l : Lane) (a : W64) (n h : Nat) : TM.Keeps (ovProbe k l a n h) := by
  induction n generalizing h with
  | zero => exact .pure _
  | succ n ih => exact .bind (.load k _) fun _ => .ite (.pure _) (.ite (ih _) (.pure _))

theorem TM.Keeps.ovRoom (k : Nat) (l : Lane) (n h : Nat) : TM.Keeps (ovRoom k l n h) := by
  induction n generalizing h with
  | zero => exact .pure _
  | succ n ih => exact .bind (.load k _) fun _ => .ite (ih _) (.pure _)

theorem TM.Keeps.ovFrom (k : Nat) (a : W64) {probe : Lane → Nat → Nat → TM (Option W64)} (hp : ∀ l n h, TM.Keeps (probe l n h)) :
    TM.Keeps (ovFrom k a probe) :=
  .bind (.lane k) fun l => .ite (.fault k _ _) (hp l _ _)

theorem TM.Keeps.ovFind (k : Nat) (a : W64) : TM.Keeps (ovFind k a) := .ovFrom k a fun l => .ovProbe k l a

theorem TM.Keeps.ovPlace (k : Nat) (a : W64) : TM.Keeps (ovPlace k a) := .ovFrom k a fun l => .ovRoom k l

theorem TM.Keeps.ovWrite (k : Nat) (e a v : W64) : TM.Keeps (ovWrite k e a v) := .bind (.store k _ _) fun _ => .store k _ _

theorem TM.Keeps.trailPush (k : Nat) (w : W64) : TM.Keeps (trailPush k w) :=
  .bind (.lane k) fun _ => .when (.fault k _ _) fun _ => .bind (.store k _ _) fun _ => .setLane k _

theorem TM.Keeps.undoOne (k : Nat) : TM.Keeps (undoOne k) := by
  refine .bind (.lane k) fun _ => .bind (.load k _) fun _ => .ite (.bind (.load k _) fun _ => .bind (.store k _ _) ?_) (.bind (.store k _ _) ?_)
  all_goals exact fun _ => .setLane k _

theorem TM.Keeps.undoMany (k n : Nat) : TM.Keeps (undoMany k n) := by
  induction n with
  | zero => exact .pure _
  | succ n ih => exact .bind (.undoOne k) fun _ => ih

theorem TM.Keeps.undoTo (k : Nat) (a : W64) : TM.Keeps (undoTo k a) := .bind (.lane k) fun _ => .undoMany k _

theorem TM.Keeps.derefFrom (k : Nat) (ov : Bool) (n : Nat) (t : W64) : TM.Keeps (derefFrom k ov n t) := by
  induction n generalizing t with
  | zero => exact .fault k _ _
  | succ n ih =>
    refine .ite (.fault k _ _) (.ite (.bind (.load k _) fun c => ih c) (.ite (.bind (.load k _) fun c => .ite (ih c) (.ite ?_ (.pure _))) (.pure _)))
    refine .bind (.ovFind k _) fun e => ?_
    cases e with
    | some e => exact .bind (.load k _) fun v => ih v
    | none => exact .pure _

theorem TM.Keeps.deref (k : Nat) (t : W64) : TM.Keeps (tmDeref k t) := .derefFrom k true 65536 t

theorem TM.Keeps.bindVar (k : Nat) (x v : W64) : TM.Keeps (tmBind k x v) := by
  refine .ite (.bind (.trailPush k _) fun _ => .store k _ _) (.bind (.lane k) fun _ => .when (.fault k _ _) fun _ => .bind (.ovPlace k _) fun e => ?_)
  cases e with
  | none => exact .fault k _ _
  | some e => exact .bind (.trailPush k _) fun _ => .ovWrite k e _ _

theorem TM.Keeps.bindPair (k : Nat) (s t : W64) : TM.Keeps (tmBindPair k s t) :=
  .ite (.ite (.bindVar k _ _) (.bindVar k _ _)) (.ite (.bindVar k _ _) (.bindVar k _ _))

theorem TM.Keeps.term (k : Nat) (a : W64) : TM.Keeps (tmTerm k a) := .bind (.load k a) fun _ => .ite (.fault k _ _) (.pure _)

theorem TM.Keeps.getarg (k : Nat) (t : W64) (i : Nat) : TM.Keeps (tmGetarg k t i) :=
  .ite (.bind (.load k _) fun _ => .when (.fault k _ _) fun _ => .ite (.pure _) (.term k _)) (.ite (.term k _) (.fault k _ _))

theorem TM.Keeps.commit (q : Cur) (p : BitVec 3) (k : Nat) (x w : W64) : TM.Keeps (tmCommit q p k x w) := by
  refine .get fun s h => ?_
  dsimp only
  split
  · exact TM.Keeps.bind (.load k _) (fun _ => .ite (.bind (.store k _ _) fun _ => .pure _) (.pure _)) s h
  all_goals exact h

theorem TM.Keeps.pdlPush (k : Nat) (x y : W64) : TM.Keeps (pdlPush k x y) :=
  .bind (.lane k) fun _ => .when (.fault k _ _) fun _ => .bind (.store k _ _) fun _ => .bind (.store k _ _) fun _ => .setLane k _

theorem TM.Keeps.pushArgs (k : Nat) (p r : W64) (n : Nat) : TM.Keeps (pushArgs k p r n) := by
  induction n with
  | zero => exact .pure _
  | succ n ih => exact .bind (.load k _) fun _ => .bind (.load k _) fun _ => .bind (.pdlPush k _ _) fun _ => ih

theorem TM.Keeps.pdlForget (k : Nat) (a : W64) : TM.Keeps (pdlForget k a) :=
  .get fun s h => TM.Keeps.bind (.modify fun _ ht => ht.of_mem (by rfl)) (fun _ => .tryCatch (.store k a _) fun _ => .pure _) s h

theorem TM.Keeps.pdlForgetAll (k : Nat) (base : W64) (n : Nat) : TM.Keeps (pdlForgetAll k base n) := by
  induction n with
  | zero => exact .pure _
  | succ n ih => exact .bind (.pdlForget k _) fun _ => ih

theorem TM.Keeps.unifyEnd (k : Nat) : TM.Keeps (unifyEnd k) :=
  .bind (.lane k) fun _ => .bind (.pdlForgetAll k _ _) fun _ => .setLane k _

theorem TM.Keeps.unifyPair (k : Nat) : TM.Keeps (unifyPair k) := by
  refine .bind (.lane k) fun _ => .bind (.load k _) fun _ => .bind (.load k _) fun _ => .bind (.setLane k _) fun _ =>
    .bind (.deref k _) fun _ => .bind (.deref k _) fun _ => .ite (.pure _) (.ite ?var (.ite ?str (.ite ?lst (.pure _))))
  case var => exact .bind (.bindPair k _ _) fun _ => .pure _
  case str =>
    exact .bind (.load k _) fun _ => .bind (.load k _) fun _ => .when (.fault k _ _) fun _ =>
      .ite (.pure _) (.bind (.pushArgs k _ _ _) fun _ => .pure _)
  case lst =>
    exact .bind (.load k _) fun _ => .bind (.load k _) fun _ => .bind (.pdlPush k _ _) fun _ => .bind (.load k _) fun _ => .bind (.load k _) fun _ =>
      .bind (.pdlPush k _ _) fun _ => .pure _

theorem TM.Keeps.unifyStart (k : Nat) (x y : W64) : TM.Keeps (unifyStart k x y) :=
  .bind (.lane k) fun _ => .ite (.bind (.setLane k _) fun _ => .pdlPush k x y) (.pure _)

theorem TM.Keeps.reg (k : Nat) (r : Reg) (v : W64) : TM.Keeps (tmReg k r v) :=
  .bind (.setLane k _) fun _ => .modify fun _ h => h.of_mem (by simp)

theorem TM.Keeps.restoreRegs (k : Nat) (m w0 : W64) (n : Nat) : TM.Keeps (restoreRegs k m w0 n) := by
  induction n with
  | zero => exact .pure _
  | succ n ih => exact .bind ih fun _ => .bind (.load k _) fun _ => .reg k _ _

theorem TM.Keeps.failExhausted (k : Nat) : TM.Keeps (failExhausted k) :=
  .bind (.lane k) fun _ => .bind (.undoTo k _) fun _ => .bind (.setLane k _) fun _ => .bind .cur fun _ => .pure _

theorem TM.Keeps.failLoop (k n : Nat) : TM.Keeps (failLoop k n) := by
  induction n with
  | zero => exact .failExhausted k
  | succ n ih =>
    refine .bind (.lane k) fun _ => .ite (.failExhausted k) (.bind (.load k _) fun _ => .ite (.throw _) (.ite (.bind (.setLane k _) fun _ => ih) ?_))
    exact .when (.store k _ _) fun _ => .bind (.load k _) fun _ => .bind (.undoTo k _) fun _ => .bind (.setLane k _) fun _ =>
      .bind (.restoreRegs k _ _ 5) fun _ => .bind (.setLane k _) fun _ => .bind .cur fun _ =>
      .bind (.modify fun _ h => h.of_mem (by simp)) fun _ => .pure _

theorem TM.Keeps.fail (k : Nat) : TM.Keeps (tmFail k) := .bind (.lane k) fun _ => .when (.fault k _ _) fun _ => .failLoop k _

theorem TM.Keeps.ovCount (k : Nat) (l : Lane) (n : Nat) : TM.Keeps (ovCount k l n) := by
  induction n with
  | zero => exact .pure _
  | succ n ih => exact .bind (.load k _) fun _ => .bind ih fun _ => .pure _

theorem TM.Keeps.stores (k : Nat) (l : List W64) (a : W64) : TM.Keeps (tmStores k a l) := by
  induction l generalizing a with
  | nil => exact .pure _
  | cons w l ih => exact .bind (.store k a w) fun _ => ih _

theorem TM.Keeps.pushMarker (q : Cur) (r : Reg) (off : BitVec 18) (k : Nat) : TM.Keeps (tmTry q r off k) :=
  .bind (.lane k) fun _ => .when (.fault k _ _) fun _ => .when (.fault k _ _) fun _ => .bind (.ovCount k _ _) fun _ =>
    .bind (.stores k _ _) fun _ => .setLane k _

theorem TM.Keeps.popMarker (k : Nat) : TM.Keeps (popMarker k) :=
  .bind (.lane k) fun _ => .bind (.load k _) fun _ => .when (.throw _) fun _ => .when (.store k _ _) fun _ => .setLane k _

theorem TM.Keeps.popMarkers (k n : Nat) : TM.Keeps (popMarkers k n) := by
  induction n with
  | zero => exact .pure _
  | succ n ih => exact .bind (.popMarker k) fun _ => ih

theorem TM.Keeps.board (f : List BoardEnt → List BoardEnt) : TM.Keeps (tmBoard f) :=
  .bind .cur fun _ => .modify fun _ h => h.of_mem (by simp)

theorem TM.Keeps.offerLoop (q0 : Cur) (k n : Nat) (m : W64) (want : Nat) : TM.Keeps (offerLoop q0 k n m want) := by
  induction n generalizing m want with
  | zero => exact .pure _
  | succ n ih =>
    refine .bind .cur fun q => .ite (.pure _) (.bind (.load k _) fun _ => .ite (ih _ _) ?_)
    refine .bind (.store k _ _) fun _ => .bind (.board _) fun _ => .bind (.modify fun t h => ?_) fun _ => ih _ _
    exact .ite (h.of_mem (by simp)) h

theorem TM.Keeps.offer (q : Cur) (k want : Nat) : TM.Keeps (tmOffer q k want) :=
  .bind (.lane k) fun _ => .when (.fault k _ _) fun _ => .offerLoop q k _ _ _

theorem TM.Keeps.travelling (k : Nat) (d : Lane) (n : Nat) (a : W64) : TM.Keeps (travelling k d n a) := by
  induction n generalizing a with
  | zero => exact .pure _
  | succ n ih =>
    have htail : ∀ r : List (W64 × W64), TM.Keeps (Machine.travelling k d n (a + 8) >>= fun more => Pure.pure (r ++ more)) :=
      fun _ => .bind (ih _) fun _ => .pure _
    refine .bind (.load k a) fun _ => .ite (.bind (.load k _) fun _ => .bind (.load k _) fun _ => .when (.fault k _ _) fun _ => ?_) ?_
    all_goals exact .bind (.pure _) htail

theorem TM.Keeps.bindAll (k : Nat) (l : List (W64 × W64)) : TM.Keeps (bindAll k l) := by
  induction l with
  | nil => exact .pure _
  | cons b l ih => exact .bind (.bindVar k _ _) fun _ => ih

theorem TM.Keeps.adoptFrom (k : Nat) (d : Lane) (m w0 : W64) : TM.Keeps (adoptFrom k d m w0) :=
  .bind (.load k _) fun _ => .bind (.travelling k d _ _) fun _ => .when (.fault k _ _) fun _ => .bind (.lane k) fun _ => .when (.fault k _ _) fun _ =>
    .bind (.undoTo k _) fun _ => .bind (.setLane k _) fun _ => .bind (.bindAll k _) fun _ => .bind (.restoreRegs k m w0 5) fun _ =>
    .bind (.store k _ _) fun _ => .bind .cur fun _ => .bind (.modify fun _ h => h.of_mem (by simp)) fun _ => .pure _

theorem TM.Keeps.adoptLoop (gi k n : Nat) : TM.Keeps (adoptLoop gi k n) := by
  induction n with
  | zero => exact .pure _
  | succ n ih =>
    refine .bind .cur fun q => ?_
    split
    · exact .pure _
    · refine .bind (.board _) fun _ => .bind (.load k _) fun _ => .ite ih ?_
      split
      · exact ih
      · exact .bind (.adoptFrom k _ _ _) fun _ => .pure _

theorem TM.Keeps.loads (k n : Nat) (a : W64) : TM.Keeps (tmLoads k a n) := by
  induction n generalizing a with
  | zero => exact .pure _
  | succ n ih => exact .bind (.load k a) fun _ => .bind (ih _) fun _ => .pure _

theorem TM.Keeps.checkRegion (k align : Nat) (base limit : W64) : TM.Keeps (checkRegion k align base limit) :=
  .when (.fault k _ _) fun _ => .when (.fault k _ _) fun _ => .ite (.fault k _ _) (.pure _)

theorem TM.Keeps.swatch (k : Nat) (a : W64) : TM.Keeps (tmSwatch k a) :=
  .bind (.loads k 10 a) fun _ => .when (.fault k _ _) fun _ => .when (.fault k _ _) fun _ => .when (.fault k _ _) fun _ =>
    .bind (.checkRegion k 8 _ _) fun _ => .bind (.checkRegion k 64 _ _) fun _ => .bind (.checkRegion k 8 _ _) fun _ =>
    .bind (.checkRegion k 16 _ _) fun _ => .pure _

theorem TM.Keeps.farIdle (k : Nat) (l : List W64) : TM.Keeps (farIdle k l) := by
  induction l with
  | nil => exact .pure _
  | cons a l ih => exact .bind (.load k a) fun _ => .when (.throw _) fun _ => ih

theorem TM.Keeps.configure (gi size : Nat) (l : List (Nat × Swatch)) : TM.Keeps (tmConfigure gi size l) := by
  induction l with
  | nil => exact .pure _
  | cons p rest ih =>
    refine .bind .cur fun q => ?_
    have htail : ∀ u : Unit, TM.Keeps (do
        Machine.farIdle p.1 (farMarkers size (q.grp.lane p.1))
        tmStores p.1 p.2.ovl (List.replicate (2 * 2 ^ (p.2.w1.extractLsb' 0 4).toNat) 0)
        tmSetLane p.1 fun l => { l with sw := p.2, tt := p.2.trailB, ht := p.2.heapB, mt := p.2.markB, upd := 0, pdlHi := 0 }
        tmBoard fun b => b.filter fun e => !(e.grp.toNat == gi && e.lane.toNat == p.1)
        Machine.tmConfigure gi size rest) := fun _ =>
      .bind (.farIdle p.1 _) fun _ => .bind (.stores p.1 _ _) fun _ => .bind (.setLane p.1 _) fun _ => .bind (.board _) fun _ => ih
    dsimp only
    split
    · exact .bind (.throw _) htail
    · exact htail ()

theorem State.Canonical.finish {s : State} (h : s.Canonical) (q : Cur) (st : BlkState) (g : Group) : (s.finish q st g).Canonical :=
  h.of_mem (by simp)

/-! ### Words that write registers and predicates -/

theorem State.Canonical.laneWord {s : State} (h : s.Canonical) (c : Ctl) (d : Dst) (f : Group → Nat → W64 × Bool) :
    Out.Canonical (laneWord s c d f) :=
  .withCur fun _ => .next (h.of_mem (by simp))

theorem State.Canonical.laneWordVar {s : State} (h : s.Canonical) (c : Ctl) (d : Dst) (f : Group → Nat → W64 × Bool) :
    Out.Canonical (laneWordVar s c d f) :=
  .withCur fun _ => .next (h.of_mem (by simp))

theorem State.Canonical.floatWord {s : State} (h : s.Canonical) (c : Ctl) (d : Dst) (var : Bool) (f : Bool → Group → Nat → LaneRes) :
    Out.Canonical (floatWord s c d var f) :=
  .withCur fun _ => .next (h.of_mem (by simp))

theorem State.Canonical.predWord {s : State} (h : s.Canonical) (c : Ctl) (p : BitVec 3) (f : Group → Nat → Bool) :
    Out.Canonical (predWord s c p f) :=
  .withCur fun _ => .next (h.of_mem (by simp))

/-! ### Words over synchronization objects, barriers and atomics -/

theorem State.Canonical.objWord {s : State} (h : s.Canonical) (c : Ctl) (a : Opnd) {k : State → Cur → (Nat → Nat) → Out}
    (hk : ∀ t q off, t.Canonical → Out.Canonical (k t q off)) : Out.Canonical (objWord s c a k) := by
  unfold Machine.objWord
  exact h.withAccess c none false _ _ fun t q chk ht => hk t q _ ht

theorem State.Canonical.execBar {s : State} (h : s.Canonical) (c : Ctl) (slot : BitVec 3) : Out.Canonical (execBar c slot s) := by
  refine .withCur fun q => .ite (.next (h.of_mem (by simp))) (h.afterDrain q true _ ?_)
  dsimp only
  split
  · exact .next (h.of_mem (by simp))
  · exact .next (h.takeFault _ _)

theorem State.Canonical.execCoinit {s : State} (h : s.Canonical) (c : Ctl) (a b : Opnd) : Out.Canonical (execCoinit c a b s) := by
  refine h.objWord c a fun t q off ht => .ite (.next (ht.of_mem (by simp))) (.withCur fun _ => .next ?_)
  exact (ht.foldl _ fun _ _ h1 => h1.of_mem (by simp)).finish _ _ _

theorem State.Canonical.execArrive {s : State} (h : s.Canonical) (c : Ctl) (o : RD1) : Out.Canonical (execArrive c o s) := by
  refine h.objWord c o.a fun t q off ht => ht.afterDrain q _ _ ?_
  extract_lets r
  have hr : r.1.Canonical := List.foldlRecOn (motive := fun x : State × List (Nat × W64) => x.1.Canonical) _ _ ht fun x hx i _ => by
    split
    · exact hx.of_mem (by simp)
    · exact hx
  exact .withCur fun _ => .next (hr.finish _ _ _)

theorem State.Canonical.execExpect {s : State} (h : s.Canonical) (c : Ctl) (a b : Opnd) : Out.Canonical (execExpect c a b s) := by
  refine h.objWord c a fun t q off ht => .withCur fun _ => .next ?_
  exact (ht.foldl _ fun _ _ h1 => h1.of_mem (by simp)).finish _ _ _

theorem State.Canonical.execWaitph {s : State} (h : s.Canonical) (c : Ctl) (o : P2) : Out.Canonical (execWaitph c o s) := by
  refine h.objWord c o.a fun t q off ht => ?_
  dsimp only
  split
  · exact .next (ht.takeFault _ _)
  · exact .ite (.next (ht.of_mem (by simp))) (.next (ht.of_mem (by simp)))

theorem State.Canonical.atomWord {s : State} (h : s.Canonical) (c : Ctl) (fn : AFn) (d : Option Dst) (addr b cc : Src) (ord : Order)
    (asc : AScope) (ssc : SScope) (sz : Size) : Out.Canonical (atomWord s c fn d addr b cc ord asc ssc sz) := by
  unfold Machine.atomWord
  refine h.withAccess c _ false _ _ fun t q chk ht => ht.afterDrain q _ _ ?_
  extract_lets s0 s1 taint near acq rel acts
  have h0 : s0.Canonical := .ite (ht.releaseAct _ _ _) ht
  have h1 : s1.Canonical := .ite (h0.of_mem (by simp)) h0
  have hn : near.1.Canonical := List.foldlRecOn (motive := fun x : State × List (Nat × W64) => x.1.Canonical) _ _ h1 fun x hx k _ => by
    dsimp only
    split
    · split
      · exact hx.of_mem (by simp)
      · exact hx
    · exact hx
  exact .withCur fun _ => .next (.ite (hn.of_mem (by simp)) (hn.of_mem (by simp)))

theorem State.Canonical.atomcWord {s : State} (h : s.Canonical) (c : Ctl) (d : Dst) (addr : Src) (pp : PPair) (asc : AScope) (ssc : SScope)
    (taint : Group → Nat → Bool) (act : Group → Nat → Place → Nat → W64 → Ret → Act) :
    Out.Canonical (atomcWord s c d addr pp asc ssc taint act) := by
  unfold Machine.atomcWord
  refine h.withAccess c _ false _ _ fun t q chk ht => ?_
  exact .withCur fun _ => .next (ht.of_mem (by simp))

/-! ### Copies, branches, regrouping and ENQ -/

theorem State.Canonical.copyWord {s : State} (h : s.Canonical) (c : Ctl) {plan : Cur → MemSys → Nat → Chkd (CopyOp × MemSys)}
    (hp : ∀ q m k, m.Canonical → Chkd.Canonical (plan q m k)) : Out.Canonical (copyWord s c plan) := by
  refine .withCur fun q => ?_
  extract_lets done plans lanes
  split
  · exact .next (h.stopWord _ _)
  · next cs ms e =>
    have hms : ms.Canonical := MemSys.Canonical.planAll (hp q) lanes h _ e
    exact .withCur fun _ => .ite (.next (hms.state (by simp))) (.next (hms.state (by simp)))

theorem State.Canonical.route {s0 s : State} (h0 : s0.Canonical) (h : s.Canonical) (q0 : Cur) (next : Nat → Option (BitVec 57)) :
    (s0.route q0 s next).Canonical := by
  unfold State.route
  split
  · exact h
  · dsimp only
    split
    · exact h0.takeFault _ _
    · exact .ite (h.of_mem (by simp)) (h.of_mem (by simp))

theorem State.Canonical.flowWord {s : State} (h : s.Canonical) (c : Ctl) (f : Cur → Group) (next : Cur → Nat → Option (BitVec 57)) :
    Out.Canonical (flowWord s c f next) :=
  .withCur fun q => .next (h.route (h.of_mem (by simp)) q _)

theorem State.Canonical.jumpWord {s : State} (h : s.Canonical) (c : Ctl) (a : Opnd) : Out.Canonical (jumpWord s c a) := by
  refine .withCur fun q => ?_
  split
  · exact .next (h.takeFault _ _)
  · exact h.flowWord c _ _

theorem State.Canonical.execRegroup {s : State} (h : s.Canonical) (c : Ctl) (a : Opnd) : Out.Canonical (execRegroup c a s) := by
  refine .withCur fun q => ?_
  dsimp only
  split
  · exact .next (h.of_mem (by simp))
  · exact .next (State.Canonical.of_mem (h.route (h.of_mem (by simp)) q _) (State.regroupNow_mem _ _ _))

theorem State.Canonical.execEnq {s : State} (h : s.Canonical) (c : Ctl) (o : P2) : Out.Canonical (execEnq c o s) := by
  refine .withCur fun q => .ite (.next (h.of_mem (by simp))) (.ite (.next (h.stopWord _ _)) ?_)
  split
  · exact .next (h.stopWord _ _)
  · next l ms e =>
    have hms : ms.Canonical := MemSys.Canonical.planEnqs (fun _ _ hm => hm.planEnq s q o _) _ h _ e
    exact .withCur fun _ => .next (hms.state (by simp))

/-! ### Words over memory -/

theorem State.Canonical.loadWord {s : State} (h : s.Canonical) (c : Ctl) (d : Dst) (sz : Size) (ea : Group → Nat → W64) (addr : Src)
    (ldb keep taintAll : Bool) (acq : Option (AScope × SScope)) : Out.Canonical (loadWord s c d sz ea addr ldb keep taintAll acq) := by
  unfold Machine.loadWord
  refine h.withAccess c _ _ _ _ fun t q chk ht => ?_
  extract_lets lanes span taint rets x g late acts far g1 s1 s2
  refine .ite (.next (ht.takeFault _ _)) ?_
  have hx : x.2.Canonical := MemSys.Canonical.loadLanes ht _ _ _ _ _ _
  have h2 : s2.Canonical := hx.state (by simp [s2, s1])
  split
  · exact .next (.ite h2 (h2.of_mem (by simp)))
  · exact .next h2

theorem State.Canonical.storeWord {s : State} (h : s.Canonical) (c : Ctl) (size : Nat) (ea : Group → Nat → W64)
    (data : Group → Nat → List Byte) (way : WriteWay) (rel : Option (AScope × SScope)) :
    Out.Canonical (storeWord s c size ea data way rel) := by
  unfold Machine.storeWord
  refine h.withAccess c _ _ _ _ fun t q chk ht => ht.afterDrain q _ _ ?_
  extract_lets s0 s1 acts
  have h0 : s0.Canonical := by
    unfold s0
    split
    · exact .ite (State.Canonical.of_mem (.ite (ht.releaseAct _ _ _) ht) (State.sealBlk_mem _ _)) (.ite (ht.releaseAct _ _ _) ht)
    · exact ht
  have h1 : s1.Canonical := h0.foldl _ fun x k hx => by
    split
    · exact hx.of_mem (by simp)
    · exact hx
  exact .withCur fun _ => .next (h1.of_mem (by simp))

theorem State.Canonical.sectorWord {s : State} (h : s.Canonical) (c : Ctl) (o : MSec) {f : MemSys → Nat → Nat → MemSys}
    (hf : ∀ m cl x, m.Canonical → (f m cl x).Canonical) : Out.Canonical (sectorWord s c o f) := by
  unfold Machine.sectorWord
  refine h.withAccess c _ _ _ _ fun t q chk ht => ht.afterDrain q _ _ (.next (State.Canonical.finish (?_ : MemSys.Canonical _) _ _ _))
  refine MemSys.Canonical.foldl ht _ fun m k hm => ?_
  split
  · exact hf _ _ _ hm
  · exact hm

theorem State.Canonical.execFence {s : State} (h : s.Canonical) (c : Ctl) (o : OFence) : Out.Canonical (execFence c o s) := by
  refine .withCur fun q => .ite (.next (h.finish _ _ _)) (.ite (.next (h.takeFault _ _)) (h.afterDrain q _ _ ?_))
  extract_lets s1 s2 s3
  have h1 : s1.Canonical := .ite (h.releaseAct _ _ _) h
  have h3 : s3.Canonical := h1.of_mem (by simp [s3, s2])
  exact .withCur fun _ => .next (h3.finish _ _ _)

theorem State.Canonical.execWaitc {s : State} (h : s.Canonical) (c : Ctl) (o : AWaitc) : Out.Canonical (execWaitc c o s) := by
  unfold Machine.execWaitc
  refine h.withAccess c _ _ _ _ fun t q chk ht => ?_
  extract_lets lanes clk secs w leave mode x near far s1 vals b ok m free _ s2 acts
  have hx : x.2.Canonical := MemSys.Canonical.loadLanes ht _ _ _ _ _ _
  have h1 : s1.Canonical := hx
  have h2 : s2.Canonical := State.Canonical.ite h1 h1
  refine .ite (.next (ht.of_mem (by simp))) (.ite (.next (ht.takeFault _ _)) (.ite (.ite (.next ?_) (.next ?_)) (.next ?_)))
  · exact h1.of_mem (by simp)
  · exact h2.of_mem (by simp)
  · exact h1.of_mem (by simp)

theorem State.Canonical.execPref {s : State} (h : s.Canonical) (c : Ctl) (o : MPref) : Out.Canonical (execPref c o s) :=
  .withCur fun _ => .next ((h.foldl _ fun _ _ ht => ht.of_mem (by simp)).finish _ _ _)

/-! ### Traps and special registers -/

theorem State.Canonical.onlyAdvance {s : State} (h : s.Canonical) : Out.Canonical (onlyAdvance s) :=
  .withCur fun _ => .next (h.finish _ _ _)

theorem State.Canonical.groupWord {s : State} (h : s.Canonical) (c : Ctl) {k : Cur → Nat → Out} (hk : ∀ q i, Out.Canonical (k q i)) :
    Out.Canonical (groupWord s c k) := by
  refine .withCur fun q => ?_
  split
  · exact .next (h.finish _ _ _)
  · exact hk _ _

theorem State.Canonical.groupChecked {s : State} (h : s.Canonical) (c : Ctl) {k : Cur → Nat → Chkd State}
    (hk : ∀ q i, Chkd.All State.Canonical (k q i)) : Out.Canonical (groupChecked s c k) := by
  refine h.groupWord c fun q i => ?_
  split
  · next s1 e => exact .next (hk q i s1 e)
  · exact .next (h.stopWord _ _)

theorem State.Canonical.groupWrite {s : State} (h : s.Canonical) (c : Ctl) (a : Opnd) {f : Cur → Nat → W64 → Out}
    (hf : ∀ q k v, Out.Canonical (f q k v)) : Out.Canonical (groupWrite s c a f) :=
  h.groupWord c fun q k => hf q k _

theorem State.Canonical.trapWord {s : State} (h : s.Canonical) (c : Ctl) (code : FaultCode) (arg : BitVec 18) :
    Out.Canonical (trapWord s c code arg) :=
  h.groupWord c fun _ _ => .next (h.takeFault _ _)

theorem State.Canonical.illegalWord {s : State} (h : s.Canonical) : Out.Canonical (illegalWord s) :=
  .withCur fun _ => .next (h.takeFault _ _)

theorem State.Canonical.execWrsrDsp {s : State} (h : s.Canonical) (c : Ctl) (a : Opnd) : Out.Canonical (execWrsrDsp c a s) :=
  h.groupWrite c a fun _ _ _ => .ite (.next (h.takeFault _ _)) (.ite (.next (h.takeFault _ _)) (.next (h.finish _ _ _)))

/-! ### Words over tiles -/

theorem State.Canonical.joined {s : State} (h : s.Canonical) (q : Cur) (k : Nat) (mma : Bool) (op : MOp) (ranges : List (Nat × Nat × Bool)) :
    (s.joined q k mma op ranges).Canonical :=
  h.finish _ _ _

theorem State.Canonical.mmaWord {s : State} (h : s.Canonical) (c : Ctl) (tile : BitVec 4) (a b : Src) (planes na : Nat) (pair : Bool)
    (op : Cur → Nat → Nat → Nat → MOp) : Out.Canonical (mmaWord s c tile a b planes na pair op) :=
  h.groupChecked c fun _ _ => .andThen fun _ => .andThen fun _ => .andThen fun _ => .ok (h.joined _ _ _ _ _)

theorem State.Canonical.execMzero {s : State} (h : s.Canonical) (c : Ctl) (tile : BitVec 4) : Out.Canonical (execMzero c tile s) :=
  h.groupChecked c fun _ _ => .andThen fun _ => .ok (h.joined _ _ _ _ _)

theorem State.Canonical.tileWord {s : State} (h : s.Canonical) (c : Ctl) (o : XTile) (write : Bool) : Out.Canonical (tileWord s c o write) := by
  refine h.groupChecked c fun q k => .andThen fun row => .andThen fun _ => .ite ?scratch ?global
  case scratch => exact .andThen fun _ => .ite .error (.ok (h.joined _ _ _ _ _))
  case global =>
    refine .andThen fun pages => .ite (.ite .error (.ok ?_)) (.ite .error (.ok (h.joined _ _ _ _ _)))
    have hms : (s.ms.own q.blk.cl q.blk.spec (tileSectors (q.grp.opnd Rd.raw o.a k) pages (6144 * ((tileFmt o.fmt).width / 8)))).Canonical :=
      MemSys.Canonical.own h _ _ _
    exact hms.state (by simp)

theorem State.Canonical.execMwait {s : State} (h : s.Canonical) (c : Ctl) (a : Opnd) : Out.Canonical (execMwait c a s) :=
  h.groupChecked c fun _ _ => .andThen fun _ => .ok (.ite (h.of_mem (by simp)) (h.finish _ _ _))

theorem State.Canonical.execAcwin {s : State} (h : s.Canonical) (c : Ctl) (o : XAcwin) : Out.Canonical (execAcwin c o s) :=
  h.groupChecked c fun _ _ => .ite (.ok (h.of_mem (by simp))) (.andThen fun _ => .ite (.ok (h.finish _ _ _)) (.ok (h.finish _ _ _)))

/-! ### Sweeps -/

theorem State.Canonical.sweepStore {s : State} (h : s.Canonical) (q : Cur) (k : Nat) (b : Box) (i : List Nat) (y : FRes) :
    Chkd.All (fun x => x.1.Canonical) (s.sweepStore q k b i y) := by
  refine .andThen fun x => ?_
  dsimp only
  split
  · exact .ite .error (.ok (h.of_mem (by simp)))
  · exact .ite .error (.ok (.ite (h.of_mem (by simp)) h))
  · exact .error

theorem State.Canonical.sweepStep {s : State} (h : s.Canonical) (q : Cur) (k : Nat) (recs : List (List W64)) (d : Box)
    {value : List Nat → MemSys → Chkd (FRes × MemSys)} (hv : ∀ i m, m.Canonical → Chkd.Canonical (value i m)) :
    (sweepStep s q k recs d value).Canonical := by
  unfold Machine.sweepStep
  extract_lets _ g0 q0 _ i r
  split
  · exact h.finish _ _ _
  · have hr : Chkd.All (fun x => x.2.1.Canonical) r := (hv i s.ms h).bind fun v hv =>
      (State.Canonical.sweepStore (s := { s with ms := v.2 }) hv q k d i v.1).bind fun w hw => .ok hw
    clear_value r
    obtain x | ⟨y, s1, acts⟩ := r
    · exact h.stopWord _ _
    · have h1 : s1.Canonical := hr _ rfl
      dsimp only
      split
      · exact h1
      · exact h1.of_mem (by simp)

theorem State.Canonical.execTsweep {s : State} (h : s.Canonical) (c : Ctl) (o : XSweep) : Out.Canonical (execTsweep c o s) := by
  refine h.groupWord c fun q k => ?_
  extract_lets e eas r
  have hr : Chkd.Canonical r := (h.sweepRecords q k eas).bind fun _ hx => .andThen fun _ => .ok hx
  clear_value r
  obtain x | ⟨recs, ms⟩ := r
  · exact .next (h.stopWord _ _)
  · have hms : ms.Canonical := hr _ rfl
    refine .next (State.Canonical.sweepStep (s := { s with ms := ms }) hms q k recs _ fun i m hm => ?_)
    exact (hm.sweepLoad _ q k _ i).bind fun a ha => .ite ((ha.sweepLoad _ q k _ i).bind fun b hb => .ok hb) (.ok ha)

theorem State.Canonical.execTsred {s : State} (h : s.Canonical) (c : Ctl) (o : XRed) : Out.Canonical (execTsred c o s) := by
  refine h.groupWord c fun q k => ?_
  extract_lets e m r
  have hr : Chkd.Canonical r := (h.sweepRecords q k _).bind fun _ hx => .andThen fun _ => .ok hx
  clear_value r
  obtain x | ⟨recs, ms⟩ := r
  · exact .next (h.stopWord _ _)
  · have hms : ms.Canonical := hr _ rfl
    exact .next (State.Canonical.sweepStep (s := { s with ms := ms }) hms q k recs _ fun i m hm => hm.reduceLoop _ q k _ _ _ _)

/-! ### TERM words -/

theorem State.Canonical.termWord {s : State} (h : s.Canonical) {α : Type} (c : Ctl) {f : Cur → Nat → TM α} (hf : ∀ q k, TM.Keeps (f q k))
    {k : State → Cur → List (Nat × α) → State} (hk : ∀ t q l, t.Canonical → (k t q l).Canonical) : Out.Canonical (termWord s c f k) := by
  refine .withCur fun q => ?_
  have hr := TM.Keeps.lanes (hf q) (q.active c) s h
  split
  · next l s1 e =>
    rw [e] at hr
    exact .withCur fun q1 => .next (hk s1 q1 l hr)
  · exact .next (h.stopWord _ _)

theorem State.Canonical.termRelease {s : State} (h : s.Canonical) (q : Cur) (c : Ctl) {k : Out} (hk : Out.Canonical k) :
    Out.Canonical (termRelease s q c k) :=
  .ite (h.afterDrain q _ _ hk) hk

theorem State.Canonical.searchWord {s : State} (h : s.Canonical) (c : Ctl) {f : Cur → Nat → TM Unit} (hf : ∀ q k, TM.Keeps (f q k)) :
    Out.Canonical (searchWord s c f) :=
  h.termWord c hf fun _ _ _ ht => ht.finish _ _ _

theorem State.Canonical.termEnd {s : State} (h : s.Canonical) (d : Dst) (q : Cur) (l : List (Nat × (W64 × Bool))) :
    (termEnd d s q l).Canonical :=
  h.finish _ _ _

theorem State.Canonical.execTag {s : State} (h : s.Canonical) (c : Ctl) (o : RD1) : Out.Canonical (execTag c o s) :=
  h.termWord c (fun _ k => .when (.fault k _ _) fun _ => .pure _) fun _ _ _ ht => ht.termEnd _ _ _

theorem State.Canonical.execMkt {s : State} (h : s.Canonical) (c : Ctl) (o : RD2) : Out.Canonical (execMkt c o s) :=
  h.termWord c (fun _ k => .when (.fault k _ _) fun _ => .pure _) fun _ _ _ ht => ht.termEnd _ _ _

theorem State.Canonical.execDeref {s : State} (h : s.Canonical) (c : Ctl) (o : RD1) : Out.Canonical (execDeref c o s) :=
  h.termWord c (fun _ k => .bind (.deref k _) fun _ => .pure _) fun _ _ _ ht => ht.termEnd _ _ _

theorem State.Canonical.execHalloc {s : State} (h : s.Canonical) (c : Ctl) (o : RD1) : Out.Canonical (execHalloc c o s) :=
  h.termWord c (fun _ k => .bind (.lane k) fun _ => .when (.fault k _ _) fun _ => .bind (.setLane k _) fun _ => .pure _)
    fun _ _ _ ht => ht.termEnd _ _ _

theorem State.Canonical.execGetarg {s : State} (h : s.Canonical) (c : Ctl) (o : RD2) : Out.Canonical (execGetarg c o s) :=
  h.termWord c (fun _ k => .bind (.deref k _) fun _ => .bind (.getarg k _ _) fun _ => .pure _) fun _ _ _ ht => ht.termEnd _ _ _

theorem State.Canonical.execBindT {s : State} (h : s.Canonical) (c : Ctl) (a b : Opnd) : Out.Canonical (execBindT c a b s) :=
  h.termWord c (fun _ k => .bind (.deref k _) fun _ => .when (.fault k _ _) fun _ => .bind (.deref k _) fun _ => .ite (.bindPair k _ _) (.pure _))
    fun _ _ _ ht => ht.finish _ _ _

theorem State.Canonical.execCommit {s : State} (h : s.Canonical) (c : Ctl) (o : P2) : Out.Canonical (execCommit c o s) := by
  refine .withCur fun q => h.termRelease q c (h.termWord c (fun q k => ?_) fun t q1 l ht => ?_)
  · exact .bind (.derefFrom k _ _ _) fun _ => .ite (.pure _) (.bind (.deref k _) fun _ => .commit q _ k _ _)
  · extract_lets g acts s1
    have h1 : s1.Canonical := ht.of_mem (by simp [s1])
    split
    · exact h1.of_mem (by simp)
    · exact h1

/-! ### UNIFY -/

theorem State.Canonical.unifyEnded {s : State} (h : s.Canonical) (k : Nat) : (s.unifyEnded k).Canonical := TM.Keeps.unifyEnd k s h

theorem State.Canonical.unifyLoop {s : State} (h : s.Canonical) (k n : Nat) : (unifyLoop k n s).2.Canonical := by
  induction n generalizing s with
  | zero =>
    unfold Machine.unifyLoop
    split
    · exact h.unifyEnded k
    · exact h
  | succ n ih =>
    unfold Machine.unifyLoop
    split
    · exact h.unifyEnded k
    · have hr := TM.Keeps.unifyPair k s h
      dsimp only
      split
      · next same s1 e =>
        rw [e] at hr
        have h2 : (s1.updCur fun g => { g with perfPairs := g.perfPairs + 1 }).Canonical := State.Canonical.of_mem hr (by simp)
        split
        · exact ih h2
        · exact h2.unifyEnded k
      · exact h

theorem State.Canonical.unifyLane {s : State} (h : s.Canonical) (k : Nat) (x y : W64) : (unifyLane k x y s).2.Canonical := by
  unfold Machine.unifyLane
  have hr := TM.Keeps.unifyStart k x y s h
  split
  · next s1 e =>
    rw [e] at hr
    exact State.Canonical.unifyLoop hr k 64
  · exact h

theorem State.Canonical.unifyLanes {s : State} (h : s.Canonical) (o : PUnify) (l : List Nat) : (unifyLanes o l s).2.2.Canonical := by
  induction l generalizing s with
  | nil => exact h
  | cons k l ih =>
    unfold Machine.unifyLanes
    split
    · exact h
    · next q _ =>
      have hr := h.unifyLane k (q.grp.src Rd.raw o.a k) (q.grp.opnd Rd.raw o.b k)
      split
      · next e =>
        rw [e] at hr
        exact hr
      · next e =>
        rw [e] at hr
        exact ih hr
      · next e =>
        rw [e] at hr
        exact ih (State.Canonical.of_mem hr (by simp))

/-! ### SEARCH words -/

theorem State.Canonical.execFailW {s : State} (h : s.Canonical) (c : Ctl) : Out.Canonical (execFailW c s) := by
  refine .withCur fun q => ?_
  have hr := TM.Keeps.lanes TM.Keeps.fail (q.active c) s h
  split
  · next l s1 e =>
    rw [e] at hr
    exact .next (h.route hr q _)
  · exact .next (h.stopWord _ _)

theorem State.Canonical.execUnify {s : State} (h : s.Canonical) (c : Ctl) (o : PUnify) : Out.Canonical (execUnify c o s) := by
  refine .withCur fun q => ?_
  extract_lets lanes r
  have hr : r.2.2.Canonical := h.unifyLanes o lanes
  refine .withCur fun q1 => ?_
  split
  · exact .next (hr.stopWord _ _)
  · refine .ite (.next (hr.of_mem (by simp))) ?_
    extract_lets bad
    have hf := TM.Keeps.lanes TM.Keeps.fail ((List.range 32).filter fun k => bad.getLsbD k) r.2.2 hr
    split
    · next l s1 e =>
      rw [e] at hf
      exact .next (hr.route hf q1 _)
    · exact .next (hr.stopWord _ _)

theorem State.Canonical.execTryM {s : State} (h : s.Canonical) (c : Ctl) (o : STry) : Out.Canonical (execTryM c o s) :=
  h.searchWord c fun q k => .pushMarker q _ _ k

theorem State.Canonical.execTrust {s : State} (h : s.Canonical) (c : Ctl) : Out.Canonical (execTrust c s) :=
  h.searchWord c fun _ k => .bind (.lane k) fun _ => .when (.fault k _ _) fun _ => .ite (.popMarker k) (.pure _)

theorem State.Canonical.execCut {s : State} (h : s.Canonical) (c : Ctl) (a : Opnd) : Out.Canonical (execCut c a s) :=
  h.searchWord c fun _ k => .bind (.lane k) fun _ => .when (.fault k _ _) fun _ => .when (.fault k _ _) fun _ => .popMarkers k _

theorem State.Canonical.execOffer {s : State} (h : s.Canonical) (c : Ctl) (a : Opnd) : Out.Canonical (execOffer c a s) := by
  refine .withCur fun q => ?_
  split
  · exact .next (h.takeFault _ _)
  · exact h.termRelease q c (h.searchWord c fun q k => .offer q k _)

theorem State.Canonical.adoptPrivate {s : State} (h : s.Canonical) (q : Cur) (f : FaultInfo) : (s.adoptPrivate q f).Canonical := by
  unfold State.adoptPrivate
  extract_lets off _ st st1 s0 s1
  have h1 : s1.Canonical := h.of_mem (by simp [s1, s0])
  split
  · exact h1.takeFault _ _
  · exact h1

theorem State.Canonical.execAdopt {s : State} (h : s.Canonical) (c : Ctl) (p : BitVec 3) : Out.Canonical (execAdopt c p s) := by
  refine .withCur fun q => ?_
  have hr := TM.Keeps.lanes (fun k => TM.Keeps.adoptLoop q.gi k 64) (q.active c) s h
  split
  · next l s1 e =>
    rw [e] at hr
    exact .next (h.route (State.Canonical.of_mem hr (by simp)) q _)
  · exact .ite (.next (h.adoptPrivate _ _)) (.next (h.takeFault _ _))
  · exact .next (h.stopWord _ _)

theorem State.Canonical.execExitW {s : State} (h : s.Canonical) (c : Ctl) : Out.Canonical (execExitW c s) := by
  refine .withCur fun q => ?_
  have hr := TM.Keeps.lanes (fun k => TM.Keeps.farIdle k (farMarkers q.blk.scratchSize (q.grp.lane k))) (q.active c) s h
  split
  · exact .next (h.of_mem (by simp))
  · split
    · next s1 e =>
      rw [e] at hr
      exact State.Canonical.flowWord hr c _ _
    · exact .next (h.stopWord _ _)

theorem State.Canonical.execOvlcfg {s : State} (h : s.Canonical) (c : Ctl) (a : Opnd) : Out.Canonical (execOvlcfg c a s) := by
  refine .withCur fun q => ?_
  have hr := TM.Keeps.bind (TM.Keeps.lanes (fun k => TM.Keeps.swatch k (q.grp.opnd Rd.raw a k)) (q.active c))
    (fun l => TM.Keeps.bind (TM.Keeps.configure q.gi q.blk.scratchSize l) fun _ => TM.Keeps.pure l) s h
  split
  · next l s1 e =>
    rw [e] at hr
    exact .withCur fun _ => .next (State.Canonical.finish hr _ _ _)
  · exact .next (h.stopWord _ _)

/-! ### Ends of what an event does -/

theorem State.Canonical.post {s : State} (h : s.Canonical) (e : HostEvent) : (s.post e).Canonical := h.of_mem (by simp)

theorem State.Canonical.noteIdle {s : State} (h : s.Canonical) (t : State) (k : Nat) : (s.noteIdle t k).Canonical := h.of_mem (by simp)

theorem State.Canonical.wakeDrains {s : State} (h : s.Canonical) : s.wakeDrains.Canonical := h.of_mem (by simp)

/-! ### Walks, replies of the host and preemption -/

theorem State.Canonical.walked {s : State} (h : s.Canonical) (f : Focus) (r : Option (W64 × Bool)) : (s.walked f r).Canonical := by
  unfold State.walked
  split
  · exact h
  · split
    · exact h
    · dsimp only
      split
      · exact h.of_mem (by simp)
      · exact h.takeFault _ _

theorem State.Canonical.reply {s : State} (h : s.Canonical) (p : Posted) (retry : Bool) : (s.reply p retry).Canonical := by
  unfold State.reply
  split
  case h_1 =>
    split
    · exact h
    · split
      · exact .ite (h.of_mem (by simp)) (h.deliverErrorAt _ _ _)
      · exact h
  case h_2 k _ =>
    split
    · exact h
    · next x _ =>
      extract_lets s1 w s2
      have h1 : s1.Canonical := h.setQueue k _
      have h2 : s2.Canonical := by
        unfold s2
        split
        · exact State.Canonical.dropReplica (h1.of_mem (by simp)) _ _
        · exact h1
      exact .ite h (.ite (h1.of_mem (by simp)) ((h2.rejectPacket k _ 10 w).noteIdle _ _))
  case h_3 i _ =>
    refine .ite (h.runPend i) ?_
    split
    · exact h
    · split
      · exact h.of_mem (by simp)
      · exact (h.failPend _ _ _ _).noteIdle _ _

theorem State.Canonical.moved {s : State} (h : s.Canonical) (old new : Nat) : (s.moved old new).Canonical :=
  .ite h ((MemSys.Canonical.releaseDev h old).of_mem (by simp))

theorem State.Canonical.dropImage {s : State} (h : s.Canonical) (img : SaveImg) : (s.dropImage img).Canonical :=
  MemSys.Canonical.zeroRange h _

theorem State.Canonical.putImage {s : State} (h : s.Canonical) (b : Block) (a : Nat) :
    MemSys.Canonical { s.ms with mem := s.ms.mem.putImage b a } :=
  Mem.wf_putImage _ _ _ h

theorem State.Canonical.failImage {s : State} (h : s.Canonical) (b : Block) (gi : Nat) (f : FaultInfo) : (s.failImage b gi f).Canonical := by
  have h1 : ((s.terminateLaunch b.launch).record b.asid (s.groupRecord b gi 0 f)).Canonical := (h.terminateLaunch _).record _ _
  unfold State.failImage
  dsimp only
  split
  · exact (h1.queueError _ _ _).post _
  · exact h1

/-! ### The scheduler, queues and contexts -/

theorem State.Canonical.mapQueue {s : State} (h : s.Canonical) (k : Nat) : (s.mapQueue k).Canonical := by
  unfold State.mapQueue
  split
  · refine State.Canonical.noteIdle (State.Canonical.setQueue ?_ k _) _ _
    exact h
  · exact h

theorem State.Canonical.beginUnmap {s : State} (h : s.Canonical) (k : Nat) : (s.beginUnmap k).Canonical := by
  unfold State.beginUnmap
  split
  · next x n _ _ =>
    have h1 := h.setQueue k { x with st := if x.st == .error then .error else .unmapping, step := 1 }
    dsimp only
    split
    · exact h1.of_mem (by simp)
    · exact h1
  · exact h

theorem State.Canonical.serveGangs {s : State} (h : s.Canonical) (l : List Gang) (new : List Nat) : (serveGangs l new s).Canonical := by
  induction l generalizing s new with
  | nil => exact h
  | cons u l ih =>
    unfold Machine.serveGangs
    refine .ite (ih (h.foldl _ fun _ _ ht => ht.mapQueue _) _) ?_
    dsimp only
    split
    · exact h.foldl _ fun _ _ ht => ht.foldl _ fun _ _ hu => hu.beginUnmap _
    · exact h

theorem State.Canonical.killQueue {s : State} (h : s.Canonical) (k : Nat) : (s.killQueue k).Canonical := by
  unfold State.killQueue
  split
  · exact h
  · next x _ =>
    extract_lets s1 s2 m qs
    have h1 : s1.Canonical := h.setQueue k _
    have h2 : s2.Canonical := by
      unfold s2
      split
      · dsimp only
        split
        · exact h1.of_mem (by simp)
        · exact h1
      · exact h1
    exact h2.of_mem (by simp [m])

theorem State.Canonical.newQueue {s : State} (h : s.Canonical) (dq : Option Nat) (n : QcbNew) : (s.newQueue dq n).Canonical := by
  unfold State.newQueue
  have herr : s.cmdError.Canonical := h.of_mem (by simp)
  dsimp only
  split
  · next c leaf pa _ _ =>
    refine .ite herr (State.Canonical.post (State.Canonical.setQueue ?_ _ _) _)
    generalize List.replicate 256 (0 : Byte) = l
    exact MemSys.Canonical.homeWrite h pa l
  · exact herr

theorem State.Canonical.zeroFreed {s : State} (h : s.Canonical) (x : Inval) : (s.zeroFreed x).Canonical := by
  unfold State.zeroFreed
  split
  · exact h
  · exact MemSys.Canonical.foldl h _ fun _ _ hm => hm.zeroRange _

theorem State.Canonical.beginTeardown {s : State} (h : s.Canonical) (asid : Nat) : (s.beginTeardown asid).Canonical := by
  unfold State.beginTeardown
  split
  · exact h
  · refine State.Canonical.foldl ?_ _ fun _ _ ht => .ite (ht.beginUnmap _) (ht.killQueue _)
    exact h

theorem State.Canonical.teardownBlocks {s : State} (h : s.Canonical) (asid : Nat) : (s.teardownBlocks asid).Canonical := by
  unfold State.teardownBlocks
  extract_lets specs s1 tasks stop s2
  have h1 : s1.Canonical := h.of_mem (by simp [s1])
  have h2 : s2.Canonical := h1.foldl _ fun _ _ ht => ht.terminateLaunch _
  exact h2

theorem State.Canonical.freeAsid {s : State} (h : s.Canonical) (asid : Nat) (c : Ctx) : (s.freeAsid asid c).Canonical := by
  unfold State.freeAsid
  extract_lets s1
  have h1 : s1.Canonical := h.of_mem (by simp [s1])
  have hz : ((s1.ms.pagesOf c.root).foldl MemSys.zeroRange s1.ms).Canonical := MemSys.Canonical.foldl h1 _ fun _ _ hm => hm.zeroRange _
  exact hz.state (by simp)

theorem State.Canonical.goTeardown {s : State} (h : s.Canonical) (asid : Nat) : (s.goTeardown asid).Canonical := by
  unfold State.goTeardown
  split
  · exact h
  · exact .ite h (.ite (h.teardownBlocks _) (.ite (h.of_mem (by simp)) ((h.teardownBlocks _).freeAsid _ _)))

/-! ### Messages of other chips -/

theorem State.Canonical.serveAtom {s : State} (h : s.Canonical) (fn pa : Nat) (wide : Bool) (b c : W64) : (s.serveAtom fn pa wide b c).1.Canonical :=
  MemSys.Canonical.homeWrite h _ _

theorem State.Canonical.serve {s : State} (h : s.Canonical) (m : Msg) (asid : Nat) : (s.serve m asid).1.Canonical := by
  unfold State.serve
  cases m.op with
  | load | waitc | probe | engineRead => exact h
  | store pa l => exact MemSys.Canonical.homeWrite h _ _
  | atom | red => exact h.serveAtom _ _ _ _ _
  | casc | decc => exact h.atomc _ _ _ _ _ _ _
  | replica dq words =>
    dsimp only
    split
    · next k x _ =>
      cases e : s.putReplica k x m.src (recW words 16).toNat (words.take 16) with
      | none => exact h
      | some t => exact h.putReplica e
    · exact h.of_mem (by simp)
  | join => exact h.of_mem (by simp)
  | start => exact h.gotStart _ _ _
  | abort dq gen coord =>
    dsimp only
    split
    · split
      · exact .ite (h.of_mem (by simp)) h
      · exact h
    · exact h.gotAbort _ _ _
  | engineWrite pa l bad =>
    have hw := MemSys.Canonical.homeWrite h pa l
    exact MemSys.Canonical.ite (hw.of_mem (by simp)) hw

theorem State.Canonical.perform? {s : State} (h : s.Canonical) (m : Msg) : (s.perform? m).1.Canonical := by
  unfold State.perform?
  split
  · exact h.serve _ _
  · split
    · exact h
    · split
      · exact h
      · split
        · exact h
        · exact h.serve _ _

theorem State.Canonical.serveMsg {s : State} (h : s.Canonical) (m : Msg) : (s.serveMsg m).Canonical :=
  (h.perform? m).of_mem (by simp [State.serveMsg])

theorem State.Canonical.drainStream {s : State} (h : s.Canonical) (key n : Nat) : (drainStream key n s).Canonical := by
  induction n generalizing s with
  | zero => exact h
  | succ n ih =>
    unfold Machine.drainStream
    dsimp only
    split
    · exact h
    · exact .ite h (ih (State.Canonical.serveMsg (h.of_mem (State.setInStream_mem _ _ _)) _))

theorem State.Canonical.laneAnswer {s : State} (h : s.Canonical) (id : Nat) (m : OutMsg) (r : RemoteReply) : (s.laneAnswer id m r).Canonical := by
  unfold State.laneAnswer
  split
  · exact h
  · cases r with
    | refused => exact h.fabricFail _
    | poison =>
      dsimp only
      split
      · exact State.Canonical.consumePoison (h.of_mem (State.updGrp_mem _ _ _ _)) _ _ _ _
      · exact h
    | ack => exact h.of_mem (by simp)
    | data l =>
      dsimp only
      split
      · exact .ite (h.of_mem (by simp)) (h.of_mem (by simp))
      · exact h.of_mem (by simp)
      · exact h
    | old v n => exact h.of_mem (by simp)

theorem State.Canonical.partAnswer {s : State} (h : s.Canonical) (m : OutMsg) (r : RemoteReply) : (s.partAnswer m r).Canonical := by
  unfold State.partAnswer
  split
  · exact h.of_mem (by simp)
  · exact h.of_mem (by simp)
  · exact h.fabricFail _
  · exact h.fabricFail _
  · exact h.of_mem (by simp)
  · split
    · split
      · exact h.setQueue _ _
      · exact h.descGot _ _ _ _
    · exact h
  · exact h.descGot _ _ _ _
  · exact h

theorem State.Canonical.answered {s : State} (h : s.Canonical) (dst vc : Nat) (seq : BitVec 32) (r : RemoteReply) :
    (s.answered dst vc seq r).Canonical := by
  unfold State.answered
  split
  · exact h
  · next m _ =>
    have h1 : ({ s with fab := { s.fab with retry := s.fab.retry.erase m } } : State).Canonical := h
    dsimp only
    split
    · exact h1.laneAnswer _ _ _
    · exact h1.partAnswer _ _

theorem State.Canonical.drainAnswers {s : State} (h : s.Canonical) (key src n : Nat) : (drainAnswers key src n s).Canonical := by
  induction n generalizing s with
  | zero => exact h
  | succ n ih =>
    unfold Machine.drainAnswers
    dsimp only
    split
    · exact h
    · exact ih (State.Canonical.answered (h.of_mem (State.setAckStream_mem _ _ _)) _ _ _ _)

/-! ### Failures, resets and the start of the part -/

theorem State.Canonical.failUnreachable {s : State} (h : s.Canonical) : s.failUnreachable.Canonical := by
  have hf := State.Canonical.foldl (s := { s with fab := { s.fab with retry := s.fab.retry.filter fun m => !s.fab.unreachable.contains m.m.dst } }) h
    (s.fab.retry.filter fun m => s.fab.unreachable.contains m.m.dst) fun _ m ht => State.Canonical.fabricFail ht m
  exact hf.wakeDrains

theorem State.Canonical.failPort {s : State} (h : s.Canonical) (p : Nat) : (s.failPort p).Canonical := by
  unfold State.failPort
  extract_lets n mine lost alive clk _ s1 again _ s2 s3
  have h2 : s2.Canonical := h.of_mem (by simp [s2, s1])
  have h3 : s3.Canonical := State.Canonical.failUnreachable (h2.of_mem (by simp))
  exact .ite h3 (h3.of_mem (by simp))

theorem State.Canonical.launchFault {s : State} (h : s.Canonical) (l : Nat) (x : Launch) (code : FaultCode) : (s.launchFault l x code).Canonical := by
  unfold State.launchFault
  split
  · exact h.of_mem (by simp)
  · extract_lets s1
    have h1 : s1.Canonical := by
      unfold s1
      split
      · exact h.record _ _
      · exact h
    exact ((h1.terminateLaunch _).queueError _ _ _).post _

theorem Mem.wf_hostPart (m : Mem) (h : Mem.wf m = true) : Mem.wf (hostPart m) = true := Mem.wf_filter m _ h

theorem State.Canonical.bringUpRest {s : State} (h : s.Canonical) : s.bringUpRest.Canonical := Mem.wf_hostPart _ h

theorem State.Canonical.endReset {s : State} (h : s.Canonical) : s.endReset.Canonical :=
  .ite h (Mem.wf_hostPart _ h)

/-! ### Events of the cores -/

theorem State.Canonical.execStoreLeaveCore {s : State} (h : s.Canonical) (cl co : Nat) : Out.Canonical (execStoreLeaveCore cl co s) := by
  unfold Machine.execStoreLeaveCore
  split
  · exact .next (State.Canonical.wakeDrains (((h.leaveCore _ _ _ _).leaveMore _ _ _ _).of_mem (State.dropFull_mem _ _)))
  · exact .next h

theorem State.Canonical.execVariableLatencyResult {s : State} (h : s.Canonical) (blk grp r : Nat) :
    Out.Canonical (execVariableLatencyResult blk grp r s) := by
  unfold Machine.execVariableLatencyResult
  split
  · extract_lets co c s1
    have h1 : s1.Canonical := by
      unfold s1
      split
      · dsimp only
        split
        · exact State.Canonical.performLoad (h.of_mem (by simp)) _ _ _ _ _ _ _ _ _
        · exact h.of_mem (by simp)
      · exact h
    split
    · exact .ite (.next h1.wakeDrains) (.next (State.Canonical.wakeDrains (h1.of_mem (by simp))))
    · exact .next h1.wakeDrains
  · exact .next h

theorem State.Canonical.execCopyDelivery {s : State} (h : s.Canonical) (id chunk : Nat) : Out.Canonical (execCopyDelivery id chunk s) := by
  unfold Machine.execCopyDelivery
  split
  · exact .next h
  · split
    · next b t _ _ =>
      extract_lets far vas r bad va bytes held
      refine .ite (.next h) (.ite (.next ?_) ?_)
      · split
        · exact h.of_mem (by simp)
        · exact h
      · split
        · exact .next ((h.deliverStore _ _ _ _).of_mem (State.dropFull_mem _ _))
        · refine .ite (.next h) (.ite (.next (h.of_mem (by simp))) (.next ?_))
          have hr : r.2.Canonical := MemSys.Canonical.fetchSources h _ _ _ _ _
          exact (State.Canonical.deliverSector (s := { s with ms := r.2 }) hr _ _ _ _ _ _ _ _).of_mem (State.dropFull_mem _ _)
        · exact .ite (.next h) (.ite (.next (h.of_mem (by simp))) (.next (h.deliverScratch _ _ _ _ _)))
    · exact .next h

theorem State.Canonical.execMmaComplete {s : State} (h : s.Canonical) (blk grp : Nat) : Out.Canonical (execMmaComplete blk grp s) := by
  unfold Machine.execMmaComplete
  split
  · exact .next h
  · next q _ =>
    split
    · exact .next h
    · next t _ =>
      split
      · exact .next h
      · next pc at_ op ops _ =>
        refine .ite (.next h) (.ite (.next h) (.ite ?_ ?_))
        · split
          · exact .next (h.of_mem (by simp))
          · exact .next (h.consumePoison _ _ _ _)
        · extract_lets r _ st s1
          have hr : r.2.1.Canonical := MemSys.Canonical.runMOp h _ _ _ _ _ _ _
          have h1 : s1.Canonical := hr.state (by simp [s1])
          exact .next (h1.of_mem (by simp))

theorem State.Canonical.execBatchRetire {s : State} (h : s.Canonical) (blk grp : Nat) : Out.Canonical (execBatchRetire blk grp s) := by
  unfold Machine.execBatchRetire
  split
  · exact .next h
  · refine .ite (.next h) ?_
    split
    · exact .next h
    · extract_lets far near _ s1 ms ms1 s2
      have h1 : s1.Canonical := h.of_mem (by simp [s1])
      have hms : ms.Canonical := MemSys.Canonical.foldl h1 _ fun _ _ hm => hm.writeOut _ _ _
      have h2 : s2.Canonical := hms.state (by simp [s2, ms1])
      exact .next (h2.of_mem (by simp))

theorem State.Canonical.execIssueCycle {s : State} (h : s.Canonical) (cl : Nat) : Out.Canonical (execIssueCycle cl s) := by
  refine .ite (.next h) ?_
  extract_lets co c s1 _ s2 s3
  have h1 : s1.Canonical := h.of_mem (by simp [s1])
  have h2 : s2.Canonical := h1.of_mem (by simp [s2])
  have h3 : s3.Canonical := h2.of_mem (by simp [s3])
  split
  · exact .next h1
  · exact .ite (.next (h1.of_mem (by simp))) (.ite (.next (.ite h3 (h3.of_mem (by simp)))) (.next (h2.of_mem (by simp))))

theorem State.Canonical.execIcacheLineArrive {s : State} (h : s.Canonical) (blk grp : Nat) : Out.Canonical (execIcacheLineArrive blk grp s) := by
  unfold Machine.execIcacheLineArrive
  split
  · exact .next h
  · next q0 _ =>
    split
    · extract_lets slot va _ q low fault
      refine .ite (.next h) ?_
      have hg : (s.putGrp q q.grp).Canonical := h.of_mem (by simp)
      have hf := hg.fetchTr q.blk.cl q.co q.blk.asid va
      split
      · next s1 e =>
        rw [e] at hf
        exact .next (State.Canonical.takeFault hf _ _)
      · next s1 leaf e =>
        rw [e] at hf
        have h1 : s1.Canonical := hf
        exact .ite (.next (h1.takeFault _ _)) (.ite (.next (h1.takeFault _ _)) (.next (h1.of_mem (by simp))))
    · exact .next h

theorem State.Canonical.execTlbWalkComplete {s : State} (h : s.Canonical) (blk grp : Nat) : Out.Canonical (execTlbWalkComplete blk grp s) := by
  unfold Machine.execTlbWalkComplete
  split
  · exact .next h
  · dsimp only
    split
    · exact .next (h.walked _ _)
    · refine .ite (.next (.ite (h.of_mem (by simp)) h)) (.next ?_)
      exact (h.walkFor _ _ _).foldl _ fun _ _ ht => ht.walked _ _

theorem State.Canonical.execHostFaultReply {s : State} (h : s.Canonical) (asid page : Nat) (retry : Bool) :
    Out.Canonical (execHostFaultReply asid page retry s) := by
  refine .next (State.Canonical.foldl ?_ _ fun _ _ ht => ht.reply _ _)
  exact h

/-! ### Preemption and resume -/

theorem State.Canonical.execPreemptSave {s : State} (h : s.Canonical) (blk : Nat) : Out.Canonical (execPreemptSave blk s) := by
  unfold Machine.execPreemptSave
  split
  · exact .next h
  · next b _ =>
    split
    · refine .ite (.next h) (.next ?_)
      exact MemSys.Canonical.state (h.putImage b.saved (s.imageAddr b)) (by simp)
    · exact .next h

theorem State.Canonical.execBlockResume {s : State} (h : s.Canonical) (save : Nat) : Out.Canonical (execBlockResume save s) := by
  unfold Machine.execBlockResume
  have hfold : ∀ l : List Nat, Out.Canonical (.next (l.foldl (fun a n => a.discardSpec n .displaced) s)) := fun _ => .next (h.of_mem (by simp))
  split
  · exact .next h
  · next img _ =>
    dsimp only
    split
    · exact .next h
    · refine .ite (.next h) (.ite (.ite (.next h) ?coop) ?alone)
      case coop =>
        split
        · exact .next h
        · next s1 specs e =>
          have h1 : s1.Canonical := h.of_mem (coopAll_mem _ e)
          refine .ite (hfold _) (.next (State.Canonical.of_mem (h1.foldl _ fun t p ht => ?_) rfl))
          split
          · exact (ht.moved _ _).dropImage _
          · exact ht
      case alone =>
        split
        · exact .next h
        · refine .ite (hfold _) (.next ?_)
          have hd := State.Canonical.dropImage (s := { s with saved := s.saved.del save }) h img
          exact State.Canonical.of_mem (hd.moved _ _) (State.putOn_mem _ _ _ _ _ _)

theorem State.Canonical.execDebugResume {s : State} (h : s.Canonical) (save : Nat) (edits : List Edit) :
    Out.Canonical (execDebugResume save edits s) := by
  unfold Machine.execDebugResume
  split
  · exact .next h
  · split
    · exact .next h
    · refine .ite (.next h) (.ite (.next (h.failImage _ _ _)) (.next ?_))
      exact h.putImage _ _

theorem State.Canonical.execPreemptOrder {s : State} (h : s.Canonical) (blk : Nat) : Out.Canonical (execPreemptOrder blk s) := by
  unfold Machine.execPreemptOrder
  split
  · exact .next h
  · exact .next (h.of_mem (by simp))

theorem State.Canonical.execCheckpoint {s : State} (h : s.Canonical) (blk : Nat) : Out.Canonical (execCheckpoint blk s) := by
  unfold Machine.execCheckpoint
  split
  · exact .next h
  · exact .ite (.next h) (.next (h.of_mem (by simp)))

theorem State.Canonical.execBlockEnd {s : State} (h : s.Canonical) (blk : Nat) : Out.Canonical (execBlockEnd blk s) := by
  unfold Machine.execBlockEnd
  split
  · exact .next h
  · next b _ =>
    refine .ite (.next h) ?_
    split
    · extract_lets s1
      have h1 : s1.Canonical := by
        unfold s1
        split
        · exact h.record _ _
        · exact h
      exact .next (h1.of_mem (by simp))
    · exact .next h
    · exact .ite (.next (h.of_mem (by simp))) (.next h)

theorem State.Canonical.execMonitorWake {s : State} (h : s.Canonical) (blk grp : Nat) : Out.Canonical (execMonitorWake blk grp s) :=
  .ite (.next (h.of_mem (by simp))) (.next h)

theorem State.Canonical.execCopySlotGrant {s : State} (h : s.Canonical) (blk grp : Nat) : Out.Canonical (execCopySlotGrant blk grp s) := by
  unfold Machine.execCopySlotGrant
  split
  · exact .next h
  · exact .ite (.next (h.of_mem (by simp))) (.next h)

theorem State.Canonical.execBudgetPeriodStart {s : State} (h : s.Canonical) (cl : Nat) : Out.Canonical (execBudgetPeriodStart cl s) :=
  .ite (.next h) (.next (h.of_mem (by simp)))

/-! ### The dispatcher -/

theorem State.Canonical.execDispatchChunk {s : State} (h : s.Canonical) (launch : Nat) : Out.Canonical (execDispatchChunk launch s) := by
  unfold Machine.execDispatchChunk
  split
  · exact .next h
  · refine .ite (.next h) ?_
    split
    · exact .next h
    · exact .next h

theorem State.Canonical.execBlockPlace {s : State} (h : s.Canonical) (cl launch : Nat) : Out.Canonical (execBlockPlace cl launch s) := by
  unfold Machine.execBlockPlace
  split
  · exact .next h
  · refine .ite (.next h) ?_
    split
    · exact .next h
    · dsimp only
      split
      · exact .next h
      · exact .ite (.next (h.of_mem (by simp))) (.next (h.of_mem (by simp)))

theorem State.Canonical.execCoopPlace {s : State} (h : s.Canonical) (launch : Nat) : Out.Canonical (execCoopPlace launch s) := by
  unfold Machine.execCoopPlace
  split
  · exact .next h
  · refine .ite (.next h) ?_
    split
    · exact .next h
    · next s1 specs e =>
      have h1 : s1.Canonical := h.of_mem (State.coopFits_mem e)
      exact .ite (.next h1) (.next (h.of_mem (by simp)))

theorem State.Canonical.execWorkSteal {s : State} (h : s.Canonical) (cl launch : Nat) : Out.Canonical (execWorkSteal cl launch s) := by
  unfold Machine.execWorkSteal
  split
  · exact .next h
  · exact .ite (.next h) (.next h)

theorem State.Canonical.execLaunchComplete {s : State} (h : s.Canonical) (launch : Nat) : Out.Canonical (execLaunchComplete launch s) := by
  unfold Machine.execLaunchComplete
  split
  · exact .next h
  · extract_lets s1 late s2 behind _ s3
    have h2 : s2.Canonical := State.Canonical.decSignal (h.releaseAll _) _ _ _
    have h3 : s3.Canonical := .ite h2 h2
    exact .ite (.next h) (.next ((h3.dropLaunch _ _).noteIdle _ _))

theorem State.Canonical.execSpecBegin {s : State} (h : s.Canonical) (slot : Nat) : Out.Canonical (execSpecBegin slot s) := by
  unfold Machine.execSpecBegin
  dsimp only
  split
  · split
    · exact .next h
    · refine .ite (.next h) ?_
      split
      · exact .next h
      · split
        · exact .next h
        · refine .ite ?_ (.next (h.of_mem (by simp)))
          split
          · next e => exact .next (State.Canonical.of_mem h ((State.coopFits_mem e).trans (by simp)))
          · exact .next h
  · exact .next h

theorem State.Canonical.execSpecTimeout {s : State} (h : s.Canonical) (num : Nat) : Out.Canonical (execSpecTimeout num s) := by
  unfold Machine.execSpecTimeout
  split
  · exact .next h
  · split
    · exact .next (h.of_mem (by simp))
    · exact .next h

/-! ### The fetchers -/

theorem State.Canonical.execKick {s : State} (h : s.Canonical) (q : Nat) : Out.Canonical (execKick q s) := by
  unfold Machine.execKick
  split
  · exact .next h
  · refine .next (State.Canonical.kickQueue ?_ q)
    exact h

theorem State.Canonical.execFetcherMonitorMatch {s : State} (h : s.Canonical) (slot : Nat) : Out.Canonical (execFetcherMonitorMatch slot s) := by
  unfold Machine.execFetcherMonitorMatch
  split
  · exact .next h
  · split
    · exact .next h
    · exact .next (.ite ((h.sigMatch _).kickQueue _) (h.sigMatch _))

theorem State.Canonical.execJoinMessage {s : State} (h : s.Canonical) (dq gen chip : Nat) : Out.Canonical (execJoinMessage dq gen chip s) :=
  .next (.ite (h.of_mem (by simp)) h)

theorem State.Canonical.execStartMessage {s : State} (h : s.Canonical) (dq gen : Nat) : Out.Canonical (execStartMessage dq gen s) := by
  unfold Machine.execStartMessage
  split
  · exact .next (.ite (h.gotStart _ _ _) h)
  · exact .next (h.gotStart _ _ _)

theorem State.Canonical.execAbortMessage {s : State} (h : s.Canonical) (dq gen : Nat) : Out.Canonical (execAbortMessage dq gen s) := by
  unfold Machine.execAbortMessage
  split
  · exact .next (.ite (h.gotAbort _ _ _) h)
  · exact .next (h.gotAbort _ _ _)

theorem State.Canonical.execJoinTimeout {s : State} (h : s.Canonical) (dq gen : Nat) : Out.Canonical (execJoinTimeout dq gen s) := by
  unfold Machine.execJoinTimeout
  split
  · exact .next (.ite (h.of_mem (by simp)) h)
  · exact .next h

theorem State.Canonical.execFetchLaunch {s : State} (h : s.Canonical) (slot : Nat) : Out.Canonical (execFetchLaunch slot s) := by
  refine .next (h.fetchWord slot _ fun k x pos w => .ite (h.rejectPacket _ _ _ _) ?_)
  split
  · exact h.feStop _ _ _ _
  · exact h.setQueue _ _

theorem State.Canonical.execFetchLaunchx {s : State} (h : s.Canonical) (slot : Nat) : Out.Canonical (execFetchLaunchx slot s) := by
  refine .next (h.fetchWord slot _ fun k x pos w => ?_)
  split
  · split
    · exact (State.Canonical.feStop (h.of_mem (State.replicaFails_mem _ _ _)) _ _ _ _).dropReplica _ _
    · exact h.feStop _ _ _ _
    · exact .ite ((h.rejectPacket _ _ _ _).dropReplica _ _) (h.setQueue _ _)
  · split
    · exact h.feStop _ _ _ _
    · refine .ite h ?_
      have h1 := h.advanceCons k
      dsimp only
      split
      · exact h
      · next y _ =>
        have h2 := h1.setQueue k { y with gen := y.gen + 1 }
        split
        · exact h
        · next s3 e =>
          have h3 : s3.Canonical := by
            split at e
            · exact h2.putReplica e
            · cases e
              exact h2
          exact h3.of_mem (by simp)

theorem State.Canonical.execLaunchAdmit {s : State} (h : s.Canonical) (slot : Nat) : Out.Canonical (execLaunchAdmit slot s) := by
  unfold Machine.execLaunchAdmit
  split
  · exact .next h
  · next k _ =>
    split
    · exact .next h
    · next x _ =>
      split
      · next pos w d _ =>
        refine .ite (.next h) (.ite ?far ?own)
        case far =>
          split
          · refine .ite (.next ((h.rejectPacket _ _ _ _).dropReplica _ _)) (.ite (.next h) (.next ?_))
            have h1 := (h.releaseAll (hdrAcq (recW w 0))).setQueue k { x with fetch := .launch pos w d true }
            exact .ite h1 (h1.of_mem (by simp))
          · exact .next h
        case own =>
          dsimp only
          split
          · exact .next h
          · next s1 e =>
            have h1 : s1.Canonical := by
              split at e
              · cases e
                exact h
              · split at e
                · cases e
                · split at e
                  · cases e
                    exact h.setQ2 _ _
                  · cases e
            exact .next ((h1.setQueue _ _).consultPredictor _ _ _ _ _ _)
      · exact .next h

theorem State.Canonical.execFetchWaitsig {s : State} (h : s.Canonical) (slot : Nat) : Out.Canonical (execFetchWaitsig slot s) := by
  refine .next (h.fetchWord slot _ fun k x pos w => ?_)
  split
  · exact h.feStop _ _ _ _
  · next cc _ =>
    refine .ite h ?_
    dsimp only
    split
    · exact h
    · next y _ =>
      have h2 := (h.advanceCons k).setQueue k { y with fetch := .waitsig pos (recW w 1) (recW w 2) cc (hdrAcq (recW w 0)) none }
      split
      · exact .ite h2 (h2.of_mem (by simp))
      · exact h2

theorem State.Canonical.execWaitsigSatisfied {s : State} (h : s.Canonical) (slot : Nat) : Out.Canonical (execWaitsigSatisfied slot s) := by
  unfold Machine.execWaitsigSatisfied
  split
  · exact .next h
  · next k _ =>
    split
    · exact .next h
    · next x _ =>
      split
      · refine .ite (.next h) ?_
        extract_lets go
        have hgo : go.Canonical := by
          have h1 : ({ s with ms := s.ms.unwatch k } : State).Canonical := h
          exact State.Canonical.noteIdle (State.Canonical.of_mem (h1.setQueue k { x with fetch := .none }) (by simp)) _ _
        split
        · exact .next h
        · refine .ite ?_ (.ite (.next hgo) (.next h))
          split
          · exact .ite (.next hgo) (.next (h.setQueue _ _))
          · exact .ite (.next h) (.next (h.of_mem (by simp)))
      · exact .next h

theorem State.Canonical.execFetchSignal {s : State} (h : s.Canonical) (slot : Nat) : Out.Canonical (execFetchSignal slot s) := by
  unfold Machine.execFetchSignal
  split
  · exact .next (h.runPend _)
  · refine .next (h.fetchWord slot _ fun k x pos w => ?_)
    split
    · exact h.feStop _ _ _ _
    · exact .ite h (State.Canonical.advanceCons (h.of_mem (State.addPend_mem _ _ _ _ _ _ _ _ _)) _)

theorem State.Canonical.execFetchNopPacket {s : State} (h : s.Canonical) (slot : Nat) : Out.Canonical (execFetchNopPacket slot s) := by
  unfold Machine.execFetchNopPacket
  split
  · exact .next (h.runPend _)
  · refine .next (h.fetchWord slot _ fun k x pos w => ?_)
    split
    · exact h.feStop _ _ _ _
    · exact .ite h (.ite (h.advanceCons _) (State.Canonical.advanceCons (h.of_mem (State.addPend_mem _ _ _ _ _ _ _ _ _)) _))

theorem State.Canonical.execFetchContreg {s : State} (h : s.Canonical) (slot : Nat) : Out.Canonical (execFetchContreg slot s) := by
  refine .next (h.fetchWord slot _ fun k x pos w => ?_)
  split
  · exact h.feStop _ _ _ _
  · exact .ite h (State.Canonical.advanceCons (h.of_mem (by simp)) _)

theorem State.Canonical.execContregComplete {s : State} (h : s.Canonical) (q pos : Nat) : Out.Canonical (execContregComplete q pos s) := by
  unfold Machine.execContregComplete
  split
  · exact .next h
  · split
    · next idx e act y _ _ =>
      extract_lets older s1
      have h1 : s1.Canonical := h.of_mem (by simp [s1])
      refine .ite (.next h) (.ite (.next (h1.of_mem (by simp))) (.next (State.Canonical.runPend ?_ _)))
      exact h1
    · exact .next h

/-! ### The scheduler and the commands of the host -/

theorem State.Canonical.cmdDone {s : State} (h : s.Canonical) : s.cmdDone.Canonical := h.post _

theorem State.Canonical.cmdError {s : State} (h : s.Canonical) : s.cmdError.Canonical := h.post _

theorem State.Canonical.execSchedDecision {s : State} (h : s.Canonical) : Out.Canonical (execSchedDecision s) := by
  refine .ite (.next h) ?_
  extract_lets _ s0 idle s1 want s2
  have h0 : s0.Canonical := h
  have h1 : s1.Canonical := h0.foldl _ fun _ _ ht => ht.foldl _ fun _ _ hu => hu.beginUnmap _
  have h2 : s2.Canonical := h1.serveGangs _ _
  refine .next (h2.foldl _ fun t k ht => ?_)
  split
  · exact .ite (ht.setQueue _ _) ht
  · exact ht

theorem State.Canonical.execUnmapFlushProbeReturn {s : State} (h : s.Canonical) (slot : Nat) :
    Out.Canonical (execUnmapFlushProbeReturn slot s) := by
  unfold Machine.execUnmapFlushProbeReturn
  dsimp only
  split
  · exact .next h
  · next k _ =>
    split
    · exact .next h
    · refine .ite (.next h) (.next (.ite (State.Canonical.killQueue ?_ _) ?_))
      all_goals exact h.setQueue k _

theorem State.Canonical.execQueueReset {s : State} (h : s.Canonical) (q : Nat) : Out.Canonical (execQueueReset q s) := by
  unfold Machine.execQueueReset
  split
  · exact .next h
  · exact .ite (.next h) (.ite (.next (.ite h (h.setQueue _ _))) (.next (((h.setQ2 _ _).setQueue _ _).noteIdle _ _)))

theorem State.Canonical.execCreateContext {s : State} (h : s.Canonical) (asid root : Nat) (debug : Bool) (fn : CtxHost) :
    Out.Canonical (execCreateContext asid root debug fn s) :=
  .ite (.next h.cmdError) (.next (h.of_mem (by rfl)))

theorem State.Canonical.execDestroyQcb {s : State} (h : s.Canonical) (q : Nat) : Out.Canonical (execDestroyQcb q s) :=
  .ite (.next h.cmdError) (.next (h.killQueue q).cmdDone)

theorem State.Canonical.execSetBudgetClass {s : State} (h : s.Canonical) (asid cls res ceil : Nat) :
    Out.Canonical (execSetBudgetClass asid cls res ceil s) := by
  unfold Machine.execSetBudgetClass
  split
  · exact .next h.cmdError
  · exact .ite (.next h.cmdError) (.next (h.of_mem (by rfl)))

theorem State.Canonical.execSetQuota {s : State} (h : s.Canonical) (asid n : Nat) : Out.Canonical (execSetQuota asid n s) := by
  unfold Machine.execSetQuota
  split
  · exact .next h.cmdError
  · exact .ite (.next h.cmdError) (.next (h.of_mem (by rfl)))

theorem State.Canonical.execTimesliceExpire {s : State} (h : s.Canonical) : Out.Canonical (execTimesliceExpire s) :=
  .ite (.next h) (.next h)

theorem State.Canonical.execInvalidate {s : State} (h : s.Canonical) (asid va size : Nat) : Out.Canonical (execInvalidate asid va size s) := by
  unfold Machine.execInvalidate
  split
  · next x _ =>
    refine .next (.ite (State.Canonical.cmdDone (State.Canonical.zeroFreed ?_ x)) h)
    exact h
  · split
    · exact .next h.cmdError
    · exact .next (h.of_mem (by simp))

theorem State.Canonical.execTeardownAsid {s : State} (h : s.Canonical) (asid : Nat) : Out.Canonical (execTeardownAsid asid s) := by
  unfold Machine.execTeardownAsid
  split
  · exact .next h.cmdError
  · exact .next (.ite (h.goTeardown _) ((h.beginTeardown _).goTeardown _))

theorem State.Canonical.execSramSplitChange {s : State} (h : s.Canonical) (cl co split : Nat) :
    Out.Canonical (execSramSplitChange cl co split s) := by
  refine .ite (.next h.cmdError) ?_
  split
  · refine .ite (.next h) (.next ?_)
    have hms : ((s.ms.ccSectors cl).foldl (fun m (p : Nat × Sector) => m.writeBackDrop cl p.1) s.ms).Canonical :=
      MemSys.Canonical.foldl h _ fun _ _ hm => hm.writeBackDrop _ _
    exact hms.state (by simp)
  · exact .next (h.of_mem (by simp))

/-! ### Memory and the slices -/

theorem State.Canonical.execSliceWriteTask {s : State} (h : s.Canonical) (slice pos : Nat) : Out.Canonical (execSliceWriteTask slice pos s) := by
  unfold Machine.execSliceWriteTask
  extract_lets l gone
  have hg : gone.Canonical := h
  split
  · exact .next h
  · extract_lets drop
    have hd : drop.Canonical := hg.post _
    refine .ite (.next h) ?_
    split
    · exact .next hd
    · refine .ite (.next hd) (.ite (.next (hd.slotFails _ _)) ?_)
      split
      · exact .next h
      · next e => exact .next ((hg.reserve e).putPacket _ _ _ _)

theorem State.Canonical.execHostCxlAccess {s : State} (h : s.Canonical) (pa : Nat) (op : CxlOp) : Out.Canonical (execHostCxlAccess pa op s) := by
  refine .ite (.next h) ?_
  have hr : (cxlRun op s.ms pa).2.Canonical := MemSys.Canonical.cxlRun h _ _
  dsimp only
  split
  · exact .next (hr.state (by rfl))
  · exact .ite (.next (h.post _)) (.next (hr.state (by rfl)))

theorem State.Canonical.execUncorrectableError {s : State} (h : s.Canonical) (p : ErrPlace) : Out.Canonical (execUncorrectableError p s) := by
  cases p with
  | home x => exact .next (h.of_mem (by simp))
  | cache cl x =>
    unfold Machine.execUncorrectableError
    dsimp only
    split
    · exact .next (h.of_mem (by simp))
    · exact .next h
  | scratch blk x => exact .next (h.of_mem (by simp))

theorem State.Canonical.execDirectoryEntryEviction {s : State} (h : s.Canonical) (line : Nat) :
    Out.Canonical (execDirectoryEntryEviction line s) :=
  .next (h.of_mem (by simp))

/-! ### The fabric and its ports -/

theorem State.Canonical.execRemoteMessageArrive {s : State} (h : s.Canonical) (m : Msg) : Out.Canonical (execRemoteMessageArrive m s) := by
  refine .ite (.next h) ?_
  have hf : s.flitCame.Canonical := h.of_mem (by simp)
  refine .ite (.next (hf.of_mem (by simp))) (.ite (.next hf) (.ite (.next (State.Canonical.drainStream ?_ _ _)) (.ite (.next ?_) (.next ?_))))
  · exact .ite hf (hf.of_mem (by simp))
  · exact .ite hf (hf.of_mem (by simp))
  · exact State.Canonical.serveMsg (hf.of_mem (by simp)) _

theorem State.Canonical.execRemoteAckArrive {s : State} (h : s.Canonical) (dst vc : Nat) (seq : AckNum) (r : RemoteReply) :
    Out.Canonical (execRemoteAckArrive dst vc seq r s) := by
  refine .ite (.next h) ?_
  have hf : s.flitCame.Canonical := h.of_mem (by simp)
  refine .ite (.next hf) (.ite (.next (State.Canonical.wakeDrains (State.Canonical.drainAnswers ?_ _ _ _))) (.next ?_))
  · exact .ite hf (hf.of_mem (by simp))
  · exact State.Canonical.wakeDrains (State.Canonical.answered (hf.of_mem (by simp)) _ _ _ _)

theorem State.Canonical.execFlushProbeReturn {s : State} (h : s.Canonical) (dst vc : Nat) : Out.Canonical (execFlushProbeReturn dst vc s) :=
  .ite (.next h) (.next h)

theorem State.Canonical.execFabricPhaseQuiet {s : State} (h : s.Canonical) (chip : Nat) : Out.Canonical (execFabricPhaseQuiet chip s) :=
  .ite (.next h) (.ite (.ite (.next (.ite h h)) (.next (.ite h h))) (.ite (.next h) (.next h)))

theorem State.Canonical.execFabricQuiesce {s : State} (h : s.Canonical) : Out.Canonical (execFabricQuiesce s) :=
  .next (.ite (h.of_mem (by simp)) (h.of_mem (by simp)))

theorem State.Canonical.execChipLeavesDomain {s : State} (h : s.Canonical) (chip : Nat) : Out.Canonical (execChipLeavesDomain chip s) :=
  .ite (.next h) (.next (h.of_mem (by simp)))

theorem State.Canonical.execImportTableEntry {s : State} (h : s.Canonical) (chip asid base size own : Nat) :
    Out.Canonical (execImportTableEntry chip asid base size own s) := by
  unfold Machine.execImportTableEntry
  split
  · exact .next h.cmdError
  · exact .next (h.of_mem (by rfl))

theorem State.Canonical.execFlitCrcRetry {s : State} (h : s.Canonical) (port : Nat) (ok : Bool) : Out.Canonical (execFlitCrcRetry port ok s) :=
  .ite (.next h) (.next h)

theorem State.Canonical.execPortLaneLoss {s : State} (h : s.Canonical) (port : Nat) (trained : Bool) :
    Out.Canonical (execPortLaneLoss port trained s) :=
  .ite (.next h) (.ite (.next h) (.next (h.failPort _)))

theorem State.Canonical.execPortFail {s : State} (h : s.Canonical) (port : Nat) : Out.Canonical (execPortFail port s) :=
  .ite (.next h.failUnreachable) (.ite (.next (h.failPort _)) (.next h))

theorem State.Canonical.execPortReceiveTimeout {s : State} (h : s.Canonical) (port : Nat) : Out.Canonical (execPortReceiveTimeout port s) :=
  .ite (.next (h.failPort _)) (.next h)

theorem State.Canonical.execPortReturn {s : State} (h : s.Canonical) (port : Nat) : Out.Canonical (execPortReturn port s) :=
  .ite (.next h) (.next h)

/-! ### Watchdogs, strikes, marginal cores and resets -/

theorem State.Canonical.execHang {s : State} (h : s.Canonical) (launch : Nat) : Out.Canonical (execHang launch s) := by
  unfold Machine.execHang
  split
  · exact .next h
  · exact .ite (.next h) (.next (h.launchFault _ _ _))

theorem State.Canonical.execRemoteRecoveryTimeout {s : State} (h : s.Canonical) (launch : Nat) :
    Out.Canonical (execRemoteRecoveryTimeout launch s) := by
  unfold Machine.execRemoteRecoveryTimeout
  split
  · exact .next h
  · exact .ite (.next h) (.next (h.launchFault _ _ _))

theorem State.Canonical.execStrikeReport {s : State} (h : s.Canonical) (cl t : Nat) (mask : BitVec 8) :
    Out.Canonical (execStrikeReport cl t mask s) :=
  .ite (.next h) (.next (h.foldl _ fun _ _ ht => ht.of_mem (by simp)))

theorem State.Canonical.execCoreMarginal {s : State} (h : s.Canonical) (cl co : Nat) : Out.Canonical (execCoreMarginal cl co s) :=
  .ite (.next h) (.next (h.of_mem (by simp)))

theorem State.Canonical.execBistEnd {s : State} (h : s.Canonical) (cl co : Nat) (pass : Bool) : Out.Canonical (execBistEnd cl co pass s) := by
  unfold Machine.execBistEnd
  dsimp only
  split
  · exact .ite (.next h) (.next (h.of_mem (by simp)))
  · exact .next h

theorem State.Canonical.execAttestationRequest {s : State} (h : s.Canonical) (nonce : List Byte) :
    Out.Canonical (execAttestationRequest nonce s) :=
  .ite (.next h.cmdError) (.next (h.post _))

theorem State.Canonical.execRecoveryImageLoad {s : State} (h : s.Canonical) (image : Image) : Out.Canonical (execRecoveryImageLoad image s) := by
  refine .ite (.next h) (.next (.ite (State.Canonical.bringUpRest ?_) ?_))
  all_goals exact h

theorem State.Canonical.execColdReset {s : State} (h : s.Canonical) (images : List Image) : Out.Canonical (execColdReset images s) := by
  refine .next (.ite ?_ (State.Canonical.bringUpRest ?_))
  all_goals exact h

theorem State.Canonical.execDeviceReset {s : State} (h : s.Canonical) : Out.Canonical (execDeviceReset s) := by
  refine .next (State.Canonical.foldl ?_ _ fun _ _ ht => ht.beginTeardown _)
  exact h

theorem State.Canonical.execFunctionReset {s : State} (h : s.Canonical) (fn : Nat) : Out.Canonical (execFunctionReset fn s) :=
  .next (h.foldl _ fun _ _ ht => ht.beginTeardown _)

theorem State.Canonical.execPowerCapSet {s : State} (h : s.Canonical) (watts : Nat) : Out.Canonical (execPowerCapSet watts s) :=
  .ite (.next h) (.next h.cmdError)

theorem State.Canonical.execThrottleStep {s : State} (h : s.Canonical) (cl : Nat) (down : Bool) : Out.Canonical (execThrottleStep cl down s) :=
  .ite (.next h) (.next (h.of_mem (by simp)))

/-! ### Every meaning keeps memory canonical -/

theorem State.Canonical.dualWord {s : State} (h : s.Canonical) (x y : Slot) : Out.Canonical (dualWord s x y) :=
  .withCur fun _ => .next (h.of_mem (by simp))

theorem State.Canonical.execJoin {s : State} (h : s.Canonical) (c : Ctl) (off : BitVec 18) : Out.Canonical (execJoin c off s) :=
  .withCur fun _ => .ite (.next (h.of_mem (by simp))) (.next h)

theorem State.Canonical.execMfence {s : State} (h : s.Canonical) (c : Ctl) (d : Reg) : Out.Canonical (execMfence c d s) :=
  .withCur fun _ => .ite (.next (h.finish _ _ _)) (.next (h.finish _ _ _))

theorem State.Canonical.execFcmp {s : State} (h : s.Canonical) (c : Ctl) (o : PCmp FType FCond) : Out.Canonical (execFcmp c o s) :=
  .withCur fun _ => .next (h.finish _ _ _)

theorem State.Canonical.execWaitcRecheckTimer {s : State} (h : s.Canonical) (blk grp : Nat) : Out.Canonical (execWaitcRecheckTimer blk grp s) :=
  .next (h.of_mem (by simp))

theorem State.Canonical.execWaitcTimeout {s : State} (h : s.Canonical) (blk grp : Nat) : Out.Canonical (execWaitcTimeout blk grp s) :=
  .next (h.of_mem (by simp))

theorem State.Canonical.execWaitcSpuriousReturn {s : State} (h : s.Canonical) (blk grp : Nat) : Out.Canonical (execWaitcSpuriousReturn blk grp s) :=
  .next (h.of_mem (by simp))

theorem State.Canonical.execAssistComplete {s : State} (h : s.Canonical) (blk grp : Nat) : Out.Canonical (execAssistComplete blk grp s) :=
  .next (h.of_mem (by simp))

theorem State.Canonical.execSectorEviction {s : State} (h : s.Canonical) (cl sector : Nat) : Out.Canonical (execSectorEviction cl sector s) :=
  .next (MemSys.Canonical.writeBackDrop h _ _)

theorem State.Canonical.execZeroingDone {s : State} (h : s.Canonical) (cl co : Nat) : Out.Canonical (execZeroingDone cl co s) := .next h

theorem State.Canonical.execConfigTableLoad {s : State} (h : s.Canonical) (table : List Byte) : Out.Canonical (execConfigTableLoad table s) :=
  .next h

theorem State.Canonical.execCreateQcb {s : State} (h : s.Canonical) (n : QcbNew) : Out.Canonical (execCreateQcb n s) := .next (h.newQueue _ _)

theorem State.Canonical.execCreateFabricQueue {s : State} (h : s.Canonical) (dq : Nat) (n : QcbNew) : Out.Canonical (execCreateFabricQueue dq n s) :=
  .next (h.newQueue _ _)

/-- Each instruction by the shape that its meaning has, or by the lemma about that meaning above. -/
theorem exec_canonical {s : State} (h : s.Canonical) (i : Instr) : Out.Canonical (exec i s) := by
  cases i
  all_goals dsimp only [exec]
  case nop =>
    dsimp only [execNop]
    exact h.onlyAdvance
  case trap | bkpt =>
    dsimp only [execTrap, execBkpt]
    exact h.trapWord _ _ _
  case halt | eret =>
    dsimp only [execHalt, execEret]
    exact h.illegalWord
  case rdsr | lcyc | perf =>
    dsimp only [execRdsr, execLcyc, execPerf]
    exact .withCur fun _ => h.laneWordVar _ _ _
  case wrsrDsp => exact h.execWrsrDsp _ _
  case wrsrFlg | wrsrFex =>
    dsimp only [execWrsrFlg, execWrsrFex]
    exact h.groupWrite _ _ fun _ _ _ => .next (h.finish _ _ _)
  case yieldW =>
    dsimp only [execYieldW]
    exact .withCur fun _ => .next (h.finish _ _ _)
  case bra | call =>
    dsimp only [execBra, execCall]
    exact h.flowWord _ _ _
  case join => exact h.execJoin _ _
  case ret | jmpi =>
    dsimp only [execRet, execJmpi]
    exact h.jumpWord _ _
  case exitW => exact h.execExitW _
  case elect =>
    dsimp only [execElect]
    exact .withCur fun _ => h.predWord _ _ _
  case regroup => exact h.execRegroup _ _
  case enq => exact h.execEnq _ _
  case widW | bcast | vote | matchL | cxch | qpack =>
    dsimp only [execWidW, execBcast, execVote, execMatchL, execCxch, execQpack]
    exact .withCur fun _ => h.laneWord _ _ _
  case add | sub | adds | subs | neg | abs | min | max | umin | umax | avg | lea | sel | mov | movi | movhi | mul | mulh | umulh | mad | popc |
      clz | ctz | brev | and | or | xor | andn | orn | not | shl | shr | sar | rot | bfx | ubfx | bfi | pack | unpk | pget | qunpk | plane |
      unplane | shfl | shflx =>
    dsimp only [execAdd, execSub, execAdds, execSubs, execNeg, execAbs, execMin, execMax, execUmin, execUmax, execAvg, execLea, execSel, execMov,
      execMovi, execMovhi, execMul, execMulh, execUmulh, execMad, execPopc, execClz, execCtz, execBrev, execAnd, execOr, execXor, execAndn,
      execOrn, execNot, execShl, execShr, execSar, execRot, execBfx, execUbfx, execBfi, execPack, execUnpk, execPget, execQunpk, execPlane,
      execUnplane, execShfl, execShflx, int1, int2, int3]
    exact h.laneWord _ _ _
  case div | udiv | rem | urem =>
    dsimp only [execDiv, execUdiv, execRem, execUrem, int2Var]
    exact h.laneWordVar _ _ _
  case cmp | ucmp | pand | por | pxor | pnot | pmov | pset =>
    dsimp only [execCmp, execUcmp, execPand, execPor, execPxor, execPnot, execPmov, execPset, intCmp]
    exact h.predWord _ _ _
  case fcmp => exact h.execFcmp _ _
  case fadd | fsub | fmul | fma | fmin | fmax | fneg | fabs | fclass | fround | fscale | frcp | frsq | fsqrt | fdiv | fexp2 | flog2 | fsin | fcos |
      ftanh | cvt =>
    dsimp only [execFadd, execFsub, execFmul, execFma, execFmin, execFmax, execFneg, execFabs, execFclass, execFround, execFscale, execFrcp,
      execFrsq, execFsqrt, execFdiv, execFexp2, execFlog2, execFsin, execFcos, execFtanh, execCvt, flt1, flt2]
    exact h.floatWord _ _ _ _
  case redl | scanl =>
    dsimp only [execRedl, execScanl]
    exact .withCur fun _ => h.floatWord _ _ _ _
  case ld | ldc | ldb | lda =>
    dsimp only [execLd, execLdc, execLdb, execLda]
    exact h.loadWord _ _ _ _ _ _ _ _ _
  case pref => exact h.execPref _ _
  case st | stl | stnt | zeroSt =>
    dsimp only [execSt, execStl, execStnt, execZeroSt]
    exact h.storeWord _ _ _ _ _ _
  case atomAdd | atomFadd | atomAnd | atomOr | atomXor | atomMin | atomMax | atomUmin | atomUmax | atomExch | atomCas | atomIncw | redAdd |
      redFadd | redAnd | redOr | redXor | redMin | redMax | redUmin | redUmax =>
    dsimp only [execAtomAdd, execAtomFadd, execAtomAnd, execAtomOr, execAtomXor, execAtomMin, execAtomMax, execAtomUmin, execAtomUmax,
      execAtomExch, execAtomCas, execAtomIncw, execRedAdd, execRedFadd, execRedAnd, execRedOr, execRedXor, execRedMin, execRedMax, execRedUmin,
      execRedUmax, atom2, red2]
    exact h.atomWord _ _ _ _ _ _ _ _ _ _
  case casc | decc =>
    dsimp only [execCasc, execDecc]
    exact h.atomcWord _ _ _ _ _ _ _ _
  case fence => exact h.execFence _ _
  case bar => exact h.execBar _ _
  case waitc => exact h.execWaitc _ _
  case coinit => exact h.execCoinit _ _ _
  case arrive => exact h.execArrive _ _
  case expect => exact h.execExpect _ _ _
  case waitph => exact h.execWaitph _ _
  case inv =>
    dsimp only [execInv]
    exact h.sectorWord _ _ fun _ _ _ hm => hm.writeBackDrop _ _
  case wb =>
    dsimp only [execWb]
    exact h.sectorWord _ _ fun _ _ _ hm => hm.writeBack _ _
  case copy | copym | copys =>
    dsimp only [execCopy, execCopym, execCopys]
    exact h.copyWord _ fun _ _ _ hm => hm.planBox _ _ _ _ _
  case copyg =>
    dsimp only [execCopyg]
    exact h.copyWord _ fun _ _ _ hm => hm.planGlobal _ _ _ _
  case mmaF8e4 | mmaF8e5 | mmaBf16 | mmaF16 | mmaI8 | mmaI4 | mmaI2 | mmaB1 | mmaQc4 =>
    dsimp only [execMmaF8e4, execMmaF8e5, execMmaBf16, execMmaF16, execMmaI8, execMmaI4, execMmaI2, execMmaB1, execMmaQc4, mmaFloat, mmaInt]
    exact h.mmaWord _ _ _ _ _ _ _ _
  case mzero => exact h.execMzero _ _
  case mload | mstore =>
    dsimp only [execMload, execMstore]
    exact h.tileWord _ _ _
  case mfence => exact h.execMfence _ _
  case mwait => exact h.execMwait _ _
  case acwin => exact h.execAcwin _ _
  case tsweep => exact h.execTsweep _ _
  case tsred => exact h.execTsred _ _
  case tag => exact h.execTag _ _
  case mkt => exact h.execMkt _ _
  case deref => exact h.execDeref _ _
  case unify => exact h.execUnify _ _
  case bindT => exact h.execBindT _ _ _
  case halloc => exact h.execHalloc _ _
  case getarg => exact h.execGetarg _ _
  case commit => exact h.execCommit _ _
  case tryM => exact h.execTryM _ _
  case trust => exact h.execTrust _
  case failW => exact h.execFailW _
  case cut => exact h.execCut _ _
  case offer => exact h.execOffer _ _
  case adopt => exact h.execAdopt _ _
  case ovlcfg => exact h.execOvlcfg _ _
  case slotNop | slotMov | slotAdd | slotSub | slotAnd | slotOr | slotXor | slotShl | slotShr | slotSar | slotMin | slotMax | slotNeg | slotNot |
      slotFadd | slotFmul | slotFmin | slotFmax | slotFneg =>
    dsimp only [execSlotNop, execSlotMov, execSlotAdd, execSlotSub, execSlotAnd, execSlotOr, execSlotXor, execSlotShl, execSlotShr, execSlotSar,
      execSlotMin, execSlotMax, execSlotNeg, execSlotNot, execSlotFadd, execSlotFmul, execSlotFmin, execSlotFmax, execSlotFneg]
    exact h.dualWord _ _
  case storeLeaveCore => exact h.execStoreLeaveCore _ _
  case monitorWake => exact h.execMonitorWake _ _
  case waitcRecheckTimer => exact h.execWaitcRecheckTimer _ _
  case waitcTimeout => exact h.execWaitcTimeout _ _
  case waitcSpuriousReturn => exact h.execWaitcSpuriousReturn _ _
  case copySlotGrant => exact h.execCopySlotGrant _ _
  case copyDelivery => exact h.execCopyDelivery _ _
  case mmaComplete => exact h.execMmaComplete _ _
  case batchRetire => exact h.execBatchRetire _ _
  case issueCycle => exact h.execIssueCycle _
  case budgetPeriodStart => exact h.execBudgetPeriodStart _
  case icacheLineArrive => exact h.execIcacheLineArrive _ _
  case tlbWalkComplete => exact h.execTlbWalkComplete _ _
  case sectorEviction => exact h.execSectorEviction _ _
  case assistComplete => exact h.execAssistComplete _ _
  case hostFaultReply => exact h.execHostFaultReply _ _ _
  case debugResume => exact h.execDebugResume _ _
  case preemptOrder => exact h.execPreemptOrder _
  case preemptSave => exact h.execPreemptSave _
  case blockResume => exact h.execBlockResume _
  case zeroingDone => exact h.execZeroingDone _ _
  case kick => exact h.execKick _
  case fetchLaunch => exact h.execFetchLaunch _
  case launchAdmit => exact h.execLaunchAdmit _
  case fetchLaunchx => exact h.execFetchLaunchx _
  case fetchWaitsig => exact h.execFetchWaitsig _
  case waitsigSatisfied => exact h.execWaitsigSatisfied _
  case fetchSignal => exact h.execFetchSignal _
  case fetchNopPacket => exact h.execFetchNopPacket _
  case fetchContreg => exact h.execFetchContreg _
  case contregComplete => exact h.execContregComplete _ _
  case dispatchChunk => exact h.execDispatchChunk _
  case blockPlace => exact h.execBlockPlace _ _
  case coopPlace => exact h.execCoopPlace _
  case workSteal => exact h.execWorkSteal _ _
  case blockEnd => exact h.execBlockEnd _
  case launchComplete => exact h.execLaunchComplete _
  case timesliceExpire => exact h.execTimesliceExpire
  case schedDecision => exact h.execSchedDecision
  case unmapFlushProbeReturn => exact h.execUnmapFlushProbeReturn _
  case queueReset => exact h.execQueueReset _
  case createContext => exact h.execCreateContext _ _ _ _
  case createQcb => exact h.execCreateQcb _
  case createFabricQueue => exact h.execCreateFabricQueue _ _
  case destroyQcb => exact h.execDestroyQcb _
  case setBudgetClass => exact h.execSetBudgetClass _ _ _ _
  case setQuota => exact h.execSetQuota _ _
  case invalidate => exact h.execInvalidate _ _ _
  case teardownAsid => exact h.execTeardownAsid _
  case sramSplitChange => exact h.execSramSplitChange _ _ _
  case specBegin => exact h.execSpecBegin _
  case specTimeout => exact h.execSpecTimeout _
  case sliceWriteTask => exact h.execSliceWriteTask _ _
  case remoteMessageArrive => exact h.execRemoteMessageArrive _
  case remoteAckArrive => exact h.execRemoteAckArrive _ _ _ _
  case flushProbeReturn => exact h.execFlushProbeReturn _ _
  case fabricPhaseQuiet => exact h.execFabricPhaseQuiet _
  case fabricQuiesce => exact h.execFabricQuiesce
  case joinMessage => exact h.execJoinMessage _ _ _
  case startMessage => exact h.execStartMessage _ _
  case abortMessage => exact h.execAbortMessage _ _
  case joinTimeout => exact h.execJoinTimeout _ _
  case hang => exact h.execHang _
  case remoteRecoveryTimeout => exact h.execRemoteRecoveryTimeout _
  case strikeReport => exact h.execStrikeReport _ _ _
  case checkpoint => exact h.execCheckpoint _
  case flitCrcRetry => exact h.execFlitCrcRetry _ _
  case portLaneLoss => exact h.execPortLaneLoss _ _
  case portFail => exact h.execPortFail _
  case portReceiveTimeout => exact h.execPortReceiveTimeout _
  case portReturn => exact h.execPortReturn _
  case coreMarginal => exact h.execCoreMarginal _ _
  case bistEnd => exact h.execBistEnd _ _ _
  case attestationRequest => exact h.execAttestationRequest _
  case coldReset => exact h.execColdReset _
  case deviceReset => exact h.execDeviceReset
  case functionReset => exact h.execFunctionReset _
  case powerCapSet => exact h.execPowerCapSet _
  case throttleStep => exact h.execThrottleStep _ _
  case hostCxlAccess => exact h.execHostCxlAccess _ _
  case uncorrectableError => exact h.execUncorrectableError _
  case fetcherMonitorMatch => exact h.execFetcherMonitorMatch _
  case importTableEntry => exact h.execImportTableEntry _ _ _ _ _
  case configTableLoad => exact h.execConfigTableLoad _
  case recoveryImageLoad => exact h.execRecoveryImageLoad _
  case chipLeavesDomain => exact h.execChipLeavesDomain _
  case variableLatencyResult => exact h.execVariableLatencyResult _ _ _
  case directoryEntryEviction => exact h.execDirectoryEntryEviction _

/-! ### Every event of the part keeps memory canonical -/

/-- An event that leaves memory in its canonical form where it found it so. -/
def Event.Keeps (e : Event) : Prop := ∀ s : State, s.Canonical → Out.Canonical (e s)

/-- Events that all keep memory canonical. -/
def EventsKeep (l : List Event) : Prop := ∀ e ∈ l, Event.Keeps e

theorem EventsKeep.nil : EventsKeep [] := nofun

theorem EventsKeep.cons {e : Event} {l : List Event} (he : Event.Keeps e) (hl : EventsKeep l) : EventsKeep (e :: l) :=
  List.forall_mem_cons.mpr ⟨he, hl⟩

theorem EventsKeep.append {l l' : List Event} (h : EventsKeep l) (h' : EventsKeep l') : EventsKeep (l ++ l') :=
  List.forall_mem_append.mpr ⟨h, h'⟩

theorem EventsKeep.map {α : Type} {f : α → Event} (hf : ∀ a, Event.Keeps (f a)) (l : List α) : EventsKeep (l.map f) :=
  List.forall_mem_map.mpr fun a _ => hf a

theorem EventsKeep.flatMap {α : Type} {f : α → List Event} (hf : ∀ a, EventsKeep (f a)) (l : List α) : EventsKeep (l.flatMap f) := by
  intro e he
  obtain ⟨a, _, ha⟩ := List.mem_flatMap.mp he
  exact hf a e ha

theorem EventsKeep.ite {c : Prop} [Decidable c] {l l' : List Event} (h : EventsKeep l) (h' : EventsKeep l') : EventsKeep (if c then l else l') := by
  split <;> assumption

theorem waitEvents_keep (id gi : Nat) (w : SWait) : EventsKeep (waitEvents id gi w) := by
  unfold waitEvents
  split
  · exact .cons (fun _ h => h.execWaitcRecheckTimer _ _) (.cons (fun _ h => h.execWaitcTimeout _ _)
      (.cons (fun _ h => h.execWaitcSpuriousReturn _ _) .nil))
  · exact .cons (fun _ h => h.execCopySlotGrant _ _) .nil
  · exact .cons (fun _ h => h.execTlbWalkComplete _ _) .nil
  · exact .nil

theorem parkEvents_keep (id gi : Nat) (p : Park) : EventsKeep (parkEvents id gi p) := by
  unfold parkEvents
  split
  · exact .cons (fun _ h => h.execAssistComplete _ _) .nil
  · exact .cons (fun _ h => h.execIcacheLineArrive _ _) .nil
  · exact .nil

theorem groupEvents_keep (id gi : Nat) (g : Group) : EventsKeep (groupEvents id gi g) := by
  refine .append (.append (.append (.append (.append (waitEvents_keep _ _ _) (waitEvents_keep _ _ _)) (parkEvents_keep _ _ _)) (.ite .nil ?_)) ?_)
    (.map (fun r _ h => h.execVariableLatencyResult _ _ r) _)
  · exact .cons (fun _ h => h.execMmaComplete _ _) (.cons (fun _ h => h.execBatchRetire _ _) .nil)
  · exact .cons (fun _ h => .next (h.readAhead _ _)) .nil

theorem State.blockEvents_keep (s : State) : EventsKeep s.blockEvents := by
  refine .flatMap (fun p => .append ?_ (.flatMap (fun g => groupEvents_keep _ _ _) _)) _
  exact .cons (fun _ h => h.execBlockEnd _) (.cons (fun _ h => h.execCheckpoint _) (.cons (fun _ h => h.execPreemptOrder _)
    (.cons (fun _ h => h.execPreemptSave _) .nil)))

theorem State.coreEvents_keep (s : State) : EventsKeep s.coreEvents := by
  refine .append (.append (.map (fun _ _ h => h.execIssueCycle _) _) (.map (fun _ _ h => h.execBudgetPeriodStart _) _)) (.flatMap (fun p => ?_) _)
  refine .append (.append (.ite .nil ?held) (.ite .nil ?zeroing)) (.ite ?leaving (.ite ?marginal .nil))
  case held => exact .cons (fun _ h => h.execStoreLeaveCore _ _) .nil
  case zeroing => exact .cons (fun _ h => h.execZeroingDone _ _) .nil
  case leaving => exact .cons (fun _ h => .next (h.of_mem (by simp))) .nil
  case marginal => exact .cons (fun _ h => h.execCoreMarginal _ _) .nil

theorem State.memEvents_keep (s : State) : EventsKeep s.memEvents := by
  refine .append (.append (.append (.append (.append ?wear (.map (fun _ _ h => h.execMonitorWake _ _) _)) ?copies)
    (.map (fun _ _ h => h.execSectorEviction _ _) _)) ?cocoons) ?tasks
  case wear => exact .cons (fun _ h => .next (h.of_mem (by simp))) .nil
  case copies => exact .flatMap (fun _ => .map (fun _ _ h => h.execCopyDelivery _ _) _) _
  case cocoons => exact .flatMap (fun _ => .map (fun _ _ h => h.execDirectoryEntryEviction _) _) _
  case tasks => exact .flatMap (fun _ => .map (fun _ _ h => h.execSliceWriteTask _ _) _) _

theorem slotEvents_keep (n : Nat) : EventsKeep (slotEvents n) :=
  .cons (fun _ h => h.execFetchLaunch n) (.cons (fun _ h => h.execFetchLaunchx n) (.cons (fun _ h => h.execFetchWaitsig n)
    (.cons (fun _ h => h.execFetchSignal n) (.cons (fun _ h => h.execFetchNopPacket n) (.cons (fun _ h => h.execFetchContreg n)
    (.cons (fun _ h => h.execLaunchAdmit n) (.cons (fun _ h => h.execWaitsigSatisfied n) (.cons (fun _ h => h.execFetcherMonitorMatch n)
    (.cons (fun _ h => h.execUnmapFlushProbeReturn n) (.cons (fun _ h => h.execSpecBegin n) .nil))))))))))

theorem launchEvents_keep (l : Nat) (x : Launch) : EventsKeep (launchEvents l x) := by
  refine .append (.append ?_ (.map (fun _ _ h => h.execBlockPlace _ _) _)) (.ite .nil (.map (fun _ _ h => h.execWorkSteal _ _) _))
  exact .cons (fun _ h => h.execDispatchChunk _) (.cons (fun _ h => h.execCoopPlace _) (.cons (fun _ h => h.execLaunchComplete _)
    (.cons (fun _ h => h.execHang _) (.cons (fun _ h => h.execRemoteRecoveryTimeout _) .nil))))

theorem State.queueEvents_keep (s : State) : EventsKeep s.queueEvents := by
  refine .append (.append (.append (.append (.append (.append (.append (.flatMap (fun _ => slotEvents_keep _) _) ?queues)
    (.map (fun _ _ h => .next (h.sigMatch _)) _)) ?writes) (.flatMap (fun _ => launchEvents_keep _ _) _))
    (.map (fun _ _ h => h.execSpecTimeout _) _)) (.map (fun _ _ h => h.execBlockResume _) _)) ?sched
  case queues =>
    exact .flatMap (fun _ => .append (.ite (.cons (fun _ h => h.execKick _) .nil) .nil) (.ite (.cons (fun _ h => h.execQueueReset _) .nil) .nil)) _
  case writes => exact .flatMap (fun _ => .cons (fun _ h => h.execContregComplete _ _) (.cons (fun _ h => .next (h.runDue _)) .nil)) _
  case sched => exact .cons (fun _ h => h.execTimesliceExpire) (.cons (fun _ h => h.execSchedDecision) .nil)

theorem State.fabricEvents_keep (s : State) : EventsKeep s.fabricEvents := by
  refine .append (.append (.append (.append (.append (.append (.append (.append ?joins
    (.flatMap (fun _ => .map (fun _ _ h => h.execRemoteMessageArrive _) _) _)) (.ite .nil ?drains))
    (.map (fun _ _ h => h.execFlushProbeReturn _ _) _)) (.ite .nil ?f4)) ?ports) (.map (fun _ _ h => h.execInvalidate _ _ _) _)) (.map (fun _ _ h => h.execTeardownAsid _) _)) (.ite ?reset .nil)
  case joins =>
    exact .flatMap (fun _ => .cons (fun _ h => h.execJoinMessage _ _ _) (.cons (fun _ h => h.execStartMessage _ _)
      (.cons (fun _ h => h.execAbortMessage _ _) (.cons (fun _ h => h.execJoinTimeout _ _) .nil)))) _
  case drains => exact .cons (fun _ h => .next (h.of_mem (by simp))) (.cons (fun _ h => h.execFabricPhaseQuiet _) .nil)
  case f4 => exact .cons (fun _ h => .next (h.of_mem (by simp))) .nil
  case ports =>
    exact .flatMap (fun _ => .cons (fun _ h => h.execPortFail _) (.cons (fun _ h => h.execPortReceiveTimeout _)
      (.cons (fun _ h => h.execPortReturn _) .nil))) _
  case reset => exact .cons (fun _ h => .next h.endReset) .nil

theorem State.events_keep (s : State) : EventsKeep s.events :=
  .append (.append (.append (.append s.coreEvents_keep s.blockEvents_keep) s.memEvents_keep) s.queueEvents_keep) s.fabricEvents_keep

theorem State.ownEvent_keeps {s : State} {e : Event} (he : s.ownEvent = some e) : Event.Keeps e :=
  s.events_keep e (List.mem_of_getElem? he)

/-! ### Every step keeps memory canonical -/

theorem State.Canonical.faultWord {s : State} (h : s.Canonical) (f : Focus) (x : FaultInfo) : (s.faultWord f x).Canonical := by
  unfold State.faultWord
  split
  · exact h.takeFault _ _
  · exact h

theorem Out.Canonical.afterWord {r : Out} (h : Out.Canonical r) {k : State → State} (hk : ∀ t, t.Canonical → (k t).Canonical) :
    Out.Canonical (afterWord r k) := by
  cases r with
  | next t => exact .next (hk t (h t rfl))
  | _ => nofun

theorem State.Canonical.endWord {s : State} (h : s.Canonical) (f : Focus) (cl : Nat) (issued : Bool) (w : W64) :
    (s.endWord f cl issued w).Canonical :=
  h.of_mem (by simp)

/-- An event of the part's own, an input, or the word in focus between its begin and its end. -/
theorem step_canonical {s : State} (h : s.Canonical) : Out.Canonical (step s) := by
  unfold step
  split
  · split
    · next e he => exact State.ownEvent_keeps he s.ticked h
    · have hd : s.ticked.dropInput.Canonical := h
      split
      · exact exec_canonical hd _
      · exact .next hd
  · split
    · exact .next h
    · next q w x _ => exact .next (State.Canonical.endWord (State.Canonical.faultWord (h.of_mem (State.beginWord_mem _ _)) _ _) _ _ _ _)
    · next q w i _ => exact (exec_canonical (h.of_mem (State.beginWord_mem _ _)) i).afterWord fun _ ht => ht.endWord _ _ _ _

/-- Settles O60: every meaning and every event leaves memory in its canonical form, since each is composed of the operations over memory at its
home, which do. -/
theorem memoryCanonical : Obligations.MemoryCanonical := fun s t h e => step_canonical (s := s) h t e

end Sys2Proof.Machine
end

section
/-! PROOF of O10 and O11, of the words that read and write special registers, and the refutation of O27: a REGROUP that a group
alone passes changes more of it than the statement allows. -/

namespace Sys2Proof.Machine

/-! ### Words that only end -/

/-- What the end of a word keeps of a group whose scoreboard and flags the word has set. -/
theorem Group.FlowOf.keeps {g h : Group} {sb : W64} {fl : Flags} (hf : ({ g with sb := sb, flg := fl } : Group).FlowOf h) :
    g.restIs h sb fl ∧ g.sameLatches h ∧ h.lanes = g.lanes := by
  obtain ⟨a, b, t, w, rfl, hw⟩ := hf
  exact ⟨⟨rfl, hw⟩, ⟨rfl, rfl, rfl, rfl⟩, rfl⟩

/-- What the end of a word keeps of a group that has yielded. -/
theorem Group.FlowOf.keeps_yielded {g h : Group} {y : Bool} (hf : ({ g with yielded := y } : Group).FlowOf h) :
    h.yielded = y ∧ g.restIs { h with yielded := g.yielded } g.sb g.flg ∧ g.sameLatches h ∧ h.lanes = g.lanes := by
  obtain ⟨a, b, t, w, rfl, hw⟩ := hf
  exact ⟨rfl, ⟨rfl, hw⟩, ⟨rfl, rfl, rfl, rfl⟩, rfl⟩

/-- What the end of a word keeps of a group whose fail exit the word has set. -/
theorem Group.FlowOf.keeps_fex {g h : Group} {v : BitVec 32} (hf : ({ g with fex := v } : Group).FlowOf h) :
    h.fex = v ∧ g.restIs { h with fex := g.fex } g.sb g.flg ∧ g.sameLatches h ∧ h.lanes = g.lanes := by
  obtain ⟨a, b, t, w, rfl, hw⟩ := hf
  exact ⟨rfl, ⟨rfl, hw⟩, ⟨rfl, rfl, rfl, rfl⟩, rfl⟩

/-- What the end of a word keeps of the bounds of a group's stack, and its lanes. -/
theorem Group.FlowOf.keeps_bounds {g h : Group} (hf : g.FlowOf h) : h.dspFloor = g.dspFloor ∧ h.dspCeil = g.dspCeil ∧ h.lanes = g.lanes := by
  obtain ⟨a, b, t, w, rfl, -⟩ := hf
  exact ⟨rfl, rfl, rfl⟩

theorem withCur_of_cur {s : State} {q : Cur} (h : s.cur? = some q) (k : Cur → Out) : withCur s k = k q := by
  unfold withCur
  rw [h]

/-- A word that ends with its group as it was has only passed. -/
theorem passes_of_finish {s : State} {i : Instr} {q : Cur} (e : exec i s = .next (s.finish q q.blk.st q.grp)) : Passes s i q :=
  ⟨_, e, (finish_flow q.blk.st q.grp q.slot).keeps⟩

theorem passes_onlyAdvance {s : State} {i : Instr} {q : Cur} (e : exec i s = onlyAdvance s) (h : s.cur? = some q) : Passes s i q :=
  passes_of_finish (e.trans (withCur_of_cur h _))

/-! ### What the special registers read (01 R29, R19, R27; 08 R221, R253) -/

theorem Group.lt_32_of_runs {g : Group} {slot : Bool} {c : Ctl} {k : Nat} (h : g.runs slot c k = true) : k < 32 := by
  simp only [Group.runs, Group.inEntry, Bool.and_eq_true] at h
  exact BitVec.lt_of_getLsbD h.1.1

/-- A bit of a field of a work identifier (01 R15). -/
theorem widField_bit (b : Block) (l : Lane) (f i : Nat) (hi : i < 64) :
    (widField b l f).getLsbD i =
      (decide (f < b.nf) && decide (i < b.widths.getD f 0) && l.wid.getLsbD ((b.widths.take f).sum + i)) := by
  unfold widField
  split
  · next hf => rw [BitVec.getLsbD_and, BitVec.getLsbD_ushiftRight, ones_bit _ _ hi, decide_eq_true hf, Bool.true_and, Bool.and_comm, widBase]
  · next hf => simp [hf]

theorem Group.dsp_halves (g : Group) : g.dsp.extractLsb' 32 32 = g.dspFloor ∧ g.dsp.extractLsb' 0 32 = g.dspTop :=
  ⟨BitVec.extractLsb'_append_eq_left, BitVec.extractLsb'_append_eq_right⟩

theorem Block.scb_fields (b : Block) :
    b.scb.extractLsb' 32 32 = BitVec.ofNat 32 b.scratchSize ∧ b.scb.extractLsb' 0 21 = b.scbOffset ∧ b.scb.extractLsb' 21 11 = 0 := by
  unfold Block.scb
  refine ⟨?_, BitVec.extractLsb'_append_eq_right, ?_⟩
  · rw [BitVec.extractLsb'_append_eq_of_le (by decide)]
    exact BitVec.extractLsb'_append_eq_left
  · rw [BitVec.extractLsb'_append_eq_of_le (by decide)]
    exact BitVec.extractLsb'_append_eq_right

/-! ### Prefetches (06 R153) -/

/-- What prefetches into a target can do to a state `s`: of the cluster's cache they fill sectors that it did not hold, and nothing with the
no-allocate hint. -/
structure Prefetched (s : State) (cl : Nat) (tg : PrefTarget) (keep : Bool) (t : State) : Prop where
  rest : { t with ms := s.ms, free := s.free } = s
  mem : t.ms.mem = s.ms.mem
  poison : t.ms.poison = s.ms.poison
  cc : ∀ x, t.ms.cc.get? x = s.ms.cc.get? x ∨ (tg = .cc ∧ keep = true ∧ s.ms.cc.get? x = none ∧
    ∃ sector, x = ccKey cl sector ∧ t.ms.cc.get? x = some (s.ms.fill sector))
  icache : tg ≠ .icache → t.ms.icache = s.ms.icache

theorem Prefetched.refl (s : State) (cl : Nat) (tg : PrefTarget) (keep : Bool) : Prefetched s cl tg keep s :=
  ⟨rfl, rfl, rfl, fun _ => .inl rfl, fun _ => rfl⟩

theorem MemSys.fill_congr {m n : MemSys} (hm : m.mem = n.mem) (hp : m.poison = n.poison) (sector : Nat) : m.fill sector = n.fill sector := by
  unfold MemSys.fill
  rw [hm, hp]

/-- A sector that the cluster does not hold is filled. -/
theorem Prefetched.ccFill {s t : State} {cl : Nat} {tg : PrefTarget} {keep : Bool} (h : Prefetched s cl tg keep t) (htg : tg = .cc)
    (hk : keep = true) (sector : Nat) (hn : t.ms.cc.get? (ccKey cl sector) = none) :
    Prefetched s cl tg keep { t with ms := t.ms.ccPut cl sector (t.ms.fill sector) } := by
  refine ⟨h.rest, h.mem, h.poison, fun x => ?_, h.icache⟩
  show KMap.get? (t.ms.cc.put (ccKey cl sector) (t.ms.fill sector)) x = _ ∨ _ ∧ _ ∧ _ ∧ ∃ n, _ ∧ KMap.get? (t.ms.cc.put _ _) x = _
  by_cases hx : x = ccKey cl sector
  · subst hx
    refine .inr ⟨htg, hk, ?_, sector, rfl, ?_⟩
    · rcases h.cc (ccKey cl sector) with e | ⟨-, -, e, -⟩
      · rw [← e, hn]
      · exact e
    · rw [KMap.get?_put_self, MemSys.fill_congr h.mem h.poison]
  · rw [KMap.get?_put_ne _ _ _ _ hx]
    exact h.cc x

/-- A line goes into the instruction cache. -/
theorem Prefetched.icFill {s t : State} {cl : Nat} {tg : PrefTarget} {keep : Bool} (h : Prefetched s cl tg keep t) (htg : tg = .icache)
    (asid : Nat) (pc : BitVec 57) (pa : Nat) : Prefetched s cl tg keep (t.icFill cl asid pc pa) :=
  ⟨h.rest, h.mem, h.poison, h.cc, fun hn => absurd htg hn⟩

theorem Prefetched.ite {s t u : State} {cl : Nat} {tg : PrefTarget} {keep : Bool} {p : Prop} [Decidable p] (ht : Prefetched s cl tg keep t)
    (hu : ¬ p → Prefetched s cl tg keep u) : Prefetched s cl tg keep (if p then t else u) := by
  split
  · exact ht
  · next hp => exact hu hp

theorem Prefetched.prefetch {s t : State} {q : Cur} {tg : PrefTarget} {keep : Bool} (h : Prefetched s q.blk.cl tg keep t) (ea : W64) :
    Prefetched s q.blk.cl tg keep (t.prefetch q tg keep ea) := by
  unfold State.prefetch
  split
  · exact h
  · refine .ite h fun _ => ?_
    cases tg with
    | l2 => exact h
    | cc =>
      refine .ite h fun hc => ?_
      simp only [Bool.or_eq_true, not_or, Bool.not_eq_true, Bool.not_eq_false', Option.isSome_eq_false_iff, Option.isNone_iff_eq_none] at hc
      obtain ⟨⟨⟨⟨hk, -⟩, hn⟩, -⟩, -⟩ := hc
      exact h.ccFill rfl hk _ hn
    | icache => exact .ite h fun _ => h.icFill rfl _ _ _

theorem Prefetched.foldl {s t : State} {q : Cur} {tg : PrefTarget} {keep : Bool} (h : Prefetched s q.blk.cl tg keep t) (ea : Nat → W64)
    (l : List Nat) : Prefetched s q.blk.cl tg keep (l.foldl (fun a k => a.prefetch q tg keep (ea k)) t) := by
  induction l generalizing t with
  | nil => exact h
  | cons k l ih => exact ih (h.prefetch (ea k))

/-- A word that has changed only the memory system and taken free values ends: no other group and no act of a core has changed. -/
theorem frame_finish {s t : State} {q : Cur} (h : s.cur? = some q) (ht : { t with ms := s.ms, free := s.free } = s) :
    Frame s (t.finish q q.blk.st q.grp) q { q.blk with st := q.blk.st.setGroup q.gi (settle q.blk.st (q.grp.advance q.slot)) }
      (settle q.blk.st (q.grp.advance q.slot)) false ∧ Holds s (t.finish q q.blk.st q.grp) q [] := by
  obtain ⟨-, -, hg⟩ := cur_spec h
  have hb : t.blocks = s.blocks := (congrArg State.blocks ht :)
  have hc : t.cores = s.cores := (congrArg State.cores ht :)
  refine ⟨⟨?blk, ?grp, fun j hj => .inl ?peers, fun id hid => ?others, ?state, rfl, fun _ => ⟨rfl, rfl⟩, rfl,
    [], ?cross, .inl rfl⟩, ?core, fun k _ => ?cores⟩
  case blk => simp
  case grp => exact List.getElem?_set_self (List.getElem?_eq_some_iff.mp hg).1
  case peers => exact List.getElem?_set_ne (Ne.symm hj)
  case others => rw [State.finish_blocks, KMap.get?_put_ne _ _ _ _ hid, hb]
  case state => rw [← hb, ← hc]; exact ht
  case cross => simp [BlkState.setGroup]
  case core => simp [State.core, hc]
  case cores => rw [State.finish_cores, hc]

/-- Everything a PREF can do. -/
theorem execPref_next {s : State} {q : Cur} (h : s.cur? = some q) (c : Ctl) (o : MPref) :
    ∃ t, exec (.pref c o) s = .next (t.finish q q.blk.st q.grp) ∧ Prefetched s q.blk.cl o.tg (o.ch != .noalloc) t :=
  ⟨_, withCur_of_cur h _, (Prefetched.refl s _ _ _).foldl (fun k => eaM q.grp o.a o.off 1 k) _⟩

/-! ### Special registers, counters and the words that leave data alone -/

theorem rdsr_computesVar {s : State} {q : Cur} (h : s.cur? = some q) (c : Ctl) (d : Dst) (n : SReg) {P : Nat → W64 → Prop}
    (hP : ∀ k < 32, P k (srValue q.blk q.gi q.grp n k)) : ComputesVar s (.rdsr c d n) q c d.r (fun _ => false) P :=
  computesVar_laneWordVar (f := fun g k => (srValue q.blk q.gi g n k, false)) (withCur_of_cur h _) h (fun _ => rfl)
    fun k hk => hP k (Group.lt_32_of_runs hk)

/-- Settles O10: the words that write a register are lane words, PREF is a fold of prefetches, and NOP and YIELD only end. -/
theorem specialReads : Obligations.SpecialReads := by
  refine ⟨fun s q c d n h => ?rdsr, fun s q c d h => ⟨?lcyc, fun n => ?perf, fun f => ?wid⟩, fun s q c h => ⟨?nop, fun o => ?pref, ?yield⟩⟩
  case rdsr =>
    refine rdsr_computesVar h c d n fun k hk => ?_
    cases n with
    | lane => exact Nat.mod_eq_of_lt (by omega)
    | scb => exact q.blk.scb_fields
    | dsp => exact q.grp.dsp_halves
    | acb | acl | bcnt | flg | fex | tix0 | tix1 | tix2 | tix3 | tix4 => exact BitVec.toNat_setWidth_of_le (by decide)
    | _ => rfl
  case lcyc => exact computesVar_laneWordVar (withCur_of_cur h _) h (fun _ => rfl) fun _ _ => rfl
  case perf => exact computesVar_laneWordVar (withCur_of_cur h _) h (fun _ => rfl) fun _ _ => rfl
  case wid => exact computes_laneWord (withCur_of_cur h _) h (fun _ => rfl) fun k _ i hi => widField_bit q.blk (q.grp.lane k) f.toNat i hi
  case nop => exact passes_onlyAdvance rfl h
  case pref =>
    obtain ⟨t, e, ht⟩ := execPref_next h c o
    obtain ⟨hf, hh⟩ := frame_finish h ht.rest
    obtain ⟨hr, hl, hn⟩ := (finish_flow q.blk.st q.grp q.slot).keeps
    exact ⟨_, _, _, e, hf, hh, ht.mem, hr, hl, hn, fun x => (ht.cc x).imp_right fun ⟨htg, hk, hx⟩ => ⟨htg, by simpa using hk, hx⟩, ht.icache⟩
  case yield =>
    exact ⟨_, withCur_of_cur h _, (finish_flow q.blk.st { q.grp with yielded := true } q.slot).keeps_yielded⟩

/-! ### Writes of special registers (01 R19, R24, R25) -/

theorem exec_wrsrFlg (c : Ctl) (a : Opnd) (s : State) : exec (.wrsrFlg c a) s = execWrsrFlg c a s := rfl

theorem exec_wrsrFex (c : Ctl) (a : Opnd) (s : State) : exec (.wrsrFex c a) s = execWrsrFex c a s := rfl

theorem exec_wrsrDsp (c : Ctl) (a : Opnd) (s : State) : exec (.wrsrDsp c a) s = execWrsrDsp c a s := rfl

section
variable {s : State} {q : Cur} {c : Ctl} {a : Opnd} {f : Cur → Nat → W64 → Out} {i : Instr}
variable (h : s.cur? = some q) (e : exec i s = groupWrite s c a f)
include h e

/-- With no executing lane a write of group state only ends. -/
theorem passes_groupWrite (hn : q.active c = []) : Passes s i q := by
  refine passes_of_finish (e.trans ?_)
  unfold groupWrite
  rw [withCur_of_cur h, hn]

/-- A write of group state takes its value from the lowest executing lane. -/
theorem groupWrite_lowest {k : Nat} {l : List Nat} (hk : q.active c = k :: l) :
    exec i s = f q k (q.grp.opnd (.int .i64 false) a k) := by
  rw [e]
  unfold groupWrite
  rw [withCur_of_cur h, hk]
  rfl

end

/-- Moving the stack changes of the block only bytes of scratch. -/
theorem moveStack_groups (st : BlkState) (g : Group) (v : W64) : (moveStack st g v).1.groups = st.groups := by
  unfold moveStack
  dsimp only
  split <;> rfl

/-- The scratchpad after the stack moved: its entries, as bytes, at the new TOP. -/
theorem moveStack_scratch (st : BlkState) (g : Group) (v : W64) :
    (moveStack st g v).1.scratch =
      st.scratch.setBytes (v.extractLsb' 0 32).toNat (st.scratch.bytes g.dspTop.toNat (16 * g.depth)) := by
  unfold moveStack
  dsimp only
  split
  · next hn => rw [hn]; rfl
  · rfl

theorem moveStack_byte_in (st : BlkState) (g : Group) (v : W64) {i : Nat} (hi : i < 16 * g.depth) :
    (moveStack st g v).1.scratch.byte ((v.extractLsb' 0 32).toNat + i) = st.scratch.byte (g.dspTop.toNat + i) := by
  rw [moveStack_scratch, Mem.byte_setBytes_in _ _ _ _ (by simpa using hi), Mem.getElem_bytes]

theorem moveStack_byte_out (st : BlkState) (g : Group) (v : W64) {i : Nat}
    (hi : i < (v.extractLsb' 0 32).toNat ∨ (v.extractLsb' 0 32).toNat + 16 * g.depth ≤ i) :
    (moveStack st g v).1.scratch.byte i = st.scratch.byte i := by
  rw [moveStack_scratch, Mem.byte_setBytes_out _ _ _ _ (by simpa using hi)]

/-- The ceiling of a moved stack. -/
theorem moveStack_ceil (st : BlkState) (g : Group) (v : W64) :
    (moveStack st g v).2.dspCeil = BitVec.ofNat 32 ((v.extractLsb' 0 32).toNat + 16 * g.depth) := by
  rw [BitVec.ofNat_add, BitVec.ofNat_toNat, BitVec.setWidth_eq]
  rfl

/-- Settles O11: a write of FLG or FEX is a change of one field before the word ends; the three cases of DSP are the branches of the word, and the
moved stack is read back byte by byte. -/
theorem specialWrites : Obligations.SpecialWrites := by
  refine ⟨fun s q c a h => ⟨fun hn => ?none, fun k l hk => ⟨?flg, ?fex⟩⟩, fun s q c a k l h hk => ?dsp⟩
  case none => exact ⟨passes_groupWrite h (exec_wrsrFlg c a s) hn, passes_groupWrite h (exec_wrsrFex c a s) hn, passes_groupWrite h (exec_wrsrDsp c a s) hn⟩
  case flg =>
    have e := groupWrite_lowest h (exec_wrsrFlg c a s) hk
    exact ⟨_, e, (finish_flow q.blk.st { q.grp with flg := _ } q.slot).keeps⟩
  case fex =>
    have e := groupWrite_lowest h (exec_wrsrFex c a s) hk
    exact ⟨_, e, (finish_flow q.blk.st { q.grp with fex := _ } q.slot).keeps_fex⟩
  case dsp =>
    extract_lets v floor top n ok
    have e := groupWrite_lowest h (exec_wrsrDsp c a s) hk
    have hbad : ¬ ok ↔ floor % 16 ≠ 0 ∨ top % 16 ≠ 0 ∨ top < floor := by omega
    refine ⟨fun hb => ?misaligned, fun hok hn => ?beyond, fun hok hn => ?moves⟩
    case misaligned => exact e.trans (if_pos (hbad.mp hb))
    case beyond => exact e.trans ((if_neg fun hb => hbad.mpr hb hok).trans (if_pos hn))
    case moves =>
      obtain ⟨hfl, hce, hla⟩ := (finish_flow (moveStack q.blk.st q.grp v).1 (moveStack q.blk.st q.grp v).2 q.slot).keeps_bounds
      refine ⟨(moveStack q.blk.st q.grp v).1, _,
        e.trans ((if_neg fun hb => hbad.mpr hb hok).trans (if_neg (Nat.not_lt.mpr hn))), congrArg BitVec.toNat hfl, ?_, hla,
        moveStack_groups _ _ _, fun i hi => moveStack_byte_in _ _ _ hi, fun i hi => moveStack_byte_out _ _ _ hi⟩
      rw [hce, moveStack_ceil]

/-! ### A REGROUP of a group alone (08 R226) -/

theorem Group.restIs.acqAt_eq {g h : Group} {sb : W64} {fl : Flags} (hr : g.restIs h sb fl) : h.acqAt = g.acqAt :=
  (congrArg Group.acqAt hr.1 :)

/-- The group in focus, read back after it changed. -/
theorem grpAt_putGrp {s : State} {q : Cur} (h : s.cur? = some q) (g : Group) : (s.putGrp q g).grpAt q = some g := by
  obtain ⟨-, -, hg⟩ := cur_spec h
  unfold State.grpAt
  rw [State.putGrp_blocks, KMap.get?_put_self]
  exact List.getElem?_set_self (List.getElem?_eq_some_iff.mp hg).1

/-- The group of a word in the state that the word answers. -/
def groupAfter (r : Out) (q : Cur) : Option Group :=
  match r with
  | .next t => t.grpAt q
  | _ => none

/-- A block of one group of 32 lanes in one entry, a word in focus, at local cycle 1 of its cluster. -/
def aloneState : State := (State.reset.withFetchWord 64 0).setCluster 0 { ClusterState.init with clk := 1 }

/-- Its group in focus. -/
def aloneCur : Cur := aloneState.cur?.getD ⟨0, Block.placed, 0, Group.fresh 16384 0 0 0 [], false⟩

/-- A REGROUP without guards. -/
def aloneCtl : Ctl := ⟨7, false, 7, false, 0, false⟩

theorem aloneState_cur : aloneState.cur? = some aloneCur := rfl

/-- The group meets what the statement asks of a group alone at its REGROUP. -/
theorem aloneCur_passes :
    aloneCur.active aloneCtl ≠ [] ∧ aloneCur.blk.stopping = .none ∧ aloneCur.grp.retired = false ∧ aloneCur.grp.live = aloneCur.mask ∧
      (∀ k < 32, aloneCur.mask.getLsbD k = true → aloneCur.grp.runs aloneCur.slot aloneCtl k = true) ∧
      (aloneCur.grp.pcSlot !aloneCur.slot).e.mask = 0 ∧ aloneCur.grp.depth = 0 := by
  decide

/-- No other group is in its block. -/
theorem aloneCur_groups : aloneCur.gi = 0 ∧ aloneCur.blk.st.groups.length = 1 := by
  decide

/-- Passing at once is an act after which the group may know of others' stores: it records the local cycle (11 R293), here 1, where the group
held 0. -/
theorem aloneCur_acqAt :
    aloneCur.grp.acqAt = 0 ∧
      (groupAfter (exec (.regroup aloneCtl ⟨.zero, .whole⟩) aloneState) aloneCur).map Group.acqAt = some 1 := by
  decide

/-- Refutes O27: a group alone passes its REGROUP at once, but `State.regroupNow` also lets every group of the block know of others' stores
(`BlkState.knows`), so the group's `acqAt` becomes the local cycle. The statement's third clause leaves no field but the wait and its mask to
change. -/
theorem not_regroup : ¬ Obligations.Regroup := by
  unfold Obligations.Regroup
  intro hall
  obtain ⟨-, -, halone, -⟩ := hall aloneState aloneCur aloneCtl ⟨.zero, .whole⟩ aloneState_cur
  obtain ⟨hact, hstop, hret, hlive, hruns, hslot, hdepth⟩ := aloneCur_passes
  obtain ⟨hgi, hlen⟩ := aloneCur_groups
  obtain ⟨hbefore, hafter⟩ := aloneCur_acqAt
  have hothers : ∀ j g, j ≠ aloneCur.gi → aloneCur.blk.st.groups[j]? = some g → aloneCur.blk.coreOf j = aloneCur.co → g.retired = true := by
    intro j g hj hg
    obtain ⟨hlt, -⟩ := List.getElem?_eq_some_iff.mp hg
    omega
  obtain ⟨h, hexec, -, -, -, hrest, -⟩ := halone hact hstop hret hlive hruns hslot hdepth hothers
  have hkept : h.acqAt = aloneCur.grp.acqAt := hrest.acqAt_eq
  rw [hexec, groupAfter, grpAt_putGrp aloneState_cur, Option.map_some, hkept, hbefore] at hafter
  cases hafter

end Sys2Proof.Machine
end

section
/-! PROOF of O59, that the decoder and the encoder give back what the other gave. Each field's codes, each record's layout and the two forms of a
word are read back once; a row of the opcode map is then one line. -/

-- One theorem at a time: the threads of theorems that wait for the kernel would not fit into the memory that the check allows.
set_option Elab.async false

namespace Sys2Proof

/-! ### Codes of fields -/

/-- `of` reads the codes of the values that `ok` admits, and nothing else. -/
def Codes {n : Nat} {α : Type} (ok : α → Bool) (of : BitVec n → Option α) (code : α → BitVec n) : Prop :=
  ∀ c x, of c = some x ↔ ok x = true ∧ code x = c

/-- A field whose values are all admitted. -/
def allOk {α : Type} (_ : α) : Bool := true

section
variable {n : Nat} {α : Type} {ok : α → Bool} {of : BitVec n → Option α} {code : α → BitVec n}

/-- The code of an admitted value reads as the value. -/
theorem Codes.of_code (h : Codes ok of code) {x : α} (k : ok x = true) : of (code x) = some x := (h _ _).mpr ⟨k, rfl⟩

/-- A field read by two tables, from codes to values and back. -/
theorem Codes.of_tables (back : ∀ x, ok x = true → of (code x) = some x) (forth : ∀ c, ∀ x ∈ of c, ok x = true ∧ code x = c) :
    Codes ok of code := fun c x => ⟨forth c x, fun ⟨k, e⟩ => e ▸ back x k⟩

end

theorem Src.codes : Codes allOk Src.ofCode Src.code := by
  refine .of_tables ?_ (by decide)
  intro x _
  cases x with
  | reg r => revert r; decide
  | latch n => revert n; decide
  | imm k => revert k; decide
  | zero | lane | ones => rfl

theorem IType.codes4 : Codes allOk IType.upTo4 IType.code := .of_tables (by rintro ⟨⟩ <;> decide) (by decide)
theorem IType.codes3 : Codes IType.ok3 IType.upTo3 IType.code := .of_tables (by rintro ⟨⟩ <;> decide) (by decide)
theorem IType.codes1 : Codes IType.ok1 IType.upTo1 IType.code := .of_tables (by rintro ⟨⟩ <;> decide) (by decide)
theorem FType.codes5 : Codes allOk FType.upTo5 FType.code := .of_tables (by rintro ⟨⟩ <;> decide) (by decide)
theorem FType.codes3 : Codes FType.ok3 FType.upTo3 FType.code := .of_tables (by rintro ⟨⟩ <;> decide) (by decide)
theorem FType.codes13 : Codes FType.ok13 FType.oneTo3 FType.code := .of_tables (by rintro ⟨⟩ <;> decide) (by decide)
theorem Size.codes5 : Codes allOk Size.upTo5 Size.code := .of_tables (by rintro ⟨⟩ <;> decide) (by decide)
theorem Size.codes3 : Codes Size.ok3 Size.upTo3 Size.code := .of_tables (by rintro ⟨⟩ <;> decide) (by decide)
theorem Size.codesAtom : Codes Size.okAtom Size.atomic Size.code := .of_tables (by rintro ⟨⟩ <;> decide) (by decide)
theorem Cond.codes : Codes allOk Cond.ofCode Cond.code := .of_tables (by rintro ⟨⟩ <;> decide) (by decide)
theorem FCond.codes : Codes allOk FCond.ofCode FCond.code := .of_tables (by rintro ⟨⟩ <;> decide) (by decide)
theorem WCond.codes : Codes allOk (fun c : BitVec 7 => WCond.ofCode c.toNat) WCond.code :=
  .of_tables (by rintro ⟨⟩ <;> decide) (by decide)
theorem AScope.codes : Codes allOk AScope.ofCode AScope.code := .of_tables (by rintro ⟨⟩ <;> decide) (by decide)
theorem SScope.codes : Codes allOk SScope.ofCode SScope.code := .of_tables (by rintro ⟨⟩ <;> decide) (by decide)
theorem CFmt.codes : Codes allOk CFmt.ofCode CFmt.code := .of_tables (by rintro ⟨⟩ <;> decide) (by decide)
theorem SReg.codes : Codes allOk SReg.ofNum SReg.num := .of_tables (by rintro ⟨⟩ <;> decide) (by decide)
theorem Counter.codes : Codes allOk Counter.ofNum Counter.num := .of_tables (by rintro ⟨⟩ <;> decide) (by decide)
theorem SweepOp.codes : Codes allOk SweepOp.ofCode SweepOp.code := .of_tables (by rintro ⟨⟩ <;> decide) (by decide)
theorem RedOp.codes : Codes allOk RedOp.ofCode RedOp.code := .of_tables (by rintro ⟨⟩ <;> decide) (by decide)
theorem TileFmt.codes : Codes allOk TileFmt.ofCode TileFmt.code := .of_tables (by rintro ⟨⟩ <;> decide) (by decide)
theorem PPair.codes : Codes allOk PPair.ofCode PPair.code := .of_tables (by rintro ⟨⟩ <;> decide) (by decide)
theorem Slice.codes : Codes allOk Slice.ofCode Slice.code := .of_tables (by rintro ⟨⟩ <;> decide) (by decide)
theorem UnpkSel.codes : Codes allOk UnpkSel.ofCode UnpkSel.code := .of_tables (by rintro ⟨⟩ <;> decide) (by decide)
theorem PrefTarget.codes : Codes allOk PrefTarget.ofCode PrefTarget.code := .of_tables (by rintro ⟨⟩ <;> decide) (by decide)
theorem SIOp.codes : Codes allOk SIOp.ofCode SIOp.code := .of_tables (by rintro ⟨⟩ <;> decide) (by decide)
theorem SFOp.codes : Codes allOk SFOp.ofCode SFOp.code := .of_tables (by rintro ⟨⟩ <;> decide) (by decide)

@[simp] theorem flag_zero : flag 0#1 = false := rfl
@[simp] theorem bit_false : bit false = 0#1 := rfl
@[simp] theorem bit_flag (b : BitVec 1) : bit (flag b) = b := by revert b; decide
@[simp] theorem flag_bit (b : Bool) : flag (bit b) = b := by cases b <;> rfl
@[simp] theorem Md.code_ofCode (c : BitVec 2) : (Md.ofCode c).code = c := by revert c; decide
@[simp] theorem Md.ofCode_code (x : Md) : Md.ofCode x.code = x := by cases x <;> rfl
@[simp] theorem Order.code_ofCode (c : BitVec 2) : (Order.ofCode c).code = c := by revert c; decide
@[simp] theorem Order.ofCode_code (x : Order) : Order.ofCode x.code = x := by cases x <;> rfl
@[simp] theorem Hint.code_ofCode (c : BitVec 2) : (Hint.ofCode c).code = c := by revert c; decide
@[simp] theorem Hint.ofCode_code (x : Hint) : Hint.ofCode x.code = x := by cases x <;> rfl
@[simp] theorem RMode.code_ofCode (c : BitVec 2) : (RMode.ofCode c).code = c := by revert c; decide
@[simp] theorem RMode.ofCode_code (x : RMode) : RMode.ofCode x.code = x := by cases x <;> rfl
@[simp] theorem AFmt.code_ofCode (c : BitVec 2) : (AFmt.ofCode c).code = c := by revert c; decide
@[simp] theorem AFmt.ofCode_code (x : AFmt) : AFmt.ofCode x.code = x := by cases x <;> rfl

theorem Opnd.ofCodes_eq_some {s : BitVec 7} {m : BitVec 2} {o : Opnd} :
    Opnd.ofCodes s m = some o ↔ o.src.code = s ∧ o.md.code = m := by
  obtain ⟨x, d⟩ := o
  simp only [Opnd.ofCodes, Option.map_eq_some_iff, Src.codes _ _, allOk, true_and, Opnd.mk.injEq]
  constructor
  · rintro ⟨a, e, rfl, rfl⟩
    exact ⟨e, Md.code_ofCode m⟩
  · rintro ⟨e, rfl⟩
    exact ⟨x, e, rfl, Md.ofCode_code d⟩

@[simp] theorem Opnd.ofCodes_code (o : Opnd) : Opnd.ofCodes o.src.code o.md.code = some o := Opnd.ofCodes_eq_some.mpr ⟨rfl, rfl⟩

theorem srcPlain_eq_some {s : BitVec 7} {m : BitVec 2} {x : Src} : srcPlain s m = some x ↔ x.code = s ∧ m = 0 := by
  by_cases h : m = 0
  · simp only [srcPlain, h, if_true, and_true, Src.codes _ _, allOk, true_and]
  · simp only [srcPlain, h, if_false, and_false, reduceCtorEq]

@[simp] theorem srcPlain_code (x : Src) : srcPlain x.code 0#2 = some x := srcPlain_eq_some.mpr ⟨rfl, rfl⟩

theorem baseReg_eq_some {s : BitVec 7} {m : BitVec 2} {r : Reg} : baseReg s m = some r ↔ r.setWidth 7 = s ∧ m = 0 := by
  by_cases h : m = 0
  · simp only [baseReg, h, true_and, and_true, Option.ite_none_right_eq_some, Option.some.injEq]
    constructor
    · rintro ⟨hs, rfl⟩
      bv_omega
    · rintro rfl
      bv_omega
  · simp only [baseReg, h, false_and, and_false, if_false, reduceCtorEq]

@[simp] theorem baseReg_code (r : Reg) : baseReg (r.setWidth 7) 0#2 = some r := baseReg_eq_some.mpr ⟨rfl, rfl⟩

theorem PredOp.codes : Codes allOk (fun s => PredOp.ofCodes s 0#2) PredOp.code :=
  .of_tables (by rintro ⟨p, n⟩ -; revert n p; decide) (by decide)

theorem PredOp.ofCodes_eq_some {s : BitVec 7} {m : BitVec 2} {p : PredOp} : PredOp.ofCodes s m = some p ↔ p.code = s ∧ m = 0 := by
  by_cases h : m = 0
  · subst h
    exact (PredOp.codes s p).trans (by simp [allOk])
  · simp only [PredOp.ofCodes, h, false_and, and_false, if_false, reduceCtorEq]

@[simp] theorem PredOp.ofCodes_code (p : PredOp) : PredOp.ofCodes p.code 0#2 = some p := PredOp.ofCodes_eq_some.mpr ⟨rfl, rfl⟩

/-! ### Fields of a full word -/

theorem FW.eq_iff {f g : FW} : f = g ↔ f.maj = g.maj ∧ f.min = g.min ∧ f.ga = g.ga ∧ f.na = g.na ∧ f.gb = g.gb ∧ f.nb = g.nb ∧
    f.dst = g.dst ∧ f.nwb = g.nwb ∧ f.sa = g.sa ∧ f.moda = g.moda ∧ f.sb = g.sb ∧ f.modb = g.modb ∧ f.sc = g.sc ∧ f.modc = g.modc ∧
    f.ch = g.ch ∧ f.stall = g.stall ∧ f.yld = g.yld ∧ f.ty = g.ty := by
  cases f; cases g; simp

theorem keepIf_eq_some {α : Type} {b : Bool} {x : Option α} {y : α} : keepIf b x = some y ↔ b = true ∧ x = some y := by
  cases b <;> simp [keepIf]

@[simp] theorem keepIf_true {α : Type} (x : Option α) : keepIf true x = x := rfl

section
variable (f : FW)

@[simp] theorem ctl_fw (c : Ctl) (maj : BitVec 6) (min : BitVec 4) : ctl (c.fw maj min) = c := by simp [ctl, Ctl.fw]
@[simp] theorem FW.d_eq : f.d = ⟨f.dst, flag f.nwb⟩ := rfl
@[simp] theorem FW.withD_eq (d : Dst) : f.withD d = { f with dst := d.r, nwb := bit d.nwb } := rfl
@[simp] theorem FW.withA_eq (o : Opnd) : f.withA o = { f with sa := o.src.code, moda := o.md.code } := rfl
@[simp] theorem FW.withB_eq (o : Opnd) : f.withB o = { f with sb := o.src.code, modb := o.md.code } := rfl
@[simp] theorem FW.withC_eq (o : Opnd) : f.withC o = { f with sc := o.src.code, modc := o.md.code } := rfl
@[simp] theorem Ctl.fw_eq (c : Ctl) (maj : BitVec 6) (min : BitVec 4) :
    c.fw maj min = ⟨maj, min, c.ga, bit c.na, c.gb, bit c.nb, 0, 0, 0, 0, 0, 0, 0, 0, 0, c.stall, bit c.yld, 0⟩ := rfl
@[simp] theorem FW.withImm_eq (i : BitVec 18) :
    f.withImm i = { f with sb := i.extractLsb' 11 7, modb := i.extractLsb' 9 2, sc := i.extractLsb' 2 7, modc := i.extractLsb' 0 2 } := rfl
@[simp] theorem FW.withP_eq (p : BitVec 3) : f.withP p = { f with dst := p.setWidth 6 } := rfl
@[simp] theorem FW.withTile_eq (t : BitVec 4) : f.withTile t = { f with dst := t.setWidth 6 } := rfl
@[simp] theorem FW.withFa_eq (o : BitVec 2) (a : AScope) (z : SScope) :
    f.withFa o a z =
      { f with moda := o, modb := z.code, modc := a.code.extractLsb' 1 2, ch := a.code.extractLsb' 0 1 ++ (0 : BitVec 1) } := rfl
@[simp] theorem FW.noD_eq : f.noD = (f.dst == 0 && f.nwb == 0) := rfl
@[simp] theorem FW.noA_eq : f.noA = (f.sa == 0 && f.moda == 0) := rfl
@[simp] theorem FW.noB_eq : f.noB = (f.sb == 0 && f.modb == 0) := rfl
@[simp] theorem FW.noC_eq : f.noC = (f.sc == 0 && f.modc == 0) := rfl
@[simp] theorem FW.noH_eq : f.noH = (f.ch == 0) := rfl
@[simp] theorem FW.noT_eq : f.noT = (f.ty == 0) := rfl

end

theorem FW.p?_eq_some {f : FW} {p : BitVec 3} : f.p? = some p ↔ p.setWidth 6 = f.dst ∧ f.nwb = 0 := by
  simp only [FW.p?, keepIf_eq_some, Bool.and_eq_true, decide_eq_true_eq, beq_iff_eq, Option.some.injEq]
  constructor
  · rintro ⟨⟨h, hn⟩, rfl⟩
    exact ⟨by bv_omega, hn⟩
  · rintro ⟨h, hn⟩
    rw [← h]
    exact ⟨⟨by bv_omega, hn⟩, by bv_omega⟩

theorem FW.tile?_eq_some {f : FW} {t : BitVec 4} : f.tile? = some t ↔ t.setWidth 6 = f.dst ∧ f.nwb = 0 := by
  simp only [FW.tile?, keepIf_eq_some, Bool.and_eq_true, decide_eq_true_eq, beq_iff_eq, Option.some.injEq]
  constructor
  · rintro ⟨⟨h, hn⟩, rfl⟩
    exact ⟨by bv_omega, hn⟩
  · rintro ⟨h, hn⟩
    rw [← h]
    exact ⟨⟨by bv_omega, hn⟩, by bv_omega⟩

/-- The two scopes of an F-A word stand apart in MODC and CH (02 R54). -/
theorem FW.faAsc?_eq_some {f : FW} {a : AScope} :
    f.faAsc? = some a ↔ a.code.extractLsb' 1 2 = f.modc ∧ a.code.extractLsb' 0 1 ++ (0 : BitVec 1) = f.ch := by
  have split : ∀ (m h : BitVec 2) (x : BitVec 3), h.getLsbD 0 = false ∧ x = m ++ h.extractLsb' 1 1 ↔
      x.extractLsb' 1 2 = m ∧ x.extractLsb' 0 1 ++ (0 : BitVec 1) = h := by decide
  simp only [FW.faAsc?, keepIf_eq_some, Bool.not_eq_true', AScope.codes _ _, allOk, true_and]
  exact split _ _ _

/-- The immediate laid out in the fields that it overlays (02 R50). -/
theorem FW.imm_of_parts {f : FW} {i : BitVec 18} (hb : f.sb = i.extractLsb' 11 7) (hm : f.modb = i.extractLsb' 9 2)
    (hc : f.sc = i.extractLsb' 2 7) (hn : f.modc = i.extractLsb' 0 2) : f.imm = i := by
  simp (disch := decide) only [FW.imm, hb, hm, hc, hn, BitVec.extractLsb'_append_extractLsb'_eq_extractLsb']
  exact BitVec.extractLsb'_eq_self

section
variable {maj ga na gb nb dst nwb sa moda sb modb sc modc ch stall yld ty min}

@[simp] theorem FW.imm_mk (i : BitVec 18) :
    FW.imm ⟨maj, min, ga, na, gb, nb, dst, nwb, sa, moda, i.extractLsb' 11 7, i.extractLsb' 9 2, i.extractLsb' 2 7, i.extractLsb' 0 2,
      ch, stall, yld, ty⟩ = i := FW.imm_of_parts rfl rfl rfl rfl

@[simp] theorem FW.p?_mk (p : BitVec 3) :
    FW.p? ⟨maj, min, ga, na, gb, nb, p.setWidth 6, 0#1, sa, moda, sb, modb, sc, modc, ch, stall, yld, ty⟩ = some p :=
  FW.p?_eq_some.mpr ⟨rfl, rfl⟩

@[simp] theorem FW.tile?_mk (t : BitVec 4) :
    FW.tile? ⟨maj, min, ga, na, gb, nb, t.setWidth 6, 0#1, sa, moda, sb, modb, sc, modc, ch, stall, yld, ty⟩ = some t :=
  FW.tile?_eq_some.mpr ⟨rfl, rfl⟩

@[simp] theorem FW.faAsc?_mk (a : AScope) :
    FW.faAsc? ⟨maj, min, ga, na, gb, nb, dst, nwb, sa, moda, sb, modb, sc, a.code.extractLsb' 1 2,
      a.code.extractLsb' 0 1 ++ 0#1, stall, yld, ty⟩ = some a := FW.faAsc?_eq_some.mpr ⟨rfl, rfl⟩

end

section
variable (f : FW)

theorem FW.extract_imm (s l : Nat) (h : 2 ≤ s) : f.imm.extractLsb' s l = (f.sb ++ f.modb ++ f.sc).extractLsb' (s - 2) l :=
  BitVec.extractLsb'_append_eq_of_le h

@[simp] theorem FW.imm_sb : f.imm.extractLsb' 11 7 = f.sb := by
  simp (disch := decide) only [FW.extract_imm, BitVec.extractLsb'_append_eq_of_le, BitVec.extractLsb'_eq_self, Nat.reduceSub]
@[simp] theorem FW.imm_modb : f.imm.extractLsb' 9 2 = f.modb := by
  simp (disch := decide) only [FW.extract_imm, BitVec.extractLsb'_append_eq_of_le, BitVec.extractLsb'_append_eq_right, Nat.reduceSub]
@[simp] theorem FW.imm_sc : f.imm.extractLsb' 2 7 = f.sc := by
  simp (disch := decide) only [FW.extract_imm, BitVec.extractLsb'_append_eq_right, Nat.reduceSub]
@[simp] theorem FW.imm_modc : f.imm.extractLsb' 0 2 = f.modc := BitVec.extractLsb'_append_eq_right

end

/-! ### Numbers in wider fields -/

@[simp] theorem extract_low_setWidth (n : BitVec 8) : (n.setWidth 18).extractLsb' 0 8 = n := by revert n; decide
@[simp] theorem extract_high_setWidth (n : BitVec 8) : (n.setWidth 18).extractLsb' 8 10 = 0#10 := by revert n; decide
theorem setWidth_extract_low {i : BitVec 18} (h : i.extractLsb' 8 10 = 0) : (i.extractLsb' 0 8).setWidth 18 = i := by
  have hi := congrArg BitVec.toNat h
  apply BitVec.eq_of_toNat_eq
  simp [Nat.shiftRight_eq_div_pow] at hi ⊢
  omega

/-! ### Layouts of records (02 R49 to R61) -/

/-- The decoder and the encoder of a record agree, on the records that `ok` admits. -/
structure FW.Layout {α : Type} (ok : Ctl → α → Bool) (dec : FW → Option α) (enc : α → FW → FW) : Prop where
  back : ∀ o c maj min, ok c o = true → dec (enc o (c.fw maj min)) = some o
  forth : ∀ f o, dec f = some o → ok (ctl f) o = true ∧ enc o ((ctl f).fw f.maj f.min) = f
  ctl_enc : ∀ o c maj min, ctl (enc o (c.fw maj min)) = c := by exact fun _ c m n => ctl_fw c m n

/-- Every value of the record is admitted. -/
def anyOk {α : Type} (_ : Ctl) (_ : α) : Bool := true

/-! #### Words with few operands -/

theorem decNone_layout : FW.Layout anyOk decNone (fun _ f => f) where
  back o c _ _ _ := by simp [decNone]
  forth f o e := by
    simp only [decNone, keepIf_eq_some] at e
    simp_all [FW.eq_iff, ctl, anyOk]

theorem decCode_layout : FW.Layout anyOk decCode encCode where
  back o c _ _ _ := by simp [decCode, encCode]
  forth f o e := by
    simp only [decCode, keepIf_eq_some, Option.some.injEq] at e
    obtain ⟨z, rfl⟩ := e
    simp_all [encCode, FW.eq_iff, ctl, anyOk]

/-- A JOIN carries no guard (02 R35). -/
theorem decJoin_layout : FW.Layout (fun c _ => c.ga == 7 && !c.na && c.gb == 7 && !c.nb) decJoin encCode where
  back o c a b k := by
    simp only [Bool.and_eq_true, beq_iff_eq, Bool.not_eq_true'] at k
    obtain ⟨⟨⟨ga, na⟩, gb⟩, nb⟩ := k
    simp [decJoin, decCode, encCode, ga, na, gb, nb, bit]
  forth f o e := by
    simp only [decJoin, keepIf_eq_some, Bool.and_eq_true, beq_iff_eq] at e
    obtain ⟨⟨⟨⟨ga, na⟩, gb⟩, nb⟩, e⟩ := e
    exact ⟨by simp [ctl, ga, na, gb, nb], (decCode_layout.forth f o e).2⟩

theorem decRdsr_layout : FW.Layout anyOk decRdsr (fun x => encRdsr x.1 x.2) where
  back o c _ _ _ := by simp [decRdsr, encRdsr, SReg.codes.of_code rfl]
  forth f o e := by
    simp only [decRdsr, keepIf_eq_some, Option.map_eq_some_iff, SReg.codes _ _, Bool.and_eq_true, beq_iff_eq] at e
    obtain ⟨⟨z, hi⟩, n, ⟨-, hn⟩, rfl⟩ := e
    simp_all [encRdsr, FW.eq_iff, ctl, anyOk, setWidth_extract_low]

theorem decD_layout : FW.Layout anyOk decD encD where
  back o c _ _ _ := by simp [decD, encD]
  forth f o e := by
    simp only [decD, keepIf_eq_some, Option.some.injEq] at e
    obtain ⟨z, rfl⟩ := e
    simp_all [encD, FW.eq_iff, ctl, anyOk]

theorem decPerf_layout : FW.Layout anyOk decPerf (fun x => encPerf x.1 x.2) where
  back o c _ _ _ := by simp [decPerf, encPerf, Counter.codes.of_code rfl]
  forth f o e := by
    simp only [decPerf, keepIf_eq_some, Option.map_eq_some_iff, Counter.codes _ _, Bool.and_eq_true, beq_iff_eq] at e
    obtain ⟨⟨z, hi⟩, n, ⟨-, hn⟩, rfl⟩ := e
    simp_all [encPerf, FW.eq_iff, ctl, anyOk, setWidth_extract_low]

theorem decCall_layout : FW.Layout anyOk decCall (fun x => encCall x.1 x.2) where
  back o c _ _ _ := by simp [decCall, encCall]
  forth f o e := by
    simp only [decCall, keepIf_eq_some, Option.some.injEq] at e
    obtain ⟨z, rfl⟩ := e
    simp_all [encCall, FW.eq_iff, ctl, anyOk]

theorem decA_layout : FW.Layout anyOk decA encA where
  back o c _ _ _ := by simp [decA, encA]
  forth f o e := by
    simp only [decA, keepIf_eq_some, Opnd.ofCodes_eq_some] at e
    simp_all [encA, FW.eq_iff, ctl, anyOk]

theorem decAB_layout : FW.Layout anyOk decAB (fun x => encAB x.1 x.2) where
  back o c _ _ _ := by simp [decAB, encAB]
  forth f o e := by
    simp only [decAB, keepIf_eq_some, Option.bind_eq_some_iff, Option.map_eq_some_iff, Opnd.ofCodes_eq_some] at e
    obtain ⟨z, a, ha, b, hb, rfl⟩ := e
    simp_all [encAB, FW.eq_iff, ctl, anyOk]

theorem decP_layout : FW.Layout anyOk decP encP where
  back o c _ _ _ := by simp [decP, encP]
  forth f o e := by
    simp only [decP, keepIf_eq_some, FW.p?_eq_some] at e
    simp_all [encP, FW.eq_iff, ctl, anyOk]

theorem decWid_layout : FW.Layout (fun _ x => decide (x.2 < 6)) decWid (fun x => encWid x.1 x.2) where
  back o c _ _ k := by
    have : o.2.setWidth 18 < 6#18 := by simp only [decide_eq_true_eq] at k; bv_omega
    simp [decWid, encWid, this]
  forth f o e := by
    simp only [decWid, keepIf_eq_some, Option.some.injEq, Bool.and_eq_true, decide_eq_true_eq] at e
    obtain ⟨⟨z, hi⟩, rfl⟩ := e
    have low : (f.imm.setWidth 3).setWidth 18 = f.imm := by bv_omega
    exact ⟨decide_eq_true (by bv_omega), by simp_all [encWid, FW.eq_iff, ctl]⟩

theorem decBar_layout : FW.Layout anyOk decBar (fun x => encCode (x.setWidth 18)) where
  back o c _ _ _ := by
    have : o.setWidth 18 < 8#18 := by bv_omega
    simp [decBar, encCode, this]
  forth f o e := by
    simp only [decBar, keepIf_eq_some, Option.some.injEq, Bool.and_eq_true, decide_eq_true_eq] at e
    obtain ⟨⟨z, hi⟩, rfl⟩ := e
    have low : (f.imm.setWidth 3).setWidth 18 = f.imm := by bv_omega
    simp_all [encCode, FW.eq_iff, ctl, anyOk]

theorem decTile_layout : FW.Layout anyOk decTile encTile where
  back o c _ _ _ := by simp [decTile, encTile]
  forth f o e := by
    simp only [decTile, keepIf_eq_some, FW.tile?_eq_some] at e
    simp_all [encTile, FW.eq_iff, ctl, anyOk]

theorem decMfence_layout : FW.Layout anyOk decMfence encMfence where
  back o c _ _ _ := by simp [decMfence, encMfence]
  forth f o e := by
    simp only [decMfence, keepIf_eq_some, Option.some.injEq] at e
    obtain ⟨z, rfl⟩ := e
    simp_all [encMfence, FW.eq_iff, ctl, anyOk]

/-! #### Words that compute -/

section
variable {τ κ : Type} {ok : τ → Bool} {of : BitVec 3 → Option τ} {code : τ → BitVec 3}
  {cc : BitVec 7 → Option κ} {ccode : κ → BitVec 7}

theorem R1.layout (h : Codes ok of code) : FW.Layout (fun _ o => ok o.t) (R1.dec of) (R1.enc code) where
  back o c _ _ k := by simp [R1.dec, R1.enc, h.of_code k]
  forth f o e := by
    simp only [R1.dec, keepIf_eq_some, Option.bind_eq_some_iff, Option.map_eq_some_iff, Opnd.ofCodes_eq_some, h _ _] at e
    obtain ⟨z, a, ha, t, ht, rfl⟩ := e
    simp_all [R1.enc, FW.eq_iff, ctl]

theorem R2.layout (h : Codes ok of code) : FW.Layout (fun _ o => ok o.t) (R2.dec of) (R2.enc code) where
  back o c _ _ k := by simp [R2.dec, R2.enc, h.of_code k]
  forth f o e := by
    simp only [R2.dec, keepIf_eq_some, Option.bind_eq_some_iff, Option.map_eq_some_iff, Opnd.ofCodes_eq_some, h _ _] at e
    obtain ⟨z, a, ha, b, hb, t, ht, rfl⟩ := e
    simp_all [R2.enc, FW.eq_iff, ctl]

theorem R3.layout (h : Codes ok of code) : FW.Layout (fun _ o => ok o.t) (R3.dec of) (R3.enc code) where
  back o c _ _ k := by simp [R3.dec, R3.enc, h.of_code k]
  forth f o e := by
    simp only [R3.dec, keepIf_eq_some, Option.bind_eq_some_iff, Option.map_eq_some_iff, Opnd.ofCodes_eq_some, h _ _] at e
    obtain ⟨z, a, ha, b, hb, d, hd, t, ht, rfl⟩ := e
    simp_all [R3.enc, FW.eq_iff, ctl]

theorem PCmp.layout (h : Codes ok of code) (hc : Codes allOk cc ccode) :
    FW.Layout (fun _ o => ok o.t) (PCmp.dec of cc) (PCmp.enc code ccode) where
  back o c _ _ k := by simp [PCmp.dec, PCmp.enc, h.of_code k, hc.of_code rfl]
  forth f o e := by
    simp only [PCmp.dec, keepIf_eq_some, Option.bind_eq_some_iff, Option.map_eq_some_iff, Opnd.ofCodes_eq_some, FW.p?_eq_some,
      h _ _, hc _ _] at e
    obtain ⟨z, p, hp, a, ha, b, hb, m, ⟨-, hm⟩, t, ht, rfl⟩ := e
    simp_all [PCmp.enc, FW.eq_iff, ctl]

end

theorem RLea.layout : FW.Layout anyOk RLea.dec RLea.enc where
  back o c _ _ _ := by
    have : o.k.setWidth 7 < 8#7 := by bv_omega
    simp [RLea.dec, RLea.enc, this]
  forth f o e := by
    simp only [RLea.dec, keepIf_eq_some, Option.bind_eq_some_iff, Option.map_eq_some_iff, Opnd.ofCodes_eq_some, Bool.and_eq_true,
      decide_eq_true_eq] at e
    obtain ⟨⟨⟨⟨hk, hm⟩, hh⟩, ht⟩, a, ha, b, hb, rfl⟩ := e
    have low : (f.sc.setWidth 3).setWidth 7 = f.sc := by bv_omega
    simp_all [RLea.enc, FW.eq_iff, ctl, anyOk]

theorem RSel.layout : FW.Layout anyOk RSel.dec RSel.enc where
  back o c _ _ _ := by simp [RSel.dec, RSel.enc, IType.codes4.of_code rfl]
  forth f o e := by
    simp only [RSel.dec, keepIf_eq_some, Option.bind_eq_some_iff, Option.map_eq_some_iff, Opnd.ofCodes_eq_some,
      PredOp.ofCodes_eq_some, IType.codes4 _ _] at e
    obtain ⟨z, a, ha, b, hb, p, hp, t, ht, rfl⟩ := e
    simp_all [RSel.enc, FW.eq_iff, ctl, anyOk]

theorem RMovi.layout : FW.Layout anyOk RMovi.dec RMovi.enc where
  back o c _ _ _ := by simp [RMovi.dec, RMovi.enc]
  forth f o e := by
    simp only [RMovi.dec, keepIf_eq_some, Option.some.injEq] at e
    obtain ⟨z, rfl⟩ := e
    simp_all [RMovi.enc, FW.eq_iff, ctl, anyOk]

/-- The top slice holds ten bits (05 R108). -/
theorem RMovhi.layout : FW.Layout (fun _ o => o.j != .j3 || o.imm.extractLsb' 10 8 == 0) RMovhi.dec RMovhi.enc where
  back o c _ _ k := by
    have top : (o.j.code != 3#7 || o.imm.extractLsb' 10 8 == 0#8) = true := by
      rcases o with ⟨d, ⟨⟩, i⟩ <;> simp_all [Slice.code]
    simp [RMovhi.dec, RMovhi.enc, Slice.codes.of_code rfl, top]
  forth f o e := by
    simp only [RMovhi.dec, keepIf_eq_some, Option.map_eq_some_iff, Slice.codes _ _, Bool.and_eq_true] at e
    obtain ⟨⟨z, top⟩, j, ⟨-, hj⟩, rfl⟩ := e
    refine ⟨?_, by simp_all [RMovhi.enc, FW.eq_iff, ctl]⟩
    cases j <;> simp_all [Slice.code]

theorem RUnpk.layout : FW.Layout (fun _ o => o.t.ok3) RUnpk.dec RUnpk.enc where
  back o c _ _ k := by simp [RUnpk.dec, RUnpk.enc, IType.codes3.of_code k, UnpkSel.codes.of_code rfl]
  forth f o e := by
    simp only [RUnpk.dec, keepIf_eq_some, Option.bind_eq_some_iff, Option.map_eq_some_iff, Opnd.ofCodes_eq_some,
      UnpkSel.codes _ _, IType.codes3 _ _] at e
    obtain ⟨z, a, ha, x, ⟨-, hx⟩, t, ht, rfl⟩ := e
    simp_all [RUnpk.enc, FW.eq_iff, ctl]

/-- QUNPK names a group below 16 divided by the sub-elements (05 R131). -/
theorem RRaw.layout_qunpk :
    FW.Layout (fun _ o => o.t.ok13 && decide (o.k.toNat < (if o.t = .f32x2 then 8 else 4))) RRaw.decQunpk (RRaw.enc FType.code) where
  back o c _ _ k := by
    simp only [Bool.and_eq_true] at k
    have lim : o.k.toNat < qunpkGroups o.t := by
      rcases o with ⟨d, a, n, ⟨⟩⟩ <;> simp_all [FType.ok13, FType.ok3, qunpkGroups]
    simp [RRaw.decQunpk, RRaw.enc, FType.codes13.of_code k.1, lim]
  forth f o e := by
    simp only [RRaw.decQunpk, keepIf_eq_some, Option.bind_eq_some_iff, Opnd.ofCodes_eq_some, FType.codes13 _ _, decide_eq_true_eq,
      Option.some.injEq] at e
    obtain ⟨z, a, ha, t, ht, lim, rfl⟩ := e
    refine ⟨?_, by simp_all [RRaw.enc, FW.eq_iff, ctl]⟩
    cases t <;> simp_all [FType.ok13, FType.ok3, qunpkGroups]

/-- A plane number lies below the width of a sub-element (05 R132). -/
theorem RRaw.layout_plane : FW.Layout (fun _ o => decide (o.k.toNat < o.t.width)) RRaw.decPlane (RRaw.enc IType.code) where
  back o c _ _ k := by simp_all [RRaw.decPlane, RRaw.enc, IType.codes4.of_code rfl]
  forth f o e := by
    simp only [RRaw.decPlane, keepIf_eq_some, Option.bind_eq_some_iff, Opnd.ofCodes_eq_some, IType.codes4 _ _, Option.some.injEq] at e
    obtain ⟨z, a, ha, t, ⟨-, ht⟩, lim, rfl⟩ := e
    simp_all [RRaw.enc, FW.eq_iff, ctl]

theorem RFround.layout : FW.Layout anyOk RFround.dec RFround.enc where
  back o c _ _ _ := by simp [RFround.dec, RFround.enc, FType.codes5.of_code rfl]
  forth f o e := by
    simp only [RFround.dec, keepIf_eq_some, Option.bind_eq_some_iff, Option.map_eq_some_iff, Opnd.ofCodes_eq_some, FType.codes5 _ _] at e
    obtain ⟨z, a, ha, t, ht, rfl⟩ := e
    simp_all [RFround.enc, FW.eq_iff, ctl, anyOk]

theorem RCvt.layout : FW.Layout anyOk RCvt.dec RCvt.enc where
  back o c _ _ _ := by simp [RCvt.dec, RCvt.enc, CFmt.codes.of_code rfl]
  forth f o e := by
    simp only [RCvt.dec, keepIf_eq_some, Option.bind_eq_some_iff, Option.map_eq_some_iff, Opnd.ofCodes_eq_some, CFmt.codes _ _] at e
    obtain ⟨z, a, ha, x, ⟨-, hx⟩, y, ⟨-, hy⟩, rfl⟩ := e
    simp_all [RCvt.enc, FW.eq_iff, ctl, anyOk]

theorem RD1.layout : FW.Layout anyOk RD1.dec RD1.enc where
  back o c _ _ _ := by simp [RD1.dec, RD1.enc]
  forth f o e := by
    simp only [RD1.dec, keepIf_eq_some, Option.map_eq_some_iff, Opnd.ofCodes_eq_some] at e
    obtain ⟨z, a, ha, rfl⟩ := e
    simp_all [RD1.enc, FW.eq_iff, ctl, anyOk]

theorem RD2.layout : FW.Layout anyOk RD2.dec RD2.enc where
  back o c _ _ _ := by simp [RD2.dec, RD2.enc]
  forth f o e := by
    simp only [RD2.dec, keepIf_eq_some, Option.bind_eq_some_iff, Option.map_eq_some_iff, Opnd.ofCodes_eq_some] at e
    obtain ⟨z, a, ha, b, hb, rfl⟩ := e
    simp_all [RD2.enc, FW.eq_iff, ctl, anyOk]

theorem LaneOp.ofCodes_eq_some {c : BitVec 4} {t : BitVec 3} {o : LaneOp} : LaneOp.ofCodes c t = some o ↔ o.code = c ∧ o.ty = t := by
  constructor
  · exact (by decide : ∀ c t, ∀ o ∈ LaneOp.ofCodes c t, o.code = c ∧ o.ty = t) c t o
  · rintro ⟨rfl, rfl⟩
    rcases o with ⟨⟨⟩, t⟩ | ⟨⟨⟩, t⟩ <;> cases t <;> rfl

@[simp] theorem LaneOp.ofCodes_code (o : LaneOp) : LaneOp.ofCodes o.code o.ty = some o := LaneOp.ofCodes_eq_some.mpr ⟨rfl, rfl⟩

/-- EXCL and the operation lie side by side in SC (05 R135). -/
theorem lane_fields (x : Bool) (c : BitVec 4) :
    (0#2 ++ bit x ++ c).extractLsb' 5 2 = 0#2 ∧ (0#2 ++ bit x ++ c)[4] = x ∧ (0#2 ++ bit x ++ c).extractLsb' 0 4 = c := by
  revert x c; decide

theorem lane_fields_of_zero {s : BitVec 7} (h : s.extractLsb' 5 2 = 0#2) : 0#2 ++ bit s[4] ++ s.extractLsb' 0 4 = s := by
  revert s; decide

/-- REDL takes no EXCL (05 R135). -/
theorem RLane.layout (scan : Bool) : FW.Layout (fun _ o => scan || !o.excl) (RLane.dec scan) RLane.enc where
  back o c _ _ k := by
    obtain ⟨hi, hx, hc⟩ := lane_fields o.excl o.op.code
    simp [RLane.dec, RLane.enc, hi, hx, hc, k]
  forth f o e := by
    simp only [RLane.dec, keepIf_eq_some, Option.bind_eq_some_iff, Option.map_eq_some_iff, Opnd.ofCodes_eq_some,
      LaneOp.ofCodes_eq_some, Bool.and_eq_true] at e
    obtain ⟨⟨⟨z, hi⟩, hx⟩, a, ha, p, hp, rfl⟩ := e
    simp_all [RLane.enc, FW.eq_iff, ctl, lane_fields_of_zero]

theorem PLog2.layout : FW.Layout anyOk PLog2.dec PLog2.enc where
  back o c _ _ _ := by simp [PLog2.dec, PLog2.enc]
  forth f o e := by
    simp only [PLog2.dec, keepIf_eq_some, Option.bind_eq_some_iff, Option.map_eq_some_iff, PredOp.ofCodes_eq_some, FW.p?_eq_some] at e
    obtain ⟨z, p, hp, q, hq, r, hr, rfl⟩ := e
    simp_all [PLog2.enc, FW.eq_iff, ctl, anyOk]

theorem PLog1.layout : FW.Layout anyOk PLog1.dec PLog1.enc where
  back o c _ _ _ := by simp [PLog1.dec, PLog1.enc]
  forth f o e := by
    simp only [PLog1.dec, keepIf_eq_some, Option.bind_eq_some_iff, Option.map_eq_some_iff, PredOp.ofCodes_eq_some, FW.p?_eq_some] at e
    obtain ⟨z, p, hp, q, hq, rfl⟩ := e
    simp_all [PLog1.enc, FW.eq_iff, ctl, anyOk]

theorem P1.layout : FW.Layout anyOk P1.dec P1.enc where
  back o c _ _ _ := by simp [P1.dec, P1.enc]
  forth f o e := by
    simp only [P1.dec, keepIf_eq_some, Option.bind_eq_some_iff, Option.map_eq_some_iff, Opnd.ofCodes_eq_some, FW.p?_eq_some] at e
    obtain ⟨z, p, hp, a, ha, rfl⟩ := e
    simp_all [P1.enc, FW.eq_iff, ctl, anyOk]

theorem P2.layout : FW.Layout anyOk P2.dec P2.enc where
  back o c _ _ _ := by simp [P2.dec, P2.enc]
  forth f o e := by
    simp only [P2.dec, keepIf_eq_some, Option.bind_eq_some_iff, Option.map_eq_some_iff, Opnd.ofCodes_eq_some, FW.p?_eq_some] at e
    obtain ⟨z, p, hp, a, ha, b, hb, rfl⟩ := e
    simp_all [P2.enc, FW.eq_iff, ctl, anyOk]

/-! #### Words that reach memory -/

/-- The three fields of IMM18 in an F-O word (02 R53). -/
theorem ordImm_fields (ofs : BitVec 13) (a : AScope) (z : SScope) :
    (ordImm ofs a z).extractLsb' 5 13 = ofs ∧ (ordImm ofs a z).extractLsb' 2 3 = a.code ∧ (ordImm ofs a z).extractLsb' 0 2 = z.code := by
  have rest (s l : Nat) (h : 2 ≤ s) : (ordImm ofs a z).extractLsb' s l = (ofs ++ a.code).extractLsb' (s - 2) l :=
    BitVec.extractLsb'_append_eq_of_le h
  refine ⟨?_, ?_, BitVec.extractLsb'_append_eq_right⟩
  · rw [rest 5 13 (by decide)]; exact BitVec.extractLsb'_append_eq_left
  · rw [rest 2 3 (by decide)]; exact BitVec.extractLsb'_append_eq_right

theorem ordImm_of_fields {i : BitVec 18} {a : AScope} {z : SScope} (ha : a.code = i.extractLsb' 2 3) (hz : z.code = i.extractLsb' 0 2) :
    ordImm (i.extractLsb' 5 13) a z = i := by
  simp (disch := decide) only [ordImm, ha, hz, BitVec.extractLsb'_append_extractLsb'_eq_extractLsb']
  exact BitVec.extractLsb'_eq_self

theorem MLd.layout : FW.Layout anyOk MLd.dec MLd.enc where
  back o c _ _ _ := by simp [MLd.dec, MLd.enc, Size.codes5.of_code rfl]
  forth f o e := by
    simp only [MLd.dec, Option.bind_eq_some_iff, Option.map_eq_some_iff, srcPlain_eq_some, Size.codes5 _ _] at e
    obtain ⟨a, ha, z, hz, rfl⟩ := e
    simp_all [MLd.enc, FW.eq_iff, ctl, anyOk]

theorem MSt.layout : FW.Layout anyOk MSt.dec MSt.enc where
  back o c _ _ _ := by simp [MSt.dec, MSt.enc, Size.codes5.of_code rfl]
  forth f o e := by
    simp only [MSt.dec, keepIf_eq_some, Option.bind_eq_some_iff, Option.map_eq_some_iff, srcPlain_eq_some, Size.codes5 _ _] at e
    obtain ⟨n, a, ha, z, hz, rfl⟩ := e
    simp_all [MSt.enc, FW.eq_iff, ctl, anyOk]

theorem MZero.layout : FW.Layout anyOk MZero.dec MZero.enc where
  back o c _ _ _ := by simp [MZero.dec, MZero.enc, Size.codes5.of_code rfl]
  forth f o e := by
    simp only [MZero.dec, keepIf_eq_some, Option.bind_eq_some_iff, Option.map_eq_some_iff, srcPlain_eq_some, Size.codes5 _ _] at e
    obtain ⟨n, a, ha, z, hz, rfl⟩ := e
    simp_all [MZero.enc, FW.eq_iff, ctl, anyOk]

theorem MPref.layout : FW.Layout anyOk MPref.dec MPref.enc where
  back o c _ _ _ := by simp [MPref.dec, MPref.enc, PrefTarget.codes.of_code rfl]
  forth f o e := by
    simp only [MPref.dec, keepIf_eq_some, Option.bind_eq_some_iff, Option.map_eq_some_iff, srcPlain_eq_some, PrefTarget.codes _ _] at e
    obtain ⟨n, t, ht, a, ha, rfl⟩ := e
    simp_all [MPref.enc, FW.eq_iff, ctl, anyOk]

theorem MSec.layout : FW.Layout anyOk MSec.dec MSec.enc where
  back o c _ _ _ := by simp [MSec.dec, MSec.enc]
  forth f o e := by
    simp only [MSec.dec, keepIf_eq_some, Option.map_eq_some_iff, srcPlain_eq_some] at e
    obtain ⟨n, a, ha, rfl⟩ := e
    simp_all [MSec.enc, FW.eq_iff, ctl, anyOk]

theorem OLd.layout : FW.Layout (fun _ o => o.sz.ok3) OLd.dec OLd.enc where
  back o c _ _ k := by
    obtain ⟨ho, ha, hz⟩ := ordImm_fields o.ofs o.asc o.ssc
    simp only [OLd.dec, OLd.enc, Ctl.fw_eq, FW.withD_eq, FW.withImm_eq, FW.imm_mk]
    simp [ho, ha, hz, AScope.codes.of_code rfl, SScope.codes.of_code rfl, Size.codes3.of_code k]
  forth f o e := by
    simp only [OLd.dec, keepIf_eq_some, Option.bind_eq_some_iff, Option.map_eq_some_iff, srcPlain_eq_some, AScope.codes _ _,
      SScope.codes _ _, Size.codes3 _ _] at e
    obtain ⟨n, a, ha, x, ⟨-, hx⟩, y, ⟨-, hy⟩, z, hz, rfl⟩ := e
    simp_all [OLd.enc, FW.eq_iff, ctl, ordImm_of_fields hx hy]

theorem OSt.layout : FW.Layout (fun _ o => o.sz.ok3) OSt.dec OSt.enc where
  back o c _ _ k := by
    obtain ⟨ho, ha, hz⟩ := ordImm_fields o.ofs o.asc o.ssc
    simp only [OSt.dec, OSt.enc, Ctl.fw_eq, FW.withImm_eq, FW.imm_mk]
    simp [ho, ha, hz, AScope.codes.of_code rfl, SScope.codes.of_code rfl, Size.codes3.of_code k]
  forth f o e := by
    simp only [OSt.dec, keepIf_eq_some, Option.bind_eq_some_iff, Option.map_eq_some_iff, srcPlain_eq_some, AScope.codes _ _,
      SScope.codes _ _, Size.codes3 _ _] at e
    obtain ⟨n, a, ha, x, ⟨-, hx⟩, y, ⟨-, hy⟩, z, hz, rfl⟩ := e
    simp_all [OSt.enc, FW.eq_iff, ctl, ordImm_of_fields hx hy]

theorem Order.code_eq_zero {o : Order} : o.code = 0#2 ↔ o = .rlx := by cases o <;> decide

/-- A FENCE has an ORDER other than relaxed (06 R158). -/
theorem OFence.layout : FW.Layout (fun _ o => o.ord != .rlx) OFence.dec OFence.enc where
  back o c _ _ k := by
    obtain ⟨ho, ha, hz⟩ := ordImm_fields 0#13 o.asc o.ssc
    have ord : (o.ord.code != 0#2) = true := by simpa [Order.code_eq_zero] using k
    simp only [OFence.dec, OFence.enc, Ctl.fw_eq, FW.withImm_eq, FW.imm_mk]
    simp [ho, ha, hz, ord, AScope.codes.of_code rfl, SScope.codes.of_code rfl]
  forth f o e := by
    simp only [OFence.dec, keepIf_eq_some, Option.bind_eq_some_iff, Option.map_eq_some_iff, AScope.codes _ _, SScope.codes _ _,
      Bool.and_eq_true, beq_iff_eq, bne_iff_ne] at e
    obtain ⟨⟨⟨n, ho⟩, hm⟩, x, ⟨-, hx⟩, y, ⟨-, hy⟩, rfl⟩ := e
    have imm : ordImm 0 x y = f.imm := by rw [← ho]; exact ordImm_of_fields hx hy
    refine ⟨?_, by simp_all [OFence.enc, FW.eq_iff, ctl]⟩
    simpa [← Order.code_eq_zero] using hm

theorem AAtom.layout : FW.Layout (fun _ o => o.sz.okAtom) AAtom.dec AAtom.enc where
  back o c _ _ k := by simp [AAtom.dec, AAtom.enc, Src.codes.of_code rfl, SScope.codes.of_code rfl, Size.codesAtom.of_code k]
  forth f o e := by
    simp only [AAtom.dec, keepIf_eq_some, Option.bind_eq_some_iff, Option.map_eq_some_iff, Src.codes _ _, FW.faAsc?_eq_some,
      SScope.codes _ _, Size.codesAtom _ _] at e
    obtain ⟨n, a, ⟨-, ha⟩, b, ⟨-, hb⟩, x, hx, y, ⟨-, hy⟩, z, hz, rfl⟩ := e
    simp_all [AAtom.enc, FW.eq_iff, ctl]

theorem ACas.layout : FW.Layout (fun _ o => o.sz.okAtom) ACas.dec ACas.enc where
  back o c _ _ k := by simp [ACas.dec, ACas.enc, Src.codes.of_code rfl, SScope.codes.of_code rfl, Size.codesAtom.of_code k]
  forth f o e := by
    simp only [ACas.dec, Option.bind_eq_some_iff, Option.map_eq_some_iff, Src.codes _ _, FW.faAsc?_eq_some,
      SScope.codes _ _, Size.codesAtom _ _] at e
    obtain ⟨a, ⟨-, ha⟩, b, ⟨-, hb⟩, d, ⟨-, hd⟩, x, hx, y, ⟨-, hy⟩, z, hz, rfl⟩ := e
    simp_all [ACas.enc, ctl]

theorem ARed.layout : FW.Layout (fun _ o => o.sz.okAtom) ARed.dec ARed.enc where
  back o c _ _ k := by simp [ARed.dec, ARed.enc, Src.codes.of_code rfl, SScope.codes.of_code rfl, Size.codesAtom.of_code k]
  forth f o e := by
    simp only [ARed.dec, keepIf_eq_some, Option.bind_eq_some_iff, Option.map_eq_some_iff, Src.codes _ _, FW.faAsc?_eq_some,
      SScope.codes _ _, Size.codesAtom _ _] at e
    obtain ⟨n, a, ⟨-, ha⟩, b, ⟨-, hb⟩, x, hx, y, ⟨-, hy⟩, z, hz, rfl⟩ := e
    simp_all [ARed.enc, FW.eq_iff, ctl]

theorem AScope.wide_eq (a : AScope) : a.wide = a.okAtomc := by cases a <;> rfl

theorem atomcScopes_eq_some {f : FW} {q : AScope × SScope} :
    atomcScopes f = some q ↔ f.faAsc? = some q.1 ∧ q.2.code = f.modb ∧ (q.1.okAtomc && q.2 != .s) = true := by
  obtain ⟨x, y⟩ := q
  simp only [atomcScopes, Option.bind_eq_some_iff, keepIf_eq_some, SScope.codes _ _, allOk, true_and, AScope.wide_eq,
    Option.some.injEq, Prod.mk.injEq]
  constructor
  · rintro ⟨a, ha, b, hb, hw, rfl, rfl⟩
    exact ⟨ha, hb, hw⟩
  · rintro ⟨ha, hb, hw⟩
    exact ⟨x, ha, y, hb, hw, rfl, rfl⟩

theorem ACasc.layout : FW.Layout (fun _ o => o.asc.okAtomc && o.ssc != .s) ACasc.dec ACasc.enc where
  back o c m n k := by
    have sc : atomcScopes (ACasc.enc o (c.fw m n)) = some (o.asc, o.ssc) := atomcScopes_eq_some.mpr ⟨by simp [ACasc.enc], rfl, k⟩
    simp_all [ACasc.dec, ACasc.enc, Src.codes.of_code rfl, PPair.codes.of_code rfl]
  forth f o e := by
    simp only [ACasc.dec, keepIf_eq_some, Option.bind_eq_some_iff, Option.map_eq_some_iff, Src.codes _ _, baseReg_eq_some, FW.faAsc?_eq_some,
      PPair.codes _ _, atomcScopes_eq_some] at e
    obtain ⟨n, a, ⟨-, ha⟩, b, ⟨-, hb⟩, d, hd, p, ⟨-, hp⟩, q, ⟨hx, hy, k⟩, rfl⟩ := e
    exact ⟨k, by simp_all [ACasc.enc, FW.eq_iff, ctl]⟩

theorem ADecc.layout : FW.Layout (fun _ o => o.asc.okAtomc && o.ssc != .s) ADecc.dec ADecc.enc where
  back o c m n k := by
    have sc : atomcScopes (ADecc.enc o (c.fw m n)) = some (o.asc, o.ssc) := atomcScopes_eq_some.mpr ⟨by simp [ADecc.enc], rfl, k⟩
    simp_all [ADecc.dec, ADecc.enc, Src.codes.of_code rfl, PPair.codes.of_code rfl]
  forth f o e := by
    simp only [ADecc.dec, keepIf_eq_some, Option.bind_eq_some_iff, Option.map_eq_some_iff, Src.codes _ _, FW.faAsc?_eq_some,
      PPair.codes _ _, atomcScopes_eq_some] at e
    obtain ⟨n, a, ⟨-, ha⟩, b, ⟨-, hb⟩, d, ⟨-, hd⟩, p, ⟨-, hp⟩, q, ⟨hx, hy, k⟩, rfl⟩ := e
    exact ⟨k, by simp_all [ADecc.enc, FW.eq_iff, ctl]⟩

/-- A modifier below 2 is one flag (02 R58, 08 R236). -/
theorem modifier_of_flag (b : Bool) : ((if b then 1 else 0 : BitVec 2) < 2) ∧ ((if b then 1 else 0 : BitVec 2) == 1) = b := by
  revert b; decide

theorem flag_of_modifier {m : BitVec 2} (h : m < 2) : (if (m == 1) = true then 1 else 0) = m := by revert m; decide

theorem AWaitc.layout : FW.Layout (fun _ o => o.sz.okAtom) AWaitc.dec AWaitc.enc where
  back o c _ _ k := by
    have hc : WCond.ofCode o.cc.code.toNat = some o.cc := WCond.codes.of_code rfl
    have ha := modifier_of_flag o.acq
    simp_all [AWaitc.dec, AWaitc.enc, Src.codes.of_code rfl, SScope.codes.of_code rfl, Size.codesAtom.of_code k]
  forth f o e := by
    simp only [AWaitc.dec, keepIf_eq_some, Option.bind_eq_some_iff, Option.map_eq_some_iff, Src.codes _ _, FW.faAsc?_eq_some,
      SScope.codes _ _, Size.codesAtom _ _, WCond.codes _ _, decide_eq_true_eq] at e
    obtain ⟨n, a, ⟨-, ha⟩, b, ⟨-, hb⟩, k, ⟨-, hk⟩, x, hx, y, ⟨-, hy⟩, z, hz, rfl⟩ := e
    have m := flag_of_modifier n
    simp_all [AWaitc.enc, ctl]

/-! #### Words of engines, terms and search -/

theorem CBox.layout : FW.Layout anyOk CBox.dec CBox.enc where
  back o c _ _ _ := by simp [CBox.dec, CBox.enc]
  forth f o e := by
    simp only [CBox.dec, keepIf_eq_some, Option.bind_eq_some_iff, Option.map_eq_some_iff, Opnd.ofCodes_eq_some, baseReg_eq_some] at e
    obtain ⟨z, a, ha, b, hb, r, hr, rfl⟩ := e
    simp_all [CBox.enc, FW.eq_iff, ctl, anyOk]

theorem CGlob.layout : FW.Layout anyOk CGlob.dec CGlob.enc where
  back o c _ _ _ := by simp [CGlob.dec, CGlob.enc]
  forth f o e := by
    simp only [CGlob.dec, keepIf_eq_some, Option.bind_eq_some_iff, Option.map_eq_some_iff, Opnd.ofCodes_eq_some] at e
    obtain ⟨z, a, ha, b, hb, n, hn, rfl⟩ := e
    simp_all [CGlob.enc, FW.eq_iff, ctl, anyOk]

/-- The two bits of MODB in a matrix word: paired, and the scales of QC4 (07 R199). -/
theorem modb_bits (p q : Bool) : (bit p ++ bit q)[1] = p ∧ (bit p ++ bit q)[0] = q := by revert p q; decide

theorem modb_pair (p : Bool) : (bit p ++ 0#1)[1] = p ∧ (bit p ++ 0#1)[0] = false := modb_bits p false

theorem modb_of_bits (m : BitVec 2) : bit m[1] ++ bit m[0] = m := by revert m; decide

theorem XMmaF.layout : FW.Layout anyOk XMmaF.dec XMmaF.enc where
  back o c _ _ _ := by simp [XMmaF.dec, XMmaF.enc, Src.codes.of_code rfl, modb_pair o.pair]
  forth f o e := by
    simp only [XMmaF.dec, keepIf_eq_some, Option.bind_eq_some_iff, Option.map_eq_some_iff, FW.tile?_eq_some, Src.codes _ _] at e
    obtain ⟨z, t, ht, a, ⟨-, ha⟩, b, ⟨-, hb⟩, rfl⟩ := e
    have m := modb_of_bits f.modb
    simp_all [XMmaF.enc, FW.eq_iff, ctl, anyOk]

theorem XMmaI.layout : FW.Layout anyOk XMmaI.dec XMmaI.enc where
  back o c _ _ _ := by simp [XMmaI.dec, XMmaI.enc, Src.codes.of_code rfl, modb_pair o.pair]
  forth f o e := by
    simp only [XMmaI.dec, keepIf_eq_some, Option.bind_eq_some_iff, Option.map_eq_some_iff, FW.tile?_eq_some, Src.codes _ _] at e
    obtain ⟨z, t, ht, a, ⟨-, ha⟩, b, ⟨-, hb⟩, rfl⟩ := e
    have m := modb_of_bits f.modb
    simp_all [XMmaI.enc, FW.eq_iff, ctl, anyOk]

theorem XMmaQ.layout : FW.Layout anyOk XMmaQ.dec XMmaQ.enc where
  back o c _ _ _ := by simp [XMmaQ.dec, XMmaQ.enc, Src.codes.of_code rfl, modb_bits o.pair o.bs]
  forth f o e := by
    simp only [XMmaQ.dec, keepIf_eq_some, Option.bind_eq_some_iff, Option.map_eq_some_iff, FW.tile?_eq_some, Src.codes _ _,
      baseReg_eq_some] at e
    obtain ⟨z, t, ht, a, ⟨-, ha⟩, b, ⟨-, hb⟩, r, hr, rfl⟩ := e
    simp_all [XMmaQ.enc, FW.eq_iff, ctl, anyOk, modb_of_bits f.modb]

theorem XTile.layout : FW.Layout anyOk XTile.dec XTile.enc where
  back o c _ _ _ := by simp [XTile.dec, XTile.enc, TileFmt.codes.of_code rfl]
  forth f o e := by
    simp only [XTile.dec, keepIf_eq_some, Option.bind_eq_some_iff, Option.map_eq_some_iff, FW.tile?_eq_some, Opnd.ofCodes_eq_some,
      TileFmt.codes _ _] at e
    obtain ⟨n, t, ht, a, ha, z, hz, rfl⟩ := e
    simp_all [XTile.enc, FW.eq_iff, ctl, anyOk]

theorem XAcwin.layout : FW.Layout anyOk XAcwin.dec XAcwin.enc where
  back o c _ _ _ := by simp [XAcwin.dec, XAcwin.enc]
  forth f o e := by
    simp only [XAcwin.dec, keepIf_eq_some, Option.bind_eq_some_iff, Option.map_eq_some_iff, Opnd.ofCodes_eq_some] at e
    obtain ⟨z, a, ha, b, hb, d, hd, rfl⟩ := e
    simp_all [XAcwin.enc, FW.eq_iff, ctl, anyOk]

/-- The operand v0, whole, has zeros in its fields (07 R213). -/
theorem Opnd.beq_v0 (o : Opnd) : (o == ⟨.reg 0, .whole⟩) = (o.src.code == 0#7 && o.md.code == 0#2) := by
  have v0 : Opnd.ofCodes 0#7 0#2 = some ⟨.reg 0, .whole⟩ := rfl
  rw [Bool.eq_iff_iff, beq_iff_eq, Bool.and_eq_true, beq_iff_eq, beq_iff_eq, ← Opnd.ofCodes_eq_some, v0, Option.some.injEq, eq_comm]

/-- A TSWEEP of one source has zeros in the fields of the second (07 R213). -/
theorem XSweep.layout : FW.Layout (fun _ o => o.op.two || o.c == ⟨.reg 0, .whole⟩) XSweep.dec XSweep.enc where
  back o c m n k := by
    rw [Opnd.beq_v0] at k
    simp [XSweep.dec, XSweep.enc, SweepOp.codes.of_code rfl, k]
  forth f o e := by
    simp only [XSweep.dec, keepIf_eq_some, Option.bind_eq_some_iff, Opnd.ofCodes_eq_some, SweepOp.codes _ _, Option.some.injEq] at e
    obtain ⟨z, op, ⟨-, hop⟩, a, ha, b, hb, d, ⟨hs, hm⟩, k, rfl⟩ := e
    refine ⟨?_, by simp_all [XSweep.enc, FW.eq_iff, ctl]⟩
    rw [Opnd.beq_v0, hs, hm]
    exact k

theorem XRed.layout : FW.Layout anyOk XRed.dec XRed.enc where
  back o c _ _ _ := by simp [XRed.dec, XRed.enc, RedOp.codes.of_code rfl]
  forth f o e := by
    simp only [XRed.dec, keepIf_eq_some, Option.bind_eq_some_iff, Option.map_eq_some_iff, Opnd.ofCodes_eq_some, RedOp.codes _ _] at e
    obtain ⟨z, op, ⟨-, hop⟩, a, ha, b, hb, m, hm, rfl⟩ := e
    simp_all [XRed.enc, FW.eq_iff, ctl, anyOk]

theorem PUnify.layout : FW.Layout anyOk PUnify.dec PUnify.enc where
  back o c _ _ _ := by
    have hf := modifier_of_flag o.f
    simp_all [PUnify.dec, PUnify.enc, Src.codes.of_code rfl]
  forth f o e := by
    simp only [PUnify.dec, keepIf_eq_some, Option.bind_eq_some_iff, Option.map_eq_some_iff, Opnd.ofCodes_eq_some, FW.p?_eq_some,
      Src.codes _ _, Bool.and_eq_true, decide_eq_true_eq] at e
    obtain ⟨⟨z, n⟩, p, hp, a, ⟨-, ha⟩, b, hb, rfl⟩ := e
    have m := flag_of_modifier n
    simp_all [PUnify.enc, FW.eq_iff, ctl, anyOk]

theorem STry.layout : FW.Layout anyOk STry.dec STry.enc where
  back o c _ _ _ := by simp [STry.dec, STry.enc]
  forth f o e := by
    simp only [STry.dec, keepIf_eq_some, Option.map_eq_some_iff, baseReg_eq_some] at e
    obtain ⟨z, r, hr, rfl⟩ := e
    simp_all [STry.enc, FW.eq_iff, ctl, anyOk]

/-- A write of the special register numbered `n`. -/
theorem wrsr_layout (n : BitVec 8) :
    FW.Layout anyOk (fun f => keepIf (f.noD && f.noH && f.noT && f.imm.extractLsb' 8 10 == 0 && f.imm.extractLsb' 0 8 == n)
      (Opnd.ofCodes f.sa f.moda)) (encWrsr (n.setWidth 18)) where
  back o c _ _ _ := by simp [encWrsr]
  forth f o e := by
    simp only [keepIf_eq_some, Opnd.ofCodes_eq_some, Bool.and_eq_true, beq_iff_eq] at e
    obtain ⟨⟨⟨z, hi⟩, rfl⟩, a⟩ := e
    simp_all [encWrsr, FW.eq_iff, ctl, anyOk, setWidth_extract_low]

theorem map_keepIf {α β : Type} (b : Bool) (x : Option α) (g : α → β) : (keepIf b x).map g = keepIf b (x.map g) := by cases b <;> rfl

theorem keepIf_and {α : Type} {a : Bool} {n m : BitVec 8} {x : Option α} (h : n = m) : keepIf a x = keepIf (a && n == m) x := by simp [h]

/-! ### Full words -/

section
open BitVec

/-- A field above TYPE lies in the rest of the word. -/
theorem FW.extract_toWord (f : FW) (s l : Nat) (h : 3 ≤ s) :
    f.toWord.extractLsb' s l =
      ((0 : BitVec 1) ++ f.maj ++ f.min ++ f.ga ++ f.na ++ f.gb ++ f.nb ++ f.dst ++ f.nwb ++ f.sa ++ f.moda ++ f.sb ++ f.modb ++
        f.sc ++ f.modc ++ f.ch ++ f.stall ++ f.yld).extractLsb' (s - 3) l := extractLsb'_append_eq_of_le h

theorem FW.ofWord_toWord (f : FW) : FW.ofWord f.toWord = f := by
  have low : f.toWord.extractLsb' 0 3 = f.ty := extractLsb'_append_eq_right
  simp (disch := decide) only [FW.ofWord, FW.extract_toWord, low, extractLsb'_append_eq_of_le, extractLsb'_append_eq_of_add_le,
    extractLsb'_eq_self, Nat.reduceSub]

theorem extract_63 (w : W64) : w.extractLsb' 63 1 = bit (w.getLsbD 63) := by
  ext k hk
  obtain rfl : k = 0 := by omega
  rw [getElem_extractLsb', Nat.add_zero]
  cases w.getLsbD 63 <;> simp [bit]

/-- FM of a full word is 0 (02 R32). -/
theorem FW.toWord_bit63 (f : FW) : f.toWord.getLsbD 63 = false := by
  have fm : bit (f.toWord.getLsbD 63) = 0 := by
    rw [← extract_63]
    simp (disch := decide) only [FW.extract_toWord, extractLsb'_append_eq_of_le, extractLsb'_eq_self, Nat.reduceSub]
  rw [← flag_bit (f.toWord.getLsbD 63), fm]
  rfl

theorem FW.toWord_ofWord {w : W64} (h : w.getLsbD 63 = false) : (FW.ofWord w).toWord = w := by
  have fm : (0 : BitVec 1) = w.extractLsb' 63 1 := by rw [extract_63, h]; rfl
  simp (disch := decide) only [FW.ofWord, FW.toWord, fm, extractLsb'_append_extractLsb'_eq_extractLsb']
  exact extractLsb'_eq_self

end

/-! ### Slots and dual words (02 R45, R46) -/

section
open BitVec
variable {τ : Type} {of : BitVec 3 → Option τ} {code : τ → BitVec 3}

theorem SlotF.extract_enc (code : τ → BitVec 3) (op : BitVec 7) (f : SlotF τ) (s l : Nat) (h : 2 ≤ s) :
    (SlotF.enc code op f).extractLsb' s l =
      (op ++ f.d.r ++ bit f.d.nwb ++ f.src.code ++ f.g ++ bit f.n ++ code f.t).extractLsb' (s - 2) l := extractLsb'_append_eq_of_le h

/-- The fields of a slot stand where they are read. -/
theorem SlotF.enc_fields (code : τ → BitVec 3) (op : BitVec 7) (f : SlotF τ) :
    let s := SlotF.enc code op f
    s.extractLsb' 23 7 = op ∧ s.extractLsb' 17 6 = f.d.r ∧ s.extractLsb' 16 1 = bit f.d.nwb ∧ s.extractLsb' 9 7 = f.src.code ∧
      s.extractLsb' 6 3 = f.g ∧ s.extractLsb' 5 1 = bit f.n ∧ s.extractLsb' 2 3 = code f.t ∧ s.extractLsb' 0 2 = f.md.code := by
  have low : (SlotF.enc code op f).extractLsb' 0 2 = f.md.code := extractLsb'_append_eq_right
  simp (disch := decide) only [SlotF.extract_enc, low, extractLsb'_append_eq_of_le, extractLsb'_append_eq_of_add_le,
    extractLsb'_eq_self, Nat.reduceSub, true_and]

theorem SlotF.dec_enc (h : Codes allOk of code) (op : BitVec 7) (f : SlotF τ) : SlotF.dec of (SlotF.enc code op f) = some f := by
  obtain ⟨-, hr, hw, hs, hg, hn, ht, hm⟩ := SlotF.enc_fields code op f
  simp [SlotF.dec, hr, hw, hs, hg, hn, ht, hm, Src.codes.of_code rfl, h.of_code rfl]

theorem SlotF.enc_of_dec (h : Codes allOk of code) {s : BitVec 30} {f : SlotF τ} (e : SlotF.dec of s = some f) :
    SlotF.enc code (s.extractLsb' 23 7) f = s := by
  simp only [SlotF.dec, Option.bind_eq_some_iff, Option.map_eq_some_iff, Src.codes _ _, h _ _] at e
  obtain ⟨x, ⟨-, hx⟩, t, ⟨-, ht⟩, rfl⟩ := e
  simp (disch := decide) only [SlotF.enc, hx, ht, bit_flag, Md.code_ofCode, extractLsb'_append_extractLsb'_eq_extractLsb']
  exact extractLsb'_eq_self

theorem SIOp.ofCode_sfop (o : SFOp) : SIOp.ofCode o.code = none := by cases o <;> rfl
theorem SIOp.code_ne_zero (o : SIOp) : o.code ≠ 0 := by cases o <;> decide
theorem SFOp.code_ne_zero (o : SFOp) : o.code ≠ 0 := by cases o <;> decide

theorem Slot.dec_enc (x : Slot) : Slot.dec x.enc = some x := by
  cases x with
  | nop => rfl
  | int o f =>
    simp only [Slot.dec, Slot.enc, (SlotF.enc_fields _ _ _).1, SIOp.code_ne_zero, if_false, SIOp.codes.of_code rfl,
      SlotF.dec_enc IType.codes4, Option.map_some]
  | flt o f =>
    simp only [Slot.dec, Slot.enc, (SlotF.enc_fields _ _ _).1, SFOp.code_ne_zero, if_false, SIOp.ofCode_sfop, SFOp.codes.of_code rfl,
      SlotF.dec_enc FType.codes5, Option.map_some]

theorem Slot.enc_of_dec {s : BitVec 30} {x : Slot} (e : Slot.dec s = some x) : x.enc = s := by
  unfold Slot.dec at e
  dsimp only at e
  split at e
  · simp only [keepIf_eq_some, beq_iff_eq, Option.some.injEq] at e
    obtain ⟨rfl, rfl⟩ := e
    rfl
  · split at e
    case h_1 o h =>
      obtain ⟨f, hf, rfl⟩ := Option.map_eq_some_iff.mp e
      obtain ⟨-, code⟩ := (SIOp.codes _ _).mp h
      exact (congrArg (SlotF.enc IType.code · f) code).trans (SlotF.enc_of_dec IType.codes4 hf)
    case h_2 =>
      split at e
      case h_1 o h =>
        obtain ⟨f, hf, rfl⟩ := Option.map_eq_some_iff.mp e
        obtain ⟨-, code⟩ := (SFOp.codes _ _).mp h
        exact (congrArg (SlotF.enc FType.code · f) code).trans (SlotF.enc_of_dec FType.codes5 hf)
      case h_2 => cases e

/-- The opcode of a slot is assigned (02 R47). -/
theorem slotAssigned_enc (x : Slot) : slotAssigned x.enc = true := by
  cases x with
  | nop => rfl
  | int o f => simp only [slotAssigned, Slot.enc, (SlotF.enc_fields _ _ _).1]; cases o <;> rfl
  | flt o f => simp only [slotAssigned, Slot.enc, (SlotF.enc_fields _ _ _).1]; cases o <;> rfl

theorem dualInstr_slots (k : BitVec 3) (x y : Slot) :
    (dualInstr k x y).slotX? = some x ∧ (dualInstr k x y).slotY? = some y ∧ (dualInstr k x y).dualStall = k ∧
      (dualInstr k x y).fieldsOk = true := by
  rcases x with _ | ⟨⟨⟩, f⟩ | ⟨⟨⟩, f⟩ <;> exact ⟨rfl, rfl, rfl, rfl⟩

theorem encode_dualInstr (k : BitVec 3) (x y : Slot) : encode (dualInstr k x y) = some (dualWordOf k x y) := by
  obtain ⟨hx, hy, hk, -⟩ := dualInstr_slots k x y
  simp only [encode, hx, hy, hk]

theorem dualWordOf_fields (k : BitVec 3) (x y : Slot) :
    let w := dualWordOf k x y
    w.getLsbD 63 = true ∧ w.extractLsb' 33 30 = x.enc ∧ w.extractLsb' 3 30 = y.enc ∧ w.extractLsb' 0 3 = k := by
  have rest (s l : Nat) (h : 3 ≤ s) :
      (dualWordOf k x y).extractLsb' s l = ((1 : BitVec 1) ++ x.enc ++ y.enc).extractLsb' (s - 3) l := extractLsb'_append_eq_of_le h
  have fm : bit ((dualWordOf k x y).getLsbD 63) = 1 := by
    rw [← extract_63]
    simp (disch := decide) only [rest, extractLsb'_append_eq_of_le, extractLsb'_eq_self, Nat.reduceSub]
  refine ⟨by rw [← flag_bit ((dualWordOf k x y).getLsbD 63), fm]; rfl, ?_, ?_, extractLsb'_append_eq_right⟩ <;>
    simp (disch := decide) only [rest, extractLsb'_append_eq_of_le, extractLsb'_append_eq_right, Nat.reduceSub]

theorem decode_dualWordOf (k : BitVec 3) (x y : Slot) : decode (dualWordOf k x y) = .ok (dualInstr k x y) := by
  obtain ⟨h63, hx, hy, hk⟩ := dualWordOf_fields k x y
  simp only [decode, h63, if_true, decodeDual, hx, hy, hk, slotAssigned_enc, Bool.and_self, Slot.dec_enc, Option.bind_some,
    Option.map_some, orReserved]

theorem dualParts {w : W64} (h : w.getLsbD 63 = true) :
    (1 : BitVec 1) ++ w.extractLsb' 33 30 ++ w.extractLsb' 3 30 ++ w.extractLsb' 0 3 = w := by
  have fm : (1 : BitVec 1) = w.extractLsb' 63 1 := by rw [extract_63, h]; rfl
  simp (disch := decide) only [fm, extractLsb'_append_extractLsb'_eq_extractLsb']
  exact extractLsb'_eq_self

theorem decodeDual_encodes {w : W64} {i : Instr} (h : w.getLsbD 63 = true) (e : decodeDual w = .ok i) :
    encode i = some w ∧ i.fieldsOk = true := by
  unfold decodeDual at e
  dsimp only at e
  split at e
  · cases hx : Slot.dec (w.extractLsb' 33 30) with
    | none => rw [hx] at e; cases e
    | some x =>
      cases hy : Slot.dec (w.extractLsb' 3 30) with
      | none => rw [hx, hy] at e; cases e
      | some y =>
        rw [hx, hy] at e
        cases e
        refine ⟨?_, (dualInstr_slots _ x y).2.2.2⟩
        rw [encode_dualInstr, dualWordOf, Slot.enc_of_dec hx, Slot.enc_of_dec hy, dualParts h]
  · cases e

end

/-! ### The opcode map (02 R62) -/

/-- The fields of an instruction, where it has fields, decode to it. -/
def FieldsReadBack (i : Instr) : Prop :=
  match i.fw? with
  | some f => decodeFull f = .ok i
  | none => True

/-- An instruction with two slots is the dual word of them. -/
def SlotsReadBack (i : Instr) : Prop :=
  match i.slotX?, i.slotY? with
  | some x, some y => dualInstr i.dualStall x y = i
  | _, _ => True

/-- The fields `f` encode the instruction, and no field of it fails a check. -/
def Encodes (i : Instr) (f : FW) : Prop := encode i = some f.toWord ∧ i.fieldsOk = true

/-- An instruction without slots encodes to a full word. -/
theorem encode_of_fw? {i : Instr} {f : FW} (e : i.fw? = some f) (x : i.slotX? = none) : encode i = some f.toWord := by
  simp only [encode, x, e, Option.map_some]

section
variable {α : Type} {ok : Ctl → α → Bool} {dec : FW → Option α} {enc : α → FW → FW} {K : Ctl → α → Instr}

/-- A row of the opcode map decodes what it encodes. -/
theorem FW.Layout.decodes (L : FW.Layout ok dec enc) {c : Ctl} {o : α} (k : ok c o = true) (maj : BitVec 6) (min : BitVec 4) :
    orReserved ((dec (enc o (c.fw maj min))).map (K (ctl (enc o (c.fw maj min))))) = .ok (K c o) := by
  rw [L.back o c maj min k, L.ctl_enc]
  rfl

/-- What a row decodes, its fields encode. -/
theorem FW.Layout.encodes (L : FW.Layout ok dec enc) {f : FW} {i : Instr} {a b : Nat}
    (e : orReserved ((dec f).map (K (ctl f))) = .ok i) (hmaj : f.maj.toNat = a) (hmin : f.min.toNat = b)
    (row : ∀ c o, (K c o).fw? = some (enc o (c.fw (BitVec.ofNat 6 a) (BitVec.ofNat 4 b))) ∧ (K c o).slotX? = none ∧
      (K c o).fieldsOk = ok c o) :
    Encodes i f := by
  cases d : dec f with
  | none => rw [d] at e; cases e
  | some o =>
    rw [d] at e
    cases e
    obtain ⟨k, hf⟩ := L.forth f o d
    obtain ⟨hw, hx, hk⟩ := row (ctl f) o
    subst hmaj hmin
    simp only [BitVec.ofNat_toNat, BitVec.setWidth_eq] at hw
    exact ⟨encode_of_fw? (hw.trans (congrArg some hf)) hx, hk.trans k⟩

end

theorem plane_fieldsOk (c : Ctl) (o : RRaw IType) : (Instr.plane c o).fieldsOk = decide (o.k.toNat < o.t.width) := by
  obtain ⟨_, _, _, ⟨⟩⟩ := o <;> rfl

theorem unplane_fieldsOk (c : Ctl) (o : RRaw IType) : (Instr.unplane c o).fieldsOk = decide (o.k.toNat < o.t.width) :=
  plane_fieldsOk c o

theorem tsweep_fieldsOk (c : Ctl) (o : XSweep) : (Instr.tsweep c o).fieldsOk = (o.op.two || o.c == ⟨.reg 0, .whole⟩) := by
  obtain ⟨⟨⟩, _, _, _⟩ := o <;> rfl

section
variable {f : FW} {i : Instr}

theorem decWrsr_encodes (e : decWrsr f = .ok i) (m : f.maj.toNat = 0) (n : f.min.toNat = 6) : Encodes i f := by
  unfold decWrsr at e
  dsimp only at e
  split at e
  case h_1 h | h_2 h | h_3 h =>
    obtain ⟨-, num⟩ := (SReg.codes _ _).mp h
    rw [keepIf_and num.symm, ← map_keepIf] at e
    exact (wrsr_layout _).encodes e m n fun _ _ => ⟨rfl, rfl, rfl⟩
  case h_4 | h_5 => cases e

theorem decSys_encodes (e : decSys f = .ok i) (m : f.maj.toNat = 0) :
    (∃ c, i = .halt c ∨ i = .eret c) ∨ Encodes i f := by
  unfold decSys at e
  split at e
  case h_1 h => exact .inr (decNone_layout.encodes (K := fun c _ => .nop c) e m h fun _ _ => ⟨rfl, rfl, rfl⟩)
  case h_2 h | h_3 h => exact .inr (decCode_layout.encodes e m h fun _ _ => ⟨rfl, rfl, rfl⟩)
  case h_4 => cases e; exact .inl ⟨_, .inl rfl⟩
  case h_5 => cases e; exact .inl ⟨_, .inr rfl⟩
  case h_6 h => exact .inr (decRdsr_layout.encodes (K := fun c x => .rdsr c x.1 x.2) e m h fun _ _ => ⟨rfl, rfl, rfl⟩)
  case h_7 h => exact .inr (decWrsr_encodes e m h)
  case h_8 h => exact .inr (decD_layout.encodes e m h fun _ _ => ⟨rfl, rfl, rfl⟩)
  case h_9 h => exact .inr (decPerf_layout.encodes (K := fun c x => .perf c x.1 x.2) e m h fun _ _ => ⟨rfl, rfl, rfl⟩)
  case h_10 h => exact .inr (decNone_layout.encodes (K := fun c _ => .yieldW c) e m h fun _ _ => ⟨rfl, rfl, rfl⟩)
  case h_11 => cases e

theorem decFlow_encodes (e : decFlow f = .ok i) (m : f.maj.toNat = 1) : Encodes i f := by
  unfold decFlow at e
  split at e
  case h_1 h => exact decCode_layout.encodes e m h fun _ _ => ⟨rfl, rfl, rfl⟩
  case h_2 h => exact decJoin_layout.encodes e m h fun _ _ => ⟨rfl, rfl, rfl⟩
  case h_3 h => exact decCall_layout.encodes (K := fun c x => .call c x.1 x.2) e m h fun _ _ => ⟨rfl, rfl, rfl⟩
  case h_4 h | h_5 h | h_8 h => exact decA_layout.encodes e m h fun _ _ => ⟨rfl, rfl, rfl⟩
  case h_6 h => exact decNone_layout.encodes (K := fun c _ => .exitW c) e m h fun _ _ => ⟨rfl, rfl, rfl⟩
  case h_7 h => exact decP_layout.encodes e m h fun _ _ => ⟨rfl, rfl, rfl⟩
  case h_9 h => exact P2.layout.encodes e m h fun _ _ => ⟨rfl, rfl, rfl⟩
  case h_10 h => exact decWid_layout.encodes (K := fun c x => .widW c x.1 x.2) e m h fun _ _ => ⟨rfl, rfl, rfl⟩
  case h_11 => cases e

theorem decIalu_encodes (e : decIalu f = .ok i) (m : f.maj.toNat = 2) : Encodes i f := by
  unfold decIalu at e
  split at e
  case h_1 h | h_2 h | h_3 h | h_4 h | h_7 h | h_8 h | h_9 h | h_10 h | h_11 h =>
    exact (R2.layout IType.codes4).encodes e m h fun _ _ => ⟨rfl, rfl, rfl⟩
  case h_5 h | h_6 h | h_14 h => exact (R1.layout IType.codes4).encodes e m h fun _ _ => ⟨rfl, rfl, rfl⟩
  case h_12 h => exact RLea.layout.encodes e m h fun _ _ => ⟨rfl, rfl, rfl⟩
  case h_13 h => exact RSel.layout.encodes e m h fun _ _ => ⟨rfl, rfl, rfl⟩
  case h_15 h => exact RMovi.layout.encodes e m h fun _ _ => ⟨rfl, rfl, rfl⟩
  case h_16 h => exact RMovhi.layout.encodes e m h fun _ _ => ⟨rfl, rfl, rfl⟩
  case h_17 => cases e

theorem decImul_encodes (e : decImul f = .ok i) (m : f.maj.toNat = 3) : Encodes i f := by
  unfold decImul at e
  split at e
  case h_1 h | h_2 h | h_3 h | h_5 h | h_6 h | h_7 h | h_8 h => exact (R2.layout IType.codes4).encodes e m h fun _ _ => ⟨rfl, rfl, rfl⟩
  case h_4 h => exact (R3.layout IType.codes4).encodes e m h fun _ _ => ⟨rfl, rfl, rfl⟩
  case h_9 h | h_10 h | h_11 h | h_12 h => exact (R1.layout IType.codes4).encodes e m h fun _ _ => ⟨rfl, rfl, rfl⟩
  case h_13 => cases e

theorem decLogic_encodes (e : decLogic f = .ok i) (m : f.maj.toNat = 4) : Encodes i f := by
  unfold decLogic at e
  split at e
  case h_1 h | h_2 h | h_3 h | h_4 h | h_5 h | h_7 h | h_8 h | h_9 h | h_10 h =>
    exact (R2.layout IType.codes4).encodes e m h fun _ _ => ⟨rfl, rfl, rfl⟩
  case h_6 h => exact (R1.layout IType.codes4).encodes e m h fun _ _ => ⟨rfl, rfl, rfl⟩
  case h_11 h | h_12 h | h_13 h => exact (R3.layout IType.codes1).encodes e m h fun _ _ => ⟨rfl, rfl, rfl⟩
  case h_14 h => exact (R2.layout IType.codes3).encodes e m h fun _ _ => ⟨rfl, rfl, rfl⟩
  case h_15 h => exact RUnpk.layout.encodes e m h fun _ _ => ⟨rfl, rfl, rfl⟩
  case h_16 => cases e

theorem decPred_encodes (e : decPred f = .ok i) (m : f.maj.toNat = 5) : Encodes i f := by
  unfold decPred at e
  split at e
  case h_1 h | h_2 h => exact (PCmp.layout IType.codes4 Cond.codes).encodes e m h fun _ _ => ⟨rfl, rfl, rfl⟩
  case h_3 h => exact (PCmp.layout FType.codes5 FCond.codes).encodes e m h fun _ _ => ⟨rfl, rfl, rfl⟩
  case h_4 h | h_5 h | h_6 h => exact PLog2.layout.encodes e m h fun _ _ => ⟨rfl, rfl, rfl⟩
  case h_7 h | h_8 h => exact PLog1.layout.encodes e m h fun _ _ => ⟨rfl, rfl, rfl⟩
  case h_9 h => exact P1.layout.encodes e m h fun _ _ => ⟨rfl, rfl, rfl⟩
  case h_10 h => exact decD_layout.encodes e m h fun _ _ => ⟨rfl, rfl, rfl⟩
  case h_11 => cases e

theorem decFalu_encodes (e : decFalu f = .ok i) (m : f.maj.toNat = 6) : Encodes i f := by
  unfold decFalu at e
  split at e
  case h_1 h | h_2 h | h_3 h | h_5 h | h_6 h | h_11 h => exact (R2.layout FType.codes5).encodes e m h fun _ _ => ⟨rfl, rfl, rfl⟩
  case h_4 h => exact (R3.layout FType.codes5).encodes e m h fun _ _ => ⟨rfl, rfl, rfl⟩
  case h_7 h | h_8 h | h_9 h => exact (R1.layout FType.codes5).encodes e m h fun _ _ => ⟨rfl, rfl, rfl⟩
  case h_10 h => exact RFround.layout.encodes e m h fun _ _ => ⟨rfl, rfl, rfl⟩
  case h_12 => cases e

theorem decFsfu_encodes (e : decFsfu f = .ok i) (m : f.maj.toNat = 7) : Encodes i f := by
  unfold decFsfu at e
  split at e
  case h_1 h | h_2 h | h_5 h | h_6 h | h_7 h | h_8 h | h_9 h => exact (R1.layout FType.codes13).encodes e m h fun _ _ => ⟨rfl, rfl, rfl⟩
  case h_3 h => exact (R1.layout FType.codes3).encodes e m h fun _ _ => ⟨rfl, rfl, rfl⟩
  case h_4 h => exact (R2.layout FType.codes3).encodes e m h fun _ _ => ⟨rfl, rfl, rfl⟩
  case h_10 => cases e

theorem decConv_encodes (e : decConv f = .ok i) (m : f.maj.toNat = 8) : Encodes i f := by
  unfold decConv at e
  split at e
  case h_1 h => exact RCvt.layout.encodes e m h fun _ _ => ⟨rfl, rfl, rfl⟩
  case h_2 h => exact (R2.layout FType.codes13).encodes e m h fun _ _ => ⟨rfl, rfl, rfl⟩
  case h_3 h => exact RRaw.layout_qunpk.encodes e m h fun _ _ => ⟨rfl, rfl, rfl⟩
  case h_4 h | h_5 h => exact RRaw.layout_plane.encodes e m h fun c o => ⟨rfl, rfl, plane_fieldsOk c o⟩
  case h_6 => cases e

theorem decXlane_encodes (e : decXlane f = .ok i) (m : f.maj.toNat = 9) : Encodes i f := by
  unfold decXlane at e
  split at e
  case h_1 h | h_2 h | h_3 h | h_8 h => exact (R2.layout IType.codes4).encodes e m h fun _ _ => ⟨rfl, rfl, rfl⟩
  case h_4 h | h_7 h => exact RD1.layout.encodes e m h fun _ _ => ⟨rfl, rfl, rfl⟩
  case h_5 h => exact (RLane.layout false).encodes e m h fun _ _ => ⟨rfl, rfl, rfl⟩
  case h_6 h => exact (RLane.layout true).encodes e m h fun _ _ => ⟨rfl, rfl, rfl⟩
  case h_9 => cases e

theorem decLoad_encodes (e : decLoad f = .ok i) (m : f.maj.toNat = 10) : Encodes i f := by
  unfold decLoad at e
  split at e
  case h_1 h | h_2 h | h_3 h => exact MLd.layout.encodes e m h fun _ _ => ⟨rfl, rfl, rfl⟩
  case h_4 h => exact OLd.layout.encodes e m h fun _ _ => ⟨rfl, rfl, rfl⟩
  case h_5 h => exact MPref.layout.encodes e m h fun _ _ => ⟨rfl, rfl, rfl⟩
  case h_6 => cases e

theorem decStore_encodes (e : decStore f = .ok i) (m : f.maj.toNat = 11) : Encodes i f := by
  unfold decStore at e
  split at e
  case h_1 h | h_3 h => exact MSt.layout.encodes e m h fun _ _ => ⟨rfl, rfl, rfl⟩
  case h_2 h => exact OSt.layout.encodes e m h fun _ _ => ⟨rfl, rfl, rfl⟩
  case h_4 h => exact MZero.layout.encodes e m h fun _ _ => ⟨rfl, rfl, rfl⟩
  case h_5 => cases e

theorem decAtom_encodes (e : decAtom f = .ok i) (m : f.maj.toNat = 12) : Encodes i f := by
  unfold decAtom at e
  split at e
  case h_1 h | h_2 h | h_3 h | h_4 h | h_5 h | h_6 h | h_7 h | h_8 h | h_9 h | h_10 h | h_12 h =>
    exact AAtom.layout.encodes e m h fun _ _ => ⟨rfl, rfl, rfl⟩
  case h_11 h => exact ACas.layout.encodes e m h fun _ _ => ⟨rfl, rfl, rfl⟩
  case h_13 => cases e

theorem decRed_encodes (e : decRed f = .ok i) (m : f.maj.toNat = 13) : Encodes i f := by
  unfold decRed at e
  split at e
  case h_1 h | h_2 h | h_3 h | h_4 h | h_5 h | h_6 h | h_7 h | h_8 h | h_9 h => exact ARed.layout.encodes e m h fun _ _ => ⟨rfl, rfl, rfl⟩
  case h_10 => cases e

theorem decAtomc_encodes (e : decAtomc f = .ok i) (m : f.maj.toNat = 14) : Encodes i f := by
  unfold decAtomc at e
  split at e
  case h_1 h => exact ACasc.layout.encodes e m h fun _ _ => ⟨rfl, rfl, rfl⟩
  case h_2 h => exact ADecc.layout.encodes e m h fun _ _ => ⟨rfl, rfl, rfl⟩
  case h_3 => cases e

theorem decSync_encodes (e : decSync f = .ok i) (m : f.maj.toNat = 15) : Encodes i f := by
  unfold decSync at e
  split at e
  case h_1 h => exact OFence.layout.encodes e m h fun _ _ => ⟨rfl, rfl, rfl⟩
  case h_2 h => exact decBar_layout.encodes e m h fun _ _ => ⟨rfl, rfl, rfl⟩
  case h_3 h => exact AWaitc.layout.encodes e m h fun _ _ => ⟨rfl, rfl, rfl⟩
  case h_4 h => exact decAB_layout.encodes (K := fun c x => .coinit c x.1 x.2) e m h fun _ _ => ⟨rfl, rfl, rfl⟩
  case h_5 h => exact RD1.layout.encodes e m h fun _ _ => ⟨rfl, rfl, rfl⟩
  case h_6 h => exact decAB_layout.encodes (K := fun c x => .expect c x.1 x.2) e m h fun _ _ => ⟨rfl, rfl, rfl⟩
  case h_7 h => exact P2.layout.encodes e m h fun _ _ => ⟨rfl, rfl, rfl⟩
  case h_8 h | h_9 h => exact MSec.layout.encodes e m h fun _ _ => ⟨rfl, rfl, rfl⟩
  case h_10 => cases e

theorem decCopy_encodes (e : decCopy f = .ok i) (m : f.maj.toNat = 16) : Encodes i f := by
  unfold decCopy at e
  split at e
  case h_1 h | h_2 h | h_3 h => exact CBox.layout.encodes e m h fun _ _ => ⟨rfl, rfl, rfl⟩
  case h_4 h => exact CGlob.layout.encodes e m h fun _ _ => ⟨rfl, rfl, rfl⟩
  case h_5 => cases e

theorem decMma_encodes (e : decMma f = .ok i) (m : f.maj.toNat = 17) : Encodes i f := by
  unfold decMma at e
  split at e
  case h_1 h | h_2 h | h_3 h | h_4 h => exact XMmaF.layout.encodes e m h fun _ _ => ⟨rfl, rfl, rfl⟩
  case h_5 h | h_6 h | h_7 h | h_8 h => exact XMmaI.layout.encodes e m h fun _ _ => ⟨rfl, rfl, rfl⟩
  case h_9 h => exact XMmaQ.layout.encodes e m h fun _ _ => ⟨rfl, rfl, rfl⟩
  case h_10 => cases e

theorem decMacc_encodes (e : decMacc f = .ok i) (m : f.maj.toNat = 18) : Encodes i f := by
  unfold decMacc at e
  split at e
  case h_1 h => exact decTile_layout.encodes e m h fun _ _ => ⟨rfl, rfl, rfl⟩
  case h_2 h | h_3 h => exact XTile.layout.encodes e m h fun _ _ => ⟨rfl, rfl, rfl⟩
  case h_4 h => exact decMfence_layout.encodes e m h fun _ _ => ⟨rfl, rfl, rfl⟩
  case h_5 h => exact decA_layout.encodes e m h fun _ _ => ⟨rfl, rfl, rfl⟩
  case h_6 h => exact XAcwin.layout.encodes e m h fun _ _ => ⟨rfl, rfl, rfl⟩
  case h_7 => cases e

theorem decTsw_encodes (e : decTsw f = .ok i) (m : f.maj.toNat = 19) : Encodes i f := by
  unfold decTsw at e
  split at e
  case h_1 h => exact XSweep.layout.encodes e m h fun c o => ⟨rfl, rfl, tsweep_fieldsOk c o⟩
  case h_2 h => exact XRed.layout.encodes e m h fun _ _ => ⟨rfl, rfl, rfl⟩
  case h_3 => cases e

theorem decTerm_encodes (e : decTerm f = .ok i) (m : f.maj.toNat = 20) : Encodes i f := by
  unfold decTerm at e
  split at e
  case h_1 h | h_3 h | h_6 h => exact RD1.layout.encodes e m h fun _ _ => ⟨rfl, rfl, rfl⟩
  case h_2 h | h_7 h => exact RD2.layout.encodes e m h fun _ _ => ⟨rfl, rfl, rfl⟩
  case h_4 h => exact PUnify.layout.encodes e m h fun _ _ => ⟨rfl, rfl, rfl⟩
  case h_5 h => exact decAB_layout.encodes (K := fun c x => .bindT c x.1 x.2) e m h fun _ _ => ⟨rfl, rfl, rfl⟩
  case h_8 h => exact P2.layout.encodes e m h fun _ _ => ⟨rfl, rfl, rfl⟩
  case h_9 => cases e

theorem decSearch_encodes (e : decSearch f = .ok i) (m : f.maj.toNat = 21) : Encodes i f := by
  unfold decSearch at e
  split at e
  case h_1 h => exact STry.layout.encodes e m h fun _ _ => ⟨rfl, rfl, rfl⟩
  case h_2 h => exact decNone_layout.encodes (K := fun c _ => .trust c) e m h fun _ _ => ⟨rfl, rfl, rfl⟩
  case h_3 h => exact decNone_layout.encodes (K := fun c _ => .failW c) e m h fun _ _ => ⟨rfl, rfl, rfl⟩
  case h_4 h | h_5 h | h_7 h => exact decA_layout.encodes e m h fun _ _ => ⟨rfl, rfl, rfl⟩
  case h_6 h => exact decP_layout.encodes e m h fun _ _ => ⟨rfl, rfl, rfl⟩
  case h_8 => cases e

/-- What a full word decodes to, its fields encode (02 R62, R63). -/
theorem decodeFull_encodes (e : decodeFull f = .ok i) : (∃ c, i = .halt c ∨ i = .eret c) ∨ Encodes i f := by
  unfold decodeFull at e
  split at e
  case h_1 m => exact decSys_encodes e m
  case h_2 m => exact .inr (decFlow_encodes e m)
  case h_3 m => exact .inr (decIalu_encodes e m)
  case h_4 m => exact .inr (decImul_encodes e m)
  case h_5 m => exact .inr (decLogic_encodes e m)
  case h_6 m => exact .inr (decPred_encodes e m)
  case h_7 m => exact .inr (decFalu_encodes e m)
  case h_8 m => exact .inr (decFsfu_encodes e m)
  case h_9 m => exact .inr (decConv_encodes e m)
  case h_10 m => exact .inr (decXlane_encodes e m)
  case h_11 m => exact .inr (decLoad_encodes e m)
  case h_12 m => exact .inr (decStore_encodes e m)
  case h_13 m => exact .inr (decAtom_encodes e m)
  case h_14 m => exact .inr (decRed_encodes e m)
  case h_15 m => exact .inr (decAtomc_encodes e m)
  case h_16 m => exact .inr (decSync_encodes e m)
  case h_17 m => exact .inr (decCopy_encodes e m)
  case h_18 m => exact .inr (decMma_encodes e m)
  case h_19 m => exact .inr (decMacc_encodes e m)
  case h_20 m => exact .inr (decTsw_encodes e m)
  case h_21 m => exact .inr (decTerm_encodes e m)
  case h_22 m => exact .inr (decSearch_encodes e m)
  case h_23 => cases e

end

theorem decWrsr_encWrsr (c : Ctl) (a : Opnd) :
    decWrsr (encWrsr 0x1b a (c.fw 0 6)) = .ok (.wrsrDsp c a) ∧ decWrsr (encWrsr 0x1c a (c.fw 0 6)) = .ok (.wrsrFlg c a) ∧
      decWrsr (encWrsr 0x1d a (c.fw 0 6)) = .ok (.wrsrFex c a) := by
  have imm (n : BitVec 18) : (encWrsr n a (c.fw 0 6)).imm = n := by simp [encWrsr]
  have named : SReg.ofNum 27#8 = some .dsp ∧ SReg.ofNum 28#8 = some .flg ∧ SReg.ofNum 29#8 = some .fex := ⟨rfl, rfl, rfl⟩
  refine ⟨?_, ?_, ?_⟩ <;> simp only [decWrsr, imm] <;> simp [encWrsr, named, orReserved, ctl]

/-- The fields of an instruction decode to it (02 R62). -/
theorem fieldsReadBack (i : Instr) (k : i.fieldsOk = true) : FieldsReadBack i := by
  cases i with
  | nop c => exact decNone_layout.decodes (K := fun c _ => .nop c) (o := ()) rfl _ _
  | yieldW c => exact decNone_layout.decodes (K := fun c _ => .yieldW c) (o := ()) rfl _ _
  | exitW c => exact decNone_layout.decodes (K := fun c _ => .exitW c) (o := ()) rfl _ _
  | trust c => exact decNone_layout.decodes (K := fun c _ => .trust c) (o := ()) rfl _ _
  | failW c => exact decNone_layout.decodes (K := fun c _ => .failW c) (o := ()) rfl _ _
  | trap c o | bkpt c o | bra c o => exact decCode_layout.decodes k _ _
  | rdsr c d n => exact decRdsr_layout.decodes (K := fun c x => .rdsr c x.1 x.2) (o := (d, n)) k _ _
  | lcyc c o | pget c o => exact decD_layout.decodes k _ _
  | perf c d n => exact decPerf_layout.decodes (K := fun c x => .perf c x.1 x.2) (o := (d, n)) k _ _
  | join c o => exact decJoin_layout.decodes k _ _
  | call c d off => exact decCall_layout.decodes (K := fun c x => .call c x.1 x.2) (o := (d, off)) k _ _
  | ret c o | jmpi c o | regroup c o | mwait c o | cut c o | offer c o | ovlcfg c o => exact decA_layout.decodes k _ _
  | elect c o | adopt c o => exact decP_layout.decodes k _ _
  | enq c o | waitph c o | commit c o => exact P2.layout.decodes k _ _
  | widW c d n => exact decWid_layout.decodes (K := fun c x => .widW c x.1 x.2) (o := (d, n)) k _ _
  | add c o | sub c o | adds c o | subs c o | min c o | max c o | umin c o | umax c o | avg c o | mul c o | mulh c o | umulh c o
  | div c o | udiv c o | rem c o | urem c o | and c o | or c o | xor c o | andn c o | orn c o | shl c o | shr c o | sar c o
  | rot c o | shfl c o | shflx c o | bcast c o | cxch c o => exact (R2.layout IType.codes4).decodes k _ _
  | neg c o | abs c o | mov c o | popc c o | clz c o | ctz c o | brev c o | not c o => exact (R1.layout IType.codes4).decodes k _ _
  | lea c o => exact RLea.layout.decodes k _ _
  | sel c o => exact RSel.layout.decodes k _ _
  | movi c o => exact RMovi.layout.decodes k _ _
  | movhi c o => exact RMovhi.layout.decodes k _ _
  | mad c o => exact (R3.layout IType.codes4).decodes k _ _
  | bfx c o | ubfx c o | bfi c o => exact (R3.layout IType.codes1).decodes k _ _
  | pack c o => exact (R2.layout IType.codes3).decodes k _ _
  | unpk c o => exact RUnpk.layout.decodes k _ _
  | cmp c o | ucmp c o => exact (PCmp.layout IType.codes4 Cond.codes).decodes k _ _
  | fcmp c o => exact (PCmp.layout FType.codes5 FCond.codes).decodes k _ _
  | pand c o | por c o | pxor c o => exact PLog2.layout.decodes k _ _
  | pnot c o | pmov c o => exact PLog1.layout.decodes k _ _
  | pset c o => exact P1.layout.decodes k _ _
  | fadd c o | fsub c o | fmul c o | fmin c o | fmax c o | fscale c o => exact (R2.layout FType.codes5).decodes k _ _
  | fma c o => exact (R3.layout FType.codes5).decodes k _ _
  | fneg c o | fabs c o | fclass c o => exact (R1.layout FType.codes5).decodes k _ _
  | fround c o => exact RFround.layout.decodes k _ _
  | frcp c o | frsq c o | fexp2 c o | flog2 c o | fsin c o | fcos c o | ftanh c o => exact (R1.layout FType.codes13).decodes k _ _
  | fsqrt c o => exact (R1.layout FType.codes3).decodes k _ _
  | fdiv c o => exact (R2.layout FType.codes3).decodes k _ _
  | cvt c o => exact RCvt.layout.decodes k _ _
  | qpack c o => exact (R2.layout FType.codes13).decodes k _ _
  | qunpk c o => exact RRaw.layout_qunpk.decodes k _ _
  | plane c o => exact RRaw.layout_plane.decodes (plane_fieldsOk c o ▸ k) _ _
  | unplane c o => exact RRaw.layout_plane.decodes (unplane_fieldsOk c o ▸ k) _ _
  | vote c o | matchL c o | arrive c o | tag c o | deref c o | halloc c o => exact RD1.layout.decodes k _ _
  | redl c o => exact (RLane.layout false).decodes k _ _
  | scanl c o => exact (RLane.layout true).decodes k _ _
  | ld c o | ldc c o | ldb c o => exact MLd.layout.decodes k _ _
  | lda c o => exact OLd.layout.decodes k _ _
  | pref c o => exact MPref.layout.decodes k _ _
  | st c o | stnt c o => exact MSt.layout.decodes k _ _
  | stl c o => exact OSt.layout.decodes k _ _
  | zeroSt c o => exact MZero.layout.decodes k _ _
  | atomAdd c o | atomFadd c o | atomAnd c o | atomOr c o | atomXor c o | atomMin c o | atomMax c o | atomUmin c o | atomUmax c o
  | atomExch c o | atomIncw c o => exact AAtom.layout.decodes k _ _
  | atomCas c o => exact ACas.layout.decodes k _ _
  | redAdd c o | redFadd c o | redAnd c o | redOr c o | redXor c o | redMin c o | redMax c o | redUmin c o | redUmax c o =>
    exact ARed.layout.decodes k _ _
  | casc c o => exact ACasc.layout.decodes k _ _
  | decc c o => exact ADecc.layout.decodes k _ _
  | fence c o => exact OFence.layout.decodes k _ _
  | bar c o => exact decBar_layout.decodes k _ _
  | waitc c o => exact AWaitc.layout.decodes k _ _
  | coinit c a b => exact decAB_layout.decodes (K := fun c x => .coinit c x.1 x.2) (o := (a, b)) k _ _
  | expect c a b => exact decAB_layout.decodes (K := fun c x => .expect c x.1 x.2) (o := (a, b)) k _ _
  | bindT c a b => exact decAB_layout.decodes (K := fun c x => .bindT c x.1 x.2) (o := (a, b)) k _ _
  | inv c o | wb c o => exact MSec.layout.decodes k _ _
  | copy c o | copym c o | copys c o => exact CBox.layout.decodes k _ _
  | copyg c o => exact CGlob.layout.decodes k _ _
  | mmaF8e4 c o | mmaF8e5 c o | mmaBf16 c o | mmaF16 c o => exact XMmaF.layout.decodes k _ _
  | mmaI8 c o | mmaI4 c o | mmaI2 c o | mmaB1 c o => exact XMmaI.layout.decodes k _ _
  | mmaQc4 c o => exact XMmaQ.layout.decodes k _ _
  | mzero c o => exact decTile_layout.decodes k _ _
  | mload c o | mstore c o => exact XTile.layout.decodes k _ _
  | mfence c o => exact decMfence_layout.decodes k _ _
  | acwin c o => exact XAcwin.layout.decodes k _ _
  | tsweep c o => exact XSweep.layout.decodes (tsweep_fieldsOk c o ▸ k) _ _
  | tsred c o => exact XRed.layout.decodes k _ _
  | mkt c o | getarg c o => exact RD2.layout.decodes k _ _
  | unify c o => exact PUnify.layout.decodes k _ _
  | tryM c o => exact STry.layout.decodes k _ _
  | wrsrDsp c a => exact (decWrsr_encWrsr c a).1
  | wrsrFlg c a => exact (decWrsr_encWrsr c a).2.1
  | wrsrFex c a => exact (decWrsr_encWrsr c a).2.2
  | halt c => exact (congrArg (Except.ok ∘ Instr.halt) (ctl_fw c 0 3))
  | eret c => exact (congrArg (Except.ok ∘ Instr.eret) (ctl_fw c 0 4))
  | _ => trivial

theorem slotsReadBack (i : Instr) : SlotsReadBack i := by
  cases i with
  | slotNop | slotMov | slotAdd | slotSub | slotAnd | slotOr | slotXor | slotShl | slotShr | slotSar | slotMin | slotMax | slotNeg
  | slotNot | slotFadd | slotFmul | slotFmin | slotFmax | slotFneg => rfl
  | _ => trivial

/-- The decoder gives back what was encoded. -/
theorem decode_of_encode {i : Instr} {w : W64} (k : i.fieldsOk = true) (e : encode i = some w) : decode w = .ok i := by
  unfold encode at e
  split at e
  case h_1 x y hx hy =>
    have slots := slotsReadBack i
    rw [SlotsReadBack, hx, hy] at slots
    cases e
    rw [decode_dualWordOf, slots]
  case h_2 =>
    obtain ⟨f, hf, rfl⟩ := Option.map_eq_some_iff.mp e
    have fields := fieldsReadBack i k
    rw [FieldsReadBack, hf] at fields
    rw [decode, FW.toWord_bit63, if_neg Bool.false_ne_true, FW.ofWord_toWord, fields]

/-- The encoder gives back what was decoded. -/
theorem encode_of_decode {w : W64} {i : Instr} (e : decode w = .ok i) :
    (∃ c, i = .halt c ∨ i = .eret c) ∨ (encode i = some w ∧ i.fieldsOk = true) := by
  unfold decode at e
  split at e
  case isTrue h => exact .inr (decodeDual_encodes h e)
  case isFalse h =>
    refine (decodeFull_encodes e).imp_right fun ⟨hw, k⟩ => ⟨?_, k⟩
    rw [hw, FW.toWord_ofWord (Bool.eq_false_iff.mpr h)]

/-! ### Words in memory -/

theorem wordBytes_getD (w : W64) {k : Nat} (h : k < 8) : (wordBytes w).getD k 0 = w.extractLsb' (8 * k) 8 := by
  simp [wordBytes, h]

/-- The first `n` bytes put together are the low bits of the word. -/
theorem getLsbD_bytes (w : W64) (j : Nat) (n : Nat) (h : n ≤ 8) :
    ((List.range n).foldl (fun v k => v ||| ((((wordBytes w).getD k 0).setWidth 64) <<< (8 * k))) (0 : W64)).getLsbD j =
      (decide (j < 8 * n) && w.getLsbD j) := by
  induction n with
  | zero => simp
  | succ n ih =>
    rw [List.range_succ, List.foldl_append]
    simp only [List.foldl_cons, List.foldl_nil, BitVec.getLsbD_or, ih (by omega), wordBytes_getD w (show n < 8 by omega)]
    simp
    grind

/-- Eight bytes of memory are the word (00 R3). -/
theorem bytesWord_wordBytes (w : W64) : bytesWord (wordBytes w) = w := by
  apply BitVec.eq_of_getLsbD_eq
  intro j hj
  exact (getLsbD_bytes w j 8 le_rfl).trans (by simp [hj])

/-- Settles O59: each row of the opcode map has a layout, whose decoder and encoder give back each other's fields, and a dual word is its two
slots. -/
theorem decodeEncode : Obligations.DecodeEncode := by
  unfold Obligations.DecodeEncode
  exact ⟨fun _ _ => decode_of_encode, fun _ _ => encode_of_decode, fun w => congrArg decode (bytesWord_wordBytes w)⟩

end Sys2Proof
end

section
/-! PROOF of O9, of the dual words: what a slot writes into a lane, what the two writes leave of the group, and what each operation of a slot
computes. -/

-- One theorem at a time, as for O59: the check's memory holds no more threads.
set_option Elab.async false

namespace Sys2Proof.Machine

/-! ### One meaning for all dual words -/

/-- Whatever slot X holds, the word of two slots means both of them. -/
theorem exec_dualInstr (t : BitVec 3) (x y : Slot) (s : State) : exec (dualInstr t x y) s = dualWord s x y := by
  cases x with
  | nop => rfl
  | int o f => cases o <;> rfl
  | flt o f => cases o <;> rfl

/-- A dual word is the word of its slots. -/
theorem exec_of_slots {i : Instr} {x y : Slot} (hx : i.slotX? = some x) (hy : i.slotY? = some y) (s : State) : exec i s = dualWord s x y := by
  have e := slotsReadBack i
  rw [SlotsReadBack, hx, hy] at e
  rw [← e]
  exact exec_dualInstr _ x y s

/-! ### What one slot writes -/

/-- A group with other lanes, its latches shifted for a result if one was written. -/
def Group.latched (g : Group) (d : Option Reg) (l : List Lane) : Group :=
  match d with
  | none => { g with lanes := l }
  | some r => { g.shiftLatch r with lanes := l }

/-- What the end of a word keeps of a group beside its lanes and latches, of which some have changed. -/
theorem Group.FlowOf.restIs_latched {g h : Group} {a b c d : Option Reg} {l : List Lane} {fl : Flags}
    (hf : ({ g with l0 := a, l1 := b, l2 := c, l3 := d, lanes := l, flg := fl } : Group).FlowOf h) :
    g.restIs h g.sb fl ∧ h.l0 = a ∧ h.l1 = b ∧ h.l2 = c ∧ h.l3 = d := by
  obtain ⟨s0, s1, t, w, rfl, hw⟩ := hf
  exact ⟨⟨rfl, hw⟩, rfl, rfl, rfl, rfl⟩

/-- The latches of `h` are those of `g` after two results, written or not: the second lies over the first. -/
def Group.latchesAfter (g h : Group) (d e : Option Reg) : Prop :=
  match d, e with
  | none, none => g.sameLatches h
  | some r, none => g.latchesShift h r
  | none, some r => g.latchesShift h r
  | some r, some r' => h.l0 = some r' ∧ h.l1 = some r ∧ h.l2 = g.l0 ∧ h.l3 = g.l1

/-- What the end of a word keeps of a group after two results. -/
theorem Group.FlowOf.latched_twice {g h : Group} {d e : Option Reg} {l m : List Lane} {fl : Flags}
    (hf : (((g.latched d l).latched e m).addFlags fl).FlowOf h) :
    g.restIs h g.sb (g.flg ||| fl) ∧ g.latchesAfter h d e := by
  cases d with
  | none => cases e with
    | none => exact Group.FlowOf.restIs_latched hf
    | some r => exact Group.FlowOf.restIs_latched hf
  | some r => cases e with
    | none => exact Group.FlowOf.restIs_latched hf
    | some r' => exact Group.FlowOf.restIs_latched hf

section
variable (x : Slot) (old g : Group) (slot z : Bool)

theorem slotWrite_of_none (h : x.dst? = none) : slotWrite x old g slot z = g := by
  unfold slotWrite
  rw [h]

theorem slotWrite_of_some {d : Reg} (h : x.dst? = some d) : slotWrite x old g slot z =
    (g.mapLanes fun k l =>
      if slotRuns x old slot k then l.setReg d (slotResult x z old k).v (slotResult x z old k).t else l).shiftLatch d := by
  unfold slotWrite
  rw [h]

theorem slotWrite_lanes_length : (slotWrite x old g slot z).lanes.length = g.lanes.length := by
  cases h : x.dst? with
  | none => rw [slotWrite_of_none x old g slot z h]
  | some d =>
    rw [slotWrite_of_some x old g slot z h]
    exact List.length_mapIdx

/-- A lane in which the slot does not run, or of which it writes nothing, is as it was; in any other the destination alone changes. -/
theorem slotWrite_lane {k : Nat} (hk : k < g.lanes.length) : (slotWrite x old g slot z).lane k =
    match x.dst? with
    | none => g.lane k
    | some d =>
      if slotRuns x old slot k then (g.lane k).setReg d (slotResult x z old k).v (slotResult x z old k).t else g.lane k := by
  cases h : x.dst? with
  | none => rw [slotWrite_of_none x old g slot z h]
  | some d => rw [slotWrite_of_some x old g slot z h, Group.lane_shiftLatch, Group.lane_mapLanes _ _ _ hk]

/-- What a register of a lane holds after a slot has written, with its taint. -/
theorem slotWrite_reg {k : Nat} (hk : k < g.lanes.length) (r : Reg) :
    ((slotWrite x old g slot z).lane k).reg r =
      (if x.dst? = some r ∧ slotRuns x old slot k = true then (slotResult x z old k).v else (g.lane k).reg r) ∧
    ((slotWrite x old g slot z).lane k).tnt r =
      (if x.dst? = some r ∧ slotRuns x old slot k = true then (slotResult x z old k).t else (g.lane k).tnt r) := by
  rw [slotWrite_lane x old g slot z hk]
  cases h : x.dst? with
  | none => simp
  | some d =>
    by_cases hr : slotRuns x old slot k = true
    · by_cases e : r = d
      · subst e
        simp [hr]
      · simp [hr, Lane.reg_setReg_ne _ _ _ _ _ e, Lane.tnt_setReg_ne _ _ _ _ _ e, Ne.symm e]
    · simp [hr]

/-- A slot changes nothing of a lane but registers and their taints. -/
theorem slotWrite_lane_rest {k : Nat} (hk : k < g.lanes.length) :
    { (slotWrite x old g slot z).lane k with regs := (g.lane k).regs, taint := (g.lane k).taint } = g.lane k := by
  rw [slotWrite_lane x old g slot z hk]
  cases x.dst? with
  | none => rfl
  | some d => dsimp only; split <;> rfl

/-- A slot changes nothing of a group but lanes and latches. -/
theorem slotWrite_latched : ∃ l, slotWrite x old g slot z = g.latched x.dst? l := by
  cases h : x.dst? with
  | none => exact ⟨g.lanes, slotWrite_of_none x old g slot z h⟩
  | some d => exact ⟨_, slotWrite_of_some x old g slot z h⟩

end

/-! ### What the two slots leave -/

/-- The group once both slots have written what they computed from it, with the flags of both. -/
def slotsWritten (x y : Slot) (g : Group) (slot z : Bool) (fl : Flags) : Group :=
  (slotWrite y g (slotWrite x g g slot z) slot z).addFlags fl

section
variable {x y : Slot} {g h : Group} {slot z : Bool} {fl : Flags} (hf : (slotsWritten x y g slot z fl).FlowOf h)
include hf

/-- The rest of the group is as it was, and the latches hold the destinations written. -/
theorem slotsWritten_rest : g.restIs h g.sb (g.flg ||| fl) ∧ g.latchesAfter h x.dst? y.dst? := by
  obtain ⟨lx, ex⟩ := slotWrite_latched x g g slot z
  obtain ⟨ly, ey⟩ := slotWrite_latched y g (slotWrite x g g slot z) slot z
  rw [slotsWritten, ey, ex] at hf
  exact Group.FlowOf.latched_twice hf

theorem slotsWritten_lanes_length : h.lanes.length = g.lanes.length := by
  obtain ⟨a, b, t, w, rfl, -⟩ := hf
  exact (slotWrite_lanes_length y g _ slot z).trans (slotWrite_lanes_length x g g slot z)

theorem slotsWritten_lane_rest {k : Nat} (hk : k < g.lanes.length) :
    { h.lane k with regs := (g.lane k).regs, taint := (g.lane k).taint } = g.lane k := by
  obtain ⟨a, b, t, w, rfl, -⟩ := hf
  have ex := slotWrite_lane_rest x g g slot z hk
  have ey := slotWrite_lane_rest y g (slotWrite x g g slot z) slot z ((slotWrite_lanes_length x g g slot z).symm ▸ hk)
  rw [← ey] at ex
  exact ex

/-- Each register is the later slot's result where that slot writes it, else the earlier slot's, else as it was; both results are of
the group before the word. -/
theorem slotsWritten_reg {k : Nat} (hk : k < g.lanes.length) (r : Reg) :
    (h.lane k).reg r =
      (if y.dst? = some r ∧ slotRuns y g slot k = true then (slotResult y z g k).v
       else if x.dst? = some r ∧ slotRuns x g slot k = true then (slotResult x z g k).v
       else (g.lane k).reg r) ∧
    (h.lane k).tnt r =
      (if y.dst? = some r ∧ slotRuns y g slot k = true then (slotResult y z g k).t
       else if x.dst? = some r ∧ slotRuns x g slot k = true then (slotResult x z g k).t
       else (g.lane k).tnt r) := by
  obtain ⟨a, b, t, w, rfl, -⟩ := hf
  obtain ⟨vx, tx⟩ := slotWrite_reg x g g slot z hk r
  obtain ⟨vy, ty⟩ := slotWrite_reg y g (slotWrite x g g slot z) slot z ((slotWrite_lanes_length x g g slot z).symm ▸ hk) r
  rw [vx] at vy
  rw [tx] at ty
  exact ⟨vy, ty⟩

end

/-- Everything a dual word can do. -/
theorem dualWord_next (s : State) (q : Cur) (x y : Slot) (h : s.cur? = some q) :
    let A := fun (u : Slot) => slotActive u q.grp q.slot
    let V := fun (u : Slot) => slotResult u q.blk.ftz q.grp
    ∃ g, dualWord s x y = .next ((s.putGrp q g).assistIf q (anyAssist (A x) (V x) || anyAssist (A y) (V y))) ∧
      (slotsWritten x y q.grp q.slot q.blk.ftz (orFlags (A x) (V x) ||| orFlags (A y) (V y))).FlowOf g :=
  ⟨_, withCur_of_cur h _, finish_flow q.blk.st _ q.slot⟩

/-! ### What a slot computes -/

/-- A bit of the flags gathered from a list is a bit of one of them. -/
theorem getLsbD_foldl_or {n : Nat} (f : Nat → BitVec n) (l : List Nat) (a : BitVec n) (i : Nat) :
    (l.foldl (fun a j => a ||| f j) a).getLsbD i = true ↔ a.getLsbD i = true ∨ ∃ j ∈ l, (f j).getLsbD i = true := by
  induction l generalizing a with
  | nil => simp
  | cons j l ih => simp [ih, or_assoc]

theorem packF_fl (w : Nat) (t : Bool) (f : Nat → FRes) (i : Nat) :
    (packF w t f).fl.getLsbD i = true ↔ ∃ j < 64 / w, (f j).fl.getLsbD i = true := by
  simp [packF, getLsbD_foldl_or]

theorem packF_assist (w : Nat) (t : Bool) (f : Nat → FRes) :
    (packF w t f).assist = true ↔ ∃ j < 64 / w, (f j).assist = true := by
  simp [packF]

/-- An integer slot reads its destination unless it is MOV, NEG or NOT. -/
theorem siReadsDst_eq (o : SIOp) : siReadsDst o = decide (o ≠ .mov ∧ o ≠ .neg ∧ o ≠ .not) := by cases o <;> rfl

/-- A float slot reads its destination unless it is FNEG. -/
theorem sfReadsDst_eq (o : SFOp) : (o != .fneg) = decide (o ≠ .fneg) := by cases o <;> rfl

/-- A sub-element of what an integer slot computes. -/
theorem sub_slotResult_int (o : SIOp) (f : SlotF IType) (z : Bool) (g : Group) (k j : Nat) (hj : j < 64 / f.t.width) :
    sub f.t.width j (slotResult (.int o f) z g k).v = siFn o f.t.width (sub f.t.width j ((g.lane k).reg f.d.r))
      (sub f.t.width j (g.opnd (.int f.t (siSigned o)) ⟨f.src, f.md⟩ k)) :=
  sub_map2 _ _ (itype_width_dvd _) hj _ _ _

/-- Settles O9: whatever slot X holds, a dual word is one operation on both slots, whose two writes read the group before it; what a slot
computes is read off per sub-element. -/
theorem dualWords : Obligations.DualWords := by
  refine ⟨fun s q i x y hs hx hy => ?_, fun g z k => ⟨fun o f => ?_, fun o f => ?_⟩⟩
  · obtain ⟨h, e, hf⟩ := dualWord_next s q x y hs
    obtain ⟨rest, latches⟩ := slotsWritten_rest hf
    exact ⟨h, (exec_of_slots hx hy s).trans e, rest, latches, slotsWritten_lanes_length hf,
      fun k hk => ⟨slotsWritten_lane_rest hf hk, slotsWritten_reg hf hk⟩⟩
  · refine ⟨rfl, rfl, congrArg (fun b => g.srcTaint f.src k || (b && _)) (siReadsDst_eq o), fun j hj => ?_⟩
    dsimp only
    rw [sub_slotResult_int o f z g k j hj]
    cases o with
    | mov | add | sub | and | or | xor | neg | not => rfl
    | shl => exact eShl_eq _ _
    | shr => exact eShr_eq _ _
    | sar => exact eSar_toInt _ _
    | min => exact eMin_toInt _ _
    | max => exact eMax_toInt _ _
  · have e : slotResult (.flt o f) z g k = packF (fmtOf f.t).width (g.srcTaint f.src k || (o != .fneg && (g.lane k).tnt f.d.r)) fun i =>
        sfFn o (fmtOf f.t) z (fsub (fmtOf f.t) z i ((g.lane k).reg f.d.r)) (fsub (fmtOf f.t) z i (g.opnd (.flt f.t) ⟨f.src, f.md⟩ k)) := rfl
    dsimp only
    rw [e, ← sfReadsDst_eq]
    cases o with
    | fadd | fmul | fmin | fmax | fneg =>
      exact ⟨fun j hj => sub_pack _ _ (ffmt_width_dvd _) hj _, rfl, packF_fl _ _ _, packF_assist _ _ _⟩

end Sys2Proof.Machine
end

section
/-! PROOF of O56, the sample words: the decoder, run on each. -/

-- One theorem at a time, as for O59: the check's memory holds no more threads.
set_option Elab.async false

namespace Sys2Proof.Machine

/-- Settles O56: each word is closed, so the decoder runs on it. -/
theorem decodeSamples : Obligations.DecodeSamples := by
  unfold Obligations.DecodeSamples
  intro u r
  and_intros <;> rfl

end Sys2Proof.Machine
end

section
/-! REFUTATION of O57, as it is stated: of every state, those too whose list of blocks names one block twice. -/

-- One theorem at a time, as for O59: the check's memory holds no more threads.
set_option Elab.async false

namespace Sys2Proof.Machine

/-- A block in a cluster, with an act issued in a cycle that crosses its pair. -/
def crossingBlock (cl cycle : Nat) : Block :=
  { Block.placed with cl := cl, st := { BlkState.fresh [] with crossing := [⟨cycle, 0, .bytes 0 0⟩] } }

/-- Block 1 stands twice in the list of blocks: first in cluster 1, which has counted to 160, with an act that is due there; then in cluster 0,
which has counted nothing, with one that is not due. -/
def twiceListed : State :=
  { State.reset with
    blocks := [(1, crossingBlock 1 0), (1, crossingBlock 0 0)]
    clusters := [(1, { ClusterState.init with clk := 160 })] }

/-- In cluster 0 nothing that crosses a pair is due at the end of this turn. -/
theorem twiceListed_quiet : ∀ p ∈ twiceListed.blocks, p.2.cl = 0 → ∀ x ∈ p.2.st.crossing, (twiceListed.cluster 0).nextTurn.clk < x.cycle + 160 := by
  decide

/-- Yet the end of a turn in cluster 0 lets go what is due in cluster 1: for the entry of block 1 that is in cluster 0, the block is looked up by
its number, and the other entry is found. -/
theorem twiceListed_letsGo (w : W64) :
    ((twiceListed.endWord ⟨0, 0, false⟩ 0 true w).blocks.get? 1).map (fun b => b.st.crossing) = some [] := by
  rfl

/-- The numbers of the blocks listed do not rise. -/
theorem twiceListed_not_sorted : KMap.sorted twiceListed.blocks = false := rfl

/-- Refutes O57: a turn that ends in cluster 0, where nothing is due, changes block 1 of `twiceListed`, which is not that of the word. The statement
asks for rising block numbers in its clause on what is let go, and not in the one that leaves the other blocks unchanged. -/
theorem not_stepRunsWord : ¬ Obligations.StepRunsWord := by
  unfold Obligations.StepRunsWord
  intro h
  obtain ⟨-, ends, -⟩ := h twiceListed
  obtain ⟨-, -, -, -, -, others, -⟩ := ends ⟨0, 0, false⟩ 0 true 0
  have same := others (.inr twiceListed_quiet) 1 (by decide)
  have kept := twiceListed_letsGo 0
  rw [same] at kept
  exact absurd kept (by decide)

end Sys2Proof.Machine
end

section
/-! PROOF of O1, O2 and O3, of the integer words: each is a lane word, and what its function leaves in one sub-element is a law of Laws/Ints or
one of those below. A word's `rfl` names its meaning, so that `exec` is unfolded for that word alone. -/

-- One theorem at a time, as for O59: the check's memory holds no more threads.
set_option Elab.async false

namespace Sys2Proof.Machine

/-! ### Whole registers and sub-elements of an integer TYPE -/

/-- Registers with the same sub-elements of an integer TYPE are equal. -/
theorem eq_of_itype_sub (t : IType) {x y : W64} (h : ∀ j < 64 / t.width, sub t.width j x = sub t.width j y) : x = y :=
  eq_of_sub _ (itype_width_pos t) (itype_width_dvd t) x y h

/-- Half the width of an integer TYPE divides a register. -/
theorem itype_half_dvd (t : IType) : t.width / 2 ∣ 64 := by cases t <;> decide

/-- A register holds twice as many halves of sub-elements as sub-elements. -/
theorem itype_halves (t : IType) : 64 / (t.width / 2) = 2 * (64 / t.width) := by cases t <;> rfl

/-! ### Slices (05 R108) -/

/-- A field of `n` bits put over a register at bit `lo`, where a mask of `n` ones has made room for it. -/
theorem getLsbD_overwrite {n : Nat} (d m : W64) (x : BitVec n) (lo : Nat) {i : Nat} (hi : i < 64)
    (hm : ∀ j < 64, m.getLsbD j = decide (j < n)) :
    ((d &&& ~~~ (m <<< lo)) ||| (x.setWidth 64 <<< lo)).getLsbD i =
      if lo ≤ i ∧ i < lo + n then x.getLsbD (i - lo) else d.getLsbD i := by
  rw [BitVec.getLsbD_or, BitVec.getLsbD_and, BitVec.getLsbD_not, BitVec.getLsbD_shiftLeft, BitVec.getLsbD_shiftLeft, BitVec.getLsbD_setWidth,
    hm _ (by omega)]
  by_cases hlo : lo ≤ i
  · by_cases hn : i < lo + n
    · have : i - lo < n := by omega
      have : i - lo < 64 := by omega
      simp [*, Nat.not_lt.mpr hlo]
    · have : n ≤ i - lo := by omega
      simp [*, Nat.not_lt.mpr hlo, Nat.not_lt.mpr this]
  · simp [hi, hlo, Nat.lt_of_not_le hlo]

/-- The lowest bit of a slice. -/
def sliceLow : Slice → Nat
  | .j1 => 18
  | .j2 => 36
  | .j3 => 54

/-- The two low slices take all 18 bits of the immediate; the top one lies against the end of the register and takes ten. -/
theorem setSlice_bit (j : Slice) (imm : BitVec 18) (d : W64) {i : Nat} (hi : i < 64) :
    (setSlice j imm d).getLsbD i =
      if sliceLow j ≤ i ∧ i < sliceLow j + 18 then imm.getLsbD (i - sliceLow j) else d.getLsbD i := by
  cases j with
  | j1 => exact getLsbD_overwrite d _ imm 18 hi (by decide)
  | j2 => exact getLsbD_overwrite d _ imm 36 hi (by decide)
  | j3 =>
    refine (getLsbD_overwrite d _ (imm.extractLsb' 0 10) 54 hi (by decide)).trans ?_
    have h10 : i < 54 + 10 := hi
    have h18 : i < 54 + 18 := by omega
    have : i - 54 < 10 := by omega
    simp [sliceLow, h10, h18, this]

/-! ### Quotients and remainders, with a divisor of 0 (05 R110) -/

section
variable {w : Nat} (a b : BitVec w)

theorem eDiv_eq : eDiv a b = if b = 0 then BitVec.allOnes w else BitVec.ofInt w (a.toInt.tdiv b.toInt) := by
  split
  · next h => exact if_pos h
  · next h => exact eDiv_of_ne a b h

theorem eUdiv_toNat : (eUdiv a b).toNat = if b = 0 then 2 ^ w - 1 else a.toNat / b.toNat := by
  split
  · next h => exact (congrArg BitVec.toNat (if_pos h)).trans BitVec.toNat_allOnes
  · next h => exact eUdiv_of_ne a b h

theorem eRem_toInt : (eRem a b).toInt = if b = 0 then a.toInt else a.toInt.tmod b.toInt := by
  split
  · next h => exact congrArg BitVec.toInt (if_pos h)
  · next h => exact eRem_of_ne a b h

theorem eUrem_toNat : (eUrem a b).toNat = if b = 0 then a.toNat else a.toNat % b.toNat := by
  split
  · next h => exact congrArg BitVec.toNat (if_pos h)
  · next h => exact eUrem_of_ne a b h

end

/-! ### Shifts and bit fields (05 R111, R112) -/

theorem eShl_bit {w : Nat} (a b : BitVec w) {i : Nat} (hi : i < w) :
    (eShl a b).getLsbD i = (decide (b.toNat ≤ i) && a.getLsbD (i - b.toNat)) := by
  rw [eShl_eq, BitVec.getLsbD_shiftLeft, decide_eq_true hi, Bool.true_and, ← decide_not]
  simp only [Nat.not_lt]

theorem eShr_bit {w : Nat} (a b : BitVec w) (i : Nat) : (eShr a b).getLsbD i = a.getLsbD (i + b.toNat) := by
  rw [eShr_eq, BitVec.getLsbD_ushiftRight, Nat.add_comm]

/-- A field that begins beyond the sub-element has no bit in it. -/
theorem fieldLen_eq {w : Nat} (b c : BitVec w) : fieldLen b c = min (c.toNat % 256) (w - b.toNat % 256) := by
  unfold fieldLen
  dsimp only
  split
  · omega
  · rfl

/-! ### Halves (05 R113) -/

/-- PACK puts the low halves of `a` below those of `b`. -/
theorem sub_packHalves (t : IType) (a b : W64) {j : Nat} (hj : j < 64 / t.width) :
    sub (t.width / 2) j (packHalves t.width a b) = (sub t.width j a).setWidth (t.width / 2) ∧
      sub (t.width / 2) (64 / t.width + j) (packHalves t.width a b) = (sub t.width j b).setWidth (t.width / 2) := by
  have hn := itype_halves t
  unfold packHalves
  dsimp only
  rw [sub_pack _ _ (itype_half_dvd t) (by omega), sub_pack _ _ (itype_half_dvd t) (by omega), if_pos hj, if_neg (by omega),
    Nat.add_sub_cancel_left]
  exact ⟨rfl, rfl⟩

/-! ### The integer words -/

/-- Settles O1: of each word its own function, in numbers or bits of one sub-element; MOV and NOT are read back whole. -/
theorem integerArithmetic : Obligations.IntegerArithmetic := by
  refine ⟨fun s q c o h => ⟨?add, ?sub, ?adds, ?subs⟩, fun s q c o h => ⟨?min, ?max, ?umin, ?umax, ?avg⟩,
    fun s q c o h => ⟨?neg, ?abs, ?mov, ?not, ?brev, ?popc, ?clz, ?ctz⟩,
    fun s q c h => ⟨fun o => ?lea, fun o => ?sel, fun o => ?movi, fun o => ?movhi⟩⟩
  case add => exact computes_int2 (rfl : _ = execAdd c o s) h fun _ _ hv => hv
  case sub => exact computes_int2 (rfl : _ = execSub c o s) h fun _ _ hv => hv
  case adds =>
    exact computes_int2 (rfl : _ = execAdds c o s) h fun _ _ hv j hj => (congrArg BitVec.toInt (hv j hj)).trans (satS_toInt (itype_width_pos _) _)
  case subs =>
    exact computes_int2 (rfl : _ = execSubs c o s) h fun _ _ hv j hj => (congrArg BitVec.toInt (hv j hj)).trans (satS_toInt (itype_width_pos _) _)
  case min => exact computes_int2 (rfl : _ = execMin c o s) h fun _ _ hv j hj => (congrArg BitVec.toInt (hv j hj)).trans (eMin_toInt _ _)
  case max => exact computes_int2 (rfl : _ = execMax c o s) h fun _ _ hv j hj => (congrArg BitVec.toInt (hv j hj)).trans (eMax_toInt _ _)
  case umin => exact computes_int2 (rfl : _ = execUmin c o s) h fun _ _ hv j hj => (congrArg BitVec.toNat (hv j hj)).trans (eUmin_toNat _ _)
  case umax => exact computes_int2 (rfl : _ = execUmax c o s) h fun _ _ hv j hj => (congrArg BitVec.toNat (hv j hj)).trans (eUmax_toNat _ _)
  case avg =>
    exact computes_int2 (rfl : _ = execAvg c o s) h fun _ _ hv j hj => (congrArg BitVec.toInt (hv j hj)).trans (eAvg_toInt (itype_width_pos _) _ _)
  case neg => exact computes_int1 (rfl : _ = execNeg c o s) h fun _ _ hv => hv
  case abs => exact computes_int1 (rfl : _ = execAbs c o s) h fun _ _ hv j hj => (hv j hj).trans (eAbs_eq _)
  case mov => exact computes_int1 (rfl : _ = execMov c o s) h fun _ _ hv => eq_of_itype_sub o.t hv
  case not => exact computes_int1 (rfl : _ = execNot c o s) h fun _ _ hv => eq_of_itype_sub o.t fun j hj => (hv j hj).trans (sub_not _ _ _ hj).symm
  case brev =>
    exact computes_int1 (rfl : _ = execBrev c o s) h fun _ _ hv j hj i hi => (congrArg (BitVec.getLsbD · i) (hv j hj)).trans (eBrev_bit _ i hi)
  case popc => exact computes_int1 (rfl : _ = execPopc c o s) h fun _ _ hv j hj => (congrArg BitVec.toNat (hv j hj)).trans (ePopc_toNat _)
  case clz => exact computes_int1 (rfl : _ = execClz c o s) h fun _ _ hv j hj => hv j hj ▸ eClz_spec _
  case ctz => exact computes_int1 (rfl : _ = execCtz c o s) h fun _ _ hv j hj => hv j hj ▸ eCtz_spec _
  case lea =>
    refine computes_laneWord (rfl : _ = execLea c o s) h (fun _ => rfl) fun k _ => ?_
    rw [BitVec.toNat_add, BitVec.toNat_shiftLeft, Nat.shiftLeft_eq, Nat.add_mod_mod]
  case sel => exact computes_laneWord (rfl : _ = execSel c o s) h (fun _ => rfl) fun _ _ => rfl
  case movi => exact computes_laneWord (rfl : _ = execMovi c o s) h (fun _ => rfl) fun _ _ => BitVec.toInt_signExtend_of_le (by decide)
  case movhi =>
    refine computes_laneWord (rfl : _ = execMovhi c o s) h (fun _ => rfl) fun k _ => ?_
    cases hj : o.j with
    | j1 | j2 | j3 => exact fun i hi => hj ▸ setSlice_bit o.j o.imm _ hi

/-- Settles O2: of each word its own function on one sub-element; a divisor of 0 is a branch of that function. -/
theorem integerProducts : Obligations.IntegerProducts := by
  refine ⟨fun s q c h => ⟨fun o => ⟨?mul, ?mulh, ?umulh⟩, fun o => ?mad⟩, fun s q c o h => ⟨?div, ?udiv, ?rem, ?urem⟩⟩
  case mul => exact computes_int2 (rfl : _ = execMul c o s) h fun _ _ hv => hv
  case mulh =>
    exact computes_int2 (rfl : _ = execMulh c o s) h fun _ _ hv j hj => (congrArg BitVec.toInt (hv j hj)).trans (eMulh_toInt (itype_width_pos _) _ _)
  case umulh => exact computes_int2 (rfl : _ = execUmulh c o s) h fun _ _ hv j hj => (congrArg BitVec.toNat (hv j hj)).trans (eUmulh_toNat _ _)
  case mad => exact computes_int3 (rfl : _ = execMad c o s) h fun _ _ hv => hv
  case div => exact computesVar_int2 (rfl : _ = execDiv c o s) h fun _ _ hv j hj => (hv j hj).trans (eDiv_eq _ _)
  case udiv => exact computesVar_int2 (rfl : _ = execUdiv c o s) h fun _ _ hv j hj => (congrArg BitVec.toNat (hv j hj)).trans (eUdiv_toNat _ _)
  case rem => exact computesVar_int2 (rfl : _ = execRem c o s) h fun _ _ hv j hj => (congrArg BitVec.toInt (hv j hj)).trans (eRem_toInt _ _)
  case urem => exact computesVar_int2 (rfl : _ = execUrem c o s) h fun _ _ hv j hj => (congrArg BitVec.toNat (hv j hj)).trans (eUrem_toNat _ _)

/-- Settles O3: bitwise words are read back whole, shifts and fields bit by bit, PACK and UNPK half by half. -/
theorem bitWords : Obligations.BitWords := by
  refine ⟨fun s q c o h => ⟨?and, ?or, ?xor, ?andn, ?orn⟩, fun s q c o h => ⟨?shl, ?shr, ?sar, ?rot⟩,
    fun s q c o h => ⟨?ubfx, ?bfx, ?bfi⟩, fun s q c h => ⟨fun o => ?pack, fun o => ?unpk⟩⟩
  case and => exact computes_int2 (rfl : _ = execAnd c o s) h fun _ _ hv => eq_of_itype_sub o.t fun j hj => (hv j hj).trans (sub_and _ _ _ _).symm
  case or => exact computes_int2 (rfl : _ = execOr c o s) h fun _ _ hv => eq_of_itype_sub o.t fun j hj => (hv j hj).trans (sub_or _ _ _ _).symm
  case xor => exact computes_int2 (rfl : _ = execXor c o s) h fun _ _ hv => eq_of_itype_sub o.t fun j hj => (hv j hj).trans (sub_xor _ _ _ _).symm
  case andn =>
    refine computes_int2 (rfl : _ = execAndn c o s) h fun _ _ hv => eq_of_itype_sub o.t fun j hj => (hv j hj).trans ?_
    rw [sub_and, sub_not _ _ _ hj]
  case orn =>
    refine computes_int2 (rfl : _ = execOrn c o s) h fun _ _ hv => eq_of_itype_sub o.t fun j hj => (hv j hj).trans ?_
    rw [sub_or, sub_not _ _ _ hj]
  case shl =>
    exact computes_int2 (rfl : _ = execShl c o s) h fun _ _ hv j hj i hi => (congrArg (BitVec.getLsbD · i) (hv j hj)).trans (eShl_bit _ _ hi)
  case shr => exact computes_int2 (rfl : _ = execShr c o s) h fun _ _ hv j hj i _ => (congrArg (BitVec.getLsbD · i) (hv j hj)).trans (eShr_bit _ _ i)
  case sar => exact computes_int2 (rfl : _ = execSar c o s) h fun _ _ hv j hj => (congrArg BitVec.toInt (hv j hj)).trans (eSar_toInt _ _)
  case rot =>
    exact computes_int2 (rfl : _ = execRot c o s) h fun _ _ hv j hj i hi => (congrArg (BitVec.getLsbD · _) (hv j hj)).trans (eRot_bit _ _ i hi)
  case ubfx =>
    refine computes_int3 (rfl : _ = execUbfx c o s) h fun _ _ hv j hj i hi => ?_
    rw [hv j hj, eUbfx_bit _ _ _ i hi, fieldLen_eq]
  case bfx =>
    refine computes_int3 (rfl : _ = execBfx c o s) h fun _ _ hv j hj i hi => ?_
    rw [hv j hj, eBfx_bit _ _ _ i hi, fieldLen_eq]
  case bfi =>
    refine computes_laneWord (rfl : _ = execBfi c o s) h (fun _ => ?_) fun k _ j hj i hi => ?_
    · simp only [Bool.or_assoc]
    · rw [sub_pack _ _ (itype_width_dvd _) hj, eBfi_bit _ _ _ _ i hi, fieldLen_eq]
  case pack => exact computes_laneWord (rfl : _ = execPack c o s) h (fun _ => rfl) fun _ _ _ hj => sub_packHalves o.t _ _ hj
  case unpk =>
    refine computes_laneWord (rfl : _ = execUnpk c o s) h (fun _ => rfl) fun k _ j hj => ?_
    refine (sub_pack _ _ (itype_width_dvd _) hj _).trans ?_
    cases o.x with
    | lz | ls | hz | hs => simp [sub]

end Sys2Proof.Machine
end

section
/-! PROOF of O4 and O5, of the words that compare, of the predicate words and of the float words. -/

-- One theorem at a time, as for O59: the check's memory holds no more threads.
set_option Elab.async false

namespace Sys2Proof.Machine

/-! ### Integer conditions (02 R58, 05 R114) -/

theorem allSub_iff (w : Nat) (p : BitVec w → BitVec w → Bool) (a b : W64) :
    allSub w p a b = true ↔ ∀ j < 64 / w, p (sub w j a) (sub w j b) = true := by
  simp [allSub]

section
variable {w : Nat} (a b : BitVec w)

/-- Two registers have a 1 in the same place exactly if their AND is not 0. -/
theorem and_ne_zero_iff : a &&& b ≠ 0 ↔ ∃ i < w, a.getLsbD i = true ∧ b.getLsbD i = true := by
  constructor
  · intro h
    by_contra hno
    refine h (BitVec.eq_of_getLsbD_eq fun i hi => ?_)
    rw [BitVec.getLsbD_and, BitVec.ofNat_eq_ofNat, BitVec.getLsbD_zero, Bool.eq_false_iff, ne_eq, Bool.and_eq_true]
    exact fun hb => hno ⟨i, hi, hb⟩
  · rintro ⟨i, -, ha, hb⟩ h
    have hi : (a &&& b).getLsbD i = true := by rw [BitVec.getLsbD_and, ha, hb, Bool.and_self]
    rw [h] at hi
    simp at hi

/-- A condition on two sub-elements, by what numbers they stand for. -/
theorem condHolds_iff (cc : Cond) (signed : Bool) {x y : Int} (heq : a = b ↔ x = y)
    (hlt : (if signed then a.slt b else a.ult b) = decide (x < y)) :
    condHolds cc signed a b = true ↔ CondIs cc x y (∃ i < w, a.getLsbD i = true ∧ b.getLsbD i = true) := by
  unfold condHolds CondIs
  dsimp only
  rw [hlt, ← and_ne_zero_iff]
  cases cc with
  | eq => simp [heq]
  | ne => simp [heq]
  | lt => simp
  | le => simp [heq, Int.le_iff_lt_or_eq]
  | gt => simp [heq]; omega
  | ge => simp
  | any => simp
  | none => simp

theorem condHolds_signed (cc : Cond) : condHolds cc true a b = true ↔
    CondIs cc a.toInt b.toInt (∃ i < w, a.getLsbD i = true ∧ b.getLsbD i = true) :=
  condHolds_iff a b cc true BitVec.toInt_inj.symm BitVec.slt_eq_decide

theorem condHolds_unsigned (cc : Cond) : condHolds cc false a b = true ↔
    CondIs cc a.toNat b.toNat (∃ i < w, a.getLsbD i = true ∧ b.getLsbD i = true) :=
  condHolds_iff a b cc false (Int.ofNat_inj.trans BitVec.toNat_inj).symm (by simp [BitVec.ult_eq_decide])

end

/-! ### Float conditions (02 R58, 05 R115) -/

theorem FVal.isNan_iff (x : FVal) : x.isNan = true ↔ ∃ sig, x = .nan sig := by cases x <;> simp [FVal.isNan]

/-- Two values are unordered exactly if one of them is a NaN. -/
theorem FVal.cmp_eq_none_iff (x y : FVal) : x.cmp y = none ↔ x.isNan = true ∨ y.isNan = true := by
  unfold FVal.cmp
  split
  · simp [FVal.isNan]
  · simp [FVal.isNan]
  · simp [FVal.isNan]
  · next hx hy _ =>
    have hn : ¬ (x.isNan = true ∨ y.isNan = true) := by
      rw [FVal.isNan_iff, FVal.isNan_iff]
      rintro (⟨sig, e⟩ | ⟨sig, e⟩)
      · exact hx sig e
      · exact hy sig e
    have hs : (if x.below y then some Ordering.lt else if y.below x then some .gt else some .eq) ≠ none := by
      split
      · simp
      · split <;> simp
    exact iff_of_false hs hn

/-- The values are ordered, and in this way (05 R115). -/
def FVal.Ordered (x y : FVal) (o : Ordering) : Prop := x.isNan = false ∧ y.isNan = false ∧ x.cmp y = some o

theorem FVal.ordered_iff (x y : FVal) (o : Ordering) : x.Ordered y o ↔ x.cmp y = some o := by
  refine ⟨fun h => h.2.2, fun h => ?_⟩
  have hn := (x.cmp_eq_none_iff y).not.mp (by simp [h])
  simp only [not_or, Bool.not_eq_true] at hn
  exact ⟨hn.1, hn.2, h⟩

/-- A condition of FCMP on two values. -/
def FVal.CondIs (cc : FCond) (x y : FVal) : Prop :=
  match cc with
  | .eq => x.Ordered y .eq
  | .ne => ¬ x.Ordered y .eq
  | .lt => x.Ordered y .lt
  | .le => x.Ordered y .lt ∨ x.Ordered y .eq
  | .gt => x.Ordered y .gt
  | .ge => x.Ordered y .gt ∨ x.Ordered y .eq
  | .un => x.isNan = true ∨ y.isNan = true
  | .ord => ¬ (x.isNan = true ∨ y.isNan = true)

theorem fcondHolds_iff (cc : FCond) (x y : FVal) : fcondHolds cc (x.cmp y) = true ↔ x.CondIs cc y := by
  unfold FVal.CondIs
  simp only [FVal.ordered_iff, ← FVal.cmp_eq_none_iff]
  generalize x.cmp y = o
  cases cc with
  | eq | ne | lt | le | gt | ge | un | ord => revert o; decide

/-! ### The flags of FCMP (01 R24, 05 R115) -/

/-- ORing one flag where a test holds is ORing it if the test holds somewhere. -/
theorem foldl_or_ite {n : Nat} (c : BitVec n) (p : Nat → Prop) [DecidablePred p] (l : List Nat) [Decidable (∃ k ∈ l, p k)] :
    l.foldl (fun x k => x ||| if p k then c else 0) 0 = if ∃ k ∈ l, p k then c else 0 := by
  apply BitVec.eq_of_getLsbD_eq
  intro i _
  rw [Bool.eq_iff_iff, getLsbD_foldl_or]
  constructor
  · rintro (h0 | ⟨k, hk, hb⟩)
    · simp at h0
    · by_cases hp : p k
      · rw [if_pos hp] at hb
        rw [if_pos ⟨k, hk, hp⟩]
        exact hb
      · simp [hp] at hb
  · intro hb
    by_cases hp : ∃ k ∈ l, p k
    · rw [if_pos hp] at hb
      obtain ⟨k, hk, hpk⟩ := hp
      exact .inr ⟨k, hk, by rw [if_pos hpk]; exact hb⟩
    · simp [hp] at hb

/-- NV is raised for a signalling NaN among two values. -/
theorem FVal.nv_or (x y : FVal) : x.nv ||| y.nv = if x = .nan true ∨ y = .nan true then flNV else 0 := by
  have hnv : ∀ z : FVal, z.nv = if z = .nan true then flNV else 0 := by
    intro z
    cases z with
    | nan sig => cases sig <;> rfl
    | inf neg => rfl
    | fin neg m e => rfl
  rw [hnv, hnv]
  by_cases hx : x = .nan true <;> by_cases hy : y = .nan true <;> simp [hx, hy]

/-- The flags of an FCMP in its lanes: NV where a sub-element of an operand is a signalling NaN. -/
theorem foldl_fcmpFlags (f : FFmt) (z : Bool) (a b : Nat → W64) (l : List Nat)
    [Decidable (∃ k ∈ l, ∃ j < 64 / f.width, fsub f z j (a k) = .nan true ∨ fsub f z j (b k) = .nan true)] :
    l.foldl (fun x k => x ||| fcmpFlags f z (a k) (b k)) 0 =
      if ∃ k ∈ l, ∃ j < 64 / f.width, fsub f z j (a k) = .nan true ∨ fsub f z j (b k) = .nan true then flNV else 0 := by
  classical
  have hlane : ∀ k, fcmpFlags f z (a k) (b k) =
      if ∃ j < 64 / f.width, fsub f z j (a k) = .nan true ∨ fsub f z j (b k) = .nan true then flNV else 0 := by
    intro k
    unfold fcmpFlags
    simp only [BitVec.or_assoc, FVal.nv_or, foldl_or_ite, List.mem_range]
  simp only [hlane, foldl_or_ite]

/-- Everything an FCMP can do. -/
theorem execFcmp_next (s : State) (q : Cur) (c : Ctl) (o : PCmp FType FCond) (h : s.cur? = some q) :
    let f := fmtOf o.t
    let a := q.grp.opnd (.flt o.t) o.a
    let b := q.grp.opnd (.flt o.t) o.b
    ∃ g, exec (.fcmp c o) s = .next (s.putGrp q g) ∧
      PredEffect q c o.p (q.grp.flg ||| (q.active c).foldl (fun x k => x ||| fcmpFlags f q.blk.ftz (a k) (b k)) 0)
        (fun k => (List.range (64 / f.width)).all fun j =>
          fcondHolds o.cc ((fsub f q.blk.ftz j (a k)).cmp (fsub f q.blk.ftz j (b k)))) g :=
  ⟨_, withCur_of_cur h _, predEffect_of q c o.p _ _ _ (finish_flow _ _ _)⟩

/-- What an integer comparison decides. -/
theorem decides_intCmp {s : State} {q : Cur} {c : Ctl} {i : Instr} {o : PCmp IType Cond} {signed : Bool} (e : exec i s = intCmp s c o signed)
    (h : s.cur? = some q) {P : Nat → Bool → Prop}
    (hP : ∀ k v, (v = true ↔ ∀ j < 64 / o.t.width, condHolds o.cc signed (sub o.t.width j (q.grp.opnd (.int o.t signed) o.a k))
      (sub o.t.width j (q.grp.opnd (.int o.t signed) o.b k)) = true) → P k v) : Decides s i q c o.p P := by
  unfold intCmp at e
  exact decides_predWord e h fun k _ => hP k _ (allSub_iff _ _ _ _)

/-! ### PGET (05 R117) -/

/-- The predicates as PGET shows them: p7 is the 1 above the seven that a lane holds. -/
theorem pget_bit (l : Lane) (i : Nat) (hi : i < 64) :
    (((1 : BitVec 1) ++ l.pred).setWidth 64).getLsbD i = (decide (i < 8) && l.pr (BitVec.ofNat 3 i)) := by
  rw [BitVec.getLsbD_setWidth, BitVec.getLsbD_append, decide_eq_true hi, Bool.true_and]
  rcases Nat.lt_trichotomy i 7 with h | h | h
  · have hp : BitVec.ofNat 3 i ≠ 7 := fun e => by
      have := congrArg BitVec.toNat e
      simp at this
      omega
    have hn : (BitVec.ofNat 3 i).toNat = i := by simp; omega
    rw [l.pr_of_ne _ hp, hn]
    have : i < 8 := by omega
    simp [h, this]
  · subst h
    simp [Lane.pr]
  · have : ¬ i < 8 := by omega
    have : ¬ i < 7 := by omega
    have : i - 7 ≠ 0 := by omega
    simp [*]

/-! ### Float words on each sub-element -/

section
variable {s : State} {q : Cur} {c : Ctl} {i : Instr} {var : Bool} {r : Nat → LaneRes}

/-- What a float function of one operand computes. -/
theorem computesF_flt1 {o : R1 FType} {f : FFmt → Bool → FVal → FRes} (e : exec i s = flt1 s c o var f) (h : s.cur? = some q)
    (hr : ∀ k, r k = packF (fmtOf o.t).width (q.grp.opndTaint o.a k) fun j =>
      f (fmtOf o.t) q.blk.ftz (fsub (fmtOf o.t) q.blk.ftz j (q.grp.opnd (.flt o.t) o.a k))) : ComputesF s i q c o.d.r var r := by
  unfold flt1 at e
  exact computesF_floatWord e h hr

/-- What a float function of two operands computes. -/
theorem computesF_flt2 {o : R2 FType} {f : FFmt → Bool → FVal → FVal → FRes} (e : exec i s = flt2 s c o var f) (h : s.cur? = some q)
    (hr : ∀ k, r k = packF (fmtOf o.t).width (q.grp.opndTaint o.a k || q.grp.opndTaint o.b k) fun j =>
      f (fmtOf o.t) q.blk.ftz (fsub (fmtOf o.t) q.blk.ftz j (q.grp.opnd (.flt o.t) o.a k))
        (fsub (fmtOf o.t) q.blk.ftz j (q.grp.opnd (.flt o.t) o.b k))) : ComputesF s i q c o.d.r var r := by
  unfold flt2 at e
  exact computesF_floatWord e h hr

end

/-! ### The words -/

/-- Settles O4: CMP and UCMP by the condition on each sub-element, FCMP by the order of each pair of values, the predicate words by what they are. -/
theorem comparisons : Obligations.Comparisons := by
  refine ⟨fun s q c o h => ⟨?cmp, ?ucmp⟩, fun s q c o h => ?fcmp,
    fun s q c h => ⟨fun o => ⟨?pand, ?por, ?pxor⟩, fun o => ⟨?pnot, ?pmov⟩, fun o => ?pset, fun d => ?pget⟩⟩
  case cmp =>
    refine decides_intCmp (show exec (.cmp c o) s = intCmp s c o true from rfl) h fun _ _ hv => hv.trans ?_
    simp only [condHolds_signed]
  case ucmp =>
    refine decides_intCmp (show exec (.ucmp c o) s = intCmp s c o false from rfl) h fun _ _ hv => hv.trans ?_
    simp only [condHolds_unsigned]
  case fcmp =>
    extract_lets f A B less same more unord
    obtain ⟨g, e, hg⟩ := execFcmp_next s q c o h
    refine ⟨g, _, _, e, hg, foldl_fcmpFlags f q.blk.ftz _ _ _, fun k _ => ?_⟩
    simp only [List.all_eq_true, List.mem_range, fcondHolds_iff]
    cases o.cc with
    | eq | ne | lt | le | gt | ge | un | ord => rfl
  case pand => exact decides_predWord (rfl : _ = execPand c o s) h fun _ _ => rfl
  case por => exact decides_predWord (rfl : _ = execPor c o s) h fun _ _ => rfl
  case pxor => exact decides_predWord (rfl : _ = execPxor c o s) h fun _ _ => rfl
  case pnot => exact decides_predWord (rfl : _ = execPnot c o s) h fun _ _ => rfl
  case pmov => exact decides_predWord (rfl : _ = execPmov c o s) h fun _ _ => rfl
  case pset => exact decides_predWord (rfl : _ = execPset c o s) h fun _ _ => bne_iff_ne
  case pget => exact computes_laneWord (rfl : _ = execPget c d s) h (fun _ => rfl) fun k _ i hi => pget_bit _ i hi

/-- Settles O5: each is a float word, and its results are by definition those of the format's function. -/
theorem floatWords : Obligations.FloatWords := by
  refine ⟨fun s q c h => ⟨fun o => ⟨?fadd, ?fsub, ?fmul, ?fmin, ?fmax⟩, fun o => ?fma⟩,
    fun s q c h => ⟨fun o => ⟨?fneg, ?fabs, ?fclass⟩, fun o => ?fround, fun o => ?fscale⟩,
    fun s q c h => ⟨fun o => ⟨?frcp, ?frsq, ?fsqrt, ?fexp2, ?flog2, ?fsin, ?fcos, ?ftanh⟩, fun o => ?fdiv⟩⟩
  case fadd => exact computesF_flt2 (rfl : _ = execFadd c o s) h fun _ => rfl
  case fsub => exact computesF_flt2 (rfl : _ = execFsub c o s) h fun _ => rfl
  case fmul => exact computesF_flt2 (rfl : _ = execFmul c o s) h fun _ => rfl
  case fmin => exact computesF_flt2 (rfl : _ = execFmin c o s) h fun _ => rfl
  case fmax => exact computesF_flt2 (rfl : _ = execFmax c o s) h fun _ => rfl
  case fma => exact computesF_floatWord (rfl : _ = execFma c o s) h fun _ => rfl
  case fneg => exact computesF_flt1 (rfl : _ = execFneg c o s) h fun _ => rfl
  case fabs => exact computesF_flt1 (rfl : _ = execFabs c o s) h fun _ => rfl
  case fclass => exact computesF_floatWord (rfl : _ = execFclass c o s) h fun _ => rfl
  case fround => exact computesF_flt1 (o := ⟨o.d, o.a, o.t⟩) (rfl : _ = execFround c o s) h fun _ => rfl
  case fscale => exact computesF_floatWord (rfl : _ = execFscale c o s) h fun _ => rfl
  case frcp => exact computesF_flt1 (rfl : _ = execFrcp c o s) h fun _ => rfl
  case frsq => exact computesF_flt1 (rfl : _ = execFrsq c o s) h fun _ => rfl
  case fsqrt => exact computesF_flt1 (rfl : _ = execFsqrt c o s) h fun _ => rfl
  case fexp2 => exact computesF_flt1 (rfl : _ = execFexp2 c o s) h fun _ => rfl
  case flog2 => exact computesF_flt1 (rfl : _ = execFlog2 c o s) h fun _ => rfl
  case fsin => exact computesF_flt1 (rfl : _ = execFsin c o s) h fun _ => rfl
  case fcos => exact computesF_flt1 (rfl : _ = execFcos c o s) h fun _ => rfl
  case ftanh => exact computesF_flt1 (rfl : _ = execFtanh c o s) h fun _ => rfl
  case fdiv => exact computesF_flt2 (rfl : _ = execFdiv c o s) h fun _ => rfl

end Sys2Proof.Machine
end

section
/-! PROOF of O8, of the words across lanes: masks of lanes, and the tree and the scan of REDL and SCANL as folds over the executing lanes. -/

-- One theorem at a time, as for O59: the check's memory holds no more threads.
set_option Elab.async false

namespace Sys2Proof.Machine

/-! ### Masks and taints of lanes -/

theorem maskOf_bit (p : Nat → Bool) (m : Nat) : (maskOf p).getLsbD m = (decide (m < 32) && p m) := by
  have hstep : ∀ (b : Mask) (k : Nat), (if p k then b ||| ((1 : Mask) <<< k) else b) = b ||| if p k then (1 : Mask) <<< k else 0 := by
    intro b k
    cases p k <;> simp
  unfold maskOf
  simp only [hstep]
  rw [Bool.eq_iff_iff, getLsbD_foldl_or]
  by_cases hm : m < 32
  · have hbit : ∀ k, (if p k then (1 : Mask) <<< k else 0).getLsbD m = (p k && decide (k = m)) := by
      intro k
      cases p k
      · simp
      · simpa using one_shift_getLsbD 32 k m hm
    simp only [hbit, List.mem_range]
    simp [hm]
  · simp [hm, BitVec.getLsbD_of_ge _ _ (Nat.le_of_not_lt hm)]

/-- A mask of lanes as a register shows it. -/
theorem maskOf_setWidth_bit (p : Nat → Bool) {m : Nat} (hm : m < 64) :
    ((maskOf p).setWidth 64).getLsbD m = (decide (m < 32) && p m) := by
  rw [BitVec.getLsbD_setWidth, maskOf_bit, decide_eq_true hm, Bool.true_and]

theorem Group.xtaint_one (g : Group) (a : Opnd) :
    g.xtaint [a] = (List.range 32).any fun k => (g.lane k).present && g.opndTaint a k := by
  simp [Group.xtaint]

theorem Group.xtaint_two (g : Group) (a b : Opnd) :
    g.xtaint [a, b] = (List.range 32).any fun k => (g.lane k).present && (g.opndTaint a k || g.opndTaint b k) := by
  simp [Group.xtaint]

/-! ### What a combination shows of its parts (05 R135) -/

/-- `ψ` shows of a combination of two lanes' values the `m` of what it shows of each; `m` is associative and has the unit `u`. -/
structure LaneShows {β : Type} (p : LaneOp) (z : Bool) (ψ : LaneRes → β) (m : β → β → β) (u : β) : Prop where
  combine : ∀ a b, ψ (laneOpCombine p z a b) = m (ψ a) (ψ b)
  assoc : ∀ a b c, m (m a b) c = m a (m b c)
  left : ∀ a, m u a = a
  right : ∀ a, m a u = a

/-- A combination is there. -/
theorem laneShows_isSome (p : LaneOp) (z : Bool) : LaneShows p z (fun _ => true) or false :=
  ⟨fun _ _ => rfl, Bool.or_assoc, Bool.false_or, Bool.or_false⟩

/-- A sub-element of a sum is the sum of the sub-elements. -/
theorem laneShows_add (t : IType) (z : Bool) {j : Nat} (hj : j < 64 / t.width) :
    LaneShows (.int .add t) z (fun r => sub t.width j r.v) (· + ·) 0 :=
  ⟨fun _ _ => sub_map2 _ _ (itype_width_dvd t) hj _ _ _, BitVec.add_assoc, BitVec.zero_add, BitVec.add_zero⟩

theorem map2_and (t : IType) (a b : W64) : map2 t.width (· &&& ·) a b = a &&& b :=
  eq_of_itype_sub t fun _ hj => (sub_map2 _ _ (itype_width_dvd t) hj _ _ _).trans (sub_and _ _ _ _).symm

theorem map2_or (t : IType) (a b : W64) : map2 t.width (· ||| ·) a b = a ||| b :=
  eq_of_itype_sub t fun _ hj => (sub_map2 _ _ (itype_width_dvd t) hj _ _ _).trans (sub_or _ _ _ _).symm

theorem map2_xor (t : IType) (a b : W64) : map2 t.width (· ^^^ ·) a b = a ^^^ b :=
  eq_of_itype_sub t fun _ hj => (sub_map2 _ _ (itype_width_dvd t) hj _ _ _).trans (sub_xor _ _ _ _).symm

/-- A bit of a bitwise combination is the combination of the bits. -/
theorem laneShows_and (t : IType) (z : Bool) (i : Nat) : LaneShows (.int .and t) z (fun r => r.v.getLsbD i) and true :=
  ⟨fun a b => (congrArg (BitVec.getLsbD · i) (map2_and t a.v b.v)).trans BitVec.getLsbD_and, Bool.and_assoc, Bool.true_and, Bool.and_true⟩

theorem laneShows_or (t : IType) (z : Bool) (i : Nat) : LaneShows (.int .or t) z (fun r => r.v.getLsbD i) or false :=
  ⟨fun a b => (congrArg (BitVec.getLsbD · i) (map2_or t a.v b.v)).trans BitVec.getLsbD_or, Bool.or_assoc, Bool.false_or, Bool.or_false⟩

theorem laneShows_xor (t : IType) (z : Bool) (i : Nat) :
    LaneShows (.int .xor t) z (fun r => r.v.getLsbD i) xor false :=
  ⟨fun a b => (congrArg (BitVec.getLsbD · i) (map2_xor t a.v b.v)).trans BitVec.getLsbD_xor, Bool.xor_assoc, Bool.false_xor, Bool.xor_false⟩

section
variable {β : Type} {p : LaneOp} {z : Bool} {ψ : LaneRes → β} {m : β → β → β} {u : β} (h : LaneShows p z ψ m u)
  (x : Nat → Option LaneRes)
include h

/-- An absent value shows as the unit. -/
theorem LaneShows.opt (a b : Option LaneRes) : (laneOpOpt p z a b).elim u ψ = m (a.elim u ψ) (b.elim u ψ) := by
  cases a with
  | none => exact (h.left _).symm
  | some a =>
    cases b with
    | none => exact (h.right _).symm
    | some b => exact h.combine a b

/-- A running value shows as the running `m`. -/
theorem LaneShows.foldl (l : List Nat) (a : Option LaneRes) :
    (l.foldl (fun y k => laneOpOpt p z y (x k)) a).elim u ψ = l.foldl (fun b k => m b ((x k).elim u ψ)) (a.elim u ψ) := by
  induction l generalizing a with
  | nil => rfl
  | cons k l ih => rw [List.foldl_cons, List.foldl_cons, ih, h.opt]

/-- A fold that begins with `b` is `b` before the fold that begins with the unit. -/
theorem LaneShows.foldl_start (y : Nat → β) (l : List Nat) (b : β) :
    l.foldl (fun b k => m b (y k)) b = m b (l.foldl (fun b k => m b (y k)) u) := by
  induction l generalizing b with
  | nil => exact (h.right b).symm
  | cons k l ih => rw [List.foldl_cons, List.foldl_cons, ih, ih (m u (y k)), h.left, h.assoc]

/-- A subtree shows as the `m` of its positions in ascending order. -/
theorem LaneShows.redTree (n j : Nat) :
    (redTree (laneOpOpt p z) x n j).elim u ψ = (List.range' j (2 ^ n)).foldl (fun b k => m b ((x k).elim u ψ)) u := by
  induction n generalizing j with
  | zero => exact (h.left _).symm
  | succ n ih =>
    rw [Machine.redTree, h.opt, ih, ih, ← h.foldl_start, ← List.foldl_append, List.range'_append_1, pow_succ, Nat.mul_two]

end

/-! ### The tree of REDL (05 R135) -/

/-- Neighbours of a list of pairs combine. -/
theorem treeLevel_map (p : LaneOp) (z : Bool) (y : Nat → Option LaneRes) (n : Nat) :
    treeLevel p z ((List.range (2 * n)).map y) = (List.range n).map fun j => laneOpOpt p z (y (2 * j)) (y (2 * j + 1)) := by
  induction n generalizing y with
  | zero => rfl
  | succ n ih =>
    rw [Nat.mul_succ, List.range_succ_eq_map, List.range_succ_eq_map, List.range_succ_eq_map]
    simp only [List.map_cons, List.map_map, treeLevel]
    have := ih fun j => y (j + 2)
    simpa [Function.comp_def, Nat.mul_add] using this

/-- A level of neighbours is the next level of the tree. -/
theorem treeLevel_redTree (p : LaneOp) (z : Bool) (x : Nat → Option LaneRes) (l n : Nat) :
    treeLevel p z ((List.range (2 * n)).map fun j => redTree (laneOpOpt p z) x l (2 ^ l * j)) =
      (List.range n).map fun j => redTree (laneOpOpt p z) x (l + 1) (2 ^ (l + 1) * j) := by
  rw [treeLevel_map]
  refine List.map_congr_left fun j _ => ?_
  rw [redTree, pow_succ, Nat.mul_assoc, Nat.mul_add, Nat.mul_one]

/-- Five levels over 32 positions are the tree of R135. -/
theorem treeReduce_eq (p : LaneOp) (z : Bool) (x : Nat → Option LaneRes) :
    treeReduce p z ((List.range 32).map x) = redTree (laneOpOpt p z) x 5 0 := by
  have h0 : (List.range 32).map x = (List.range (2 * 16)).map fun j => redTree (laneOpOpt p z) x 0 (2 ^ 0 * j) := by
    simp [redTree]
  unfold treeReduce
  rw [h0, treeLevel_redTree p z x 0 16, treeLevel_redTree p z x 1 8, treeLevel_redTree p z x 2 4, treeLevel_redTree p z x 3 2,
    treeLevel_redTree p z x 4 1]
  rfl

/-! ### The scan of SCANL (05 R135) -/

/-- What a lane receives of a running value. -/
def laneGiven (p : LaneOp) (z : Bool) (x : Option LaneRes) : LaneRes := x.elim (LaneRes.int 0 false) (laneOpDeliver p z)

theorem laneGiven_eq (p : LaneOp) (z : Bool) (x : Option LaneRes) :
    (x.map (laneOpDeliver p z)).getD (LaneRes.int 0 false) = laneGiven p z x := by cases x <;> rfl

/-- A position receives the running value before it or with it. -/
theorem scanFrom_getD (p : LaneOp) (z excl : Bool) (l : List (Option LaneRes)) (run : Option LaneRes) {k : Nat} (hk : k < l.length) :
    (scanFrom p z excl l run).getD k (LaneRes.int 0 false) =
      laneGiven p z ((l.take (if excl then k else k + 1)).foldl (laneOpOpt p z) run) := by
  induction l generalizing run k with
  | nil => cases hk
  | cons x l ih =>
    rw [scanFrom]
    cases k with
    | zero => cases excl <;> exact laneGiven_eq _ _ _
    | succ k =>
      rw [List.getD_cons_succ, ih _ (Nat.lt_of_succ_lt_succ hk)]
      cases excl <;> rfl

/-! ### The values that the lanes hold (05 R135) -/

/-- The operand of a lane, absent where the lane does not execute the word. -/
def laneInput (q : Cur) (c : Ctl) (o : RLane) (k : Nat) : Option LaneRes :=
  if q.grp.runs q.slot c k then some (LaneRes.int (q.grp.opnd (laneOpRd o.op) o.a k) false) else none

theorem laneInputs_eq (q : Cur) (c : Ctl) (o : RLane) : laneInputs q c o = (List.range 32).map (laneInput q c o) := rfl

/-- The combination of the lanes of a list in its order. -/
def laneScan (q : Cur) (c : Ctl) (o : RLane) (l : List Nat) : Option LaneRes :=
  l.foldl (fun y k => laneOpOpt o.op q.blk.ftz y (laneInput q c o k)) none

/-- The executing lanes among the first `n` positions. -/
def Cur.activeBelow (q : Cur) (c : Ctl) (n : Nat) : List Nat := (List.range n).filter fun k => q.grp.runs q.slot c k

theorem Cur.mem_activeBelow {q : Cur} {c : Ctl} {n k : Nat} : k ∈ q.activeBelow c n ↔ k < n ∧ q.grp.runs q.slot c k = true := by
  simp [Cur.activeBelow]

theorem Cur.activeBelow_32 (q : Cur) (c : Ctl) : q.activeBelow c 32 = q.active c := rfl

theorem Cur.mem_active {q : Cur} {c : Ctl} {k : Nat} : k ∈ q.active c ↔ q.grp.runs q.slot c k = true := by
  rw [← Cur.activeBelow_32, Cur.mem_activeBelow]
  exact and_iff_right_of_imp Group.lt_32_of_runs

/-- The numbers below `n` among those below `m`. -/
theorem filter_lt_range {n m : Nat} (h : n ≤ m) : (List.range m).filter (fun j => decide (j < n)) = List.range n := by
  induction m, h using Nat.le_induction with
  | base => exact List.filter_eq_self.mpr fun j hj => by simpa using hj
  | succ m h ih => simp [List.range_succ, ih, Nat.not_lt.mpr h]

/-- The executing lanes below `n` are those of all executing lanes that lie below `n`. -/
theorem Cur.activeBelow_eq_filter (q : Cur) (c : Ctl) {n : Nat} (hn : n ≤ 32) :
    q.activeBelow c n = (q.active c).filter fun j => decide (j < n) := by
  rw [Cur.activeBelow, ← filter_lt_range hn, List.filter_comm]
  rfl

/-- The lanes whose values lane `k` receives of a scan (05 R135). -/
def Cur.upto (q : Cur) (c : Ctl) (excl : Bool) (k : Nat) : List Nat :=
  (q.active c).filter fun j => decide (j < k) || (!excl && decide (j = k))

/-- An absent value leaves the running one alone. -/
theorem laneOpOpt_none (p : LaneOp) (z : Bool) (y : Option LaneRes) : laneOpOpt p z y none = y := by cases y <;> rfl

section
variable (q : Cur) (c : Ctl) (o : RLane)

/-- Lanes that do not execute the word take no part in its combination. -/
theorem laneScan_activeBelow (n : Nat) : laneScan q c o (q.activeBelow c n) = laneScan q c o (List.range n) := by
  unfold laneScan Cur.activeBelow
  rw [List.foldl_filter]
  refine List.foldl_ext _ _ _ fun y k _ => ?_
  split
  · rfl
  · next hr => rw [laneInput, if_neg hr, laneOpOpt_none]

/-- What position `k` receives of the scan. -/
theorem scanFrom_laneInputs (excl : Bool) {k : Nat} (hk : k < 32) :
    (scanFrom o.op q.blk.ftz excl (laneInputs q c o) none).getD k (LaneRes.int 0 false) =
      laneGiven o.op q.blk.ftz (laneScan q c o (q.activeBelow c (if excl then k else k + 1))) := by
  have hn : (if excl then k else k + 1) ≤ 32 := by split <;> omega
  rw [scanFrom_getD _ _ _ _ _ (by simpa [laneInputs_eq] using hk), laneScan_activeBelow, laneInputs_eq, ← List.map_take, List.take_range,
    Nat.min_eq_left hn, List.foldl_map]
  rfl

/-- Lane `k` receives the values below it, or with its own those up to it. -/
theorem activeBelow_upto (excl : Bool) {k : Nat} (hk : k < 32) : q.activeBelow c (if excl then k else k + 1) = q.upto c excl k := by
  rw [q.activeBelow_eq_filter c (by split <;> omega)]
  refine List.filter_congr fun j _ => ?_
  cases excl
  · simp [Nat.le_iff_lt_or_eq]
  · simp

section
variable {β : Type} {ψ : LaneRes → β} {m : β → β → β} {u : β} (h : LaneShows o.op q.blk.ftz ψ m u)
include h

/-- What a combination of executing lanes shows. -/
theorem laneScan_shows {l : List Nat} (hl : ∀ k ∈ l, q.grp.runs q.slot c k = true) :
    (laneScan q c o l).elim u ψ = l.foldl (fun b k => m b (ψ (LaneRes.int (q.grp.opnd (laneOpRd o.op) o.a k) false))) u := by
  refine (h.foldl _ _ _).trans (List.foldl_ext _ _ _ fun b k hk => ?_)
  rw [laneInput, if_pos (hl k hk)]
  rfl

/-- What the tree over all positions shows. -/
theorem redTree_shows : (redTree (laneOpOpt o.op q.blk.ftz) (laneInput q c o) 5 0).elim u ψ =
    (q.active c).foldl (fun b k => m b (ψ (LaneRes.int (q.grp.opnd (laneOpRd o.op) o.a k) false))) u :=
  calc (redTree (laneOpOpt o.op q.blk.ftz) (laneInput q c o) 5 0).elim u ψ
    _ = (List.range 32).foldl (fun b k => m b ((laneInput q c o k).elim u ψ)) u := (h.redTree _ 5 0).trans (by rw [List.range_eq_range']; rfl)
    _ = (laneScan q c o (List.range 32)).elim u ψ := (h.foldl (laneInput q c o) _ none).symm
    _ = (laneScan q c o (q.active c)).elim u ψ := by rw [← laneScan_activeBelow, Cur.activeBelow_32]
    _ = _ := laneScan_shows q c o h fun _ => Cur.mem_active.mp

end

/-- A note taken at each member of a list has been taken if there is one. -/
theorem foldl_or_true {l : List Nat} (hl : l ≠ []) : l.foldl (fun b _ => b || true) false = true := by
  cases l with
  | nil => exact absurd rfl hl
  | cons k l => exact List.foldl_fixed' (fun _ => rfl) l

theorem exists_of_elim {x : Option LaneRes} (hx : x.elim false (fun _ => true) = true) : ∃ r, x = some r := by
  cases x with
  | none => cases hx
  | some r => exact ⟨r, rfl⟩

/-- A combination of executing lanes is there if there is one of them. -/
theorem laneScan_isSome {l : List Nat} (hl : ∀ k ∈ l, q.grp.runs q.slot c k = true) (hne : l ≠ []) : ∃ x, laneScan q c o l = some x :=
  exists_of_elim ((laneScan_shows q c o (laneShows_isSome _ _) hl).trans (foldl_or_true hne))

theorem redTree_isSome {k : Nat} (hk : q.grp.runs q.slot c k = true) :
    ∃ x, redTree (laneOpOpt o.op q.blk.ftz) (laneInput q c o) 5 0 = some x :=
  exists_of_elim ((redTree_shows q c o (laneShows_isSome _ _)).trans (foldl_or_true (List.ne_nil_of_mem (Cur.mem_active.mpr hk))))

end

/-! ### REDL and SCANL -/

section
variable {q : Cur} {c : Ctl} {o : RLane} {β : Type} {ψ : LaneRes → β} {m : β → β → β} {u : β} (h : LaneShows o.op q.blk.ftz ψ m u)
  (hd : ∀ r, laneOpDeliver o.op q.blk.ftz r = r)
include h hd

/-- What the tree delivers, if a lane executes the word, shows the fold over the executing lanes. -/
theorem given_redTree_shows {k : Nat} (hk : q.grp.runs q.slot c k = true) :
    ψ (laneGiven o.op q.blk.ftz (redTree (laneOpOpt o.op q.blk.ftz) (laneInput q c o) 5 0)) =
      (q.active c).foldl (fun b k => m b (ψ (LaneRes.int (q.grp.opnd (laneOpRd o.op) o.a k) false))) u := by
  obtain ⟨x, hx⟩ := redTree_isSome q c o hk
  rw [← redTree_shows q c o h, hx]
  exact congrArg ψ (hd x)

/-- What a scan delivers shows the fold over its lanes: also over none of them, where the unit shows as 0 does. -/
theorem given_laneScan_shows {l : List Nat} (hl : ∀ k ∈ l, q.grp.runs q.slot c k = true) (h0 : l = [] → ψ (LaneRes.int 0 false) = u) :
    ψ (laneGiven o.op q.blk.ftz (laneScan q c o l)) =
      l.foldl (fun b k => m b (ψ (LaneRes.int (q.grp.opnd (laneOpRd o.op) o.a k) false))) u := by
  by_cases hne : l = []
  · subst hne
    exact h0 rfl
  · obtain ⟨x, hx⟩ := laneScan_isSome q c o hl hne
    rw [← laneScan_shows q c o h hl, hx]
    exact congrArg ψ (hd x)

end

/-- What REDL delivers to every lane. -/
def redlRes (q : Cur) (c : Ctl) (o : RLane) : LaneRes :=
  { laneGiven o.op q.blk.ftz (redTree (laneOpOpt o.op q.blk.ftz) (laneInput q c o) 5 0) with t := q.grp.xtaint [o.a] }

/-- What REDL delivers is, but for the taint, what the tree holds, if a lane executes the word. -/
theorem redlRes_delivers {q : Cur} {c : Ctl} {o : RLane} {k : Nat} (hk : q.grp.runs q.slot c k = true) :
    ∃ x, redTree (laneOpOpt o.op q.blk.ftz) (laneInput q c o) 5 0 = some x ∧
      (redlRes q c o).v = (laneOpDeliver o.op q.blk.ftz x).v ∧ (redlRes q c o).fl = (laneOpDeliver o.op q.blk.ftz x).fl ∧
      (redlRes q c o).assist = (laneOpDeliver o.op q.blk.ftz x).assist := by
  obtain ⟨x, hx⟩ := redTree_isSome q c o hk
  refine ⟨x, hx, ?_⟩
  rw [redlRes, hx]
  exact ⟨rfl, rfl, rfl⟩

/-- What SCANL delivers to a lane: the flags and the assist of the whole scan are its own too (log 87). -/
def scanlRes (q : Cur) (c : Ctl) (o : RLane) (k : Nat) : LaneRes :=
  let d := laneGiven o.op q.blk.ftz (laneScan q c o (q.upto c o.excl k))
  let all := laneGiven o.op q.blk.ftz (laneScan q c o (q.active c))
  ⟨d.v, q.grp.xtaint [o.a], all.fl ||| d.fl, all.assist || d.assist⟩

section
variable {s : State} {q : Cur} (h : s.cur? = some q) (c : Ctl) (o : RLane)
include h

theorem computesF_redl : ComputesF s (.redl c o) q c o.d.r false fun _ => redlRes q c o :=
  computesF_floatWord (withCur_of_cur h _) h fun k => by
    rw [laneGiven_eq, laneInputs_eq, treeReduce_eq]
    rfl

theorem computesF_scanl : ∃ r, ComputesF s (.scanl c o) q c o.d.r false r ∧ ∀ k < 32, r k = scanlRes q c o k := by
  refine ⟨_, computesF_floatWord (withCur_of_cur h _) h fun k => rfl, fun k hk => ?_⟩
  dsimp only
  rw [scanFrom_laneInputs q c o o.excl hk, activeBelow_upto q c o.excl hk, scanFrom_laneInputs q c o false (by decide : 31 < 32)]
  rfl

end

/-- Settles O8: the words that read other lanes are lane words; REDL's tree and SCANL's scan show of the executing lanes' values what a fold over
them shows, whatever observation the combination keeps. -/
theorem laneWords : Obligations.LaneWords := by
  refine ⟨fun s q c h => ⟨fun o => ⟨?shfl, ?shflx, ?bcast⟩, fun o => ?cxch, fun o => ⟨?vote, ?matchL⟩⟩, fun s q c o h => ?tree⟩
  case shfl => exact computes_laneWord (rfl : _ = execShfl c o s) h (fun _ => (q.grp.xtaint_two o.a o.b).symm) fun _ _ => rfl
  case shflx => exact computes_laneWord (rfl : _ = execShflx c o s) h (fun _ => (q.grp.xtaint_two o.a o.b).symm) fun _ _ => rfl
  case bcast => exact computes_laneWord (withCur_of_cur h _) h (fun _ => (q.grp.xtaint_two o.a o.b).symm) fun _ _ => rfl
  case cxch =>
    refine computes_laneWord (withCur_of_cur h _) h (fun _ => (q.grp.xtaint_two o.a o.b).symm) fun k _ => ?_
    dsimp only [laneNo]
    simp only [Bool.not_eq_true', Bool.bne_eq_xor]
    split
    · rfl
    · split
      · exact fun j hj => (congrArg BitVec.toInt (sub_map2 _ _ (itype_width_dvd _) hj _ _ _)).trans (eMin_toInt _ _)
      · exact fun j hj => (congrArg BitVec.toInt (sub_map2 _ _ (itype_width_dvd _) hj _ _ _)).trans (eMax_toInt _ _)
  case vote =>
    refine computes_laneWord (withCur_of_cur h _) h (fun _ => (q.grp.xtaint_one o.a).symm) fun k _ m hm => ?_
    rw [maskOf_setWidth_bit _ hm, bne, beq_eq_decide, ← decide_not, ← Bool.and_assoc]
    rfl
  case matchL =>
    refine computes_laneWord (withCur_of_cur h _) h (fun _ => (q.grp.xtaint_one o.a).symm) fun k _ m hm => ?_
    rw [maskOf_setWidth_bit _ hm, beq_eq_decide, ← Bool.and_assoc]
    rfl
  case tree =>
    obtain ⟨d, a, op, excl⟩ := o
    refine ⟨⟨_, computesF_redl h c _, fun k hk => ⟨q.grp.xtaint_one a, ?redl⟩⟩, ?scanl⟩
    case redl =>
      have shown := @given_redTree_shows q c ⟨d, a, op, excl⟩
      cases op with
      | flt f t => exact redlRes_delivers hk
      | int r t =>
        cases r with
        | add => exact fun j hj => (shown (laneShows_add t _ hj) (fun _ => rfl) hk :)
        | and => exact fun i _ => (shown (laneShows_and t _ i) (fun _ => rfl) hk :)
        | or => exact fun i _ => (shown (laneShows_or t _ i) (fun _ => rfl) hk :)
        | xor => exact fun i _ => (shown (laneShows_xor t _ i) (fun _ => rfl) hk :)
        | min | max | umin | umax => exact redlRes_delivers hk
    case scanl =>
      obtain ⟨r, hr, hv⟩ := computesF_scanl h c ⟨d, a, op, excl⟩
      refine ⟨r, hr, fun k hk => ?_⟩
      have hl : ∀ j ∈ q.upto c excl k, q.grp.runs q.slot c j = true := fun j hj => Cur.mem_active.mp (List.mem_filter.mp hj).1
      rw [hv k (Group.lt_32_of_runs hk)]
      have shown := @given_laneScan_shows q c ⟨d, a, op, excl⟩
      refine ⟨q.grp.xtaint_one a, ?_⟩
      cases op with
      | flt f t => exact ⟨rfl, rfl, rfl⟩
      | int r t =>
        cases r with
        | add => exact fun j hj => (shown (laneShows_add t _ hj) (fun _ => rfl) hl fun _ => BitVec.extractLsb'_zero :)
        | and => exact fun hne i _ => (shown (laneShows_and t _ i) (fun _ => rfl) hl fun he => absurd he hne :)
        | or => exact fun i _ => (shown (laneShows_or t _ i) (fun _ => rfl) hl fun _ => BitVec.getLsbD_zero :)
        | xor => exact fun i _ => (shown (laneShows_xor t _ i) (fun _ => rfl) hl fun _ => BitVec.getLsbD_zero :)
        | min | max | umin | umax => exact ⟨rfl, rfl, rfl⟩

end Sys2Proof.Machine
end
